-- ==== Sys2Proof/Word.lean ====
section
/-!
DEFINITION. The plain types of the CS-241: bytes, the slot count, a profile image, and fixed tables.
Temperatures are `Int` and powers, duties and lengths are `Nat`, since the manual computes with them as integers
and names every clamp (spec/00_scope.md, Conventions). Bit vectors stand only where the manual wraps or packs.
-/

namespace Sys2Proof

/-- One byte of exchange memory or of the profile image. -/
abbrev Byte := BitVec 8

/-- A two-byte field as it travels over the link. -/
abbrev Half := BitVec 16

/-- A slot count, which wraps modulo 2^32 (R15). -/
abbrev SlotCount := BitVec 32

/-- A profile image or a service record, as the list of its bytes (chapter 9). -/
abbrev Image := List Byte

/-- A fixed table given by its entries. -/
def tab {α : Type} (n : Nat) (f : Fin n → α) : Vector α n := ⟨⟨List.ofFn f⟩, by simp⟩

@[simp] theorem tab_getElem {α : Type} {n : Nat} (f : Fin n → α) (i : Nat) (h : i < n) :
    (tab n f)[i] = f ⟨i, h⟩ := by
  simp [tab]

@[simp] theorem tab_get {α : Type} {n : Nat} (f : Fin n → α) (i : Fin n) : (tab n f)[i] = f i := by
  simp [tab]

/-- `x` clamped to the range `lo` to `hi`. -/
def clampInt (lo hi x : Int) : Int := if x < lo then lo else if hi < x then hi else x

end Sys2Proof
end

