-- ==== Sys2Proof/Syntax.lean ====
section
/-!
DEFINITION. The commands and events of the CS-241, one constructor for each row of spec/opcode_table.json.
The table gives no row a word and no row an operand, so each operand below is the datum the row's rule takes from
outside the part: a sampled level, a converter code, the bytes of a link frame, the fields of a slip.
-/

namespace Sys2Proof

/-- What the host writes into a slot of the slip table beside the kind and the parameters (R163). -/
structure SlipHead where
  slot : Fin 16
  priority : Byte
  next : Byte
  tag : Half
deriving DecidableEq, Repr

/-- One step of the part: a row of spec/opcode_table.json. -/
inductive Instr where
  /-- POWER_ON (R15, R159): the supply returns. -/
  | powerOn
  /-- BROWN_OUT (R159): the supply falls below the brown-out level. -/
  | brownOut
  /-- PROFILE_LOAD (R176): the end of the power-on load. -/
  | profileLoad
  /-- SLOT_START (R15): a slot begins; the levels of PGOOD and HSLEEP (true = asserted) and of IN0 to IN3
  (bit k = INk is high) as sampled at it. -/
  | slotStart (pgood hsleep : Bool) (inputs : BitVec 4)
  /-- WINDOW_BOUNDARY (R16). -/
  | windowBoundary
  /-- START_RESERVATION_ANSWER (R75). -/
  | startReservationAnswer
  /-- CONVERSION_END (R2): the channel and the code the converter gave. -/
  | conversionEnd (channel : Fin 6) (code : BitVec 12)
  /-- RAIL_CONVERSION_END (R11): the VSNS and ISNS codes. -/
  | railConversionEnd (vsns isns : BitVec 12)
  /-- TACH_EDGE (R48): a falling edge of FTACH0 or FTACH1, with the whole µs since the edge before it. -/
  | tachEdge (fan : Fin 2) (elapsed : Nat)
  /-- TACH_TIMEOUT (R48). -/
  | tachTimeout (fan : Fin 2)
  /-- SLEEP_HOLD_END (R85). -/
  | sleepHoldEnd
  /-- PGOOD_LIMIT_END (R77). -/
  | pgoodLimitEnd
  /-- RESET_HOLD_END (R76). -/
  | resetHoldEnd
  /-- STOP_LIMIT_END (R85). -/
  | stopLimitEnd
  /-- RESET_DELAY_END (R86). -/
  | resetDelayEnd
  /-- RESET_WIDTH_END (R86). -/
  | resetWidthEnd
  /-- OFF_TIMER_END (R87). -/
  | offTimerEnd
  /-- PULSE_END (R92). -/
  | pulseEnd
  /-- OVERRIDE_END (R93). -/
  | overrideEnd
  /-- GRACE_EXPIRY (R109). -/
  | graceExpiry
  /-- STAGE1_EXPIRY (R110). -/
  | stage1Expiry
  /-- STAGE2_EXPIRY (R111). -/
  | stage2Expiry
  /-- STABLE_END (R116). -/
  | stableEnd
  /-- SCAN_END (R128): the raw charge counts of K0 to K23; the counts of keys that are not enabled are not read. -/
  | scanEnd (counts : Vector (BitVec 12) 24)
  /-- HOLD (R137). -/
  | hold (key : Fin 24)
  /-- CHORD (R138). -/
  | chord (number : Fin 4)
  /-- READ (R153): the end of a READ frame: after `n` complete data bytes, or, where no READ_ADDRESS_COMPLETE came, after `n`
  complete address bytes, 0 or 1 (R150, R152). -/
  | read (n : Nat)
  /-- WRITE (R155): a WRITE frame, with the complete bytes after its command byte. -/
  | write (bytes : List Byte)
  /-- STATUS (R151): a STATUS frame, with how many complete bytes came after its command byte. -/
  | status (n : Nat)
  /-- CLEAR (R158): a CLEAR frame, with how many complete bytes came after its command byte. -/
  | clear (n : Nat)
  /-- UNKNOWN_COMMAND (R150): a frame with another command byte, and how many complete bytes came after it. -/
  | unknownCommand (command : Byte) (n : Nat)
  /-- ATTENTION_ACKNOWLEDGE (R161): the host writes the acknowledge word. -/
  | attentionAcknowledge (word : Half)
  /-- ATTENTION_ENABLE (R161): the host writes the enable word. -/
  | attentionEnable (word : Half)
  /-- KICK (R106): the host writes the kick word. -/
  | kick (value : Byte)
  /-- KEY_READ_COUNTER (R143): the host writes the key read counter. -/
  | keyReadCounter (value : Half)
  /-- SLIP_POST (R167): the host writes POSTED into a slot's owner byte. -/
  | slipPost (slot : Fin 16)
  /-- SLIP_CHAIN (R164): the host writes CHAINED into a slot's owner byte. -/
  | slipChain (slot : Fin 16)
  /-- SLIP_WITHDRAW (R164): the host writes FREE into the owner byte of a slot it offered. -/
  | slipWithdraw (slot : Fin 16)
  /-- SLIP_STOPREQ (R173): the host writes STOPREQ into a slot's owner byte. -/
  | slipStopreq (slot : Fin 16)
  /-- SLIP_FREE (R164): the host writes FREE into the owner byte of a slot whose result it has read. -/
  | slipFree (slot : Fin 16)
  /-- SET_ZONE_TARGET (R20): the host posts this slip. -/
  | setZoneTarget (h : SlipHead) (zone action : Byte) (setpoint : Half)
  /-- SET_FAN_FLOOR (R51). -/
  | setFanFloor (h : SlipHead) (fan floor : Byte)
  /-- PROBE_AIRFLOW (R61). -/
  | probeAirflow (h : SlipHead)
  /-- RESET_FILTER_REFERENCE (R62). -/
  | resetFilterReference (h : SlipHead)
  /-- REQUEST_STOP (R96). -/
  | requestStop (h : SlipHead) (restartAfter : BitVec 32)
  /-- REQUEST_RESTART (R97). -/
  | requestRestart (h : SlipHead) (mode : Byte)
  /-- SET_WATCHDOG (R120). -/
  | setWatchdog (h : SlipHead) (mode : Byte) (s1 s2 early : Half)
  /-- REBASELINE_KEYS (R145). -/
  | rebaselineKeys (h : SlipHead) (mask : BitVec 24)
  /-- READ_PROFILE (R178). -/
  | readProfile (h : SlipHead)
  /-- COMMIT_PROFILE (R179). -/
  | commitProfile (h : SlipHead)
  /-- UNKNOWN_KIND (R168): a slip of a kind byte that section 10.4 does not list. -/
  | unknownKind (h : SlipHead) (kind : Byte)
  /-- PROGRAMMING_END (R179). -/
  | programmingEnd
  /-- SERVICE_WRITE_END (R181). -/
  | serviceWriteEnd
  /-- READ_ADDRESS_COMPLETE (R153): a READ frame whose two address bytes are complete. -/
  | readAddressComplete (high low : Byte)
deriving DecidableEq, Repr

end Sys2Proof
end

