-- ==== Sys2Proof/Config.lean ====
section
/-!
DEFINITION. The free values: results the manual leaves open, as constants with no body, so that nothing in Lean can
evaluate one or prove a value of it.
-/

namespace Sys2Proof.Config

/-- Byte `i` of the stored image after a programming that a loss of supply cut off. R175 says that the loss ends the
programming "at the point it has reached", and R176 calls the image torn; what each byte then holds is not stated.
The first argument is the fresh-value counter of `State`. FREE VALUE, log entry 6. -/
opaque tornImageByte : Nat → Nat → Byte

/-- Byte `i`, 0 to 29, of the service record after a write that a loss of supply cut off (R175, R181). FREE VALUE, log
entry 6. -/
opaque tornServiceByte : Nat → Nat → Byte

/-- By how much the CRC of that record differs from the right one, less 1, taken modulo 65,535: R181 says that the CRC of a
record whose write was cut off fails, and not how. FREE VALUE, log entry 6. -/
opaque tornServiceCrc : Nat → Nat

/-- The rpm formed, before it is held at 65,535 (R48), from a tach period timed before any profile has given the fan its
pulses per revolution (R48 names the active profile's ppr only). FREE VALUE, log entry 7. -/
opaque rpmBeforeProfile : Nat → Nat

end Sys2Proof.Config
end

