-- ==== Sys2Proof/Machine/State.lean ====
section
/-!
DEFINITION. Everything the manual gives the part to hold, block by block, as plain data, with the queue of waiting
commands and the state after reset. Each structure cites the rule that names its fields; `INVENTORY.md` lists every
field with its reset value.
-/

namespace Sys2Proof.Machine

/-! ### Timebase (R15, R16) -/

/-- The timebase. `started` says whether the first slot start has come (R15: it is that of slot count 0).
`boundaryTaken` says whether this window's boundary has been delivered (R16: one for each slot 0). -/
structure Timebase where
  slotCount : SlotCount
  started : Bool
  boundaryTaken : Bool
deriving DecidableEq, Repr

/-! ### Sensing unit (R1, R11 to R13) -/

/-- A channel record (R1). -/
structure Channel where
  lastCode : Option (BitVec 12)
  accepted : Option Int
  pendingValue : Option Int
  fault : Bool
deriving DecidableEq, Repr

/-- The sensing unit: channels 0 INLET, 1 OUTLET, 2 MODULE, 3 DISPLAY, 4 GLASS, 5 OUTSIDE, and the rail values.
`converted` says whether the current slot's thermistor conversion has ended (R2: one in the slot of each channel), and
`railConverted` whether its rail conversion has (R11: one in each slot). -/
structure Sensing where
  channels : Vector Channel 6
  converted : Bool
  railConverted : Bool
  railVoltage : Nat
  railCurrent : Nat
  windowSum : Nat
  railAverage : Nat
deriving DecidableEq, Repr

/-! ### Climate controller (R17, R33, R35) -/

/-- A zone record (R17). -/
structure ZoneRec where
  integrator : Nat
  request : Nat
  grant : Nat
  heldHigh : Bool
  override : Option Int
  effective : Int
deriving DecidableEq, Repr

/-- The climate controller: the zone records, the figures of the last allotment, the heater outputs HTR0 to HTR2,
and an answer to the start request that the rail controller has not yet received (R75): granted or not, and the
slot count of the boundary at which it was given. -/
structure Climate where
  zones : Vector ZoneRec 3
  hostAllowance : Nat
  available : Nat
  heaters : Vector Bool 3
  answer : Option (Bool × SlotCount)
deriving DecidableEq, Repr

/-! ### Air controller (R42, R47, R52, R60) -/

/-- A fan record (R42) with the fan's FPWM output in percent (R47). -/
structure FanRec where
  duty : Nat
  floor : Option Nat
  kickAge : Option Nat
  period : Nat
  timing : Bool
  rpm : Nat
  stallCount : Nat
  goodCount : Nat
  fault : Bool
  output : Nat
deriving DecidableEq, Repr

/-- The phase of the probe (R52). -/
inductive ProbePhase where
  | idle | waiting | settle | measure | writing
deriving DecidableEq, Repr

/-- What began the probe (R52). -/
inductive ProbeOrigin where
  | schedule | probeAirflow | resetFilterReference
deriving DecidableEq, Repr

/-- Why the last probe that did not complete ended (R52). -/
inductive AbortReason where
  | noReason | rail | heat | fan | hot | load | sensor | stopped | lowLoad | noRise
deriving DecidableEq, Repr

/-- The parameters a probe takes from the profile at its start (R52, R53). -/
structure HeldParams where
  probeDuty : Nat
  settleTime : Nat
  measureTime : Nat
deriving DecidableEq, Repr

/-- The figures of a completed measurement (R57), kept for the payload of R62 while the reference is written. -/
structure ProbeFigures where
  rf : Nat
  averageRise : Int
  averageDraw : Nat
deriving DecidableEq, Repr

/-- The probe record (R52). -/
structure Probe where
  phase : ProbePhase
  origin : Option ProbeOrigin
  heldParams : Option HeldParams
  windowsLeft : Nat
  referenceDraw : Option Nat
  riseSum : Int
  powerSum : Nat
  stopPending : Bool
  replacedDue : Bool
  lastAbort : AbortReason
  figures : ProbeFigures
deriving DecidableEq, Repr

/-- The air controller: fans, probe, clog state (R52) and schedule counters (R60). -/
structure Air where
  fans : Vector FanRec 2
  probe : Probe
  filterReference : Nat
  clogIndex : Nat
  clogLimit : Bool
  elapsed : Nat
  retry : Nat
deriving DecidableEq, Repr

/-! ### Rail controller (R66 to R69, R89) -/

/-- The eight rail states, in the order of their codes (section 10.2). -/
inductive RailState where
  | off | warming | starting | running | stopping | resetting | cooldown | lockout
deriving DecidableEq, Repr

/-- Why a WARMING rail has not started (R74), in the order of the codes of section 10.3. -/
inductive WaitReason where
  | noWait | hold | hot | cold | budget
deriving DecidableEq, Repr

/-- An input record (R89): levels are true for high. -/
structure InputRec where
  lastSample : Option Bool
  agree : Nat
  taken : Option Bool
deriving DecidableEq, Repr

/-- The rail record (R66), the timers of R68 as the slot counts at which they end, the sampled levels of PGOOD and
HSLEEP (R69, true = asserted), the input records (R89) and the three lines to the host (R67, true = asserted).
In STARTING a PGOOD limit that is not running has ended. `judgedAt` is the slot count of the slot start at which the gate
was judged on the entry into WARMING (R71), until that slot start's own work has found it. -/
structure Rail where
  state : RailState
  restartPending : Bool
  offTime : Nat
  stopRestart : Nat
  startRequest : Bool
  budgetRefused : Bool
  waitReason : WaitReason
  warmCount : Vector Nat 3
  warmingAge : Nat
  overcurrentCount : Nat
  sleepCount : Nat
  pgoodLimit : Option SlotCount
  resetHold : Option SlotCount
  stopLimit : Option SlotCount
  resetDelay : Option SlotCount
  resetWidth : Option SlotCount
  offTimer : Option SlotCount
  pulse : Option SlotCount
  override : Option SlotCount
  pgood : Bool
  hsleep : Bool
  inputs : Vector InputRec 4
  railEn : Bool
  hrst : Bool
  hpwrbtn : Bool
  judgedAt : Option SlotCount
deriving DecidableEq, Repr

/-! ### Liveness monitor (R100, R101, R118, R119) -/

/-- The watchdog states, in the order of their codes (section 10.2). -/
inductive WatchdogState where
  | dormant | grace | watching | warned | paused | expired
deriving DecidableEq, Repr

/-- The state that PAUSED returns to (R100). -/
inductive PausedFrom where
  | grace | watching
deriving DecidableEq, Repr

/-- Why the last refused kick was refused (R100). -/
inductive KickRefusal where
  | noRefusal | badValue | early
deriving DecidableEq, Repr

/-- A set of the three stage values, in seconds (R101). -/
structure StageSet where
  s1 : Nat
  s2 : Nat
  early : Nat
deriving DecidableEq, Repr

/-- The causes of a restart record, in the order of their codes, which begin at 1 (section 10.6). -/
inductive RestartCause where
  | graceExpiry | stage2Expiry | noPowergood | powergoodLost | overcurrent
  | overtemp | stopTimeout | inputCut | keyOverride | hostRequest
deriving DecidableEq, Repr

/-- The action of a restart record as carried out (R119). -/
inductive RecordAction where
  | warm | cold | lockout | off
deriving DecidableEq, Repr

/-- A restart record (R119). -/
structure RestartRecord where
  number : Nat
  cause : RestartCause
  action : RecordAction
  indexBefore : Nat
  lateKick : Bool
  lastRefusal : KickRefusal
  moduleTemp : Int
  moduleValid : Bool
  outsideTemp : Int
  outsideValid : Bool
  railBefore : RailState
  slot : SlotCount
deriving DecidableEq, Repr

/-- The monitor record (R100), its two stage sets (R101) and the restart records, newest first (R118). -/
structure Monitor where
  watchdog : WatchdogState
  armed : Bool
  pausedFrom : PausedFrom
  hsleep : Bool
  stageEnd : Option SlotCount
  expected : Option Byte
  lastKick : Option SlotCount
  lastRefusal : KickRefusal
  ladderIndex : Nat
  stableEnd : Option SlotCount
  pendingRecord : Option Nat
  recordCounter : Nat
  runtimeSet : StageSet
  inForce : StageSet
  records : List RestartRecord
deriving DecidableEq, Repr

/-! ### Keypad controller (R125, R126) -/

/-- The touch states of a key, in the order of their codes (section 10.7). -/
inductive KeyState where
  | idle | pressing1 | pressing2 | touched | releasing1 | releasing2 | calibrating
deriving DecidableEq, Repr

/-- A key record (R125). -/
structure KeyRec where
  state : KeyState
  baseline : Nat
  raw : Nat
  drift : Nat
  touchTime : Option SlotCount
  nextHold : Option SlotCount
  calSum : Nat
  calCount : Nat
deriving DecidableEq, Repr

/-- A chord's state (R126): fired or armed, and the slot count at which its hold ends. -/
structure ChordRec where
  fired : Bool
  holdEnd : Option SlotCount
deriving DecidableEq, Repr

/-- The key records and the keypad record (R125, R126). `edgeSet` is none until the first publication; `scan` is the
slot count of a scan that has begun and not ended (R127, R128); bit k of `rebaseline` is set for a key of the
rebaseline set. -/
structure Keypad where
  keys : Vector KeyRec 24
  fog : Bool
  edgeSet : Option (List Nat)
  deferred : Bool
  scan : Option SlotCount
  chords : Vector ChordRec 4
  writeCounter : Half
  readCounter : Half
  gap : Nat
  rebaseline : Option (BitVec 24)
  stopPending : Bool
deriving DecidableEq, Repr

/-! ### Exchange memory and guard (R150, R151, R159, R160) -/

/-- The point the current frame has reached (R150). -/
inductive FramePhase where
  | idle | command | address | data | ignore
deriving DecidableEq, Repr

/-- The frame's command (R150). -/
inductive FrameCommand where
  | read | write | status | clear
deriving DecidableEq, Repr

/-- The frame record (R150). `held` is the held image, sorted by address; `covered` is the first address of the
covered range of an open READ frame (R153). -/
structure Frame where
  phase : FramePhase
  command : Option FrameCommand
  addressCounter : Half
  addressBytes : Nat
  buffer : List Host.Cell
  held : List Host.Cell
  latched : Option Byte
  covered : Option Nat
deriving DecidableEq, Repr

/-- The exchange memory block: the memory as an open frame reads it, in canonical form (see `Memory.wf`), the frame
record, the held flags of the link status byte (R151), the attention summary and enable (R160, R161), and the bytes
shifted out on MISO in the latest frame. -/
structure Exchange where
  mem : List Host.Cell
  frame : Frame
  ready : Bool
  refused : Bool
  range : Bool
  summary : BitVec 12
  enable : BitVec 12
  miso : List Byte
deriving DecidableEq, Repr

/-! ### Slip engine (R166) -/

/-- The slip engine: last served, the served flag and the three bindings (R166). -/
structure Engine where
  lastServed : Fin 16
  served : Bool
  storeSlot : Option (Fin 16)
  airSlot : Option (Fin 16)
  keypadSlot : Option (Fin 16)
deriving DecidableEq, Repr

/-! ### Profile store (R175, R181) -/

/-- The stage of a commit in flight (R175). -/
inductive CommitPhase where
  | idle | programming | armed
deriving DecidableEq, Repr

/-- The stage of a service record write (R175). -/
inductive ServicePhase where
  | idle | waiting | writing
deriving DecidableEq, Repr

/-- The store record (R175), the two nonvolatile areas (R176, R181), the Rf being written (R181), whether the active
profile is the factory profile (R178), and the slot counts at which programming and the write began. `active` is none
until the power-on load ends. -/
structure Store where
  active : Option Image
  factoryActive : Bool
  commit : CommitPhase
  service : ServicePhase
  stagingHeld : Bool
  storedImage : Image
  serviceRecord : Image
  serviceRf : Nat
  programmingBegan : Option SlotCount
  writeBegan : Option SlotCount
deriving DecidableEq, Repr

/-! ### The whole part -/

/-- The state of the part. `supplyLow` is set while the supply is below the brown-out level (R159); `fresh` counts the
free values taken (the model's own field); `pending` is the queue of waiting commands, first in, first out. -/
structure State where
  time : Timebase
  sense : Sensing
  climate : Climate
  air : Air
  rail : Rail
  mon : Monitor
  keypad : Keypad
  xmem : Exchange
  engine : Engine
  store : Store
  supplyLow : Bool
  fresh : Nat
  pending : List Instr
deriving DecidableEq, Repr

/-- The reasons a step can stop with a fault. There is none: the manual gives the part no event after which it stops,
and every command of the table has a stated effect in every state (log entry 3). Safe, since nothing is hidden by a
fault that never comes. -/
inductive Fault where
deriving DecidableEq, Repr

/-- The reasons a command has no meaning in the model. -/
inductive Refusal where
  /-- Raised by an arm of `exec` whose command has no meaning yet; no arm is such an arm. Safe: the model stops. -/
  | notModelled (mnemonic : String)
deriving DecidableEq, Repr

/-! ### Reset -/

/-- A channel record after power-on (R1). -/
def Channel.initial : Channel := { lastCode := none, accepted := none, pendingValue := none, fault := false }

/-- A zone record after power-on (R17). -/
def ZoneRec.initial : ZoneRec :=
  { integrator := 0, request := 0, grant := 0, heldHigh := false, override := none, effective := 0 }

/-- A fan record after power-on (R42), its output held at 0 %. -/
def FanRec.initial : FanRec :=
  { duty := 0, floor := none, kickAge := none, period := 1000000, timing := false, rpm := 0, stallCount := 0,
    goodCount := 0, fault := false, output := 0 }

/-- The probe record after power-on (R52). A field without a stated starting value is 0, here and in the rail, the monitor
and the store below (DESIGN CHOICE, log entry 4). -/
def Probe.initial : Probe :=
  { phase := .idle, origin := none, heldParams := none, windowsLeft := 0, referenceDraw := none, riseSum := 0,
    powerSum := 0, stopPending := false, replacedDue := false, lastAbort := .noReason,
    figures := { rf := 0, averageRise := 0, averageDraw := 0 } }

/-- The air controller after power-on (R42, R52, R60), before the load hands over Rref. R52 gives Rref and C as the load hands
Rref over; until then the model holds Rref 0 and with it C 0xFFFF (DESIGN CHOICE, log entry 4). -/
def Air.initial : Air :=
  { fans := Vector.replicate 2 FanRec.initial, probe := Probe.initial, filterReference := 0, clogIndex := 0xFFFF,
    clogLimit := false, elapsed := 0, retry := 0 }

/-- The rail controller after power-on (R66, R67, R89). -/
def Rail.initial : Rail :=
  { state := .off, restartPending := false, offTime := 0, stopRestart := 0, startRequest := false,
    budgetRefused := false, waitReason := .noWait, warmCount := Vector.replicate 3 0, warmingAge := 0,
    overcurrentCount := 0, sleepCount := 0, pgoodLimit := none, resetHold := none, stopLimit := none,
    resetDelay := none, resetWidth := none, offTimer := none, pulse := none, override := none, pgood := false,
    hsleep := false, inputs := Vector.replicate 4 { lastSample := none, agree := 0, taken := none },
    railEn := false, hrst := false, hpwrbtn := false, judgedAt := none }

/-- The monitor after power-on (R100), before the load gives it the armed flag and the sets. -/
def Monitor.initial : Monitor :=
  { watchdog := .dormant, armed := false, pausedFrom := .grace, hsleep := false, stageEnd := none, expected := none,
    lastKick := none, lastRefusal := .noRefusal, ladderIndex := 0, stableEnd := none, pendingRecord := none,
    recordCounter := 0, runtimeSet := { s1 := 0, s2 := 0, early := 0 },
    inForce := { s1 := 0, s2 := 0, early := 0 }, records := [] }

/-- A key record after power-on (R125). -/
def KeyRec.initial : KeyRec :=
  { state := .calibrating, baseline := 0, raw := 0, drift := 0, touchTime := none, nextHold := none, calSum := 0,
    calCount := 0 }

/-- The keypad controller after power-on (R125, R126). -/
def Keypad.initial : Keypad :=
  { keys := Vector.replicate 24 KeyRec.initial, fog := true, edgeSet := none, deferred := false, scan := none,
    chords := Vector.replicate 4 { fired := false, holdEnd := none }, writeCounter := 0, readCounter := 0, gap := 0,
    rebaseline := none, stopPending := false }

/-- The frame record after power-on (R150). -/
def Frame.initial : Frame :=
  { phase := .idle, command := none, addressCounter := 0, addressBytes := 0, buffer := [], held := [],
    latched := none, covered := none }

/-- The exchange memory block after power-on (R159): no address is listed, since an unlisted address reads as R159
states it after power-on (`resetByte` of Machine/Ops.lean). -/
def Exchange.initial : Exchange :=
  { mem := [], frame := Frame.initial, ready := false, refused := false, range := false, summary := 0,
    enable := 0xFFF, miso := [] }

/-- The slip engine after power-on (R166). -/
def Engine.initial : Engine :=
  { lastServed := 15, served := false, storeSlot := none, airSlot := none, keypadSlot := none }

/-- The store after power-on (R175) over the given nonvolatile contents. -/
def Store.initial (image record : Image) : Store :=
  { active := none, factoryActive := false, commit := .idle, service := .idle, stagingHeld := false,
    storedImage := image, serviceRecord := record, serviceRf := 0, programmingBegan := none, writeBegan := none }

/-- The part right after reset: power-on, with the load not yet ended. DESIGN CHOICE, log entry 5: the two nonvolatile
areas hold zeros, so neither passes its check and the load falls back to the factory profile and to Rref 0. -/
def State.reset : State :=
  { time := { slotCount := 0, started := false, boundaryTaken := false },
    sense :=
      { channels := Vector.replicate 6 Channel.initial, converted := false, railConverted := false,
        railVoltage := 0, railCurrent := 0, windowSum := 0, railAverage := 0 },
    climate :=
      { zones := Vector.replicate 3 ZoneRec.initial, hostAllowance := 0, available := 0,
        heaters := Vector.replicate 3 false, answer := none },
    air := Air.initial,
    rail := Rail.initial,
    mon := Monitor.initial,
    keypad := Keypad.initial,
    xmem := Exchange.initial,
    engine := Engine.initial,
    store := Store.initial (List.replicate 1024 0) (List.replicate 32 0),
    supplyLow := false, fresh := 0, pending := [] }

end Sys2Proof.Machine
end

