-- ==== Sys2Proof/Machine/Operands.lean ====
section
/-!
DEFINITION. Operand forms: byte order and sign (R182), the codes of the enumerated fields (sections 10.2 to 10.8), and
the fields of a profile image at the offsets of section 10.8.
-/

namespace Sys2Proof.Machine

/-! ### Byte order and sign (R182) -/

/-- The two bytes of `n`, least significant first. -/
def le16 (n : Nat) : List Byte := [BitVec.ofNat 8 n, BitVec.ofNat 8 (n / 256)]

/-- The four bytes of `n`, least significant first. -/
def le32 (n : Nat) : List Byte :=
  [BitVec.ofNat 8 n, BitVec.ofNat 8 (n / 256), BitVec.ofNat 8 (n / 65536), BitVec.ofNat 8 (n / 16777216)]

/-- The two bytes of `x` in two's complement, least significant first. -/
def sle16 (x : Int) : List Byte := le16 (BitVec.ofInt 16 x).toNat

/-- `n`, an unsigned 16-bit value, read in two's complement. -/
def signed16 (n : Nat) : Int := if n < 32768 then (n : Int) else (n : Int) - 65536

/-- `n`, an unsigned byte, read in two's complement. -/
def signed8 (n : Nat) : Int := if n < 128 then (n : Int) else (n : Int) - 256

/-- A flag as a byte: 0 clear, 1 set. -/
def flagByte (b : Bool) : Byte := if b then 1 else 0

/-! ### Codes of the exchange memory formats -/

/-- The codes of section 10.2, rail state. -/
def RailState.code : RailState → Byte
  | .off => 0 | .warming => 1 | .starting => 2 | .running => 3
  | .stopping => 4 | .resetting => 5 | .cooldown => 6 | .lockout => 7

/-- The rail-on states of section 4.1. -/
def RailState.isOn : RailState → Bool
  | .starting => true | .running => true | .stopping => true | .resetting => true
  | .off => false | .warming => false | .cooldown => false | .lockout => false

/-- The codes of section 10.2, watchdog state. -/
def WatchdogState.code : WatchdogState → Byte
  | .dormant => 0 | .grace => 1 | .watching => 2 | .warned => 3 | .paused => 4 | .expired => 5

/-- The codes of section 10.2, last refusal. -/
def KickRefusal.code : KickRefusal → Byte
  | .noRefusal => 0 | .badValue => 1 | .early => 2

/-- The codes of section 10.3, probe phase. -/
def ProbePhase.code : ProbePhase → Byte
  | .idle => 0 | .waiting => 1 | .settle => 2 | .measure => 3 | .writing => 4

/-- The detail codes of section 10.4, which also code the last abort reason (section 10.3). -/
def AbortReason.code : AbortReason → Byte
  | .noReason => 0 | .rail => 2 | .heat => 3 | .fan => 4 | .hot => 5 | .load => 6 | .sensor => 7
  | .stopped => 8 | .lowLoad => 9 | .noRise => 10

/-- The codes of section 10.3, wait reason. -/
def WaitReason.code : WaitReason → Byte
  | .noWait => 0 | .hold => 1 | .hot => 2 | .cold => 3 | .budget => 4

/-- The codes of section 10.6, cause. -/
def RestartCause.code : RestartCause → Byte
  | .graceExpiry => 1 | .stage2Expiry => 2 | .noPowergood => 3 | .powergoodLost => 4 | .overcurrent => 5
  | .overtemp => 6 | .stopTimeout => 7 | .inputCut => 8 | .keyOverride => 9 | .hostRequest => 10

/-- The codes of section 10.6, action. -/
def RecordAction.code : RecordAction → Byte
  | .warm => 1 | .cold => 2 | .lockout => 3 | .off => 4

/-- The codes of section 10.7, key state. -/
def KeyState.code : KeyState → Byte
  | .idle => 0 | .pressing1 => 1 | .pressing2 => 2 | .touched => 3 | .releasing1 => 4 | .releasing2 => 5
  | .calibrating => 6

/-- A key is touched in TOUCHED and in both RELEASING states (R125). -/
def KeyState.isTouched : KeyState → Bool
  | .touched => true | .releasing1 => true | .releasing2 => true
  | .idle => false | .pressing1 => false | .pressing2 => false | .calibrating => false

/-- The owner values of a slot (R163). -/
inductive Owner where
  | free | posted | chained | taken | stopreq | done
deriving DecidableEq, Repr

/-- The codes of section 10.4, owner. -/
def Owner.code : Owner → Byte
  | .free => 0 | .posted => 1 | .chained => 2 | .taken => 3 | .stopreq => 4 | .done => 5

/-- The result codes of R170. -/
inductive ResultCode where
  | ok | unknownKind | badParam | busy | locked | notNow | invalid | stopped | aborted | chainBroken
deriving DecidableEq, Repr

/-- The codes of section 10.4, result code. -/
def ResultCode.code : ResultCode → Byte
  | .ok => 1 | .unknownKind => 2 | .badParam => 3 | .busy => 4 | .locked => 5 | .notNow => 6
  | .invalid => 7 | .stopped => 8 | .aborted => 9 | .chainBroken => 10

/-- The detail code CLAMPED of section 10.4, or NONE. -/
def clampedDetail (clamped : Bool) : Byte := if clamped then 1 else 0

/-- The kinds of a key queue entry (section 10.5). -/
inductive EntryKind where
  | press | release | releaseForced | hold | chord | gap
deriving DecidableEq, Repr

/-- The codes of section 10.5. -/
def EntryKind.code : EntryKind → Byte
  | .press => 1 | .release => 2 | .releaseForced => 3 | .hold => 4 | .chord => 5 | .gap => 6

/-- What a ladder step asks for (R114). -/
inductive LadderAction where
  | warm | cold | lockout
deriving DecidableEq, Repr

/-- The route of a cabinet input (R90), in the order of the codes of section 10.8. -/
inductive InputRoute where
  | unrouted | note | stop | cut | hold | start
deriving DecidableEq, Repr

/-! ### Fields of a profile image (section 10.8) -/

/-- Byte `k` of an image. -/
def u8 (p : Image) (k : Nat) : Nat := (p.getD k 0).toNat

/-- The unsigned two-byte field at `k`. -/
def u16 (p : Image) (k : Nat) : Nat := u8 p k + 256 * u8 p (k + 1)

/-- The signed two-byte field at `k`. -/
def s16 (p : Image) (k : Nat) : Int := signed16 (u16 p k)

/-- The flag at `k`. -/
def imageFlag (p : Image) (k : Nat) : Bool := u8 p k == 1

/-- Bit `i` of the three-byte key mask at `k`. -/
def imageKeyBit (p : Image) (k : Nat) (i : Fin 24) : Bool := (u8 p (k + i.val / 8)).testBit (i.val % 8)

/-- A sensor field as a channel number; a valid image holds 0 to 5 (R177). Any other value: DESIGN CHOICE, log entry 30,
here and in the route, the ladder step and the priority order below. -/
def sensorOf (n : Nat) : Fin 6 := if h : n < 6 then ⟨n, h⟩ else 5

def Profile.sensorPoint (p : Image) (i : Nat) : Int := s16 p (0x004 + 2 * i)
def Profile.trim (p : Image) (k : Fin 6) : Int := signed8 (u8 p (0x046 + k.val))

def Profile.zoneSensor (p : Image) (z : Fin 3) : Fin 6 := sensorOf (u8 p (0x050 + 16 * z.val))
def Profile.gateMember (p : Image) (z : Fin 3) : Bool := imageFlag p (0x051 + 16 * z.val)
def Profile.zoneRating (p : Image) (z : Fin 3) : Nat := u16 p (0x052 + 16 * z.val)
def Profile.dutyCap (p : Image) (z : Fin 3) : Nat := u8 p (0x054 + 16 * z.val)
def Profile.proportionalGain (p : Image) (z : Fin 3) : Nat := u8 p (0x055 + 16 * z.val)
def Profile.integralGain (p : Image) (z : Fin 3) : Nat := u8 p (0x056 + 16 * z.val)
def Profile.fallbackDuty (p : Image) (z : Fin 3) : Nat := u8 p (0x057 + 16 * z.val)
def Profile.keepSetpoint (p : Image) (z : Fin 3) : Int := s16 p (0x058 + 16 * z.val)
def Profile.warmSetpoint (p : Image) (z : Fin 3) : Int := s16 p (0x05A + 16 * z.val)
def Profile.runSetpoint (p : Image) (z : Fin 3) : Int := s16 p (0x05C + 16 * z.val)
def Profile.startThreshold (p : Image) (z : Fin 3) : Int := s16 p (0x05E + 16 * z.val)

/-- A zone is fitted while its rating is other than 0 (R18). -/
def Profile.zoneFitted (p : Image) (z : Fin 3) : Bool := Profile.zoneRating p z != 0

/-- The zones in the order in which the allotment visits them. -/
def Profile.priorityOrder (p : Image) : List (Fin 3) :=
  (List.range 3).map fun i => if h : u8 p (0x080 + i) < 3 then ⟨u8 p (0x080 + i), h⟩ else 2

def Profile.feedLimit (p : Image) : Nat := u16 p 0x084
def Profile.startReserve (p : Image) : Nat := u16 p 0x086
def Profile.headroom (p : Image) : Nat := u16 p 0x088
def Profile.heaterReserve (p : Image) : Nat := u16 p 0x08A
def Profile.fogLift (p : Image) : Nat := u16 p 0x08C

def Profile.fanRating (p : Image) (f : Fin 2) : Nat := u16 p (0x090 + 8 * f.val)
def Profile.pulsesPerRev (p : Image) (f : Fin 2) : Nat := u8 p (0x092 + 8 * f.val)
def Profile.kickTime (p : Image) (f : Fin 2) : Nat := u8 p (0x093 + 8 * f.val)
def Profile.stallFloor (p : Image) (f : Fin 2) : Nat := u16 p (0x094 + 8 * f.val)

/-- A fan is fitted while its rating is other than 0 (R42). -/
def Profile.fanFitted (p : Image) (f : Fin 2) : Bool := Profile.fanRating p f != 0

def Profile.curveTemp (p : Image) (j : Nat) : Int := s16 p (0x0A0 + 2 * j)
def Profile.curveDuty (p : Image) (j : Nat) : Int := (u8 p (0x0B0 + j) : Int)

def Profile.probeDuty (p : Image) : Nat := u8 p 0x0B8
def Profile.settleTime (p : Image) : Nat := u16 p 0x0BA
def Profile.measureTime (p : Image) : Nat := u16 p 0x0BC
def Profile.probeInterval (p : Image) : Nat := u16 p 0x0BE
def Profile.clogWarn (p : Image) : Nat := u16 p 0x0C0
def Profile.clogLimit (p : Image) : Nat := u16 p 0x0C2

def Profile.autostart (p : Image) : Bool := imageFlag p 0x0D0
def Profile.dwell (p : Image) : Nat := u16 p 0x0D2
def Profile.blindWarmTime (p : Image) : Nat := u16 p 0x0D4
def Profile.bypassEnable (p : Image) : Bool := imageFlag p 0x0D6
def Profile.bypassTemp (p : Image) : Int := s16 p 0x0D8
def Profile.hotStartLimit (p : Image) : Int := s16 p 0x0DA
def Profile.criticalTemp (p : Image) : Int := s16 p 0x0DC
def Profile.pgoodLimit (p : Image) : Nat := u8 p 0x0DE
def Profile.resetHold (p : Image) : Nat := u8 p 0x0DF
def Profile.pulseWidth (p : Image) : Nat := u8 p 0x0E0
def Profile.sleepHold (p : Image) : Nat := u8 p 0x0E1
def Profile.stopLimit (p : Image) : Nat := u16 p 0x0E2
def Profile.resetDelay (p : Image) : Nat := u8 p 0x0E4
def Profile.resetWidth (p : Image) : Nat := u8 p 0x0E5
def Profile.minimumOff (p : Image) : Nat := u16 p 0x0E6
def Profile.overcurrentLimit (p : Image) : Nat := u16 p 0x0E8
def Profile.overrideTime (p : Image) : Nat := u8 p 0x0EA

/-- The level, true for high, at which an input is active. -/
def Profile.activeLevel (p : Image) (k : Fin 4) : Bool := u8 p (0x0EC + k.val) == 0

/-- The route of an input; a valid image holds 0 to 5 (R177). -/
def Profile.inputRoute (p : Image) (k : Fin 4) : InputRoute :=
  match u8 p (0x0F0 + k.val) with
  | 1 => .note
  | 2 => .stop
  | 3 => .cut
  | 4 => .hold
  | 5 => .start
  | _ => .unrouted

def Profile.watchdogArmed (p : Image) : Bool := imageFlag p 0x100
def Profile.disarmPermitted (p : Image) : Bool := imageFlag p 0x101
def Profile.graceBase (p : Image) : Nat := u16 p 0x102
def Profile.coldGrace (p : Image) : Nat := u8 p 0x104
def Profile.graceReference (p : Image) : Int := s16 p 0x106
def Profile.stages (p : Image) : StageSet := { s1 := u16 p 0x108, s2 := u16 p 0x10A, early := u16 p 0x10C }
def Profile.stableTime (p : Image) : Nat := u16 p 0x10E
def Profile.ladderLength (p : Image) : Nat := u8 p 0x110

/-- Step `i` of the ladder; a valid image holds 1 to 3 in each step below the length (R177). -/
def Profile.ladderStep (p : Image) (i : Nat) : LadderAction :=
  match u8 p (0x111 + i) with
  | 1 => .warm
  | 2 => .cold
  | _ => .lockout

def Profile.keyEnabled (p : Image) (k : Fin 24) : Bool := imageKeyBit p 0x120 k
def Profile.repeating (p : Image) (k : Fin 24) : Bool := imageKeyBit p 0x123 k
def Profile.scanPeriod (p : Image) : Nat := u8 p 0x126

/-- The power key, or none (0xFF; R183). -/
def Profile.powerKey (p : Image) : Option (Fin 24) :=
  if h : u8 p 0x127 < 24 then some ⟨u8 p 0x127, h⟩ else none

def Profile.touchThreshold (p : Image) : Nat := u16 p 0x128
def Profile.releaseThreshold (p : Image) : Nat := u16 p 0x12A
def Profile.noiseBand (p : Image) : Nat := u16 p 0x12C
def Profile.driftPeriod (p : Image) : Nat := u8 p 0x12E
def Profile.maxSimultaneous (p : Image) : Nat := u8 p 0x12F
def Profile.fogAdd (p : Image) : Nat := u16 p 0x130
def Profile.fogMargin (p : Image) : Nat := u16 p 0x132
def Profile.stuckLimit (p : Image) : Nat := u16 p 0x134
def Profile.holdDelay (p : Image) : Nat := u8 p 0x136
def Profile.repeatPeriod (p : Image) : Nat := u8 p 0x137
def Profile.chordHold (p : Image) : Nat := u16 p 0x138

/-- The three places of chord `c`'s member list, as stored. -/
def Profile.chordPlaces (p : Image) (c : Fin 4) : List Nat :=
  [u8 p (0x13A + 3 * c.val), u8 p (0x13B + 3 * c.val), u8 p (0x13C + 3 * c.val)]

/-- The member keys of chord `c`. -/
def Profile.chordMembers (p : Image) (c : Fin 4) : List (Fin 24) :=
  (Profile.chordPlaces p c).filterMap fun n => if h : n < 24 then some ⟨n, h⟩ else none

/-- A chord is defined when it has two or three members, all enabled (R138). -/
def Profile.chordDefined (p : Image) (c : Fin 4) : Bool :=
  2 ≤ (Profile.chordMembers p c).length && (Profile.chordMembers p c).all (Profile.keyEnabled p)

end Sys2Proof.Machine
end

