-- ==== Sys2Proof/Machine/Validation.lean ====
section
/-!
DEFINITION. The CRC of the profile store and the checks of R177.
-/

namespace Sys2Proof.Machine

/-! ### CRC (R177) -/

/-- One bit of the CRC: polynomial x^16 + x^12 + x^5 + 1, most significant bit first. -/
def crcBit (c : Nat) : Nat := if 32768 ≤ c then (2 * c % 65536) ^^^ 0x1021 else 2 * c

/-- One byte of the CRC. -/
def crcByte (c : Nat) (b : Byte) : Nat :=
  crcBit (crcBit (crcBit (crcBit (crcBit (crcBit (crcBit (crcBit (c ^^^ (b.toNat * 256)))))))))

/-- The CRC of a list of bytes, from an initial value of all ones. -/
def crc16 (bs : List Byte) : Nat := bs.foldl crcByte 0xFFFF

/-! ### Check 4: the field ranges, in ascending order of offset (R177, R183, section 10.8) -/

/-- The unsigned byte at `k` lies within `lo` to `hi`. -/
def byteIn (k lo hi : Nat) (p : Image) : Bool := lo ≤ u8 p k && u8 p k ≤ hi

/-- The unsigned two-byte field at `k` lies within `lo` to `hi`. -/
def wordIn (k lo hi : Nat) (p : Image) : Bool := lo ≤ u16 p k && u16 p k ≤ hi

/-- The signed two-byte field at `k` lies within `lo` to `hi`. -/
def signedIn (k : Nat) (lo hi : Int) (p : Image) : Bool := lo ≤ s16 p k && s16 p k ≤ hi

/-- The signed byte at `k` lies within `lo` to `hi`. -/
def signedByteIn (k : Nat) (lo hi : Int) (p : Image) : Bool := lo ≤ signed8 (u8 p k) && signed8 (u8 p k) ≤ hi

/-- A member list is in range when it holds its keys first and 0xFF after them, and is not a list of one (R183). -/
def chordListIn (c : Fin 4) (p : Image) : Bool :=
  match Profile.chordPlaces p c with
  | [a, b, d] =>
    (a < 24 && b < 24 && d < 24) || (a < 24 && b < 24 && d == 0xFF) || (a == 0xFF && b == 0xFF && d == 0xFF)
  | _ => false

/-- A field check: the offset of the field's first byte, and whether the field lies within its range. -/
abbrev FieldCheck := Nat × (Image → Bool)

/-- The fields of zone `z`. -/
def zoneChecks (z : Nat) : List FieldCheck :=
  let b := 0x050 + 16 * z
  [(b, byteIn b 0 5), (b + 1, byteIn (b + 1) 0 1), (b + 2, wordIn (b + 2) 0 2000), (b + 4, byteIn (b + 4) 0 64),
    (b + 5, byteIn (b + 5) 0 255), (b + 6, byteIn (b + 6) 0 255), (b + 7, byteIn (b + 7) 0 64),
    (b + 8, signedIn (b + 8) (-400) 600), (b + 10, signedIn (b + 10) (-400) 600),
    (b + 12, signedIn (b + 12) (-400) 600), (b + 14, signedIn (b + 14) (-400) 400)]

/-- The fields of fan `f`. -/
def fanChecks (f : Nat) : List FieldCheck :=
  let b := 0x090 + 8 * f
  [(b, wordIn b 0 600), (b + 2, byteIn (b + 2) 1 4), (b + 3, byteIn (b + 3) 1 10), (b + 4, wordIn (b + 4) 100 5000)]

/-- The sensor table and the trims. -/
def sensorChecks : List FieldCheck :=
  (List.range 33).map (fun i => (0x004 + 2 * i, signedIn (0x004 + 2 * i) (-2000) 3000)) ++
    (List.range 6).map (fun k => (0x046 + k, signedByteIn (0x046 + k) (-50) 50))

/-- The priority order, one field of three zone numbers, and the budget. -/
def budgetChecks : List FieldCheck :=
  [(0x080, fun p => byteIn 0x080 0 2 p && byteIn 0x081 0 2 p && byteIn 0x082 0 2 p),
    (0x084, wordIn 0x084 200 4800), (0x086, wordIn 0x086 0 3000), (0x088, wordIn 0x088 0 500),
    (0x08A, wordIn 0x08A 0 1000), (0x08C, wordIn 0x08C 0 200)]

/-- The fan curve and the probe. -/
def airChecks : List FieldCheck :=
  (List.range 8).map (fun j => (0x0A0 + 2 * j, signedIn (0x0A0 + 2 * j) (-550) 1250)) ++
    (List.range 8).map (fun j => (0x0B0 + j, byteIn (0x0B0 + j) 0 100)) ++
    [(0x0B8, byteIn 0x0B8 20 100), (0x0BA, wordIn 0x0BA 30 900), (0x0BC, wordIn 0x0BC 16 240),
      (0x0BE, wordIn 0x0BE 0 720), (0x0C0, wordIn 0x0C0 101 400), (0x0C2, wordIn 0x0C2 101 999)]

/-- The rail controller's fields and the cabinet inputs. -/
def railChecks : List FieldCheck :=
  [(0x0D0, byteIn 0x0D0 0 1), (0x0D2, wordIn 0x0D2 0 600), (0x0D4, wordIn 0x0D4 60 7200), (0x0D6, byteIn 0x0D6 0 1),
    (0x0D8, signedIn 0x0D8 (-400) 600), (0x0DA, signedIn 0x0DA (-400) 1000), (0x0DC, signedIn 0x0DC 0 1250),
    (0x0DE, byteIn 0x0DE 1 10), (0x0DF, byteIn 0x0DF 1 255), (0x0E0, byteIn 0x0E0 1 255),
    (0x0E1, byteIn 0x0E1 1 30), (0x0E2, wordIn 0x0E2 10 900), (0x0E4, byteIn 0x0E4 0 255),
    (0x0E5, byteIn 0x0E5 1 255), (0x0E6, wordIn 0x0E6 1 600), (0x0E8, wordIn 0x0E8 500 16000),
    (0x0EA, byteIn 0x0EA 2 10)] ++
    (List.range 4).map (fun k => (0x0EC + k, byteIn (0x0EC + k) 0 1)) ++
    (List.range 4).map (fun k => (0x0F0 + k, byteIn (0x0F0 + k) 0 5))

/-- The monitor's fields; the steps beyond the ladder length are not checked (R183). -/
def monitorChecks : List FieldCheck :=
  [(0x100, byteIn 0x100 0 1), (0x101, byteIn 0x101 0 1), (0x102, wordIn 0x102 10 3600), (0x104, byteIn 0x104 0 60),
    (0x106, signedIn 0x106 (-400) 400), (0x108, wordIn 0x108 1 3600), (0x10A, wordIn 0x10A 1 600),
    (0x10C, wordIn 0x10C 0 3599), (0x10E, wordIn 0x10E 1 1440), (0x110, byteIn 0x110 1 6)] ++
    (List.range 6).map (fun i =>
      (0x111 + i, fun p => decide (Profile.ladderLength p ≤ i) || byteIn (0x111 + i) 1 3 p))

/-- The keypad controller's fields. -/
def keypadChecks : List FieldCheck :=
  [(0x126, fun p => u8 p 0x126 == 1 || u8 p 0x126 == 2 || u8 p 0x126 == 4),
    (0x127, fun p => decide (u8 p 0x127 < 24) || u8 p 0x127 == 0xFF),
    (0x128, wordIn 0x128 8 1023), (0x12A, wordIn 0x12A 4 1022), (0x12C, wordIn 0x12C 0 1023),
    (0x12E, byteIn 0x12E 1 255), (0x12F, byteIn 0x12F 1 4), (0x130, wordIn 0x130 0 1023),
    (0x132, wordIn 0x132 10 200), (0x134, wordIn 0x134 5 600), (0x136, byteIn 0x136 8 255),
    (0x137, byteIn 0x137 4 255), (0x138, wordIn 0x138 16 640)] ++
    (List.finRange 4).map (fun c => (0x13A + 3 * c.val, chordListIn c))

/-- Every field, in ascending order of offset. The priority order is one field of three bytes (DEDUCED, log entry 23). -/
def fieldChecks : List FieldCheck :=
  sensorChecks ++ (List.range 3).flatMap zoneChecks ++ budgetChecks ++ (List.range 2).flatMap fanChecks ++
    airChecks ++ railChecks ++ monitorChecks ++ keypadChecks

/-! ### Check 5: the cross-field conditions, in the order of the table of R177 -/

/-- The member count of the largest chord that lists members. -/
def largestChord (p : Image) : Nat :=
  (List.finRange 4).foldl (fun n c => max n (Profile.chordMembers p c).length) 0

/-- The cross-field conditions, each with the field it reports. -/
def crossChecks : List FieldCheck :=
  [(0x080, fun p => (Profile.priorityOrder p).contains 0 && (Profile.priorityOrder p).contains 1 &&
    (Profile.priorityOrder p).contains 2)] ++
    (List.range 32).map (fun i =>
      (0x006 + 2 * i, fun p => decide (Profile.sensorPoint p (i + 1) < Profile.sensorPoint p i))) ++
    (List.range 7).map (fun j =>
      (0x0A2 + 2 * j, fun p => decide (Profile.curveTemp p j < Profile.curveTemp p (j + 1)))) ++
    [(0x0C2, fun p => decide (Profile.clogWarn p ≤ Profile.clogLimit p)),
      (0x12A, fun p => decide (Profile.releaseThreshold p < Profile.touchThreshold p)),
      (0x12C, fun p => decide (Profile.noiseBand p ≤ Profile.releaseThreshold p))] ++
    (List.finRange 4).map (fun c => (0x13A + 3 * c.val, fun p => decide (Profile.chordMembers p c).Nodup)) ++
    [(0x12F, fun p => decide (largestChord p ≤ Profile.maxSimultaneous p)),
      (0x10C, fun p => decide ((Profile.stages p).early < (Profile.stages p).s1)),
      (0x0DC, fun p => decide (Profile.hotStartLimit p < Profile.criticalTemp p))]

/-! ### The checks in order -/

/-- The offset of the first check of a list that fails. -/
def firstFailing (p : Image) (cs : List FieldCheck) : Option Nat := (cs.find? fun c => !c.2 p).map Prod.fst

/-- Why an image is not valid: the byte offset and the number of the first check that fails (R177); none for a valid
image. -/
def imageFailure (p : Image) : Option (Nat × Nat) :=
  if crc16 (p.take 1022) ≠ u16 p 1022 then some (1022, 1)
  else if u8 p 0 ≠ 3 then some (0, 2)
  else if u16 p 2 ≠ 1024 then some (2, 3)
  else
    match firstFailing p fieldChecks with
    | some k => some (k, 4)
    | none => (firstFailing p crossChecks).map fun k => (k, 5)

/-- An image passes the checks of R177. -/
def validImage (p : Image) : Bool := (imageFailure p).isNone

/-! ### The service record (R181, section 10.9) -/

/-- The reference a service record holds, or 0 if its CRC fails (R181). -/
def serviceReference (r : Image) : Nat := if crc16 (r.take 30) = u16 r 30 then u16 r 0 else 0

/-- The service record that holds `rf` (section 10.9). -/
def serviceBytes (rf : Nat) : Image :=
  let body := le16 rf ++ List.replicate 28 0
  body ++ le16 (crc16 body)

end Sys2Proof.Machine
end

