-- ==== Sys2Proof/Machine/Factory.lean ====
section
/-!
DEFINITION. The factory profile (R184), laid out at the offsets of section 10.8, with 0 in every byte that section
gives no field.
-/

namespace Sys2Proof.Machine

/-- Two-byte fields, signed or not, in order. -/
def words (xs : List Int) : List Byte := xs.flatMap sle16

/-- Bytes, in order. -/
def octets (xs : List Nat) : List Byte := xs.map (BitVec.ofNat 8)

/-- `bs` followed by 0 up to `n` bytes. -/
def padTo (n : Nat) (bs : List Byte) : List Byte := bs ++ List.replicate (n - bs.length) 0

/-- 0x000 to 0x04F: layout version, length, sensor table, trims. -/
def factorySensing : List Byte :=
  padTo 0x50 (octets [3, 0] ++ words [1024] ++
    words [3000, 2620, 2280, 1948, 1698, 1500, 1337, 1198, 1077, 969, 871] ++
    words [781, 697, 618, 543, 470, 399, 328, 256, 182, 105, 26] ++
    words [-56, -142, -233, -331, -438, -558, -695, -858, -1063, -1345, -1800])

/-- 0x050 to 0x08F: the zones, the priority order and the budget. -/
def factoryHeating : List Byte :=
  octets [2, 1] ++ words [400] ++ octets [48, 8, 6, 32] ++ words [-200, 50, 150, -200] ++
    octets [3, 1] ++ words [300] ++ octets [56, 12, 5, 32] ++ words [-200, 0, 100, -200] ++
    octets [4, 0] ++ words [150] ++ octets [64, 16, 4, 16] ++ words [0, 0, 100, 0] ++
    padTo 16 (octets [0, 2, 1, 0] ++ words [1200, 700, 50, 100, 30])

/-- 0x090 to 0x0CF: the fans, the curve and the probe. -/
def factoryAir : List Byte :=
  padTo 8 (words [60] ++ octets [2, 2] ++ words [600]) ++ padTo 8 (words [60] ++ octets [2, 2] ++ words [600]) ++
    words [-150, 0, 150, 250, 350, 400, 450, 500] ++ octets [100, 40, 30, 30, 30, 45, 70, 100] ++
    padTo 24 (octets [40, 0] ++ words [30, 60, 168, 140, 180])

/-- 0x0D0 to 0x0FF: the rail and the cabinet inputs. -/
def factoryRail : List Byte :=
  padTo 48 (octets [1, 0] ++ words [60, 1800] ++ octets [0, 0] ++ words [100, 600, 700] ++ octets [3, 32, 32, 5] ++
    words [120] ++ octets [64, 32] ++ words [30, 2500] ++ octets [5])

/-- 0x100 to 0x11F: the watchdog and the ladder. -/
def factoryMonitor : List Byte :=
  padTo 32 (octets [1, 0] ++ words [90] ++ octets [4, 0] ++ words [100, 30, 10, 0, 30] ++ octets [4, 1, 1, 2, 2, 0, 0])

/-- 0x120 to 0x3FD: the keys and the chords, and the bytes without a field up to the CRC. -/
def factoryKeypad : List Byte :=
  padTo 734 (octets [255, 255, 255, 0, 0, 0, 2, 255] ++ words [60, 30, 12] ++ octets [16, 2] ++ words [40, 30, 60] ++
    octets [32, 8] ++ words [192] ++ List.replicate 12 0xFF)

/-- Bytes 0 to 1,021 of the factory profile. -/
def factoryBody : List Byte :=
  factorySensing ++ factoryHeating ++ factoryAir ++ factoryRail ++ factoryMonitor ++ factoryKeypad

/-- The factory profile (R184), with its CRC. -/
def factoryImage : Image := factoryBody ++ le16 (crc16 factoryBody)

end Sys2Proof.Machine
end

