-- ==== Sys2Proof/Machine/Ops.lean ====
section
/-!
DEFINITION. The named operations over State that every block shares: one updater for each block, time, the exchange
memory as the frame reads it and as the blocks see it (R153), and the slots of the slip table.
-/

namespace Sys2Proof.Machine

/-! ### One updater for each block -/

def State.mapTime (s : State) (f : Timebase → Timebase) : State := { s with time := f s.time }
def State.mapSense (s : State) (f : Sensing → Sensing) : State := { s with sense := f s.sense }
def State.mapClimate (s : State) (f : Climate → Climate) : State := { s with climate := f s.climate }
def State.mapAir (s : State) (f : Air → Air) : State := { s with air := f s.air }
def State.mapRail (s : State) (f : Rail → Rail) : State := { s with rail := f s.rail }
def State.mapMon (s : State) (f : Monitor → Monitor) : State := { s with mon := f s.mon }
def State.mapKeypad (s : State) (f : Keypad → Keypad) : State := { s with keypad := f s.keypad }
def State.mapX (s : State) (f : Exchange → Exchange) : State := { s with xmem := f s.xmem }
def State.mapEngine (s : State) (f : Engine → Engine) : State := { s with engine := f s.engine }
def State.mapStore (s : State) (f : Store → Store) : State := { s with store := f s.store }

/-! ### Time (R15, R68) -/

/-- The number of the current slot within its window (R15). -/
def State.slotNumber (s : State) : Nat := s.time.slotCount.toNat % 64

/-- The slot count of the next slot start (R15: the first one is that of slot count 0). -/
def State.upcoming (s : State) : SlotCount :=
  if s.time.started then s.time.slotCount + 1 else s.time.slotCount

/-- The slot count `n` slots after `t`. -/
def after (t : SlotCount) (n : Nat) : SlotCount := t + BitVec.ofNat 32 n

/-- Channel `k`'s conversion may end now: in slot 4 + 8k of the window, once (R2). -/
def State.conversionDue (k : Fin 6) (s : State) : Bool :=
  s.time.started && s.slotNumber == 4 + 8 * k.val && !s.sense.converted

/-- The rail conversion of the current slot may end now: once in every slot (R11). -/
def State.railConversionDue (s : State) : Bool := s.time.started && !s.sense.railConverted

/-- A scan that began in the current slot is in progress (R128). Before the first slot start no slot has begun (R15). -/
def State.scanRuns (s : State) : Bool := s.time.started && s.keypad.scan == some s.time.slotCount

/-- The boundary of the current slot 0 has not been taken yet (R16). It may still begin this slot's scan (R127). -/
def State.boundaryWaits (s : State) : Bool := s.slotNumber == 0 && !s.time.boundaryTaken

/-- Nothing that belongs within the current slot is still to come: its boundary has been taken, and its conversion, its
rail conversion and its scan have ended (R2, R11, R16, R127, R128). What falls at the coming slot start may then be
taken. -/
def State.slotOver (s : State) : Bool :=
  !s.boundaryWaits && !s.railConversionDue && !((List.finRange 6).any fun k => s.conversionDue k) && !s.scanRuns

/-- The slot count at which a timer that ends now ends, if it does. A timer ends at one slot start (R68). Where another
event falls on the same slot start, either may be taken first, so the end may be taken before SLOT_START does that slot
start's work, or after it: it is due in the slot of its end and, once the slot before is over, at the coming slot start.
Whatever it starts or stamps uses the slot count of its end. DEDUCED, log entry 9. -/
def State.due (s : State) : Option SlotCount → Option SlotCount
  | some e => if e = s.time.slotCount ∨ (e = s.upcoming ∧ s.slotOver) then some e else none
  | none => none

/-- The slot count from which programming that begins in an event of slot count `now` counts its slot starts: that of the
last slot start that has come. The first slot start is that of slot count 0 (R15); before it none has come, and the count
before 0 stands here, so that slot count 0 is the first slot start after the beginning and 43 the 44th (R179). A commit that
ends there may take effect at the boundary of slot count 0, where R176 has the loaded profile (DESIGN CHOICE, log entry
44). -/
def State.countsFrom (now : SlotCount) (s : State) : SlotCount := if s.time.started then now else now - 1

/-- The slot count of the slot start at which an operation of the store that began at `b` ends, if it may end now: at one of
the first `n` slot starts after its beginning, which of them is not fixed (R179, R181). As for a timer, the end may be taken
in the slot of its slot start or, once the slot before is over, just before it (DEDUCED, log entry 9). -/
def State.endsWithin (n : Nat) (s : State) : Option SlotCount → Option SlotCount
  | some b =>
    let within (e : SlotCount) : Bool := 1 ≤ (e - b).toNat && (e - b).toNat ≤ n
    if within s.time.slotCount then some s.time.slotCount
    else if within s.upcoming && s.slotOver then some s.upcoming
    else none
  | none => none

/-- The slot count of the slot start at which programming ends, if it may end now: one of the first 44 after it began
(R179). -/
def State.programmingDue (s : State) : Option SlotCount :=
  if s.store.commit = .programming then s.endsWithin 44 s.store.programmingBegan else none

/-- The slot count of the slot start at which the write of the service record ends, if it may end now: one of the first 6
after it began (R181). -/
def State.writeDue (s : State) : Option SlotCount :=
  if s.store.service = .writing then s.endsWithin 6 s.store.writeBegan else none

/-- A HOLD or a CHORD of the current slot start has not been given yet (R137, R138). -/
def State.holdsWait (s : State) : Bool :=
  ((List.finRange 24).any fun k => s.keypad.keys[k].nextHold == some s.time.slotCount) ||
    (List.finRange 4).any fun c => !s.keypad.chords[c].fired && s.keypad.chords[c].holdEnd == some s.time.slotCount

/-- The slot count of the scan that may end now, if one may: within the slot in which it began (R128), after every HOLD of
that slot (R137), and after every CHORD of it, which falls at the slot start as well (R128, R138; DEDUCED, log entry 9). -/
def State.scanDue (s : State) : Option SlotCount :=
  if s.scanRuns ∧ !s.holdsWait then some s.time.slotCount else none

/-- Slots in `n` seconds (R68). -/
def seconds (n : Nat) : Nat := n * 64

/-! ### Exchange memory: the bytes (R159) -/

/-- Exchange memory has 3,072 bytes, 0x000 to 0xBFF (chapter 7). -/
def memorySize : Nat := 0xC00

/-- What an unlisted address reads as: its content after power-on (R159), the identity fields of the header and the
enable word 0x0FFF, and 0 everywhere else. -/
def resetByte (a : Nat) : Byte :=
  if a = 0x00 then 0x10 else if a = 0x01 then 0x24 else if a = 0x02 then 0x01 else if a = 0x03 then 0x03
  else if a = 0x10 then 0xFF else if a = 0x11 then 0x0F else 0

/-- The byte at `a`. -/
def Memory.read : List Host.Cell → Nat → Byte
  | [], a => resetByte a
  | (k, v) :: r, a => if a = k then v else Memory.read r a

/-- `Memory.write` at an address inside the memory: keeps the list sorted and lists no byte that equals `resetByte`. -/
def Memory.put : List Host.Cell → Nat → Byte → List Host.Cell
  | [], a, b => if b = resetByte a then [] else [(a, b)]
  | (k, v) :: r, a, b =>
    if a < k then (if b = resetByte a then (k, v) :: r else (a, b) :: (k, v) :: r)
    else if a = k then (if b = resetByte a then r else (a, b) :: r)
    else (k, v) :: Memory.put r a b

/-- The memory with `b` at `a`; an address outside the memory is none of it. -/
def Memory.write (m : List Host.Cell) (a : Nat) (b : Byte) : List Host.Cell :=
  if a < memorySize then Memory.put m a b else m

/-- Every cell of `cs` written. -/
def Memory.writeAll (m cs : List Host.Cell) : List Host.Cell :=
  cs.foldr (fun c m => Memory.write m c.1 c.2) m

/-- The canonical form from address `lo` on: addresses strictly rising inside the memory, and no entry equal to what an
unlisted address reads as. -/
def Memory.wfFrom (lo : Nat) : List Host.Cell → Bool
  | [] => true
  | (a, b) :: r => lo ≤ a && a < memorySize && b != resetByte a && Memory.wfFrom (a + 1) r

/-- The canonical form of the memory. -/
def Memory.wf (m : List Host.Cell) : Bool := Memory.wfFrom 0 m

/-! ### Exchange memory: the held image (R153) -/

/-- The held value of the byte at `a`, if one is held. -/
def Held.get : List Host.Cell → Nat → Option Byte
  | [], _ => none
  | (k, v) :: r, a => if a = k then some v else Held.get r a

/-- The held image with `b` as the newest held value at `a`, sorted by address. -/
def Held.put : List Host.Cell → Nat → Byte → List Host.Cell
  | [], a, b => [(a, b)]
  | (k, v) :: r, a, b =>
    if a < k then (a, b) :: (k, v) :: r else if a = k then (a, b) :: r else (k, v) :: Held.put r a b

/-- The held image without a value at `a`. -/
def Held.drop (h : List Host.Cell) (a : Nat) : List Host.Cell := h.filter fun c => c.1 != a

/-- The form of the held image from `lo` on: addresses strictly rising. -/
def Held.wfFrom (lo : Nat) : List Host.Cell → Bool
  | [] => true
  | (a, _) :: r => lo ≤ a && Held.wfFrom (a + 1) r

/-- The form of the held image. -/
def Held.wf (h : List Host.Cell) : Bool := Held.wfFrom 0 h

/-- The cells of the bytes `bs` from address `a` on. -/
def cellsAt : Nat → List Byte → List Host.Cell
  | _, [] => []
  | a, b :: bs => (a, b) :: cellsAt (a + 1) bs

/-- Whether address `a` lies in the covered range of an open READ frame (R153). -/
def Exchange.covers (x : Exchange) (a : Nat) : Bool :=
  match x.frame.covered with
  | none => false
  | some start => start ≤ a && a < memorySize

/-- A part write of the cells `cs`, made whole (R153): held if any of its bytes lies in the covered range, made at once
otherwise. A write made at once ends an earlier held value of the same byte, so that the held image holds the newest
value of each byte and a block reads back what it wrote. DEDUCED, log entry 11. -/
def Exchange.partWriteCells (cs : List Host.Cell) (x : Exchange) : Exchange :=
  if cs.any (fun c => x.covers c.1) then
    { x with frame := { x.frame with held := cs.foldr (fun c h => Held.put h c.1 c.2) x.frame.held } }
  else
    { x with
      mem := Memory.writeAll x.mem cs
      frame := { x.frame with held := cs.foldr (fun c h => Held.drop h c.1) x.frame.held } }

/-- Both lists of the exchange memory are in their canonical form. -/
def Exchange.wf (x : Exchange) : Bool := Memory.wf x.mem && Held.wf x.frame.held

/-- A part write of the bytes `bs` from address `a` on. -/
def Exchange.partWrite (a : Nat) (bs : List Byte) (x : Exchange) : Exchange := x.partWriteCells (cellsAt a bs)

/-- The byte at `a` as the part's blocks see it: every part write counts as made, held or not (R153). -/
def Exchange.peek (x : Exchange) (a : Nat) : Byte := (Held.get x.frame.held a).getD (Memory.read x.mem a)

/-- The unsigned two-byte field at `a` as the blocks see it. -/
def Exchange.peek16 (x : Exchange) (a : Nat) : Nat := (x.peek a).toNat + 256 * (x.peek (a + 1)).toNat

/-- A frame's end lands the held image in one event, and the held image becomes empty (R153). -/
def Exchange.land (x : Exchange) : Exchange :=
  { x with mem := Memory.writeAll x.mem x.frame.held, frame := { x.frame with held := [], covered := none } }

/-! ### Slots of the slip table (R163, section 10.4) -/

/-- The address of slot `n`, which is that of its owner byte. -/
def slotAddr (n : Nat) : Nat := 0x100 + 64 * n

/-- Parameter byte `i` of slot `n`. -/
def Exchange.param (x : Exchange) (n i : Nat) : Nat := (x.peek (slotAddr n + 8 + i)).toNat

/-- The unsigned two-byte parameter at `i` of slot `n`. -/
def Exchange.param16 (x : Exchange) (n i : Nat) : Nat := x.param n i + 256 * x.param n (i + 1)

/-- Whether slot `n`'s owner byte holds `o`. -/
def Exchange.ownerIs (x : Exchange) (n : Nat) (o : Owner) : Bool := x.peek (slotAddr n) == o.code

/-! ### Temperatures as the sensing unit hands them on (R8) -/

/-- The accepted value of a channel while the channel is valid. -/
def Channel.valid (c : Channel) : Option Int := if c.fault then none else c.accepted

/-- The valid accepted value of channel `k`. -/
def State.temp (s : State) (k : Fin 6) : Option Int := s.sense.channels[k].valid

/-- The module temperature of R73 and R82: MODULE if it is valid, otherwise OUTLET if it is valid. -/
def State.moduleTemp (s : State) : Option Int :=
  match s.temp 2 with
  | some t => some t
  | none => s.temp 1

end Sys2Proof.Machine
end

