-- ==== Sys2Proof/Machine/Flags.lean ====
section
/-!
DEFINITION. The flags the host sees: the attention summary and enable with ATTN# (R160, R161), the link status byte
(R151), and the flags byte of the header (section 10.2).
-/

namespace Sys2Proof.Machine

/-- The attention causes, in the order of their bits (section 10.2). -/
inductive Cause where
  | slipDone | key | climateFault | fanFault | clogWarn | clogLimit | wdtWarn | restartNote
  | profileDefaulted | inputNote | stopAsked | fog
deriving DecidableEq, Repr

/-- The bit of a cause in the summary, the enable and the acknowledge word. -/
def Cause.index : Cause → Nat
  | .slipDone => 0 | .key => 1 | .climateFault => 2 | .fanFault => 3 | .clogWarn => 4 | .clogLimit => 5
  | .wdtWarn => 6 | .restartNote => 7 | .profileDefaulted => 8 | .inputNote => 9 | .stopAsked => 10 | .fog => 11

/-- The cause alone, as a word. -/
def Cause.bit (c : Cause) : BitVec 12 := 1#12 <<< c.index

/-- The summary becomes `v`, and the header's copy is written as a part write (R160). -/
def Exchange.setSummary (v : BitVec 12) (x : Exchange) : Exchange :=
  ({ x with summary := v }).partWrite 0x0C (le16 v.toNat)

/-- A block raises a cause (R160). -/
def Exchange.raise (c : Cause) (x : Exchange) : Exchange := x.setSummary (x.summary ||| c.bit)

/-- ATTN# is asserted, and the ATTN flag set, while the summary AND the enable is other than 0 (R161). -/
def Exchange.attn (x : Exchange) : Bool := (x.summary &&& x.enable) != 0

/-- The link status byte (R151): READY, REFUSED, RANGE and ATTN in bits 0 to 3 (section 10.1). -/
def Exchange.statusByte (x : Exchange) : Byte :=
  flagByte x.ready ||| (flagByte x.refused <<< 1) ||| (flagByte x.range <<< 2) ||| (flagByte x.attn <<< 3)

/-- The delivery of the acknowledge word (R161): the named causes are cleared, the word returns to 0. -/
def Exchange.deliverAcknowledge (x : Exchange) : Exchange :=
  let w := BitVec.ofNat 12 (x.peek16 0x0E)
  let x := x.partWrite 0x0E [0, 0]
  x.setSummary (x.summary &&& ~~~w)

/-- The delivery of the enable word (R161): the positions beyond the twelve causes are written back as 0. -/
def Exchange.deliverEnable (x : Exchange) : Exchange :=
  let w := BitVec.ofNat 12 (x.peek16 0x10)
  ({ x with enable := w }).partWrite 0x10 (le16 w.toNat)

/-- The flags byte of the header (section 10.2): ready in bit 0, defaulted in bit 1. -/
def headerFlags (ready defaulted : Bool) : Byte := flagByte ready ||| (flagByte defaulted <<< 1)

/-- Host restart clearing in the exchange memory (R162): RESTART_NOTE and PROFILE_DEFAULTED are kept, every cause is
enabled, and both words are written to the header, a part write each (DESIGN CHOICE, log entry 46). -/
def Exchange.clearAttention (x : Exchange) : Exchange :=
  let x := x.setSummary (x.summary &&& (Cause.restartNote.bit ||| Cause.profileDefaulted.bit))
  ({ x with enable := 0xFFF }).partWrite 0x10 (le16 0xFFF)

/-- A block raises a cause. -/
def State.raise (c : Cause) (s : State) : State := s.mapX (Exchange.raise c)

end Sys2Proof.Machine
end

