-- ==== Sys2Proof/Machine/SlipTable.lean ====
section
/-!
DEFINITION. The slip table and its engine (chapter 8): the host's owner transitions, the arbiter's choice, completion
with its chain, and the binding of a lasting operation. What each kind does is its owner block's.
-/

namespace Sys2Proof.Machine

/-- What an owner block answers for a slip: result code, detail code and payload (R170). -/
structure SlipResult where
  code : ResultCode
  detail : Byte
  payload : List Byte
deriving DecidableEq, Repr

/-- The result OK with no detail and no payload. -/
def SlipResult.ok : SlipResult := { code := .ok, detail := 0, payload := [] }

/-- A result that is only a code. -/
def SlipResult.only (c : ResultCode) : SlipResult := { code := c, detail := 0, payload := [] }

/-- What an owner block answers for a lasting kind (R169): accepted, or completed at once. -/
inductive LastingAnswer where
  | accepted
  | atOnce (r : SlipResult)
deriving DecidableEq, Repr

/-- The host transitions of R164: whether the host may write `new` into an owner byte that holds `cur`. -/
def hostTransition (cur new : Byte) : Bool :=
  (cur == Owner.free.code && (new == Owner.posted.code || new == Owner.chained.code)) ||
  (cur == Owner.posted.code && new == Owner.free.code) ||
  (cur == Owner.chained.code && new == Owner.free.code) ||
  (cur == Owner.taken.code && new == Owner.stopreq.code) ||
  (cur == Owner.done.code && (new == Owner.free.code || new == Owner.posted.code))

/-- The 32 bytes of a payload: the given figures, and 0 in every byte after them (R183). -/
def payloadBytes (bs : List Byte) : List Byte := (bs ++ List.replicate 32 0).take 32

/-- The result, the detail, the payload and the owner byte of slot `n`, written as one part write. R170 says so of a completion;
of an accepted slip R169 does not say how many part writes there are (DESIGN CHOICE, log entry 46). -/
def Exchange.writeResult (n : Nat) (o : Owner) (code detail : Byte) (payload : List Byte) (x : Exchange) : Exchange :=
  x.partWriteCells
    ((slotAddr n, o.code) :: (cellsAt (slotAddr n + 6) [code, detail] ++
      cellsAt (slotAddr n + 0x20) (payloadBytes payload)))

/-- The next slot that slot `n` names, if it names one (R163). -/
def Exchange.nextSlot (x : Exchange) (n : Nat) : Option Nat :=
  let m := (x.peek (slotAddr n + 3)).toNat
  if m < 16 then some m else none

/-- The link of a slip that completed with OK (R171): a CHAINED next slot is promoted, any other sets LINK_IDLE. LINK_IDLE
is a part write of the detail byte, made after the part write of the completion, whose parts R170 lists without it: R170 does
not say whether it belongs to that write. An open READ frame that starts behind the detail byte, inside the slot, holds DONE
and the result and lets LINK_IDLE be made at once (DESIGN CHOICE, log entry 46). -/
def Exchange.followLink (n : Nat) (x : Exchange) : Exchange :=
  match x.nextSlot n with
  | none => x
  | some m =>
    if x.ownerIs m .chained then x.partWrite (slotAddr m) [Owner.posted.code]
    else x.partWrite (slotAddr n + 7) [x.peek (slotAddr n + 7) ||| 0x80]

/-- The break of a chain (R172) from slot `n` on, begun by slot `first`. Sixteen rounds reach every slot, since each
round leaves one slot DONE. -/
def Exchange.breakChain (first : Nat) : Nat → Nat → Exchange → Exchange
  | 0, _, x => x
  | fuel + 1, n, x =>
    match x.nextSlot n with
    | none => x
    | some m =>
      if x.ownerIs m .chained then
        Exchange.breakChain first fuel m
          ((x.writeResult m .done ResultCode.chainBroken.code 0 [BitVec.ofNat 8 first]).raise .slipDone)
      else x

/-- A completion written to slot `n` (R170 to R172). -/
def Exchange.complete (n : Nat) (r : SlipResult) (x : Exchange) : Exchange :=
  let x := x.writeResult n .done r.code.code r.detail r.payload
  let x := if r.code = .ok then x.followLink n else Exchange.breakChain n 16 n x
  x.raise .slipDone

/-- The owner blocks that can have a lasting operation in flight (R166). -/
inductive LastingBlock where
  | store | air | keypad
deriving DecidableEq, Repr

/-- The binding of a block (R166). -/
def Engine.binding (e : Engine) : LastingBlock → Option (Fin 16)
  | .store => e.storeSlot
  | .air => e.airSlot
  | .keypad => e.keypadSlot

/-- The engine with a block's binding set. -/
def Engine.bind (b : LastingBlock) (n : Option (Fin 16)) (e : Engine) : Engine :=
  match b with
  | .store => { e with storeSlot := n }
  | .air => { e with airSlot := n }
  | .keypad => { e with keypadSlot := n }

/-- A block reports the end of its lasting operation (R170): written to the slot its binding names, and nowhere when
the binding is none. -/
def State.report (b : LastingBlock) (r : SlipResult) (s : State) : State :=
  match s.engine.binding b with
  | none => s
  | some n => (s.mapEngine (Engine.bind b none)).mapX (Exchange.complete n.val r)

/-- A lasting slip that its owner accepts (R169). -/
def State.accept (b : LastingBlock) (n : Fin 16) (s : State) : State :=
  (s.mapX (Exchange.writeResult n.val .taken 0 0 [])).mapEngine (Engine.bind b (some n))

/-- A slot's rank in the arbiter: a priority above 3 counts as 3 (R163). -/
def Exchange.priority (x : Exchange) (n : Nat) : Nat := min 3 (x.peek (slotAddr n + 2)).toNat

/-- The slots in the order in which the arbiter meets them: last served + 1 first, last served itself last (R167). -/
def Engine.searchOrder (e : Engine) : List (Fin 16) := (List.finRange 16).map fun i => e.lastServed + 1 + i

/-- The slot the arbiter chooses among those POSTED: the highest priority, and the first met among equals (R167). The slots
of `undelivered` have landed with the frame now ending and have not reached the arbiter yet: they are delivered in
ascending order, and the choice passes them by (R164, Note of R167). -/
def State.choose (undelivered : List (Fin 16)) (s : State) : Option (Fin 16) :=
  (s.engine.searchOrder.filter fun n => s.xmem.ownerIs n.val .posted && !undelivered.contains n).foldl
    (fun best n =>
      match best with
      | none => some n
      | some b => if s.xmem.priority b.val < s.xmem.priority n.val then some n else some b)
    none

/-- Host restart clearing in the slip engine (R174). The slip table is cleared in one part write of all its 1,024 bytes, so an
open READ frame that covers any byte of the table holds the whole of it: R174 says that the bodies are written as part
writes, and not how many there are (DESIGN CHOICE, log entry 45). -/
def State.clearSlips (s : State) : State :=
  (s.mapX (Exchange.partWrite 0x100 (List.replicate 1024 0))).mapEngine fun e =>
    { e with storeSlot := none, airSlot := none, keypadSlot := none, lastServed := 15 }

end Sys2Proof.Machine
end

