-- ==== Sys2Proof/Machine/Monitor.lean ====
section
/-!
DEFINITION. The liveness monitor's shared operations (chapter 5): what it shows the host, boot grace, the ladder, the
restart records, arming, and what a change of rail state does to the watchdog.
-/

namespace Sys2Proof.Machine

/-! ### What the host sees (R124) -/

/-- The watchdog remaining seconds at slot count `now` (R124): rounded up, 0 where no stage runs. -/
def Monitor.remaining (now : SlotCount) (m : Monitor) : Nat :=
  match m.watchdog, m.stageEnd with
  | .grace, some e => ((e - now).toNat + 63) / 64
  | .watching, some e => ((e - now).toNat + 63) / 64
  | .warned, some e => ((e - now).toNat + 63) / 64
  | _, _ => 0

/-- The watchdog state in the header and the remaining seconds on the live page (R124), a part write each (DESIGN CHOICE, log
entry 46), written again where they have not changed (DESIGN CHOICE, log entry 49). -/
def State.publishWatchdog (now : SlotCount) (s : State) : State :=
  (s.mapX (Exchange.partWrite 0x1A [s.mon.watchdog.code])).mapX
    (Exchange.partWrite 0x0B0 (le16 (s.mon.remaining now)))

/-- The ladder index becomes `i`, on the live page too (R124), written again where it has not changed (DESIGN CHOICE, log
entry 49). -/
def State.setLadderIndex (i : Nat) (s : State) : State :=
  (s.mapMon fun m => { m with ladderIndex := i }).mapX (Exchange.partWrite 0x0AF [BitVec.ofNat 8 i])

/-- The last refusal becomes `r`, in the header too (R106, R119, R124). -/
def State.setRefusal (r : KickRefusal) (s : State) : State :=
  (s.mapMon fun m => { m with lastRefusal := r }).mapX (Exchange.partWrite 0x13 [r.code])

/-! ### Boot grace (R102, R103) -/

/-- The boot grace in seconds for a MODULE reading (R102). -/
def bootGrace (p : Image) (module : Option Int) : Nat :=
  let cold := max 0 (Profile.graceReference p - module.getD (-400))
  min 3600 (Profile.graceBase p + Profile.coldGrace p * cold.toNat / 10)

/-- Entry into GRACE (R102). -/
def State.enterGrace (now : SlotCount) (p : Image) (s : State) : State :=
  s.mapMon fun m =>
    { m with
      watchdog := .grace
      expected := none
      stageEnd := some (after now (seconds (bootGrace p (s.temp 2)))) }

/-- Entry into PAUSED (R103, R113, R121). -/
def State.enterPaused (f : PausedFrom) (s : State) : State :=
  s.mapMon fun m => { m with watchdog := .paused, pausedFrom := f, stageEnd := none }

/-- The watchdog becomes DORMANT. -/
def State.enterDormant (s : State) : State :=
  s.mapMon fun m => { m with watchdog := .dormant, stageEnd := none }

/-- GRACE, or PAUSED while HSLEEP is asserted, or DORMANT while not armed: the watchdog of a rail that is RUNNING
afresh (R103, R121). -/
def State.startWatchdog (now : SlotCount) (p : Image) (s : State) : State :=
  if s.mon.armed then (if s.mon.hsleep then s.enterPaused .grace else s.enterGrace now p) else s.enterDormant

/-- The monitor takes an entry into RUNNING (R103). -/
def State.monitorRunning (now : SlotCount) (p : Image) (s : State) : State :=
  let s := s.mapMon fun m =>
    { m with
      hsleep := s.rail.hsleep
      pendingRecord := none
      stableEnd := some (after now (Profile.stableTime p * 3840)) }
  (s.startWatchdog now p).publishWatchdog now

/-- The monitor takes any other change of rail state (R104). -/
def Monitor.railChanged (old new : RailState) (m : Monitor) : Monitor :=
  let m :=
    if old = .running ∧ new ≠ .running then
      if m.watchdog = .expired then { m with stableEnd := none }
      else { m with stableEnd := none, watchdog := .dormant, stageEnd := none }
    else m
  if new = .off ∨ new = .lockout then
    { m with watchdog := if m.watchdog = .expired then .dormant else m.watchdog, pendingRecord := none }
  else m

/-! ### The ladder (R114) -/

/-- The action of the ladder at index `i` (R114). -/
def ladderAction (p : Image) (i : Nat) : LadderAction :=
  if i < Profile.ladderLength p then Profile.ladderStep p i else .lockout

/-- The index after a failure at index `i` (R114). -/
def ladderNext (p : Image) (i : Nat) : Nat := if i < Profile.ladderLength p then i + 1 else i

/-! ### Restart records (R118, R119) -/

/-- The 32 bytes of a record (section 10.6). -/
def RestartRecord.bytes (r : RestartRecord) : List Byte :=
  le16 r.number ++ [r.cause.code, r.action.code, BitVec.ofNat 8 r.indexBefore, flagByte r.lateKick, r.lastRefusal.code,
    r.railBefore.code] ++ sle16 r.moduleTemp ++ sle16 r.outsideTemp ++
    [flagByte r.moduleValid ||| (flagByte r.outsideValid <<< 1), 0, 0, 0] ++ le32 r.slot.toNat ++
    List.replicate 12 0

/-- The restart record region, position 0 first; an empty position reads 0 (R118). -/
def recordRegion (rs : List RestartRecord) : List Byte :=
  (rs.flatMap RestartRecord.bytes ++ List.replicate 256 0).take 256

/-- The records written to exchange memory (R118), in one part write of the whole region of 256 bytes. R118 does not say
whether the new record and the moves of the others are one part write or one for each position (DESIGN CHOICE, log entry
46). -/
def State.publishRecords (s : State) : State := s.mapX (Exchange.partWrite 0x600 (recordRegion s.mon.records))

/-- The number after `n`: after 65,535 comes 1 (R118). -/
def nextRecordNumber (n : Nat) : Nat := if n = 65535 then 1 else n + 1

/-- A new restart record (R119): the next number, the action as carried out, the last refusal, and MODULE and OUTSIDE as
they stand, each recorded as not valid with the value 0 where it is not valid. -/
def State.newRecord (now : SlotCount) (cause : RestartCause) (action : RecordAction) (indexBefore : Nat)
    (before : RailState) (s : State) : RestartRecord :=
  { number := nextRecordNumber s.mon.recordCounter, cause := cause, action := action, indexBefore := indexBefore,
    lateKick := false, lastRefusal := s.mon.lastRefusal, moduleTemp := (s.temp 2).getD 0,
    moduleValid := (s.temp 2).isSome, outsideTemp := (s.temp 5).getD 0, outsideValid := (s.temp 5).isSome,
    railBefore := before, slot := now }

/-- A restart record is added (R118, R119). -/
def State.addRecord (now : SlotCount) (cause : RestartCause) (action : RecordAction) (indexBefore : Nat)
    (before : RailState) (s : State) : State :=
  let r := s.newRecord now cause action indexBefore before
  let s := s.mapMon fun m => { m with recordCounter := r.number, records := (r :: m.records).take 8 }
  ((s.publishRecords).setRefusal .noRefusal).raise .restartNote

/-- The record with the given number has its late-kick flag set, where it now stands (R108). -/
def markLate (n : Nat) (rs : List RestartRecord) : List RestartRecord :=
  rs.map fun r => if r.number = n then { r with lateKick := true } else r

/-! ### Arming (R121) and clearing (R122) -/

/-- The armed flag becomes `b`, with the effects of R121. -/
def State.setArmed (now : SlotCount) (p : Image) (b : Bool) (s : State) : State :=
  let was := s.mon.armed
  let s := s.mapMon fun m => { m with armed := b }
  let s :=
    if b && !was && s.mon.watchdog = .dormant && s.rail.state = .running then s.startWatchdog now p
    else if !b && was && s.mon.watchdog ≠ .expired && s.mon.watchdog ≠ .dormant then s.enterDormant
    else s
  s.publishWatchdog now

/-- Host restart clearing in the monitor (R122). -/
def State.clearMonitor (now : SlotCount) (p : Image) (s : State) : State :=
  let s := s.mapMon fun m => { m with runtimeSet := Profile.stages p }
  let s := s.setArmed now p (Profile.watchdogArmed p)
  s.mapMon fun m => { m with expected := none }

end Sys2Proof.Machine
end

