-- ==== Sys2Proof/Machine/Rail.lean ====
section
/-!
DEFINITION. The rail controller's shared operations (chapter 4): host restart clearing, changes of rail state with the
lines they move, cuts, failures, the start gate, the orderly stop, the cabinet inputs and the power key.
-/

namespace Sys2Proof.Machine

/-! ### Host restart clearing (R94) -/

/-- The overrides of all three zones are removed (R21, R41). -/
def State.clearOverrides (s : State) : State :=
  s.mapClimate fun c => { c with zones := tab 3 fun z => { c.zones[z] with override := none } }

/-- A stop request, or a clearing, reaches the probe (R63, R64). -/
def Probe.requestStop (pr : Probe) : Probe :=
  match pr.phase with
  | .waiting => { pr with stopPending := true }
  | .settle => { pr with stopPending := true }
  | .measure => { pr with stopPending := true }
  | .idle => pr
  | .writing => pr

/-- Host restart clearing in the air controller (R64). -/
def State.clearAir (s : State) : State :=
  s.mapAir fun a =>
    { a with fans := tab 2 fun f => { a.fans[f] with floor := none }, probe := a.probe.requestStop }

/-- The gap count in the header (R142, R147). -/
def State.setGap (g : Nat) (s : State) : State :=
  (s.mapKeypad fun k => { k with gap := g }).mapX (Exchange.partWrite 0x18 [BitVec.ofNat 8 g])

/-- The read counter in the header (R143, R147). -/
def State.setReadCounter (v : Half) (s : State) : State :=
  (s.mapKeypad fun k => { k with readCounter := v }).mapX (Exchange.partWrite 0x16 (le16 v.toNat))

/-- Host restart clearing in the keypad controller (R148): the read counter and the gap count are a part write each (DESIGN
CHOICE, log entry 46). -/
def State.clearKeypad (s : State) : State :=
  ((s.setReadCounter s.keypad.writeCounter).setGap 0).mapKeypad fun k =>
    { k with stopPending := k.stopPending || k.rebaseline.isSome }

/-- Host restart clearing (R94): the climate controller (R41), the air controller (R64), the monitor (R122), the keypad
controller (R148), the slip engine (R174) and the exchange memory (R162). -/
def State.hostRestartClearing (now : SlotCount) (p : Image) (s : State) : State :=
  ((((s.clearOverrides.clearAir).clearMonitor now p).clearKeypad).clearSlips).mapX Exchange.clearAttention

/-! ### Changes of rail state (R66, R98) -/

/-- The wait reason, on the live page too (R74, R98), written again where it has not changed (DESIGN CHOICE, log entry 49). -/
def State.setWait (w : WaitReason) (s : State) : State :=
  (s.mapRail fun r => { r with waitReason := w }).mapX (Exchange.partWrite 0x0AC [w.code])

/-- Restart pending, on the live page too (R98), written again where it has not changed (DESIGN CHOICE, log entry 49). -/
def State.setRestartPending (b : Bool) (s : State) : State :=
  (s.mapRail fun r => { r with restartPending := b }).mapX (Exchange.partWrite 0x0AD [flagByte b])

/-- Entry into one of these removes the overrides (R21). -/
def RailState.removesOverrides : RailState → Bool
  | .off => true | .warming => true | .cooldown => true | .lockout => true
  | .starting => false | .running => false | .stopping => false | .resetting => false

/-- The rail state becomes `new`: header (R98), overrides (R21), the wait reason at an exit from WARMING (R74), and the
hand-over to the monitor (R78, R104). -/
def State.setRail (now : SlotCount) (new : RailState) (s : State) : State :=
  let old := s.rail.state
  let s := (s.mapRail fun r => { r with state := new }).mapX (Exchange.partWrite 0x19 [new.code])
  let s := if new.removesOverrides then s.clearOverrides else s
  let s := if old = .warming ∧ new ≠ .warming then s.setWait .noWait else s
  (s.mapMon (Monitor.railChanged old new)).publishWatchdog now

/-- The lines of a rail going off, and what a cut or the end of a stop stops with them (R78, R85). -/
def State.cutLines (s : State) : State :=
  s.mapRail fun r =>
    { r with
      railEn := false, hrst := false, hpwrbtn := false, pulse := none, pgoodLimit := none, resetHold := none,
      stopLimit := none, resetDelay := none, resetWidth := none, overcurrentCount := 0, sleepCount := 0 }

/-- The minimum off time, in slots. -/
def minimumOffSlots (p : Image) : Nat := seconds (Profile.minimumOff p)

/-- The rail goes off into COOLDOWN with the given restart pending and off time (R78, R85, R87). -/
def State.enterCooldown (now : SlotCount) (restart : Bool) (off : Nat) (s : State) : State :=
  let s := s.cutLines.setRail now .cooldown
  (s.setRestartPending restart).mapRail fun r => { r with offTime := off, offTimer := some (after now off) }

/-- The rail goes off into LOCKOUT, with restart pending clear (R79, R88). -/
def State.enterLockout (now : SlotCount) (s : State) : State :=
  (s.cutLines.setRail now .lockout).setRestartPending false

/-- A failure of the host (R79, R115): the ladder gives the action, WARM is carried out as COLD, and the record shows
the action as carried out. -/
def State.failure (now : SlotCount) (p : Image) (cause : RestartCause) (s : State) : State :=
  let before := s.rail.state
  let i := s.mon.ladderIndex
  let s := s.setLadderIndex (ladderNext p i)
  match ladderAction p i with
  | .lockout => (s.addRecord now cause .lockout i before).enterLockout now
  | .warm => (s.addRecord now cause .cold i before).enterCooldown now true (minimumOffSlots p)
  | .cold => (s.addRecord now cause .cold i before).enterCooldown now true (minimumOffSlots p)

/-- A cut that is not a failure: the record notice of R95 and COOLDOWN with the minimum off time. -/
def State.cutWithNotice (now : SlotCount) (p : Image) (cause : RestartCause) (restart : Bool) (s : State) : State :=
  let action := if restart then RecordAction.cold else RecordAction.off
  (s.addRecord now cause action s.mon.ladderIndex s.rail.state).enterCooldown now restart (minimumOffSlots p)

/-! ### The start gate (R71 to R74) -/

/-- A gate zone is a fitted zone marked as a gate member (R72). -/
def gateZone (p : Image) (z : Fin 3) : Bool := Profile.zoneFitted p z && Profile.gateMember p z

/-- A zone's warm count after a judgement (R72); a zone that is not a gate zone holds 0 (R99). -/
def warmCountNext (p : Image) (z : Fin 3) (temp : Option Int) (count : Nat) : Nat :=
  if gateZone p z then
    match temp with
    | some t => if Profile.startThreshold p z ≤ t then min 38400 (count + 1) else 0
    | none => 0
  else 0

/-- Whether a gate zone is warm at a judgement, by its sensor, its warm count after it and the warming age (R72). -/
def zoneWarm (p : Image) (z : Fin 3) (temp : Option Int) (count age : Nat) : Bool :=
  match temp with
  | some t => Profile.startThreshold p z ≤ t && seconds (Profile.dwell p) ≤ count
  | none => seconds (Profile.blindWarmTime p) ≤ age

/-- Whether a warm outside bypasses the zone conditions (R72). -/
def State.bypass (p : Image) (s : State) : Bool :=
  Profile.bypassEnable p &&
    (match s.temp 5 with
     | some t => Profile.bypassTemp p ≤ t
     | none => false)

/-- The start is hot (R73). -/
def State.hot (p : Image) (s : State) : Bool :=
  match s.moduleTemp with
  | some t => Profile.hotStartLimit p ≤ t
  | none => false

/-- An input is active while its taken level is the level its polarity names (R89). -/
def State.inputActive (p : Image) (k : Fin 4) (s : State) : Bool :=
  s.rail.inputs[k].taken == some (Profile.activeLevel p k)

/-- The start is held by an active HOLD input (R73). The route is that of the active profile at the judgement, also for an
input that was already active when a new profile gave it route HOLD or took it away: R99 has new routes apply from the next
change of an input, and R73 and R90 read HOLD at every judgement (DESIGN CHOICE, log entry 48). -/
def State.held (p : Image) (s : State) : Bool :=
  (List.finRange 4).any fun k => Profile.inputRoute p k = .hold && s.inputActive p k

/-- The zone condition of the gate (R72). -/
def State.zonesWarm (p : Image) (s : State) : Bool :=
  (List.finRange 3).all fun z =>
    !gateZone p z || s.bypass p ||
      zoneWarm p z (s.temp (Profile.zoneSensor p z)) s.rail.warmCount[z] s.rail.warmingAge

/-- The wait reason of a judgement (R74). -/
def State.judgedWait (p : Image) (s : State) : WaitReason :=
  if s.held p then .hold
  else if s.hot p then .hot
  else if !s.zonesWarm p then .cold
  else if s.rail.budgetRefused then .budget
  else .noWait

/-- A judgement of the gate with the warming age `age` (R72 to R74). -/
def State.judgeGate (p : Image) (age : Nat) (s : State) : State :=
  let s := s.mapRail fun r =>
    { r with
      warmingAge := age
      warmCount := tab 3 fun z => warmCountNext p z (s.temp (Profile.zoneSensor p z)) r.warmCount[z] }
  let isOpen := s.zonesWarm p && !s.hot p && !s.held p
  let s := s.mapRail fun r =>
    { r with startRequest := isOpen, budgetRefused := r.budgetRefused && isOpen }
  s.setWait (s.judgedWait p)

/-- The judgement of a slot start in WARMING (R71): the warming age rises by 1, held at 460,800. The slot start of the entry
itself has judged already (DEDUCED, log entry 8); every later one judges. -/
def State.judgeAtSlot (now : SlotCount) (p : Image) (s : State) : State :=
  if s.rail.state = .warming then
    let entry := s.rail.judgedAt
    let s := s.mapRail fun r => { r with judgedAt := none }
    if entry = some now then s else s.judgeGate p (min 460800 (s.rail.warmingAge + 1))
  else s

/-- Entry into WARMING (R71), with the first judgement at once. -/
def State.enterWarming (now : SlotCount) (p : Image) (s : State) : State :=
  let s := s.setRail now .warming
  let s := s.setRestartPending false
  let s := s.mapRail fun r =>
    { r with
      warmCount := Vector.replicate 3 0, startRequest := false, budgetRefused := false, judgedAt := some now,
      offTimer := none }
  s.judgeGate p 0

/-! ### STARTING, RUNNING, STOPPING, RESETTING -/

/-- Entry into STARTING (R76). -/
def State.enterStarting (now : SlotCount) (p : Image) (s : State) : State :=
  let s := s.setRail now .starting
  let s := s.mapRail fun r =>
    { r with
      railEn := true, hrst := true, startRequest := false, budgetRefused := false, overcurrentCount := 0,
      pgoodLimit := some (after now (seconds (Profile.pgoodLimit p))), resetHold := none }
  s.hostRestartClearing now p

/-- Entry into RUNNING from STARTING (R76) or from RESETTING (R86). -/
def State.enterRunning (now : SlotCount) (p : Image) (s : State) : State :=
  let s := s.mapRail fun r =>
    { r with hrst := false, pgoodLimit := none, resetHold := none, resetDelay := none, resetWidth := none }
  (s.setRail now .running).monitorRunning now p

/-- An HPWRBTN# pulse, unless one is in progress (R92). -/
def State.startPulse (now : SlotCount) (p : Image) (s : State) : State :=
  if s.rail.pulse.isSome then s
  else s.mapRail fun r => { r with hpwrbtn := true, pulse := some (after now (Profile.pulseWidth p)) }

/-- Entry into STOPPING with the given restart-after delay (R84). -/
def State.enterStopping (now : SlotCount) (p : Image) (delay : Nat) (s : State) : State :=
  (s.setRail now .stopping).mapRail fun r =>
    { r with stopRestart := delay, sleepCount := 0, stopLimit := some (after now (seconds (Profile.stopLimit p))) }

/-- The off time of a stop's end: the larger of the minimum off time and the stop restart (R85). -/
def State.stopOffSlots (p : Image) (s : State) : Nat := max (minimumOffSlots p) (seconds s.rail.stopRestart)

/-- The completion of an orderly stop (R85): no record. -/
def State.completeStop (now : SlotCount) (p : Image) (s : State) : State :=
  s.enterCooldown now (0 < s.rail.stopRestart) (s.stopOffSlots p)

/-- The reset width begins: HRST# is asserted (R86). -/
def State.assertReset (now : SlotCount) (p : Image) (s : State) : State :=
  s.mapRail fun r =>
    { r with hrst := true, resetDelay := none, resetWidth := some (after now (Profile.resetWidth p)) }

/-- Entry into RESETTING (R86). -/
def State.enterResetting (now : SlotCount) (p : Image) (s : State) : State :=
  let s := (s.setRail now .resetting).hostRestartClearing now p
  if Profile.resetDelay p = 0 then s.assertReset now p
  else s.mapRail fun r => { r with resetDelay := some (after now (Profile.resetDelay p)) }

/-- The rail controller carries out a watchdog action (R83, R111). -/
def State.carryOut (now : SlotCount) (p : Image) (a : LadderAction) (s : State) : State :=
  match a with
  | .warm => s.enterResetting now p
  | .cold => s.enterCooldown now true (minimumOffSlots p)
  | .lockout => s.enterLockout now

/-! ### HSLEEP (R113) -/

/-- The monitor takes a change of HSLEEP in RUNNING (R113). -/
def State.hsleepChanged (now : SlotCount) (p : Image) (level : Bool) (s : State) : State :=
  let s := s.mapMon fun m => { m with hsleep := level }
  let s :=
    if level then
      match s.mon.watchdog with
      | .grace => s.enterPaused .grace
      | .watching => s.enterPaused .watching
      | .warned => s.enterPaused .watching
      | .dormant => s
      | .paused => s
      | .expired => s
    else
      match s.mon.watchdog with
      | .paused =>
        match s.mon.pausedFrom with
        | .grace => s.enterGrace now p
        | .watching =>
          s.mapMon fun m =>
            { m with watchdog := .watching, stageEnd := some (after now (seconds m.inForce.s1)) }
      | .dormant => s
      | .grace => s
      | .watching => s
      | .warned => s
      | .expired => s
  s.publishWatchdog now

/-! ### The sample of a slot start (R69) -/

/-- PGOOD and HSLEEP are sampled at a slot start, and the rail state acts on them (R69, R76, R77, R81, R83, R85). The
completion of a stop by the sleep hold is the event SLEEP_HOLD_END. Of a sample in RUNNING that shows PGOOD released and
HSLEEP changed, the failure alone is acted on, and the monitor is not told of HSLEEP: R69, R81 and R113 do not order the two
(DESIGN CHOICE, log entry 36). In STOPPING the sleep count is held at the sleep hold, to which it is brought back where a
new profile has shortened it (DESIGN CHOICE, log entry 37). -/
def State.samplePower (now : SlotCount) (p : Image) (pgood hsleep : Bool) (s : State) : State :=
  let changed := s.rail.hsleep != hsleep
  let s := s.mapRail fun r => { r with pgood := pgood, hsleep := hsleep }
  match s.rail.state with
  | .starting =>
    if pgood then
      if s.rail.resetHold.isSome then s
      else s.mapRail fun r => { r with resetHold := some (after now (Profile.resetHold p)) }
    else if s.rail.resetHold.isSome then
      if s.rail.pgoodLimit.isSome then s.mapRail fun r => { r with resetHold := none }
      else s.failure now p .noPowergood
    else s
  | .running =>
    if !pgood then s.failure now p .powergoodLost
    else if changed then s.hsleepChanged now p hsleep
    else s
  | .resetting => if !pgood then s.failure now p .powergoodLost else s
  | .stopping =>
    let s := s.mapRail fun r =>
      { r with sleepCount := if hsleep then min (seconds (Profile.sleepHold p)) (r.sleepCount + 1) else 0 }
    if !pgood then s.completeStop now p else s
  | .off => s
  | .warming => s
  | .cooldown => s
  | .lockout => s

/-! ### Cabinet inputs (R89 to R91) -/

/-- An input record after a sample (R89). -/
def InputRec.sample (level : Bool) (i : InputRec) : InputRec :=
  let agree := if i.lastSample = some level then min 2 (i.agree + 1) else 0
  { lastSample := some level, agree := agree, taken := if agree = 2 then some level else i.taken }

/-- The active inputs as the live page shows them (R98, section 10.3). -/
def State.inputsByte (p : Image) (s : State) : Byte :=
  flagByte (s.inputActive p 0) ||| (flagByte (s.inputActive p 1) <<< 1) |||
    (flagByte (s.inputActive p 2) <<< 2) ||| (flagByte (s.inputActive p 3) <<< 3)

/-- The input states on the live page (R98), at each change and at an activation (DEDUCED, log entry 32), there also where no
bit has changed (DESIGN CHOICE, log entry 49). -/
def State.publishInputs (p : Image) (s : State) : State := s.mapX (Exchange.partWrite 0x0AE [s.inputsByte p])

/-- A CUT-routed input becomes active (R91). In WARMING, R91 lowers the start request and names no other field of the
request: budget refused keeps its value until the next entry into WARMING, though R66 speaks of the request now raised
(DESIGN CHOICE, log entry 41). -/
def State.cutInput (now : SlotCount) (p : Image) (s : State) : State :=
  if s.rail.state.isOn then s.cutWithNotice now p .inputCut false
  else
    match s.rail.state with
    | .warming => (s.mapRail fun r => { r with startRequest := false }).setRail now .off
    | .cooldown => s.setRestartPending false
    | _ => s

/-- An input becomes active (R90). -/
def State.inputRises (now : SlotCount) (p : Image) (k : Fin 4) (s : State) : State :=
  match Profile.inputRoute p k with
  | .unrouted => s
  | .note => s.raise .inputNote
  | .hold => s
  | .start =>
    match s.rail.state with
    | .off => s.enterWarming now p
    | .cooldown => s.setRestartPending true
    | _ => s
  | .stop =>
    if s.rail.state = .running then ((s.enterStopping now p 0).startPulse now p).raise .stopAsked else s
  | .cut => s.cutInput now p

/-- An input becomes inactive (R90). -/
def State.inputFalls (p : Image) (k : Fin 4) (s : State) : State :=
  if Profile.inputRoute p k = .note then s.raise .inputNote else s

/-- Input `k` is sampled at a slot start, and a change of it acts by its route (R89, R90). -/
def State.sampleInput (now : SlotCount) (p : Image) (levels : BitVec 4) (s : State) (k : Fin 4) : State :=
  let was := s.inputActive p k
  let s := s.mapRail fun r => { r with inputs := r.inputs.set k (r.inputs[k].sample (levels.getLsbD k.val)) }
  let isNow := s.inputActive p k
  if isNow && !was then (s.publishInputs p).inputRises now p k
  else if was && !isNow then (s.publishInputs p).inputFalls p k
  else s

/-- The four inputs are sampled at a slot start (R89). IN0 comes first and IN3 last, and each acts by its route before the
next is sampled: no rule orders them (DESIGN CHOICE, log entry 35). -/
def State.sampleInputs (now : SlotCount) (p : Image) (levels : BitVec 4) (s : State) : State :=
  (List.finRange 4).foldl (State.sampleInput now p levels) s

/-! ### The power key (R92, R93) and the service chord (R88) -/

/-- A power key press (R92). -/
def State.powerKeyPress (now : SlotCount) (p : Image) (s : State) : State :=
  let s := s.mapRail fun r => { r with override := some (after now (seconds (Profile.overrideTime p))) }
  match s.rail.state with
  | .off => s.enterWarming now p
  | .running => s.startPulse now p
  | _ => s

/-- A power key release stops the override timer (R93). -/
def State.powerKeyRelease (s : State) : State := s.mapRail fun r => { r with override := none }

/-- The service chord notice (R88, R117). -/
def State.serviceChord (now : SlotCount) (p : Image) (s : State) : State :=
  if s.rail.state = .lockout then (s.setLadderIndex 0).enterWarming now p else s

end Sys2Proof.Machine
end

