-- ==== Sys2Proof/Machine/Climate.lean ====
section
/-!
DEFINITION. The climate controller (chapter 2): setpoints, zone control, the allotment, the start reservation, the
heater outputs and edge slots, the fog notice and the SET ZONE TARGET slip.
-/

namespace Sys2Proof.Machine

/-- The selected setpoint of a zone by rail state (R19). -/
def selectedSetpoint (p : Image) (r : RailState) (z : Fin 3) (override : Option Int) : Int :=
  match r with
  | .off => Profile.keepSetpoint p z
  | .cooldown => Profile.keepSetpoint p z
  | .lockout => Profile.keepSetpoint p z
  | .warming => Profile.warmSetpoint p z
  | .starting => override.getD (Profile.runSetpoint p z)
  | .running => override.getD (Profile.runSetpoint p z)
  | .stopping => override.getD (Profile.runSetpoint p z)
  | .resetting => override.getD (Profile.runSetpoint p z)

/-- The effective setpoint of a zone (R22): Z2 is lifted above INLET in fog. -/
def effectiveSetpoint (p : Image) (z : Fin 3) (fog : Bool) (inlet : Option Int) (selected : Int) : Int :=
  let lifted :=
    if z = 2 ∧ fog then
      match inlet with
      | some t => max selected (t + Profile.fogLift p)
      | none => selected
    else selected
  clampInt (-400) 600 lifted

/-- The error of R24. -/
def zoneError (effective t : Int) : Int := clampInt (-1000) 1000 (effective - t)

/-- The integrator after R24. -/
def nextIntegrator (p : Image) (z : Fin 3) (heldHigh : Bool) (e : Int) (integrator : Nat) : Nat :=
  if heldHigh ∧ 0 < e then integrator
  else (clampInt 0 16384 (integrator + Profile.integralGain p z * e)).toNat

/-- The request of R25; the division rounds down. -/
def zoneRequest (p : Image) (z : Fin 3) (e : Int) (integrator : Nat) : Nat :=
  (clampInt 0 (Profile.dutyCap p z) ((Profile.proportionalGain p z * e * 16 + integrator) / 256)).toNat

/-- A zone record after zone control (R18, R24 to R26), with the grant and the held-high flag still those of the window
now ending. -/
def ZoneRec.control (p : Image) (z : Fin 3) (effective : Int) (temp : Option Int) (r : ZoneRec) : ZoneRec :=
  if Profile.zoneFitted p z then
    match temp with
    | some t =>
      let e := zoneError effective t
      let i := nextIntegrator p z r.heldHigh e r.integrator
      { r with effective := effective, integrator := i, request := zoneRequest p z e i }
    | none =>
      { r with
        effective := effective, integrator := 0, request := min (Profile.fallbackDuty p z) (Profile.dutyCap p z) }
  else { r with effective := effective, integrator := 0, request := 0 }

/-- The allotment (R32) over the zones still to visit, with the slot-deciwatts `left` and the grants made so far. -/
def allot (p : Image) (request : Vector Nat 3) : List (Fin 3) → Nat → Vector Nat 3 → Vector Nat 3
  | [], _, grants => grants
  | z :: zs, left, grants =>
    if Profile.zoneFitted p z then
      let g := min request[z] (left / Profile.zoneRating p z)
      allot p request zs (left - Profile.zoneRating p z * g) (grants.set z g)
    else allot p request zs left grants

/-- The grants of a boundary (R32), from the available heater power. -/
def grantsFor (p : Image) (request : Vector Nat 3) (available : Nat) : Vector Nat 3 :=
  allot p request (Profile.priorityOrder p) (available * 64) (Vector.replicate 3 0)

/-- The held-high flag for the coming window (R27). -/
def heldHighFor (p : Image) (z : Fin 3) (request grant : Nat) : Bool :=
  Profile.zoneFitted p z && (grant < request || request == Profile.dutyCap p z)

/-- The fan power of the duties handed over (R29). -/
def fanPower (p : Image) (a : Air) : Nat :=
  Profile.fanRating p 0 * a.fans[(0 : Fin 2)].duty / 100 + Profile.fanRating p 1 * a.fans[(1 : Fin 2)].duty / 100

/-- The reservation test (R35). -/
def reservationTest (p : Image) (fans : Nat) : Bool :=
  Profile.startReserve p + fans + Profile.heaterReserve p ≤ Profile.feedLimit p

/-- The host allowance (R28). -/
def hostAllowanceFor (p : Image) (r : RailState) (granted : Bool) (average : Nat) : Nat :=
  match r with
  | .off => 0
  | .cooldown => 0
  | .lockout => 0
  | .warming => if granted then Profile.startReserve p else 0
  | .starting => Profile.startReserve p
  | .running => average + Profile.headroom p
  | .stopping => average + Profile.headroom p
  | .resetting => average + Profile.headroom p

/-- The available heater power (R30); natural subtraction clamps at 0. -/
def availableFor (p : Image) (h fans : Nat) : Nat := Profile.feedLimit p - h - fans - Profile.heaterReserve p

/-- Whether slot `n` of the coming window is an edge slot (R34), from the grants of the previous window and the new. -/
def isEdge (prev new : Vector Nat 3) (n : Nat) : Bool :=
  (List.finRange 3).any fun z =>
    if n = 0 then (0 < new[z]) != (prev[z] == 64) else new[z] == n

/-- The edge slots of the coming window, in rising order (R34). -/
def edgeSlots (prev new : Vector Nat 3) : List Nat := (List.range 64).filter (isEdge prev new)

/-- Zone `z`'s entry on the live page (R38): its effective setpoint, request and grant in one part write. Neither R38 nor R153
says how many part writes stage 7 is (DESIGN CHOICE, log entry 46). -/
def State.publishZone (s : State) (z : Fin 3) : State :=
  let r := s.climate.zones[z]
  s.mapX (Exchange.partWrite (0x070 + 8 * z.val)
    (sle16 r.effective ++ [BitVec.ofNat 8 r.request, BitVec.ofNat 8 r.grant]))

/-- Stage 7 of the boundary (R38): a part write for each zone, one for A and one for H (DESIGN CHOICE, log entry 46). -/
def State.publishClimate (s : State) : State :=
  let s := (List.finRange 3).foldl State.publishZone s
  (s.mapX (Exchange.partWrite 0x088 (le16 s.climate.available))).mapX
    (Exchange.partWrite 0x08A (le16 s.climate.hostAllowance))

/-- The climate controller's work at a boundary (R31), after the air controller has decided the fan duties. It leaves
the edge slots of the coming window for the keypad controller. An earlier answer that the rail controller has not received
yet is kept where this boundary is asked for nothing, and replaced by the new answer where a start is asked for: R37 does
not say (DESIGN CHOICE, log entry 34). -/
def State.climateBoundary (now : SlotCount) (p : Image) (s : State) : State × List Nat :=
  let rail := s.rail.state
  let asked : Bool := rail = .warming ∧ s.rail.startRequest
  let prev := tab 3 fun z => s.climate.zones[z].grant
  let demand := tab 3 fun z =>
    let r := s.climate.zones[z]
    let effective := effectiveSetpoint p z s.keypad.fog (s.temp 0) (selectedSetpoint p rail z r.override)
    r.control p z effective (s.temp (Profile.zoneSensor p z))
  let fans := fanPower p s.air
  let granted := asked && reservationTest p fans
  let h := hostAllowanceFor p rail granted s.sense.railAverage
  let available := availableFor p h fans
  let grants := grantsFor p (tab 3 fun z => demand[z].request) available
  let s := s.mapClimate fun c =>
    { zones := tab 3 fun z =>
        { demand[z] with grant := grants[z], heldHigh := heldHighFor p z demand[z].request grants[z] }
      hostAllowance := h
      available := available
      heaters := tab 3 fun z => 0 < grants[z]
      answer := if asked then some (granted, now) else c.answer }
  (s.publishClimate, edgeSlots prev grants)

/-- The heater outputs of a slot after slot 0 (R33). -/
def State.driveHeaters (n : Nat) (s : State) : State :=
  s.mapClimate fun c => { c with heaters := tab 3 fun z => n < c.zones[z].grant }

/-- The notice that the keypad is in fog (R23): Z2's effective setpoint rises to INLET + fog lift at once. -/
def State.fogNotice (p : Image) (s : State) : State :=
  match s.temp 0 with
  | none => s
  | some t =>
    let target := min (t + Profile.fogLift p) 600
    if s.climate.zones[(2 : Fin 3)].effective < target then
      (s.mapClimate fun c =>
        { c with zones := c.zones.set (2 : Fin 3) { c.zones[(2 : Fin 3)] with effective := target } }).mapX
        (Exchange.partWrite 0x080 (sle16 target))
    else s

/-- The override of zone `z` becomes `o`. -/
def State.setOverride (z : Fin 3) (o : Option Int) (s : State) : State :=
  s.mapClimate fun c => { c with zones := c.zones.set z { c.zones[z] with override := o } }

/-- SET ZONE TARGET (R20). An override set between the end of the load and the first boundary stands at that boundary: R20
takes the slip in every rail state, while R40 has every zone record hold the values of R17 there (DESIGN CHOICE, log entry
47). -/
def State.zoneTargetSlip (zone action : Nat) (setpoint : Int) (s : State) : State × SlipResult :=
  if h : zone < 3 then
    if action = 1 then
      let t := clampInt (-400) 600 setpoint
      (s.setOverride ⟨zone, h⟩ (some t), { SlipResult.ok with detail := clampedDetail (t != setpoint) })
    else if action = 2 then (s.setOverride ⟨zone, h⟩ none, SlipResult.ok)
    else (s, SlipResult.only .badParam)
  else (s, SlipResult.only .badParam)

end Sys2Proof.Machine
end

