-- ==== Sys2Proof/Machine/Air.lean ====
section
/-!
DEFINITION. The air controller (chapter 3): the fan curve and duties, kicks, tachometers, stalls and faults, the
airflow probe with its clog index and schedule, and the air controller's slips.
-/

namespace Sys2Proof.Machine

/-! ### The fan curve (R43) -/

/-- The control temperature (R43): the larger of OUTLET and MODULE, or the one that is valid. -/
def State.controlTemp (s : State) : Option Int :=
  match s.temp 1, s.temp 2 with
  | some a, some b => some (max a b)
  | some a, none => some a
  | none, b => b

/-- The curve read on the segment from point `j` (R43); the quotient is truncated toward zero. -/
def curveSegment (p : Image) (t : Int) (j : Nat) : Int :=
  Profile.curveDuty p j + ((Profile.curveDuty p (j + 1) - Profile.curveDuty p j) * (t - Profile.curveTemp p j)).tdiv
    (Profile.curveTemp p (j + 1) - Profile.curveTemp p j)

/-- The curve value of a control temperature (R43). -/
def curveValue (p : Image) (t : Int) : Nat :=
  let v :=
    if t < Profile.curveTemp p 0 then Profile.curveDuty p 0
    else
      match (List.range 7).find? fun j => t ≤ Profile.curveTemp p (j + 1) with
      | some j => curveSegment p t j
      | none => Profile.curveDuty p 7
  v.toNat

/-! ### Fans (R44, R46, R47, R49, R50) -/

/-- What the judgement of a window found (R49). -/
inductive FanVerdict where
  | stalled | good | notJudged
deriving DecidableEq, Repr

/-- The judgement of a fan over the window now ending (R49). -/
def fanVerdict (p : Image) (f : Fin 2) (r : FanRec) : FanVerdict :=
  let outOfGrace : Bool :=
    match r.kickAge with
    | some a => Profile.kickTime p f + 3 ≤ a
    | none => false
  if Profile.fanFitted p f && 20 ≤ r.duty && outOfGrace then
    (if r.rpm < Profile.stallFloor p f then .stalled else .good)
  else .notJudged

/-- The counts and the fault after a judgement (R49, R50). -/
def FanRec.judge (v : FanVerdict) (r : FanRec) : FanRec :=
  match v, r.fault with
  | .stalled, false =>
    if r.stallCount + 1 = 3 then { r with fault := true, stallCount := 0, goodCount := 0 }
    else { r with stallCount := r.stallCount + 1 }
  | .stalled, true => { r with goodCount := 0 }
  | .good, false => { r with stallCount := 0 }
  | .good, true =>
    if r.goodCount + 1 = 3 then { r with fault := false, stallCount := 0, goodCount := 0 }
    else { r with goodCount := r.goodCount + 1 }
  | .notJudged, _ => r

/-- A fan that is not fitted has fault clear and both counts 0 (R65). -/
def FanRec.unfit (r : FanRec) : FanRec := { r with fault := false, stallCount := 0, goodCount := 0 }

/-- Stage 2 of the boundary for one fan (R49, R50, R65). -/
def State.judgeFan (p : Image) (s : State) (f : Fin 2) : State :=
  let r := s.air.fans[f]
  let r' := if Profile.fanFitted p f then r.judge (fanVerdict p f r) else r.unfit
  let s := s.mapAir fun a => { a with fans := a.fans.set f r' }
  if !r.fault && r'.fault then s.raise .fanFault else s

/-- The other fan. -/
def otherFan (f : Fin 2) : Fin 2 := if f = 0 then 1 else 0

/-- The effective duty of a fan for the coming window (R44). `curve` is none when neither OUTLET nor MODULE is valid;
`probe` is the held probe duty while a probe holds the fans. -/
def effectiveDuty (p : Image) (a : Air) (curve probe : Option Nat) (f : Fin 2) : Nat :=
  if Profile.fanFitted p f then
    let asked := max (curve.getD 0) (a.fans[f].floor.getD 0)
    let forced := a.clogLimit || (Profile.fanFitted p (otherFan f) && a.fans[otherFan f].fault) || curve.isNone
    let duty := probe.getD (if forced then 100 else asked)
    if 1 ≤ duty ∧ duty ≤ 19 then 20 else duty
  else 0

/-- The kick age of the coming window (R46). -/
def nextKickAge (old new : Nat) (age : Option Nat) : Option Nat :=
  if new = 0 then none else if old = 0 then some 0 else some (min 255 (age.getD 0 + 1))

/-- The FPWM output of the coming window (R47). -/
def fanOutput (p : Image) (f : Fin 2) (duty : Nat) (age : Option Nat) : Nat :=
  match age with
  | some a => if a < Profile.kickTime p f then 100 else duty
  | none => duty

/-- Stages 5 and 6 of the boundary for one fan (R44, R46, R47). -/
def FanRec.drive (p : Image) (f : Fin 2) (duty : Nat) (r : FanRec) : FanRec :=
  let age := nextKickAge r.duty duty r.kickAge
  { r with duty := duty, kickAge := age, output := fanOutput p f duty age }

/-! ### Tachometers (R48) -/

/-- The rpm of a tach period (R48). -/
def rpmOf (period ppr : Nat) : Nat := min 65535 (60000000 / (period * ppr))

/-- A fan record after a falling edge `elapsed` µs after the edge before it (R48). An edge later than 1,000,000 µs finds
the timing stopped by the timeout. `ppr` is none before the first profile: the rpm is then a free value, held at 65,535 as
every rpm is (log entry 7). A period of less than 1 µs counts as 1, the least the record holds (DEDUCED, log entry 14). -/
def FanRec.edge (ppr : Option Nat) (elapsed : Nat) (r : FanRec) : FanRec :=
  if r.timing then
    if elapsed ≤ 1000000 then
      let period := max 1 elapsed
      { r with
        period := period
        rpm :=
          match ppr with
          | some n => rpmOf period n
          | none => min 65535 (Config.rpmBeforeProfile period) }
    else { r with period := 1000000, rpm := 0 }
  else { r with timing := true }

/-- A fan record after 1,000,000 µs without an edge (R48). -/
def FanRec.timeout (r : FanRec) : FanRec :=
  if r.timing then { r with period := 1000000, rpm := 0, timing := false } else r

/-- A fan record becomes `r`, with its rpm on the live page (R48), which is written again where it has not changed (DESIGN
CHOICE, log entry 49). Before the load ends the exchange memory holds zeros and
the identity fields (R158), so the rpm is not written then (DESIGN CHOICE, log entry 7). -/
def State.setFanSpeed (f : Fin 2) (r : FanRec) (s : State) : State :=
  let s := s.mapAir fun a => { a with fans := a.fans.set f r }
  if s.store.active.isSome then s.mapX (Exchange.partWrite (0x09A + 8 * f.val) (le16 r.rpm)) else s

/-! ### The probe (R53 to R58) -/

/-- What stage 3 of a boundary did to the probe, as stage 4 needs it (R60). -/
inductive ProbeEvent where
  | nothing
  | completed
  | ended (schedule replacedDue : Bool)
deriving DecidableEq, Repr

/-- A scheduled probe is due (R60). -/
def Air.due (p : Image) (a : Air) : Bool :=
  Profile.probeInterval p != 0 && Profile.probeInterval p * 3600 ≤ a.elapsed && a.retry == 0

/-- The figures in a probe slip's payload (section 10.4). -/
def figuresPayload (fig : ProbeFigures) (c : Nat) : List Byte :=
  le16 fig.rf ++ le16 c ++ sle16 fig.averageRise ++ le16 fig.averageDraw

/-- The result of a probe slip that did not complete (R58). -/
def abortResult (reason : AbortReason) : SlipResult :=
  if reason = .stopped then SlipResult.only .stopped else { SlipResult.only .aborted with detail := reason.code }

/-- The probe ends without completing (R58). The stop request it acted on is spent (DEDUCED, log entry 21). R58 discards
the sums and the reference draw; that windows left becomes 0, and that the origin and the held parameters stay, is the
model's choice (DESIGN CHOICE, log entry 21). -/
def State.endProbe (reason : AbortReason) (s : State) : State × ProbeEvent :=
  let pr := s.air.probe
  let s := s.mapAir fun a =>
    { a with
      probe :=
        { pr with
          phase := .idle, lastAbort := reason, riseSum := 0, powerSum := 0, referenceDraw := none, windowsLeft := 0,
          stopPending := false } }
  match pr.origin with
  | some .probeAirflow => (s.report .air (abortResult reason), .ended false pr.replacedDue)
  | some .resetFilterReference => (s.report .air (abortResult reason), .ended false pr.replacedDue)
  | some .schedule => (s, .ended true pr.replacedDue)
  | none => (s, .ended true pr.replacedDue)

/-- The clog alarms of a completion that forms `c` (R59). -/
def State.clogAlarms (p : Image) (c : Nat) (s : State) : State :=
  if c < Profile.clogWarn p then s.mapAir fun a => { a with clogLimit := false }
  else if c < Profile.clogLimit p then (s.mapAir fun a => { a with clogLimit := false }).raise .clogWarn
  else ((s.mapAir fun a => { a with clogLimit := true }).raise .clogWarn).raise .clogLimit

/-- The clog index that a resistance figure gives against a reference (R57). -/
def clogOf (rf reference : Nat) : Nat := if reference = 0 then 0xFFFF else min 999 (rf * 100 / reference)

/-- The air controller hands an Rf to the profile store (R62, R181). -/
def State.handReference (now : SlotCount) (rf : Nat) (s : State) : State :=
  s.mapStore fun t =>
    if t.commit = .idle then { t with service := .writing, serviceRf := rf, writeBegan := some now }
    else { t with service := .waiting, serviceRf := rf }

/-- A probe completes (R57): the figures, the clog index and its alarms, and the report; or, for RESET FILTER
REFERENCE, the write of the new reference (R62). -/
def State.completeProbe (now : SlotCount) (p : Image) (measure : Nat) (s : State) : State × ProbeEvent :=
  let pr := s.air.probe
  let fig : ProbeFigures :=
    { rf := (pr.riseSum * 1000 / pr.powerSum).toNat, averageRise := pr.riseSum / measure,
      averageDraw := pr.powerSum / measure }
  if pr.origin = some .resetFilterReference then
    let s := s.mapAir fun a => { a with probe := { pr with phase := .writing, figures := fig } }
    (s.handReference now fig.rf, .completed)
  else
    let c := clogOf fig.rf s.air.filterReference
    let s := s.mapAir fun a => { a with clogIndex := c, probe := { pr with phase := .idle, figures := fig } }
    let s := if s.air.filterReference = 0 then s else s.clogAlarms p c
    if pr.origin = some .probeAirflow then
      (s.report .air { SlipResult.ok with payload := figuresPayload fig c }, .completed)
    else (s, .completed)

/-- The load test of R56: 75 % to 125 % of the reference draw. -/
def loadFails (average : Nat) (reference : Option Nat) : Bool :=
  match reference with
  | none => false
  | some r => 4 * average < 3 * r || 5 * r < 4 * average

/-- Some zone's grant for the window now ending was above 0 (R53, R56). -/
def State.heated (s : State) : Bool := (List.finRange 3).any fun z => 0 < s.climate.zones[z].grant

/-- Some fan's fault is set (R53, R56). -/
def State.fanFaulted (s : State) : Bool := s.air.fans[(0 : Fin 2)].fault || s.air.fans[(1 : Fin 2)].fault

/-- The first reason of R56 that holds at a boundary in SETTLE or MEASURE. -/
def State.probeAbort (curve : Option Nat) (held : HeldParams) (s : State) : Option AbortReason :=
  if s.air.probe.stopPending then some .stopped
  else if s.rail.state ≠ .running then some .rail
  else if (s.temp 0).isNone ∨ (s.temp 1).isNone then some .sensor
  else if s.fanFaulted then some .fan
  else if s.heated then some .heat
  else if held.probeDuty < curve.getD 0 then some .hot
  else if loadFails s.sense.railAverage s.air.probe.referenceDraw then some .load
  else none

/-- The start conditions of R53. -/
def State.probeMayStart (p : Image) (curve : Option Nat) (s : State) : Bool :=
  s.rail.state = .running && !s.heated && !s.fanFaulted && (s.temp 0).isSome && (s.temp 1).isSome &&
    curve.getD 0 ≤ Profile.probeDuty p

/-- The start of a probe (R53). -/
def State.startProbe (p : Image) (s : State) : State :=
  let bySlip := s.air.probe.phase = .waiting
  let due := s.air.due p
  s.mapAir fun a =>
    { a with
      probe :=
        { a.probe with
          phase := .settle
          origin := if bySlip then a.probe.origin else some .schedule
          heldParams := some
            { probeDuty := Profile.probeDuty p, settleTime := Profile.settleTime p,
              measureTime := Profile.measureTime p }
          windowsLeft := Profile.settleTime p, riseSum := 0, powerSum := 0, referenceDraw := none
          stopPending := false, replacedDue := bySlip && due } }

/-- The work of a boundary in SETTLE (R54). -/
def Probe.settleStep (average : Nat) (held : HeldParams) (pr : Probe) : Probe :=
  let pr := { pr with referenceDraw := some (pr.referenceDraw.getD average), windowsLeft := pr.windowsLeft - 1 }
  if pr.windowsLeft = 0 then { pr with phase := .measure, windowsLeft := held.measureTime } else pr

/-- The sums of a boundary in MEASURE (R55). -/
def Probe.measureStep (rise : Int) (average : Nat) (pr : Probe) : Probe :=
  { pr with riseSum := pr.riseSum + rise, powerSum := pr.powerSum + average, windowsLeft := pr.windowsLeft - 1 }

/-- Stage 3 of the boundary (R53 to R58). -/
def State.probeStage (now : SlotCount) (p : Image) (curve : Option Nat) (s : State) : State × ProbeEvent :=
  match s.air.probe.phase, s.air.probe.heldParams with
  | .writing, _ => (s, .nothing)
  | .idle, _ => if s.air.due p && s.probeMayStart p curve then (s.startProbe p, .nothing) else (s, .nothing)
  | .waiting, _ =>
    if s.air.probe.stopPending then s.endProbe .stopped
    else if s.rail.state ≠ .running then s.endProbe .rail
    else if s.probeMayStart p curve then (s.startProbe p, .nothing)
    else (s, .nothing)
  | .settle, some held =>
    match s.probeAbort curve held with
    | some reason => s.endProbe reason
    | none => (s.mapAir fun a => { a with probe := a.probe.settleStep s.sense.railAverage held }, .nothing)
  | .measure, some held =>
    match s.probeAbort curve held with
    | some reason => s.endProbe reason
    | none =>
      let rise := (s.temp 1).getD 0 - (s.temp 0).getD 0
      let s := s.mapAir fun a => { a with probe := a.probe.measureStep rise s.sense.railAverage }
      if s.air.probe.windowsLeft = 0 then
        if s.air.probe.powerSum < 100 * held.measureTime then s.endProbe .lowLoad
        else if s.air.probe.riseSum ≤ 0 then s.endProbe .noRise
        else s.completeProbe now p held.measureTime
      else (s, .nothing)
  | .settle, none => (s, .nothing)
  | .measure, none => (s, .nothing)

/-- Stage 4 of the boundary (R60). -/
def Air.schedule (ev : ProbeEvent) (a : Air) : Air :=
  match ev with
  | .nothing => { a with elapsed := min 2592000 (a.elapsed + 1), retry := a.retry - 1 }
  | .completed => { a with elapsed := 0, retry := 0, probe := { a.probe with replacedDue := false } }
  | .ended sched replaced =>
    { a with
      elapsed := min 2592000 (a.elapsed + 1), retry := if sched || replaced then 3600 else a.retry - 1,
      probe := { a.probe with replacedDue := false } }

/-- The held probe duty while a probe holds the fans for the coming window (R44). -/
def Probe.holds (pr : Probe) : Option Nat :=
  match pr.phase with
  | .settle => pr.heldParams.map HeldParams.probeDuty
  | .measure => pr.heldParams.map HeldParams.probeDuty
  | .idle => none
  | .waiting => none
  | .writing => none

/-- Fan `f`'s effective duty and fault on the live page (R45, stage 7), in one part write. R45 does not say into how many
part writes the results of stage 7 fall (DESIGN CHOICE, log entry 46). -/
def State.publishFan (s : State) (f : Fin 2) : State :=
  s.mapX (Exchange.partWrite (0x098 + 8 * f.val)
    [BitVec.ofNat 8 s.air.fans[f].duty, flagByte s.air.fans[f].fault])

/-- The clog index, the probe phase and the last abort reason on the live page (R45, stage 7), in one part write (DESIGN
CHOICE, log entry 46). -/
def State.publishProbe (s : State) : State :=
  s.mapX (Exchange.partWrite 0x0A8
    (le16 s.air.clogIndex ++ [s.air.probe.phase.code, s.air.probe.lastAbort.code]))

/-- The air controller's work at a boundary (R45). -/
def State.airBoundary (now : SlotCount) (p : Image) (s : State) : State :=
  let curve := s.controlTemp.map (curveValue p)
  let s := (List.finRange 2).foldl (State.judgeFan p) s
  let (s, ev) := s.probeStage now p curve
  let s := s.mapAir (Air.schedule ev)
  let s := s.mapAir fun a =>
    { a with fans := tab 2 fun f => a.fans[f].drive p f (effectiveDuty p a curve a.probe.holds f) }
  ((List.finRange 2).foldl State.publishFan s).publishProbe

/-! ### The air controller's slips (R51, R61, R62) -/

/-- SET FAN FLOOR (R51). -/
def State.fanFloorSlip (fan floor : Nat) (s : State) : State × SlipResult :=
  if h : fan < 2 then
    let f : Option Nat := if floor = 0 then none else some (min 100 floor)
    (s.mapAir fun a => { a with fans := a.fans.set fan { a.fans[fan] with floor := f } },
      { SlipResult.ok with detail := clampedDetail (100 < floor) })
  else (s, SlipResult.only .badParam)

/-- PROBE AIRFLOW and RESET FILTER REFERENCE handed over (R61, R62): BUSY while a probe is in flight. -/
def State.probeSlip (origin : ProbeOrigin) (s : State) : State × LastingAnswer :=
  if s.air.probe.phase = .idle then
    (s.mapAir fun a => { a with probe := { a.probe with phase := .waiting, origin := some origin } }, .accepted)
  else (s, .atOnce (SlipResult.only .busy))

/-- The store reports that the write of the reference has ended (R62). -/
def State.referenceWritten (rf : Nat) (s : State) : State :=
  let c := if rf = 0 then 0xFFFF else 100
  let fig := s.air.probe.figures
  let s := s.mapAir fun a =>
    { a with filterReference := rf, clogIndex := c, clogLimit := false, probe := { a.probe with phase := .idle } }
  s.report .air { SlipResult.ok with payload := figuresPayload fig c }

end Sys2Proof.Machine
end

