-- ==== Sys2Proof/Machine/Keypad.lean ====
section
/-!
DEFINITION. The keypad controller (chapter 6): fog, the scan schedule, touch detection and calibration, the key queue,
holds and chords, the REBASELINE KEYS slip, and what a new profile changes.
-/

namespace Sys2Proof.Machine

/-! ### Fog (R135, R136) -/

/-- The fog state after a judgement (R135). -/
def fogNext (p : Image) (inlet glass : Option Int) (fog : Bool) : Bool :=
  match inlet, glass with
  | some i, some g =>
    if (Profile.fogMargin p : Int) ≤ i - g then true
    else if (Profile.fogMargin p : Int) - 10 ≤ i - g then fog
    else false
  | _, _ => true

/-- The fog state on the live page (R147), written at a judgement also where it has not changed (DESIGN CHOICE, log entry
49). -/
def State.publishFog (s : State) : State := s.mapX (Exchange.partWrite 0x0B2 [flagByte s.keypad.fog])

/-- A judgement of fog with its notice to the climate controller (R135, R23). -/
def State.judgeFog (p : Image) (s : State) : State :=
  let was := s.keypad.fog
  let fog := fogNext p (s.temp 0) (s.temp 4) was
  let s := (s.mapKeypad fun k => { k with fog := fog }).publishFog
  let s := if fog && !was then s.raise .fog else s
  if fog then s.fogNotice p else s

/-- The effective touch threshold (R136). -/
def touchThreshold (p : Image) (fog : Bool) : Int :=
  ((Profile.touchThreshold p + if fog then Profile.fogAdd p else 0 : Nat) : Int)

/-! ### The key queue (R141 to R143) -/

/-- The number of entries held (R141). -/
def Keypad.count (k : Keypad) : Nat := (k.writeCounter - k.readCounter).toNat

/-- An entry is written (R141). The entry and the write counter are a part write each: R141 says that they are written in one
event, and not whether they are one part write (DESIGN CHOICE, log entry 46). -/
def State.writeEntry (now : SlotCount) (kind : EntryKind) (subject : Byte) (s : State) : State :=
  let q := s.keypad.writeCounter
  let s := s.mapX (Exchange.partWrite (0x500 + 8 * (q.toNat % 32))
    (le16 q.toNat ++ [kind.code, subject] ++ le32 now.toNat))
  let s := s.mapKeypad fun k => { k with writeCounter := q + 1 }
  (s.mapX (Exchange.partWrite 0x14 (le16 (q + 1).toNat))).raise .key

/-- A GAP entry carrying the gap count is written, and the gap count becomes 0 (R142, R143). Its slot count is that of the
event that found room (DEDUCED, log entry 26). -/
def State.writeGap (now : SlotCount) (s : State) : State :=
  (s.writeEntry now .gap (BitVec.ofNat 8 s.keypad.gap)).setGap 0

/-- The key queue takes entries in RUNNING and STOPPING alone (R142). -/
def RailState.takesKeys : RailState → Bool
  | .running => true | .stopping => true
  | .off => false | .warming => false | .starting => false | .resetting => false
  | .cooldown => false | .lockout => false

/-- An event is offered to the key queue (R142). -/
def State.offer (now : SlotCount) (kind : EntryKind) (subject : Byte) (s : State) : State :=
  if s.rail.state.takesKeys then
    if 32 ≤ s.keypad.count then s.setGap (min 255 (s.keypad.gap + 1))
    else if 0 < s.keypad.gap then
      if s.keypad.count = 31 then (s.writeGap now).setGap 1
      else (s.writeGap now).writeEntry now kind subject
    else s.writeEntry now kind subject
  else s

/-- The delivery of the key read counter (R143). -/
def State.deliverReadCounter (now : SlotCount) (s : State) : State :=
  let v : Half := BitVec.ofNat 16 (s.xmem.peek16 0x16)
  let r := s.keypad.readCounter
  let w := s.keypad.writeCounter
  let s :=
    if (v - r).toNat ≤ (w - r).toNat then s.mapKeypad fun k => { k with readCounter := v }
    else s.setReadCounter w
  if 0 < s.keypad.gap ∧ s.keypad.count < 32 ∧ s.rail.state.takesKeys then s.writeGap now else s

/-! ### Events of a scan -/

/-- An event with the notice to the rail controller that goes with it: a press or a release of the power key (R140). -/
structure KeyEvent where
  kind : EntryKind
  subject : Byte
  power : Option Bool
deriving DecidableEq, Repr

/-- The notice of a press (true) or a release (false) of key `k`, if it is the power key (R133, R140). -/
def powerNotice (p : Image) (k : Fin 24) (press : Bool) : Option Bool :=
  if Profile.powerKey p = some k then some press else none

/-- An event is offered to the queue, then its notice is given (R128 stage 4, R140). -/
def State.give (now : SlotCount) (p : Image) (s : State) (e : KeyEvent) : State :=
  let s := s.offer now e.kind e.subject
  match e.power with
  | none => s
  | some true => s.powerKeyPress now p
  | some false => s.powerKeyRelease

/-- A key's number as a subject. -/
def keySubject (k : Fin 24) : Byte := BitVec.ofNat 8 k.val

/-! ### Touches (R130 to R134, R138) -/

/-- A key record becomes `r`. -/
def Keypad.setKey (k : Fin 24) (r : KeyRec) (kp : Keypad) : Keypad := { kp with keys := kp.keys.set k r }

/-- What a touch end does to the times of a key record (R133). -/
def KeyRec.endTouch (r : KeyRec) : KeyRec := { r with touchTime := none, nextHold := none }

/-- Every chord of which key `k` is a member becomes ARMED with chord end none (R133). -/
def Keypad.rearm (p : Image) (k : Fin 24) (kp : Keypad) : Keypad :=
  { kp with
    chords := tab 4 fun c =>
      if (Profile.chordMembers p c).contains k then { fired := false, holdEnd := none } else kp.chords[c] }

/-- The chords that a PRESS of key `k` at `now` completes are timed from it (R138). -/
def Keypad.timeChords (now : SlotCount) (p : Image) (k : Fin 24) (kp : Keypad) : Keypad :=
  { kp with
    chords := tab 4 fun c =>
      if (Profile.chordMembers p c).contains k && Profile.chordDefined p c && !kp.chords[c].fired &&
          (Profile.chordMembers p c).all (fun m => kp.keys[m].state.isTouched) then
        { kp.chords[c] with holdEnd := some (after now (Profile.chordHold p)) }
      else kp.chords[c] }

/-- A key in IDLE at an accepted scan end (R130). A drift count that a new profile's shorter period finds at or beyond
its end has reached it (DEDUCED, log entry 15). -/
def KeyRec.idleScan (p : Image) (tt delta : Int) (r : KeyRec) : KeyRec :=
  if tt ≤ delta then { r with state := .pressing1, drift := 0 }
  else if delta ≤ -(Profile.releaseThreshold p : Int) then { r with baseline := r.raw, drift := 0 }
  else if delta.natAbs < Profile.noiseBand p then
    if Profile.driftPeriod p ≤ r.drift + 1 then
      { r with
        drift := 0
        baseline := if r.baseline < r.raw then r.baseline + 1 else if r.raw < r.baseline then r.baseline - 1
          else r.baseline }
    else { r with drift := r.drift + 1 }
  else { r with drift := 0 }

/-- A touched key's state after R132; IDLE stands for the release. -/
def touchedNext (p : Image) (delta : Int) (st : KeyState) : KeyState :=
  if (Profile.releaseThreshold p : Int) ≤ delta then .touched
  else
    match st with
    | .touched => .releasing1
    | .releasing1 => .releasing2
    | _ => .idle

/-- The stuck limit is reached (R134). -/
def stuck (now : SlotCount) (p : Image) (r : KeyRec) : Bool :=
  match r.touchTime with
  | some t => seconds (Profile.stuckLimit p) ≤ (now - t).toNat
  | none => false

/-- A touched key at an accepted scan end (R132 to R134), with the event it gives. -/
def Keypad.touchedScan (now : SlotCount) (p : Image) (k : Fin 24) (delta : Int) (kp : Keypad) :
    Keypad × List KeyEvent :=
  let r := kp.keys[k]
  let released (kind : EntryKind) (r : KeyRec) : Keypad × List KeyEvent :=
    ((kp.setKey k r.endTouch).rearm p k,
      [{ kind := kind, subject := keySubject k, power := powerNotice p k false }])
  match touchedNext p delta r.state with
  | .idle => released .release { r with state := .idle, drift := 0 }
  | st =>
    if stuck now p r then released .releaseForced { r with state := .idle, drift := 0, baseline := r.raw }
    else (kp.setKey k { r with state := st }, [])

/-- The PRESS of key `k` (R131). -/
def Keypad.pressKey (now : SlotCount) (p : Image) (k : Fin 24) (kp : Keypad) : Keypad × List KeyEvent :=
  let r := { kp.keys[k] with
    state := .touched
    touchTime := some now
    nextHold := if Profile.repeating p k then some (after now (Profile.holdDelay p)) else none }
  ((kp.setKey k r).timeChords now p k,
    [{ kind := .press, subject := keySubject k, power := powerNotice p k true }])

/-- A key in CALIBRATING takes an accepted scan (R144). -/
def KeyRec.calibrate (r : KeyRec) : KeyRec :=
  if r.calCount + 1 = 8 then
    { r with baseline := (r.calSum + r.raw) / 8, drift := 0, calSum := 0, calCount := 0, state := .idle }
  else { r with calSum := r.calSum + r.raw, calCount := r.calCount + 1 }

/-- Key `k` is in the rebaseline set. -/
def Keypad.inSet (k : Fin 24) (kp : Keypad) : Bool :=
  match kp.rebaseline with
  | some m => m.getLsbD k.val
  | none => false

/-- Key `k`'s delta (R128). -/
def Keypad.delta (k : Fin 24) (kp : Keypad) : Int := (kp.keys[k].raw : Int) - (kp.keys[k].baseline : Int)

/-- Stage 3 of an accepted scan end for one enabled key (R128). -/
def Keypad.scanKey (now : SlotCount) (p : Image) (tt : Int) (kp : Keypad) (k : Fin 24) : Keypad × List KeyEvent :=
  let r := kp.keys[k]
  let delta := kp.delta k
  match r.state with
  | .calibrating => if kp.stopPending && kp.inSet k then (kp, []) else (kp.setKey k r.calibrate, [])
  | .idle => (kp.setKey k (r.idleScan p tt delta), [])
  | .pressing1 => (kp.setKey k { r with state := if tt ≤ delta then .pressing2 else .idle }, [])
  | .pressing2 => if tt ≤ delta then kp.pressKey now p k else (kp.setKey k { r with state := .idle }, [])
  | .touched => kp.touchedScan now p k delta
  | .releasing1 => kp.touchedScan now p k delta
  | .releasing2 => kp.touchedScan now p k delta

/-- Stage 3 of an accepted scan end: the enabled keys in ascending number, with the events in the order in which they
arise (R128). -/
def Keypad.scanKeys (now : SlotCount) (p : Image) (tt : Int) (kp : Keypad) : Keypad × List KeyEvent :=
  (List.finRange 24).foldl
    (fun acc k =>
      if Profile.keyEnabled p k then
        let (kp, es) := acc.1.scanKey now p tt k
        (kp, acc.2 ++ es)
      else acc)
    (kp, [])

/-- Stage 1 of a scan end (R128). -/
def Keypad.takeRaw (p : Image) (counts : Vector (BitVec 12) 24) (kp : Keypad) : Keypad :=
  { kp with
    keys := tab 24 fun k =>
      if Profile.keyEnabled p k then { kp.keys[k] with raw := counts[k].toNat } else kp.keys[k] }

/-- The number of keys that count toward water film (R129). -/
def Keypad.filmCount (p : Image) (tt : Int) (kp : Keypad) : Nat :=
  ((List.finRange 24).filter fun k =>
    Profile.keyEnabled p k && kp.keys[k].state != .calibrating && tt ≤ kp.delta k).length

/-- A rejected scan: PRESSING keys return to IDLE (R129). -/
def Keypad.rejectScan (kp : Keypad) : Keypad :=
  { kp with
    keys := tab 24 fun k =>
      match kp.keys[k].state with
      | .pressing1 => { kp.keys[k] with state := .idle }
      | .pressing2 => { kp.keys[k] with state := .idle }
      | _ => kp.keys[k] }

/-! ### Rebaseline (R144 to R146) -/

/-- The keys of `m` that are in CALIBRATING. -/
def Keypad.calibrating (kp : Keypad) (m : BitVec 24) : BitVec 24 :=
  (List.finRange 24).foldl
    (fun acc k => if m.getLsbD k.val && kp.keys[k].state == .calibrating then acc ||| (1#24 <<< k.val) else acc) 0

/-- A key mask as a payload (section 10.4). -/
def maskPayload (m : BitVec 24) : List Byte :=
  [BitVec.ofNat 8 m.toNat, BitVec.ofNat 8 (m.toNat / 256), BitVec.ofNat 8 (m.toNat / 65536)]

/-- The rebaseline in flight ends with a result and the mask of the keys given new baselines (R145, R146). Its stop pending
is cleared with it: R146 says so of a stop that is acted on, and where the rebaseline ends with OK while a stop is pending,
as at an activation, R145 does not say (DESIGN CHOICE, log entry 43). -/
def State.endRebaseline (code : ResultCode) (mask : BitVec 24) (s : State) : State :=
  (s.mapKeypad fun k => { k with rebaseline := none, stopPending := false }).report .keypad
    { SlipResult.only code with payload := maskPayload mask }

/-- The rebaseline completes once no key of its set is in CALIBRATING (R145). -/
def State.finishRebaseline (s : State) : State :=
  match s.keypad.rebaseline with
  | some m => if s.keypad.calibrating m = 0 then s.endRebaseline .ok m else s
  | none => s

/-- A stop pending on a rebaseline is acted on (R146). -/
def State.stopRebaseline (s : State) : State :=
  match s.keypad.rebaseline with
  | some m =>
    if s.keypad.stopPending then
      let still := s.keypad.calibrating m
      let s := s.mapKeypad fun kp =>
        { kp with
          keys := tab 24 fun k =>
            if still.getLsbD k.val then { kp.keys[k] with state := .idle, calSum := 0, calCount := 0 }
            else kp.keys[k] }
      s.endRebaseline .stopped (m &&& ~~~still)
    else s
  | none => s

/-- A key enters CALIBRATING (R144), with the event of a touch it ends. -/
def Keypad.enterCalibration (p : Image) (k : Fin 24) (kp : Keypad) : Keypad × List KeyEvent :=
  let r := kp.keys[k]
  let fresh := { r with state := .calibrating, calSum := 0, calCount := 0 }
  if r.state.isTouched then
    ((kp.setKey k fresh.endTouch).rearm p k,
      [{ kind := .releaseForced, subject := keySubject k, power := powerNotice p k false }])
  else (kp.setKey k fresh, [])

/-- REBASELINE KEYS handed over (R145). The keys named enter CALIBRATING in ascending key number, and so give the
RELEASE_FORCED events of their touches: R144 and R145 do not order them (DESIGN CHOICE, log entry 40). -/
def State.rebaselineSlip (now : SlotCount) (p : Image) (mask : BitVec 24) (s : State) : State × LastingAnswer :=
  let named := (List.finRange 24).filter fun k => mask.getLsbD k.val && Profile.keyEnabled p k
  if s.keypad.rebaseline.isSome then (s, .atOnce (SlipResult.only .busy))
  else if mask = 0 then (s, .atOnce (SlipResult.only .badParam))
  else if named = [] then (s, .atOnce { SlipResult.ok with payload := maskPayload 0 })
  else
    let set := named.foldl (fun (m : BitVec 24) k => m ||| (1#24 <<< k.val)) 0
    let (kp, es) := named.foldl
      (fun (acc : Keypad × List KeyEvent) k =>
        let (kp, es) := acc.1.enterCalibration p k
        (kp, acc.2 ++ es))
      (s.keypad, [])
    let s := s.mapKeypad fun _ => { kp with rebaseline := some set, stopPending := false }
    (es.foldl (State.give now p) s, .accepted)

/-! ### Scans (R127, R128) -/

/-- The decision about a scan in slot `n` of the window (R127). -/
def State.decideScan (now : SlotCount) (p : Image) (n : Nat) (s : State) : State :=
  if !(List.finRange 24).any (Profile.keyEnabled p) then s.mapKeypad fun k => { k with deferred := false }
  else
    match s.keypad.edgeSet with
    | none => s
    | some edges =>
      if n % Profile.scanPeriod p = 0 ∨ s.keypad.deferred then
        if edges.contains n then s.mapKeypad fun k => { k with deferred := true }
        else s.mapKeypad fun k => { k with deferred := false, scan := some now }
      else s

/-- The climate controller's publication of the edge set (R34, R127). -/
def State.takeEdges (edges : List Nat) (s : State) : State := s.mapKeypad fun k => { k with edgeSet := some edges }

/-- The detail entry of key `k` (section 10.7). -/
def detailBytes (r : KeyRec) (delta : Int) : List Byte := le16 r.baseline ++ le16 r.raw ++ sle16 delta ++ [r.state.code]

/-- Stage 6 of a scan end: the key detail page, with the deltas of this scan (R128, R147; DEDUCED, log entry 24). The entries
of all enabled keys are one part write: R128, R147 and R153 do not say how many there are (DESIGN CHOICE, log entry 46). -/
def State.publishDetail (p : Image) (deltas : Vector Int 24) (s : State) : State :=
  let enabled := (List.finRange 24).filter fun k => Profile.keyEnabled p k
  s.mapX (Exchange.partWriteCells
    (enabled.flatMap fun k => cellsAt (0x700 + 8 * k.val) (detailBytes s.keypad.keys[k] deltas[k])))

/-- The keypad controller's work at the end of the scan that began at `now` (R128). -/
def State.scanWork (now : SlotCount) (p : Image) (counts : Vector (BitVec 12) 24) (s : State) : State :=
  let s := s.mapKeypad fun k => { k.takeRaw p counts with scan := none }
  let tt := touchThreshold p s.keypad.fog
  let deltas := tab 24 fun k => s.keypad.delta k
  let (kp, es) :=
    if Profile.maxSimultaneous p < s.keypad.filmCount p tt then (s.keypad.rejectScan, [])
    else s.keypad.scanKeys now p tt
  let s := s.mapKeypad fun _ => kp
  let s := es.foldl (State.give now p) s
  (s.finishRebaseline.stopRebaseline).publishDetail p deltas

/-! ### Holds and chords (R137 to R139) -/

/-- A HOLD event of key `k` at the slot count `now` (R137). -/
def State.giveHold (now : SlotCount) (p : Image) (k : Fin 24) (s : State) : State :=
  let s := s.mapKeypad fun kp =>
    kp.setKey k { kp.keys[k] with nextHold := some (after now (Profile.repeatPeriod p)) }
  s.offer now .hold (keySubject k)

/-- A CHORD event of chord `c` at the slot count `now` (R138); chord 0 sends the service chord notice first (R139). -/
def State.giveChord (now : SlotCount) (p : Image) (c : Fin 4) (s : State) : State :=
  let s := s.mapKeypad fun kp => { kp with chords := kp.chords.set c { fired := true, holdEnd := none } }
  let s := if c = 0 then s.serviceChord now p else s
  s.offer now .chord (BitVec.ofNat 8 c.val)

/-! ### A new profile (R149) -/

/-- What a new profile changes for one key (R149), with the notice of a touch end (true = a release is sent). A key that
becomes disabled leaves its calibration, and its calibration sum and count become 0, which R146 says of a stop alone
(DESIGN CHOICE, log entry 42). -/
def Keypad.adoptKey (old new : Image) (kp : Keypad) (k : Fin 24) : Keypad × Bool :=
  let r := kp.keys[k]
  let r := if Profile.repeating new k then r else { r with nextHold := none }
  if Profile.keyEnabled old k && !Profile.keyEnabled new k then
    let idle := { r with state := .idle, calSum := 0, calCount := 0 }
    let kp := { kp with rebaseline := kp.rebaseline.map fun m => m &&& ~~~(1#24 <<< k.val) }
    if r.state.isTouched then
      ((kp.setKey k idle.endTouch).rearm new k, Profile.powerKey new = some k || Profile.powerKey old = some k)
    else (kp.setKey k idle, false)
  else if !Profile.keyEnabled old k && Profile.keyEnabled new k then
    (kp.setKey k { r with state := .calibrating, calSum := 0, calCount := 0 }, false)
  else
    (kp.setKey k r,
      r.state.isTouched && Profile.powerKey old = some k && Profile.powerKey new != some k)

/-- The profile changes the members or the hold of some chord (R149, R185). The stored places are compared in their order,
so a profile that lists the same keys of a chord in another order changes its members: no rule says whether it does (DESIGN
CHOICE, log entry 38). -/
def chordsChanged (old new : Image) : Bool :=
  Profile.chordHold old != Profile.chordHold new ||
    (List.finRange 4).any fun c => Profile.chordPlaces old c != Profile.chordPlaces new c

/-- A key that becomes disabled has its detail entry written once with state IDLE (R147): the state byte alone (DEDUCED, log
entry 25). -/
def State.publishDisabled (old new : Image) (s : State) (k : Fin 24) : State :=
  if Profile.keyEnabled old k && !Profile.keyEnabled new k then
    s.mapX (Exchange.partWrite (0x706 + 8 * k.val) [KeyState.idle.code])
  else s

/-- The keypad controller takes up a new profile at a boundary (R149). -/
def State.adoptKeypad (old new : Image) (s : State) : State :=
  let (kp, released) := (List.finRange 24).foldl
    (fun (acc : Keypad × Bool) k =>
      let (kp, b) := acc.1.adoptKey old new k
      (kp, acc.2 || b))
    (s.keypad, false)
  let kp :=
    if chordsChanged old new then { kp with chords := Vector.replicate 4 { fired := false, holdEnd := none } } else kp
  let s := s.mapKeypad fun _ => kp
  let s := (List.finRange 24).foldl (State.publishDisabled old new) s
  let s := if released then s.powerKeyRelease else s
  s.finishRebaseline

/-- The keypad controller begins its work when a profile first becomes active (R126, R147). -/
def State.beginKeypad (p : Image) (s : State) : State :=
  let s := s.mapKeypad fun kp =>
    { kp with
      keys := tab 24 fun k =>
        if Profile.keyEnabled p k then kp.keys[k] else { kp.keys[k] with state := .idle } }
  s.publishFog

end Sys2Proof.Machine
end

