-- ==== Sys2Proof/Machine/Store.lean ====
section
/-!
DEFINITION. The profile store (chapter 9): power-on contents, the load, READ PROFILE, COMMIT PROFILE, programming,
activation at a boundary and the service record, with the meanings of the store's own events.
-/

namespace Sys2Proof.Machine

/-! ### Power (R15, R159, R175) -/

/-- The stored image when the supply fails: torn if programming was under way (R175, R176). -/
def Store.imageAfterLoss (fresh : Nat) (t : Store) : Image :=
  if t.commit = .programming ∧ t.service ≠ .writing then List.ofFn fun i : Fin 1024 => Config.tornImageByte fresh i.val
  else t.storedImage

/-- A service record whose write was cut off: 30 free bytes, and a CRC that fails (R181). The CRC differs from the right one
by a free amount between 1 and 65,535 (log entry 6). -/
def tornRecord (fresh : Nat) : Image :=
  let body := List.ofFn fun i : Fin 30 => Config.tornServiceByte fresh i.val
  body ++ le16 ((crc16 body + 1 + Config.tornServiceCrc fresh % 65535) % 65536)

/-- The service record when the supply fails: torn if its write was under way (R175, R181). -/
def Store.recordAfterLoss (fresh : Nat) (t : Store) : Image :=
  if t.service = .writing then tornRecord fresh else t.serviceRecord

/-- The part after power-on, with `low` while the supply is below the brown-out level: everything but the nonvolatile
areas returns to its starting value (R1, R15, R17, R42, R52, R66, R100, R125, R126, R150, R159, R166, R175). -/
def State.powerUp (low : Bool) (s : State) : State :=
  { State.reset with
    store := Store.initial (s.store.imageAfterLoss s.fresh) (s.store.recordAfterLoss s.fresh)
    supplyLow := low
    fresh := s.fresh + 1
    pending := s.pending }

/-- POWER_ON (R15, R159). The supply is back above the brown-out level (DESIGN CHOICE, log entry 27). -/
def execPowerOn (s : State) : Host.Outcome State Fault Refusal := .next (s.powerUp false)

/-- BROWN_OUT (R159): the effect of power-on, with every line held released and a frame in progress lost. Frames and tach edges
that come while the supply is low are taken as before the load (DESIGN CHOICE, log entry 27). -/
def execBrownOut (s : State) : Host.Outcome State Fault Refusal := .next (s.powerUp true)

/-! ### The load (R176) -/

/-- The air controller takes the reference that the load hands over (R52, R181). -/
def State.loadReference (rref : Nat) (s : State) : State :=
  s.mapAir fun a => { a with filterReference := rref, clogIndex := if rref = 0 then 0xFFFF else 100 }

/-- The monitor takes the first active profile (R100). -/
def State.beginMonitor (p : Image) (s : State) : State :=
  s.mapMon fun m =>
    { m with armed := Profile.watchdogArmed p, runtimeSet := Profile.stages p, inForce := Profile.stages p }

/-- The rail controller takes the first active profile (R70, R71). The judgement at the load falls on no slot start. -/
def State.beginRail (p : Image) (s : State) : State :=
  if Profile.autostart p then
    (s.enterWarming s.time.slotCount p).mapRail fun r => { r with judgedAt := none }
  else s

/-- The event that ends the power-on load (R176). Before it a block that waits for the profile does nothing (DEDUCED, log
entry 28), and a profile from ROM alone counts as the factory profile (DEDUCED, log entry 22). -/
def State.loadProfile (s : State) : State :=
  let good := validImage s.store.storedImage
  let p := if good then s.store.storedImage else factoryImage
  let s := s.mapStore fun t => { t with active := some p, factoryActive := !good }
  let s := { s with supplyLow := false }
  let s := s.mapX (Exchange.partWrite 0x04 [headerFlags true (!good)])
  let s := if good then s else s.raise .profileDefaulted
  let s := s.loadReference (serviceReference s.store.serviceRecord)
  let s := (s.beginMonitor p).beginKeypad p
  let s := s.mapX fun x => { x with ready := true }
  s.beginRail p

/-- PROFILE_LOAD (R176): the load ends once after each power-on. -/
def execProfileLoad (s : State) : Host.Outcome State Fault Refusal :=
  .next (if s.store.active.isSome then s else s.loadProfile)

/-! ### READ PROFILE and COMMIT PROFILE (R178, R179) -/

/-- READ PROFILE (R178). -/
def State.readProfileSlip (p : Image) (s : State) : State × SlipResult :=
  if s.store.commit = .idle then
    (s.mapX (Exchange.partWrite 0x800 p),
      { SlipResult.ok with payload := le16 (u16 p 1022) ++ [flagByte s.store.factoryActive] })
  else (s, SlipResult.only .busy)

/-- The image in the staging area. -/
def Exchange.staged (x : Exchange) : Image := (List.range 1024).map fun i => x.peek (0x800 + i)

/-- COMMIT PROFILE handed over (R179). -/
def State.commitSlip (now : SlotCount) (s : State) : State × LastingAnswer :=
  if s.store.commit ≠ .idle then (s, .atOnce (SlipResult.only .busy))
  else
    match imageFailure s.xmem.staged with
    | some (k, check) =>
      (s, .atOnce { SlipResult.only .invalid with payload := le16 k ++ [BitVec.ofNat 8 check] })
    | none =>
      (s.mapStore fun t =>
        { t with
          commit := .programming, stagingHeld := true
          programmingBegan := if t.service = .writing then none else some (s.countsFrom now) },
        .accepted)

/-- PROGRAMMING_END (R179): programming that has begun ends at one of the first 44 slot starts after its beginning, and the
commit becomes ARMED; no effect at any other time (log entry 10). -/
def execProgrammingEnd (s : State) : Host.Outcome State Fault Refusal :=
  .next
    (match s.programmingDue with
     | some _ =>
       s.mapStore fun t => { t with storedImage := s.xmem.staged, commit := .armed, programmingBegan := none }
     | none => s)

/-! ### Activation (R180) -/

/-- The monitor takes up a new profile (R123). -/
def State.adoptMonitor (p : Image) (s : State) : State :=
  if Profile.ladderLength p < s.mon.ladderIndex then s.setLadderIndex (Profile.ladderLength p) else s

/-- The programmed image becomes the active profile at a boundary, and every block takes it up (R180, R99, R123, R149);
the air and climate controllers do so in their work at the same boundary (R39, R65). A rebaseline whose set the new profile
empties completes (R145) before the commit completes: no rule orders the two (DESIGN CHOICE, log entry 39). -/
def State.activate (now : SlotCount) (old : Image) (s : State) : State :=
  let p := s.store.storedImage
  let s := s.mapStore fun t =>
    { t with active := some p, factoryActive := false, commit := .idle, stagingHeld := false }
  let s := s.mapX (Exchange.partWrite 0x04 [headerFlags true false])
  let s := ((s.adoptMonitor p).publishInputs p).adoptKeypad old p
  let s := s.report .store { SlipResult.ok with payload := le16 (u16 p 1022) }
  s.mapStore fun t =>
    if t.service = .waiting then { t with service := .writing, writeBegan := some now } else t

/-- The end of a service record write (R181): the record holds the reference, a commit that waited for the write begins
programming (R179), and the air controller takes the report (R62). -/
def State.endServiceWrite (now : SlotCount) (s : State) : State :=
  let rf := s.store.serviceRf
  let s := s.mapStore fun t =>
    { t with
      serviceRecord := serviceBytes rf, service := .idle, writeBegan := none
      programmingBegan := if t.commit = .programming then some now else t.programmingBegan }
  s.referenceWritten rf

end Sys2Proof.Machine
end

