-- ==== Sys2Proof/Machine/Slips.lean ====
section
/-!
DEFINITION. The take of a slip (R167, R168): the kinds, each handed to its owner block, the rail controller's and the
liveness monitor's slips, the arbiter, and stop requests (R173).
-/

namespace Sys2Proof.Machine

/-! ### Slips of the rail controller (R96, R97) and of the monitor (R120) -/

/-- REQUEST STOP (R96). -/
def State.stopSlip (now : SlotCount) (p : Image) (delay : Nat) (s : State) : State × SlipResult :=
  if s.rail.state = .running then
    (s.enterStopping now p (min 86400 delay), { SlipResult.ok with detail := clampedDetail (86400 < delay) })
  else (s, SlipResult.only .notNow)

/-- What REQUEST RESTART answers (R97): the mode is judged first. -/
def restartResult (r : RailState) (mode : Nat) : SlipResult :=
  if mode ≠ 1 ∧ mode ≠ 2 then SlipResult.only .badParam
  else if r = .running then SlipResult.ok
  else SlipResult.only .notNow

/-- What REQUEST RESTART does once its slip has completed (R97, R94). -/
def State.restartHost (now : SlotCount) (p : Image) (mode : Nat) (s : State) : State :=
  if s.rail.state = .running then
    if mode = 1 then (s.addRecord now .hostRequest .warm s.mon.ladderIndex .running).enterResetting now p
    else if mode = 2 then s.cutWithNotice now p .hostRequest true
    else s
  else s

/-- The stage values of SET WATCHDOG after clamping (R120). -/
def clampStages (v : StageSet) : StageSet :=
  let s1 := max 1 (min 3600 v.s1)
  { s1 := s1, s2 := max 1 (min 600 v.s2), early := min (s1 - 1) v.early }

/-- SET WATCHDOG (R120). -/
def State.watchdogSlip (now : SlotCount) (p : Image) (mode : Nat) (v : StageSet) (s : State) : State × SlipResult :=
  if mode ≠ 1 ∧ mode ≠ 2 then (s, SlipResult.only .badParam)
  else if mode = 2 ∧ !Profile.disarmPermitted p then (s, SlipResult.only .locked)
  else
    ((s.mapMon fun m => { m with runtimeSet := clampStages v }).setArmed now p (mode = 1),
      { SlipResult.ok with detail := clampedDetail (clampStages v != v) })

/-! ### Taking a slip (R168, R169) -/

/-- An immediate slip completes in the event in which it is taken (R168). -/
def State.immediate (n : Fin 16) (a : State × SlipResult) : State := a.1.mapX (Exchange.complete n.val a.2)

/-- A lasting slip is accepted, or completes in the take event (R169). -/
def State.lasting (b : LastingBlock) (n : Fin 16) (a : State × LastingAnswer) : State :=
  match a.2 with
  | .accepted => a.1.accept b n
  | .atOnce r => a.1.mapX (Exchange.complete n.val r)

/-- The work of a taken slip, by its kind (R168, section 10.4). -/
def State.runSlip (now : SlotCount) (p : Image) (n : Fin 16) (s : State) : State :=
  let x := s.xmem
  match (x.peek (slotAddr n.val + 1)).toNat with
  | 1 => State.immediate n (s.zoneTargetSlip (x.param n 0) (x.param n 1) (signed16 (x.param16 n 2)))
  | 2 => State.immediate n (s.fanFloorSlip (x.param n 0) (x.param n 1))
  | 3 => State.lasting .air n (s.probeSlip .probeAirflow)
  | 4 => State.lasting .air n (s.probeSlip .resetFilterReference)
  | 5 => State.immediate n (s.stopSlip now p (x.param16 n 0 + 65536 * x.param16 n 2))
  | 6 =>
    ((s.mapX (Exchange.complete n.val (restartResult s.rail.state (x.param n 0)))).restartHost now p (x.param n 0))
  | 7 =>
    State.immediate n (s.watchdogSlip now p (x.param n 0)
      { s1 := x.param16 n 2, s2 := x.param16 n 4, early := x.param16 n 6 })
  | 8 =>
    State.lasting .keypad n (s.rebaselineSlip now p (BitVec.ofNat 24 (x.param16 n 0 + 65536 * x.param n 2)))
  | 9 => State.immediate n (s.readProfileSlip p)
  | 10 => State.lasting .store n (s.commitSlip now)
  | _ => State.immediate n (s, SlipResult.only .unknownKind)

/-- The engine takes slot `n` (R167). -/
def State.takeSlip (now : SlotCount) (p : Image) (n : Fin 16) (s : State) : State :=
  (s.mapEngine fun e => { e with served := true, lastServed := n }).runSlip now p n

/-- The engine takes a slip if its served flag is clear and some slot but those of `undelivered` is POSTED (R167). -/
def State.arbitrateAmong (undelivered : List (Fin 16)) (now : SlotCount) (p : Image) (s : State) : State :=
  if s.engine.served then s
  else
    match s.choose undelivered with
    | none => s
    | some n => s.takeSlip now p n

/-- The engine takes a slip if its served flag is clear and some slot is POSTED (R167). -/
def State.arbitrate (now : SlotCount) (p : Image) (s : State) : State := s.arbitrateAmong [] now p

/-- A stop request reaches the block whose binding names slot `n` (R173). -/
def State.stopRequest (n : Fin 16) (s : State) : State :=
  if s.engine.airSlot = some n then s.mapAir fun a => { a with probe := a.probe.requestStop }
  else if s.engine.keypadSlot = some n then s.mapKeypad fun k => { k with stopPending := true }
  else s

/-- SERVICE_WRITE_END (R181, R62): a write in flight ends at one of the first 6 slot starts after its beginning, the slip
completes, and the engine may take a promoted slip in the same event (R171); no effect at any other time (log entry 10). -/
def execServiceWriteEnd (s : State) : Host.Outcome State Fault Refusal :=
  .next
    (match s.store.active, s.writeDue with
     | some p, some e => (s.endServiceWrite e).arbitrate e p
     | _, _ => s)

end Sys2Proof.Machine
end

