-- ==== Sys2Proof/Machine/RailTimers.lean ====
section
/-!
DEFINITION. The ends of the rail controller's timers (R68). Each event acts only when its timer ends now (`State.due`),
and stamps what it starts with the slot count of that end.
-/

namespace Sys2Proof.Machine

/-- An event that belongs to a timer: `act` with the active profile and the slot count of the timer's end, if the timer
ends now; no effect otherwise (log entry 10). -/
def State.atEnd (timer : Option SlotCount) (act : Image → SlotCount → State → State) (s : State) : State :=
  match s.store.active, s.due timer with
  | some p, some e => act p e s
  | _, _ => s

/-- SLEEP_HOLD_END (R85): the sleep count has reached the sleep hold, and the stop is complete. A step of its own: DEDUCED,
log entry 19. A count beyond a sleep hold that a new profile has shortened has reached it: R85 does not say (DESIGN CHOICE,
log entry 37). -/
def execSleepHoldEnd (s : State) : Host.Outcome State Fault Refusal :=
  .next
    (match s.store.active with
     | some p =>
       if s.rail.state = .stopping ∧ seconds (Profile.sleepHold p) ≤ s.rail.sleepCount then
         s.completeStop s.time.slotCount p
       else s
     | none => s)

/-- The end of the PGOOD limit (R77): a failure unless the reset hold runs. -/
def State.endPgoodLimit (p : Image) (e : SlotCount) (s : State) : State :=
  if s.rail.state = .starting then
    let s := s.mapRail fun r => { r with pgoodLimit := none }
    if s.rail.resetHold.isSome then s else s.failure e p .noPowergood
  else s

/-- PGOOD_LIMIT_END (R77). -/
def execPgoodLimitEnd (s : State) : Host.Outcome State Fault Refusal :=
  .next (s.atEnd s.rail.pgoodLimit State.endPgoodLimit)

/-- The end of the reset hold (R76): HRST# is released and the rail enters RUNNING. -/
def State.endResetHold (p : Image) (e : SlotCount) (s : State) : State :=
  if s.rail.state = .starting then s.enterRunning e p else s

/-- RESET_HOLD_END (R76). -/
def execResetHoldEnd (s : State) : Host.Outcome State Fault Refusal :=
  .next (s.atEnd s.rail.resetHold State.endResetHold)

/-- The end of the stop limit (R85): a cut with the record STOP_TIMEOUT, and the restart pending and off time of the
stop. -/
def State.endStopLimit (p : Image) (e : SlotCount) (s : State) : State :=
  if s.rail.state = .stopping then
    let restart : Bool := 0 < s.rail.stopRestart
    let off := s.stopOffSlots p
    (s.addRecord e .stopTimeout (if restart then .cold else .off) s.mon.ladderIndex .stopping).enterCooldown e restart off
  else s

/-- STOP_LIMIT_END (R85). -/
def execStopLimitEnd (s : State) : Host.Outcome State Fault Refusal :=
  .next (s.atEnd s.rail.stopLimit State.endStopLimit)

/-- The end of the reset delay (R86): HRST# is asserted and the reset width begins. -/
def State.endResetDelay (p : Image) (e : SlotCount) (s : State) : State :=
  if s.rail.state = .resetting then s.assertReset e p else s

/-- RESET_DELAY_END (R86). -/
def execResetDelayEnd (s : State) : Host.Outcome State Fault Refusal :=
  .next (s.atEnd s.rail.resetDelay State.endResetDelay)

/-- The end of the reset width (R86): HRST# is released and the rail enters RUNNING. -/
def State.endResetWidth (p : Image) (e : SlotCount) (s : State) : State :=
  if s.rail.state = .resetting then s.enterRunning e p else s

/-- RESET_WIDTH_END (R86). -/
def execResetWidthEnd (s : State) : Host.Outcome State Fault Refusal :=
  .next (s.atEnd s.rail.resetWidth State.endResetWidth)

/-- The end of the off timer (R87): WARMING with restart pending, OFF without. -/
def State.endOffTimer (p : Image) (e : SlotCount) (s : State) : State :=
  if s.rail.state = .cooldown then
    let s := s.mapRail fun r => { r with offTimer := none }
    if s.rail.restartPending then s.enterWarming e p else s.setRail e .off
  else s

/-- OFF_TIMER_END (R87). -/
def execOffTimerEnd (s : State) : Host.Outcome State Fault Refusal :=
  .next (s.atEnd s.rail.offTimer State.endOffTimer)

/-- The end of a pulse (R92): HPWRBTN# is released. -/
def State.endPulse (_p : Image) (_e : SlotCount) (s : State) : State :=
  s.mapRail fun r => { r with hpwrbtn := false, pulse := none }

/-- PULSE_END (R92). -/
def execPulseEnd (s : State) : Host.Outcome State Fault Refusal := .next (s.atEnd s.rail.pulse State.endPulse)

/-- The end of the override time (R93): a rail that is on is cut. -/
def State.endOverride (p : Image) (e : SlotCount) (s : State) : State :=
  let s := s.mapRail fun r => { r with override := none }
  if s.rail.state.isOn then s.cutWithNotice e p .keyOverride false else s

/-- OVERRIDE_END (R93). -/
def execOverrideEnd (s : State) : Host.Outcome State Fault Refusal :=
  .next (s.atEnd s.rail.override State.endOverride)

end Sys2Proof.Machine
end

