-- ==== Sys2Proof/Machine/KeyEvents.lean ====
section
/-!
DEFINITION. The keypad controller's events: the end of a scan (R128), the HOLD of a repeating key (R137) and the CHORD
of a held chord (R138).
-/

namespace Sys2Proof.Machine

/-- SCAN_END (R128): a scan that began in this slot ends, once the HOLDs of the slot have been given (R137); no effect at any
other time (log entry 10). A completion of the rebaseline may promote a slip, which the engine may
take in the same event (R171). -/
def execScanEnd (counts : Vector (BitVec 12) 24) (s : State) : Host.Outcome State Fault Refusal :=
  .next
    (match s.store.active, s.scanDue with
     | some p, some t => (s.scanWork t p counts).arbitrate s.time.slotCount p
     | _, _ => s)

/-- HOLD (R137): the key's next hold falls now. -/
def execHold (k : Fin 24) (s : State) : Host.Outcome State Fault Refusal :=
  .next (s.atEnd s.keypad.keys[k].nextHold fun p e s => s.giveHold e p k)

/-- CHORD (R138): the chord's hold ends now. -/
def execChord (c : Fin 4) (s : State) : Host.Outcome State Fault Refusal :=
  .next (s.atEnd s.keypad.chords[c].holdEnd fun p e s => if s.keypad.chords[c].fired then s else s.giveChord e p c)

end Sys2Proof.Machine
end

