-- ==== Sys2Proof/Machine/Link.lean ====
section
/-!
DEFINITION. The serial link and the guard (chapter 7): frames, the snapshot, the guard, landing and delivery, with the
meanings of the link commands. A frame's bytes are those that are complete; a byte that CS# cuts off counts as never
sent (R150).
-/

namespace Sys2Proof.Machine

/-! ### Frames (R150) -/

/-- CS# falls: a frame begins (R150). A READ frame that was still open has ended before it, since CS# must have risen
(log entry 12). -/
def Exchange.beginFrame (x : Exchange) : Exchange :=
  let x := x.land
  { x with frame := { Frame.initial with phase := .command }, miso := [] }

/-- The starting address that two address bytes form (R152). -/
def startAddress (high low : Byte) : Nat := high.toNat * 256 + low.toNat

/-- The address counter after `n` bytes from `start`, held at 0xFFFF (R152). -/
def counterAfter (start n : Nat) : Half := BitVec.ofNat 16 (min 0xFFFF (start + n))

/-- One of `n` bytes from `start` on lies above 0xBFF (R152, R154). -/
def overruns (start n : Nat) : Bool := 0 < n && memorySize < start + n

/-- A READ or WRITE frame that CS# cuts off before its second address byte, with `n` address bytes complete (R150): the
record of the frame, and 0 on MISO for the command byte and the address bytes. It reads and sets nothing (R152, R154). -/
def Exchange.cutAddress (c : FrameCommand) (n : Nat) (x : Exchange) : Exchange :=
  let x := x.beginFrame
  { x with
    frame := { x.frame with phase := .idle, command := some c, addressBytes := n }
    miso := List.replicate (n + 1) 0 }

/-! ### READ (R152, R153) -/

/-- What data byte `i` of a READ frame from `start` returns (R152). -/
def Exchange.readOut (x : Exchange) (start i : Nat) : Byte :=
  if start + i < memorySize then Memory.read x.mem (start + i) else 0

/-- The second address byte of a READ frame is complete (R152, R153). -/
def Exchange.openRead (high low : Byte) (x : Exchange) : Exchange :=
  let x := x.beginFrame
  { x with
    frame :=
      { x.frame with
        phase := .data, command := some .read, addressBytes := 2
        addressCounter := counterAfter (startAddress high low) 0, covered := some (startAddress high low) }
    miso := [0, 0, 0] }

/-- The end of an open READ frame after `n` data bytes (R152, R153). What the frame record keeps after its end: DESIGN
CHOICE, log entry 13. -/
def Exchange.closeRead (start n : Nat) (x : Exchange) : Exchange :=
  let out := (List.range n).map (x.readOut start)
  let y := x.land
  { y with
    frame := { y.frame with phase := .idle, addressCounter := counterAfter start n }
    range := x.range || overruns start n
    miso := x.miso ++ out }

/-- READ_ADDRESS_COMPLETE (R153). -/
def execReadAddressComplete (high low : Byte) (s : State) : Host.Outcome State Fault Refusal :=
  .next (s.mapX (Exchange.openRead high low))

/-- READ (R153): the end of the READ frame that is open, after `n` data bytes. With none open it is a READ frame that CS#
cuts off before its second address byte, after `n` address bytes (R150, R152), and so `n` is 0 or 1: a longer one has had
its READ_ADDRESS_COMPLETE, and does not fall here (log entry 10). -/
def execRead (n : Nat) (s : State) : Host.Outcome State Fault Refusal :=
  .next
    (match s.xmem.frame.covered with
     | some start => s.mapX (Exchange.closeRead start n)
     | none => if n ≤ 1 then s.mapX (Exchange.cutAddress .read n) else s)

/-! ### The guard (R156) -/

/-- A byte of one of the four action words of the header. -/
def headerAction (a : Nat) : Bool := (0x0E ≤ a && a ≤ 0x12) || a == 0x16 || a == 0x17

/-- The guard's judgement of a host byte (R156); `held` is the staging hold. -/
def Exchange.guard (held : Bool) (x : Exchange) (c : Host.Cell) : Bool :=
  if headerAction c.1 then true
  else if 0x100 ≤ c.1 ∧ c.1 < 0x500 then
    let n := (c.1 - 0x100) / 64
    if (c.1 - 0x100) % 64 = 0 then hostTransition (x.peek c.1) c.2
    else x.ownerIs n .free || x.ownerIs n .done
  else if 0x800 ≤ c.1 ∧ c.1 < 0xC00 then !held
  else false

/-! ### Delivery (R157) -/

/-- The delivery of the kick word: a kick of value `v` (R105 to R108). -/
def State.kick (now : SlotCount) (v : Byte) (s : State) : State :=
  let m := s.mon
  let accepted (s : State) : State :=
    (s.mapMon fun m =>
      { m with
        inForce := m.runtimeSet, expected := some (v + 1), lastKick := some now
        stageEnd := some (after now (seconds m.runtimeSet.s1)), watchdog := .watching }).publishWatchdog now
  let judged (s : State) : State :=
    if m.expected ≠ none ∧ m.expected ≠ some v then s.setRefusal .badValue
    else
      match m.lastKick with
      | some t =>
        if 0 < m.inForce.early ∧ (now - t).toNat < seconds m.inForce.early then s.setRefusal .early else accepted s
      | none => accepted s
  match m.watchdog with
  | .grace => accepted s
  | .watching => judged s
  | .warned => judged s
  | .expired =>
    match m.pendingRecord with
    | some n =>
      if m.records.any fun r => r.number == n then
        (s.mapMon fun m => { m with records := markLate n m.records }).publishRecords
      else s
    | none => s
  | .dormant => s
  | .paused => s

/-- The delivery of slot `n`'s owner byte, with the value now in it (R164); the owner bytes of the slots of `undelivered`
come after it. -/
def State.deliverOwner (undelivered : List (Fin 16)) (now : SlotCount) (p : Image) (n : Fin 16) (s : State) : State :=
  if s.xmem.ownerIs n.val .posted then s.arbitrateAmong undelivered now p
  else if s.xmem.ownerIs n.val .stopreq then s.stopRequest n
  else s

/-- Some accepted byte lies within `lo` to `hi`: the action word there is touched (R155). -/
def touched (cs : List Host.Cell) (lo hi : Nat) : Bool := cs.any fun c => lo ≤ c.1 && c.1 ≤ hi

/-- The slots after slot `n` whose owner byte is among the accepted bytes `cs`: those delivered after it (R157). -/
def ownersAfter (cs : List Host.Cell) (n : Fin 16) : List (Fin 16) :=
  (List.finRange 16).filter fun m => n < m && touched cs (slotAddr m.val) (slotAddr m.val)

/-- The touched action words are delivered in ascending order of address (R155 stage 3, R157). -/
def State.deliverAll (now : SlotCount) (p : Image) (cs : List Host.Cell) (s : State) : State :=
  let s := if touched cs 0x0E 0x0F then s.mapX Exchange.deliverAcknowledge else s
  let s := if touched cs 0x10 0x11 then s.mapX Exchange.deliverEnable else s
  let s := if touched cs 0x12 0x12 then s.kick now (s.xmem.peek 0x12) else s
  let s := if touched cs 0x16 0x17 then s.deliverReadCounter now else s
  (List.finRange 16).foldl
    (fun s n =>
      if touched cs (slotAddr n.val) (slotAddr n.val) then s.deliverOwner (ownersAfter cs n) now p n else s) s

/-! ### WRITE (R154, R155, R158) -/

/-- REFUSED is set (R151). -/
def State.setRefused (s : State) : State := s.mapX fun x => { x with refused := true }

/-- The end of a WRITE frame whose write buffer is `cs` (R155): judging, landing, delivery. Before READY every byte is
refused and nothing is delivered (R158). -/
def State.endWrite (cs : List Host.Cell) (s : State) : State :=
  if cs = [] then s
  else
    match s.xmem.ready, s.store.active with
    | true, some p =>
      let accepted := cs.filter (s.xmem.guard s.store.stagingHeld)
      let s := if cs.all (s.xmem.guard s.store.stagingHeld) then s else s.setRefused
      let s := s.mapX fun x => { x with mem := Memory.writeAll x.mem accepted }
      s.deliverAll s.time.slotCount p accepted
    | _, _ => s.setRefused

/-- The frame record and the flags at the end of a WRITE frame, before its end is judged (R154). -/
def Exchange.takeWrite (bytes : List Byte) (x : Exchange) : Exchange :=
  match bytes with
  | high :: low :: data =>
    let x := x.beginFrame
    let start := startAddress high low
    { x with
      frame :=
        { x.frame with
          phase := .idle, command := some .write, addressBytes := 2
          addressCounter := counterAfter start data.length
          buffer := (cellsAt start data).filter fun c => c.1 < memorySize }
      range := x.range || overruns start data.length
      miso := List.replicate (data.length + 3) 0 }
  | _ => x.cutAddress .write bytes.length

/-- A WRITE frame with the bytes after its command byte (R154, R155). -/
def State.writeFrame (bytes : List Byte) (s : State) : State :=
  let s := s.mapX (Exchange.takeWrite bytes)
  s.endWrite s.xmem.frame.buffer

/-- WRITE (R155). -/
def execWrite (bytes : List Byte) (s : State) : Host.Outcome State Fault Refusal := .next (s.writeFrame bytes)

/-! ### STATUS, CLEAR and unknown commands (R150, R151, R158) -/

/-- A STATUS frame (R151): the byte latched at the command byte's end is shifted out in every later byte, and the first
complete one clears REFUSED and RANGE. -/
def Exchange.statusFrame (n : Nat) (x : Exchange) : Exchange :=
  let x := x.beginFrame
  let b := x.statusByte
  { x with
    frame := { x.frame with phase := .idle, command := some .status, latched := some b }
    refused := x.refused && n == 0
    range := x.range && n == 0
    miso := 0 :: List.replicate n b }

/-- STATUS (R151). -/
def execStatus (n : Nat) (s : State) : Host.Outcome State Fault Refusal := .next (s.mapX (Exchange.statusFrame n))

/-- A frame whose bytes after the command byte are ignored (R150). -/
def Exchange.ignoreFrame (c : Option FrameCommand) (n : Nat) (x : Exchange) : Exchange :=
  let x := x.beginFrame
  { x with frame := { x.frame with phase := .idle, command := c }, miso := List.replicate (n + 1) 0 }

/-- CLEAR (R158). -/
def execClear (n : Nat) (s : State) : Host.Outcome State Fault Refusal :=
  let s := s.mapX (Exchange.ignoreFrame (some .clear) n)
  .next
    (match s.xmem.ready, s.store.active with
     | true, some p => s.hostRestartClearing s.time.slotCount p
     | _, _ => s.setRefused)

/-- UNKNOWN_COMMAND (R150). The four bytes that are commands begin no such frame, and the row changes nothing with one of them
(DESIGN CHOICE, log entry 10). -/
def execUnknownCommand (command : Byte) (n : Nat) (s : State) : Host.Outcome State Fault Refusal :=
  .next
    (if [0x3A, 0x5C, 0x71, 0xC3].contains command then s
     else (s.mapX (Exchange.ignoreFrame none n)).setRefused)

/-! ### Action words written on their own (R157): the shortest WRITE frame that touches the word -/

/-- ATTENTION_ACKNOWLEDGE (R161). -/
def execAttentionAcknowledge (word : Half) (s : State) : Host.Outcome State Fault Refusal :=
  .next (s.writeFrame (0x00 :: 0x0E :: le16 word.toNat))

/-- ATTENTION_ENABLE (R161). -/
def execAttentionEnable (word : Half) (s : State) : Host.Outcome State Fault Refusal :=
  .next (s.writeFrame (0x00 :: 0x10 :: le16 word.toNat))

/-- KICK (R106). -/
def execKick (value : Byte) (s : State) : Host.Outcome State Fault Refusal := .next (s.writeFrame [0x00, 0x12, value])

/-- KEY_READ_COUNTER (R143). -/
def execKeyReadCounter (value : Half) (s : State) : Host.Outcome State Fault Refusal :=
  .next (s.writeFrame (0x00 :: 0x16 :: le16 value.toNat))

/-- The host writes `o` into the owner byte of slot `n`, in a frame of its own (R164). -/
def State.writeOwner (n : Fin 16) (o : Owner) (s : State) : State :=
  s.writeFrame [BitVec.ofNat 8 (slotAddr n.val / 256), BitVec.ofNat 8 (slotAddr n.val), o.code]

/-- SLIP_POST (R167). -/
def execSlipPost (n : Fin 16) (s : State) : Host.Outcome State Fault Refusal := .next (s.writeOwner n .posted)

/-- SLIP_CHAIN (R164). -/
def execSlipChain (n : Fin 16) (s : State) : Host.Outcome State Fault Refusal := .next (s.writeOwner n .chained)

/-- SLIP_WITHDRAW (R164). -/
def execSlipWithdraw (n : Fin 16) (s : State) : Host.Outcome State Fault Refusal := .next (s.writeOwner n .free)

/-- SLIP_STOPREQ (R173). -/
def execSlipStopreq (n : Fin 16) (s : State) : Host.Outcome State Fault Refusal := .next (s.writeOwner n .stopreq)

/-- SLIP_FREE (R164). -/
def execSlipFree (n : Fin 16) (s : State) : Host.Outcome State Fault Refusal := .next (s.writeOwner n .free)

end Sys2Proof.Machine
end

