-- ==== Sys2Proof/Machine/Posting.lean ====
section
/-!
DEFINITION. The rows of the table that are slips of one kind: the host posts the slip in a WRITE frame of its own, with
the body of section 10.4, and the part does with it what R155, R164 and R167 say. Log entry 16.
-/

namespace Sys2Proof.Machine

/-- The 24 parameter bytes of a slip: the kind's own, and 0 in each byte after them. -/
def paramBytes (bs : List Byte) : List Byte := (bs ++ List.replicate 24 0).take 24

/-- The first 32 bytes of a slot as the host posts it: POSTED, the kind, the head, 0 for the result fields, and the
parameters (section 10.4). -/
def slipBody (h : SlipHead) (kind : Byte) (params : List Byte) : List Byte :=
  [Owner.posted.code, kind, h.priority, h.next] ++ le16 h.tag.toNat ++ [0, 0] ++ paramBytes params

/-- The bytes after the command byte of the WRITE frame that posts the slip. -/
def slipFrame (h : SlipHead) (kind : Byte) (params : List Byte) : List Byte :=
  BitVec.ofNat 8 (slotAddr h.slot.val / 256) :: BitVec.ofNat 8 (slotAddr h.slot.val) :: slipBody h kind params

/-- The host posts the slip: a row that is one slip kind is that frame (DESIGN CHOICE, log entry 16). -/
def State.post (h : SlipHead) (kind : Byte) (params : List Byte) (s : State) : State :=
  s.writeFrame (slipFrame h kind params)

/-- SET ZONE TARGET (R20). -/
def execSetZoneTarget (h : SlipHead) (zone action : Byte) (setpoint : Half) (s : State) :
    Host.Outcome State Fault Refusal :=
  .next (s.post h 1 (zone :: action :: le16 setpoint.toNat))

/-- SET FAN FLOOR (R51). -/
def execSetFanFloor (h : SlipHead) (fan floor : Byte) (s : State) : Host.Outcome State Fault Refusal :=
  .next (s.post h 2 [fan, floor])

/-- PROBE AIRFLOW (R61). -/
def execProbeAirflow (h : SlipHead) (s : State) : Host.Outcome State Fault Refusal := .next (s.post h 3 [])

/-- RESET FILTER REFERENCE (R62). -/
def execResetFilterReference (h : SlipHead) (s : State) : Host.Outcome State Fault Refusal := .next (s.post h 4 [])

/-- REQUEST STOP (R96). -/
def execRequestStop (h : SlipHead) (restartAfter : BitVec 32) (s : State) : Host.Outcome State Fault Refusal :=
  .next (s.post h 5 (le32 restartAfter.toNat))

/-- REQUEST RESTART (R97). -/
def execRequestRestart (h : SlipHead) (mode : Byte) (s : State) : Host.Outcome State Fault Refusal :=
  .next (s.post h 6 [mode])

/-- SET WATCHDOG (R120). -/
def execSetWatchdog (h : SlipHead) (mode : Byte) (s1 s2 early : Half) (s : State) :
    Host.Outcome State Fault Refusal :=
  .next (s.post h 7 (mode :: 0 :: le16 s1.toNat ++ le16 s2.toNat ++ le16 early.toNat))

/-- REBASELINE KEYS (R145). -/
def execRebaselineKeys (h : SlipHead) (mask : BitVec 24) (s : State) : Host.Outcome State Fault Refusal :=
  .next (s.post h 8 (maskPayload mask))

/-- READ PROFILE (R178). -/
def execReadProfile (h : SlipHead) (s : State) : Host.Outcome State Fault Refusal := .next (s.post h 9 [])

/-- COMMIT PROFILE (R179). -/
def execCommitProfile (h : SlipHead) (s : State) : Host.Outcome State Fault Refusal := .next (s.post h 10 [])

/-- UNKNOWN_KIND (R168): a slip whose kind byte is not one of the ten. With one of the ten it posts a slip of that kind (DESIGN
CHOICE, log entry 16). -/
def execUnknownKind (h : SlipHead) (kind : Byte) (s : State) : Host.Outcome State Fault Refusal :=
  .next (s.post h kind [])

end Sys2Proof.Machine
end

