-- ==== Sys2Proof/Machine/Sensing.lean ====
section
/-!
DEFINITION. The sensing unit (chapter 1): conversion, faults, the spike rule, the rail values and power, and the
meanings of the two conversion ends. The fans' tachometer events of chapter 3 stand here too.
-/

namespace Sys2Proof.Machine

/-! ### Thermistor channels (R3 to R7, R14) -/

/-- A code outside 16 to 4079 (R4). -/
def faultCode (c : Nat) : Bool := c < 16 || 4079 < c

/-- The temperature of an in-range code (R3): the table, rounded down, the trim, the clamp. -/
def convert (p : Image) (k : Fin 6) (c : Nat) : Int :=
  let t := Profile.sensorPoint p
  let i := c / 128
  clampInt (-550) 1250 (t i + (t (i + 1) - t i) * ((c % 128 : Nat) : Int) / 128 + Profile.trim p k)

/-- Two values are within 50 (R7). -/
def within50 (a b : Int) : Bool := (a - b).natAbs ≤ 50

/-- The spike rule (R7): the accepted and the pending value after the converted result `v`. -/
def spikeRule (v a : Int) (pending : Option Int) : Int × Option Int :=
  if within50 v a then (v, none)
  else
    match pending with
    | none => (a, some v)
    | some q => if within50 v q then (v, none) else (a, some v)

/-- A channel record after a conversion end with code `c` whose conversion gives `v` (R2, R4 to R7). -/
def Channel.take (c : BitVec 12) (v : Int) (r : Channel) : Channel :=
  let r := { r with lastCode := some c }
  if faultCode c.toNat then (if r.fault then r else { r with fault := true, pendingValue := none })
  else if r.fault then { r with fault := false, accepted := some v }
  else
    match r.accepted with
    | none => { r with accepted := some v }
    | some a => { r with accepted := some (spikeRule v a r.pendingValue).1, pendingValue := (spikeRule v a r.pendingValue).2 }

/-- A channel's entry on the live page (R14, section 10.3). -/
def Channel.entry (r : Channel) : List Byte :=
  le16 ((r.lastCode.map BitVec.toNat).getD 0) ++ sle16 (r.accepted.getD 0) ++
    [flagByte r.accepted.isSome ||| (flagByte r.fault <<< 1) ||| (flagByte r.pendingValue.isSome <<< 2)]

/-- Channel `k` takes a code: its record, its entry, and CLIMATE_FAULT at an entry into fault (R2 to R7, R14). -/
def State.takeCode (p : Image) (k : Fin 6) (c : BitVec 12) (s : State) : State :=
  let old := s.sense.channels[k]
  let new := old.take c (convert p k c.toNat)
  let s := (s.mapSense fun u => { u with channels := u.channels.set k new, converted := true }).mapX
    (Exchange.partWrite (0x040 + 8 * k.val) new.entry)
  if new.fault && !old.fault then s.raise .climateFault else s

/-- The rail controller takes a delivery of MODULE or OUTLET (R82). -/
def State.judgeOvertemp (now : SlotCount) (p : Image) (s : State) : State :=
  match s.moduleTemp with
  | some t =>
    if s.rail.state.isOn ∧ Profile.criticalTemp p ≤ t then s.cutWithNotice now p .overtemp (Profile.autostart p) else s
  | none => s

/-- The deliveries of a conversion end (R9): INLET and GLASS to the keypad controller, OUTLET and MODULE to the rail
controller. -/
def State.deliverTemp (now : SlotCount) (p : Image) (k : Fin 6) (s : State) : State :=
  if k = 0 ∨ k = 4 then s.judgeFog p else if k = 1 ∨ k = 2 then s.judgeOvertemp now p else s

/-- CONVERSION_END (R2): in the channel's slot, once; no effect at any other time (log entry 10). -/
def execConversionEnd (k : Fin 6) (c : BitVec 12) (s : State) : Host.Outcome State Fault Refusal :=
  .next
    (match s.store.active with
     | some p => if s.conversionDue k then (s.takeCode p k c).deliverTemp s.time.slotCount p k else s
     | none => s)

/-! ### Rail voltage, current and power (R11 to R14) -/

/-- The slot power in dW (R12). -/
def slotPower (mV mA : Nat) : Nat := mV * mA / 100000

/-- The latest rail values and the window sum after a rail conversion end (R11, R12). -/
def Sensing.takeRail (mV mA : Nat) (u : Sensing) : Sensing :=
  { u with
    railVoltage := mV, railCurrent := mA, windowSum := u.windowSum + slotPower mV mA, railConverted := true }

/-- The window average of slot 63, with its value on the live page (R13, R14). -/
def State.formAverage (s : State) : State :=
  let a := s.sense.windowSum / 64
  (s.mapSense fun u => { u with railAverage := a }).mapX (Exchange.partWrite 0x090 (le16 a))

/-- The overcurrent test (R80). -/
def State.testCurrent (now : SlotCount) (p : Image) (mA : Nat) (s : State) : State :=
  if s.rail.state.isOn ∧ Profile.overcurrentLimit p < mA then
    if s.rail.overcurrentCount = 0 then s.mapRail fun r => { r with overcurrentCount := 1 }
    else s.failure now p .overcurrent
  else s.mapRail fun r => { r with overcurrentCount := 0 }

/-- The latest rail values are in place, on the live page too, and in slot 63 the window average (R11 to R14). The voltage and
the current are one part write of four bytes: R14 does not say whether they are one or two (DESIGN CHOICE, log entry 46). -/
def State.takeRailCodes (mV mA : Nat) (s : State) : State :=
  let s := (s.mapSense (Sensing.takeRail mV mA)).mapX (Exchange.partWrite 0x08C (le16 mV ++ le16 mA))
  if s.slotNumber = 63 then s.formAverage else s

/-- RAIL_CONVERSION_END (R11): once in each slot; no effect at any other time (log entry 10). -/
def execRailConversionEnd (vsns isns : BitVec 12) (s : State) : Host.Outcome State Fault Refusal :=
  .next
    (match s.store.active with
     | some p =>
       if s.railConversionDue then
         (s.takeRailCodes (vsns.toNat * 8) (isns.toNat * 4)).testCurrent s.time.slotCount p (isns.toNat * 4)
       else s
     | none => s)

/-! ### Tachometers (R48) -/

/-- TACH_EDGE (R48). Before a profile is active the record alone changes (R158, log entry 7). -/
def execTachEdge (f : Fin 2) (elapsed : Nat) (s : State) : Host.Outcome State Fault Refusal :=
  .next (s.setFanSpeed f (s.air.fans[f].edge (s.store.active.map fun p => Profile.pulsesPerRev p f) elapsed))

/-- TACH_TIMEOUT (R48). -/
def execTachTimeout (f : Fin 2) (s : State) : Host.Outcome State Fault Refusal :=
  .next (s.setFanSpeed f s.air.fans[f].timeout)

end Sys2Proof.Machine
end

