-- ==== Sys2Proof/Machine/Timebase.lean ====
section
/-!
DEFINITION. The timebase: SLOT_START with the per-slot work of the blocks, WINDOW_BOUNDARY with the work of the blocks
that act once per window, and the answer to the start request.
-/

namespace Sys2Proof.Machine

/-! ### SLOT_START (R15) -/

/-- The slot count becomes `n` and is written to the header (R15). -/
def State.countSlot (n : SlotCount) (s : State) : State :=
  (s.mapTime fun _ => { slotCount := n, started := true, boundaryTaken := n.toNat % 64 = 0 && s.time.boundaryTaken }).mapX
    (Exchange.partWrite 0x08 (le32 n.toNat))

/-- The conversions of a new slot have not yet ended (R2, R11). -/
def State.beginConversions (s : State) : State :=
  s.mapSense fun u => { u with converted := false, railConverted := false }

/-- What the start of slot number `k` does to the rail power sum (R12) and to the heater outputs (R33): the window sum
is 0 at the start of a window (DEDUCED, log entry 33), whose outputs the boundary sets; every later slot drives the
outputs by the grants. -/
def State.startOutputs (k : Nat) (s : State) : State :=
  let s := s.beginConversions
  if k = 0 then s.mapSense fun u => { u with windowSum := 0 } else s.driveHeaters k

/-- The served flag is cleared at a slot start (R167). -/
def State.clearServed (s : State) : State := s.mapEngine fun e => { e with served := false }

/-- The work of the slot start of slot count `n`. The order among the blocks is the model's (DESIGN CHOICE, log entry
17): the power inputs (R69), the cabinet inputs (R89), the gate (R71), the remaining seconds (R124), the decision about
a scan, which for slot 0 waits for the publication (R127), and the engine's take (R167). -/
def State.slotWork (n : SlotCount) (p : Image) (pgood hsleep : Bool) (levels : BitVec 4) (s : State) : State :=
  let s := (s.countSlot n).startOutputs (n.toNat % 64)
  let s := (s.samplePower n p pgood hsleep).sampleInputs n p levels
  let s := (s.judgeAtSlot n p).publishWatchdog n
  let s := if n.toNat % 64 = 0 then s else s.decideScan n p (n.toNat % 64)
  s.clearServed.arbitrate n p

/-- SLOT_START (R15). Before a profile is active there is no slot start, since the load comes before the first one
(R176). -/
def execSlotStart (pgood hsleep : Bool) (levels : BitVec 4) (s : State) : Host.Outcome State Fault Refusal :=
  .next
    (match s.store.active with
     | some p => s.slotWork s.upcoming p pgood hsleep levels
     | none => s)

/-! ### WINDOW_BOUNDARY (R16) -/

/-- The slot count of the window boundary that may be taken now, if one may: in slot 0, or, just before it, at the
coming slot start, once for each slot 0 (R16). DEDUCED, log entry 18. The boundary at the coming slot start waits until
slot 63 is over: the rail conversion has put its average in place (R13), and a scan of that slot has ended (R128). -/
def State.boundaryDue (s : State) : Option SlotCount :=
  if s.time.boundaryTaken then none
  else if s.slotNumber = 0 then some s.time.slotCount
  else if s.slotNumber = 63 ∧ s.slotOver then some (s.time.slotCount + 1)
  else none

/-- A commit that is ARMED takes effect at the slot start of the boundary, before the boundary's delivery (R180). The
completion may promote a slip, which the engine may take in the same event (R171; DEDUCED, log entry 20). -/
def State.activateDue (now : SlotCount) (old : Image) (s : State) : State :=
  if s.store.commit = .armed then (s.activate now old).arbitrate now s.store.storedImage else s

/-- The profile in force from the boundary on. -/
def State.profileAfter (old : Image) (s : State) : Image := if s.store.commit = .armed then s.store.storedImage else old

/-- The window boundary at slot count `now` (R16): the profile (R180), the air controller (R45), the climate controller
(R31), the keypad controller's decision for slot 0 (R127), and the engine (R171). A slip that a probe's completion promotes
is taken at the end of all this work, and not within the air controller's (DEDUCED, log entry 20). -/
def State.boundaryWork (now : SlotCount) (old : Image) (s : State) : State :=
  let p := s.profileAfter old
  let s := (s.mapTime fun t => { t with boundaryTaken := true }).activateDue now old
  let r := (s.airBoundary now p).climateBoundary now p
  ((r.1.takeEdges r.2).decideScan now p 0).arbitrate now p

/-- WINDOW_BOUNDARY (R16). -/
def execWindowBoundary (s : State) : Host.Outcome State Fault Refusal :=
  .next
    (match s.store.active, s.boundaryDue with
     | some p, some now => s.boundaryWork now p
     | _, _ => s)

/-! ### START_RESERVATION_ANSWER (R75) -/

/-- The rail controller receives the answer (R75). The rail is switched on at the boundary that gave the answer (DEDUCED,
log entry 29). -/
def State.receiveAnswer (p : Image) (granted : Bool) (boundary : SlotCount) (s : State) : State :=
  let s := s.mapClimate fun c => { c with answer := none }
  if s.rail.state = .warming ∧ s.rail.startRequest then
    if granted then s.enterStarting boundary p
    else (s.mapRail fun r => { r with budgetRefused := true }).setWait .budget
  else s

/-- START_RESERVATION_ANSWER (R75): the answer that waits, if one does. -/
def execStartReservationAnswer (s : State) : Host.Outcome State Fault Refusal :=
  .next
    (match s.store.active, s.climate.answer with
     | some p, some (granted, boundary) => s.receiveAnswer p granted boundary
     | _, _ => s)

end Sys2Proof.Machine
end

