-- ==== Sys2Proof/Machine/Watchdog.lean ====
section
/-!
DEFINITION. The ends that the liveness monitor times: the expiries of GRACE and of the two stages (R109 to R111), and
the stable time (R116).
-/

namespace Sys2Proof.Machine

/-- The action of a record for a watchdog action, which is carried out as the ladder says (R111, R119). -/
def LadderAction.recorded : LadderAction → RecordAction
  | .warm => .warm
  | .cold => .cold
  | .lockout => .lockout

/-- The watchdog expires with a cause (R111, steps 1 to 5). -/
def State.expire (cause : RestartCause) (p : Image) (e : SlotCount) (s : State) : State :=
  let i := s.mon.ladderIndex
  let action := ladderAction p i
  let s := s.mapMon fun m => { m with watchdog := .expired, stageEnd := none }
  let s := (s.setLadderIndex (ladderNext p i)).addRecord e cause action.recorded i .running
  let s := s.mapMon fun m => { m with pendingRecord := some m.recordCounter }
  (s.carryOut e p action).publishWatchdog e

/-- GRACE_EXPIRY (R109). -/
def execGraceExpiry (s : State) : Host.Outcome State Fault Refusal :=
  .next
    (s.atEnd s.mon.stageEnd fun p e s => if s.mon.watchdog = .grace then s.expire .graceExpiry p e else s)

/-- Stage 1 expires (R110). -/
def State.warn (e : SlotCount) (s : State) : State :=
  let s := s.mapMon fun m => { m with watchdog := .warned, stageEnd := some (after e (seconds m.inForce.s2)) }
  (s.publishWatchdog e).raise .wdtWarn

/-- STAGE1_EXPIRY (R110). -/
def execStage1Expiry (s : State) : Host.Outcome State Fault Refusal :=
  .next (s.atEnd s.mon.stageEnd fun _ e s => if s.mon.watchdog = .watching then s.warn e else s)

/-- STAGE2_EXPIRY (R111). -/
def execStage2Expiry (s : State) : Host.Outcome State Fault Refusal :=
  .next
    (s.atEnd s.mon.stageEnd fun p e s => if s.mon.watchdog = .warned then s.expire .stage2Expiry p e else s)

/-- STABLE_END (R116): the ladder index returns to 0. -/
def execStableEnd (s : State) : Host.Outcome State Fault Refusal :=
  .next
    (s.atEnd s.mon.stableEnd fun _ _ s => (s.mapMon fun m => { m with stableEnd := none }).setLadderIndex 0)

end Sys2Proof.Machine
end

