-- ==== Sys2Proof/Machine/Dispatch.lean ====
section
/-! DEFINITION. The meaning of each command: one arm for each row of spec/opcode_table.json. -/

namespace Sys2Proof.Machine

def exec (i : Instr) (s : State) : Host.Outcome State Fault Refusal :=
  match i with
  | .powerOn => Sys2Proof.Machine.execPowerOn s
  | .brownOut => Sys2Proof.Machine.execBrownOut s
  | .profileLoad => Sys2Proof.Machine.execProfileLoad s
  | .slotStart pgood hsleep inputs => Sys2Proof.Machine.execSlotStart pgood hsleep inputs s
  | .windowBoundary => Sys2Proof.Machine.execWindowBoundary s
  | .startReservationAnswer => Sys2Proof.Machine.execStartReservationAnswer s
  | .conversionEnd channel code => Sys2Proof.Machine.execConversionEnd channel code s
  | .railConversionEnd vsns isns => Sys2Proof.Machine.execRailConversionEnd vsns isns s
  | .tachEdge fan elapsed => Sys2Proof.Machine.execTachEdge fan elapsed s
  | .tachTimeout fan => Sys2Proof.Machine.execTachTimeout fan s
  | .sleepHoldEnd => Sys2Proof.Machine.execSleepHoldEnd s
  | .pgoodLimitEnd => Sys2Proof.Machine.execPgoodLimitEnd s
  | .resetHoldEnd => Sys2Proof.Machine.execResetHoldEnd s
  | .stopLimitEnd => Sys2Proof.Machine.execStopLimitEnd s
  | .resetDelayEnd => Sys2Proof.Machine.execResetDelayEnd s
  | .resetWidthEnd => Sys2Proof.Machine.execResetWidthEnd s
  | .offTimerEnd => Sys2Proof.Machine.execOffTimerEnd s
  | .pulseEnd => Sys2Proof.Machine.execPulseEnd s
  | .overrideEnd => Sys2Proof.Machine.execOverrideEnd s
  | .graceExpiry => Sys2Proof.Machine.execGraceExpiry s
  | .stage1Expiry => Sys2Proof.Machine.execStage1Expiry s
  | .stage2Expiry => Sys2Proof.Machine.execStage2Expiry s
  | .stableEnd => Sys2Proof.Machine.execStableEnd s
  | .scanEnd counts => Sys2Proof.Machine.execScanEnd counts s
  | .hold key => Sys2Proof.Machine.execHold key s
  | .chord number => Sys2Proof.Machine.execChord number s
  | .read n => Sys2Proof.Machine.execRead n s
  | .write bytes => Sys2Proof.Machine.execWrite bytes s
  | .status n => Sys2Proof.Machine.execStatus n s
  | .clear n => Sys2Proof.Machine.execClear n s
  | .unknownCommand command n => Sys2Proof.Machine.execUnknownCommand command n s
  | .attentionAcknowledge word => Sys2Proof.Machine.execAttentionAcknowledge word s
  | .attentionEnable word => Sys2Proof.Machine.execAttentionEnable word s
  | .kick value => Sys2Proof.Machine.execKick value s
  | .keyReadCounter value => Sys2Proof.Machine.execKeyReadCounter value s
  | .slipPost slot => Sys2Proof.Machine.execSlipPost slot s
  | .slipChain slot => Sys2Proof.Machine.execSlipChain slot s
  | .slipWithdraw slot => Sys2Proof.Machine.execSlipWithdraw slot s
  | .slipStopreq slot => Sys2Proof.Machine.execSlipStopreq slot s
  | .slipFree slot => Sys2Proof.Machine.execSlipFree slot s
  | .setZoneTarget h zone action setpoint => Sys2Proof.Machine.execSetZoneTarget h zone action setpoint s
  | .setFanFloor h fan floor => Sys2Proof.Machine.execSetFanFloor h fan floor s
  | .probeAirflow h => Sys2Proof.Machine.execProbeAirflow h s
  | .resetFilterReference h => Sys2Proof.Machine.execResetFilterReference h s
  | .requestStop h restartAfter => Sys2Proof.Machine.execRequestStop h restartAfter s
  | .requestRestart h mode => Sys2Proof.Machine.execRequestRestart h mode s
  | .setWatchdog h mode s1 s2 early => Sys2Proof.Machine.execSetWatchdog h mode s1 s2 early s
  | .rebaselineKeys h mask => Sys2Proof.Machine.execRebaselineKeys h mask s
  | .readProfile h => Sys2Proof.Machine.execReadProfile h s
  | .commitProfile h => Sys2Proof.Machine.execCommitProfile h s
  | .unknownKind h kind => Sys2Proof.Machine.execUnknownKind h kind s
  | .programmingEnd => Sys2Proof.Machine.execProgrammingEnd s
  | .serviceWriteEnd => Sys2Proof.Machine.execServiceWriteEnd s
  | .readAddressComplete high low => Sys2Proof.Machine.execReadAddressComplete high low s

end Sys2Proof.Machine
end

