-- ==== Sys2Proof/WellFormed.lean ====
section
/-!
DEFINITION. Which terms of `Instr` are commands the part can meet at all: the operand ranges that the rules give
and that the operands' types do not already enforce.
-/

namespace Sys2Proof

/-- The four command bytes of section 10.1. -/
def commandBytes : List Byte := [0x3A, 0x5C, 0x71, 0xC3]

/-- The ten kind values of section 10.4. -/
def knownKind (k : Byte) : Bool := 1 ≤ k.toNat && k.toNat ≤ 10

/-- The operand ranges of the rules: a tach period is 1 to 1,000,000 µs (R42, R48), an unknown command byte is
none of the four of section 10.1 (R150), and an unknown kind is none of the ten of section 10.4 (R168). -/
def Instr.wellFormed : Instr → Bool
  | .tachEdge _ e => 1 ≤ e && e ≤ 1000000
  | .unknownCommand b _ => !commandBytes.contains b
  | .unknownKind _ k => !knownKind k
  | .powerOn => true
  | .brownOut => true
  | .profileLoad => true
  | .slotStart _ _ _ => true
  | .windowBoundary => true
  | .startReservationAnswer => true
  | .conversionEnd _ _ => true
  | .railConversionEnd _ _ => true
  | .tachTimeout _ => true
  | .sleepHoldEnd => true
  | .pgoodLimitEnd => true
  | .resetHoldEnd => true
  | .stopLimitEnd => true
  | .resetDelayEnd => true
  | .resetWidthEnd => true
  | .offTimerEnd => true
  | .pulseEnd => true
  | .overrideEnd => true
  | .graceExpiry => true
  | .stage1Expiry => true
  | .stage2Expiry => true
  | .stableEnd => true
  | .scanEnd _ => true
  | .hold _ => true
  | .chord _ => true
  | .read _ => true
  | .write _ => true
  | .status _ => true
  | .clear _ => true
  | .attentionAcknowledge _ => true
  | .attentionEnable _ => true
  | .kick _ => true
  | .keyReadCounter _ => true
  | .slipPost _ => true
  | .slipChain _ => true
  | .slipWithdraw _ => true
  | .slipStopreq _ => true
  | .slipFree _ => true
  | .setZoneTarget _ _ _ _ => true
  | .setFanFloor _ _ _ => true
  | .probeAirflow _ => true
  | .resetFilterReference _ => true
  | .requestStop _ _ => true
  | .requestRestart _ _ => true
  | .setWatchdog _ _ _ _ _ => true
  | .rebaselineKeys _ _ => true
  | .readProfile _ => true
  | .commitProfile _ => true
  | .programmingEnd => true
  | .serviceWriteEnd => true
  | .readAddressComplete _ _ => true

end Sys2Proof
end

