-- ==== Sys2Proof/Safety.lean ====
section
/-!
DEFINITION. What counts as a safe run, in the terms the statements use: when the manual lets an event of time fall, the
invariants that every step keeps, and the situation in which a slip the host posts is taken at once.
-/

namespace Sys2Proof.Machine

/-! ### When an event falls -/

/-- Whether the manual lets the event fall now. A command of the host, an edge of a pin and a change of the supply may
come at any time. Each other event has its time: a slot, an end of a timer, a scan that began in this slot, an answer that
waits. A READ frame that was not opened has at most one address byte (R152). -/
def fallsNow (s : State) : Instr → Bool
  | .powerOn => true
  | .brownOut => true
  | .profileLoad => s.store.active.isNone
  | .slotStart _ _ _ => s.store.active.isSome
  | .windowBoundary => s.store.active.isSome && s.boundaryDue.isSome
  | .startReservationAnswer => s.store.active.isSome && s.climate.answer.isSome
  | .conversionEnd k _ => s.store.active.isSome && s.conversionDue k
  | .railConversionEnd _ _ => s.store.active.isSome && s.railConversionDue
  | .tachEdge _ _ => true
  | .tachTimeout f => s.air.fans[f].timing
  | .sleepHoldEnd =>
    match s.store.active with
    | some p => s.rail.state = .stopping && seconds (Profile.sleepHold p) ≤ s.rail.sleepCount
    | none => false
  | .pgoodLimitEnd => (s.due s.rail.pgoodLimit).isSome
  | .resetHoldEnd => (s.due s.rail.resetHold).isSome
  | .stopLimitEnd => (s.due s.rail.stopLimit).isSome
  | .resetDelayEnd => (s.due s.rail.resetDelay).isSome
  | .resetWidthEnd => (s.due s.rail.resetWidth).isSome
  | .offTimerEnd => (s.due s.rail.offTimer).isSome
  | .pulseEnd => (s.due s.rail.pulse).isSome
  | .overrideEnd => (s.due s.rail.override).isSome
  | .graceExpiry => s.mon.watchdog = .grace && (s.due s.mon.stageEnd).isSome
  | .stage1Expiry => s.mon.watchdog = .watching && (s.due s.mon.stageEnd).isSome
  | .stage2Expiry => s.mon.watchdog = .warned && (s.due s.mon.stageEnd).isSome
  | .stableEnd => (s.due s.mon.stableEnd).isSome
  | .scanEnd _ => s.store.active.isSome && s.scanDue.isSome
  | .hold k => (s.due s.keypad.keys[k].nextHold).isSome
  | .chord c => (s.due s.keypad.chords[c].holdEnd).isSome
  | .read n => s.xmem.frame.covered.isSome || n ≤ 1
  | .write _ => true
  | .status _ => true
  | .clear _ => true
  | .unknownCommand _ _ => true
  | .attentionAcknowledge _ => true
  | .attentionEnable _ => true
  | .kick _ => true
  | .keyReadCounter _ => true
  | .slipPost _ => true
  | .slipChain _ => true
  | .slipWithdraw _ => true
  | .slipStopreq _ => true
  | .slipFree _ => true
  | .setZoneTarget _ _ _ _ => true
  | .setFanFloor _ _ _ => true
  | .probeAirflow _ => true
  | .resetFilterReference _ => true
  | .requestStop _ _ => true
  | .requestRestart _ _ => true
  | .setWatchdog _ _ _ _ _ => true
  | .rebaselineKeys _ _ => true
  | .readProfile _ => true
  | .commitProfile _ => true
  | .unknownKind _ _ => true
  | .programmingEnd => s.programmingDue.isSome
  | .serviceWriteEnd => s.store.active.isSome && s.writeDue.isSome
  | .readAddressComplete _ _ => true

/-- The commands whose events the part itself times: out of their time they change nothing. -/
def selfTimed : Instr → Bool
  | .profileLoad => true | .slotStart _ _ _ => true | .windowBoundary => true | .startReservationAnswer => true
  | .sleepHoldEnd => true | .pgoodLimitEnd => true | .resetHoldEnd => true | .stopLimitEnd => true
  | .resetDelayEnd => true | .resetWidthEnd => true | .offTimerEnd => true | .pulseEnd => true
  | .overrideEnd => true | .graceExpiry => true | .stage1Expiry => true | .stage2Expiry => true
  | .stableEnd => true | .scanEnd _ => true | .hold _ => true | .chord _ => true | .read _ => true
  | .conversionEnd _ _ => true | .railConversionEnd _ _ => true | .programmingEnd => true | .serviceWriteEnd => true
  | .powerOn => false | .brownOut => false
  | .tachEdge _ _ => false | .tachTimeout _ => false | .write _ => false | .status _ => false | .clear _ => false
  | .unknownCommand _ _ => false | .attentionAcknowledge _ => false | .attentionEnable _ => false
  | .kick _ => false | .keyReadCounter _ => false | .slipPost _ => false | .slipChain _ => false
  | .slipWithdraw _ => false | .slipStopreq _ => false | .slipFree _ => false | .setZoneTarget _ _ _ _ => false
  | .setFanFloor _ _ _ => false | .probeAirflow _ => false | .resetFilterReference _ => false
  | .requestStop _ _ => false | .requestRestart _ _ => false | .setWatchdog _ _ _ _ _ => false
  | .rebaselineKeys _ _ => false | .readProfile _ => false | .commitProfile _ => false
  | .unknownKind _ _ => false | .readAddressComplete _ _ => false

/-- The commands that begin or end a frame of the link, and the changes of the supply: those that can end an open READ
frame (R150, R153, R159). -/
def endsRead : Instr → Bool
  | .powerOn => true | .brownOut => true | .read _ => true | .write _ => true | .status _ => true | .clear _ => true
  | .unknownCommand _ _ => true | .attentionAcknowledge _ => true | .attentionEnable _ => true | .kick _ => true
  | .keyReadCounter _ => true | .slipPost _ => true | .slipChain _ => true | .slipWithdraw _ => true
  | .slipStopreq _ => true | .slipFree _ => true | .setZoneTarget _ _ _ _ => true | .setFanFloor _ _ _ => true
  | .probeAirflow _ => true | .resetFilterReference _ => true | .requestStop _ _ => true | .requestRestart _ _ => true
  | .setWatchdog _ _ _ _ _ => true | .rebaselineKeys _ _ => true | .readProfile _ => true | .commitProfile _ => true
  | .unknownKind _ _ => true | .readAddressComplete _ _ => true
  | .profileLoad => false | .slotStart _ _ _ => false | .windowBoundary => false | .startReservationAnswer => false
  | .conversionEnd _ _ => false | .railConversionEnd _ _ => false | .tachEdge _ _ => false | .tachTimeout _ => false
  | .sleepHoldEnd => false | .pgoodLimitEnd => false | .resetHoldEnd => false | .stopLimitEnd => false
  | .resetDelayEnd => false | .resetWidthEnd => false | .offTimerEnd => false | .pulseEnd => false
  | .overrideEnd => false | .graceExpiry => false | .stage1Expiry => false | .stage2Expiry => false
  | .stableEnd => false | .scanEnd _ => false | .hold _ => false | .chord _ => false | .programmingEnd => false
  | .serviceWriteEnd => false

/-! ### Invariants -/

/-- The three lines to the host by the rail state and its stage (R67). -/
def Rail.linesOk (r : Rail) : Bool :=
  r.railEn == r.state.isOn &&
  r.hrst == (r.state == .starting || (r.state == .resetting && r.resetWidth.isSome)) &&
  r.hpwrbtn == r.pulse.isSome &&
  (!r.hpwrbtn || r.state == .running || r.state == .stopping || r.state == .resetting)

/-- A timer of a state runs in that state alone, and RESETTING runs exactly one of its two (R68, R86). -/
def Rail.timersOk (r : Rail) : Bool :=
  (r.state == .starting || (r.pgoodLimit.isNone && r.resetHold.isNone)) &&
  (r.state == .stopping || r.stopLimit.isNone) &&
  (if r.state = .resetting then r.resetDelay.isSome != r.resetWidth.isSome
   else r.resetDelay.isNone && r.resetWidth.isNone) &&
  (r.state == .cooldown || r.offTimer.isNone)

/-- The start request and a wait reason stand in WARMING alone, restart pending in COOLDOWN alone (R66, R70, R71, R73,
R74, R87, R88). -/
def Rail.flagsOk (r : Rail) : Bool :=
  (!r.startRequest || r.state == .warming) &&
  (r.waitReason == .noWait || r.state == .warming) &&
  (!r.restartPending || r.state == .cooldown)

/-- GRACE, WATCHING and WARNED stand in RUNNING alone (R104). -/
def State.watchdogOk (s : State) : Bool :=
  match s.mon.watchdog with
  | .grace => s.rail.state == .running
  | .watching => s.rail.state == .running
  | .warned => s.rail.state == .running
  | .dormant => true
  | .paused => true
  | .expired => true

/-- The rail and the watchdog go together; before a profile is active the rail is OFF (R70). -/
def State.railSafe (s : State) : Bool :=
  s.rail.linesOk && s.rail.timersOk && s.rail.flagsOk && s.watchdogOk &&
    (s.store.active.isSome || s.rail.state == .off)

/-- The heater power of the grants in force, in slot-deciwatts, by the ratings of `p`. -/
def State.grantedPower (p : Image) (s : State) : Nat :=
  Profile.zoneRating p 0 * s.climate.zones[(0 : Fin 3)].grant +
    Profile.zoneRating p 1 * s.climate.zones[(1 : Fin 3)].grant +
    Profile.zoneRating p 2 * s.climate.zones[(2 : Fin 3)].grant

/-- The heaters draw no more than the allotment made (R32): the sum of rating × grant is at most 64 × the available
power, each grant is at most its request and each request at most its duty cap. Before a profile is active nothing is
granted (R40). -/
def State.budgetKept (s : State) : Bool :=
  match s.store.active with
  | some p =>
    s.grantedPower p ≤ 64 * s.climate.available &&
      (List.finRange 3).all fun z =>
        s.climate.zones[z].grant ≤ s.climate.zones[z].request && s.climate.zones[z].request ≤ Profile.dutyCap p z
  | none => (List.finRange 3).all fun z => s.climate.zones[z].grant == 0 && s.climate.zones[z].request == 0

/-- The key queue (R141, R142): at most 32 entries, each at its position with its sequence number, and a gap count of at
most 255. -/
def State.queueSound (s : State) : Bool :=
  s.keypad.count ≤ 32 && s.keypad.gap ≤ 255 &&
    (List.range s.keypad.count).all fun i =>
      let q := (s.keypad.readCounter + BitVec.ofNat 16 i).toNat
      s.xmem.peek16 (0x500 + 8 * (q % 32)) == q

/-- The value of slot `n`'s owner byte is one of the six (R163). -/
def Exchange.ownerKnown (x : Exchange) (n : Nat) : Bool := (x.peek (slotAddr n)).toNat ≤ 5

/-- Some block's binding names slot `n` (R166). -/
def Engine.names (e : Engine) (n : Fin 16) : Bool :=
  e.storeSlot == some n || e.airSlot == some n || e.keypadSlot == some n

/-- The slip table and the engine go together: every owner byte holds one of the six values (R163), a slot is TAKEN or
STOPREQ only while a binding names it (R169), and a block whose binding names a slot has the operation in flight. -/
def State.slipsSound (s : State) : Bool :=
  ((List.finRange 16).all fun n =>
    s.xmem.ownerKnown n.val &&
      (s.engine.names n || !(s.xmem.ownerIs n.val .taken || s.xmem.ownerIs n.val .stopreq))) &&
  (s.engine.airSlot.isNone ||
    (s.air.probe.phase != .idle &&
      (s.air.probe.origin == some .probeAirflow || s.air.probe.origin == some .resetFilterReference))) &&
  (s.engine.keypadSlot.isNone || s.keypad.rebaseline.isSome) &&
  (s.engine.storeSlot.isNone || s.store.commit != .idle)

/-- The part runs on valid profiles alone (R176 to R180): the active profile is valid, the image being programmed is
valid and the staging area is held for it, and an ARMED image is valid. -/
def State.profileSound (s : State) : Bool :=
  (match s.store.active with
   | some p => validImage p
   | none => true) &&
  (match s.store.commit with
   | .idle => !s.store.stagingHeld
   | .programming => s.store.stagingHeld && validImage s.xmem.staged
   | .armed => s.store.stagingHeld && validImage s.store.storedImage)

/-- The ladder index never exceeds the ladder length of the active profile (R114). -/
def State.ladderBounded (s : State) : Bool :=
  match s.store.active with
  | some p => s.mon.ladderIndex ≤ Profile.ladderLength p
  | none => s.mon.ladderIndex == 0

/-- The 32 bytes of position `i` of the restart record region (section 10.6): the fields of the record there, or 0 where the
list has none (R118). -/
def recordAt (rs : List RestartRecord) (i : Nat) : List Byte :=
  match rs[i]? with
  | some r =>
    le16 r.number ++
      [r.cause.code, r.action.code, BitVec.ofNat 8 r.indexBefore, flagByte r.lateKick, r.lastRefusal.code,
        r.railBefore.code] ++
      sle16 r.moduleTemp ++ sle16 r.outsideTemp ++
      [flagByte r.moduleValid ||| (flagByte r.outsideValid <<< 1)] ++ List.replicate 3 0 ++ le32 r.slot.toNat ++
      List.replicate 12 0
  | none => List.replicate 32 0

/-- The header, the live page and the restart record region show what the blocks hold, wherever a rule writes the copy at
the change itself (R14, R15, R98, R108, R118, R119, R124, R141 to R143, R147, R160, R161, R176, R180), as the blocks see the
exchange memory: an open READ frame may still read older values (R153). The copies that a boundary writes (R38, R45), the
remaining seconds (R124) and the rpm (R48, log entry 7) are not among these. Before a profile is active no input has been
taken (R70) and the page shows no fog. -/
def State.mirrored (s : State) : Bool :=
  let x := s.xmem
  x.peek 0x04 == headerFlags s.store.active.isSome (s.store.active.isSome && s.store.factoryActive) &&
  ((List.finRange 6).all fun k =>
    (List.range 5).all fun i => x.peek (0x040 + 8 * k.val + i) == s.sense.channels[k].entry.getD i 0) &&
  x.peek16 0x08C == s.sense.railVoltage % 65536 && x.peek16 0x08E == s.sense.railCurrent % 65536 &&
  x.peek16 0x090 == s.sense.railAverage % 65536 &&
  (match s.store.active with
   | some p => x.peek 0x0AE == s.inputsByte p && x.peek 0x0B2 == flagByte s.keypad.fog
   | none => x.peek 0x0AE == 0 && (List.finRange 4).all fun k => s.rail.inputs[k].taken.isNone) &&
  x.peek16 0x16 == s.keypad.readCounter.toNat &&
  x.peek 0x19 == s.rail.state.code && x.peek 0x0AC == s.rail.waitReason.code &&
  x.peek 0x0AD == flagByte s.rail.restartPending &&
  x.peek 0x1A == s.mon.watchdog.code && x.peek 0x13 == s.mon.lastRefusal.code &&
  x.peek 0x0AF == BitVec.ofNat 8 s.mon.ladderIndex &&
  ((List.range 8).all fun i =>
    (List.range 32).all fun j => x.peek (0x600 + 32 * i + j) == (recordAt s.mon.records i).getD j 0) &&
  x.peek16 0x14 == s.keypad.writeCounter.toNat && x.peek 0x18 == BitVec.ofNat 8 s.keypad.gap &&
  x.peek16 0x0C == x.summary.toNat && x.peek16 0x10 == x.enable.toNat &&
  x.peek16 0x08 + 65536 * x.peek16 0x0A == s.time.slotCount.toNat

/-- Every invariant together: what the statements about every step start from. -/
def State.sound (s : State) : Bool :=
  s.xmem.wf && s.railSafe && s.budgetKept && s.queueSound && s.slipsSound && s.profileSound && s.ladderBounded &&
    s.mirrored

/-! ### What tables of the manual say -/

/-- The temperatures of the fan curve strictly rise, as in every valid image (R177). -/
def curveRises (p : Image) : Prop := ∀ j < 7, Profile.curveTemp p j < Profile.curveTemp p (j + 1)

/-- The table of R43: the curve value of the control temperature `T` is `v`. -/
def curveReads (p : Image) (T v : Int) : Prop :=
  let t := Profile.curveTemp p
  let d := Profile.curveDuty p
  (T < t 0 → v = d 0) ∧ (t 7 < T → v = d 7) ∧ (∀ j < 8, T = t j → v = d j) ∧
    ∀ j < 7, t j < T → T < t (j + 1) → v = d j + ((d (j + 1) - d j) * (T - t j)).tdiv (t (j + 1) - t j)

/-- The curve value `c` of this boundary by R43: read at the larger of OUTLET and MODULE, at the one that is valid, or none
where neither is. -/
def State.curveNow (p : Image) (c : Option Nat) (s : State) : Prop :=
  match s.temp 1, s.temp 2 with
  | some a, some b => ∃ v, c = some v ∧ curveReads p (max a b) v
  | some a, none => ∃ v, c = some v ∧ curveReads p a v
  | none, some b => ∃ v, c = some v ∧ curveReads p b v
  | none, none => c = none

/-- The allotment of R32 over the requests and the available power that `t` holds, with the priority order of `p` written
as three different zones. -/
def State.allotted (p : Image) (t : State) : Prop :=
  ∀ a b c : Fin 3, u8 p 0x080 = a.val → u8 p 0x081 = b.val → u8 p 0x082 = c.val → a ≠ b → a ≠ c → b ≠ c →
    let share (z : Fin 3) (left : Nat) : Nat :=
      if Profile.zoneRating p z = 0 then 0 else min t.climate.zones[z].request (left / Profile.zoneRating p z)
    let left₁ := 64 * t.climate.available
    let left₂ := left₁ - Profile.zoneRating p a * share a left₁
    let left₃ := left₂ - Profile.zoneRating p b * share b left₂
    t.climate.zones[a].grant = share a left₁ ∧ t.climate.zones[b].grant = share b left₂ ∧
      t.climate.zones[c].grant = share c left₃

/-- A byte of an action word of the header that the host may write: attention acknowledge, attention enable, kick and key
read counter (R156, section 10.2). -/
def actionByte (a : Nat) : Bool := (0x0E ≤ a && a ≤ 0x12) || a == 0x16 || a == 0x17

/-- The host transitions of R164, as pairs of owner codes. -/
def ownerMoves : List (Byte × Byte) := [(0, 1), (0, 2), (1, 0), (2, 0), (3, 4), (5, 0), (5, 1)]

/-- The table of R156: whether the guard accepts the host byte `b` at address `a`. -/
def State.accepts (a : Nat) (b : Byte) (s : State) : Bool :=
  if actionByte a then true
  else if 0x100 ≤ a ∧ a < 0x500 then
    let owner := s.xmem.peek (0x100 + 64 * ((a - 0x100) / 64))
    if (a - 0x100) % 64 = 0 then ownerMoves.contains (owner, b) else owner == 0 || owner == 5
  else if 0x800 ≤ a ∧ a < 0xC00 then !s.store.stagingHeld
  else false

/-- How a field of an image is read (R182, section 10.8). -/
inductive FieldForm where
  | byte | signedByte | word | signedWord
deriving DecidableEq, Repr

/-- The value of the field at `k`. -/
def FieldForm.read (p : Image) (k : Nat) : FieldForm → Int
  | .byte => (p.getD k 0).toNat
  | .signedByte => (p.getD k 0).toInt
  | .word => (p.getD k 0).toNat + 256 * (p.getD (k + 1) 0).toNat
  | .signedWord => (p.getD k 0).toNat + 256 * (p.getD (k + 1) 0).toInt

/-- A field of an image with a fixed range: its offset, its form and its bounds. -/
abbrev FieldRange : Type := Nat × FieldForm × Int × Int

/-- The ranges of zone `z` (section 10.8, 0x050 + 16z). -/
def zoneRanges (z : Nat) : List FieldRange :=
  let b := 0x050 + 16 * z
  [(b, .byte, 0, 5), (b + 1, .byte, 0, 1), (b + 2, .word, 0, 2000), (b + 4, .byte, 0, 64), (b + 5, .byte, 0, 255),
    (b + 6, .byte, 0, 255), (b + 7, .byte, 0, 64), (b + 8, .signedWord, -400, 600), (b + 10, .signedWord, -400, 600),
    (b + 12, .signedWord, -400, 600), (b + 14, .signedWord, -400, 400)]

/-- The ranges of the five figures from 0x084 on (section 10.8). -/
def budgetRanges : List FieldRange :=
  [(0x084, .word, 200, 4800), (0x086, .word, 0, 3000), (0x088, .word, 0, 500), (0x08A, .word, 0, 1000),
    (0x08C, .word, 0, 200)]

/-- The ranges of fan `f` (section 10.8, 0x090 + 8f). -/
def fanRanges (f : Nat) : List FieldRange :=
  let b := 0x090 + 8 * f
  [(b, .word, 0, 600), (b + 2, .byte, 1, 4), (b + 3, .byte, 1, 10), (b + 4, .word, 100, 5000)]

/-- The ranges of the probe's and the rail's fields (section 10.8, 0x0B8 to 0x0EA). -/
def railRanges : List FieldRange :=
  [(0x0B8, .byte, 20, 100), (0x0BA, .word, 30, 900), (0x0BC, .word, 16, 240), (0x0BE, .word, 0, 720),
    (0x0C0, .word, 101, 400), (0x0C2, .word, 101, 999), (0x0D0, .byte, 0, 1), (0x0D2, .word, 0, 600),
    (0x0D4, .word, 60, 7200), (0x0D6, .byte, 0, 1), (0x0D8, .signedWord, -400, 600), (0x0DA, .signedWord, -400, 1000),
    (0x0DC, .signedWord, 0, 1250), (0x0DE, .byte, 1, 10), (0x0DF, .byte, 1, 255), (0x0E0, .byte, 1, 255),
    (0x0E1, .byte, 1, 30), (0x0E2, .word, 10, 900), (0x0E4, .byte, 0, 255), (0x0E5, .byte, 1, 255),
    (0x0E6, .word, 1, 600), (0x0E8, .word, 500, 16000), (0x0EA, .byte, 2, 10)]

/-- The ranges of the monitor's and the keypad's fields (section 10.8, 0x100 to 0x138). -/
def watchdogAndKeyRanges : List FieldRange :=
  [(0x100, .byte, 0, 1), (0x101, .byte, 0, 1), (0x102, .word, 10, 3600), (0x104, .byte, 0, 60),
    (0x106, .signedWord, -400, 400), (0x108, .word, 1, 3600), (0x10A, .word, 1, 600), (0x10C, .word, 0, 3599),
    (0x10E, .word, 1, 1440), (0x110, .byte, 1, 6), (0x128, .word, 8, 1023), (0x12A, .word, 4, 1022),
    (0x12C, .word, 0, 1023), (0x12E, .byte, 1, 255), (0x12F, .byte, 1, 4), (0x130, .word, 0, 1023),
    (0x132, .word, 10, 200), (0x134, .word, 5, 600), (0x136, .byte, 8, 255), (0x137, .byte, 4, 255),
    (0x138, .word, 16, 640)]

/-- `n` fields of one form and one range, `step` bytes apart from offset `k` on. -/
def rowRanges (n k step : Nat) (form : FieldForm) (low high : Int) : List FieldRange :=
  (List.range n).map fun i => (k + step * i, form, low, high)

/-- The fields of an image that have a fixed range, each with its offset, its form and its bounds (R177 check 4, section
10.8). -/
def fieldRanges : List FieldRange :=
  [rowRanges 33 0x004 2 .signedWord (-2000) 3000, rowRanges 6 0x046 1 .signedByte (-50) 50,
    (List.range 3).flatMap zoneRanges, budgetRanges, (List.range 2).flatMap fanRanges,
    rowRanges 8 0x0A0 2 .signedWord (-550) 1250, rowRanges 8 0x0B0 1 .byte 0 100, railRanges,
    rowRanges 4 0x0EC 1 .byte 0 1, rowRanges 4 0x0F0 1 .byte 0 5, watchdogAndKeyRanges].flatten

/-- The field whose first byte is at `k` lies outside its range (R177 check 4, R183): one of `fieldRanges`, the priority
order (zone numbers), a ladder step below the ladder length, the scan period, the power key (or none), or the member list
of a chord: its keys first and 0xFF after them, and not one key alone. -/
def fieldFails (p : Image) (k : Nat) : Bool :=
  let b (i : Nat) : Nat := (p.getD i 0).toNat
  (fieldRanges.any fun f => f.1 == k && !(f.2.2.1 ≤ f.2.1.read p k && f.2.1.read p k ≤ f.2.2.2)) ||
    (k == 0x080 && (2 < b 0x080 || 2 < b 0x081 || 2 < b 0x082)) ||
    (0x111 ≤ k && k < 0x117 && k - 0x111 < b 0x110 && !(1 ≤ b k && b k ≤ 3)) ||
    (k == 0x126 && !(b k == 1 || b k == 2 || b k == 4)) ||
    (k == 0x127 && 24 ≤ b k && b k != 0xFF) ||
    ((k == 0x13A || k == 0x13D || k == 0x140 || k == 0x143) &&
      !((b k < 24 && b (k + 1) < 24 && (b (k + 2) < 24 || b (k + 2) == 0xFF)) ||
        (b k == 0xFF && b (k + 1) == 0xFF && b (k + 2) == 0xFF)))

/-- The number of members that chord `c`'s list holds. -/
def listedMembers (p : Image) (c : Nat) : Nat :=
  ((List.range 3).filter fun i => (p.getD (0x13A + 3 * c + i) 0).toNat < 24).length

/-- The cross-field conditions of the table of R177, in its order, each with the offset of the field it reports and
whether it holds. -/
def crossConditions (p : Image) : List (Nat × Bool) :=
  let b (i : Nat) : Nat := (p.getD i 0).toNat
  let w (i : Nat) : Nat := b i + 256 * b (i + 1)
  let sw (i : Nat) : Int := FieldForm.signedWord.read p i
  [(0x080, b 0x080 != b 0x081 && b 0x080 != b 0x082 && b 0x081 != b 0x082)] ++
  ((List.range 32).map fun i => (0x006 + 2 * i, decide (sw (0x006 + 2 * i) < sw (0x004 + 2 * i)))) ++
  ((List.range 7).map fun j => (0x0A2 + 2 * j, decide (sw (0x0A0 + 2 * j) < sw (0x0A2 + 2 * j)))) ++
  [(0x0C2, decide (w 0x0C0 ≤ w 0x0C2)), (0x12A, decide (w 0x12A < w 0x128)), (0x12C, decide (w 0x12C ≤ w 0x12A))] ++
  ((List.range 4).map fun c =>
    let k := 0x13A + 3 * c
    (k, b k == 0xFF || (b k != b (k + 1) && b k != b (k + 2) && b (k + 1) != b (k + 2)))) ++
  [(0x12F, (List.range 4).all fun c => listedMembers p c ≤ b 0x12F), (0x10C, decide (w 0x10C < w 0x108)),
    (0x0DC, decide (sw 0x0DA < sw 0x0DC))]

/-- The checks 1 to 3 of R177. -/
def headPasses (p : Image) (check : Nat) : Prop :=
  (check = 1 → crc16 (p.take 1022) = u16 p 1022) ∧ (check = 2 → u8 p 0 = 3) ∧ (check = 3 → u16 p 2 = 1024)

/-- R177 rejects the image `p`, reporting the byte offset `k` and the number `check`: every check before it passes, and it
fails first at `k`. -/
def imageRejected (p : Image) (k check : Nat) : Prop :=
  (∀ n < check, headPasses p n) ∧
    ((check = 1 ∧ k = 1022 ∧ ¬headPasses p 1) ∨ (check = 2 ∧ k = 0 ∧ ¬headPasses p 2) ∨
      (check = 3 ∧ k = 2 ∧ ¬headPasses p 3) ∨
      (check = 4 ∧ fieldFails p k = true ∧ ∀ a < k, fieldFails p a = false) ∨
      (check = 5 ∧ (∀ a < 1024, fieldFails p a = false) ∧
        ((crossConditions p).find? fun c => !c.2) = some (k, false)))

/-- R177 accepts the image `p`. -/
def imageAccepted (p : Image) : Prop :=
  (∀ n < 4, headPasses p n) ∧ (∀ a < 1024, fieldFails p a = false) ∧ ∀ c ∈ crossConditions p, c.2 = true

/-! ### What an event leaves in the exchange memory -/

/-- The bytes from address `a` on, as the blocks see them, are `bs`. -/
def Exchange.shows (a : Nat) (bs : List Byte) (x : Exchange) : Prop := ∀ i < bs.length, x.peek (a + i) = bs.getD i 0

/-- Address `a` lies in none of the ranges `rs`, each a first address and a length. -/
def outside (rs : List (Nat × Nat)) (a : Nat) : Bool := rs.all fun r => a < r.1 || r.1 + r.2 ≤ a

/-- From `x` on the part has written bytes of the ranges `rs` alone and raised the causes `causes` alone: every other byte
reads as before, and the link flags, the enable and the frame in progress are as they were. -/
def Exchange.partWrote (rs : List (Nat × Nat)) (causes : BitVec 12) (x y : Exchange) : Prop :=
  y = { x with
        mem := y.mem
        frame := { x.frame with held := y.frame.held }
        summary := x.summary ||| causes } ∧
    ∀ a < memorySize, outside rs a = true → y.peek a = x.peek a

/-- From `x` on a host frame has ended that changed bytes of the ranges `rs` alone, its landing and its delivery together,
that refused nothing, overran nothing and raised the causes `causes` alone. No READ frame is open after it. -/
def Exchange.frameWrote (rs : List (Nat × Nat)) (causes : BitVec 12) (x y : Exchange) : Prop :=
  y.ready = x.ready ∧ y.refused = x.refused ∧ y.range = x.range ∧ y.enable = x.enable ∧
    y.summary = x.summary ||| causes ∧ y.frame.phase = .idle ∧ y.frame.covered = none ∧ y.frame.held = [] ∧
    ∀ a < memorySize, outside rs a = true → y.peek a = x.peek a

/-! ### What a cut, a record and a clearing leave -/

/-- The header shows the watchdog state, and the live page its remaining seconds at slot count `now` (R124): in GRACE,
WATCHING and WARNED the slots to stage end ÷ 64, rounded up, and 0 in any other state. -/
def State.watchdogShown (now : SlotCount) (t : State) : Prop :=
  let left : Nat := (t.mon.stageEnd.map fun e => ((e - now).toNat + 63) / 64).getD 0
  let runs : Bool := t.mon.watchdog == .grace || t.mon.watchdog == .watching || t.mon.watchdog == .warned
  t.xmem.peek 0x1A = t.mon.watchdog.code ∧ t.xmem.shows 0x0B0 (le16 (if runs then left else 0))

/-- The restart record region shows the records (R118, section 10.6). -/
def State.recordsShown (t : State) : Prop := ∀ i < 8, t.xmem.shows (0x600 + 32 * i) (recordAt t.mon.records i)

/-- The rail has gone off at slot count `e` (R78, R85): into COOLDOWN with the given restart pending and off time, or, for
none, into LOCKOUT. Every line is released, every timer of the state left is stopped, the overrides are removed (R21), and
the monitor takes the change by R104: an EXPIRED watchdog stays in COOLDOWN and is DORMANT in LOCKOUT, any other that leaves
RUNNING is DORMANT, and in LOCKOUT pending record is none. Of the monitor, only the fields that records and the ladder move
may differ beside these. The header and the live page show the new states (R98, R124). -/
def State.railWentOff (target : Option (Bool × Nat)) (e : SlotCount) (s t : State) : Prop :=
  t.rail =
      { s.rail with
        state := if target.isSome then .cooldown else .lockout
        railEn := false, hrst := false, hpwrbtn := false, pulse := none, pgoodLimit := none, resetHold := none,
        stopLimit := none, resetDelay := none, resetWidth := none, overcurrentCount := 0, sleepCount := 0,
        restartPending := (target.map Prod.fst).getD false
        offTime := (target.map Prod.snd).getD s.rail.offTime
        offTimer :=
          match target with
          | some (_, off) => some (after e off)
          | none => s.rail.offTimer } ∧
    t.climate = { s.climate with zones := tab 3 fun z => { s.climate.zones[z] with override := none } } ∧
    t.mon =
      { s.mon with
        watchdog :=
          if s.mon.watchdog = .expired then (if target.isSome then .expired else .dormant)
          else if s.rail.state = .running then .dormant else s.mon.watchdog
        stageEnd := if s.rail.state = .running ∧ s.mon.watchdog ≠ .expired then none else s.mon.stageEnd
        stableEnd := if s.rail.state = .running then none else s.mon.stableEnd
        pendingRecord := if target.isSome then s.mon.pendingRecord else none
        ladderIndex := t.mon.ladderIndex, lastRefusal := t.mon.lastRefusal, recordCounter := t.mon.recordCounter,
        records := t.mon.records } ∧
    t.xmem.peek 0x19 = t.rail.state.code ∧ t.xmem.peek 0x0AD = flagByte t.rail.restartPending ∧ t.watchdogShown e

/-- A restart record has been added (R118, R119): newest first, at most eight, with the next number, and shown in exchange
memory; the last refusal has been taken into it, and the header shows NONE. -/
def State.recordAdded (e : SlotCount) (cause : RestartCause) (action : RecordAction) (indexBefore : Nat)
    (before : RailState) (s t : State) : Prop :=
  t.mon.recordCounter = (if s.mon.recordCounter = 65535 then 1 else s.mon.recordCounter + 1) ∧
    t.mon.lastRefusal = .noRefusal ∧ t.xmem.peek 0x13 = 0 ∧
    t.mon.records =
      List.take 8
        ({ number := t.mon.recordCounter, cause := cause, action := action, indexBefore := indexBefore,
           lateKick := false, lastRefusal := s.mon.lastRefusal, moduleTemp := (s.temp 2).getD 0,
           moduleValid := (s.temp 2).isSome, outsideTemp := (s.temp 5).getD 0, outsideValid := (s.temp 5).isSome,
           railBefore := before, slot := e } :: s.mon.records) ∧
    t.recordsShown

/-- The bytes that a cut with a restart record writes: the summary, the last refusal, the rail and watchdog states,
restart pending, the ladder index, the remaining seconds and the records (R98, R118, R124, R160). -/
def cutBytes : List (Nat × Nat) :=
  [(0x0C, 2), (0x13, 1), (0x19, 2), (0x0AD, 1), (0x0AF, 1), (0x0B0, 2), (0x600, 256)]

/-- A failure of the host has been answered (R79, R114, R115): the action of the ladder at the old index, WARM carried out
as COLD, the index advanced, the record, and the rail off. -/
def State.failed (p : Image) (cause : RestartCause) (e : SlotCount) (s t : State) : Prop :=
  let i := s.mon.ladderIndex
  let lock : Bool := i < Profile.ladderLength p → Profile.ladderStep p i = .lockout
  t.mon.ladderIndex = (if i < Profile.ladderLength p then i + 1 else i) ∧
    t.xmem.peek 0x0AF = BitVec.ofNat 8 t.mon.ladderIndex ∧
    s.recordAdded e cause (if lock then .lockout else .cold) i s.rail.state t ∧
    s.railWentOff (if lock then none else some (true, Profile.minimumOff p * 64)) e t ∧
    s.xmem.partWrote cutBytes Cause.restartNote.bit t.xmem ∧
    t = { s with rail := t.rail, mon := t.mon, climate := t.climate, xmem := t.xmem }

/-- A cut that is not a failure has been made (R95): the record notice, the ladder unmoved, and COOLDOWN. -/
def State.cutNoticed (cause : RestartCause) (restart : Bool) (off : Nat) (e : SlotCount) (s t : State) : Prop :=
  t.mon.ladderIndex = s.mon.ladderIndex ∧
    s.recordAdded e cause (if restart then .cold else .off) s.mon.ladderIndex s.rail.state t ∧
    s.railWentOff (some (restart, off)) e t ∧ s.xmem.partWrote cutBytes Cause.restartNote.bit t.xmem ∧
    t = { s with rail := t.rail, mon := t.mon, climate := t.climate, xmem := t.xmem }

/-- The boot grace in seconds at `s` (R102). -/
def State.graceNow (p : Image) (s : State) : Nat :=
  let cold := max 0 (Profile.graceReference p - (s.temp 2).getD (-400))
  min 3600 (Profile.graceBase p + Profile.coldGrace p * cold.toNat / 10)

/-- The monitor after the armed flag becomes `b` at slot count `now` (R121, R102). -/
def State.armedAs (p : Image) (b : Bool) (now : SlotCount) (s : State) : Monitor :=
  let m := s.mon
  let arms : Bool := b && !m.armed && m.watchdog == .dormant && s.rail.state == .running
  let stops : Bool := !b && m.armed && m.watchdog != .expired && m.watchdog != .dormant
  { m with
    armed := b
    watchdog := if arms then (if m.hsleep then .paused else .grace) else if stops then .dormant else m.watchdog
    pausedFrom := if arms && m.hsleep then .grace else m.pausedFrom
    expected := if arms && !m.hsleep then none else m.expected
    stageEnd :=
      if arms then (if m.hsleep then none else some (after now (s.graceNow p * 64)))
      else if stops then none else m.stageEnd }

/-- The monitor after host restart clearing at slot count `now` (R122). -/
def State.monitorCleared (p : Image) (now : SlotCount) (s : State) : Monitor :=
  { s.armedAs p (Profile.watchdogArmed p) now with runtimeSet := Profile.stages p, expected := none }

/-- The monitor after the rail has left RUNNING for RESETTING, with the clearing of that entry (R86, R104, R122): EXPIRED
stays, any other watchdog is DORMANT, and only the fields that records and the ladder move may differ beside these. -/
def State.monitorReset (p : Image) (s t : State) : Prop :=
  t.mon =
    { s.mon with
      watchdog := if s.mon.watchdog = .expired then .expired else .dormant
      stageEnd := if s.mon.watchdog = .expired then s.mon.stageEnd else none
      stableEnd := none, runtimeSet := Profile.stages p, armed := Profile.watchdogArmed p, expected := none
      ladderIndex := t.mon.ladderIndex, lastRefusal := t.mon.lastRefusal, recordCounter := t.mon.recordCounter,
      records := t.mon.records }

/-- Host restart clearing has reached every block (R41, R64, R122, R148, R162, R174), with the causes `causes` raised
before it in the same event. -/
def State.hostCleared (p : Image) (causes : BitVec 12) (s t : State) : Prop :=
  (∀ z : Fin 3, t.climate.zones[z] = { s.climate.zones[z] with override := none }) ∧
    t.climate = { s.climate with zones := t.climate.zones, answer := t.climate.answer } ∧
    (∀ f : Fin 2, t.air.fans[f] = { s.air.fans[f] with floor := none }) ∧
    t.air =
      { s.air with
        fans := t.air.fans
        probe :=
          { s.air.probe with
            stopPending :=
              s.air.probe.stopPending || s.air.probe.phase == .waiting || s.air.probe.phase == .settle ||
                s.air.probe.phase == .measure } } ∧
    t.mon.runtimeSet = Profile.stages p ∧ t.mon.armed = Profile.watchdogArmed p ∧ t.mon.expected = none ∧
    t.mon.inForce = s.mon.inForce ∧ t.mon.lastKick = s.mon.lastKick ∧
    t.keypad =
      { s.keypad with
        readCounter := s.keypad.writeCounter, gap := 0,
        stopPending := s.keypad.stopPending || s.keypad.rebaseline.isSome } ∧
    t.engine.storeSlot = none ∧ t.engine.airSlot = none ∧ t.engine.keypadSlot = none ∧ t.engine.lastServed = 15 ∧
    t.store = s.store ∧ t.sense = s.sense ∧ t.time = s.time ∧ t.xmem.enable = 0xFFF ∧
    t.xmem.summary = (s.xmem.summary ||| causes) &&& 0x180 ∧
    (∀ a < 0x500, 0x100 ≤ a → t.xmem.peek a = 0) ∧ t.xmem.shows 0x16 (le16 s.keypad.writeCounter.toNat ++ [0]) ∧
    t.xmem.shows 0x10 [0xFF, 0x0F]

/-- The rail has entered RUNNING at slot count `e` (R76, R86, R103): HRST# is released, the stable time begins, and the
watchdog is in GRACE with the boot grace of R102, in PAUSED while HSLEEP is asserted, or DORMANT while not armed. -/
def State.enteredRunning (p : Image) (e : SlotCount) (s t : State) : Prop :=
  t.rail =
      { s.rail with
        state := .running, hrst := false, pgoodLimit := none, resetHold := none, resetDelay := none,
        resetWidth := none } ∧
    t.mon =
      { s.mon with
        hsleep := s.rail.hsleep, pendingRecord := none, stableEnd := some (after e (Profile.stableTime p * 3840)),
        watchdog := if s.mon.armed then (if s.rail.hsleep then .paused else .grace) else .dormant
        pausedFrom := if s.mon.armed && s.rail.hsleep then .grace else s.mon.pausedFrom
        stageEnd := if s.mon.armed && !s.rail.hsleep then some (after e (s.graceNow p * 64)) else none
        expected := if s.mon.armed && !s.rail.hsleep then none else s.mon.expected } ∧
    t.xmem.peek 0x19 = 3 ∧ t.watchdogShown e ∧ s.xmem.partWrote [(0x19, 2), (0x0B0, 2)] 0 t.xmem ∧
    t = { s with rail := t.rail, mon := t.mon, xmem := t.xmem }

/-! ### What a slot start leaves -/

/-- No input becomes active or inactive between `s` and `t` (R89). -/
def State.inputsSteady (p : Image) (s t : State) : Prop := ∀ k : Fin 4, t.inputActive p k = s.inputActive p k

/-- No slot is POSTED. -/
def State.nonePosted (s : State) : Prop := ∀ n : Fin 16, s.xmem.ownerIs n.val .posted = false

/-- The slot that the binding `b` names, if one, names no other slot that is CHAINED: its completion promotes none (R171). -/
def State.unchained (b : Option (Fin 16)) (s : State) : Prop :=
  ∀ n, b = some n → ∀ m : Fin 16, m ≠ n → (s.xmem.peek (slotAddr n.val + 3)).toNat = m.val →
    s.xmem.ownerIs m.val .chained = false

/-- A boundary promotes no slot by the probe: only the last boundary of a measurement completes it with OK (R55, R57), and
there the slip, if one, names no CHAINED slot. -/
def State.probePromotesNone (s : State) : Prop :=
  s.air.probe.phase ≠ .measure ∨ 1 < s.air.probe.windowsLeft ∨ s.unchained s.engine.airSlot

/-- An event at which the keys `leaves` leave calibration promotes no slot by the rebaseline: none is in flight, some key of
its set does not leave so, or its slip, if one, names no CHAINED slot (R145, R146). -/
def State.rebaselinePromotesNone (leaves : Fin 24 → Bool) (s : State) : Prop :=
  s.keypad.rebaseline = none ∨
    (s.keypad.rebaseline.any fun set => (List.finRange 24).any fun k =>
      set.getLsbD k.val && s.keypad.keys[k].state == .calibrating && !leaves k) = true ∨
    s.unchained s.engine.keypadSlot

/-- The engine takes no slip at a boundary with no commit armed (R167, R171): it has served its slot, or no slot is POSTED
and none is promoted. -/
def State.boundaryTakesNone (s : State) : Prop := s.engine.served = true ∨ (s.nonePosted ∧ s.probePromotesNone)

/-- The same at a boundary that brings the profile `new` into force: neither the commit's slip (R180) nor a rebaseline that
the keys it disables leave (R149) promotes a slot. -/
def State.activationTakesNone (old new : Image) (s : State) : Prop :=
  s.engine.served = true ∨
    (s.nonePosted ∧ s.probePromotesNone ∧ s.unchained s.engine.storeSlot ∧
      s.rebaselinePromotesNone fun k => Profile.keyEnabled old k && !Profile.keyEnabled new k)

/-- The same at a scan end at which the keys `leaves` finish their calibration (R144). -/
def State.scanTakesNone (leaves : Fin 24 → Bool) (s : State) : Prop :=
  s.engine.served = true ∨ (s.nonePosted ∧ s.rebaselinePromotesNone leaves)

/-- The gate has been judged in WARMING with the warming age `age` (R72 to R74): warm counts, start request, budget refused
and wait reason, with the inputs as `t` has taken them. -/
def State.gateJudged (p : Image) (age : Nat) (s t : State) : Prop :=
  let gate (z : Fin 3) : Bool := Profile.zoneFitted p z && Profile.gateMember p z
  let value (z : Fin 3) : Option Int := s.temp (Profile.zoneSensor p z)
  let above (z : Fin 3) : Bool := (value z).any fun x => Profile.startThreshold p z ≤ x
  let count (z : Fin 3) : Nat := if gate z && above z then min 38400 (s.rail.warmCount[z] + 1) else 0
  let bypass : Bool := Profile.bypassEnable p && (s.temp 5).any fun x => Profile.bypassTemp p ≤ x
  let warm (z : Fin 3) : Bool :=
    if (value z).isSome then above z && decide (Profile.dwell p * 64 ≤ count z)
    else decide (Profile.blindWarmTime p * 64 ≤ age)
  let zones : Bool := (List.finRange 3).all fun z => !gate z || bypass || warm z
  let hot : Bool := ((s.temp 2).or (s.temp 1)).any fun x => Profile.hotStartLimit p ≤ x
  let held : Bool := (List.finRange 4).any fun k => Profile.inputRoute p k == .hold && t.inputActive p k
  let isOpen : Bool := zones && !hot && !held
  let wait : WaitReason :=
    if held then .hold else if hot then .hot else if !zones then .cold
    else if s.rail.budgetRefused then .budget else .noWait
  t.rail.state = .warming ∧ t.rail.warmingAge = age ∧ (∀ z : Fin 3, t.rail.warmCount[z] = count z) ∧
    t.rail.startRequest = isOpen ∧ t.rail.budgetRefused = (s.rail.budgetRefused && isOpen) ∧
    t.rail.waitReason = wait ∧ t.xmem.peek 0x0AC = wait.code

/-- A failure of the host has been answered at slot count `e` (R78, R79, R114, R119), other work of the same event beside
it. -/
def State.failureAnswered (p : Image) (cause : RestartCause) (e : SlotCount) (s t : State) : Prop :=
  let i := s.mon.ladderIndex
  let lock : Bool := i < Profile.ladderLength p → Profile.ladderStep p i = .lockout
  t.rail.state = (if lock then .lockout else .cooldown) ∧ t.rail.railEn = false ∧ t.rail.hrst = false ∧
    t.rail.hpwrbtn = false ∧
    (lock = false → t.rail.restartPending = true ∧ t.rail.offTime = Profile.minimumOff p * 64 ∧
      t.rail.offTimer = some (after e (Profile.minimumOff p * 64))) ∧
    t.mon.ladderIndex = (if i < Profile.ladderLength p then i + 1 else i) ∧
    (t.mon.records.head?.any fun r =>
      r.cause == cause && r.indexBefore == i && r.railBefore == s.rail.state &&
        r.action == (if lock then .lockout else .cold) && r.slot == e) = true ∧
    t.recordsShown

/-- STARTING has watched a sample of PGOOD (R76, R77). -/
def State.startingWatched (p : Image) (pgood : Bool) (now : SlotCount) (s t : State) : Prop :=
  let stays (hold : Option SlotCount) : Prop :=
    t.rail.state = .starting ∧ t.rail.resetHold = hold ∧ t.rail.pgoodLimit = s.rail.pgoodLimit ∧
      t.rail.railEn = s.rail.railEn ∧ t.rail.hrst = s.rail.hrst ∧ t.mon.records = s.mon.records
  (pgood = true → stays (some (s.rail.resetHold.getD (after now (Profile.resetHold p))))) ∧
    (pgood = false → s.rail.resetHold = none ∨ s.rail.pgoodLimit.isSome = true → stays none) ∧
    (pgood = false → s.rail.resetHold.isSome = true → s.rail.pgoodLimit = none →
      s.failureAnswered p .noPowergood now t)

/-- The monitor has taken a sample of HSLEEP in RUNNING (R69, R113): a change pauses or resumes the watchdog. -/
def State.hsleepTaken (p : Image) (level : Bool) (now : SlotCount) (s t : State) : Prop :=
  let m := s.mon
  let stops : Bool := level && (m.watchdog == .grace || m.watchdog == .watching || m.watchdog == .warned)
  let resumes : Bool := !level && m.watchdog == .paused
  let intoGrace : Bool := resumes && m.pausedFrom == .grace
  t.mon =
    if level = s.rail.hsleep then m
    else
      { m with
        hsleep := level
        watchdog := if stops then .paused else if intoGrace then .grace else if resumes then .watching else m.watchdog
        pausedFrom := if stops then (if m.watchdog = .grace then .grace else .watching) else m.pausedFrom
        expected := if intoGrace then none else m.expected
        stageEnd :=
          if stops then none
          else if resumes then some (after now ((if intoGrace then s.graceNow p else m.inForce.s1) * 64))
          else m.stageEnd }

/-- Input `k` alone has changed, in a slot whose sample of PGOOD does not act on the rail, and its route has acted on it
(R90, R91, with R71, R84, R92 and R95). -/
def State.routeTaken (p : Image) (k : Fin 4) (now : SlotCount) (s t : State) : Prop :=
  let route := Profile.inputRoute p k
  let rises := t.inputActive p k
  let acts : Bool :=
    rises &&
      ((route == .start && (s.rail.state == .off || s.rail.state == .cooldown)) ||
        (route == .stop && s.rail.state == .running) ||
        (route == .cut && (s.rail.state.isOn || s.rail.state == .warming || s.rail.state == .cooldown)))
  t.xmem.peek 0x0AE = t.inputsByte p ∧
    t.xmem.summary &&& Cause.inputNote.bit =
      (if route = .note then Cause.inputNote.bit else s.xmem.summary &&& Cause.inputNote.bit) ∧
    (acts = false → t.rail.state = s.rail.state ∧ t.rail.restartPending = s.rail.restartPending ∧
      t.mon.records = s.mon.records) ∧
    (rises = true → route = .start → s.rail.state = .off →
      t.rail.state = .warming ∧ t.rail.warmingAge = 0 ∧ t.rail.restartPending = false ∧ t.xmem.peek 0x19 = 1) ∧
    (rises = true → route = .start → s.rail.state = .cooldown →
      t.rail.state = .cooldown ∧ t.rail.restartPending = true) ∧
    (rises = true → route = .stop → s.rail.state = .running →
      t.rail.state = .stopping ∧ t.rail.stopRestart = 0 ∧ t.rail.sleepCount = 0 ∧
        t.rail.stopLimit = some (after now (Profile.stopLimit p * 64)) ∧
        t.rail.pulse = some (s.rail.pulse.getD (after now (Profile.pulseWidth p))) ∧
        t.rail.hpwrbtn = (s.rail.hpwrbtn || s.rail.pulse.isNone) ∧
        t.mon.watchdog = (if s.mon.watchdog = .expired then .expired else .dormant) ∧
        t.xmem.summary &&& Cause.stopAsked.bit = Cause.stopAsked.bit) ∧
    (rises = true → route = .cut → s.rail.state.isOn = true →
      t.rail.state = .cooldown ∧ t.rail.railEn = false ∧ t.rail.hrst = false ∧ t.rail.hpwrbtn = false ∧
        t.rail.restartPending = false ∧ t.rail.offTime = Profile.minimumOff p * 64 ∧
        t.rail.offTimer = some (after now (Profile.minimumOff p * 64)) ∧ t.mon.ladderIndex = s.mon.ladderIndex ∧
        (t.mon.records.head?.any fun r =>
          r.cause == .inputCut && r.action == .off && r.railBefore == s.rail.state && r.slot == now) = true ∧
        t.recordsShown) ∧
    (rises = true → route = .cut → s.rail.state = .warming →
      t.rail.state = .off ∧ t.rail.startRequest = false ∧ t.rail.waitReason = .noWait ∧
        t.mon.records = s.mon.records) ∧
    (rises = true → route = .cut → s.rail.state = .cooldown →
      t.rail.state = .cooldown ∧ t.rail.restartPending = false ∧ t.mon.records = s.mon.records)

/-- The keypad controller has decided about a scan at slot count `now`, with the edge set `edges` (R127). -/
def State.scanDecided (p : Image) (now : SlotCount) (edges : Option (List Nat)) (s t : State) : Prop :=
  let n := now.toNat % 64
  let asked : Bool := n % Profile.scanPeriod p == 0 || s.keypad.deferred
  let barred : Bool := edges.any fun es => es.contains n
  if (List.finRange 24).all (fun k => !Profile.keyEnabled p k) then
    t.keypad.deferred = false ∧ t.keypad.scan = s.keypad.scan
  else if edges.isSome ∧ asked then
    t.keypad.deferred = barred ∧ t.keypad.scan = (if barred then s.keypad.scan else some now)
  else t.keypad.deferred = s.keypad.deferred ∧ t.keypad.scan = s.keypad.scan

/-! ### What a completion leaves of the slip table -/

/-- The slots that a chain reaches from a slot that names `m` next, while `chained` says which are CHAINED: `m` if it is
CHAINED, then the next slot it names if that is, and so on for `rounds` slots (R172). -/
def Exchange.chainFrom (chained : Nat → Bool) (x : Exchange) : Nat → Nat → List Nat
  | 0, _ => []
  | rounds + 1, m =>
    if chained m then m :: Exchange.chainFrom chained x rounds (x.peek (slotAddr m + 3)).toNat else []

/-- Slot `n`, whose first 32 bytes were `body`, has been completed with `r` (R170 to R172). The slot holds the body, DONE,
the result, and LINK_IDLE where R171 sets it. After an OK its next slot, if CHAINED, is POSTED, and the other CHAINED slots
stay. After any other code every slot of the chain that begins at its next slot is completed with CHAIN_BROKEN, naming `n`,
and the CHAINED slots outside the chain stay. A slot that is not CHAINED keeps all its bytes. -/
def Exchange.slotCompleted (n : Fin 16) (body : List Byte) (r : SlipResult) (x y : Exchange) : Prop :=
  let next := (body.getD 3 0).toNat
  let chained (k : Nat) : Bool := decide (k < 16) && k != n.val && x.ownerIs k .chained
  let linkIdle : Bool := r.code == .ok && decide (next < 16) && !chained next
  let broken : List Nat := if r.code = .ok then [] else x.chainFrom chained 16 next
  y.shows (slotAddr n.val)
      (Owner.done.code :: (body.drop 1).take 5 ++ [r.code.code, r.detail ||| (if linkIdle then 0x80 else 0)] ++
        body.drop 8) ∧
    y.shows (slotAddr n.val + 0x20) (payloadBytes r.payload) ∧
    ∀ k : Fin 16, k ≠ n →
      (k.val ∈ broken →
        y.peek (slotAddr k.val) = Owner.done.code ∧ y.shows (slotAddr k.val + 6) [ResultCode.chainBroken.code, 0] ∧
          y.shows (slotAddr k.val + 0x20) (payloadBytes [BitVec.ofNat 8 n.val]) ∧
          ∀ i < 32, 0 < i → i ≠ 6 → i ≠ 7 → y.peek (slotAddr k.val + i) = x.peek (slotAddr k.val + i)) ∧
      (k.val ∉ broken →
        y.peek (slotAddr k.val) =
            (if r.code = .ok ∧ k.val = next ∧ chained k.val = true then Owner.posted.code
             else x.peek (slotAddr k.val)) ∧
          ∀ i < 64, 0 < i → y.peek (slotAddr k.val + i) = x.peek (slotAddr k.val + i))

/-- The first 32 bytes of slot `n` (section 10.4). -/
def Exchange.slotBody (n : Fin 16) (x : Exchange) : List Byte := (List.range 32).map fun i => x.peek (slotAddr n.val + i)

/-! ### What a boundary leaves of the probe -/

/-- The bytes of slot `n` show a completion with the given result (R170): DONE, the code and the payload. -/
def Exchange.showsResult (n : Fin 16) (code : ResultCode) (payload : List Byte) (x : Exchange) : Prop :=
  x.peek (slotAddr n.val) = Owner.done.code ∧ x.peek (slotAddr n.val + 6) = code.code ∧
    x.shows (slotAddr n.val + 0x20) (payloadBytes payload)

/-- The probe is one of a slip's (R52). -/
def Probe.bySlip (pr : Probe) : Bool := pr.origin == some .probeAirflow || pr.origin == some .resetFilterReference

/-- A probe has ended at a boundary without completing (R58, R60). -/
def State.probeEnded (reason : AbortReason) (s t : State) : Prop :=
  let pr := s.air.probe
  t.air.probe =
      { pr with
        phase := .idle, lastAbort := reason, riseSum := 0, powerSum := 0, referenceDraw := none, windowsLeft := 0,
        stopPending := false, replacedDue := false } ∧
    t.air.clogIndex = s.air.clogIndex ∧ t.air.clogLimit = s.air.clogLimit ∧
    t.air.elapsed = min 2592000 (s.air.elapsed + 1) ∧
    t.air.retry = (if pr.bySlip && !pr.replacedDue then s.air.retry - 1 else 3600) ∧
    t.xmem.shows 0x0AA [ProbePhase.idle.code, reason.code] ∧
    ∀ n, s.engine.airSlot = some n → pr.bySlip = true →
      t.engine.airSlot = none ∧ t.xmem.showsResult n (if reason = .stopped then .stopped else .aborted) [] ∧
        t.xmem.peek (slotAddr n.val + 7) = (if reason = .stopped then 0 else reason.code)

/-- A probe has completed at a boundary with the sums `rise` and `power` over `windows` windows (R57, R59, R60, R62). -/
def State.probeCompleted (p : Image) (now : SlotCount) (windows : Nat) (rise : Int) (power : Nat) (s t : State) : Prop :=
  let pr := s.air.probe
  let fig : ProbeFigures :=
    { rf := (rise * 1000 / power).toNat, averageRise := rise / windows, averageDraw := power / windows }
  let reset : Bool := pr.origin == some .resetFilterReference
  let reference := s.air.filterReference
  let c : Nat :=
    if reset then s.air.clogIndex else if reference = 0 then 0xFFFF else min 999 (fig.rf * 100 / reference)
  let judged : Bool := !reset && reference != 0
  let warn : Bool := judged && decide (Profile.clogWarn p ≤ c)
  let limit : Bool := warn && decide (Profile.clogLimit p ≤ c)
  t.air.probe.phase = (if reset then .writing else .idle) ∧ t.air.probe.figures = fig ∧
    t.air.probe.lastAbort = pr.lastAbort ∧ t.air.probe.replacedDue = false ∧
    t.air.elapsed = 0 ∧ t.air.retry = 0 ∧ t.air.clogIndex = c ∧
    t.air.clogLimit = (if judged then limit else s.air.clogLimit) ∧
    t.xmem.shows 0x0A8 (le16 c ++ [t.air.probe.phase.code, pr.lastAbort.code]) ∧
    t.xmem.summary &&& Cause.clogWarn.bit = (if warn then Cause.clogWarn.bit else s.xmem.summary &&& Cause.clogWarn.bit) ∧
    t.xmem.summary &&& Cause.clogLimit.bit =
      (if limit then Cause.clogLimit.bit else s.xmem.summary &&& Cause.clogLimit.bit) ∧
    t.store =
      (if reset then
         { s.store with
           service := if s.store.commit = .idle then .writing else .waiting
           serviceRf := fig.rf
           writeBegan := if s.store.commit = .idle then some now else s.store.writeBegan }
       else s.store) ∧
    ∀ n, s.engine.airSlot = some n → pr.origin = some .probeAirflow →
      t.engine.airSlot = none ∧
        t.xmem.showsResult n .ok (le16 fig.rf ++ le16 c ++ sle16 fig.averageRise ++ le16 fig.averageDraw)

/-- The first reason of R56 that ends a probe in SETTLE or MEASURE with the held probe duty `duty`; the faults are those the
boundary's stage 2 leaves, which `t` shows. -/
def State.endReason (p : Image) (duty : Nat) (s t : State) : Option AbortReason :=
  let average := s.sense.railAverage
  if s.air.probe.stopPending then some .stopped
  else if s.rail.state ≠ .running then some .rail
  else if (s.temp 0).isNone ∨ (s.temp 1).isNone then some .sensor
  else if t.air.fans[(0 : Fin 2)].fault ∨ t.air.fans[(1 : Fin 2)].fault then some .fan
  else if (List.finRange 3).any fun z => 0 < s.climate.zones[z].grant then some .heat
  else if duty < (s.controlTemp.map (curveValue p)).getD 0 then some .hot
  else if s.air.probe.referenceDraw.any fun r => 4 * average < 3 * r || 5 * r < 4 * average then some .load
  else none

/-- The start conditions of R53, with the faults that `t` shows. -/
def State.startAllowed (p : Image) (s t : State) : Bool :=
  s.rail.state == .running && ((List.finRange 3).all fun z => s.climate.zones[z].grant == 0) &&
    !t.air.fans[(0 : Fin 2)].fault && !t.air.fans[(1 : Fin 2)].fault && (s.temp 0).isSome && (s.temp 1).isSome &&
    decide ((s.controlTemp.map (curveValue p)).getD 0 ≤ Profile.probeDuty p)

/-- The probe has moved as a boundary moves it (R53 to R60). -/
def State.probeMoved (p : Image) (now : SlotCount) (s t : State) : Prop :=
  let pr := s.air.probe
  let counted : Prop := t.air.elapsed = min 2592000 (s.air.elapsed + 1) ∧ t.air.retry = s.air.retry - 1
  (pr.phase = .idle →
      t.air.probe.phase = (if s.air.due p && s.startAllowed p t then .settle else .idle) ∧ counted) ∧
    (pr.phase = .waiting → pr.stopPending = true → s.probeEnded .stopped t) ∧
    (pr.phase = .waiting → pr.stopPending = false → s.rail.state ≠ .running → s.probeEnded .rail t) ∧
    (pr.phase = .waiting → pr.stopPending = false → s.rail.state = .running →
      t.air.probe.phase = (if s.startAllowed p t then .settle else .waiting) ∧ counted) ∧
    (pr.phase = .writing → t.air.probe = pr ∧ counted) ∧
    ∀ held, pr.heldParams = some held →
      (∀ reason, s.endReason p held.probeDuty t = some reason → (pr.phase = .settle ∨ pr.phase = .measure) →
        s.probeEnded reason t) ∧
      (s.endReason p held.probeDuty t = none → pr.phase = .settle →
        t.air.probe =
            { pr with
              referenceDraw := some (pr.referenceDraw.getD s.sense.railAverage)
              phase := if pr.windowsLeft - 1 = 0 then .measure else .settle
              windowsLeft := if pr.windowsLeft - 1 = 0 then held.measureTime else pr.windowsLeft - 1 } ∧ counted) ∧
      (s.endReason p held.probeDuty t = none → pr.phase = .measure →
        let rise := pr.riseSum + ((s.temp 1).getD 0 - (s.temp 0).getD 0)
        let power := pr.powerSum + s.sense.railAverage
        (pr.windowsLeft - 1 ≠ 0 →
          t.air.probe = { pr with riseSum := rise, powerSum := power, windowsLeft := pr.windowsLeft - 1 } ∧ counted) ∧
        (pr.windowsLeft - 1 = 0 → power < 100 * held.measureTime → s.probeEnded .lowLoad t) ∧
        (pr.windowsLeft - 1 = 0 → 100 * held.measureTime ≤ power → rise ≤ 0 → s.probeEnded .noRise t) ∧
        (pr.windowsLeft - 1 = 0 → 100 * held.measureTime ≤ power → 0 < rise →
          s.probeCompleted p now held.measureTime rise power t))

/-! ### What a boundary leaves of the live page and of the rest -/

/-- The live page shows what a boundary writes (R38, R45 stage 7, section 10.3): each zone's effective setpoint, request and
grant, A and H, and each fan's effective duty and fault. -/
def State.boundaryShown (t : State) : Prop :=
  (∀ z : Fin 3,
      t.xmem.shows (0x070 + 8 * z.val)
        (sle16 t.climate.zones[z].effective ++
          [BitVec.ofNat 8 t.climate.zones[z].request, BitVec.ofNat 8 t.climate.zones[z].grant])) ∧
    t.xmem.shows 0x088 (le16 t.climate.available ++ le16 t.climate.hostAllowance) ∧
    ∀ f : Fin 2, t.xmem.shows (0x098 + 8 * f.val) [BitVec.ofNat 8 t.air.fans[f].duty, flagByte t.air.fans[f].fault]

/-- The bytes of the live page that a boundary writes (R38, R45 stage 7). -/
def boundaryBytes : List (Nat × Nat) :=
  [(0x070, 4), (0x078, 4), (0x080, 4), (0x088, 4), (0x098, 2), (0x0A0, 2), (0x0A8, 4)]

/-- The slip table, and the summary that its completions raise SLIP_DONE in, where `b` says that one is made. -/
def slipBytes (b : Bool) : List (Nat × Nat) := if b then [(0x0C, 2), (0x100, 0x400)] else []

/-- The causes that a boundary raises besides SLIP_DONE: FAN_FAULT where a fan enters fault (R50), and the clog causes where
a probe that is no reset completes against a reference (R57, R59). A completion sets elapsed to 0, and every other boundary
counts it up (R60). -/
def State.boundaryCauses (p : Image) (s t : State) : BitVec 12 :=
  let faulted : Bool := (List.finRange 2).any fun f => t.air.fans[f].fault && !s.air.fans[f].fault
  let judged : Bool :=
    s.air.probe.phase == .measure && t.air.elapsed == 0 && s.air.probe.origin != some .resetFilterReference &&
      s.air.filterReference != 0
  let warn : Bool := judged && decide (Profile.clogWarn p ≤ t.air.clogIndex)
  let limit : Bool := warn && decide (Profile.clogLimit p ≤ t.air.clogIndex)
  (if faulted then Cause.fanFault.bit else 0) ||| (if warn then Cause.clogWarn.bit else 0) |||
    (if limit then Cause.clogLimit.bit else 0)

/-- A boundary at which the engine takes no slip has changed nothing but its work (R16, R31, R45): the boundary is taken, the
zones, the allotment and the answer, the fans and the probe with its schedule, the edge slots and the decision about a scan,
the store where a reference is handed over (R62), and the slip a probe's end reports to (R170). Overrides, floors and the
filter reference stay. Of exchange memory it writes its figures, and the summary and the slip table where a cause is raised
or the slip completes. -/
def State.boundaryFramed (p : Image) (s t : State) : Prop :=
  let reported : Bool := s.engine.airSlot.isSome && t.engine.airSlot.isNone
  let causes := s.boundaryCauses p t
  t =
      { s with
        time := { s.time with boundaryTaken := true }
        climate := t.climate, air := t.air
        keypad :=
          { s.keypad with edgeSet := t.keypad.edgeSet, deferred := t.keypad.deferred, scan := t.keypad.scan }
        engine := { s.engine with airSlot := t.engine.airSlot }
        store :=
          { s.store with
            service := t.store.service, serviceRf := t.store.serviceRf, writeBegan := t.store.writeBegan }
        xmem := t.xmem } ∧
    (∀ z : Fin 3, t.climate.zones[z].override = s.climate.zones[z].override) ∧
    (∀ f : Fin 2, t.air.fans[f].floor = s.air.fans[f].floor) ∧ t.air.filterReference = s.air.filterReference ∧
    t.xmem.shows 0x0A8 (le16 t.air.clogIndex ++ [t.air.probe.phase.code, t.air.probe.lastAbort.code]) ∧
    s.xmem.partWrote (boundaryBytes ++ [(0x0C, if causes = 0 then 0 else 2)] ++ slipBytes reported)
      (causes ||| (if reported then Cause.slipDone.bit else 0)) t.xmem

/-- The same at a boundary that brings the profile `new` into force (R180, R99, R123, R147, R149): the rail keeps all but the
override, the monitor all but the ladder index, and exchange memory is written in the header flags, the ladder index and the
inputs, the detail of the keys that it disables, and the slip table besides. The causes before it stay. -/
def State.activationFramed (old new : Image) (s t : State) : Prop :=
  t =
      { s with
        time := { s.time with boundaryTaken := true }
        climate := t.climate, air := t.air, keypad := t.keypad, engine := t.engine, store := t.store
        rail := { s.rail with override := t.rail.override }
        mon := { s.mon with ladderIndex := t.mon.ladderIndex }
        xmem := t.xmem } ∧
    (∀ z : Fin 3, t.climate.zones[z].override = s.climate.zones[z].override) ∧
    (∀ f : Fin 2, t.air.fans[f].floor = s.air.fans[f].floor) ∧ t.air.filterReference = s.air.filterReference ∧
    (t.mon.ladderIndex ≠ s.mon.ladderIndex → t.xmem.peek 0x0AF = BitVec.ofNat 8 t.mon.ladderIndex) ∧
    t.xmem.peek 0x0AE = t.inputsByte new ∧
    t.xmem.shows 0x0A8 (le16 t.air.clogIndex ++ [t.air.probe.phase.code, t.air.probe.lastAbort.code]) ∧
    s.xmem.partWrote
      (boundaryBytes ++ slipBytes true ++ [(0x04, 1), (0x0AE, 2)] ++
        ((List.finRange 24).filter fun k => Profile.keyEnabled old k && !Profile.keyEnabled new k).map fun k =>
          (0x706 + 8 * k.val, 1))
      t.xmem.summary t.xmem

/-! ### What a new profile and a scan leave of the keypad -/

/-- The keypad controller has taken up the profile `new` (R149, R133, R147), with the notice that a touched power key's
end sends the rail controller (R93, R140). -/
def State.keypadAdopted (old new : Image) (s t : State) : Prop :=
  let lost (k : Fin 24) : Bool := Profile.keyEnabled old k && !Profile.keyEnabled new k
  let joins (k : Fin 24) : Bool := !Profile.keyEnabled old k && Profile.keyEnabled new k
  let touched (k : Fin 24) : Bool := s.keypad.keys[k].state.isTouched
  let notice (k : Fin 24) : Bool :=
    touched k &&
      ((lost k && (Profile.powerKey new == some k || Profile.powerKey old == some k)) ||
        (!lost k && !joins k && Profile.powerKey old == some k && Profile.powerKey new != some k))
  (∀ k : Fin 24,
      t.keypad.keys[k] =
        { s.keypad.keys[k] with
          state := if lost k then .idle else if joins k then .calibrating else s.keypad.keys[k].state
          calSum := if lost k || joins k then 0 else s.keypad.keys[k].calSum
          calCount := if lost k || joins k then 0 else s.keypad.keys[k].calCount
          touchTime := if lost k && touched k then none else s.keypad.keys[k].touchTime
          nextHold :=
            if (lost k && touched k) || !Profile.repeating new k then none else s.keypad.keys[k].nextHold }) ∧
    (∀ c : Fin 4,
      t.keypad.chords[c] =
        if chordsChanged old new || (Profile.chordMembers new c).any fun k => lost k && touched k then
          { fired := false, holdEnd := none }
        else s.keypad.chords[c]) ∧
    t.rail = { s.rail with override := if (List.finRange 24).any notice then none else s.rail.override } ∧
    (∀ k : Fin 24, lost k = true → t.xmem.peek (0x706 + 8 * k.val) = KeyState.idle.code) ∧
    t.keypad.fog = s.keypad.fog ∧ t.keypad.writeCounter = s.keypad.writeCounter ∧
    t.keypad.readCounter = s.keypad.readCounter ∧ t.keypad.gap = s.keypad.gap

/-- What a new profile leaves of a rebaseline in flight (R145, R149): the keys that it disables leave the set, and where no
key of what is left is in CALIBRATING, the rebaseline ends with OK, its slip DONE with the mask of what is left and its
CHAINED next slot, if one, POSTED (R170, R171). Beside slips of the other blocks that end in the same event (log entry 39),
what is said of the slots holds where those blocks' bindings name other slots. -/
def State.rebaselineAdopted (old new : Image) (s t : State) : Prop :=
  (s.keypad.rebaseline = none →
      t.keypad.rebaseline = none ∧ t.keypad.stopPending = s.keypad.stopPending ∧
        t.engine.keypadSlot = s.engine.keypadSlot) ∧
    ∀ set left, s.keypad.rebaseline = some set →
      (∀ k : Fin 24, left.getLsbD k.val =
        (set.getLsbD k.val && !(Profile.keyEnabled old k && !Profile.keyEnabled new k))) →
      let goesOn : Bool :=
        (List.finRange 24).any fun k => left.getLsbD k.val && t.keypad.keys[k].state == .calibrating
      (goesOn = true →
          t.keypad.rebaseline = some left ∧ t.keypad.stopPending = s.keypad.stopPending ∧
            t.engine.keypadSlot = s.engine.keypadSlot) ∧
        (goesOn = false →
          t.keypad.rebaseline = none ∧ t.keypad.stopPending = false ∧ t.engine.keypadSlot = none ∧
            ∀ n, s.engine.keypadSlot = some n → s.engine.storeSlot ≠ some n → s.engine.airSlot ≠ some n →
              t.xmem.showsResult n .ok (maskPayload left) ∧
                t.xmem.summary &&& Cause.slipDone.bit = Cause.slipDone.bit ∧
                ∀ m : Fin 16, m ≠ n → (s.xmem.peek (slotAddr n.val + 3)).toNat = m.val →
                  s.xmem.ownerIs m.val .chained = true → s.engine.storeSlot ≠ some m → s.engine.airSlot ≠ some m →
                    t.xmem.ownerIs m.val .posted = true)

/-- What REBASELINE KEYS leaves of the touches of the keys `ends`, each a touched key that it names (R144, R133, R142): a
RELEASE_FORCED for each is offered to the key queue in ascending key number (log entry 40), every chord with such a key is
ARMED with chord end none, and the power key's touch end stops the override time. `rs` is what else the frame wrote. -/
def State.touchesForced (p : Image) (ends : Fin 24 → Bool) (rs : List (Nat × Nat)) (s t : State) : Prop :=
  let u := (List.finRange 24).foldl
    (fun (x : State) k =>
      if ends k then x.offer s.time.slotCount .releaseForced (BitVec.ofNat 8 k.val) else x) s
  t.keypad =
      { s.keypad with
        keys := t.keypad.keys, rebaseline := t.keypad.rebaseline, stopPending := t.keypad.stopPending
        writeCounter := u.keypad.writeCounter, gap := u.keypad.gap
        chords := tab 4 fun c =>
          if (Profile.chordMembers p c).any ends then { fired := false, holdEnd := none } else s.keypad.chords[c] } ∧
    t.rail =
      { s.rail with override := if (Profile.powerKey p).any ends then none else s.rail.override } ∧
    t = { s with keypad := t.keypad, rail := t.rail, engine := t.engine, xmem := t.xmem } ∧
    (∀ a < 0x600, (0x14 ≤ a ∧ a ≤ 0x18) ∨ 0x500 ≤ a → t.xmem.peek a = u.xmem.peek a) ∧
    s.xmem.frameWrote ((0x0C, 2) :: (0x14, 2) :: (0x18, 1) :: (0x500, 0x100) :: rs) u.xmem.summary t.xmem

/-- A stop pending on a rebaseline takes key `k` out of calibration at a scan end: the key is in the rebaseline set and in
CALIBRATING (R146). -/
def State.stopsKey (k : Fin 24) (s : State) : Bool :=
  s.keypad.stopPending && (s.keypad.rebaseline.any fun m => m.getLsbD k.val) && s.keypad.keys[k].state == .calibrating

/-- Key `k` finishes its calibration at an accepted scan end: it is enabled, no stop takes it out, and this is its eighth scan
(R144, R146). -/
def State.finishesKey (p : Image) (s : State) (k : Fin 24) : Bool :=
  Profile.keyEnabled p k && !s.stopsKey k && s.keypad.keys[k].calCount + 1 == 8

/-- What a scan end leaves of a rebaseline (R145, R146, R170). It ends with STOPPED where its stop is pending and some key
of its set was in CALIBRATING, with the mask of the keys that were not; it ends with OK where the scan leaves no key of the
set in CALIBRATING, with the mask of the set; else it goes on. At an end the set and the stop are gone, the binding is none,
and the slot it named, if one, is completed. -/
def State.rebaselineScanned (s t : State) : Prop :=
  let ended (code : ResultCode) (mask : BitVec 24) : Prop :=
    t.keypad.rebaseline = none ∧ t.keypad.stopPending = false ∧ t.engine = { s.engine with keypadSlot := none } ∧
      ∀ n, s.engine.keypadSlot = some n →
        s.xmem.slotCompleted n (s.xmem.slotBody n) { code := code, detail := 0, payload := maskPayload mask } t.xmem
  let goesOn : Prop :=
    t.keypad.rebaseline = s.keypad.rebaseline ∧ t.keypad.stopPending = s.keypad.stopPending ∧ t.engine = s.engine
  let stops : Bool := (List.finRange 24).any fun k => s.stopsKey k
  (s.keypad.rebaseline = none → goesOn) ∧
    ∀ set, s.keypad.rebaseline = some set →
      let left : Bool :=
        (List.finRange 24).any fun k => set.getLsbD k.val && t.keypad.keys[k].state == .calibrating
      (stops = true →
        ended .stopped
          ((List.finRange 24).foldl
            (fun m k => if set.getLsbD k.val && !s.stopsKey k then m ||| (1#24 <<< k.val) else m) 0)) ∧
        (stops = false → left = false → ended .ok set) ∧ (stops = false → left = true → goesOn)

/-- The cause that a scan end raises by completing a rebaseline's slip (R145, R146, R170). -/
def State.rebaselineCause (s t : State) : BitVec 12 :=
  if s.keypad.rebaseline.isSome && t.keypad.rebaseline.isNone && s.engine.keypadSlot.isSome then Cause.slipDone.bit else 0

/-- The event that key `k` gives at an accepted scan end at slot count `n` with the count `raw` (R131, R132, R134). -/
def State.keyEvent (p : Image) (n : SlotCount) (k : Fin 24) (raw : Nat) (s : State) : Option EntryKind :=
  let old := s.keypad.keys[k]
  let delta : Int := (raw : Int) - (old.baseline : Int)
  let pressed : Bool := ((Profile.touchThreshold p + if s.keypad.fog then Profile.fogAdd p else 0 : Nat) : Int) ≤ delta
  let kept : Bool := (Profile.releaseThreshold p : Int) ≤ delta
  let forced : Option EntryKind :=
    if old.touchTime.any fun m => Profile.stuckLimit p * 64 ≤ (n - m).toNat then some .releaseForced else none
  if Profile.keyEnabled p k then
    match old.state with
    | .pressing2 => if pressed then some .press else none
    | .touched => forced
    | .releasing1 => forced
    | .releasing2 => if kept then forced else some .release
    | .idle => none
    | .pressing1 => none
    | .calibrating => none
  else none

/-- The drift count of an enabled key after an accepted scan end (R130, R132, R134, R144, R146). -/
def State.driftAfter (p : Image) (n : SlotCount) (k : Fin 24) (raw : Nat) (s : State) : Nat :=
  let old := s.keypad.keys[k]
  let delta : Int := (raw : Int) - (old.baseline : Int)
  let pressed : Bool := ((Profile.touchThreshold p + if s.keypad.fog then Profile.fogAdd p else 0 : Nat) : Int) ≤ delta
  if old.state = .idle then
    if pressed = false ∧ -(Profile.releaseThreshold p : Int) < delta ∧ delta.natAbs < Profile.noiseBand p ∧
        old.drift + 1 < Profile.driftPeriod p then old.drift + 1
    else 0
  else if old.state = .calibrating then (if s.stopsKey k = false ∧ old.calCount + 1 = 8 then 0 else old.drift)
  else if old.state.isTouched ∧ (s.keyEvent p n k raw).isSome then 0
  else old.drift

/-- The touch time, next hold and calibration of each enabled key, and each chord, after an accepted scan end at slot count
`n` (R131 to R134, R138, R144, R146). -/
def State.touchesMoved (p : Image) (n : SlotCount) (counts : Vector (BitVec 12) 24) (s t : State) : Prop :=
  let event (k : Fin 24) : Option EntryKind := s.keyEvent p n k counts[k].toNat
  let ended (k : Fin 24) : Bool := event k == some .release || event k == some .releaseForced
  (∀ k : Fin 24, Profile.keyEnabled p k = true →
      let old := s.keypad.keys[k]
      let calibrating : Bool := old.state == .calibrating && !s.stopsKey k
      let done : Bool := calibrating && old.calCount + 1 == 8
      t.keypad.keys[k].drift = s.driftAfter p n k counts[k].toNat ∧
        t.keypad.keys[k].touchTime = (if event k = some .press then some n else if ended k then none else old.touchTime) ∧
        t.keypad.keys[k].nextHold =
          (if event k = some .press then
             (if Profile.repeating p k then some (after n (Profile.holdDelay p)) else none)
           else if ended k then none else old.nextHold) ∧
        t.keypad.keys[k].calSum =
          (if done || s.stopsKey k then 0 else if calibrating then old.calSum + counts[k].toNat else old.calSum) ∧
        t.keypad.keys[k].calCount =
          (if done || s.stopsKey k then 0 else if calibrating then old.calCount + 1 else old.calCount)) ∧
    ∀ c : Fin 4,
      t.keypad.chords[c] =
        if (Profile.chordMembers p c).any ended then { fired := false, holdEnd := none }
        else if ((Profile.chordMembers p c).any fun k => event k == some .press) && Profile.chordDefined p c &&
            !s.keypad.chords[c].fired && (Profile.chordMembers p c).all fun k => t.keypad.keys[k].state.isTouched then
          { s.keypad.chords[c] with holdEnd := some (after n (Profile.chordHold p)) }
        else s.keypad.chords[c]

/-- The events of an accepted scan have been offered to the key queue in ascending key number, each as `State.offer` says
(R128, R141, R142); the summary also has the SLIP_DONE of a rebaseline that ends. -/
def State.eventsOffered (p : Image) (n : SlotCount) (counts : Vector (BitVec 12) 24) (s t : State) : Prop :=
  let u := (List.finRange 24).foldl
    (fun (x : State) k =>
      match s.keyEvent p n k counts[k].toNat with
      | some e => x.offer n e (BitVec.ofNat 8 k.val)
      | none => x) s
  t.keypad.writeCounter = u.keypad.writeCounter ∧ t.keypad.readCounter = s.keypad.readCounter ∧
    t.keypad.gap = u.keypad.gap ∧ t.xmem.summary = u.xmem.summary ||| s.rebaselineCause t ∧
    ∀ a < 0x600, (0x14 ≤ a ∧ a ≤ 0x18) ∨ 0x500 ≤ a → t.xmem.peek a = u.xmem.peek a

/-- The rail controller has been told what the power key did in an accepted scan (R140, R92, R93). -/
def State.powerKeyTold (p : Image) (n : SlotCount) (counts : Vector (BitVec 12) 24) (s t : State) : Prop :=
  let event := (Profile.powerKey p).bind fun k => s.keyEvent p n k counts[k].toNat
  let pulses : Bool := s.rail.state == .running && s.rail.pulse.isNone
  (event = none → t.rail = s.rail ∧ t.mon = s.mon) ∧
    (event = some .press →
      t.rail.override = some (after n (Profile.overrideTime p * 64)) ∧
        t.rail.state = (if s.rail.state = .off then .warming else s.rail.state) ∧
        t.rail.hpwrbtn = (s.rail.hpwrbtn || pulses) ∧
        t.rail.pulse = (if pulses then some (after n (Profile.pulseWidth p)) else s.rail.pulse) ∧ t.mon = s.mon ∧
        (s.rail.state ≠ .off →
          t.rail = { s.rail with override := t.rail.override, hpwrbtn := t.rail.hpwrbtn, pulse := t.rail.pulse })) ∧
    (event = some .release ∨ event = some .releaseForced →
      t.rail = { s.rail with override := none } ∧ t.mon = s.mon)

/-! ### A slip that is taken at once -/

/-- The engine can take a slip that the host posts into slot `n` now: a profile is active and READY is set (R158), the
served flag is clear (R167), slot `n` is FREE or DONE (R164), and no other slot is POSTED. -/
def State.takesNow (n : Fin 16) (s : State) : Bool :=
  s.store.active.isSome && s.xmem.ready && !s.engine.served &&
    (s.xmem.ownerIs n.val .free || s.xmem.ownerIs n.val .done) &&
    (List.finRange 16).all fun m => m == n || !s.xmem.ownerIs m.val .posted

/-- The frame that posts the slip `body` into slot `n` has ended, and slot `n` is completed with `r` (R167, R168, R170 to
R172). Outside the slip table only the summary's copy and the bytes of `rs` are written. -/
def Exchange.slipDone (n : Fin 16) (body : List Byte) (r : SlipResult) (rs : List (Nat × Nat)) (causes : BitVec 12)
    (x y : Exchange) : Prop :=
  x.slotCompleted n body r y ∧
    y.ready = x.ready ∧ y.refused = x.refused ∧ y.range = x.range ∧ y.enable = x.enable ∧
    y.summary = (x.summary ||| Cause.slipDone.bit) ||| causes ∧ y.frame.covered = none ∧ y.frame.held = [] ∧
    ∀ a < memorySize, outside ((0x0C, 2) :: (0x100, 0x400) :: rs) a = true → y.peek a = x.peek a

/-- The frame that posts the slip `body` into slot `n` has ended, and slot `n` is TAKEN with its result fields 0 (R169);
every other byte is as before. -/
def Exchange.slipTaken (n : Fin 16) (body : List Byte) (x y : Exchange) : Prop :=
  y.shows (slotAddr n.val) (Owner.taken.code :: (body.drop 1).take 5 ++ [0, 0] ++ body.drop 8) ∧
    y.shows (slotAddr n.val + 0x20) (List.replicate 32 0) ∧
    x.frameWrote [(slotAddr n.val, 64)] 0 y

/-- Slot `n` comes first among the POSTED slots (R167): none has a higher priority, and none of its own priority is met
before it in the order that begins after last served. -/
def State.firstPosted (n : Fin 16) (s : State) : Prop :=
  let rank (k : Fin 16) : Nat := min 3 (s.xmem.peek (slotAddr k.val + 2)).toNat
  let place (k : Fin 16) : Nat := (k.val + 15 - s.engine.lastServed.val) % 16
  s.xmem.ownerIs n.val .posted = true ∧
    ∀ k : Fin 16, s.xmem.ownerIs k.val .posted = true → rank k < rank n ∨ (rank k = rank n ∧ place n ≤ place k)

/-- The engine after it has taken slot `n` (R167). -/
def Engine.afterTake (n : Fin 16) (e : Engine) : Engine := { e with served := true, lastServed := n }

end Sys2Proof.Machine
end

