-- ==== Sys2Proof/Certificates/Slice0/Obligations.lean ====
section
/-!
DEFINITION. The statements for the provers, each over every state and every operand its hypotheses admit. `partWrote`,
`frameWrote`, `railWentOff` and the other pictures of an outcome stand in Safety.lean. `peek` reads one byte as the blocks
see it, so a frame over `peek` is a frame over every byte of the exchange memory.
-/

open Sys2Proof Sys2Proof.Machine

/-- A step runs the command at the front of the queue and leaves the rest. The queue is the model's own (log entry 1):
a step runs the front command on the state with the queue's rest, an empty queue idles, and no command touches the
queue. -/
def Obligations.StepTakesTheFrontCommand : Prop :=
    (∀ (s : State) (c : Instr) (rest : List Instr), s.pending = c :: rest → step s =
      exec c { s with pending := rest }) ∧
    (∀ s : State, s.pending = [] → step s = .next s) ∧
    ∀ (s : State) (c : Instr), ∃ t, exec c s = .next t ∧ t.pending = s.pending

/-- After reset every block holds its power-on values and the invariants hold. The power-on values of R1, R11, R13,
R15, R17, R42, R52, R60, R66, R67, R89, R100, R118, R125, R126, R150, R151, R159, R161, R166 and R175, and the
invariants. -/
def Obligations.ResetValues : Prop :=
    let s := State.reset
    s.time.slotCount = 0 ∧
    (∀ k : Fin 6, s.sense.channels[k] = { lastCode := none, accepted := none, pendingValue := none, fault := false }) ∧
    s.sense.railVoltage = 0 ∧ s.sense.railCurrent = 0 ∧ s.sense.railAverage = 0 ∧
    (∀ z : Fin 3,
      s.climate.zones[z] =
          { integrator := 0, request := 0, grant := 0, heldHigh := false, override := none, effective := 0 } ∧
        s.climate.heaters[z] = false) ∧
    s.climate.hostAllowance = 0 ∧ s.climate.available = 0 ∧
    (∀ f : Fin 2,
      s.air.fans[f] =
        { duty := 0, floor := none, kickAge := none, period := 1000000, timing := false, rpm := 0, stallCount := 0,
          goodCount := 0, fault := false, output := 0 }) ∧
    s.air.probe.phase = .idle ∧ s.air.probe.origin = none ∧ s.air.probe.heldParams = none ∧
    s.air.probe.riseSum = 0 ∧ s.air.probe.powerSum = 0 ∧ s.air.probe.referenceDraw = none ∧
    s.air.probe.stopPending = false ∧ s.air.probe.replacedDue = false ∧ s.air.probe.lastAbort = .noReason ∧
    s.air.clogLimit = false ∧ s.air.elapsed = 0 ∧ s.air.retry = 0 ∧
    s.rail.state = .off ∧ s.rail.restartPending = false ∧ s.rail.startRequest = false ∧
    s.rail.budgetRefused = false ∧ s.rail.waitReason = .noWait ∧ s.rail.stopRestart = 0 ∧ s.rail.warmingAge = 0 ∧
    s.rail.overcurrentCount = 0 ∧ s.rail.sleepCount = 0 ∧ s.rail.pgoodLimit = none ∧ s.rail.resetHold = none ∧
    s.rail.stopLimit = none ∧ s.rail.resetDelay = none ∧ s.rail.resetWidth = none ∧ s.rail.offTimer = none ∧
    s.rail.pulse = none ∧ s.rail.override = none ∧ s.rail.railEn = false ∧ s.rail.hrst = false ∧
    s.rail.hpwrbtn = false ∧ (∀ z : Fin 3, s.rail.warmCount[z] = 0) ∧
    (∀ k : Fin 4, s.rail.inputs[k] = { lastSample := none, agree := 0, taken := none }) ∧
    s.mon.watchdog = .dormant ∧ s.mon.armed = false ∧ s.mon.pausedFrom = .grace ∧ s.mon.hsleep = false ∧
    s.mon.stageEnd = none ∧ s.mon.expected = none ∧ s.mon.lastKick = none ∧ s.mon.lastRefusal = .noRefusal ∧
    s.mon.ladderIndex = 0 ∧ s.mon.stableEnd = none ∧ s.mon.pendingRecord = none ∧ s.mon.recordCounter = 0 ∧
    s.mon.records = [] ∧
    (∀ k : Fin 24,
      s.keypad.keys[k] =
        { state := .calibrating, baseline := 0, raw := 0, drift := 0, touchTime := none, nextHold := none,
          calSum := 0, calCount := 0 }) ∧
    s.keypad.fog = true ∧ s.keypad.edgeSet = none ∧ s.keypad.deferred = false ∧ s.keypad.writeCounter = 0 ∧
    s.keypad.readCounter = 0 ∧ s.keypad.gap = 0 ∧ s.keypad.rebaseline = none ∧ s.keypad.stopPending = false ∧
    (∀ c : Fin 4, s.keypad.chords[c] = { fired := false, holdEnd := none }) ∧
    s.xmem.frame =
      { phase := .idle, command := none, addressCounter := 0, addressBytes := 0, buffer := [], held := [],
        latched := none, covered := none } ∧
    s.xmem.ready = false ∧ s.xmem.refused = false ∧ s.xmem.range = false ∧ s.xmem.summary = 0 ∧
    s.xmem.enable = 0xFFF ∧ s.xmem.attn = false ∧
    s.xmem.peek 0x00 = 0x10 ∧ s.xmem.peek 0x01 = 0x24 ∧ s.xmem.peek 0x02 = 0x01 ∧ s.xmem.peek 0x03 = 0x03 ∧
    s.xmem.shows 0x10 [0xFF, 0x0F] ∧
    (∀ a < memorySize, outside [(0x00, 4), (0x10, 2)] a = true → s.xmem.peek a = 0) ∧
    s.engine = { lastServed := 15, served := false, storeSlot := none, airSlot := none, keypadSlot := none } ∧
    s.store.commit = .idle ∧ s.store.service = .idle ∧ s.store.stagingHeld = false ∧ s.store.active = none ∧
    s.sound = true

/-- POWER_ON and BROWN_OUT return everything but the nonvolatile areas to reset. R1, R15, R42, R66, R100, R125, R150,
R159, R166 and R175: power-on, and the same effect at a fall of the supply; R181 for a record whose write was cut off.
The supply's return, the bytes of a torn write and the reset values that no rule gives, Rref and C before the load among
them, are the model's choice (log entries 27, 6 and 4). -/
def Obligations.PowerOnAndBrownOutReset : Prop :=
  ∀ (s : State),
      ∃ t, exec .powerOn s = .next t ∧
        t = { State.reset with
          store :=
            { State.reset.store with
              storedImage := t.store.storedImage, serviceRecord := t.store.serviceRecord }
          fresh := t.fresh
          pending := s.pending } ∧
        (¬(s.store.commit = .programming ∧ s.store.service ≠ .writing) → t.store.storedImage = s.store.storedImage) ∧
        (s.store.service ≠ .writing → t.store.serviceRecord = s.store.serviceRecord) ∧
        (s.store.service = .writing → serviceReference t.store.serviceRecord = 0) ∧
        exec .brownOut s = .next { t with supplyLow := true }

/-- PROFILE_LOAD makes a valid stored image, or the factory profile, active. R176 with R177, with what each block
begins with (R52, R70, R100, R126) and the service record of R181. The factory flag by origin is the model's reading
(log entry 22). -/
def Obligations.ProfileLoadStartsThePart : Prop :=
  ∀ (s : State) (p : Image) (valid : Bool),
    s.store.active = none →
    s.xmem.wf = true →
    s.rail.state = .off →
    valid = validImage s.store.storedImage →
    p = (if valid then s.store.storedImage else factoryImage) →
      ∃ t, exec .profileLoad s = .next t ∧
        t.store = { s.store with active := some p, factoryActive := !valid } ∧
        t.xmem.ready = true ∧
        t.xmem.peek 0x04 = (if valid then 1 else 3) ∧
        t.xmem.summary = (if valid then s.xmem.summary else s.xmem.summary ||| Cause.profileDefaulted.bit) ∧
        (let record := s.store.serviceRecord
         let reference := if crc16 (record.take 30) = u16 record 30 then u16 record 0 else 0
         t.air =
                   { s.air with
                     filterReference := reference
                     clogIndex := if reference = 0 then 0xFFFF else 100 }) ∧
        t.mon =
          { s.mon with
            armed := Profile.watchdogArmed p, runtimeSet := Profile.stages p, inForce := Profile.stages p } ∧
        (∀ k : Fin 24, t.keypad.keys[k] = if Profile.keyEnabled p k then s.keypad.keys[k] else
          { s.keypad.keys[k] with state := .idle }) ∧
        t.rail.state = (if Profile.autostart p then .warming else .off) ∧
        (Profile.autostart p = false → t.rail = s.rail) ∧
        t.xmem.peek 0x19 = (if Profile.autostart p then 1 else s.xmem.peek 0x19) ∧
        (∀ a < memorySize, outside [(0x04, 1), (0x0C, 2), (0x19, 2), (0x0AC, 2), (0x0B0, 3)] a = true →
          t.xmem.peek a = s.xmem.peek a) ∧
        t.time = s.time ∧
        t.sense = s.sense ∧
        t.engine = s.engine ∧
        (validImage s.store.storedImage = true ↔ imageAccepted s.store.storedImage)

/-- SLOT_START counts and samples, drives the heaters, judges the gate, acts on PGOOD, HSLEEP and inputs, and decides
the scan. R15, R33, R69 and R89, R12 for the window sum, R2 and R11 for the conversions of the new slot, R127 for the
scan, R124 for the remaining seconds, R71 to R74 for the gate, R76, R77 and R79 for STARTING, R85 for the sleep count,
R86 for RESETTING, R113 with R102 for HSLEEP, R90, R91, R84, R92 and R95 for the routes. A route is judged where the
sample of PGOOD does not act on the rail: while it is asserted, and in the rail-off states at either level. One of the
clauses is the frame of a slot in which nothing else falls. The order of the blocks' work, the window sum cleared
here, the one judgement of an entry's slot start, the order of PGOOD and HSLEEP, the whole clause of STOPPING, in
which the rail stays at the sleep hold until SLEEP_HOLD_END and a count beyond a shortened hold comes down, and the
route HOLD read from the active profile at each judgement are the model's choice (log entries 17, 33, 8, 36, 19, 37
and 48). -/
def Obligations.SlotStartCountsAndSamples : Prop :=
  ∀ (s : State) (p : Image) (pgood hsleep : Bool) (levels : BitVec 4),
    s.store.active = some p →
    s.xmem.wf = true →
      ∃ t, exec (.slotStart pgood hsleep levels) s = .next t ∧
        t.time.slotCount = s.upcoming ∧
        t.time.started = true ∧
        t.xmem.shows 0x08 (le32 s.upcoming.toNat) ∧
        t.rail.pgood = pgood ∧
        t.rail.hsleep = hsleep ∧
        t.watchdogShown s.upcoming ∧
        (∀ k : Fin 4,
          let old := s.rail.inputs[k]
          let level := levels.getLsbD k.val
          t.rail.inputs[k].lastSample = some level ∧
            t.rail.inputs[k].agree = (if old.lastSample = some level then min 2 (old.agree + 1) else 0) ∧
            t.rail.inputs[k].taken = (if t.rail.inputs[k].agree = 2 then some level else old.taken)) ∧
        (∀ z : Fin 3,
          t.climate.heaters[z] =
              (if s.upcoming.toNat % 64 = 0 then s.climate.heaters[z]
               else decide (s.upcoming.toNat % 64 < s.climate.zones[z].grant)) ∧
            t.climate.zones[z].grant = s.climate.zones[z].grant ∧
            t.climate.zones[z].request = s.climate.zones[z].request ∧
            t.climate.zones[z].integrator = s.climate.zones[z].integrator) ∧
        t.sense =
          { s.sense with
            windowSum := if s.upcoming.toNat % 64 = 0 then 0 else s.sense.windowSum
            converted := false, railConverted := false } ∧
        t.supplyLow = s.supplyLow ∧
        ((s.rail.state = .off ∨ s.rail.state = .cooldown ∨ s.rail.state = .lockout) →
          (∀ n : Fin 16, s.xmem.ownerIs n.val .posted = false) →
          (∀ k : Fin 4,
            (t.rail.inputs[k].taken == some (Profile.activeLevel p k)) =
              (s.rail.inputs[k].taken == some (Profile.activeLevel p k))) →
          t =
              { s with
                time := t.time, sense := t.sense
                climate := { s.climate with heaters := t.climate.heaters }
                rail := { s.rail with pgood := pgood, hsleep := hsleep, inputs := t.rail.inputs }
                keypad := { s.keypad with deferred := t.keypad.deferred, scan := t.keypad.scan }
                engine := { s.engine with served := false }
                xmem := t.xmem } ∧
            s.xmem.partWrote [(0x08, 4), (0x1A, 1), (0x0B0, 2)] 0 t.xmem) ∧
        (s.upcoming.toNat % 64 ≠ 0 → s.scanDecided p s.upcoming s.keypad.edgeSet t) ∧
        (s.upcoming.toNat % 64 = 0 → t.keypad.deferred = s.keypad.deferred ∧ t.keypad.scan = s.keypad.scan) ∧
        (s.rail.state = .warming → s.rail.judgedAt ≠ some s.upcoming → s.inputsSteady p t →
          s.gateJudged p (min 460800 (s.rail.warmingAge + 1)) t) ∧
        (s.rail.state = .starting → s.inputsSteady p t → s.startingWatched p pgood s.upcoming t) ∧
        (s.rail.state = .running → pgood = true → s.inputsSteady p t → s.nonePosted →
          t.rail = { s.rail with pgood := pgood, hsleep := hsleep, inputs := t.rail.inputs } ∧
            s.hsleepTaken p hsleep s.upcoming t) ∧
        (∀ k : Fin 4, pgood = true ∨ s.rail.state.isOn = false → s.nonePosted → t.inputActive p k ≠ s.inputActive p k →
          (∀ j : Fin 4, j ≠ k → t.inputActive p j = s.inputActive p j) → s.routeTaken p k s.upcoming t) ∧
        (s.rail.state = .stopping → pgood = true → s.inputsSteady p t → s.nonePosted →
          t.rail =
              { s.rail with
                pgood := pgood, hsleep := hsleep, inputs := t.rail.inputs
                sleepCount := if hsleep then min (Profile.sleepHold p * 64) (s.rail.sleepCount + 1) else 0 } ∧
            t.mon = s.mon) ∧
        (s.rail.state = .resetting → pgood = true → s.inputsSteady p t → s.nonePosted →
          t.rail = { s.rail with pgood := pgood, hsleep := hsleep, inputs := t.rail.inputs } ∧ t.mon = s.mon)

/-- A slot start that samples PGOOD released in RUNNING or RESETTING is a failure. R81 with R78, R79, R114, R118, R119
and R124. The order of the blocks' work is the model's choice (log entry 17). -/
def Obligations.PowergoodLossCutsTheRail : Prop :=
  ∀ (s : State) (p : Image) (hsleep : Bool) (levels : BitVec 4),
    s.store.active = some p →
    (s.rail.state = .running ∨ s.rail.state = .resetting) →
      ∃ t, exec (.slotStart false hsleep levels) s = .next t ∧
        (let i := s.mon.ladderIndex
         let lock : Bool := i < Profile.ladderLength p → Profile.ladderStep p i = .lockout
         t.rail.state = (if lock then .lockout else .cooldown) ∧
           t.rail.railEn = false ∧ t.rail.hrst = false ∧ t.rail.hpwrbtn = false ∧
           (lock = false → t.rail.offTime = Profile.minimumOff p * 64 ∧
             t.rail.offTimer = some (after s.upcoming (Profile.minimumOff p * 64))) ∧
           t.mon.ladderIndex = (if i < Profile.ladderLength p then i + 1 else i) ∧
           (t.mon.records.head?.any fun r =>
             r.cause == .powergoodLost && r.indexBefore == i && r.railBefore == s.rail.state &&
               r.action == (if lock then .lockout else .cold) && r.slot == s.upcoming) = true) ∧
        (s.xmem.wf = true → t.recordsShown ∧ t.watchdogShown s.upcoming)

/-- WINDOW_BOUNDARY forms H and A, allots the grants, publishes the edge slots, answers the start request and changes
nothing but its work. R27 to R30, R32 to R36, and R127 for slot 0; R38 and R45 for the live page. When a boundary may
be taken is the model's reading (log entry 18); an answer that still waits where nothing is asked is kept by its
choice (log entry 34). H, A and the answer are those of the rail state before the event also at a boundary at which a
slip is taken: the model takes a slip that a probe's end promotes after the whole boundary (log entry 20). That an
override set before the first boundary stands at it is its choice (log entry 47). -/
def Obligations.BoundaryAllotment : Prop :=
  ∀ (s : State) (p : Image) (now : SlotCount),
    s.store.active = some p →
    s.boundaryDue = some now →
    s.store.commit ≠ .armed →
      ∃ t, exec .windowBoundary s = .next t ∧
        (let fans :=
            Profile.fanRating p 0 * t.air.fans[(0 : Fin 2)].duty / 100 +
              Profile.fanRating p 1 * t.air.fans[(1 : Fin 2)].duty / 100
         let asked : Bool := s.rail.state = .warming ∧ s.rail.startRequest
         let granted : Bool := asked ∧ Profile.startReserve p + fans + Profile.heaterReserve p ≤ Profile.feedLimit p
         t.climate.hostAllowance =
             (if s.rail.state = .starting ∨ granted then Profile.startReserve p
              else if s.rail.state = .running ∨ s.rail.state = .stopping ∨ s.rail.state = .resetting then
                s.sense.railAverage + Profile.headroom p
              else 0) ∧
           t.climate.available = Profile.feedLimit p - t.climate.hostAllowance - fans - Profile.heaterReserve p ∧
           t.climate.answer = (if asked then some (granted, now) else s.climate.answer)) ∧
        (tab 3 fun z => t.climate.zones[z].grant) =
          grantsFor p (tab 3 fun z => t.climate.zones[z].request) t.climate.available ∧
        (∀ z : Fin 3,
          t.climate.zones[z].heldHigh =
              (Profile.zoneFitted p z &&
                (decide (t.climate.zones[z].grant < t.climate.zones[z].request) ||
                  t.climate.zones[z].request == Profile.dutyCap p z)) ∧
            t.climate.heaters[z] = decide (0 < t.climate.zones[z].grant)) ∧
        t.time = { s.time with boundaryTaken := true } ∧
        t.sense = s.sense ∧
        t.supplyLow = s.supplyLow ∧
        t.keypad.edgeSet =
          some
            ((List.range 64).filter fun n =>
              (List.finRange 3).any fun z =>
                if n = 0 then decide (0 < t.climate.zones[z].grant) != (s.climate.zones[z].grant == 64)
                else t.climate.zones[z].grant == n) ∧
        (now.toNat % 64 = 0 → s.scanDecided p now t.keypad.edgeSet t) ∧
        t.allotted p ∧
        (s.xmem.wf = true → t.xmem.shows 0x088 (le16 t.climate.available ++ le16 t.climate.hostAllowance)) ∧
        (s.xmem.wf = true → s.boundaryTakesNone → s.boundaryFramed p t)

/-- WINDOW_BOUNDARY runs zone control: setpoint, integrator and request. R18, R19, R22 and R24 to R26, with the live
page of R38. When a boundary may be taken is the model's reading (log entry 18). The setpoint is selected by the rail
state and the override before the event also at a boundary at which a slip is taken: the model takes a slip that a
probe's end promotes after the whole boundary (log entry 20). -/
def Obligations.BoundaryZoneControl : Prop :=
  ∀ (s : State) (p : Image) (now : SlotCount) (z : Fin 3),
    s.store.active = some p →
    s.boundaryDue = some now →
    s.store.commit ≠ .armed →
      ∃ t, exec .windowBoundary s = .next t ∧
        (let r := s.climate.zones[z]
         let selected : Int :=
           if s.rail.state = .off ∨ s.rail.state = .cooldown ∨ s.rail.state = .lockout then Profile.keepSetpoint p z
           else if s.rail.state = .warming then Profile.warmSetpoint p z
           else r.override.getD (Profile.runSetpoint p z)
         let lifted : Int :=
           if z = 2 ∧ s.keypad.fog = true ∧ (s.temp 0).isSome then max selected ((s.temp 0).getD 0 + Profile.fogLift p)
           else selected
         let effective : Int := max (-400) (min 600 lifted)
         let valid := (s.temp (Profile.zoneSensor p z)).isSome
         let e : Int := max (-1000) (min 1000 (effective - (s.temp (Profile.zoneSensor p z)).getD 0))
         let integrator : Nat :=
           if Profile.zoneFitted p z ∧ valid then
             if r.heldHigh ∧ 0 < e then r.integrator
             else (max 0 (min 16384 ((r.integrator : Int) + Profile.integralGain p z * e))).toNat
           else 0
         let request : Nat :=
           if Profile.zoneFitted p z then
             if valid then
               (max 0 (min (Profile.dutyCap p z : Int)
                 ((Profile.proportionalGain p z * e * 16 + integrator) / 256))).toNat
             else min (Profile.fallbackDuty p z) (Profile.dutyCap p z)
           else 0
         t.climate.zones[z].effective = effective ∧ t.climate.zones[z].integrator = integrator ∧
           t.climate.zones[z].request = request ∧
           (s.xmem.wf = true →
             t.xmem.shows (0x070 + 8 * z.val)
               (sle16 effective ++ [BitVec.ofNat 8 request, BitVec.ofNat 8 t.climate.zones[z].grant]))) ∧
        (Profile.zoneFitted p z = false → t.climate.zones[z].grant = 0 ∧ t.climate.zones[z].heldHigh = false)

/-- WINDOW_BOUNDARY judges the fans, raises FAN_FAULT, and decides duties, kicks and outputs. R43, R44, R46, R47, R49,
R50 and R65, with the live page of R45. When a boundary may be taken is the model's reading (log entry 18). The duty
is that of the floor before the event also at a boundary at which a slip is taken: the model takes a slip that a
probe's end promotes after the whole boundary (log entry 20). -/
def Obligations.BoundaryFans : Prop :=
  ∀ (s : State) (p : Image) (now : SlotCount) (f : Fin 2),
    s.store.active = some p →
    s.boundaryDue = some now →
    s.store.commit ≠ .armed →
      ∃ t, exec .windowBoundary s = .next t ∧
        (let r := s.air.fans[f]
         let u := t.air.fans[f]
         let judged : Bool := Profile.fanFitted p f ∧ 20 ≤ r.duty ∧ r.kickAge.any fun a => Profile.kickTime p f + 3 ≤ a
         let stalled : Bool := r.rpm < Profile.stallFloor p f
         (u.fault, u.stallCount, u.goodCount) =
           (if Profile.fanFitted p f = false then (false, 0, 0)
            else if judged = false then (r.fault, r.stallCount, r.goodCount)
            else if stalled then
              if r.fault then (true, r.stallCount, 0)
              else if r.stallCount + 1 = 3 then (true, 0, 0) else (false, r.stallCount + 1, r.goodCount)
            else if r.fault then
              if r.goodCount + 1 = 3 then (false, 0, 0) else (true, r.stallCount, r.goodCount + 1)
            else (false, 0, r.goodCount))) ∧
        (let u := t.air.fans[f]
         let partner := t.air.fans[otherFan f]
         let curve := s.controlTemp.map (curveValue p)
         let forced : Bool :=
           t.air.clogLimit ∨ (Profile.fanFitted p (otherFan f) ∧ partner.fault) ∨ s.controlTemp = none
         let asked := if forced then 100 else max (curve.getD 0) (s.air.fans[f].floor.getD 0)
         let held : Bool := t.air.probe.phase = .settle ∨ t.air.probe.phase = .measure
         let duty := if held then (t.air.probe.heldParams.map HeldParams.probeDuty).getD asked else asked
         u.duty =
           (if Profile.fanFitted p f then (if 1 ≤ duty ∧ duty ≤ 19 then 20 else duty) else 0)) ∧
        (let old := s.air.fans[f]
         let u := t.air.fans[f]
         u.kickAge =
             (if u.duty = 0 then none
              else if old.duty = 0 then some 0 else some (min 255 (old.kickAge.getD 0 + 1))) ∧
           u.output = (if u.kickAge.any (fun a => decide (a < Profile.kickTime p f)) then 100 else u.duty) ∧
           u.period = old.period ∧ u.timing = old.timing ∧ u.rpm = old.rpm ∧
           (s.xmem.wf = true →
             t.xmem.shows (0x098 + 8 * f.val) [BitVec.ofNat 8 u.duty, flagByte u.fault])) ∧
        (s.boundaryTakesNone →
          t.xmem.summary &&& Cause.fanFault.bit =
            if (List.finRange 2).any fun g => t.air.fans[g].fault && !s.air.fans[g].fault then Cause.fanFault.bit
            else s.xmem.summary &&& Cause.fanFault.bit) ∧
        (curveRises p → s.curveNow p (s.controlTemp.map (curveValue p)))

/-- A probe starts at a boundary that meets every start condition, and each later boundary settles, measures, ends or
completes it. R53 to R60 and R62, with R44 step 4 and the report of R170. What an end that is no completion leaves of
windows left, origin, held parameters and the pending stop is the model's choice (log entry 21). When a boundary may
be taken is the model's reading (log entry 18). -/
def Obligations.ProbeStartsOnlyWhenAllowed : Prop :=
  ∀ (s : State) (p : Image) (now : SlotCount),
    s.store.active = some p →
    s.boundaryDue = some now →
    s.store.commit ≠ .armed →
      ∃ t, exec .windowBoundary s = .next t ∧
        (t.air.probe.phase = .settle → s.air.probe.phase ≠ .settle →
          (s.air.probe.phase = .waiting ∨ (s.air.probe.phase = .idle ∧ s.air.due p = true)) ∧
            s.rail.state = .running ∧ (∀ z : Fin 3, s.climate.zones[z].grant = 0) ∧
            (∀ f : Fin 2, t.air.fans[f].fault = false) ∧ (s.temp 0).isSome ∧ (s.temp 1).isSome ∧
            (s.controlTemp.map (curveValue p)).getD 0 ≤ Profile.probeDuty p ∧
            t.air.probe.origin = (if s.air.probe.phase = .idle then some .schedule else s.air.probe.origin) ∧
            t.air.probe.heldParams =
              some
                { probeDuty := Profile.probeDuty p, settleTime := Profile.settleTime p,
                  measureTime := Profile.measureTime p } ∧
            t.air.probe.windowsLeft = Profile.settleTime p ∧ t.air.probe.riseSum = 0 ∧ t.air.probe.powerSum = 0 ∧
            t.air.probe.referenceDraw = none ∧
            t.air.probe.replacedDue = (s.air.probe.phase == .waiting && s.air.due p) ∧
            ∀ f : Fin 2, Profile.fanFitted p f = true →
              t.air.fans[f].duty =
                (if 1 ≤ Profile.probeDuty p ∧ Profile.probeDuty p ≤ 19 then 20 else Profile.probeDuty p)) ∧
        (s.xmem.wf = true → s.boundaryTakesNone → s.probeMoved p now t)

/-- WINDOW_BOUNDARY brings an ARMED image into force, reports the commit and hands the profile to every block. R180
with R123, R32, R38, R39, R45, R99, R145, R149, R133 and R147, and the reports of R170 and R171. That a committed
image never counts as the factory profile is the model's reading (log entry 22); that the same keys of a chord in
another order change its members is its choice (log entry 38). When a boundary may be taken, and a promoted slip taken
in it, is the model's reading (log entries 18 and 20); that a rebaseline ends before the commit is its choice (log
entry 39). That a key which becomes disabled loses its calibration sum and count, and that a rebaseline which ends
clears its stop pending, are its choice too (log entries 42 and 43). So is that a commit may take effect at the
boundary of slot count 0, and that an override set before that boundary stands at it (log entries 44 and 47). That the
inputs are shown under the new polarities, and that of the detail of a key which leaves the state byte alone is
written, are its reading (log entries 32 and 25). -/
def Obligations.ArmedCommitTakesEffectAtTheBoundary : Prop :=
  ∀ (s : State) (p q : Image) (now : SlotCount),
    s.store.active = some p →
    s.xmem.wf = true →
    s.boundaryDue = some now →
    s.store.commit = .armed →
    s.store.storedImage = q →
      ∃ t, exec .windowBoundary s = .next t ∧
        t.store.active = some q ∧
        t.store.factoryActive = false ∧
        t.store.commit ≠ .armed ∧
        t.store.storedImage = q ∧
        t.store.stagingHeld = decide (t.store.commit = .programming) ∧
        t.xmem.peek 0x04 = 1 ∧
        t.mon.ladderIndex = min s.mon.ladderIndex (Profile.ladderLength q) ∧
        (tab 3 fun z => t.climate.zones[z].grant) =
          grantsFor q (tab 3 fun z => t.climate.zones[z].request) t.climate.available ∧
        t.sense = s.sense ∧
        (s.activationTakesNone p q → s.keypadAdopted p q t) ∧
        (s.activationTakesNone p q → s.store.service = .waiting →
          t.store.service = .writing ∧ t.store.writeBegan = some now) ∧
        (s.activationTakesNone p q → ∀ n, s.engine.storeSlot = some n → s.engine.airSlot ≠ some n →
          t.engine.storeSlot = none ∧ t.xmem.showsResult n .ok (le16 (u16 q 1022)) ∧
            t.xmem.summary &&& Cause.slipDone.bit = Cause.slipDone.bit) ∧
        t.allotted q ∧
        (s.activationTakesNone p q → s.rebaselineAdopted p q t) ∧
        t.boundaryShown ∧
        (s.activationTakesNone p q → s.activationFramed p q t)

/-- START_RESERVATION_ANSWER starts the rail, refuses the budget or is discarded. R75 and R76, with the clearing of
R94 and its effect in the monitor (R121, R122, R124). The slot count of the boundary is the model's reading (log entry
29). -/
def Obligations.StartAnswerReceived : Prop :=
  ∀ (s : State) (p : Image) (granted : Bool) (b : SlotCount),
    s.store.active = some p →
    s.xmem.wf = true →
    s.climate.answer = some (granted, b) →
      ∃ t, exec .startReservationAnswer s = .next t ∧
        t.climate.answer = none ∧
        (s.rail.state = .warming → s.rail.startRequest = true → granted = true →
          t.rail =
              { s.rail with
                state := .starting, railEn := true, hrst := true, startRequest := false, budgetRefused := false,
                waitReason := .noWait, overcurrentCount := 0
                pgoodLimit := some (after b (Profile.pgoodLimit p * 64)), resetHold := none } ∧
            s.hostCleared p 0 t ∧ t.mon = s.monitorCleared p b ∧ t.watchdogShown b ∧ t.xmem.peek 0x19 = 2 ∧
            t.xmem.peek 0x0AC = 0 ∧ t.mon.records = s.mon.records ∧
            t.mon.ladderIndex = s.mon.ladderIndex ∧ t.engine.served = s.engine.served ∧
            t.xmem.ready = s.xmem.ready ∧ t.xmem.refused = s.xmem.refused ∧ t.xmem.range = s.xmem.range ∧
            ∀ a < memorySize,
              outside [(0x0C, 2), (0x10, 2), (0x16, 5), (0x0AC, 1), (0x0B0, 2), (0x100, 0x400)] a = true →
                t.xmem.peek a = s.xmem.peek a) ∧
        (s.rail.state = .warming → s.rail.startRequest = true → granted = false →
          t = { s with
                climate := { s.climate with answer := none }
                rail := { s.rail with budgetRefused := true, waitReason := .budget }
                xmem := t.xmem } ∧
            t.xmem.peek 0x0AC = 4 ∧ s.xmem.partWrote [(0x0AC, 1)] 0 t.xmem) ∧
        (¬(s.rail.state = .warming ∧ s.rail.startRequest = true) →
          t = { s with climate := { s.climate with answer := none } })

/-- CONVERSION_END: a code below 16 or above 4079 enters or keeps the fault, an in-range code ends it. R4 and R5, with
the entry of R14. The value of an in-range code is `convert`, which R3 gives. The flag that remembers the slot's one
conversion is the model's own (log entry 10). -/
def Obligations.ConversionFaults : Prop :=
  ∀ (s : State) (p : Image) (k : Fin 6) (c : BitVec 12),
    s.store.active = some p →
    s.xmem.wf = true →
    s.time.started = true →
    s.time.slotCount.toNat % 64 = 4 + 8 * k.val →
    s.sense.converted = false →
    (¬(16 ≤ c.toNat ∧ c.toNat ≤ 4079) ∨ s.sense.channels[k].fault = true) →
      ∃ t, exec (.conversionEnd k c) s = .next t ∧
        t.sense.channels[k] =
          (if 16 ≤ c.toNat ∧ c.toNat ≤ 4079 then
             { s.sense.channels[k] with lastCode := some c, fault := false, accepted := some (convert p k c.toNat) }
           else
             { s.sense.channels[k] with
               lastCode := some c, fault := true
               pendingValue := if s.sense.channels[k].fault then s.sense.channels[k].pendingValue else none }) ∧
        (∀ j : Fin 6, j ≠ k → t.sense.channels[j] = s.sense.channels[j]) ∧
        t.sense = { s.sense with channels := t.sense.channels, converted := true } ∧
        t.xmem.shows (0x040 + 8 * k.val)
          (le16 c.toNat ++ sle16 ((t.sense.channels[k].accepted).getD 0) ++
            [flagByte t.sense.channels[k].accepted.isSome ||| (flagByte t.sense.channels[k].fault <<< 1) |||
              (flagByte t.sense.channels[k].pendingValue.isSome <<< 2)]) ∧
        (t.xmem.summary &&& Cause.climateFault.bit =
          (if s.sense.channels[k].fault then s.xmem.summary &&& Cause.climateFault.bit else Cause.climateFault.bit)) ∧
        (k = 3 ∨ k = 5 → t = { s with sense := t.sense, xmem := t.xmem } ∧
          s.xmem.partWrote [(0x0C, 2), (0x040 + 8 * k.val, 5)] (if s.sense.channels[k].fault then 0 else
            Cause.climateFault.bit) t.xmem)

/-- CONVERSION_END: a channel's first in-range conversion is accepted at once. R6, with the conversion of R3. -/
def Obligations.FirstConversionIsAccepted : Prop :=
  ∀ (s : State) (p : Image) (k : Fin 6) (c : BitVec 12),
    s.store.active = some p →
    s.xmem.wf = true →
    s.time.started = true →
    s.time.slotCount.toNat % 64 = 4 + 8 * k.val →
    s.sense.converted = false →
    (16 ≤ c.toNat ∧ c.toNat ≤ 4079) →
    s.sense.channels[k].fault = false →
    s.sense.channels[k].accepted = none →
    s.sense.channels[k].pendingValue = none →
      ∃ t, exec (.conversionEnd k c) s = .next t ∧
        (let a := Profile.sensorPoint p (c.toNat / 128)
         let b := Profile.sensorPoint p (c.toNat / 128 + 1)
         let v := max (-550) (min 1250 (a + (b - a) * ((c.toNat % 128 : Nat) : Int) / 128 + Profile.trim p k))
         t.sense.channels[k] = { lastCode := some c, accepted := some v, pendingValue := none, fault := false }) ∧
        (∀ j : Fin 6, j ≠ k → t.sense.channels[j] = s.sense.channels[j]) ∧
        t.sense = { s.sense with channels := t.sense.channels, converted := t.sense.converted } ∧
        t.xmem.shows (0x040 + 8 * k.val)
          (le16 c.toNat ++ sle16 ((t.sense.channels[k].accepted).getD 0) ++
            [flagByte t.sense.channels[k].accepted.isSome ||| (flagByte t.sense.channels[k].fault <<< 1) |||
              (flagByte t.sense.channels[k].pendingValue.isSome <<< 2)]) ∧
        (k = 3 ∨ k = 5 → t = { s with sense := t.sense, xmem := t.xmem } ∧
          s.xmem.partWrote [(0x0C, 2), (0x040 + 8 * k.val, 5)] (0) t.xmem)

/-- CONVERSION_END: the spike rule decides between accepting and holding back. R7. -/
def Obligations.SpikeRule : Prop :=
  ∀ (s : State) (p : Image) (k : Fin 6) (c : BitVec 12) (a : Int),
    s.store.active = some p →
    s.xmem.wf = true →
    s.time.started = true →
    s.time.slotCount.toNat % 64 = 4 + 8 * k.val →
    s.sense.converted = false →
    (16 ≤ c.toNat ∧ c.toNat ≤ 4079) →
    s.sense.channels[k].fault = false →
    s.sense.channels[k].accepted = some a →
      ∃ t, exec (.conversionEnd k c) s = .next t ∧
        (let v := convert p k c.toNat
         let agrees : Bool := (v - a).natAbs ≤ 50 ∨ s.sense.channels[k].pendingValue.any fun q => (v - q).natAbs ≤ 50
         t.sense.channels[k] =
           { lastCode := some c, accepted := some (if agrees then v else a),
             pendingValue := if agrees then none else some v, fault := false }) ∧
        (∀ j : Fin 6, j ≠ k → t.sense.channels[j] = s.sense.channels[j]) ∧
        t.sense = { s.sense with channels := t.sense.channels, converted := t.sense.converted } ∧
        t.xmem.shows (0x040 + 8 * k.val)
          (le16 c.toNat ++ sle16 ((t.sense.channels[k].accepted).getD 0) ++
            [flagByte t.sense.channels[k].accepted.isSome ||| (flagByte t.sense.channels[k].fault <<< 1) |||
              (flagByte t.sense.channels[k].pendingValue.isSome <<< 2)]) ∧
        (k = 3 ∨ k = 5 → t = { s with sense := t.sense, xmem := t.xmem } ∧
          s.xmem.partWrote [(0x0C, 2), (0x040 + 8 * k.val, 5)] (0) t.xmem)

/-- CONVERSION_END of INLET or GLASS judges fog and lifts Z2. R135 and R23, with R38 for the raise on the live page,
on the delivery of R9. The flag that remembers the slot's one conversion is the model's own (log entry 10). -/
def Obligations.FogIsJudged : Prop :=
  ∀ (s : State) (p : Image) (k : Fin 6) (c : BitVec 12),
    s.store.active = some p →
    s.xmem.wf = true →
    s.time.started = true →
    s.time.slotCount.toNat % 64 = 4 + 8 * k.val →
    s.sense.converted = false →
    (k = 0 ∨ k = 4) →
      ∃ t, exec (.conversionEnd k c) s = .next t ∧
        (let inlet := t.temp 0
         let glass := t.temp 4
         let fog : Bool :=
           if inlet.isSome ∧ glass.isSome then
             if (Profile.fogMargin p : Int) ≤ inlet.getD 0 - glass.getD 0 then true
             else if (Profile.fogMargin p : Int) - 10 ≤ inlet.getD 0 - glass.getD 0 then s.keypad.fog
             else false
           else true
         let old := s.climate.zones[(2 : Fin 3)].effective
         let lift : Int := min 600 (inlet.getD 0 + Profile.fogLift p)
         t.keypad = { s.keypad with fog := fog } ∧ t.xmem.peek 0x0B2 = flagByte fog ∧
           (fog = true → s.keypad.fog = false → t.xmem.summary &&& Cause.fog.bit = Cause.fog.bit) ∧
           t.climate =
             { s.climate with
               zones := s.climate.zones.set 2
                 { s.climate.zones[(2 : Fin 3)] with
                   effective := if fog ∧ inlet.isSome ∧ old < lift then lift else old } } ∧
           (let raised : Bool := fog ∧ inlet.isSome ∧ old < lift
            let climateFault : BitVec 12 :=
              if t.sense.channels[k].fault && !s.sense.channels[k].fault then Cause.climateFault.bit else 0
            let entered : BitVec 12 := if t.keypad.fog && !s.keypad.fog then Cause.fog.bit else 0
            (raised = true → t.xmem.shows 0x080 (sle16 lift)) ∧
              s.xmem.partWrote
                [(0x0C, 2), (0x040 + 8 * k.val, 5), (0x080, if raised then 2 else 0), (0x0B2, 1)]
                (climateFault ||| entered) t.xmem)) ∧
        t = { s with sense := t.sense, keypad := t.keypad, climate := t.climate, xmem := t.xmem } ∧
        t.sense = { s.sense with channels := t.sense.channels, converted := true } ∧
        (∀ j : Fin 6, j ≠ k → t.sense.channels[j] = s.sense.channels[j])

/-- CONVERSION_END of OUTLET or MODULE cuts a rail that is too hot. R82 with R78, R95, R104, R118, R119 and R124, on
the delivery of R9. The flag that remembers the slot's one conversion is the model's own (log entry 10). -/
def Obligations.OvertemperatureCutsTheRail : Prop :=
  ∀ (s : State) (p : Image) (k : Fin 6) (c : BitVec 12),
    s.store.active = some p →
    s.xmem.wf = true →
    s.time.started = true →
    s.time.slotCount.toNat % 64 = 4 + 8 * k.val →
    s.sense.converted = false →
    (k = 1 ∨ k = 2) →
      ∃ t, exec (.conversionEnd k c) s = .next t ∧
        (let climateFault : BitVec 12 :=
           if t.sense.channels[k].fault && !s.sense.channels[k].fault then Cause.climateFault.bit else 0
         let hot : Bool := ((t.temp 2).or (t.temp 1)).any fun x => Profile.criticalTemp p ≤ x
         if s.rail.state.isOn = true ∧ hot = true then
           let u : State := { s with sense := t.sense }
           t.mon.ladderIndex = s.mon.ladderIndex ∧
             u.recordAdded s.time.slotCount .overtemp (if Profile.autostart p then .cold else .off) s.mon.ladderIndex
               s.rail.state t ∧
             u.railWentOff (some (Profile.autostart p, Profile.minimumOff p * 64)) s.time.slotCount t ∧
             s.xmem.partWrote ((0x040 + 8 * k.val, 5) :: cutBytes) (climateFault ||| Cause.restartNote.bit) t.xmem ∧
             t = { s with sense := t.sense, rail := t.rail, mon := t.mon, climate := t.climate, xmem := t.xmem }
         else
           t = { s with sense := t.sense, xmem := t.xmem } ∧
             s.xmem.partWrote [(0x0C, 2), (0x040 + 8 * k.val, 5)] climateFault t.xmem) ∧
        t.sense = { s.sense with channels := t.sense.channels, converted := true } ∧
        (∀ j : Fin 6, j ≠ k → t.sense.channels[j] = s.sense.channels[j])

/-- RAIL_CONVERSION_END forms the rail values and power, and cuts at the second high current. R11 to R14, and R80 with
R78, R79, R104, R114, R115, R118, R119 and R124. The flag that remembers the slot's one conversion is the model's own
(log entry 10). -/
def Obligations.RailConversionAndOvercurrent : Prop :=
  ∀ (s : State) (p : Image) (vsns isns : BitVec 12),
    s.store.active = some p →
    s.xmem.wf = true →
    s.time.started = true →
    s.sense.railConverted = false →
    s.rail.overcurrentCount ≤ 1 →
      ∃ t, exec (.railConversionEnd vsns isns) s = .next t ∧
        (let mV := vsns.toNat * 8
         let mA := isns.toNat * 4
         let sum := s.sense.windowSum + mV * mA / 100000
         let last : Bool := s.time.slotCount.toNat % 64 = 63
         t.sense =
             { s.sense with
               railVoltage := mV, railCurrent := mA, windowSum := sum
               railAverage := if last then sum / 64 else s.sense.railAverage
               railConverted := true } ∧
           t.xmem.shows 0x08C (le16 mV ++ le16 mA) ∧ (last = true → t.xmem.shows 0x090 (le16 (sum / 64)))) ∧
        (∀ a < memorySize, outside ([(0x08C, 4), (0x090, if s.time.slotCount.toNat % 64 = 63 then 2 else 0)] ++
          cutBytes) a = true → t.xmem.peek a = s.xmem.peek a) ∧
        t.time = s.time ∧
        t.air = s.air ∧
        t.keypad = s.keypad ∧
        t.engine = s.engine ∧
        t.store = s.store ∧
        (let u : State := { s with sense := t.sense }
         let high : Bool := s.rail.state.isOn ∧ Profile.overcurrentLimit p < isns.toNat * 4
         if high = true ∧ s.rail.overcurrentCount = 1 then
           let i := s.mon.ladderIndex
           let lock : Bool := i < Profile.ladderLength p → Profile.ladderStep p i = .lockout
           t.mon.ladderIndex = (if i < Profile.ladderLength p then i + 1 else i) ∧
             u.recordAdded s.time.slotCount .overcurrent (if lock then .lockout else .cold) i s.rail.state t ∧
             u.railWentOff (if lock then none else some (true, Profile.minimumOff p * 64)) s.time.slotCount t ∧
             t.xmem.summary = s.xmem.summary ||| Cause.restartNote.bit ∧
             t = { s with sense := t.sense, rail := t.rail, mon := t.mon, climate := t.climate, xmem := t.xmem }
         else
           t =
               { s with
                 sense := t.sense, xmem := t.xmem
                 rail := { s.rail with overcurrentCount := if high then 1 else 0 } } ∧
             t.xmem.summary = s.xmem.summary)

/-- TACH_EDGE and TACH_TIMEOUT form the tach period and the rpm. R48. The range of the period is the model's reading
for 0 µs (log entry 14), and that the page is written also where the rpm has not changed is its choice (log entry
49). -/
def Obligations.TachometerTimesTheFan : Prop :=
  ∀ (s : State) (p : Image) (f : Fin 2) (us : Nat),
    s.store.active = some p →
    s.xmem.wf = true →
    1 ≤ us →
    us ≤ 1000000 →
      ∃ t, exec (.tachEdge f us) s = .next t ∧
        t =
          { s with
            air := { s.air with fans := s.air.fans.set f t.air.fans[f] }
            xmem := t.xmem } ∧
        t.air.fans[f] =
          (if s.air.fans[f].timing then
             { s.air.fans[f] with
               period := us, rpm := min 65535 (60000000 / (us * Profile.pulsesPerRev p f)) }
           else { s.air.fans[f] with timing := true }) ∧
        t.xmem.shows (0x09A + 8 * f.val) (le16 t.air.fans[f].rpm) ∧
        s.xmem.partWrote [(0x09A + 8 * f.val, 2)] 0 t.xmem ∧
        (s.air.fans[f].timing = true →
          ∃ u, exec (.tachTimeout f) s = .next u ∧
            u =
                { s with
                  air :=
                    { s.air with
                      fans :=
                        s.air.fans.set f { s.air.fans[f] with period := 1000000, rpm := 0, timing := false } }
                  xmem := u.xmem } ∧
            u.xmem.shows (0x09A + 8 * f.val) [0, 0] ∧ s.xmem.partWrote [(0x09A + 8 * f.val, 2)] 0 u.xmem)

/-- RESET_HOLD_END and RESET_WIDTH_END take the rail into RUNNING. R76, R86, R102, R103 and R124. That the end may be
taken in its slot or just before is the model's reading (log entry 9). -/
def Obligations.HostLeavesResetIntoRunning : Prop :=
  ∀ (s : State) (p : Image) (e : SlotCount) (c : Instr),
    s.store.active = some p →
    s.xmem.wf = true →
    ((c = .resetHoldEnd ∧ s.rail.state = .starting ∧ s.due s.rail.resetHold = some e) ∨ (c = .resetWidthEnd ∧
      s.rail.state = .resetting ∧ s.due s.rail.resetWidth = some e)) →
      ∃ t, exec c s = .next t ∧
        s.enteredRunning p e t

/-- PGOOD_LIMIT_END without a reset hold running is the failure NO_POWERGOOD. R77 with R78, R79, R104, R114, R115,
R118, R119 and R124. That the end may be taken in its slot or just before is the model's reading (log entry 9). -/
def Obligations.NoPowergoodInTimeCutsTheRail : Prop :=
  ∀ (s : State) (p : Image) (e : SlotCount),
    s.store.active = some p →
    s.xmem.wf = true →
    s.rail.state = .starting →
    s.due s.rail.pgoodLimit = some e →
      ∃ t, exec .pgoodLimitEnd s = .next t ∧
        (s.rail.resetHold.isSome = true → t = { s with rail := { s.rail with pgoodLimit := none } }) ∧
        (s.rail.resetHold = none → s.failed p .noPowergood e t)

/-- SLEEP_HOLD_END and PGOOD released complete the stop without a record; STOP_LIMIT_END cuts with STOP_TIMEOUT. R85
with R78, R95, R104, R118, R119 and R124, and R69 for the sample. A sleep count beyond a shortened sleep hold counts
as reached by the model's choice (log entry 37), and SLEEP_HOLD_END as a step of its own is its reading (log entry
19), as is when a timer's end may be taken (log entry 9) and the order of the blocks' work at a slot start (log entry
17). -/
def Obligations.StopEnds : Prop :=
    (∀ (s : State) (p : Image),
      s.store.active = some p → s.xmem.wf = true → s.rail.state = .stopping →
      Profile.sleepHold p * 64 ≤ s.rail.sleepCount →
        ∃ t, exec .sleepHoldEnd s = .next t ∧
          s.railWentOff
            (some (decide (0 < s.rail.stopRestart), max (Profile.minimumOff p * 64) (s.rail.stopRestart * 64)))
            s.time.slotCount t ∧
          t.mon.records = s.mon.records ∧ t.mon.ladderIndex = s.mon.ladderIndex ∧
          t.mon.lastRefusal = s.mon.lastRefusal ∧
          s.xmem.partWrote [(0x19, 2), (0x0AD, 1), (0x0B0, 2)] 0 t.xmem ∧
          t = { s with rail := t.rail, mon := t.mon, climate := t.climate, xmem := t.xmem }) ∧
    (∀ (s : State) (p : Image) (e : SlotCount),
      s.store.active = some p → s.xmem.wf = true → s.rail.state = .stopping → s.due s.rail.stopLimit = some e →
        ∃ t, exec .stopLimitEnd s = .next t ∧
          s.cutNoticed .stopTimeout (decide (0 < s.rail.stopRestart))
            (max (Profile.minimumOff p * 64) (s.rail.stopRestart * 64)) e t) ∧
    ∀ (s : State) (p : Image) (hsleep : Bool) (levels : BitVec 4),
      s.store.active = some p → s.xmem.wf = true → s.rail.state = .stopping → s.nonePosted →
        ∃ t, exec (.slotStart false hsleep levels) s = .next t ∧
          (s.inputsSteady p t →
            State.railWentOff
                (some (decide (0 < s.rail.stopRestart), max (Profile.minimumOff p * 64) (s.rail.stopRestart * 64)))
                s.upcoming
                { s with
                  rail := { s.rail with pgood := false, hsleep := hsleep, inputs := t.rail.inputs }
                  climate := { s.climate with heaters := t.climate.heaters } } t ∧
              t.mon.records = s.mon.records ∧ t.mon.ladderIndex = s.mon.ladderIndex ∧
              t.mon.lastRefusal = s.mon.lastRefusal ∧
              s.xmem.partWrote [(0x08, 4), (0x19, 2), (0x0AD, 1), (0x0B0, 2)] 0 t.xmem)

/-- OVERRIDE_END cuts a rail that is on. R93 with R78, R95, R104, R118, R119 and R124. That the end may be taken in
its slot or just before is the model's reading (log entry 9). -/
def Obligations.OverrideEndCutsTheRail : Prop :=
  ∀ (s : State) (p : Image) (e : SlotCount),
    s.store.active = some p →
    s.xmem.wf = true →
    s.due s.rail.override = some e →
      ∃ t, exec .overrideEnd s = .next t ∧
        (s.rail.state.isOn = false → t = { s with rail := { s.rail with override := none } }) ∧
        (s.rail.state.isOn = true →
          State.cutNoticed .keyOverride false (Profile.minimumOff p * 64) e
            { s with rail := { s.rail with override := none } } t)

/-- PULSE_END, RESET_DELAY_END, STABLE_END and PROGRAMMING_END have their one effect. R92, R86, R116 and R179. That
the end may be taken in its slot or just before is the model's reading (log entry 9). That PROGRAMMING_END has no
effect at any other time is the model's choice (log entry 10). -/
def Obligations.SingleEffectEnds : Prop :=
    (∀ (s : State) (p : Image) (e : SlotCount), s.store.active = some p → s.due s.rail.pulse = some e →
        exec .pulseEnd s = .next { s with rail := { s.rail with hpwrbtn := false, pulse := none } }) ∧
    (∀ (s : State) (p : Image) (e : SlotCount),
      s.store.active = some p → s.rail.state = .resetting → s.due s.rail.resetDelay = some e →
        exec .resetDelayEnd s =
          .next
            { s with
              rail :=
                { s.rail with
                  hrst := true, resetDelay := none, resetWidth := some (after e (Profile.resetWidth p)) } }) ∧
    (∀ (s : State) (p : Image) (e : SlotCount),
      s.store.active = some p → s.xmem.wf = true → s.due s.mon.stableEnd = some e →
        ∃ t, exec .stableEnd s = .next t ∧
          t = { s with mon := { s.mon with ladderIndex := 0, stableEnd := none }, xmem := t.xmem } ∧
          t.xmem.peek 0x0AF = 0 ∧ s.xmem.partWrote [(0x0AF, 1)] 0 t.xmem) ∧
    ∀ (s : State) (b : SlotCount), s.store.commit = .programming → s.store.programmingBegan = some b →
      let ends : Bool :=
        [s.time.slotCount, s.upcoming].any fun e =>
          (e == s.time.slotCount || s.slotOver) && decide (1 ≤ (e - b).toNat) && decide ((e - b).toNat ≤ 44)
      exec .programmingEnd s =
        .next
          (if ends then
             { s with
               store :=
                 { s.store with
                   storedImage := (List.range 1024).map fun i => s.xmem.peek (0x800 + i)
                   commit := .armed, programmingBegan := none } }
           else s)

/-- OFF_TIMER_END leads to WARMING with restart pending, to OFF without. R87, R70, R71, R74, R21, R104 and R124. That
the end may be taken in its slot or just before is the model's reading (log entry 9). -/
def Obligations.OffTimerEndsCooldown : Prop :=
  ∀ (s : State) (p : Image) (e : SlotCount),
    s.store.active = some p →
    s.xmem.wf = true →
    s.rail.state = .cooldown →
    s.due s.rail.offTimer = some e →
      ∃ t, exec .offTimerEnd s = .next t ∧
        (s.rail.restartPending = false →
          t.rail = { s.rail with state := .off, offTimer := none } ∧
            t.mon =
              { s.mon with
                watchdog := if s.mon.watchdog = .expired then .dormant else s.mon.watchdog
                pendingRecord := none } ∧
            t.xmem.peek 0x19 = 0 ∧ s.xmem.partWrote [(0x19, 2), (0x0B0, 2)] 0 t.xmem) ∧
        (s.rail.restartPending = true →
          t.rail.state = .warming ∧ t.rail.restartPending = false ∧ t.rail.offTimer = none ∧
            t.rail.warmingAge = 0 ∧ t.rail.budgetRefused = false ∧
            (∀ z : Fin 3, t.rail.warmCount[z] ≤ 1) ∧
            t.rail.startRequest = decide (t.rail.waitReason = .noWait) ∧ t.rail.waitReason ≠ .budget ∧
            t.mon = s.mon ∧ t.xmem.peek 0x19 = 1 ∧ t.xmem.peek 0x0AC = t.rail.waitReason.code ∧
            t.xmem.peek 0x0AD = 0 ∧ s.xmem.partWrote [(0x19, 2), (0x0AC, 2), (0x0B0, 2)] 0 t.xmem) ∧
        t.rail.railEn = s.rail.railEn ∧
        t.rail.hrst = s.rail.hrst ∧
        t.rail.hpwrbtn = s.rail.hpwrbtn ∧
        t.watchdogShown e ∧
        t.climate = { s.climate with zones := tab 3 fun z => { s.climate.zones[z] with override := none } } ∧
        t = { s with rail := t.rail, mon := t.mon, climate := t.climate, xmem := t.xmem }

/-- GRACE_EXPIRY and STAGE2_EXPIRY: the ladder's action is recorded and carried out. R109, R111 and R114, with R83,
R86, R94, R104, R118, R119, R122 and R124. That the end may be taken in its slot or just before is the model's reading
(log entry 9). -/
def Obligations.WatchdogExpiryIsAFailure : Prop :=
  ∀ (s : State) (p : Image) (e : SlotCount) (c : Instr) (cause : RestartCause),
    s.store.active = some p →
    s.xmem.wf = true →
    s.rail.state = .running →
    s.due s.mon.stageEnd = some e →
    ((c = .graceExpiry ∧ s.mon.watchdog = .grace ∧ cause = .graceExpiry) ∨ (c = .stage2Expiry ∧ s.mon.watchdog =
      .warned ∧ cause = .stage2Expiry)) →
      ∃ t, exec c s = .next t ∧
        (let i := s.mon.ladderIndex
         let step := if i < Profile.ladderLength p then Profile.ladderStep p i else .lockout
         let u : State :=
           { s with
             mon :=
               { s.mon with
                 watchdog := .expired, stageEnd := none, pendingRecord := some t.mon.recordCounter } }
         t.mon.ladderIndex = (if i < Profile.ladderLength p then i + 1 else i) ∧
           s.recordAdded e cause (if step = .warm then .warm else if step = .cold then .cold else
             .lockout) i .running t ∧
           t.mon.stageEnd = none ∧ t.mon.stableEnd = none ∧
           t.mon.watchdog = (if step = .lockout then .dormant else .expired) ∧
           t.mon.pendingRecord = (if step = .lockout then none else some t.mon.recordCounter) ∧
           t.xmem.peek 0x0AF = BitVec.ofNat 8 t.mon.ladderIndex ∧ t.watchdogShown e ∧
           (step = .warm →
             t.rail =
                 { s.rail with
                   state := .resetting
                   hrst := if Profile.resetDelay p = 0 then true else s.rail.hrst
                   resetDelay :=
                     if Profile.resetDelay p = 0 then none else some (after e (Profile.resetDelay p))
                   resetWidth :=
                     if Profile.resetDelay p = 0 then some (after e (Profile.resetWidth p)) else s.rail.resetWidth } ∧
               t.xmem.peek 0x19 = 5 ∧ u.monitorReset p t ∧ s.hostCleared p Cause.restartNote.bit t) ∧
           (step ≠ .warm →
             u.railWentOff (if step = .cold then some (true, Profile.minimumOff p * 64) else none) e t ∧
               s.xmem.partWrote cutBytes Cause.restartNote.bit t.xmem ∧
               t = { s with rail := t.rail, mon := t.mon, climate := t.climate, xmem := t.xmem }))

/-- STAGE1_EXPIRY: the watchdog becomes WARNED and WDT_WARN is raised. R110, with the remaining seconds of R124. -/
def Obligations.StageOneExpiryWarns : Prop :=
  ∀ (s : State) (p : Image),
    s.store.active = some p →
    s.xmem.wf = true →
    s.mon.watchdog = .watching →
    s.mon.stageEnd = some s.time.slotCount →
      ∃ t, exec .stage1Expiry s = .next t ∧
        t =
          { s with
            mon := { s.mon with watchdog := .warned, stageEnd := some (after s.time.slotCount (s.mon.inForce.s2 * 64)) }
            xmem := t.xmem } ∧
        t.xmem.peek 0x1A = 3 ∧
        t.watchdogShown s.time.slotCount ∧
        t.xmem.shows 0x0C (le16 t.xmem.summary.toNat) ∧
        s.xmem.partWrote [(0x0C, 2), (0x1A, 1), (0x0B0, 2)] Cause.wdtWarn.bit t.xmem

/-- KICK: in GRACE every kick is accepted and starts stage 1. R105, with the effects of R107 and the remaining seconds
of R124. That the row is one WRITE frame, and what the frame leaves, is the model's choice (log entry 16, with 12 and
13). -/
def Obligations.KickInGraceIsAccepted : Prop :=
  ∀ (s : State) (p : Image) (v : Byte),
    s.store.active = some p →
    s.xmem.wf = true →
    s.xmem.ready = true →
    s.mon.watchdog = .grace →
      ∃ t, exec (.kick v) s = .next t ∧
        t =
          { s with
            mon :=
              { s.mon with
                inForce := s.mon.runtimeSet, expected := some (v + 1), lastKick := some s.time.slotCount
                stageEnd := some (after s.time.slotCount (s.mon.runtimeSet.s1 * 64)), watchdog := .watching }
            xmem := t.xmem } ∧
        t.xmem.peek 0x12 = v ∧ t.xmem.peek 0x1A = 2 ∧ t.watchdogShown s.time.slotCount ∧
        s.xmem.frameWrote [(0x12, 1), (0x1A, 1), (0x0B0, 2)] 0 t.xmem

/-- KICK: in WATCHING or WARNED a kick is tested by value, then by the early window. R106 and R107, with the remaining
seconds of R124. That the row is one WRITE frame, and what the frame leaves, is the model's choice (log entry 16, with
12 and 13). -/
def Obligations.KickIsJudged : Prop :=
  ∀ (s : State) (p : Image) (v : Byte),
    s.store.active = some p →
    s.xmem.wf = true →
    s.xmem.ready = true →
    (s.mon.watchdog = .watching ∨ s.mon.watchdog = .warned) →
      ∃ t, exec (.kick v) s = .next t ∧
        (let badValue : Bool := s.mon.expected.any fun x => x != v
         let early : Bool :=
           0 < s.mon.inForce.early ∧
             s.mon.lastKick.any fun k => (s.time.slotCount - k).toNat < s.mon.inForce.early * 64
         if badValue = true ∨ early = true then
           let reason : KickRefusal := if badValue then .badValue else .early
           t = { s with mon := { s.mon with lastRefusal := reason }, xmem := t.xmem } ∧
             t.xmem.peek 0x12 = v ∧ t.xmem.peek 0x13 = reason.code ∧ s.xmem.frameWrote [(0x12, 2)] 0 t.xmem
         else
           t =
              { s with
                mon :=
                  { s.mon with
                    inForce := s.mon.runtimeSet, expected := some (v + 1), lastKick := some s.time.slotCount
                    stageEnd := some (after s.time.slotCount (s.mon.runtimeSet.s1 * 64)), watchdog := .watching }
                xmem := t.xmem } ∧
            t.xmem.peek 0x12 = v ∧ t.xmem.peek 0x1A = 2 ∧ t.watchdogShown s.time.slotCount ∧
            s.xmem.frameWrote [(0x12, 1), (0x1A, 1), (0x0B0, 2)] 0 t.xmem)

/-- KICK: in EXPIRED a kick marks the pending record; in DORMANT and PAUSED it does nothing. R108, with the record
region of R118. That the row is one WRITE frame, and what the frame leaves, is the model's choice (log entry 16, with
12 and 13). -/
def Obligations.LateKickMarksTheRecord : Prop :=
  ∀ (s : State) (p : Image) (v : Byte),
    s.store.active = some p →
    s.xmem.wf = true →
    s.xmem.ready = true →
    (s.mon.watchdog = .expired ∨ s.mon.watchdog = .dormant ∨ s.mon.watchdog = .paused) →
      ∃ t, exec (.kick v) s = .next t ∧
        (let held : Bool :=
           s.mon.watchdog = .expired ∧ s.mon.pendingRecord.any fun n => s.mon.records.any fun r => r.number == n
         t =
             { s with
               mon :=
                 { s.mon with
                   records :=
                     if held then
                       s.mon.records.map fun r =>
                         if some r.number = s.mon.pendingRecord then { r with lateKick := true } else r
                     else s.mon.records }
               xmem := t.xmem } ∧
           t.xmem.peek 0x12 = v ∧
           (held = true → t.recordsShown) ∧
           s.xmem.frameWrote [(0x12, 1), (0x600, if held then 256 else 0)] 0 t.xmem)

/-- SCAN_END: more keys over the threshold than the maximum reject the scan; a pending stop ends a rebaseline. R129
with R128 and R147, and R146 for a pending stop, with the completion of R170 to R172. That a scan waits for the chords
of its slot start is the model's reading (log entry 9). The delta that the page shows is the model's reading (log
entry 24). That a rebaseline which ends with OK clears its stop pending is the model's choice (log entry 43). -/
def Obligations.WaterFilmRejectsTheScan : Prop :=
  ∀ (s : State) (p : Image) (n : SlotCount) (counts : Vector (BitVec 12) 24),
    s.store.active = some p →
    s.xmem.wf = true →
    s.scanDue = some n →
    (s.scanTakesNone fun _ => false) →
    Profile.maxSimultaneous p < ((List.finRange 24).filter fun k =>
        Profile.keyEnabled p k && s.keypad.keys[k].state != .calibrating &&
          decide (((Profile.touchThreshold p + if s.keypad.fog then Profile.fogAdd p else 0 : Nat) : Int) ≤
            (counts[k].toNat : Int) - (s.keypad.keys[k].baseline : Int))).length →
      ∃ t, exec (.scanEnd counts) s = .next t ∧
        t =
          { s with
            keypad :=
              { s.keypad with
                scan := none
                rebaseline := t.keypad.rebaseline, stopPending := t.keypad.stopPending
                keys := tab 24 fun k =>
                  let old := s.keypad.keys[k]
                  { old with
                    raw := if Profile.keyEnabled p k then counts[k].toNat else old.raw
                    state :=
                      if old.state = .pressing1 ∨ old.state = .pressing2 ∨ s.stopsKey k = true then .idle
                      else old.state
                    calSum := if s.stopsKey k then 0 else old.calSum
                    calCount := if s.stopsKey k then 0 else old.calCount } }
            engine := t.engine, xmem := t.xmem } ∧
        (∀ k : Fin 24, Profile.keyEnabled p k = true →
          t.xmem.shows (0x700 + 8 * k.val)
            (le16 t.keypad.keys[k].baseline ++ le16 counts[k].toNat ++
              sle16 ((counts[k].toNat : Int) - (s.keypad.keys[k].baseline : Int)) ++ [t.keypad.keys[k].state.code])) ∧
        s.xmem.partWrote
          ((if s.rebaselineCause t = 0 then [] else [(0x0C, 2), (0x100, 0x400)]) ++ [(0x700, 0xC0)])
          (s.rebaselineCause t) t.xmem ∧
        s.rebaselineScanned t

/-- SCAN_END: an accepted scan moves each enabled key, offers events, tells of the power key and ends a rebaseline.
R128, R130 to R134, R138, R140 to R142 and R144 to R147, with R92 and R93 and the completion of R170 to R172. A drift
count at or beyond the drift period has reached it (log entry 15). That a scan waits for the chords of its slot start
is the model's reading (log entry 9). The delta that the page shows is the model's reading (log entry 24). A GAP entry
carries the slot count of the event that found room (log entry 26). That a rebaseline which ends with OK clears its
stop pending is the model's choice (log entry 43). -/
def Obligations.AcceptedScanMovesTheKeys : Prop :=
  ∀ (s : State) (p : Image) (n : SlotCount) (counts : Vector (BitVec 12) 24),
    s.store.active = some p →
    s.xmem.wf = true →
    s.scanDue = some n →
    s.scanTakesNone (s.finishesKey p) →
    ¬ Profile.maxSimultaneous p < ((List.finRange 24).filter fun k =>
        Profile.keyEnabled p k && s.keypad.keys[k].state != .calibrating &&
          decide (((Profile.touchThreshold p + if s.keypad.fog then Profile.fogAdd p else 0 : Nat) : Int) ≤
            (counts[k].toNat : Int) - (s.keypad.keys[k].baseline : Int))).length →
      ∃ t, exec (.scanEnd counts) s = .next t ∧
        (∀ k : Fin 24, Profile.keyEnabled p k = true →
          let old := s.keypad.keys[k]
          let delta : Int := (counts[k].toNat : Int) - (old.baseline : Int)
          let pressed : Bool := ((Profile.touchThreshold p + if s.keypad.fog then Profile.fogAdd p else
            0 : Nat) : Int) ≤ delta
          let kept : Bool := (Profile.releaseThreshold p : Int) ≤ delta
          let stuck : Bool := old.touchTime.any fun m => Profile.stuckLimit p * 64 ≤ (n - m).toNat
          let eighth : Bool := old.calCount + 1 = 8
          t.keypad.keys[k].raw = counts[k].toNat ∧
            t.keypad.keys[k].state =
              (match old.state with
               | .idle => if pressed then .pressing1 else .idle
               | .pressing1 => if pressed then .pressing2 else .idle
               | .pressing2 => if pressed then .touched else .idle
               | .touched => if stuck then .idle else if kept then .touched else .releasing1
               | .releasing1 => if stuck then .idle else if kept then .touched else .releasing2
               | .releasing2 => if kept then (if stuck then .idle else .touched) else .idle
               | .calibrating => if s.stopsKey k ∨ eighth then .idle else .calibrating) ∧
            t.keypad.keys[k].baseline =
              (match old.state with
               | .idle =>
                 if pressed then old.baseline
                 else if delta ≤ -(Profile.releaseThreshold p : Int) then counts[k].toNat
                 else if delta.natAbs < Profile.noiseBand p ∧ Profile.driftPeriod p ≤ old.drift + 1 then
                   if old.baseline < counts[k].toNat then old.baseline + 1
                   else if counts[k].toNat < old.baseline then old.baseline - 1 else old.baseline
                 else old.baseline
               | .pressing1 => old.baseline
               | .pressing2 => old.baseline
               | .touched => if stuck then counts[k].toNat else old.baseline
               | .releasing1 => if stuck then counts[k].toNat else old.baseline
               | .releasing2 => if kept ∧ stuck then counts[k].toNat else old.baseline
               | .calibrating =>
                 if s.stopsKey k = false ∧ eighth then (old.calSum + counts[k].toNat) / 8 else old.baseline)) ∧
        (∀ k : Fin 24, Profile.keyEnabled p k = false →
          t.keypad.keys[k] =
            if s.stopsKey k then { s.keypad.keys[k] with state := .idle, calSum := 0, calCount := 0 }
            else s.keypad.keys[k]) ∧
        t.keypad.scan = none ∧
        (∀ k : Fin 24, Profile.keyEnabled p k = true →
          t.xmem.shows (0x700 + 8 * k.val)
            (le16 t.keypad.keys[k].baseline ++ le16 counts[k].toNat ++
              sle16 ((counts[k].toNat : Int) - (s.keypad.keys[k].baseline : Int)) ++ [t.keypad.keys[k].state.code])) ∧
        t.sense = s.sense ∧
        t.air = s.air ∧
        t.store = s.store ∧
        t.time = s.time ∧
        s.touchesMoved p n counts t ∧
        s.eventsOffered p n counts t ∧
        s.powerKeyTold p n counts t ∧
        s.rebaselineScanned t

/-- HOLD sets the next hold and is offered to the key queue. R137 with R141 and R142. A GAP entry carries the slot
count of the event that found room (log entry 26). That the end may be taken in its slot or just before is the model's
reading (log entry 9). -/
def Obligations.HoldEventIsOffered : Prop :=
  ∀ (s : State) (p : Image) (k : Fin 24) (e : SlotCount),
    s.store.active = some p →
    s.xmem.wf = true →
    s.due s.keypad.keys[k].nextHold = some e →
      ∃ t, exec (.hold k) s = .next t ∧
        (let w := s.keypad.writeCounter
         let held := (w - s.keypad.readCounter).toNat
         let taking : Bool := s.rail.state = .running ∨ s.rail.state = .stopping
         let kp := s.keypad.setKey k { s.keypad.keys[k] with nextHold := some (after e (Profile.repeatPeriod p)) }
         t = { s with keypad := t.keypad, xmem := t.xmem } ∧
           (taking = false → t.keypad = kp ∧ t.xmem = s.xmem) ∧
           (taking = true → 32 ≤ held →
             t.keypad = { kp with gap := min 255 (s.keypad.gap + 1) } ∧
               t.xmem.peek 0x18 = BitVec.ofNat 8 t.keypad.gap ∧ s.xmem.partWrote [(0x18, 1)] 0 t.xmem) ∧
           (taking = true → held < 32 → s.keypad.gap = 0 →
             t.keypad = { kp with writeCounter := w + 1 } ∧
               t.xmem.shows (0x500 + 8 * (w.toNat % 32)) (le16 w.toNat ++ [4, BitVec.ofNat 8 k.val] ++ le32 e.toNat) ∧
               t.xmem.shows 0x14 (le16 (w + 1).toNat) ∧
               s.xmem.partWrote [(0x0C, 2), (0x14, 2), (0x500 + 8 * (w.toNat % 32), 8)] Cause.key.bit t.xmem) ∧
           (taking = true → held < 31 → 0 < s.keypad.gap →
             t.keypad = { kp with writeCounter := w + 2, gap := 0 } ∧
               t.xmem.shows (0x500 + 8 * (w.toNat % 32))
                 (le16 w.toNat ++ [6, BitVec.ofNat 8 s.keypad.gap] ++ le32 e.toNat) ∧
               t.xmem.shows (0x500 + 8 * ((w + 1).toNat % 32))
                 (le16 (w + 1).toNat ++ [4, BitVec.ofNat 8 k.val] ++ le32 e.toNat) ∧
               t.xmem.shows 0x14 (le16 (w + 2).toNat) ∧ t.xmem.peek 0x18 = 0 ∧
               s.xmem.partWrote
                 [(0x0C, 2), (0x14, 2), (0x18, 1), (0x500 + 8 * (w.toNat % 32), 8),
                   (0x500 + 8 * ((w + 1).toNat % 32), 8)] Cause.key.bit t.xmem) ∧
           (taking = true → held = 31 → 0 < s.keypad.gap →
             t.keypad = { kp with writeCounter := w + 1, gap := 1 } ∧
               t.xmem.shows (0x500 + 8 * (w.toNat % 32))
                 (le16 w.toNat ++ [6, BitVec.ofNat 8 s.keypad.gap] ++ le32 e.toNat) ∧
               t.xmem.shows 0x14 (le16 (w + 1).toNat) ∧ t.xmem.peek 0x18 = 1 ∧
               s.xmem.partWrote [(0x0C, 2), (0x14, 2), (0x18, 1), (0x500 + 8 * (w.toNat % 32), 8)] Cause.key.bit
                 t.xmem))

/-- CHORD: the chord fires, and chord 0 in LOCKOUT clears the ladder and starts a warm-up. R138 and R139 with R88,
R117 and R142. That the end may be taken in its slot or just before is the model's reading (log entry 9). -/
def Obligations.ChordFires : Prop :=
  ∀ (s : State) (p : Image) (c : Fin 4) (e : SlotCount),
    s.store.active = some p →
    s.xmem.wf = true →
    s.due s.keypad.chords[c].holdEnd = some e →
    s.keypad.chords[c].fired = false →
      ∃ t, exec (.chord c) s = .next t ∧
        t.keypad.chords = s.keypad.chords.set c { fired := true, holdEnd := none } ∧
        t.keypad.keys = s.keypad.keys ∧
        (c = 0 → s.rail.state = .lockout →
          t.rail.state = .warming ∧ t.mon = { s.mon with ladderIndex := 0 } ∧ t.watchdogShown e ∧
            t.keypad.writeCounter = s.keypad.writeCounter ∧ t.keypad.gap = s.keypad.gap ∧
            t.xmem.peek 0x19 = 1 ∧ t.xmem.peek 0x0AF = 0 ∧
            s.xmem.partWrote [(0x19, 2), (0x0AC, 2), (0x0AF, 3)] 0 t.xmem) ∧
        (¬(c = 0 ∧ s.rail.state = .lockout) → t = { s with keypad := t.keypad, xmem := t.xmem }) ∧
        ((s.rail.state = .running ∨ s.rail.state = .stopping) → s.keypad.gap = 0 →
          (s.keypad.writeCounter - s.keypad.readCounter).toNat < 32 →
          t.keypad.writeCounter = s.keypad.writeCounter + 1 ∧
            t.xmem.shows (0x500 + 8 * (s.keypad.writeCounter.toNat % 32))
              (le16 s.keypad.writeCounter.toNat ++ [5, BitVec.ofNat 8 c.val] ++ le32 e.toNat) ∧
            s.xmem.partWrote
              [(0x0C, 2), (0x14, 2), (0x500 + 8 * (s.keypad.writeCounter.toNat % 32), 8)] Cause.key.bit t.xmem) ∧
        t.time = s.time ∧
        t.sense = s.sense ∧
        t.air = s.air ∧
        t.engine = s.engine ∧
        t.store = s.store

/-- KEY_READ_COUNTER: a value within the queue is taken, any other is clamped. R143 with R141. A GAP entry's slot
count is the model's reading (log entry 26). That the row is one WRITE frame, and what the frame leaves, is the
model's choice (log entry 16, with 12 and 13). -/
def Obligations.ReadCounterIsTakenOrClamped : Prop :=
  ∀ (s : State) (p : Image) (v : Half),
    s.store.active = some p →
    s.xmem.wf = true →
    s.xmem.ready = true →
      ∃ t, exec (.keyReadCounter v) s = .next t ∧
        (let r := s.keypad.readCounter
         let w := s.keypad.writeCounter
         let r' := if (v - r).toNat ≤ (w - r).toNat then v else w
         let gapGoes : Bool :=
           0 < s.keypad.gap ∧ (w - r').toNat < 32 ∧ (s.rail.state = .running ∨ s.rail.state = .stopping)
         t.xmem.shows 0x16 (le16 r'.toNat) ∧ t = { s with keypad := t.keypad, xmem := t.xmem } ∧
           (gapGoes = false →
             t.keypad = { s.keypad with readCounter := r' } ∧ s.xmem.frameWrote [(0x16, 2)] 0 t.xmem) ∧
           (gapGoes = true →
             t.keypad = { s.keypad with readCounter := r', writeCounter := w + 1, gap := 0 } ∧
               t.xmem.shows (0x500 + 8 * (w.toNat % 32))
                 (le16 w.toNat ++ [6, BitVec.ofNat 8 s.keypad.gap] ++ le32 s.time.slotCount.toNat) ∧
               t.xmem.shows 0x14 (le16 (w + 1).toNat) ∧ t.xmem.peek 0x18 = 0 ∧
               s.xmem.frameWrote [(0x0C, 2), (0x14, 5), (0x500 + 8 * (w.toNat % 32), 8)] Cause.key.bit t.xmem))

/-- READ_ADDRESS_COMPLETE opens the covered range; READ returns it and lands what was held, or is cut off in its
address. R150, R152 and R153. What the frame record keeps after the frame, and a frame that begins while another is
open, are the model's choice (log entries 12 and 13). -/
def Obligations.ReadFrameReturnsTheSnapshot : Prop :=
  ∀ (s : State) (high low : Byte) (n : Nat),
    s.xmem.wf = true →
      ∃ t, exec (.readAddressComplete high low) s = .next t ∧
        t = { s with xmem := t.xmem } ∧
        t.xmem.frame.covered = some (high.toNat * 256 + low.toNat) ∧
        t.xmem.frame.phase = .data ∧
        t.xmem.frame.held = [] ∧
        (∀ a < memorySize, Memory.read t.xmem.mem a = s.xmem.peek a) ∧
        t.xmem.ready = s.xmem.ready ∧
        t.xmem.refused = s.xmem.refused ∧
        t.xmem.range = s.xmem.range ∧
        t.xmem.summary = s.xmem.summary ∧
        t.xmem.enable = s.xmem.enable ∧
        (∀ start, s.xmem.frame.covered = some start →
          ∃ u, exec (.read n) s = .next u ∧ u = { s with xmem := u.xmem } ∧
            u.xmem.miso =
              s.xmem.miso ++
                (List.range n).map (fun i =>
                  if start + i < memorySize then Memory.read s.xmem.mem (start + i) else 0) ∧
            u.xmem.range = (s.xmem.range || (decide (0 < n) && decide (memorySize < start + n))) ∧
            u.xmem.refused = s.xmem.refused ∧ u.xmem.summary = s.xmem.summary ∧ u.xmem.enable = s.xmem.enable ∧
            u.xmem.ready = s.xmem.ready ∧ u.xmem.frame.covered = none ∧ u.xmem.frame.held = [] ∧
            u.xmem.frame.phase = .idle ∧ ∀ a < memorySize, Memory.read u.xmem.mem a = s.xmem.peek a) ∧
        t.xmem.miso = [0, 0, 0] ∧
        (s.xmem.frame.covered = none → n ≤ 1 →
          ∃ v, exec (.read n) s = .next v ∧ v = { s with xmem := v.xmem } ∧
            v.xmem.frame =
              { phase := .idle, command := some .read, addressCounter := 0, addressBytes := n, buffer := [], held := [],
                latched := none, covered := none } ∧
            v.xmem.miso = List.replicate (n + 1) 0 ∧ v.xmem.ready = s.xmem.ready ∧ v.xmem.refused = s.xmem.refused ∧
            v.xmem.range = s.xmem.range ∧ v.xmem.summary = s.xmem.summary ∧ v.xmem.enable = s.xmem.enable ∧
            ∀ a < memorySize, v.xmem.peek a = s.xmem.peek a)

/-- WRITE: every byte is judged by the table of R156 against the memory before the frame, and the accepted ones land.
R154, R155 and R156, with R164. What a frame does that begins while a READ frame is open, and the phase IDLE after a
frame, are the model's choice (log entries 12 and 13). -/
def Obligations.WriteFrameIsJudgedThenLanded : Prop :=
  ∀ (s : State) (p : Image) (high low : Byte) (data : List Byte),
    s.store.active = some p →
    s.xmem.wf = true →
    s.xmem.ready = true →
      ∃ t, exec (.write (high :: low :: data)) s = .next t ∧
        (let start := high.toNat * 256 + low.toNat
         let byte (a : Nat) : Byte := data.getD (a - start) 0
         let sent (a : Nat) : Bool := start ≤ a && decide (a < start + data.length)
         let accepted (a : Nat) : Bool := sent a && s.accepts a (byte a)
         let delivers (a : Nat) : Bool :=
           accepted a && (actionByte a || (decide (0x100 ≤ a) && decide (a < 0x500) && (a - 0x100) % 64 == 0))
         (t.xmem.refused = true ↔
             s.xmem.refused = true ∨ ∃ a < memorySize, sent a = true ∧ accepted a = false) ∧
           t.xmem.range = (s.xmem.range || (decide (0 < data.length) && decide (memorySize < start + data.length))) ∧
           ((∀ a < memorySize, delivers a = false) →
             (∀ a < memorySize, t.xmem.peek a = if accepted a then byte a else s.xmem.peek a) ∧
               t = { s with xmem := t.xmem } ∧ t.xmem.summary = s.xmem.summary ∧ t.xmem.enable = s.xmem.enable)) ∧
        t.xmem.ready = s.xmem.ready ∧
        t.xmem.frame.covered = none ∧
        t.xmem.frame.held = [] ∧
        (∀ cut ∈ [[], [high]],
          ∃ u, exec (.write cut) s = .next u ∧ u = { s with xmem := u.xmem } ∧
            s.xmem.frameWrote [] 0 u.xmem)

/-- WRITE and CLEAR before READY set REFUSED and change nothing else, and no tach event writes the memory. R158. That
the live page does not show an rpm formed before the load is the model's choice (log entry 7). -/
def Obligations.BeforeReadyEverythingIsRefused : Prop :=
  ∀ (s : State) (high low b : Byte) (data : List Byte) (n : Nat) (f : Fin 2) (us : Nat),
    s.xmem.wf = true →
    s.xmem.ready = false →
    high.toNat * 256 + low.toNat < memorySize →
      ∃ t, exec (.write (high :: low :: b :: data)) s = .next t ∧
        t = { s with xmem := t.xmem } ∧
        t.xmem.refused = true ∧
        (∀ a < memorySize, t.xmem.peek a = s.xmem.peek a) ∧
        t.xmem.ready = false ∧
        t.xmem.summary = s.xmem.summary ∧
        t.xmem.enable = s.xmem.enable ∧
        (∃ u, exec (.clear n) s = .next u ∧ u = { s with xmem := u.xmem } ∧ u.xmem.refused = true ∧
          u.xmem.range = s.xmem.range ∧ u.xmem.summary = s.xmem.summary ∧ u.xmem.enable = s.xmem.enable ∧
          ∀ a < memorySize, u.xmem.peek a = s.xmem.peek a) ∧
        (s.store.active = none →
          ∃ v, exec (.tachEdge f us) s = .next v ∧ v.xmem = s.xmem ∧
            ∃ w, exec (.tachTimeout f) s = .next w ∧ w.xmem = s.xmem)

/-- STATUS returns the latched byte and clears REFUSED and RANGE; an unknown command sets REFUSED. R150 and R151. What
the frame record keeps after the frame is the model's choice (log entry 13). -/
def Obligations.StatusAndUnknownFrames : Prop :=
  ∀ (s : State) (n : Nat) (b : Byte),
    s.xmem.wf = true →
    (Instr.unknownCommand b n).wellFormed = true →
      ∃ t, exec (.status n) s = .next t ∧
        t = { s with xmem := t.xmem } ∧
        (let latched : Byte :=
           flagByte s.xmem.ready ||| (flagByte s.xmem.refused <<< 1) ||| (flagByte s.xmem.range <<< 2) |||
             (flagByte ((s.xmem.summary &&& s.xmem.enable) != 0) <<< 3)
         t.xmem.miso = 0 :: List.replicate n latched ∧ t.xmem.frame.latched = some latched) ∧
        t.xmem.refused = (s.xmem.refused && n == 0) ∧
        t.xmem.range = (s.xmem.range && n == 0) ∧
        t.xmem.ready = s.xmem.ready ∧
        t.xmem.summary = s.xmem.summary ∧
        t.xmem.enable = s.xmem.enable ∧
        (∀ a < memorySize, t.xmem.peek a = s.xmem.peek a) ∧
        (∃ u, exec (.unknownCommand b n) s = .next u ∧ u = { s with xmem := u.xmem } ∧ u.xmem.refused = true ∧
          u.xmem.range = s.xmem.range ∧ u.xmem.ready = s.xmem.ready ∧ u.xmem.summary = s.xmem.summary ∧
          u.xmem.enable = s.xmem.enable ∧ u.xmem.miso = List.replicate (n + 1) 0 ∧
          ∀ a < memorySize, u.xmem.peek a = s.xmem.peek a)

/-- CLEAR raises host restart clearing and leaves the rail as it is. R94 and R158, with R41, R64, R121, R122, R148,
R162 and R174, and the remaining seconds of R124. -/
def Obligations.ClearFrameRaisesClearing : Prop :=
  ∀ (s : State) (p : Image) (n : Nat),
    s.store.active = some p →
    s.xmem.wf = true →
    s.xmem.ready = true →
      ∃ t, exec (.clear n) s = .next t ∧
        s.hostCleared p 0 t ∧
        t.rail = s.rail ∧
        t.engine.served = s.engine.served ∧
        t.mon.ladderIndex = s.mon.ladderIndex ∧
        t.mon.records = s.mon.records ∧
        t.mon.lastRefusal = s.mon.lastRefusal ∧
        t.mon.stableEnd = s.mon.stableEnd ∧
        (s.mon.armed = Profile.watchdogArmed p → t.mon.watchdog = s.mon.watchdog ∧ t.mon.stageEnd = s.mon.stageEnd) ∧
        t.mon = s.monitorCleared p s.time.slotCount ∧
        t.watchdogShown s.time.slotCount ∧
        t.climate.answer = s.climate.answer ∧
        t.xmem.ready = true ∧
        t.xmem.refused = s.xmem.refused ∧
        t.xmem.range = s.xmem.range ∧
        (∀ a < memorySize, outside [(0x0C, 2), (0x10, 2), (0x16, 3), (0x1A, 1), (0x0B0, 2), (0x100, 0x400)] a = true →
          t.xmem.peek a = s.xmem.peek a)

/-- ATTENTION_ACKNOWLEDGE clears the named causes; ATTENTION_ENABLE sets the enable. R161 with R157. That the row is
one WRITE frame is the model's choice (log entry 16). -/
def Obligations.AttentionWordsAreDelivered : Prop :=
  ∀ (s : State) (p : Image) (w : Half),
    s.store.active = some p →
    s.xmem.wf = true →
    s.xmem.ready = true →
      ∃ t, exec (.attentionAcknowledge w) s = .next t ∧
        (let low : BitVec 12 := BitVec.ofNat 12 w.toNat
         t = { s with xmem := t.xmem } ∧ t.xmem.summary = s.xmem.summary &&& ~~~low ∧
           t.xmem.enable = s.xmem.enable ∧ t.xmem.attn = decide (s.xmem.summary &&& ~~~low &&& s.xmem.enable ≠ 0) ∧
           t.xmem.shows 0x0C (le16 t.xmem.summary.toNat ++ [0, 0]) ∧
           t.xmem.refused = s.xmem.refused ∧ t.xmem.range = s.xmem.range ∧ t.xmem.ready = true ∧
           (∀ a < memorySize, outside [(0x0C, 4)] a = true → t.xmem.peek a = s.xmem.peek a) ∧
           ∃ u, exec (.attentionEnable w) s = .next u ∧ u = { s with xmem := u.xmem } ∧ u.xmem.enable = low ∧
             u.xmem.summary = s.xmem.summary ∧ u.xmem.attn = decide (s.xmem.summary &&& low ≠ 0) ∧
             u.xmem.shows 0x10 (le16 low.toNat) ∧ u.xmem.refused = s.xmem.refused ∧ u.xmem.range = s.xmem.range ∧
             u.xmem.ready = true ∧
             ∀ a < memorySize, outside [(0x10, 2)] a = true → u.xmem.peek a = s.xmem.peek a)

/-- SLIP_CHAIN, SLIP_WITHDRAW, SLIP_FREE and SLIP_STOPREQ follow the host transitions. R164 and R173, with R156 and
R157. That the row is one WRITE frame, what it does while a READ frame is open, and the phase IDLE after it are the
model's choice (log entries 16, 12 and 13). -/
def Obligations.OwnerBytesFollowTheTransitions : Prop :=
  ∀ (s : State) (p : Image) (n : Fin 16) (c : Instr) (o : Byte),
    s.store.active = some p →
    s.xmem.wf = true →
    s.xmem.ready = true →
    (c, o) ∈ [(Instr.slipChain n, (2 : Byte)), (.slipWithdraw n, 0), (.slipFree n, 0), (.slipStopreq n, 4)] →
      ∃ t, exec c s = .next t ∧
        (let cur := s.xmem.peek (slotAddr n.val)
         let allowed : Bool := if o = 2 then cur = 0 else if o = 4 then cur = 3 else (cur = 1 ∨ cur = 2 ∨ cur = 5)
         (allowed = true → t.xmem.peek (slotAddr n.val) = o ∧ s.xmem.frameWrote [(slotAddr n.val, 1)] 0 t.xmem) ∧
           (allowed = false →
             t.xmem.refused = true ∧ t.xmem.range = s.xmem.range ∧ t.xmem.summary = s.xmem.summary ∧
               t.xmem.enable = s.xmem.enable ∧ ∀ a < memorySize, t.xmem.peek a = s.xmem.peek a)∧
           t =
             { s with
               xmem := t.xmem
               air :=
                 if o = 4 ∧ allowed = true ∧ s.engine.airSlot = some n then
                   { s.air with
                     probe :=
                       { s.air.probe with
                         stopPending :=
                           s.air.probe.stopPending || s.air.probe.phase == .waiting || s.air.probe.phase == .settle ||
                             s.air.probe.phase == .measure } }
                 else s.air
               keypad :=
                 if o = 4 ∧ allowed = true ∧ s.engine.airSlot ≠ some n ∧ s.engine.keypadSlot = some n then
                   { s.keypad with stopPending := true }
                 else s.keypad })

/-- SLIP_POST offers a slot, an idle engine takes it, and a slot start takes the first by priority and turn. R164,
R167 with its Note, and R168. That the row is one WRITE frame, what it does while a READ frame is open, and the phase
IDLE after it are the model's choice (log entries 16, 12 and 13). -/
def Obligations.PostedSlotIsTakenInTurn : Prop :=
  ∀ (s : State) (p : Image) (n : Fin 16) (pgood hsleep : Bool) (levels : BitVec 4) (data : List Byte),
    s.store.active = some p →
    s.xmem.wf = true →
    s.xmem.ready = true →
      ∃ t, exec (.slipPost n) s = .next t ∧
        (let cur := s.xmem.peek (slotAddr n.val)
         let body := (List.range 32).map fun i => s.xmem.peek (slotAddr n.val + i)
         let kind := (s.xmem.peek (slotAddr n.val + 1)).toNat
         ((cur = 0 ∨ cur = 5) → s.engine.served = true →
             t = { s with xmem := t.xmem } ∧ t.xmem.peek (slotAddr n.val) = 1 ∧
               s.xmem.frameWrote [(slotAddr n.val, 1)] 0 t.xmem) ∧
           (s.takesNow n = true →
             t.engine.served = true ∧ (kind ≠ 6 → t.engine.lastServed = n) ∧
               t.xmem.peek (slotAddr n.val) ≠ 1) ∧
           (s.takesNow n = true → kind = 0 ∨ 10 < kind →
             t = { s with engine := s.engine.afterTake n, xmem := t.xmem } ∧
               s.xmem.slipDone n body (SlipResult.only .unknownKind) [] 0 t.xmem) ∧
           (¬(cur = 0 ∨ cur = 5) →
             t = { s with xmem := t.xmem } ∧ t.xmem.refused = true ∧
               ∀ a < memorySize, t.xmem.peek a = s.xmem.peek a)) ∧
        (s.firstPosted n →
          ∃ u, exec (.slotStart pgood hsleep levels) s = .next u ∧ u.engine.served = true ∧
            u.xmem.ownerIs n.val .posted = false ∧
            (s.xmem.peek (slotAddr n.val + 1) ≠ 6 →
              u.engine.lastServed = n ∧
                ∀ m : Fin 16, m ≠ n → s.xmem.ownerIs m.val .posted = true → u.xmem.ownerIs m.val .posted = true)) ∧
        (s.takesNow n = true →
          ∃ u, exec (.write (BitVec.ofNat 8 (slotAddr n.val / 256) :: BitVec.ofNat 8 (slotAddr n.val) :: 1 :: data)) s =
              .next u ∧
            u.engine.served = true ∧ u.xmem.ownerIs n.val .posted = false ∧
            (data.getD 0 (s.xmem.peek (slotAddr n.val + 1)) ≠ 6 →
              u.engine.lastServed = n ∧
                ∀ m : Fin 16, n < m → slotAddr m.val - slotAddr n.val ≤ data.length →
                  data.getD (slotAddr m.val - slotAddr n.val - 1) 0 = 1 →
                  (s.xmem.ownerIs m.val .free = true ∨ s.xmem.ownerIs m.val .done = true) →
                    u.xmem.ownerIs m.val .posted = true))

/-- SET ZONE TARGET and SET FAN FLOOR set, clamp or remove the host's figure. R20 and R51 with R168 and R170. That the
row is one WRITE frame, and what a frame does that begins while a READ frame is open, are the model's choice (log
entries 16 and 12). -/
def Obligations.ZoneTargetAndFanFloorSlips : Prop :=
  ∀ (s : State) (p : Image) (h : SlipHead) (zone action : Byte) (setpoint : Half) (fan floor : Byte),
    s.xmem.wf = true →
    s.takesNow h.slot = true →
    s.store.active = some p →
      ∃ t, exec (.setZoneTarget h zone action setpoint) s = .next t ∧
        (let sp : Int := setpoint.toInt
         let set : Bool := zone.toNat < 3 ∧ action = 1
         let release : Bool := zone.toNat < 3 ∧ action = 2
         let result : SlipResult :=
           if set then
             { code := .ok, detail := if -400 ≤ sp ∧ sp ≤ 600 then 0 else 1, payload := [] }
           else if release then SlipResult.ok else SlipResult.only .badParam
         t =
             { s with
               climate :=
                 { s.climate with
                   zones := tab 3 fun z =>
                     if z.val = zone.toNat ∧ (set = true ∨ release = true) then
                       { s.climate.zones[z] with override := if set then some (max (-400) (min 600 sp)) else none }
                     else s.climate.zones[z] }
               engine := s.engine.afterTake h.slot
               xmem := t.xmem } ∧
           s.xmem.slipDone h.slot (slipBody h 1 (zone :: action :: le16 setpoint.toNat)) result [] 0 t.xmem) ∧
        (∃ u, exec (.setFanFloor h fan floor) s = .next u ∧
          (let result : SlipResult :=
            if fan.toNat < 2 then { code := .ok, detail := if floor.toNat ≤ 100 then 0 else 1, payload := [] }
            else SlipResult.only .badParam
          u =
              { s with
                air :=
                  { s.air with
                    fans := tab 2 fun f =>
                      if f.val = fan.toNat then
                        { s.air.fans[f] with floor := if floor = 0 then none else some (min 100 floor.toNat) }
                      else s.air.fans[f] }
                engine := s.engine.afterTake h.slot
                xmem := u.xmem } ∧
            s.xmem.slipDone h.slot (slipBody h 2 [fan, floor]) result [] 0 u.xmem))

/-- REQUEST STOP takes a RUNNING rail into STOPPING, and is NOT_NOW elsewhere. R96 with R84, R104, R124 and R170. That
the row is one WRITE frame, and what a frame does that begins while a READ frame is open, are the model's choice (log
entries 16 and 12). -/
def Obligations.RequestStopBeginsAnOrderlyStop : Prop :=
  ∀ (s : State) (p : Image) (h : SlipHead) (delay : BitVec 32),
    s.xmem.wf = true →
    s.takesNow h.slot = true →
    s.store.active = some p →
      ∃ t, exec (.requestStop h delay) s = .next t ∧
        (s.rail.state = .running →
          t =
              { s with
                rail :=
                  { s.rail with
                    state := .stopping, stopRestart := min 86400 delay.toNat, sleepCount := 0
                    stopLimit := some (after s.time.slotCount (Profile.stopLimit p * 64)) }
                mon :=
                  { s.mon with
                    watchdog := if s.mon.watchdog = .expired then .expired else .dormant
                    stageEnd := if s.mon.watchdog = .expired then s.mon.stageEnd else none
                    stableEnd := none }
                engine := s.engine.afterTake h.slot, xmem := t.xmem } ∧
            t.xmem.peek 0x19 = 4 ∧ t.watchdogShown s.time.slotCount ∧
            s.xmem.slipDone h.slot (slipBody h 5 (le32 delay.toNat))
              { code := .ok, detail := if delay.toNat ≤ 86400 then 0 else 1, payload := [] }
              [(0x19, 2), (0x0B0, 2)] 0 t.xmem) ∧
        (s.rail.state ≠ .running →
          t = { s with engine := s.engine.afterTake h.slot, xmem := t.xmem } ∧
            s.xmem.slipDone h.slot (slipBody h 5 (le32 delay.toNat)) (SlipResult.only .notNow) [] 0 t.xmem)

/-- REQUEST RESTART: WARM enters RESETTING, COLD cuts into COOLDOWN, both with a record. R97 with R78, R86, R94, R95,
R104, R118, R119, R122 and R124. That the row is one WRITE frame, and what a frame does that begins while a READ frame
is open, are the model's choice (log entries 16 and 12). -/
def Obligations.RequestRestartResetsOrCuts : Prop :=
  ∀ (s : State) (p : Image) (h : SlipHead) (mode : Byte),
    s.xmem.wf = true →
    s.takesNow h.slot = true →
    s.store.active = some p →
      ∃ t, exec (.requestRestart h mode) s = .next t ∧
        (let valid : Bool := mode = 1 ∨ mode = 2
         (valid = false →
             t = { s with engine := s.engine.afterTake h.slot, xmem := t.xmem } ∧
               s.xmem.slipDone h.slot (slipBody h 6 [mode]) (SlipResult.only .badParam) [] 0 t.xmem) ∧
           (valid = true → s.rail.state ≠ .running →
             t = { s with engine := s.engine.afterTake h.slot, xmem := t.xmem } ∧
               s.xmem.slipDone h.slot (slipBody h 6 [mode]) (SlipResult.only .notNow) [] 0 t.xmem)) ∧
        (mode = 2 → s.rail.state = .running →
          t.mon.ladderIndex = s.mon.ladderIndex ∧
            s.recordAdded s.time.slotCount .hostRequest .cold s.mon.ladderIndex .running t ∧
            s.railWentOff (some (true, Profile.minimumOff p * 64)) s.time.slotCount t ∧
            t =
                { s with
                  rail := t.rail, mon := t.mon, climate := t.climate
                  engine := s.engine.afterTake h.slot, xmem := t.xmem } ∧
            s.xmem.slipDone h.slot (slipBody h 6 [mode]) SlipResult.ok cutBytes Cause.restartNote.bit t.xmem) ∧
        (mode = 1 → s.rail.state = .running →
          t.rail =
              { s.rail with
                state := .resetting
                hrst := if Profile.resetDelay p = 0 then true else s.rail.hrst
                resetDelay :=
                  if Profile.resetDelay p = 0 then none
                  else some (after s.time.slotCount (Profile.resetDelay p))
                resetWidth :=
                  if Profile.resetDelay p = 0 then some (after s.time.slotCount (Profile.resetWidth p))
                  else s.rail.resetWidth } ∧
            t.mon.ladderIndex = s.mon.ladderIndex ∧
            s.recordAdded s.time.slotCount .hostRequest .warm s.mon.ladderIndex .running t ∧
            s.monitorReset p t ∧ t.watchdogShown s.time.slotCount ∧ s.hostCleared p Cause.restartNote.bit t ∧
            t.engine.served = true ∧ t.xmem.peek 0x19 = 5)

/-- SET WATCHDOG takes the stage values and arms or disarms. R120 and R121, with R102, R124 and R170. That the row is
one WRITE frame, and what a frame does that begins while a READ frame is open, are the model's choice (log entries 16
and 12). -/
def Obligations.WatchdogSlipArmsAndDisarms : Prop :=
  ∀ (s : State) (p : Image) (h : SlipHead) (mode : Byte) (s1 s2 early : Half),
    s.xmem.wf = true →
    s.takesNow h.slot = true →
    s.store.active = some p →
      ∃ t, exec (.setWatchdog h mode s1 s2 early) s = .next t ∧
        (let body := slipBody h 7 (mode :: 0 :: le16 s1.toNat ++ le16 s2.toNat ++ le16 early.toNat)
         let c1 := max 1 (min 3600 s1.toNat)
         let c2 := max 1 (min 600 s2.toNat)
         let ce := min (c1 - 1) early.toNat
         let taken : Bool := mode = 1 ∨ (mode = 2 ∧ Profile.disarmPermitted p)
         (taken = false →
             t = { s with engine := s.engine.afterTake h.slot, xmem := t.xmem } ∧
               s.xmem.slipDone h.slot body (SlipResult.only (if mode = 2 then .locked else .badParam)) [] 0 t.xmem) ∧
           (taken = true →
             t =
                 { s with
                   mon :=
                     { s.armedAs p (decide (mode = 1)) s.time.slotCount with
                       runtimeSet := { s1 := c1, s2 := c2, early := ce } }
                   engine := s.engine.afterTake h.slot, xmem := t.xmem } ∧
               s.xmem.slipDone h.slot body
                 { code := .ok
                   detail := if c1 = s1.toNat ∧ c2 = s2.toNat ∧ ce = early.toNat then 0 else 1
                   payload := [] } [(0x1A, 1), (0x0B0, 2)] 0 t.xmem ∧
               t.watchdogShown s.time.slotCount))

/-- READ PROFILE copies the active image to the staging area; UNKNOWN_KIND does nothing. R178 and R168, with R170. The
factory flag by origin is the model's reading (log entry 22). That the row is one WRITE frame, and what a frame does
that begins while a READ frame is open, are the model's choice (log entries 16 and 12). -/
def Obligations.ReadProfileCopiesTheImageOut : Prop :=
  ∀ (s : State) (p : Image) (h : SlipHead) (kind : Byte),
    s.xmem.wf = true →
    s.takesNow h.slot = true →
    s.store.active = some p →
    p.length = 1024 →
    (Instr.unknownKind h kind).wellFormed = true →
      ∃ t, exec (.readProfile h) s = .next t ∧
        t = { s with engine := s.engine.afterTake h.slot, xmem := t.xmem } ∧
        (s.store.commit = .idle →
          (∀ i < 1024, t.xmem.peek (0x800 + i) = p.getD i 0) ∧
            s.xmem.slipDone h.slot (slipBody h 9 [])
              { code := .ok, detail := 0
                payload := le16 (u16 p 1022) ++ [flagByte s.store.factoryActive] } [(0x800, 1024)] 0 t.xmem) ∧
        (s.store.commit ≠ .idle →
          s.xmem.slipDone h.slot (slipBody h 9 []) (SlipResult.only .busy) [] 0 t.xmem) ∧
        (∃ u, exec (.unknownKind h kind) s = .next u ∧
          u = { s with engine := s.engine.afterTake h.slot, xmem := u.xmem } ∧
          s.xmem.slipDone h.slot (slipBody h kind []) (SlipResult.only .unknownKind) [] 0 u.xmem)

/-- PROBE AIRFLOW and RESET FILTER REFERENCE are accepted unless a probe is in flight. R61 and R62 with R169. That the
row is one WRITE frame, what it does while a READ frame is open, and the phase IDLE after it are the model's choice
(log entries 16, 12 and 13). -/
def Obligations.ProbeSlipsWaitForABoundary : Prop :=
  ∀ (s : State) (p : Image) (h : SlipHead) (c : Instr) (o : ProbeOrigin) (kind : Byte),
    s.xmem.wf = true →
    s.takesNow h.slot = true →
    s.store.active = some p →
    (c, o, kind) ∈ [(Instr.probeAirflow h, ProbeOrigin.probeAirflow, (3 : Byte)), (.resetFilterReference h,
      .resetFilterReference, 4)] →
      ∃ t, exec c s = .next t ∧
        (s.air.probe.phase = .idle →
          t =
              { s with
                air := { s.air with probe := { s.air.probe with phase := .waiting, origin := some o } }
                engine := { s.engine.afterTake h.slot with airSlot := some h.slot }
                xmem := t.xmem } ∧
            s.xmem.slipTaken h.slot (slipBody h kind []) t.xmem) ∧
        (s.air.probe.phase ≠ .idle →
          t = { s with engine := s.engine.afterTake h.slot, xmem := t.xmem } ∧
            s.xmem.slipDone h.slot (slipBody h kind []) (SlipResult.only .busy) [] 0 t.xmem)

/-- REBASELINE KEYS puts the enabled keys named into calibration and ends their touches. R145 and R144 with R133, R140
to R142 and R169. The order of the RELEASE_FORCED events is the model's choice (log entry 40). A GAP entry among them
carries the slot count of the event that found room, which is its reading (log entry 26). That the row is one WRITE
frame, what it does while a READ frame is open, and the phase IDLE after it are the model's choice (log entries 16, 12
and 13). -/
def Obligations.RebaselineSlipCalibratesTheKeys : Prop :=
  ∀ (s : State) (p : Image) (h : SlipHead) (mask : BitVec 24),
    s.xmem.wf = true →
    s.takesNow h.slot = true →
    s.store.active = some p →
      ∃ t, exec (.rebaselineKeys h mask) s = .next t ∧
        (let named (k : Fin 24) : Bool := mask.getLsbD k.val && Profile.keyEnabled p k
         let some' : Bool := (List.finRange 24).any named
         let body := slipBody h 8 (maskPayload mask)
         let result : SlipResult :=
           if s.keypad.rebaseline.isSome then SlipResult.only .busy
           else if mask = 0 then SlipResult.only .badParam else { SlipResult.ok with payload := [0, 0, 0] }
         (s.keypad.rebaseline.isSome = true ∨ some' = false →
             t = { s with engine := s.engine.afterTake h.slot, xmem := t.xmem } ∧
               s.xmem.slipDone h.slot body result [] 0 t.xmem) ∧
           (s.keypad.rebaseline = none → some' = true →
             t.engine = { s.engine.afterTake h.slot with keypadSlot := some h.slot } ∧
               t.xmem.shows (slotAddr h.slot.val) (Owner.taken.code :: (body.drop 1).take 5 ++ [0, 0] ++ body.drop 8) ∧
               t.keypad.stopPending = false ∧
               (∀ k : Fin 24, (t.keypad.rebaseline.any fun m => m.getLsbD k.val) = named k) ∧
               (∀ k : Fin 24,
                 t.keypad.keys[k] =
                   if named k then
                     { s.keypad.keys[k] with
                       state := .calibrating, calSum := 0, calCount := 0
                       touchTime := if s.keypad.keys[k].state.isTouched then none else s.keypad.keys[k].touchTime
                       nextHold := if s.keypad.keys[k].state.isTouched then none else s.keypad.keys[k].nextHold }
                   else s.keypad.keys[k]) ∧
               s.touchesForced p (fun k => named k && s.keypad.keys[k].state.isTouched) [(slotAddr h.slot.val, 64)] t ∧
               ((∀ k : Fin 24, named k = true → s.keypad.keys[k].state.isTouched = false) →
                 t = { s with keypad := t.keypad, engine := t.engine, xmem := t.xmem } ∧
                   s.xmem.slipTaken h.slot body t.xmem)))

/-- COMMIT PROFILE is BUSY, INVALID or begins programming. R179 with R169, and the checks of R177 with R183. That
programming begun before the first slot start may end at it is the model's choice (log entry 44). That the priority
order is one field, so that a zone number above 2 in any of its bytes is reported at 0x080, is the model's reading
(log entry 23). That the row is one WRITE frame, what it does while a READ frame is open, and the phase IDLE after it
are the model's choice (log entries 16, 12 and 13). -/
def Obligations.CommitSlipValidatesTheStagedImage : Prop :=
  ∀ (s : State) (p : Image) (h : SlipHead),
    s.xmem.wf = true →
    s.takesNow h.slot = true →
    s.store.active = some p →
      ∃ t, exec (.commitProfile h) s = .next t ∧
        (let body := slipBody h 10 []
         (s.store.commit ≠ .idle →
             t = { s with engine := s.engine.afterTake h.slot, xmem := t.xmem } ∧
               s.xmem.slipDone h.slot body (SlipResult.only .busy) [] 0 t.xmem) ∧
           (∀ r, imageFailure s.xmem.staged = some r → s.store.commit = .idle →
             t = { s with engine := s.engine.afterTake h.slot, xmem := t.xmem } ∧
               s.xmem.slipDone h.slot body
                 { code := .invalid, detail := 0, payload := le16 r.1 ++ [BitVec.ofNat 8 r.2] } [] 0 t.xmem) ∧
           (s.store.commit = .idle → validImage s.xmem.staged = true →
             t =
                 { s with
                   store :=
                     { s.store with
                       commit := .programming, stagingHeld := true
                       programmingBegan := if s.store.service = .writing then none else some (if s.time.started then
                         s.time.slotCount else s.time.slotCount - 1) }
                   engine := { s.engine.afterTake h.slot with storeSlot := some h.slot }
                   xmem := t.xmem } ∧
               s.xmem.slipTaken h.slot body t.xmem)) ∧
        (let q := (List.range 1024).map fun i => s.xmem.peek (0x800 + i)
         s.xmem.staged = q ∧ (validImage q = true ↔ imageAccepted q) ∧
           ∀ k check, imageFailure q = some (k, check) ↔ imageRejected q k check) ∧
        crc16 [0x31, 0x32, 0x33, 0x34, 0x35, 0x36, 0x37, 0x38, 0x39] = 0x29B1

/-- SERVICE_WRITE_END: the record and the air controller hold the new reference, and a promoted slip is taken at once.
R181 and R62, with R170, R171 and R167. That the promoted slip is taken at the end of the block's work in the event is
the model's reading (log entry 20), and so is that the end may be taken in its slot or just before (log entry 9). -/
def Obligations.ServiceWriteEndTakesTheReference : Prop :=
  ∀ (s : State) (p : Image) (e : SlotCount),
    s.store.active = some p →
    s.xmem.wf = true →
    s.writeDue = some e →
      ∃ t, exec .serviceWriteEnd s = .next t ∧
        (let rf := s.store.serviceRf
         let c := if rf = 0 then 0xFFFF else 100
         let body := le16 rf ++ List.replicate 28 0
         t.store.serviceRecord = body ++ le16 (crc16 body) ∧ t.store.service = .idle ∧ t.air.filterReference = rf ∧
           t.air.clogIndex = c ∧ t.air.clogLimit = false ∧
           (s.engine.served = true ∨ (s.nonePosted ∧ s.unchained s.engine.airSlot) →
             t.store =
                 { s.store with
                   serviceRecord := body ++ le16 (crc16 body), service := .idle, writeBegan := none
                   programmingBegan :=
                     if s.store.commit = .programming then some e else s.store.programmingBegan } ∧
               t.air =
                 { s.air with
                   filterReference := rf, clogIndex := c, clogLimit := false
                   probe := { s.air.probe with phase := .idle } } ∧
               t.engine = { s.engine with airSlot := none } ∧
               t = { s with store := t.store, air := t.air, engine := t.engine, xmem := t.xmem } ∧
               (s.engine.airSlot = none → t.xmem = s.xmem) ∧
               ∀ n, s.engine.airSlot = some n →
                 s.xmem.slotCompleted n (s.xmem.slotBody n)
                     { code := .ok, detail := 0
                       payload :=
                         le16 s.air.probe.figures.rf ++ le16 c ++ sle16 s.air.probe.figures.averageRise ++
                           le16 s.air.probe.figures.averageDraw } t.xmem ∧
                   s.xmem.partWrote [(0x0C, 2), (0x100, 0x400)] Cause.slipDone.bit t.xmem)) ∧
        (s.engine.served = false → s.nonePosted → ∀ n, s.engine.airSlot = some n →
          ∀ m : Fin 16, m ≠ n → (s.xmem.peek (slotAddr n.val + 3)).toNat = m.val →
            s.xmem.ownerIs m.val .chained = true →
              t.engine.served = true ∧ t.xmem.ownerIs m.val .posted = false ∧
                (s.xmem.peek (slotAddr m.val + 1) ≠ 6 → t.engine.lastServed = m)) ∧
        s.store.service = .writing ∧
        (∃ b, s.store.writeBegan = some b ∧ 1 ≤ (e - b).toNat ∧ (e - b).toNat ≤ 6 ∧
          (e = s.time.slotCount ∨ (e = s.upcoming ∧ s.slotOver = true)))

/-- An event that the part times has no effect out of its time. The model's reading of an event that does not fall
(log entry 10). -/
def Obligations.EventsOutOfTheirTimeDoNothing : Prop :=
    ∀ (s : State) (c : Instr), selfTimed c = true → fallsNow s c = false → exec c s = .next s

/-- While a READ frame is open, no block's event changes what it returns. R153: the memory the frame reads from keeps
its old values. -/
def Obligations.OpenReadFrameKeepsItsSnapshot : Prop :=
    ∀ (s t : State) (c : Instr), s.xmem.wf = true → s.xmem.frame.covered.isSome = true → endsRead c = false →
      exec c s = .next t →
      t.xmem.frame.covered = s.xmem.frame.covered ∧ t.xmem.miso = s.xmem.miso ∧
        ∀ a, s.xmem.covers a = true → Memory.read t.xmem.mem a = Memory.read s.xmem.mem a

/-- Every step keeps the exchange memory and the held image in canonical form. The canonical form of the memory of
chapter 7. -/
def Obligations.MemoryKeepsItsCanonicalForm : Prop :=
    ∀ s t : State, s.xmem.wf = true → step s = .next t → t.xmem.wf = true

/-- Every step keeps lines, timers and watchdog in step with the rail state. R67, R68, R73, R74, R86, R87 and R104. -/
def Obligations.RailLinesFollowTheState : Prop :=
    ∀ s t : State, s.sound = true → step s = .next t → t.railSafe = true

/-- Every step keeps the granted heater power within the allotment. R32 and R40. -/
def Obligations.HeatersStayInTheBudget : Prop :=
    ∀ s t : State, s.sound = true → step s = .next t → t.budgetKept = true

/-- Every step keeps owner bytes and bindings together. R163 and R169. -/
def Obligations.SlipTableStaysSound : Prop :=
    ∀ s t : State, s.sound = true → step s = .next t → t.slipsSound = true

/-- Every step keeps the active, programmed and armed images valid and the ladder within bounds. R114 and R176 to
R180. -/
def Obligations.OnlyValidProfilesRun : Prop :=
    ∀ s t : State, s.sound = true → step s = .next t → t.profileSound = true ∧ t.ladderBounded = true ∧
        ∀ p, t.store.active = some p → imageAccepted p

/-- Every step keeps the key queue sound, and the copies in the header, the live page and the restart record region
that are written at each change equal to what the blocks hold. R14, R15, R98, R108, R118, R119, R124, R141 to R143,
R147, R160, R161, R176 and R180, for the copies named in the text. That the inputs' bits follow a new polarity is the
model's reading (log entry 32). -/
def Obligations.HeaderAndQueueShowTheBlocks : Prop :=
    ∀ s t : State, s.sound = true → step s = .next t → t.queueSound = true ∧ t.mirrored = true
end

