-- ==== Sys2Proof/Laws/State.lean ====
section
/-!
SUPPORT. What each block's updater does to each field of the state: the updated block is the function's value, every
other field is kept.
-/

namespace Sys2Proof.Machine

section mapTime
variable (s : State) (f : Timebase → Timebase)

@[simp] theorem State.mapTime_time : (s.mapTime f).time = f s.time := rfl
@[simp] theorem State.mapTime_sense : (s.mapTime f).sense = s.sense := rfl
@[simp] theorem State.mapTime_climate : (s.mapTime f).climate = s.climate := rfl
@[simp] theorem State.mapTime_air : (s.mapTime f).air = s.air := rfl
@[simp] theorem State.mapTime_rail : (s.mapTime f).rail = s.rail := rfl
@[simp] theorem State.mapTime_mon : (s.mapTime f).mon = s.mon := rfl
@[simp] theorem State.mapTime_keypad : (s.mapTime f).keypad = s.keypad := rfl
@[simp] theorem State.mapTime_xmem : (s.mapTime f).xmem = s.xmem := rfl
@[simp] theorem State.mapTime_engine : (s.mapTime f).engine = s.engine := rfl
@[simp] theorem State.mapTime_store : (s.mapTime f).store = s.store := rfl
@[simp] theorem State.mapTime_supplyLow : (s.mapTime f).supplyLow = s.supplyLow := rfl
@[simp] theorem State.mapTime_fresh : (s.mapTime f).fresh = s.fresh := rfl
@[simp] theorem State.mapTime_pending : (s.mapTime f).pending = s.pending := rfl

end mapTime

section mapSense
variable (s : State) (f : Sensing → Sensing)

@[simp] theorem State.mapSense_time : (s.mapSense f).time = s.time := rfl
@[simp] theorem State.mapSense_sense : (s.mapSense f).sense = f s.sense := rfl
@[simp] theorem State.mapSense_climate : (s.mapSense f).climate = s.climate := rfl
@[simp] theorem State.mapSense_air : (s.mapSense f).air = s.air := rfl
@[simp] theorem State.mapSense_rail : (s.mapSense f).rail = s.rail := rfl
@[simp] theorem State.mapSense_mon : (s.mapSense f).mon = s.mon := rfl
@[simp] theorem State.mapSense_keypad : (s.mapSense f).keypad = s.keypad := rfl
@[simp] theorem State.mapSense_xmem : (s.mapSense f).xmem = s.xmem := rfl
@[simp] theorem State.mapSense_engine : (s.mapSense f).engine = s.engine := rfl
@[simp] theorem State.mapSense_store : (s.mapSense f).store = s.store := rfl
@[simp] theorem State.mapSense_supplyLow : (s.mapSense f).supplyLow = s.supplyLow := rfl
@[simp] theorem State.mapSense_fresh : (s.mapSense f).fresh = s.fresh := rfl
@[simp] theorem State.mapSense_pending : (s.mapSense f).pending = s.pending := rfl

end mapSense

section mapClimate
variable (s : State) (f : Climate → Climate)

@[simp] theorem State.mapClimate_time : (s.mapClimate f).time = s.time := rfl
@[simp] theorem State.mapClimate_sense : (s.mapClimate f).sense = s.sense := rfl
@[simp] theorem State.mapClimate_climate : (s.mapClimate f).climate = f s.climate := rfl
@[simp] theorem State.mapClimate_air : (s.mapClimate f).air = s.air := rfl
@[simp] theorem State.mapClimate_rail : (s.mapClimate f).rail = s.rail := rfl
@[simp] theorem State.mapClimate_mon : (s.mapClimate f).mon = s.mon := rfl
@[simp] theorem State.mapClimate_keypad : (s.mapClimate f).keypad = s.keypad := rfl
@[simp] theorem State.mapClimate_xmem : (s.mapClimate f).xmem = s.xmem := rfl
@[simp] theorem State.mapClimate_engine : (s.mapClimate f).engine = s.engine := rfl
@[simp] theorem State.mapClimate_store : (s.mapClimate f).store = s.store := rfl
@[simp] theorem State.mapClimate_supplyLow : (s.mapClimate f).supplyLow = s.supplyLow := rfl
@[simp] theorem State.mapClimate_fresh : (s.mapClimate f).fresh = s.fresh := rfl
@[simp] theorem State.mapClimate_pending : (s.mapClimate f).pending = s.pending := rfl

end mapClimate

section mapAir
variable (s : State) (f : Air → Air)

@[simp] theorem State.mapAir_time : (s.mapAir f).time = s.time := rfl
@[simp] theorem State.mapAir_sense : (s.mapAir f).sense = s.sense := rfl
@[simp] theorem State.mapAir_climate : (s.mapAir f).climate = s.climate := rfl
@[simp] theorem State.mapAir_air : (s.mapAir f).air = f s.air := rfl
@[simp] theorem State.mapAir_rail : (s.mapAir f).rail = s.rail := rfl
@[simp] theorem State.mapAir_mon : (s.mapAir f).mon = s.mon := rfl
@[simp] theorem State.mapAir_keypad : (s.mapAir f).keypad = s.keypad := rfl
@[simp] theorem State.mapAir_xmem : (s.mapAir f).xmem = s.xmem := rfl
@[simp] theorem State.mapAir_engine : (s.mapAir f).engine = s.engine := rfl
@[simp] theorem State.mapAir_store : (s.mapAir f).store = s.store := rfl
@[simp] theorem State.mapAir_supplyLow : (s.mapAir f).supplyLow = s.supplyLow := rfl
@[simp] theorem State.mapAir_fresh : (s.mapAir f).fresh = s.fresh := rfl
@[simp] theorem State.mapAir_pending : (s.mapAir f).pending = s.pending := rfl

end mapAir

section mapRail
variable (s : State) (f : Rail → Rail)

@[simp] theorem State.mapRail_time : (s.mapRail f).time = s.time := rfl
@[simp] theorem State.mapRail_sense : (s.mapRail f).sense = s.sense := rfl
@[simp] theorem State.mapRail_climate : (s.mapRail f).climate = s.climate := rfl
@[simp] theorem State.mapRail_air : (s.mapRail f).air = s.air := rfl
@[simp] theorem State.mapRail_rail : (s.mapRail f).rail = f s.rail := rfl
@[simp] theorem State.mapRail_mon : (s.mapRail f).mon = s.mon := rfl
@[simp] theorem State.mapRail_keypad : (s.mapRail f).keypad = s.keypad := rfl
@[simp] theorem State.mapRail_xmem : (s.mapRail f).xmem = s.xmem := rfl
@[simp] theorem State.mapRail_engine : (s.mapRail f).engine = s.engine := rfl
@[simp] theorem State.mapRail_store : (s.mapRail f).store = s.store := rfl
@[simp] theorem State.mapRail_supplyLow : (s.mapRail f).supplyLow = s.supplyLow := rfl
@[simp] theorem State.mapRail_fresh : (s.mapRail f).fresh = s.fresh := rfl
@[simp] theorem State.mapRail_pending : (s.mapRail f).pending = s.pending := rfl

end mapRail

section mapMon
variable (s : State) (f : Monitor → Monitor)

@[simp] theorem State.mapMon_time : (s.mapMon f).time = s.time := rfl
@[simp] theorem State.mapMon_sense : (s.mapMon f).sense = s.sense := rfl
@[simp] theorem State.mapMon_climate : (s.mapMon f).climate = s.climate := rfl
@[simp] theorem State.mapMon_air : (s.mapMon f).air = s.air := rfl
@[simp] theorem State.mapMon_rail : (s.mapMon f).rail = s.rail := rfl
@[simp] theorem State.mapMon_mon : (s.mapMon f).mon = f s.mon := rfl
@[simp] theorem State.mapMon_keypad : (s.mapMon f).keypad = s.keypad := rfl
@[simp] theorem State.mapMon_xmem : (s.mapMon f).xmem = s.xmem := rfl
@[simp] theorem State.mapMon_engine : (s.mapMon f).engine = s.engine := rfl
@[simp] theorem State.mapMon_store : (s.mapMon f).store = s.store := rfl
@[simp] theorem State.mapMon_supplyLow : (s.mapMon f).supplyLow = s.supplyLow := rfl
@[simp] theorem State.mapMon_fresh : (s.mapMon f).fresh = s.fresh := rfl
@[simp] theorem State.mapMon_pending : (s.mapMon f).pending = s.pending := rfl

end mapMon

section mapKeypad
variable (s : State) (f : Keypad → Keypad)

@[simp] theorem State.mapKeypad_time : (s.mapKeypad f).time = s.time := rfl
@[simp] theorem State.mapKeypad_sense : (s.mapKeypad f).sense = s.sense := rfl
@[simp] theorem State.mapKeypad_climate : (s.mapKeypad f).climate = s.climate := rfl
@[simp] theorem State.mapKeypad_air : (s.mapKeypad f).air = s.air := rfl
@[simp] theorem State.mapKeypad_rail : (s.mapKeypad f).rail = s.rail := rfl
@[simp] theorem State.mapKeypad_mon : (s.mapKeypad f).mon = s.mon := rfl
@[simp] theorem State.mapKeypad_keypad : (s.mapKeypad f).keypad = f s.keypad := rfl
@[simp] theorem State.mapKeypad_xmem : (s.mapKeypad f).xmem = s.xmem := rfl
@[simp] theorem State.mapKeypad_engine : (s.mapKeypad f).engine = s.engine := rfl
@[simp] theorem State.mapKeypad_store : (s.mapKeypad f).store = s.store := rfl
@[simp] theorem State.mapKeypad_supplyLow : (s.mapKeypad f).supplyLow = s.supplyLow := rfl
@[simp] theorem State.mapKeypad_fresh : (s.mapKeypad f).fresh = s.fresh := rfl
@[simp] theorem State.mapKeypad_pending : (s.mapKeypad f).pending = s.pending := rfl

end mapKeypad

section mapX
variable (s : State) (f : Exchange → Exchange)

@[simp] theorem State.mapX_time : (s.mapX f).time = s.time := rfl
@[simp] theorem State.mapX_sense : (s.mapX f).sense = s.sense := rfl
@[simp] theorem State.mapX_climate : (s.mapX f).climate = s.climate := rfl
@[simp] theorem State.mapX_air : (s.mapX f).air = s.air := rfl
@[simp] theorem State.mapX_rail : (s.mapX f).rail = s.rail := rfl
@[simp] theorem State.mapX_mon : (s.mapX f).mon = s.mon := rfl
@[simp] theorem State.mapX_keypad : (s.mapX f).keypad = s.keypad := rfl
@[simp] theorem State.mapX_xmem : (s.mapX f).xmem = f s.xmem := rfl
@[simp] theorem State.mapX_engine : (s.mapX f).engine = s.engine := rfl
@[simp] theorem State.mapX_store : (s.mapX f).store = s.store := rfl
@[simp] theorem State.mapX_supplyLow : (s.mapX f).supplyLow = s.supplyLow := rfl
@[simp] theorem State.mapX_fresh : (s.mapX f).fresh = s.fresh := rfl
@[simp] theorem State.mapX_pending : (s.mapX f).pending = s.pending := rfl

end mapX

section mapEngine
variable (s : State) (f : Engine → Engine)

@[simp] theorem State.mapEngine_time : (s.mapEngine f).time = s.time := rfl
@[simp] theorem State.mapEngine_sense : (s.mapEngine f).sense = s.sense := rfl
@[simp] theorem State.mapEngine_climate : (s.mapEngine f).climate = s.climate := rfl
@[simp] theorem State.mapEngine_air : (s.mapEngine f).air = s.air := rfl
@[simp] theorem State.mapEngine_rail : (s.mapEngine f).rail = s.rail := rfl
@[simp] theorem State.mapEngine_mon : (s.mapEngine f).mon = s.mon := rfl
@[simp] theorem State.mapEngine_keypad : (s.mapEngine f).keypad = s.keypad := rfl
@[simp] theorem State.mapEngine_xmem : (s.mapEngine f).xmem = s.xmem := rfl
@[simp] theorem State.mapEngine_engine : (s.mapEngine f).engine = f s.engine := rfl
@[simp] theorem State.mapEngine_store : (s.mapEngine f).store = s.store := rfl
@[simp] theorem State.mapEngine_supplyLow : (s.mapEngine f).supplyLow = s.supplyLow := rfl
@[simp] theorem State.mapEngine_fresh : (s.mapEngine f).fresh = s.fresh := rfl
@[simp] theorem State.mapEngine_pending : (s.mapEngine f).pending = s.pending := rfl

end mapEngine

section mapStore
variable (s : State) (f : Store → Store)

@[simp] theorem State.mapStore_time : (s.mapStore f).time = s.time := rfl
@[simp] theorem State.mapStore_sense : (s.mapStore f).sense = s.sense := rfl
@[simp] theorem State.mapStore_climate : (s.mapStore f).climate = s.climate := rfl
@[simp] theorem State.mapStore_air : (s.mapStore f).air = s.air := rfl
@[simp] theorem State.mapStore_rail : (s.mapStore f).rail = s.rail := rfl
@[simp] theorem State.mapStore_mon : (s.mapStore f).mon = s.mon := rfl
@[simp] theorem State.mapStore_keypad : (s.mapStore f).keypad = s.keypad := rfl
@[simp] theorem State.mapStore_xmem : (s.mapStore f).xmem = s.xmem := rfl
@[simp] theorem State.mapStore_engine : (s.mapStore f).engine = s.engine := rfl
@[simp] theorem State.mapStore_store : (s.mapStore f).store = f s.store := rfl
@[simp] theorem State.mapStore_supplyLow : (s.mapStore f).supplyLow = s.supplyLow := rfl
@[simp] theorem State.mapStore_fresh : (s.mapStore f).fresh = s.fresh := rfl
@[simp] theorem State.mapStore_pending : (s.mapStore f).pending = s.pending := rfl

end mapStore

/-! ### When a timer's end and a scan's end fall -/

/-- All that a timer which is due says: its end, in its slot or at the coming slot start once this slot is over. -/
theorem State.due_eq_some {s : State} {o : Option SlotCount} {e : SlotCount} (h : s.due o = some e) :
    o = some e ∧ (e = s.time.slotCount ∨ (e = s.upcoming ∧ s.slotOver = true)) := by
  cases o with
  | none => cases h
  | some x =>
    simp only [State.due] at h
    split at h
    · rename_i hc
      obtain rfl : x = e := by simpa using h
      exact ⟨rfl, hc⟩
    · simp at h

/-- A timer is due throughout the slot of its end. -/
@[simp] theorem State.due_now (s : State) : s.due (some s.time.slotCount) = some s.time.slotCount := if_pos (.inl rfl)

/-- All that an end of the store's says: within the first `n` slot starts after the beginning, in its slot or at the coming
slot start once this slot is over. -/
theorem State.endsWithin_eq_some {s : State} {n : Nat} {o : Option SlotCount} {e : SlotCount}
    (h : s.endsWithin n o = some e) :
    ∃ b, o = some b ∧ 1 ≤ (e - b).toNat ∧ (e - b).toNat ≤ n ∧
      (e = s.time.slotCount ∨ (e = s.upcoming ∧ s.slotOver = true)) := by
  cases o with
  | none => cases h
  | some b =>
    simp only [State.endsWithin, Bool.and_eq_true, decide_eq_true_eq] at h
    split at h
    · rename_i hc
      obtain rfl := Option.some.inj h
      exact ⟨b, rfl, hc.1, hc.2, .inl rfl⟩
    · split at h
      · rename_i hc
        obtain rfl := Option.some.inj h
        exact ⟨b, rfl, hc.1.1, hc.1.2, .inr ⟨rfl, hc.2⟩⟩
      · cases h

/-- After the first slot start, programming counts from the slot count at which it begins. -/
theorem State.countsFrom_of_started {s : State} (h : s.time.started = true) (now : SlotCount) : s.countsFrom now = now :=
  if_pos h

/-- Before the first slot start, it counts from the slot count before. -/
theorem State.countsFrom_of_not_started {s : State} (h : s.time.started = false) (now : SlotCount) :
    s.countsFrom now = now - 1 := by
  simp [State.countsFrom, h]

/-- All that the end of programming says. -/
theorem State.programmingDue_eq_some {s : State} {e : SlotCount} (h : s.programmingDue = some e) :
    s.store.commit = .programming ∧ s.endsWithin 44 s.store.programmingBegan = some e := by
  unfold State.programmingDue at h
  split at h
  · exact ⟨‹_›, h⟩
  · cases h

/-- All that the end of a service record write says. -/
theorem State.writeDue_eq_some {s : State} {e : SlotCount} (h : s.writeDue = some e) :
    s.store.service = .writing ∧ s.endsWithin 6 s.store.writeBegan = some e := by
  unfold State.writeDue at h
  split at h
  · exact ⟨‹_›, h⟩
  · cases h

/-- All that a scan which may end says: a slot has begun, the scan began in it, and every HOLD and CHORD of it has been
given. -/
theorem State.scanDue_eq_some {s : State} {n : SlotCount} (h : s.scanDue = some n) :
    s.time.started = true ∧ s.keypad.scan = some n ∧ n = s.time.slotCount ∧ s.holdsWait = false := by
  unfold State.scanDue State.scanRuns at h
  split at h
  · rename_i hc
    obtain rfl : s.time.slotCount = n := by simpa using h
    simp only [Bool.and_eq_true, beq_iff_eq, Bool.not_eq_true'] at hc
    exact ⟨hc.1.1, hc.1.2, rfl, hc.2⟩
  · simp at h

end Sys2Proof.Machine
end

