-- ==== Sys2Proof/Laws/Frames.lean ====
section
/-!
SUPPORT. The frame of each shared operation: the blocks it leaves as they are. One lemma for each operation; `simp` uses
every part of it.
-/

namespace Sys2Proof.Machine

/-- A fold keeps whatever its step keeps. -/
theorem foldl_keeps {α β : Type} (g : State → β) (op : State → α → State) (h : ∀ s x, g (op s x) = g s) (l : List α)
    (s : State) : g (l.foldl op s) = g s := by
  induction l generalizing s with
  | nil => rfl
  | cons x l ih => rw [List.foldl_cons, ih, h]

@[simp] theorem State.raise_frame (c : Cause) (s : State) :
      (State.raise c s).time = s.time ∧
      (State.raise c s).sense = s.sense ∧
      (State.raise c s).climate = s.climate ∧
      (State.raise c s).air = s.air ∧
      (State.raise c s).rail = s.rail ∧
      (State.raise c s).mon = s.mon ∧
      (State.raise c s).keypad = s.keypad ∧
      (State.raise c s).engine = s.engine ∧
      (State.raise c s).store = s.store ∧
      (State.raise c s).supplyLow = s.supplyLow ∧
      (State.raise c s).fresh = s.fresh ∧
      (State.raise c s).pending = s.pending := by
  simp [State.raise]

@[simp] theorem State.report_frame (b : LastingBlock) (r : SlipResult) (s : State) :
      (State.report b r s).time = s.time ∧
      (State.report b r s).sense = s.sense ∧
      (State.report b r s).climate = s.climate ∧
      (State.report b r s).air = s.air ∧
      (State.report b r s).rail = s.rail ∧
      (State.report b r s).mon = s.mon ∧
      (State.report b r s).keypad = s.keypad ∧
      (State.report b r s).store = s.store ∧
      (State.report b r s).supplyLow = s.supplyLow ∧
      (State.report b r s).fresh = s.fresh ∧
      (State.report b r s).pending = s.pending := by
  unfold State.report
  split <;> simp

@[simp] theorem State.accept_frame (b : LastingBlock) (n : Fin 16) (s : State) :
      (State.accept b n s).time = s.time ∧
      (State.accept b n s).sense = s.sense ∧
      (State.accept b n s).climate = s.climate ∧
      (State.accept b n s).air = s.air ∧
      (State.accept b n s).rail = s.rail ∧
      (State.accept b n s).mon = s.mon ∧
      (State.accept b n s).keypad = s.keypad ∧
      (State.accept b n s).store = s.store ∧
      (State.accept b n s).supplyLow = s.supplyLow ∧
      (State.accept b n s).fresh = s.fresh ∧
      (State.accept b n s).pending = s.pending := by
  simp [State.accept]

@[simp] theorem State.clearSlips_frame (s : State) :
      (State.clearSlips s).time = s.time ∧
      (State.clearSlips s).sense = s.sense ∧
      (State.clearSlips s).climate = s.climate ∧
      (State.clearSlips s).air = s.air ∧
      (State.clearSlips s).rail = s.rail ∧
      (State.clearSlips s).mon = s.mon ∧
      (State.clearSlips s).keypad = s.keypad ∧
      (State.clearSlips s).store = s.store ∧
      (State.clearSlips s).supplyLow = s.supplyLow ∧
      (State.clearSlips s).fresh = s.fresh ∧
      (State.clearSlips s).pending = s.pending := by
  simp [State.clearSlips, -List.reduceReplicate]

@[simp] theorem State.publishWatchdog_frame (now : SlotCount) (s : State) :
      (State.publishWatchdog now s).time = s.time ∧
      (State.publishWatchdog now s).sense = s.sense ∧
      (State.publishWatchdog now s).climate = s.climate ∧
      (State.publishWatchdog now s).air = s.air ∧
      (State.publishWatchdog now s).rail = s.rail ∧
      (State.publishWatchdog now s).mon = s.mon ∧
      (State.publishWatchdog now s).keypad = s.keypad ∧
      (State.publishWatchdog now s).engine = s.engine ∧
      (State.publishWatchdog now s).store = s.store ∧
      (State.publishWatchdog now s).supplyLow = s.supplyLow ∧
      (State.publishWatchdog now s).fresh = s.fresh ∧
      (State.publishWatchdog now s).pending = s.pending := by
  simp [State.publishWatchdog]

@[simp] theorem State.setLadderIndex_frame (i : Nat) (s : State) :
      (State.setLadderIndex i s).time = s.time ∧
      (State.setLadderIndex i s).sense = s.sense ∧
      (State.setLadderIndex i s).climate = s.climate ∧
      (State.setLadderIndex i s).air = s.air ∧
      (State.setLadderIndex i s).rail = s.rail ∧
      (State.setLadderIndex i s).keypad = s.keypad ∧
      (State.setLadderIndex i s).engine = s.engine ∧
      (State.setLadderIndex i s).store = s.store ∧
      (State.setLadderIndex i s).supplyLow = s.supplyLow ∧
      (State.setLadderIndex i s).fresh = s.fresh ∧
      (State.setLadderIndex i s).pending = s.pending := by
  simp [State.setLadderIndex]

@[simp] theorem State.setRefusal_frame (r : KickRefusal) (s : State) :
      (State.setRefusal r s).time = s.time ∧
      (State.setRefusal r s).sense = s.sense ∧
      (State.setRefusal r s).climate = s.climate ∧
      (State.setRefusal r s).air = s.air ∧
      (State.setRefusal r s).rail = s.rail ∧
      (State.setRefusal r s).keypad = s.keypad ∧
      (State.setRefusal r s).engine = s.engine ∧
      (State.setRefusal r s).store = s.store ∧
      (State.setRefusal r s).supplyLow = s.supplyLow ∧
      (State.setRefusal r s).fresh = s.fresh ∧
      (State.setRefusal r s).pending = s.pending := by
  simp [State.setRefusal]

@[simp] theorem State.enterGrace_frame (now : SlotCount) (p : Image) (s : State) :
      (State.enterGrace now p s).time = s.time ∧
      (State.enterGrace now p s).sense = s.sense ∧
      (State.enterGrace now p s).climate = s.climate ∧
      (State.enterGrace now p s).air = s.air ∧
      (State.enterGrace now p s).rail = s.rail ∧
      (State.enterGrace now p s).keypad = s.keypad ∧
      (State.enterGrace now p s).xmem = s.xmem ∧
      (State.enterGrace now p s).engine = s.engine ∧
      (State.enterGrace now p s).store = s.store ∧
      (State.enterGrace now p s).supplyLow = s.supplyLow ∧
      (State.enterGrace now p s).fresh = s.fresh ∧
      (State.enterGrace now p s).pending = s.pending := by
  simp [State.enterGrace]

@[simp] theorem State.enterPaused_frame (f : PausedFrom) (s : State) :
      (State.enterPaused f s).time = s.time ∧
      (State.enterPaused f s).sense = s.sense ∧
      (State.enterPaused f s).climate = s.climate ∧
      (State.enterPaused f s).air = s.air ∧
      (State.enterPaused f s).rail = s.rail ∧
      (State.enterPaused f s).keypad = s.keypad ∧
      (State.enterPaused f s).xmem = s.xmem ∧
      (State.enterPaused f s).engine = s.engine ∧
      (State.enterPaused f s).store = s.store ∧
      (State.enterPaused f s).supplyLow = s.supplyLow ∧
      (State.enterPaused f s).fresh = s.fresh ∧
      (State.enterPaused f s).pending = s.pending := by
  simp [State.enterPaused]

@[simp] theorem State.enterDormant_frame (s : State) :
      (State.enterDormant s).time = s.time ∧
      (State.enterDormant s).sense = s.sense ∧
      (State.enterDormant s).climate = s.climate ∧
      (State.enterDormant s).air = s.air ∧
      (State.enterDormant s).rail = s.rail ∧
      (State.enterDormant s).keypad = s.keypad ∧
      (State.enterDormant s).xmem = s.xmem ∧
      (State.enterDormant s).engine = s.engine ∧
      (State.enterDormant s).store = s.store ∧
      (State.enterDormant s).supplyLow = s.supplyLow ∧
      (State.enterDormant s).fresh = s.fresh ∧
      (State.enterDormant s).pending = s.pending := by
  simp [State.enterDormant]

@[simp] theorem State.startWatchdog_frame (now : SlotCount) (p : Image) (s : State) :
      (State.startWatchdog now p s).time = s.time ∧
      (State.startWatchdog now p s).sense = s.sense ∧
      (State.startWatchdog now p s).climate = s.climate ∧
      (State.startWatchdog now p s).air = s.air ∧
      (State.startWatchdog now p s).rail = s.rail ∧
      (State.startWatchdog now p s).keypad = s.keypad ∧
      (State.startWatchdog now p s).xmem = s.xmem ∧
      (State.startWatchdog now p s).engine = s.engine ∧
      (State.startWatchdog now p s).store = s.store ∧
      (State.startWatchdog now p s).supplyLow = s.supplyLow ∧
      (State.startWatchdog now p s).fresh = s.fresh ∧
      (State.startWatchdog now p s).pending = s.pending := by
  unfold State.startWatchdog
  (repeat' split) <;> simp

@[simp] theorem State.monitorRunning_frame (now : SlotCount) (p : Image) (s : State) :
      (State.monitorRunning now p s).time = s.time ∧
      (State.monitorRunning now p s).sense = s.sense ∧
      (State.monitorRunning now p s).climate = s.climate ∧
      (State.monitorRunning now p s).air = s.air ∧
      (State.monitorRunning now p s).rail = s.rail ∧
      (State.monitorRunning now p s).keypad = s.keypad ∧
      (State.monitorRunning now p s).engine = s.engine ∧
      (State.monitorRunning now p s).store = s.store ∧
      (State.monitorRunning now p s).supplyLow = s.supplyLow ∧
      (State.monitorRunning now p s).fresh = s.fresh ∧
      (State.monitorRunning now p s).pending = s.pending := by
  simp [State.monitorRunning]

@[simp] theorem State.publishRecords_frame (s : State) :
      (State.publishRecords s).time = s.time ∧
      (State.publishRecords s).sense = s.sense ∧
      (State.publishRecords s).climate = s.climate ∧
      (State.publishRecords s).air = s.air ∧
      (State.publishRecords s).rail = s.rail ∧
      (State.publishRecords s).mon = s.mon ∧
      (State.publishRecords s).keypad = s.keypad ∧
      (State.publishRecords s).engine = s.engine ∧
      (State.publishRecords s).store = s.store ∧
      (State.publishRecords s).supplyLow = s.supplyLow ∧
      (State.publishRecords s).fresh = s.fresh ∧
      (State.publishRecords s).pending = s.pending := by
  simp [State.publishRecords]

@[simp] theorem State.addRecord_frame (now : SlotCount) (cause : RestartCause) (action : RecordAction) (indexBefore : Nat) (before : RailState) (s : State) :
      (State.addRecord now cause action indexBefore before s).time = s.time ∧
      (State.addRecord now cause action indexBefore before s).sense = s.sense ∧
      (State.addRecord now cause action indexBefore before s).climate = s.climate ∧
      (State.addRecord now cause action indexBefore before s).air = s.air ∧
      (State.addRecord now cause action indexBefore before s).rail = s.rail ∧
      (State.addRecord now cause action indexBefore before s).keypad = s.keypad ∧
      (State.addRecord now cause action indexBefore before s).engine = s.engine ∧
      (State.addRecord now cause action indexBefore before s).store = s.store ∧
      (State.addRecord now cause action indexBefore before s).supplyLow = s.supplyLow ∧
      (State.addRecord now cause action indexBefore before s).fresh = s.fresh ∧
      (State.addRecord now cause action indexBefore before s).pending = s.pending := by
  simp [State.addRecord]

@[simp] theorem State.setArmed_frame (now : SlotCount) (p : Image) (b : Bool) (s : State) :
      (State.setArmed now p b s).time = s.time ∧
      (State.setArmed now p b s).sense = s.sense ∧
      (State.setArmed now p b s).climate = s.climate ∧
      (State.setArmed now p b s).air = s.air ∧
      (State.setArmed now p b s).rail = s.rail ∧
      (State.setArmed now p b s).keypad = s.keypad ∧
      (State.setArmed now p b s).engine = s.engine ∧
      (State.setArmed now p b s).store = s.store ∧
      (State.setArmed now p b s).supplyLow = s.supplyLow ∧
      (State.setArmed now p b s).fresh = s.fresh ∧
      (State.setArmed now p b s).pending = s.pending := by
  simp only [State.setArmed]
  (repeat' split) <;> simp

@[simp] theorem State.clearMonitor_frame (now : SlotCount) (p : Image) (s : State) :
      (State.clearMonitor now p s).time = s.time ∧
      (State.clearMonitor now p s).sense = s.sense ∧
      (State.clearMonitor now p s).climate = s.climate ∧
      (State.clearMonitor now p s).air = s.air ∧
      (State.clearMonitor now p s).rail = s.rail ∧
      (State.clearMonitor now p s).keypad = s.keypad ∧
      (State.clearMonitor now p s).engine = s.engine ∧
      (State.clearMonitor now p s).store = s.store ∧
      (State.clearMonitor now p s).supplyLow = s.supplyLow ∧
      (State.clearMonitor now p s).fresh = s.fresh ∧
      (State.clearMonitor now p s).pending = s.pending := by
  simp [State.clearMonitor]

@[simp] theorem State.clearOverrides_frame (s : State) :
      (State.clearOverrides s).time = s.time ∧
      (State.clearOverrides s).sense = s.sense ∧
      (State.clearOverrides s).air = s.air ∧
      (State.clearOverrides s).rail = s.rail ∧
      (State.clearOverrides s).mon = s.mon ∧
      (State.clearOverrides s).keypad = s.keypad ∧
      (State.clearOverrides s).xmem = s.xmem ∧
      (State.clearOverrides s).engine = s.engine ∧
      (State.clearOverrides s).store = s.store ∧
      (State.clearOverrides s).supplyLow = s.supplyLow ∧
      (State.clearOverrides s).fresh = s.fresh ∧
      (State.clearOverrides s).pending = s.pending := by
  simp [State.clearOverrides]

@[simp] theorem State.clearAir_frame (s : State) :
      (State.clearAir s).time = s.time ∧
      (State.clearAir s).sense = s.sense ∧
      (State.clearAir s).climate = s.climate ∧
      (State.clearAir s).rail = s.rail ∧
      (State.clearAir s).mon = s.mon ∧
      (State.clearAir s).keypad = s.keypad ∧
      (State.clearAir s).xmem = s.xmem ∧
      (State.clearAir s).engine = s.engine ∧
      (State.clearAir s).store = s.store ∧
      (State.clearAir s).supplyLow = s.supplyLow ∧
      (State.clearAir s).fresh = s.fresh ∧
      (State.clearAir s).pending = s.pending := by
  simp [State.clearAir]

@[simp] theorem State.setGap_frame (g : Nat) (s : State) :
      (State.setGap g s).time = s.time ∧
      (State.setGap g s).sense = s.sense ∧
      (State.setGap g s).climate = s.climate ∧
      (State.setGap g s).air = s.air ∧
      (State.setGap g s).rail = s.rail ∧
      (State.setGap g s).mon = s.mon ∧
      (State.setGap g s).engine = s.engine ∧
      (State.setGap g s).store = s.store ∧
      (State.setGap g s).supplyLow = s.supplyLow ∧
      (State.setGap g s).fresh = s.fresh ∧
      (State.setGap g s).pending = s.pending := by
  simp [State.setGap]

@[simp] theorem State.setReadCounter_frame (v : Half) (s : State) :
      (State.setReadCounter v s).time = s.time ∧
      (State.setReadCounter v s).sense = s.sense ∧
      (State.setReadCounter v s).climate = s.climate ∧
      (State.setReadCounter v s).air = s.air ∧
      (State.setReadCounter v s).rail = s.rail ∧
      (State.setReadCounter v s).mon = s.mon ∧
      (State.setReadCounter v s).engine = s.engine ∧
      (State.setReadCounter v s).store = s.store ∧
      (State.setReadCounter v s).supplyLow = s.supplyLow ∧
      (State.setReadCounter v s).fresh = s.fresh ∧
      (State.setReadCounter v s).pending = s.pending := by
  simp [State.setReadCounter]

@[simp] theorem State.clearKeypad_frame (s : State) :
      (State.clearKeypad s).time = s.time ∧
      (State.clearKeypad s).sense = s.sense ∧
      (State.clearKeypad s).climate = s.climate ∧
      (State.clearKeypad s).air = s.air ∧
      (State.clearKeypad s).rail = s.rail ∧
      (State.clearKeypad s).mon = s.mon ∧
      (State.clearKeypad s).engine = s.engine ∧
      (State.clearKeypad s).store = s.store ∧
      (State.clearKeypad s).supplyLow = s.supplyLow ∧
      (State.clearKeypad s).fresh = s.fresh ∧
      (State.clearKeypad s).pending = s.pending := by
  simp [State.clearKeypad]

@[simp] theorem State.hostRestartClearing_frame (now : SlotCount) (p : Image) (s : State) :
      (State.hostRestartClearing now p s).time = s.time ∧
      (State.hostRestartClearing now p s).sense = s.sense ∧
      (State.hostRestartClearing now p s).rail = s.rail ∧
      (State.hostRestartClearing now p s).store = s.store ∧
      (State.hostRestartClearing now p s).supplyLow = s.supplyLow ∧
      (State.hostRestartClearing now p s).fresh = s.fresh ∧
      (State.hostRestartClearing now p s).pending = s.pending := by
  simp [State.hostRestartClearing]

@[simp] theorem State.setWait_frame (w : WaitReason) (s : State) :
      (State.setWait w s).time = s.time ∧
      (State.setWait w s).sense = s.sense ∧
      (State.setWait w s).climate = s.climate ∧
      (State.setWait w s).air = s.air ∧
      (State.setWait w s).mon = s.mon ∧
      (State.setWait w s).keypad = s.keypad ∧
      (State.setWait w s).engine = s.engine ∧
      (State.setWait w s).store = s.store ∧
      (State.setWait w s).supplyLow = s.supplyLow ∧
      (State.setWait w s).fresh = s.fresh ∧
      (State.setWait w s).pending = s.pending := by
  simp [State.setWait]

@[simp] theorem State.setRestartPending_frame (b : Bool) (s : State) :
      (State.setRestartPending b s).time = s.time ∧
      (State.setRestartPending b s).sense = s.sense ∧
      (State.setRestartPending b s).climate = s.climate ∧
      (State.setRestartPending b s).air = s.air ∧
      (State.setRestartPending b s).mon = s.mon ∧
      (State.setRestartPending b s).keypad = s.keypad ∧
      (State.setRestartPending b s).engine = s.engine ∧
      (State.setRestartPending b s).store = s.store ∧
      (State.setRestartPending b s).supplyLow = s.supplyLow ∧
      (State.setRestartPending b s).fresh = s.fresh ∧
      (State.setRestartPending b s).pending = s.pending := by
  simp [State.setRestartPending]

@[simp] theorem State.setRail_frame (now : SlotCount) (new : RailState) (s : State) :
      (State.setRail now new s).time = s.time ∧
      (State.setRail now new s).sense = s.sense ∧
      (State.setRail now new s).air = s.air ∧
      (State.setRail now new s).keypad = s.keypad ∧
      (State.setRail now new s).engine = s.engine ∧
      (State.setRail now new s).store = s.store ∧
      (State.setRail now new s).supplyLow = s.supplyLow ∧
      (State.setRail now new s).fresh = s.fresh ∧
      (State.setRail now new s).pending = s.pending := by
  simp only [State.setRail]
  (repeat' split) <;> simp

@[simp] theorem State.cutLines_frame (s : State) :
      (State.cutLines s).time = s.time ∧
      (State.cutLines s).sense = s.sense ∧
      (State.cutLines s).climate = s.climate ∧
      (State.cutLines s).air = s.air ∧
      (State.cutLines s).mon = s.mon ∧
      (State.cutLines s).keypad = s.keypad ∧
      (State.cutLines s).xmem = s.xmem ∧
      (State.cutLines s).engine = s.engine ∧
      (State.cutLines s).store = s.store ∧
      (State.cutLines s).supplyLow = s.supplyLow ∧
      (State.cutLines s).fresh = s.fresh ∧
      (State.cutLines s).pending = s.pending := by
  simp [State.cutLines]

@[simp] theorem State.enterCooldown_frame (now : SlotCount) (restart : Bool) (off : Nat) (s : State) :
      (State.enterCooldown now restart off s).time = s.time ∧
      (State.enterCooldown now restart off s).sense = s.sense ∧
      (State.enterCooldown now restart off s).air = s.air ∧
      (State.enterCooldown now restart off s).keypad = s.keypad ∧
      (State.enterCooldown now restart off s).engine = s.engine ∧
      (State.enterCooldown now restart off s).store = s.store ∧
      (State.enterCooldown now restart off s).supplyLow = s.supplyLow ∧
      (State.enterCooldown now restart off s).fresh = s.fresh ∧
      (State.enterCooldown now restart off s).pending = s.pending := by
  simp [State.enterCooldown]

@[simp] theorem State.enterLockout_frame (now : SlotCount) (s : State) :
      (State.enterLockout now s).time = s.time ∧
      (State.enterLockout now s).sense = s.sense ∧
      (State.enterLockout now s).air = s.air ∧
      (State.enterLockout now s).keypad = s.keypad ∧
      (State.enterLockout now s).engine = s.engine ∧
      (State.enterLockout now s).store = s.store ∧
      (State.enterLockout now s).supplyLow = s.supplyLow ∧
      (State.enterLockout now s).fresh = s.fresh ∧
      (State.enterLockout now s).pending = s.pending := by
  simp [State.enterLockout]

@[simp] theorem State.failure_frame (now : SlotCount) (p : Image) (cause : RestartCause) (s : State) :
      (State.failure now p cause s).time = s.time ∧
      (State.failure now p cause s).sense = s.sense ∧
      (State.failure now p cause s).air = s.air ∧
      (State.failure now p cause s).keypad = s.keypad ∧
      (State.failure now p cause s).engine = s.engine ∧
      (State.failure now p cause s).store = s.store ∧
      (State.failure now p cause s).supplyLow = s.supplyLow ∧
      (State.failure now p cause s).fresh = s.fresh ∧
      (State.failure now p cause s).pending = s.pending := by
  simp only [State.failure]
  (repeat' split) <;> simp

@[simp] theorem State.cutWithNotice_frame (now : SlotCount) (p : Image) (cause : RestartCause) (restart : Bool) (s : State) :
      (State.cutWithNotice now p cause restart s).time = s.time ∧
      (State.cutWithNotice now p cause restart s).sense = s.sense ∧
      (State.cutWithNotice now p cause restart s).air = s.air ∧
      (State.cutWithNotice now p cause restart s).keypad = s.keypad ∧
      (State.cutWithNotice now p cause restart s).engine = s.engine ∧
      (State.cutWithNotice now p cause restart s).store = s.store ∧
      (State.cutWithNotice now p cause restart s).supplyLow = s.supplyLow ∧
      (State.cutWithNotice now p cause restart s).fresh = s.fresh ∧
      (State.cutWithNotice now p cause restart s).pending = s.pending := by
  simp [State.cutWithNotice]

@[simp] theorem State.judgeGate_frame (p : Image) (age : Nat) (s : State) :
      (State.judgeGate p age s).time = s.time ∧
      (State.judgeGate p age s).sense = s.sense ∧
      (State.judgeGate p age s).climate = s.climate ∧
      (State.judgeGate p age s).air = s.air ∧
      (State.judgeGate p age s).mon = s.mon ∧
      (State.judgeGate p age s).keypad = s.keypad ∧
      (State.judgeGate p age s).engine = s.engine ∧
      (State.judgeGate p age s).store = s.store ∧
      (State.judgeGate p age s).supplyLow = s.supplyLow ∧
      (State.judgeGate p age s).fresh = s.fresh ∧
      (State.judgeGate p age s).pending = s.pending := by
  simp [State.judgeGate]

@[simp] theorem State.judgeAtSlot_frame (now : SlotCount) (p : Image) (s : State) :
      (State.judgeAtSlot now p s).time = s.time ∧
      (State.judgeAtSlot now p s).sense = s.sense ∧
      (State.judgeAtSlot now p s).climate = s.climate ∧
      (State.judgeAtSlot now p s).air = s.air ∧
      (State.judgeAtSlot now p s).mon = s.mon ∧
      (State.judgeAtSlot now p s).keypad = s.keypad ∧
      (State.judgeAtSlot now p s).engine = s.engine ∧
      (State.judgeAtSlot now p s).store = s.store ∧
      (State.judgeAtSlot now p s).supplyLow = s.supplyLow ∧
      (State.judgeAtSlot now p s).fresh = s.fresh ∧
      (State.judgeAtSlot now p s).pending = s.pending := by
  unfold State.judgeAtSlot
  dsimp only
  (repeat' split) <;> simp

@[simp] theorem State.enterWarming_frame (now : SlotCount) (p : Image) (s : State) :
      (State.enterWarming now p s).time = s.time ∧
      (State.enterWarming now p s).sense = s.sense ∧
      (State.enterWarming now p s).air = s.air ∧
      (State.enterWarming now p s).keypad = s.keypad ∧
      (State.enterWarming now p s).engine = s.engine ∧
      (State.enterWarming now p s).store = s.store ∧
      (State.enterWarming now p s).supplyLow = s.supplyLow ∧
      (State.enterWarming now p s).fresh = s.fresh ∧
      (State.enterWarming now p s).pending = s.pending := by
  simp [State.enterWarming]

@[simp] theorem State.enterStarting_frame (now : SlotCount) (p : Image) (s : State) :
      (State.enterStarting now p s).time = s.time ∧
      (State.enterStarting now p s).sense = s.sense ∧
      (State.enterStarting now p s).store = s.store ∧
      (State.enterStarting now p s).supplyLow = s.supplyLow ∧
      (State.enterStarting now p s).fresh = s.fresh ∧
      (State.enterStarting now p s).pending = s.pending := by
  simp [State.enterStarting]

@[simp] theorem State.enterRunning_frame (now : SlotCount) (p : Image) (s : State) :
      (State.enterRunning now p s).time = s.time ∧
      (State.enterRunning now p s).sense = s.sense ∧
      (State.enterRunning now p s).air = s.air ∧
      (State.enterRunning now p s).keypad = s.keypad ∧
      (State.enterRunning now p s).engine = s.engine ∧
      (State.enterRunning now p s).store = s.store ∧
      (State.enterRunning now p s).supplyLow = s.supplyLow ∧
      (State.enterRunning now p s).fresh = s.fresh ∧
      (State.enterRunning now p s).pending = s.pending := by
  simp [State.enterRunning]

@[simp] theorem State.startPulse_frame (now : SlotCount) (p : Image) (s : State) :
      (State.startPulse now p s).time = s.time ∧
      (State.startPulse now p s).sense = s.sense ∧
      (State.startPulse now p s).climate = s.climate ∧
      (State.startPulse now p s).air = s.air ∧
      (State.startPulse now p s).mon = s.mon ∧
      (State.startPulse now p s).keypad = s.keypad ∧
      (State.startPulse now p s).xmem = s.xmem ∧
      (State.startPulse now p s).engine = s.engine ∧
      (State.startPulse now p s).store = s.store ∧
      (State.startPulse now p s).supplyLow = s.supplyLow ∧
      (State.startPulse now p s).fresh = s.fresh ∧
      (State.startPulse now p s).pending = s.pending := by
  unfold State.startPulse
  split <;> simp

@[simp] theorem State.enterStopping_frame (now : SlotCount) (p : Image) (delay : Nat) (s : State) :
      (State.enterStopping now p delay s).time = s.time ∧
      (State.enterStopping now p delay s).sense = s.sense ∧
      (State.enterStopping now p delay s).air = s.air ∧
      (State.enterStopping now p delay s).keypad = s.keypad ∧
      (State.enterStopping now p delay s).engine = s.engine ∧
      (State.enterStopping now p delay s).store = s.store ∧
      (State.enterStopping now p delay s).supplyLow = s.supplyLow ∧
      (State.enterStopping now p delay s).fresh = s.fresh ∧
      (State.enterStopping now p delay s).pending = s.pending := by
  simp [State.enterStopping]

@[simp] theorem State.completeStop_frame (now : SlotCount) (p : Image) (s : State) :
      (State.completeStop now p s).time = s.time ∧
      (State.completeStop now p s).sense = s.sense ∧
      (State.completeStop now p s).air = s.air ∧
      (State.completeStop now p s).keypad = s.keypad ∧
      (State.completeStop now p s).engine = s.engine ∧
      (State.completeStop now p s).store = s.store ∧
      (State.completeStop now p s).supplyLow = s.supplyLow ∧
      (State.completeStop now p s).fresh = s.fresh ∧
      (State.completeStop now p s).pending = s.pending := by
  simp [State.completeStop]

@[simp] theorem State.assertReset_frame (now : SlotCount) (p : Image) (s : State) :
      (State.assertReset now p s).time = s.time ∧
      (State.assertReset now p s).sense = s.sense ∧
      (State.assertReset now p s).climate = s.climate ∧
      (State.assertReset now p s).air = s.air ∧
      (State.assertReset now p s).mon = s.mon ∧
      (State.assertReset now p s).keypad = s.keypad ∧
      (State.assertReset now p s).xmem = s.xmem ∧
      (State.assertReset now p s).engine = s.engine ∧
      (State.assertReset now p s).store = s.store ∧
      (State.assertReset now p s).supplyLow = s.supplyLow ∧
      (State.assertReset now p s).fresh = s.fresh ∧
      (State.assertReset now p s).pending = s.pending := by
  simp [State.assertReset]

@[simp] theorem State.enterResetting_frame (now : SlotCount) (p : Image) (s : State) :
      (State.enterResetting now p s).time = s.time ∧
      (State.enterResetting now p s).sense = s.sense ∧
      (State.enterResetting now p s).store = s.store ∧
      (State.enterResetting now p s).supplyLow = s.supplyLow ∧
      (State.enterResetting now p s).fresh = s.fresh ∧
      (State.enterResetting now p s).pending = s.pending := by
  unfold State.enterResetting
  split <;> simp

@[simp] theorem State.carryOut_frame (now : SlotCount) (p : Image) (a : LadderAction) (s : State) :
      (State.carryOut now p a s).time = s.time ∧
      (State.carryOut now p a s).sense = s.sense ∧
      (State.carryOut now p a s).store = s.store ∧
      (State.carryOut now p a s).supplyLow = s.supplyLow ∧
      (State.carryOut now p a s).fresh = s.fresh ∧
      (State.carryOut now p a s).pending = s.pending := by
  unfold State.carryOut
  split <;> simp

@[simp] theorem State.hsleepChanged_frame (now : SlotCount) (p : Image) (level : Bool) (s : State) :
      (State.hsleepChanged now p level s).time = s.time ∧
      (State.hsleepChanged now p level s).sense = s.sense ∧
      (State.hsleepChanged now p level s).climate = s.climate ∧
      (State.hsleepChanged now p level s).air = s.air ∧
      (State.hsleepChanged now p level s).rail = s.rail ∧
      (State.hsleepChanged now p level s).keypad = s.keypad ∧
      (State.hsleepChanged now p level s).engine = s.engine ∧
      (State.hsleepChanged now p level s).store = s.store ∧
      (State.hsleepChanged now p level s).supplyLow = s.supplyLow ∧
      (State.hsleepChanged now p level s).fresh = s.fresh ∧
      (State.hsleepChanged now p level s).pending = s.pending := by
  simp only [State.hsleepChanged]
  (repeat' split) <;> simp

@[simp] theorem State.samplePower_frame (now : SlotCount) (p : Image) (pgood hsleep : Bool) (s : State) :
      (State.samplePower now p pgood hsleep s).time = s.time ∧
      (State.samplePower now p pgood hsleep s).sense = s.sense ∧
      (State.samplePower now p pgood hsleep s).air = s.air ∧
      (State.samplePower now p pgood hsleep s).keypad = s.keypad ∧
      (State.samplePower now p pgood hsleep s).engine = s.engine ∧
      (State.samplePower now p pgood hsleep s).store = s.store ∧
      (State.samplePower now p pgood hsleep s).supplyLow = s.supplyLow ∧
      (State.samplePower now p pgood hsleep s).fresh = s.fresh ∧
      (State.samplePower now p pgood hsleep s).pending = s.pending := by
  simp only [State.samplePower]
  (repeat' split) <;> simp

@[simp] theorem State.publishInputs_frame (p : Image) (s : State) :
      (State.publishInputs p s).time = s.time ∧
      (State.publishInputs p s).sense = s.sense ∧
      (State.publishInputs p s).climate = s.climate ∧
      (State.publishInputs p s).air = s.air ∧
      (State.publishInputs p s).rail = s.rail ∧
      (State.publishInputs p s).mon = s.mon ∧
      (State.publishInputs p s).keypad = s.keypad ∧
      (State.publishInputs p s).engine = s.engine ∧
      (State.publishInputs p s).store = s.store ∧
      (State.publishInputs p s).supplyLow = s.supplyLow ∧
      (State.publishInputs p s).fresh = s.fresh ∧
      (State.publishInputs p s).pending = s.pending := by
  simp [State.publishInputs]

@[simp] theorem State.cutInput_frame (now : SlotCount) (p : Image) (s : State) :
      (State.cutInput now p s).time = s.time ∧
      (State.cutInput now p s).sense = s.sense ∧
      (State.cutInput now p s).air = s.air ∧
      (State.cutInput now p s).keypad = s.keypad ∧
      (State.cutInput now p s).engine = s.engine ∧
      (State.cutInput now p s).store = s.store ∧
      (State.cutInput now p s).supplyLow = s.supplyLow ∧
      (State.cutInput now p s).fresh = s.fresh ∧
      (State.cutInput now p s).pending = s.pending := by
  unfold State.cutInput
  (repeat' split) <;> simp

@[simp] theorem State.inputRises_frame (now : SlotCount) (p : Image) (k : Fin 4) (s : State) :
      (State.inputRises now p k s).time = s.time ∧
      (State.inputRises now p k s).sense = s.sense ∧
      (State.inputRises now p k s).air = s.air ∧
      (State.inputRises now p k s).keypad = s.keypad ∧
      (State.inputRises now p k s).engine = s.engine ∧
      (State.inputRises now p k s).store = s.store ∧
      (State.inputRises now p k s).supplyLow = s.supplyLow ∧
      (State.inputRises now p k s).fresh = s.fresh ∧
      (State.inputRises now p k s).pending = s.pending := by
  unfold State.inputRises
  (repeat' split) <;> simp

@[simp] theorem State.inputFalls_frame (p : Image) (k : Fin 4) (s : State) :
      (State.inputFalls p k s).time = s.time ∧
      (State.inputFalls p k s).sense = s.sense ∧
      (State.inputFalls p k s).climate = s.climate ∧
      (State.inputFalls p k s).air = s.air ∧
      (State.inputFalls p k s).rail = s.rail ∧
      (State.inputFalls p k s).mon = s.mon ∧
      (State.inputFalls p k s).keypad = s.keypad ∧
      (State.inputFalls p k s).engine = s.engine ∧
      (State.inputFalls p k s).store = s.store ∧
      (State.inputFalls p k s).supplyLow = s.supplyLow ∧
      (State.inputFalls p k s).fresh = s.fresh ∧
      (State.inputFalls p k s).pending = s.pending := by
  unfold State.inputFalls
  split <;> simp

@[simp] theorem State.sampleInput_frame (now : SlotCount) (p : Image) (levels : BitVec 4) (s : State) (k : Fin 4) :
      (State.sampleInput now p levels s k).time = s.time ∧
      (State.sampleInput now p levels s k).sense = s.sense ∧
      (State.sampleInput now p levels s k).air = s.air ∧
      (State.sampleInput now p levels s k).keypad = s.keypad ∧
      (State.sampleInput now p levels s k).engine = s.engine ∧
      (State.sampleInput now p levels s k).store = s.store ∧
      (State.sampleInput now p levels s k).supplyLow = s.supplyLow ∧
      (State.sampleInput now p levels s k).fresh = s.fresh ∧
      (State.sampleInput now p levels s k).pending = s.pending := by
  simp only [State.sampleInput]
  (repeat' split) <;> simp

@[simp] theorem State.sampleInputs_frame (now : SlotCount) (p : Image) (levels : BitVec 4) (s : State) :
      (State.sampleInputs now p levels s).time = s.time ∧
      (State.sampleInputs now p levels s).sense = s.sense ∧
      (State.sampleInputs now p levels s).air = s.air ∧
      (State.sampleInputs now p levels s).keypad = s.keypad ∧
      (State.sampleInputs now p levels s).engine = s.engine ∧
      (State.sampleInputs now p levels s).store = s.store ∧
      (State.sampleInputs now p levels s).supplyLow = s.supplyLow ∧
      (State.sampleInputs now p levels s).fresh = s.fresh ∧
      (State.sampleInputs now p levels s).pending = s.pending := by
  simp only [State.sampleInputs]
  refine ⟨?_, ?_, ?_, ?_, ?_, ?_, ?_, ?_, ?_⟩ <;> exact foldl_keeps _ _ (fun _ _ => by simp) _ _

@[simp] theorem State.powerKeyPress_frame (now : SlotCount) (p : Image) (s : State) :
      (State.powerKeyPress now p s).time = s.time ∧
      (State.powerKeyPress now p s).sense = s.sense ∧
      (State.powerKeyPress now p s).air = s.air ∧
      (State.powerKeyPress now p s).keypad = s.keypad ∧
      (State.powerKeyPress now p s).engine = s.engine ∧
      (State.powerKeyPress now p s).store = s.store ∧
      (State.powerKeyPress now p s).supplyLow = s.supplyLow ∧
      (State.powerKeyPress now p s).fresh = s.fresh ∧
      (State.powerKeyPress now p s).pending = s.pending := by
  simp only [State.powerKeyPress]
  (repeat' split) <;> simp

@[simp] theorem State.powerKeyRelease_frame (s : State) :
      (State.powerKeyRelease s).time = s.time ∧
      (State.powerKeyRelease s).sense = s.sense ∧
      (State.powerKeyRelease s).climate = s.climate ∧
      (State.powerKeyRelease s).air = s.air ∧
      (State.powerKeyRelease s).mon = s.mon ∧
      (State.powerKeyRelease s).keypad = s.keypad ∧
      (State.powerKeyRelease s).xmem = s.xmem ∧
      (State.powerKeyRelease s).engine = s.engine ∧
      (State.powerKeyRelease s).store = s.store ∧
      (State.powerKeyRelease s).supplyLow = s.supplyLow ∧
      (State.powerKeyRelease s).fresh = s.fresh ∧
      (State.powerKeyRelease s).pending = s.pending := by
  simp [State.powerKeyRelease]

@[simp] theorem State.serviceChord_frame (now : SlotCount) (p : Image) (s : State) :
      (State.serviceChord now p s).time = s.time ∧
      (State.serviceChord now p s).sense = s.sense ∧
      (State.serviceChord now p s).air = s.air ∧
      (State.serviceChord now p s).keypad = s.keypad ∧
      (State.serviceChord now p s).engine = s.engine ∧
      (State.serviceChord now p s).store = s.store ∧
      (State.serviceChord now p s).supplyLow = s.supplyLow ∧
      (State.serviceChord now p s).fresh = s.fresh ∧
      (State.serviceChord now p s).pending = s.pending := by
  unfold State.serviceChord
  split <;> simp

@[simp] theorem State.publishZone_frame (s : State) (z : Fin 3) :
      (State.publishZone s z).time = s.time ∧
      (State.publishZone s z).sense = s.sense ∧
      (State.publishZone s z).climate = s.climate ∧
      (State.publishZone s z).air = s.air ∧
      (State.publishZone s z).rail = s.rail ∧
      (State.publishZone s z).mon = s.mon ∧
      (State.publishZone s z).keypad = s.keypad ∧
      (State.publishZone s z).engine = s.engine ∧
      (State.publishZone s z).store = s.store ∧
      (State.publishZone s z).supplyLow = s.supplyLow ∧
      (State.publishZone s z).fresh = s.fresh ∧
      (State.publishZone s z).pending = s.pending := by
  simp [State.publishZone]

@[simp] theorem State.publishClimate_frame (s : State) :
      (State.publishClimate s).time = s.time ∧
      (State.publishClimate s).sense = s.sense ∧
      (State.publishClimate s).climate = s.climate ∧
      (State.publishClimate s).air = s.air ∧
      (State.publishClimate s).rail = s.rail ∧
      (State.publishClimate s).mon = s.mon ∧
      (State.publishClimate s).keypad = s.keypad ∧
      (State.publishClimate s).engine = s.engine ∧
      (State.publishClimate s).store = s.store ∧
      (State.publishClimate s).supplyLow = s.supplyLow ∧
      (State.publishClimate s).fresh = s.fresh ∧
      (State.publishClimate s).pending = s.pending := by
  refine ⟨foldl_keeps (fun s => s.time) State.publishZone (fun _ _ => by simp) (List.finRange 3) s,
    foldl_keeps (fun s => s.sense) State.publishZone (fun _ _ => by simp) (List.finRange 3) s,
    foldl_keeps (fun s => s.climate) State.publishZone (fun _ _ => by simp) (List.finRange 3) s,
    foldl_keeps (fun s => s.air) State.publishZone (fun _ _ => by simp) (List.finRange 3) s,
    foldl_keeps (fun s => s.rail) State.publishZone (fun _ _ => by simp) (List.finRange 3) s,
    foldl_keeps (fun s => s.mon) State.publishZone (fun _ _ => by simp) (List.finRange 3) s,
    foldl_keeps (fun s => s.keypad) State.publishZone (fun _ _ => by simp) (List.finRange 3) s,
    foldl_keeps (fun s => s.engine) State.publishZone (fun _ _ => by simp) (List.finRange 3) s,
    foldl_keeps (fun s => s.store) State.publishZone (fun _ _ => by simp) (List.finRange 3) s,
    foldl_keeps (fun s => s.supplyLow) State.publishZone (fun _ _ => by simp) (List.finRange 3) s,
    foldl_keeps (fun s => s.fresh) State.publishZone (fun _ _ => by simp) (List.finRange 3) s,
    foldl_keeps (fun s => s.pending) State.publishZone (fun _ _ => by simp) (List.finRange 3) s⟩

@[simp] theorem State.climateBoundary_frame (now : SlotCount) (p : Image) (s : State) :
      (State.climateBoundary now p s).1.time = s.time ∧
      (State.climateBoundary now p s).1.sense = s.sense ∧
      (State.climateBoundary now p s).1.air = s.air ∧
      (State.climateBoundary now p s).1.rail = s.rail ∧
      (State.climateBoundary now p s).1.mon = s.mon ∧
      (State.climateBoundary now p s).1.keypad = s.keypad ∧
      (State.climateBoundary now p s).1.engine = s.engine ∧
      (State.climateBoundary now p s).1.store = s.store ∧
      (State.climateBoundary now p s).1.supplyLow = s.supplyLow ∧
      (State.climateBoundary now p s).1.fresh = s.fresh ∧
      (State.climateBoundary now p s).1.pending = s.pending := by
  simp [State.climateBoundary]

@[simp] theorem State.driveHeaters_frame (n : Nat) (s : State) :
      (State.driveHeaters n s).time = s.time ∧
      (State.driveHeaters n s).sense = s.sense ∧
      (State.driveHeaters n s).air = s.air ∧
      (State.driveHeaters n s).rail = s.rail ∧
      (State.driveHeaters n s).mon = s.mon ∧
      (State.driveHeaters n s).keypad = s.keypad ∧
      (State.driveHeaters n s).xmem = s.xmem ∧
      (State.driveHeaters n s).engine = s.engine ∧
      (State.driveHeaters n s).store = s.store ∧
      (State.driveHeaters n s).supplyLow = s.supplyLow ∧
      (State.driveHeaters n s).fresh = s.fresh ∧
      (State.driveHeaters n s).pending = s.pending := by
  simp [State.driveHeaters]

@[simp] theorem State.fogNotice_frame (p : Image) (s : State) :
      (State.fogNotice p s).time = s.time ∧
      (State.fogNotice p s).sense = s.sense ∧
      (State.fogNotice p s).air = s.air ∧
      (State.fogNotice p s).rail = s.rail ∧
      (State.fogNotice p s).mon = s.mon ∧
      (State.fogNotice p s).keypad = s.keypad ∧
      (State.fogNotice p s).engine = s.engine ∧
      (State.fogNotice p s).store = s.store ∧
      (State.fogNotice p s).supplyLow = s.supplyLow ∧
      (State.fogNotice p s).fresh = s.fresh ∧
      (State.fogNotice p s).pending = s.pending := by
  simp only [State.fogNotice]
  (repeat' split) <;> simp

@[simp] theorem State.setOverride_frame (z : Fin 3) (o : Option Int) (s : State) :
      (State.setOverride z o s).time = s.time ∧
      (State.setOverride z o s).sense = s.sense ∧
      (State.setOverride z o s).air = s.air ∧
      (State.setOverride z o s).rail = s.rail ∧
      (State.setOverride z o s).mon = s.mon ∧
      (State.setOverride z o s).keypad = s.keypad ∧
      (State.setOverride z o s).xmem = s.xmem ∧
      (State.setOverride z o s).engine = s.engine ∧
      (State.setOverride z o s).store = s.store ∧
      (State.setOverride z o s).supplyLow = s.supplyLow ∧
      (State.setOverride z o s).fresh = s.fresh ∧
      (State.setOverride z o s).pending = s.pending := by
  simp [State.setOverride]

@[simp] theorem State.zoneTargetSlip_frame (zone action : Nat) (setpoint : Int) (s : State) :
      (State.zoneTargetSlip zone action setpoint s).1.time = s.time ∧
      (State.zoneTargetSlip zone action setpoint s).1.sense = s.sense ∧
      (State.zoneTargetSlip zone action setpoint s).1.air = s.air ∧
      (State.zoneTargetSlip zone action setpoint s).1.rail = s.rail ∧
      (State.zoneTargetSlip zone action setpoint s).1.mon = s.mon ∧
      (State.zoneTargetSlip zone action setpoint s).1.keypad = s.keypad ∧
      (State.zoneTargetSlip zone action setpoint s).1.xmem = s.xmem ∧
      (State.zoneTargetSlip zone action setpoint s).1.engine = s.engine ∧
      (State.zoneTargetSlip zone action setpoint s).1.store = s.store ∧
      (State.zoneTargetSlip zone action setpoint s).1.supplyLow = s.supplyLow ∧
      (State.zoneTargetSlip zone action setpoint s).1.fresh = s.fresh ∧
      (State.zoneTargetSlip zone action setpoint s).1.pending = s.pending := by
  unfold State.zoneTargetSlip
  (repeat' split) <;> simp

@[simp] theorem State.judgeFan_frame (p : Image) (s : State) (f : Fin 2) :
      (State.judgeFan p s f).time = s.time ∧
      (State.judgeFan p s f).sense = s.sense ∧
      (State.judgeFan p s f).climate = s.climate ∧
      (State.judgeFan p s f).rail = s.rail ∧
      (State.judgeFan p s f).mon = s.mon ∧
      (State.judgeFan p s f).keypad = s.keypad ∧
      (State.judgeFan p s f).engine = s.engine ∧
      (State.judgeFan p s f).store = s.store ∧
      (State.judgeFan p s f).supplyLow = s.supplyLow ∧
      (State.judgeFan p s f).fresh = s.fresh ∧
      (State.judgeFan p s f).pending = s.pending := by
  simp only [State.judgeFan]
  (repeat' split) <;> simp

@[simp] theorem State.setFanSpeed_frame (f : Fin 2) (r : FanRec) (s : State) :
      (State.setFanSpeed f r s).time = s.time ∧
      (State.setFanSpeed f r s).sense = s.sense ∧
      (State.setFanSpeed f r s).climate = s.climate ∧
      (State.setFanSpeed f r s).rail = s.rail ∧
      (State.setFanSpeed f r s).mon = s.mon ∧
      (State.setFanSpeed f r s).keypad = s.keypad ∧
      (State.setFanSpeed f r s).engine = s.engine ∧
      (State.setFanSpeed f r s).store = s.store ∧
      (State.setFanSpeed f r s).supplyLow = s.supplyLow ∧
      (State.setFanSpeed f r s).fresh = s.fresh ∧
      (State.setFanSpeed f r s).pending = s.pending := by
  unfold State.setFanSpeed
  dsimp only
  split <;> simp

@[simp] theorem State.endProbe_frame (reason : AbortReason) (s : State) :
      (State.endProbe reason s).1.time = s.time ∧
      (State.endProbe reason s).1.sense = s.sense ∧
      (State.endProbe reason s).1.climate = s.climate ∧
      (State.endProbe reason s).1.rail = s.rail ∧
      (State.endProbe reason s).1.mon = s.mon ∧
      (State.endProbe reason s).1.keypad = s.keypad ∧
      (State.endProbe reason s).1.store = s.store ∧
      (State.endProbe reason s).1.supplyLow = s.supplyLow ∧
      (State.endProbe reason s).1.fresh = s.fresh ∧
      (State.endProbe reason s).1.pending = s.pending := by
  simp only [State.endProbe]
  (repeat' split) <;> simp

@[simp] theorem State.clogAlarms_frame (p : Image) (c : Nat) (s : State) :
      (State.clogAlarms p c s).time = s.time ∧
      (State.clogAlarms p c s).sense = s.sense ∧
      (State.clogAlarms p c s).climate = s.climate ∧
      (State.clogAlarms p c s).rail = s.rail ∧
      (State.clogAlarms p c s).mon = s.mon ∧
      (State.clogAlarms p c s).keypad = s.keypad ∧
      (State.clogAlarms p c s).engine = s.engine ∧
      (State.clogAlarms p c s).store = s.store ∧
      (State.clogAlarms p c s).supplyLow = s.supplyLow ∧
      (State.clogAlarms p c s).fresh = s.fresh ∧
      (State.clogAlarms p c s).pending = s.pending := by
  unfold State.clogAlarms
  (repeat' split) <;> simp

@[simp] theorem State.handReference_frame (now : SlotCount) (rf : Nat) (s : State) :
      (State.handReference now rf s).time = s.time ∧
      (State.handReference now rf s).sense = s.sense ∧
      (State.handReference now rf s).climate = s.climate ∧
      (State.handReference now rf s).air = s.air ∧
      (State.handReference now rf s).rail = s.rail ∧
      (State.handReference now rf s).mon = s.mon ∧
      (State.handReference now rf s).keypad = s.keypad ∧
      (State.handReference now rf s).xmem = s.xmem ∧
      (State.handReference now rf s).engine = s.engine ∧
      (State.handReference now rf s).supplyLow = s.supplyLow ∧
      (State.handReference now rf s).fresh = s.fresh ∧
      (State.handReference now rf s).pending = s.pending := by
  simp [State.handReference]

@[simp] theorem State.completeProbe_frame (now : SlotCount) (p : Image) (measure : Nat) (s : State) :
      (State.completeProbe now p measure s).1.time = s.time ∧
      (State.completeProbe now p measure s).1.sense = s.sense ∧
      (State.completeProbe now p measure s).1.climate = s.climate ∧
      (State.completeProbe now p measure s).1.rail = s.rail ∧
      (State.completeProbe now p measure s).1.mon = s.mon ∧
      (State.completeProbe now p measure s).1.keypad = s.keypad ∧
      (State.completeProbe now p measure s).1.supplyLow = s.supplyLow ∧
      (State.completeProbe now p measure s).1.fresh = s.fresh ∧
      (State.completeProbe now p measure s).1.pending = s.pending := by
  simp only [State.completeProbe]
  (repeat' split) <;> simp

@[simp] theorem State.startProbe_frame (p : Image) (s : State) :
      (State.startProbe p s).time = s.time ∧
      (State.startProbe p s).sense = s.sense ∧
      (State.startProbe p s).climate = s.climate ∧
      (State.startProbe p s).rail = s.rail ∧
      (State.startProbe p s).mon = s.mon ∧
      (State.startProbe p s).keypad = s.keypad ∧
      (State.startProbe p s).xmem = s.xmem ∧
      (State.startProbe p s).engine = s.engine ∧
      (State.startProbe p s).store = s.store ∧
      (State.startProbe p s).supplyLow = s.supplyLow ∧
      (State.startProbe p s).fresh = s.fresh ∧
      (State.startProbe p s).pending = s.pending := by
  simp [State.startProbe]

@[simp] theorem State.probeStage_frame (now : SlotCount) (p : Image) (curve : Option Nat) (s : State) :
      (State.probeStage now p curve s).1.time = s.time ∧
      (State.probeStage now p curve s).1.sense = s.sense ∧
      (State.probeStage now p curve s).1.climate = s.climate ∧
      (State.probeStage now p curve s).1.rail = s.rail ∧
      (State.probeStage now p curve s).1.mon = s.mon ∧
      (State.probeStage now p curve s).1.keypad = s.keypad ∧
      (State.probeStage now p curve s).1.supplyLow = s.supplyLow ∧
      (State.probeStage now p curve s).1.fresh = s.fresh ∧
      (State.probeStage now p curve s).1.pending = s.pending := by
  simp only [State.probeStage]
  (repeat' split) <;> simp

@[simp] theorem State.publishFan_frame (s : State) (f : Fin 2) :
      (State.publishFan s f).time = s.time ∧
      (State.publishFan s f).sense = s.sense ∧
      (State.publishFan s f).climate = s.climate ∧
      (State.publishFan s f).air = s.air ∧
      (State.publishFan s f).rail = s.rail ∧
      (State.publishFan s f).mon = s.mon ∧
      (State.publishFan s f).keypad = s.keypad ∧
      (State.publishFan s f).engine = s.engine ∧
      (State.publishFan s f).store = s.store ∧
      (State.publishFan s f).supplyLow = s.supplyLow ∧
      (State.publishFan s f).fresh = s.fresh ∧
      (State.publishFan s f).pending = s.pending := by
  simp [State.publishFan]

@[simp] theorem State.publishProbe_frame (s : State) :
      (State.publishProbe s).time = s.time ∧
      (State.publishProbe s).sense = s.sense ∧
      (State.publishProbe s).climate = s.climate ∧
      (State.publishProbe s).air = s.air ∧
      (State.publishProbe s).rail = s.rail ∧
      (State.publishProbe s).mon = s.mon ∧
      (State.publishProbe s).keypad = s.keypad ∧
      (State.publishProbe s).engine = s.engine ∧
      (State.publishProbe s).store = s.store ∧
      (State.publishProbe s).supplyLow = s.supplyLow ∧
      (State.publishProbe s).fresh = s.fresh ∧
      (State.publishProbe s).pending = s.pending := by
  simp [State.publishProbe]

@[simp] theorem State.judgeFan_foldl_frame (p : Image) (l : List (Fin 2)) (s : State) :
      (l.foldl (State.judgeFan p) s).time = s.time ∧
      (l.foldl (State.judgeFan p) s).sense = s.sense ∧
      (l.foldl (State.judgeFan p) s).climate = s.climate ∧
      (l.foldl (State.judgeFan p) s).rail = s.rail ∧
      (l.foldl (State.judgeFan p) s).mon = s.mon ∧
      (l.foldl (State.judgeFan p) s).keypad = s.keypad ∧
      (l.foldl (State.judgeFan p) s).engine = s.engine ∧
      (l.foldl (State.judgeFan p) s).store = s.store ∧
      (l.foldl (State.judgeFan p) s).supplyLow = s.supplyLow ∧
      (l.foldl (State.judgeFan p) s).fresh = s.fresh ∧
      (l.foldl (State.judgeFan p) s).pending = s.pending :=
  ⟨foldl_keeps (fun s => s.time) _ (fun _ _ => by simp) l s,
    foldl_keeps (fun s => s.sense) _ (fun _ _ => by simp) l s,
    foldl_keeps (fun s => s.climate) _ (fun _ _ => by simp) l s,
    foldl_keeps (fun s => s.rail) _ (fun _ _ => by simp) l s,
    foldl_keeps (fun s => s.mon) _ (fun _ _ => by simp) l s,
    foldl_keeps (fun s => s.keypad) _ (fun _ _ => by simp) l s,
    foldl_keeps (fun s => s.engine) _ (fun _ _ => by simp) l s,
    foldl_keeps (fun s => s.store) _ (fun _ _ => by simp) l s,
    foldl_keeps (fun s => s.supplyLow) _ (fun _ _ => by simp) l s,
    foldl_keeps (fun s => s.fresh) _ (fun _ _ => by simp) l s,
    foldl_keeps (fun s => s.pending) _ (fun _ _ => by simp) l s⟩

@[simp] theorem State.publishFan_foldl_frame  (l : List (Fin 2)) (s : State) :
      (l.foldl (State.publishFan ) s).time = s.time ∧
      (l.foldl (State.publishFan ) s).sense = s.sense ∧
      (l.foldl (State.publishFan ) s).climate = s.climate ∧
      (l.foldl (State.publishFan ) s).air = s.air ∧
      (l.foldl (State.publishFan ) s).rail = s.rail ∧
      (l.foldl (State.publishFan ) s).mon = s.mon ∧
      (l.foldl (State.publishFan ) s).keypad = s.keypad ∧
      (l.foldl (State.publishFan ) s).engine = s.engine ∧
      (l.foldl (State.publishFan ) s).store = s.store ∧
      (l.foldl (State.publishFan ) s).supplyLow = s.supplyLow ∧
      (l.foldl (State.publishFan ) s).fresh = s.fresh ∧
      (l.foldl (State.publishFan ) s).pending = s.pending :=
  ⟨foldl_keeps (fun s => s.time) _ (fun _ _ => by simp) l s,
    foldl_keeps (fun s => s.sense) _ (fun _ _ => by simp) l s,
    foldl_keeps (fun s => s.climate) _ (fun _ _ => by simp) l s,
    foldl_keeps (fun s => s.air) _ (fun _ _ => by simp) l s,
    foldl_keeps (fun s => s.rail) _ (fun _ _ => by simp) l s,
    foldl_keeps (fun s => s.mon) _ (fun _ _ => by simp) l s,
    foldl_keeps (fun s => s.keypad) _ (fun _ _ => by simp) l s,
    foldl_keeps (fun s => s.engine) _ (fun _ _ => by simp) l s,
    foldl_keeps (fun s => s.store) _ (fun _ _ => by simp) l s,
    foldl_keeps (fun s => s.supplyLow) _ (fun _ _ => by simp) l s,
    foldl_keeps (fun s => s.fresh) _ (fun _ _ => by simp) l s,
    foldl_keeps (fun s => s.pending) _ (fun _ _ => by simp) l s⟩

@[simp] theorem State.airBoundary_frame (now : SlotCount) (p : Image) (s : State) :
      (State.airBoundary now p s).time = s.time ∧
      (State.airBoundary now p s).sense = s.sense ∧
      (State.airBoundary now p s).climate = s.climate ∧
      (State.airBoundary now p s).rail = s.rail ∧
      (State.airBoundary now p s).mon = s.mon ∧
      (State.airBoundary now p s).keypad = s.keypad ∧
      (State.airBoundary now p s).supplyLow = s.supplyLow ∧
      (State.airBoundary now p s).fresh = s.fresh ∧
      (State.airBoundary now p s).pending = s.pending := by
  unfold State.airBoundary
  simp

@[simp] theorem State.fanFloorSlip_frame (fan floor : Nat) (s : State) :
      (State.fanFloorSlip fan floor s).1.time = s.time ∧
      (State.fanFloorSlip fan floor s).1.sense = s.sense ∧
      (State.fanFloorSlip fan floor s).1.climate = s.climate ∧
      (State.fanFloorSlip fan floor s).1.rail = s.rail ∧
      (State.fanFloorSlip fan floor s).1.mon = s.mon ∧
      (State.fanFloorSlip fan floor s).1.keypad = s.keypad ∧
      (State.fanFloorSlip fan floor s).1.xmem = s.xmem ∧
      (State.fanFloorSlip fan floor s).1.engine = s.engine ∧
      (State.fanFloorSlip fan floor s).1.store = s.store ∧
      (State.fanFloorSlip fan floor s).1.supplyLow = s.supplyLow ∧
      (State.fanFloorSlip fan floor s).1.fresh = s.fresh ∧
      (State.fanFloorSlip fan floor s).1.pending = s.pending := by
  unfold State.fanFloorSlip
  split <;> simp

@[simp] theorem State.probeSlip_frame (origin : ProbeOrigin) (s : State) :
      (State.probeSlip origin s).1.time = s.time ∧
      (State.probeSlip origin s).1.sense = s.sense ∧
      (State.probeSlip origin s).1.climate = s.climate ∧
      (State.probeSlip origin s).1.rail = s.rail ∧
      (State.probeSlip origin s).1.mon = s.mon ∧
      (State.probeSlip origin s).1.keypad = s.keypad ∧
      (State.probeSlip origin s).1.xmem = s.xmem ∧
      (State.probeSlip origin s).1.engine = s.engine ∧
      (State.probeSlip origin s).1.store = s.store ∧
      (State.probeSlip origin s).1.supplyLow = s.supplyLow ∧
      (State.probeSlip origin s).1.fresh = s.fresh ∧
      (State.probeSlip origin s).1.pending = s.pending := by
  unfold State.probeSlip
  split <;> simp

@[simp] theorem State.referenceWritten_frame (rf : Nat) (s : State) :
      (State.referenceWritten rf s).time = s.time ∧
      (State.referenceWritten rf s).sense = s.sense ∧
      (State.referenceWritten rf s).climate = s.climate ∧
      (State.referenceWritten rf s).rail = s.rail ∧
      (State.referenceWritten rf s).mon = s.mon ∧
      (State.referenceWritten rf s).keypad = s.keypad ∧
      (State.referenceWritten rf s).store = s.store ∧
      (State.referenceWritten rf s).supplyLow = s.supplyLow ∧
      (State.referenceWritten rf s).fresh = s.fresh ∧
      (State.referenceWritten rf s).pending = s.pending := by
  simp [State.referenceWritten]

@[simp] theorem State.publishFog_frame (s : State) :
      (State.publishFog s).time = s.time ∧
      (State.publishFog s).sense = s.sense ∧
      (State.publishFog s).climate = s.climate ∧
      (State.publishFog s).air = s.air ∧
      (State.publishFog s).rail = s.rail ∧
      (State.publishFog s).mon = s.mon ∧
      (State.publishFog s).keypad = s.keypad ∧
      (State.publishFog s).engine = s.engine ∧
      (State.publishFog s).store = s.store ∧
      (State.publishFog s).supplyLow = s.supplyLow ∧
      (State.publishFog s).fresh = s.fresh ∧
      (State.publishFog s).pending = s.pending := by
  simp [State.publishFog]

@[simp] theorem State.judgeFog_frame (p : Image) (s : State) :
      (State.judgeFog p s).time = s.time ∧
      (State.judgeFog p s).sense = s.sense ∧
      (State.judgeFog p s).air = s.air ∧
      (State.judgeFog p s).rail = s.rail ∧
      (State.judgeFog p s).mon = s.mon ∧
      (State.judgeFog p s).engine = s.engine ∧
      (State.judgeFog p s).store = s.store ∧
      (State.judgeFog p s).supplyLow = s.supplyLow ∧
      (State.judgeFog p s).fresh = s.fresh ∧
      (State.judgeFog p s).pending = s.pending := by
  simp only [State.judgeFog]
  (repeat' split) <;> simp

@[simp] theorem State.writeEntry_frame (now : SlotCount) (kind : EntryKind) (subject : Byte) (s : State) :
      (State.writeEntry now kind subject s).time = s.time ∧
      (State.writeEntry now kind subject s).sense = s.sense ∧
      (State.writeEntry now kind subject s).climate = s.climate ∧
      (State.writeEntry now kind subject s).air = s.air ∧
      (State.writeEntry now kind subject s).rail = s.rail ∧
      (State.writeEntry now kind subject s).mon = s.mon ∧
      (State.writeEntry now kind subject s).engine = s.engine ∧
      (State.writeEntry now kind subject s).store = s.store ∧
      (State.writeEntry now kind subject s).supplyLow = s.supplyLow ∧
      (State.writeEntry now kind subject s).fresh = s.fresh ∧
      (State.writeEntry now kind subject s).pending = s.pending := by
  simp [State.writeEntry]

@[simp] theorem State.writeGap_frame (now : SlotCount) (s : State) :
      (State.writeGap now s).time = s.time ∧
      (State.writeGap now s).sense = s.sense ∧
      (State.writeGap now s).climate = s.climate ∧
      (State.writeGap now s).air = s.air ∧
      (State.writeGap now s).rail = s.rail ∧
      (State.writeGap now s).mon = s.mon ∧
      (State.writeGap now s).engine = s.engine ∧
      (State.writeGap now s).store = s.store ∧
      (State.writeGap now s).supplyLow = s.supplyLow ∧
      (State.writeGap now s).fresh = s.fresh ∧
      (State.writeGap now s).pending = s.pending := by
  simp [State.writeGap]

@[simp] theorem State.offer_frame (now : SlotCount) (kind : EntryKind) (subject : Byte) (s : State) :
      (State.offer now kind subject s).time = s.time ∧
      (State.offer now kind subject s).sense = s.sense ∧
      (State.offer now kind subject s).climate = s.climate ∧
      (State.offer now kind subject s).air = s.air ∧
      (State.offer now kind subject s).rail = s.rail ∧
      (State.offer now kind subject s).mon = s.mon ∧
      (State.offer now kind subject s).engine = s.engine ∧
      (State.offer now kind subject s).store = s.store ∧
      (State.offer now kind subject s).supplyLow = s.supplyLow ∧
      (State.offer now kind subject s).fresh = s.fresh ∧
      (State.offer now kind subject s).pending = s.pending := by
  unfold State.offer
  (repeat' split) <;> simp

@[simp] theorem State.deliverReadCounter_frame (now : SlotCount) (s : State) :
      (State.deliverReadCounter now s).time = s.time ∧
      (State.deliverReadCounter now s).sense = s.sense ∧
      (State.deliverReadCounter now s).climate = s.climate ∧
      (State.deliverReadCounter now s).air = s.air ∧
      (State.deliverReadCounter now s).rail = s.rail ∧
      (State.deliverReadCounter now s).mon = s.mon ∧
      (State.deliverReadCounter now s).engine = s.engine ∧
      (State.deliverReadCounter now s).store = s.store ∧
      (State.deliverReadCounter now s).supplyLow = s.supplyLow ∧
      (State.deliverReadCounter now s).fresh = s.fresh ∧
      (State.deliverReadCounter now s).pending = s.pending := by
  simp only [State.deliverReadCounter]
  (repeat' split) <;> simp

@[simp] theorem State.give_frame (now : SlotCount) (p : Image) (s : State) (e : KeyEvent) :
      (State.give now p s e).time = s.time ∧
      (State.give now p s e).sense = s.sense ∧
      (State.give now p s e).air = s.air ∧
      (State.give now p s e).engine = s.engine ∧
      (State.give now p s e).store = s.store ∧
      (State.give now p s e).supplyLow = s.supplyLow ∧
      (State.give now p s e).fresh = s.fresh ∧
      (State.give now p s e).pending = s.pending := by
  unfold State.give
  split <;> simp

@[simp] theorem State.endRebaseline_frame (code : ResultCode) (mask : BitVec 24) (s : State) :
      (State.endRebaseline code mask s).time = s.time ∧
      (State.endRebaseline code mask s).sense = s.sense ∧
      (State.endRebaseline code mask s).climate = s.climate ∧
      (State.endRebaseline code mask s).air = s.air ∧
      (State.endRebaseline code mask s).rail = s.rail ∧
      (State.endRebaseline code mask s).mon = s.mon ∧
      (State.endRebaseline code mask s).store = s.store ∧
      (State.endRebaseline code mask s).supplyLow = s.supplyLow ∧
      (State.endRebaseline code mask s).fresh = s.fresh ∧
      (State.endRebaseline code mask s).pending = s.pending := by
  simp [State.endRebaseline]

@[simp] theorem State.finishRebaseline_frame (s : State) :
      (State.finishRebaseline s).time = s.time ∧
      (State.finishRebaseline s).sense = s.sense ∧
      (State.finishRebaseline s).climate = s.climate ∧
      (State.finishRebaseline s).air = s.air ∧
      (State.finishRebaseline s).rail = s.rail ∧
      (State.finishRebaseline s).mon = s.mon ∧
      (State.finishRebaseline s).store = s.store ∧
      (State.finishRebaseline s).supplyLow = s.supplyLow ∧
      (State.finishRebaseline s).fresh = s.fresh ∧
      (State.finishRebaseline s).pending = s.pending := by
  unfold State.finishRebaseline
  (repeat' split) <;> simp

@[simp] theorem State.stopRebaseline_frame (s : State) :
      (State.stopRebaseline s).time = s.time ∧
      (State.stopRebaseline s).sense = s.sense ∧
      (State.stopRebaseline s).climate = s.climate ∧
      (State.stopRebaseline s).air = s.air ∧
      (State.stopRebaseline s).rail = s.rail ∧
      (State.stopRebaseline s).mon = s.mon ∧
      (State.stopRebaseline s).store = s.store ∧
      (State.stopRebaseline s).supplyLow = s.supplyLow ∧
      (State.stopRebaseline s).fresh = s.fresh ∧
      (State.stopRebaseline s).pending = s.pending := by
  unfold State.stopRebaseline
  (repeat' split) <;> simp

@[simp] theorem State.give_foldl_frame (now : SlotCount) (p : Image) (l : List (KeyEvent)) (s : State) :
      (l.foldl (State.give now p) s).time = s.time ∧
      (l.foldl (State.give now p) s).sense = s.sense ∧
      (l.foldl (State.give now p) s).air = s.air ∧
      (l.foldl (State.give now p) s).engine = s.engine ∧
      (l.foldl (State.give now p) s).store = s.store ∧
      (l.foldl (State.give now p) s).supplyLow = s.supplyLow ∧
      (l.foldl (State.give now p) s).fresh = s.fresh ∧
      (l.foldl (State.give now p) s).pending = s.pending :=
  ⟨foldl_keeps (fun s => s.time) _ (fun _ _ => by simp) l s,
    foldl_keeps (fun s => s.sense) _ (fun _ _ => by simp) l s,
    foldl_keeps (fun s => s.air) _ (fun _ _ => by simp) l s,
    foldl_keeps (fun s => s.engine) _ (fun _ _ => by simp) l s,
    foldl_keeps (fun s => s.store) _ (fun _ _ => by simp) l s,
    foldl_keeps (fun s => s.supplyLow) _ (fun _ _ => by simp) l s,
    foldl_keeps (fun s => s.fresh) _ (fun _ _ => by simp) l s,
    foldl_keeps (fun s => s.pending) _ (fun _ _ => by simp) l s⟩

@[simp] theorem State.rebaselineSlip_frame (now : SlotCount) (p : Image) (mask : BitVec 24) (s : State) :
      (State.rebaselineSlip now p mask s).1.time = s.time ∧
      (State.rebaselineSlip now p mask s).1.sense = s.sense ∧
      (State.rebaselineSlip now p mask s).1.air = s.air ∧
      (State.rebaselineSlip now p mask s).1.engine = s.engine ∧
      (State.rebaselineSlip now p mask s).1.store = s.store ∧
      (State.rebaselineSlip now p mask s).1.supplyLow = s.supplyLow ∧
      (State.rebaselineSlip now p mask s).1.fresh = s.fresh ∧
      (State.rebaselineSlip now p mask s).1.pending = s.pending := by
  unfold State.rebaselineSlip
  dsimp only
  (repeat' split) <;> simp

@[simp] theorem State.decideScan_frame (now : SlotCount) (p : Image) (n : Nat) (s : State) :
      (State.decideScan now p n s).time = s.time ∧
      (State.decideScan now p n s).sense = s.sense ∧
      (State.decideScan now p n s).climate = s.climate ∧
      (State.decideScan now p n s).air = s.air ∧
      (State.decideScan now p n s).rail = s.rail ∧
      (State.decideScan now p n s).mon = s.mon ∧
      (State.decideScan now p n s).xmem = s.xmem ∧
      (State.decideScan now p n s).engine = s.engine ∧
      (State.decideScan now p n s).store = s.store ∧
      (State.decideScan now p n s).supplyLow = s.supplyLow ∧
      (State.decideScan now p n s).fresh = s.fresh ∧
      (State.decideScan now p n s).pending = s.pending := by
  unfold State.decideScan
  (repeat' split) <;> simp

@[simp] theorem State.takeEdges_frame (edges : List Nat) (s : State) :
      (State.takeEdges edges s).time = s.time ∧
      (State.takeEdges edges s).sense = s.sense ∧
      (State.takeEdges edges s).climate = s.climate ∧
      (State.takeEdges edges s).air = s.air ∧
      (State.takeEdges edges s).rail = s.rail ∧
      (State.takeEdges edges s).mon = s.mon ∧
      (State.takeEdges edges s).xmem = s.xmem ∧
      (State.takeEdges edges s).engine = s.engine ∧
      (State.takeEdges edges s).store = s.store ∧
      (State.takeEdges edges s).supplyLow = s.supplyLow ∧
      (State.takeEdges edges s).fresh = s.fresh ∧
      (State.takeEdges edges s).pending = s.pending := by
  simp [State.takeEdges]

@[simp] theorem State.publishDetail_frame (p : Image) (deltas : Vector Int 24) (s : State) :
      (State.publishDetail p deltas s).time = s.time ∧
      (State.publishDetail p deltas s).sense = s.sense ∧
      (State.publishDetail p deltas s).climate = s.climate ∧
      (State.publishDetail p deltas s).air = s.air ∧
      (State.publishDetail p deltas s).rail = s.rail ∧
      (State.publishDetail p deltas s).mon = s.mon ∧
      (State.publishDetail p deltas s).keypad = s.keypad ∧
      (State.publishDetail p deltas s).engine = s.engine ∧
      (State.publishDetail p deltas s).store = s.store ∧
      (State.publishDetail p deltas s).supplyLow = s.supplyLow ∧
      (State.publishDetail p deltas s).fresh = s.fresh ∧
      (State.publishDetail p deltas s).pending = s.pending := by
  simp [State.publishDetail]

@[simp] theorem State.scanWork_frame (now : SlotCount) (p : Image) (counts : Vector (BitVec 12) 24) (s : State) :
      (State.scanWork now p counts s).time = s.time ∧
      (State.scanWork now p counts s).sense = s.sense ∧
      (State.scanWork now p counts s).air = s.air ∧
      (State.scanWork now p counts s).store = s.store ∧
      (State.scanWork now p counts s).supplyLow = s.supplyLow ∧
      (State.scanWork now p counts s).fresh = s.fresh ∧
      (State.scanWork now p counts s).pending = s.pending := by
  unfold State.scanWork
  dsimp only
  split <;> simp

@[simp] theorem State.giveHold_frame (now : SlotCount) (p : Image) (k : Fin 24) (s : State) :
      (State.giveHold now p k s).time = s.time ∧
      (State.giveHold now p k s).sense = s.sense ∧
      (State.giveHold now p k s).climate = s.climate ∧
      (State.giveHold now p k s).air = s.air ∧
      (State.giveHold now p k s).rail = s.rail ∧
      (State.giveHold now p k s).mon = s.mon ∧
      (State.giveHold now p k s).engine = s.engine ∧
      (State.giveHold now p k s).store = s.store ∧
      (State.giveHold now p k s).supplyLow = s.supplyLow ∧
      (State.giveHold now p k s).fresh = s.fresh ∧
      (State.giveHold now p k s).pending = s.pending := by
  simp [State.giveHold]

@[simp] theorem State.giveChord_frame (now : SlotCount) (p : Image) (c : Fin 4) (s : State) :
      (State.giveChord now p c s).time = s.time ∧
      (State.giveChord now p c s).sense = s.sense ∧
      (State.giveChord now p c s).air = s.air ∧
      (State.giveChord now p c s).engine = s.engine ∧
      (State.giveChord now p c s).store = s.store ∧
      (State.giveChord now p c s).supplyLow = s.supplyLow ∧
      (State.giveChord now p c s).fresh = s.fresh ∧
      (State.giveChord now p c s).pending = s.pending := by
  unfold State.giveChord
  split <;> simp

@[simp] theorem State.publishDisabled_frame (old new : Image) (s : State) (k : Fin 24) :
      (State.publishDisabled old new s k).time = s.time ∧
      (State.publishDisabled old new s k).sense = s.sense ∧
      (State.publishDisabled old new s k).climate = s.climate ∧
      (State.publishDisabled old new s k).air = s.air ∧
      (State.publishDisabled old new s k).rail = s.rail ∧
      (State.publishDisabled old new s k).mon = s.mon ∧
      (State.publishDisabled old new s k).keypad = s.keypad ∧
      (State.publishDisabled old new s k).engine = s.engine ∧
      (State.publishDisabled old new s k).store = s.store ∧
      (State.publishDisabled old new s k).supplyLow = s.supplyLow ∧
      (State.publishDisabled old new s k).fresh = s.fresh ∧
      (State.publishDisabled old new s k).pending = s.pending := by
  unfold State.publishDisabled
  split <;> simp

@[simp] theorem State.publishDisabled_foldl_frame (old new : Image) (l : List (Fin 24)) (s : State) :
      (l.foldl (State.publishDisabled old new) s).time = s.time ∧
      (l.foldl (State.publishDisabled old new) s).sense = s.sense ∧
      (l.foldl (State.publishDisabled old new) s).climate = s.climate ∧
      (l.foldl (State.publishDisabled old new) s).air = s.air ∧
      (l.foldl (State.publishDisabled old new) s).rail = s.rail ∧
      (l.foldl (State.publishDisabled old new) s).mon = s.mon ∧
      (l.foldl (State.publishDisabled old new) s).keypad = s.keypad ∧
      (l.foldl (State.publishDisabled old new) s).engine = s.engine ∧
      (l.foldl (State.publishDisabled old new) s).store = s.store ∧
      (l.foldl (State.publishDisabled old new) s).supplyLow = s.supplyLow ∧
      (l.foldl (State.publishDisabled old new) s).fresh = s.fresh ∧
      (l.foldl (State.publishDisabled old new) s).pending = s.pending :=
  ⟨foldl_keeps (fun s => s.time) _ (fun _ _ => by simp) l s,
    foldl_keeps (fun s => s.sense) _ (fun _ _ => by simp) l s,
    foldl_keeps (fun s => s.climate) _ (fun _ _ => by simp) l s,
    foldl_keeps (fun s => s.air) _ (fun _ _ => by simp) l s,
    foldl_keeps (fun s => s.rail) _ (fun _ _ => by simp) l s,
    foldl_keeps (fun s => s.mon) _ (fun _ _ => by simp) l s,
    foldl_keeps (fun s => s.keypad) _ (fun _ _ => by simp) l s,
    foldl_keeps (fun s => s.engine) _ (fun _ _ => by simp) l s,
    foldl_keeps (fun s => s.store) _ (fun _ _ => by simp) l s,
    foldl_keeps (fun s => s.supplyLow) _ (fun _ _ => by simp) l s,
    foldl_keeps (fun s => s.fresh) _ (fun _ _ => by simp) l s,
    foldl_keeps (fun s => s.pending) _ (fun _ _ => by simp) l s⟩

@[simp] theorem State.adoptKeypad_frame (old new : Image) (s : State) :
      (State.adoptKeypad old new s).time = s.time ∧
      (State.adoptKeypad old new s).sense = s.sense ∧
      (State.adoptKeypad old new s).climate = s.climate ∧
      (State.adoptKeypad old new s).air = s.air ∧
      (State.adoptKeypad old new s).mon = s.mon ∧
      (State.adoptKeypad old new s).store = s.store ∧
      (State.adoptKeypad old new s).supplyLow = s.supplyLow ∧
      (State.adoptKeypad old new s).fresh = s.fresh ∧
      (State.adoptKeypad old new s).pending = s.pending := by
  unfold State.adoptKeypad
  dsimp only
  split <;> simp

@[simp] theorem State.beginKeypad_frame (p : Image) (s : State) :
      (State.beginKeypad p s).time = s.time ∧
      (State.beginKeypad p s).sense = s.sense ∧
      (State.beginKeypad p s).climate = s.climate ∧
      (State.beginKeypad p s).air = s.air ∧
      (State.beginKeypad p s).rail = s.rail ∧
      (State.beginKeypad p s).mon = s.mon ∧
      (State.beginKeypad p s).engine = s.engine ∧
      (State.beginKeypad p s).store = s.store ∧
      (State.beginKeypad p s).supplyLow = s.supplyLow ∧
      (State.beginKeypad p s).fresh = s.fresh ∧
      (State.beginKeypad p s).pending = s.pending := by
  simp [State.beginKeypad]

@[simp] theorem State.loadReference_frame (rref : Nat) (s : State) :
      (State.loadReference rref s).time = s.time ∧
      (State.loadReference rref s).sense = s.sense ∧
      (State.loadReference rref s).climate = s.climate ∧
      (State.loadReference rref s).rail = s.rail ∧
      (State.loadReference rref s).mon = s.mon ∧
      (State.loadReference rref s).keypad = s.keypad ∧
      (State.loadReference rref s).xmem = s.xmem ∧
      (State.loadReference rref s).engine = s.engine ∧
      (State.loadReference rref s).store = s.store ∧
      (State.loadReference rref s).supplyLow = s.supplyLow ∧
      (State.loadReference rref s).fresh = s.fresh ∧
      (State.loadReference rref s).pending = s.pending := by
  simp [State.loadReference]

@[simp] theorem State.beginMonitor_frame (p : Image) (s : State) :
      (State.beginMonitor p s).time = s.time ∧
      (State.beginMonitor p s).sense = s.sense ∧
      (State.beginMonitor p s).climate = s.climate ∧
      (State.beginMonitor p s).air = s.air ∧
      (State.beginMonitor p s).rail = s.rail ∧
      (State.beginMonitor p s).keypad = s.keypad ∧
      (State.beginMonitor p s).xmem = s.xmem ∧
      (State.beginMonitor p s).engine = s.engine ∧
      (State.beginMonitor p s).store = s.store ∧
      (State.beginMonitor p s).supplyLow = s.supplyLow ∧
      (State.beginMonitor p s).fresh = s.fresh ∧
      (State.beginMonitor p s).pending = s.pending := by
  simp [State.beginMonitor]

@[simp] theorem State.beginRail_frame (p : Image) (s : State) :
      (State.beginRail p s).time = s.time ∧
      (State.beginRail p s).sense = s.sense ∧
      (State.beginRail p s).air = s.air ∧
      (State.beginRail p s).keypad = s.keypad ∧
      (State.beginRail p s).engine = s.engine ∧
      (State.beginRail p s).store = s.store ∧
      (State.beginRail p s).supplyLow = s.supplyLow ∧
      (State.beginRail p s).fresh = s.fresh ∧
      (State.beginRail p s).pending = s.pending := by
  unfold State.beginRail
  split <;> simp

@[simp] theorem State.loadProfile_frame (s : State) :
      (State.loadProfile s).time = s.time ∧
      (State.loadProfile s).sense = s.sense ∧
      (State.loadProfile s).engine = s.engine ∧
      (State.loadProfile s).fresh = s.fresh ∧
      (State.loadProfile s).pending = s.pending := by
  simp only [State.loadProfile]
  (repeat' split) <;> simp

@[simp] theorem State.readProfileSlip_frame (p : Image) (s : State) :
      (State.readProfileSlip p s).1.time = s.time ∧
      (State.readProfileSlip p s).1.sense = s.sense ∧
      (State.readProfileSlip p s).1.climate = s.climate ∧
      (State.readProfileSlip p s).1.air = s.air ∧
      (State.readProfileSlip p s).1.rail = s.rail ∧
      (State.readProfileSlip p s).1.mon = s.mon ∧
      (State.readProfileSlip p s).1.keypad = s.keypad ∧
      (State.readProfileSlip p s).1.engine = s.engine ∧
      (State.readProfileSlip p s).1.store = s.store ∧
      (State.readProfileSlip p s).1.supplyLow = s.supplyLow ∧
      (State.readProfileSlip p s).1.fresh = s.fresh ∧
      (State.readProfileSlip p s).1.pending = s.pending := by
  unfold State.readProfileSlip
  split <;> simp

@[simp] theorem State.commitSlip_frame (now : SlotCount) (s : State) :
      (State.commitSlip now s).1.time = s.time ∧
      (State.commitSlip now s).1.sense = s.sense ∧
      (State.commitSlip now s).1.climate = s.climate ∧
      (State.commitSlip now s).1.air = s.air ∧
      (State.commitSlip now s).1.rail = s.rail ∧
      (State.commitSlip now s).1.mon = s.mon ∧
      (State.commitSlip now s).1.keypad = s.keypad ∧
      (State.commitSlip now s).1.xmem = s.xmem ∧
      (State.commitSlip now s).1.engine = s.engine ∧
      (State.commitSlip now s).1.supplyLow = s.supplyLow ∧
      (State.commitSlip now s).1.fresh = s.fresh ∧
      (State.commitSlip now s).1.pending = s.pending := by
  unfold State.commitSlip
  (repeat' split) <;> simp

@[simp] theorem State.adoptMonitor_frame (p : Image) (s : State) :
      (State.adoptMonitor p s).time = s.time ∧
      (State.adoptMonitor p s).sense = s.sense ∧
      (State.adoptMonitor p s).climate = s.climate ∧
      (State.adoptMonitor p s).air = s.air ∧
      (State.adoptMonitor p s).rail = s.rail ∧
      (State.adoptMonitor p s).keypad = s.keypad ∧
      (State.adoptMonitor p s).engine = s.engine ∧
      (State.adoptMonitor p s).store = s.store ∧
      (State.adoptMonitor p s).supplyLow = s.supplyLow ∧
      (State.adoptMonitor p s).fresh = s.fresh ∧
      (State.adoptMonitor p s).pending = s.pending := by
  unfold State.adoptMonitor
  split <;> simp

@[simp] theorem State.activate_frame (now : SlotCount) (old : Image) (s : State) :
      (State.activate now old s).time = s.time ∧
      (State.activate now old s).sense = s.sense ∧
      (State.activate now old s).climate = s.climate ∧
      (State.activate now old s).air = s.air ∧
      (State.activate now old s).supplyLow = s.supplyLow ∧
      (State.activate now old s).fresh = s.fresh ∧
      (State.activate now old s).pending = s.pending := by
  simp [State.activate]

@[simp] theorem State.endServiceWrite_frame (now : SlotCount) (s : State) :
      (State.endServiceWrite now s).time = s.time ∧
      (State.endServiceWrite now s).sense = s.sense ∧
      (State.endServiceWrite now s).climate = s.climate ∧
      (State.endServiceWrite now s).rail = s.rail ∧
      (State.endServiceWrite now s).mon = s.mon ∧
      (State.endServiceWrite now s).keypad = s.keypad ∧
      (State.endServiceWrite now s).supplyLow = s.supplyLow ∧
      (State.endServiceWrite now s).fresh = s.fresh ∧
      (State.endServiceWrite now s).pending = s.pending := by
  simp [State.endServiceWrite]

@[simp] theorem State.stopSlip_frame (now : SlotCount) (p : Image) (delay : Nat) (s : State) :
      (State.stopSlip now p delay s).1.time = s.time ∧
      (State.stopSlip now p delay s).1.sense = s.sense ∧
      (State.stopSlip now p delay s).1.air = s.air ∧
      (State.stopSlip now p delay s).1.keypad = s.keypad ∧
      (State.stopSlip now p delay s).1.engine = s.engine ∧
      (State.stopSlip now p delay s).1.store = s.store ∧
      (State.stopSlip now p delay s).1.supplyLow = s.supplyLow ∧
      (State.stopSlip now p delay s).1.fresh = s.fresh ∧
      (State.stopSlip now p delay s).1.pending = s.pending := by
  unfold State.stopSlip
  split <;> simp

@[simp] theorem State.restartHost_frame (now : SlotCount) (p : Image) (mode : Nat) (s : State) :
      (State.restartHost now p mode s).time = s.time ∧
      (State.restartHost now p mode s).sense = s.sense ∧
      (State.restartHost now p mode s).store = s.store ∧
      (State.restartHost now p mode s).supplyLow = s.supplyLow ∧
      (State.restartHost now p mode s).fresh = s.fresh ∧
      (State.restartHost now p mode s).pending = s.pending := by
  unfold State.restartHost
  (repeat' split) <;> simp

@[simp] theorem State.watchdogSlip_frame (now : SlotCount) (p : Image) (mode : Nat) (v : StageSet) (s : State) :
      (State.watchdogSlip now p mode v s).1.time = s.time ∧
      (State.watchdogSlip now p mode v s).1.sense = s.sense ∧
      (State.watchdogSlip now p mode v s).1.climate = s.climate ∧
      (State.watchdogSlip now p mode v s).1.air = s.air ∧
      (State.watchdogSlip now p mode v s).1.rail = s.rail ∧
      (State.watchdogSlip now p mode v s).1.keypad = s.keypad ∧
      (State.watchdogSlip now p mode v s).1.engine = s.engine ∧
      (State.watchdogSlip now p mode v s).1.store = s.store ∧
      (State.watchdogSlip now p mode v s).1.supplyLow = s.supplyLow ∧
      (State.watchdogSlip now p mode v s).1.fresh = s.fresh ∧
      (State.watchdogSlip now p mode v s).1.pending = s.pending := by
  unfold State.watchdogSlip
  (repeat' split) <;> simp

@[simp] theorem State.runSlip_frame (now : SlotCount) (p : Image) (n : Fin 16) (s : State) :
      (State.runSlip now p n s).time = s.time ∧
      (State.runSlip now p n s).sense = s.sense ∧
      (State.runSlip now p n s).supplyLow = s.supplyLow ∧
      (State.runSlip now p n s).fresh = s.fresh ∧
      (State.runSlip now p n s).pending = s.pending := by
  unfold State.runSlip State.immediate State.lasting
  dsimp only
  split <;> (try split) <;> simp

@[simp] theorem State.takeSlip_frame (now : SlotCount) (p : Image) (n : Fin 16) (s : State) :
      (State.takeSlip now p n s).time = s.time ∧
      (State.takeSlip now p n s).sense = s.sense ∧
      (State.takeSlip now p n s).supplyLow = s.supplyLow ∧
      (State.takeSlip now p n s).fresh = s.fresh ∧
      (State.takeSlip now p n s).pending = s.pending := by
  simp [State.takeSlip]

@[simp] theorem State.arbitrateAmong_frame (undelivered : List (Fin 16)) (now : SlotCount) (p : Image) (s : State) :
      (State.arbitrateAmong undelivered now p s).time = s.time ∧
      (State.arbitrateAmong undelivered now p s).sense = s.sense ∧
      (State.arbitrateAmong undelivered now p s).supplyLow = s.supplyLow ∧
      (State.arbitrateAmong undelivered now p s).fresh = s.fresh ∧
      (State.arbitrateAmong undelivered now p s).pending = s.pending := by
  unfold State.arbitrateAmong
  (repeat' split) <;> simp

@[simp] theorem State.arbitrate_frame (now : SlotCount) (p : Image) (s : State) :
      (State.arbitrate now p s).time = s.time ∧
      (State.arbitrate now p s).sense = s.sense ∧
      (State.arbitrate now p s).supplyLow = s.supplyLow ∧
      (State.arbitrate now p s).fresh = s.fresh ∧
      (State.arbitrate now p s).pending = s.pending := by
  simp [State.arbitrate]

/-- An engine that has served its slot takes no slip (R167). -/
theorem State.arbitrate_of_served {now : SlotCount} {p : Image} {s : State} (h : s.engine.served = true) :
    s.arbitrate now p = s :=
  if_pos h

/-- The engine takes no slip where none is POSTED (R167). -/
theorem State.arbitrate_of_none_posted {now : SlotCount} {p : Image} {s : State}
    (h : ∀ n : Fin 16, s.xmem.ownerIs n.val .posted = false) : s.arbitrate now p = s := by
  simp [State.arbitrate, State.arbitrateAmong, State.choose, h]

@[simp] theorem State.stopRequest_frame (n : Fin 16) (s : State) :
      (State.stopRequest n s).time = s.time ∧
      (State.stopRequest n s).sense = s.sense ∧
      (State.stopRequest n s).climate = s.climate ∧
      (State.stopRequest n s).rail = s.rail ∧
      (State.stopRequest n s).mon = s.mon ∧
      (State.stopRequest n s).xmem = s.xmem ∧
      (State.stopRequest n s).engine = s.engine ∧
      (State.stopRequest n s).store = s.store ∧
      (State.stopRequest n s).supplyLow = s.supplyLow ∧
      (State.stopRequest n s).fresh = s.fresh ∧
      (State.stopRequest n s).pending = s.pending := by
  unfold State.stopRequest
  (repeat' split) <;> simp

@[simp] theorem State.kick_frame (now : SlotCount) (v : Byte) (s : State) :
      (State.kick now v s).time = s.time ∧
      (State.kick now v s).sense = s.sense ∧
      (State.kick now v s).climate = s.climate ∧
      (State.kick now v s).air = s.air ∧
      (State.kick now v s).rail = s.rail ∧
      (State.kick now v s).keypad = s.keypad ∧
      (State.kick now v s).engine = s.engine ∧
      (State.kick now v s).store = s.store ∧
      (State.kick now v s).supplyLow = s.supplyLow ∧
      (State.kick now v s).fresh = s.fresh ∧
      (State.kick now v s).pending = s.pending := by
  simp only [State.kick]
  (repeat' split) <;> simp

@[simp] theorem State.deliverOwner_frame (undelivered : List (Fin 16)) (now : SlotCount) (p : Image) (n : Fin 16)
    (s : State) :
      (State.deliverOwner undelivered now p n s).time = s.time ∧
      (State.deliverOwner undelivered now p n s).sense = s.sense ∧
      (State.deliverOwner undelivered now p n s).supplyLow = s.supplyLow ∧
      (State.deliverOwner undelivered now p n s).fresh = s.fresh ∧
      (State.deliverOwner undelivered now p n s).pending = s.pending := by
  unfold State.deliverOwner
  (repeat' split) <;> simp

@[simp] theorem State.deliverAll_frame (now : SlotCount) (p : Image) (cs : List Host.Cell) (s : State) :
      (State.deliverAll now p cs s).time = s.time ∧
      (State.deliverAll now p cs s).sense = s.sense ∧
      (State.deliverAll now p cs s).supplyLow = s.supplyLow ∧
      (State.deliverAll now p cs s).fresh = s.fresh ∧
      (State.deliverAll now p cs s).pending = s.pending := by
  unfold State.deliverAll
  dsimp only
  refine ⟨(foldl_keeps (fun s => s.time) _ (fun s n => by split <;> simp) _ _).trans ?_,
    (foldl_keeps (fun s => s.sense) _ (fun s n => by split <;> simp) _ _).trans ?_,
    (foldl_keeps (fun s => s.supplyLow) _ (fun s n => by split <;> simp) _ _).trans ?_,
    (foldl_keeps (fun s => s.fresh) _ (fun s n => by split <;> simp) _ _).trans ?_,
    (foldl_keeps (fun s => s.pending) _ (fun s n => by split <;> simp) _ _).trans ?_⟩ <;>
    (repeat' split) <;> simp

@[simp] theorem State.setRefused_frame (s : State) :
      (State.setRefused s).time = s.time ∧
      (State.setRefused s).sense = s.sense ∧
      (State.setRefused s).climate = s.climate ∧
      (State.setRefused s).air = s.air ∧
      (State.setRefused s).rail = s.rail ∧
      (State.setRefused s).mon = s.mon ∧
      (State.setRefused s).keypad = s.keypad ∧
      (State.setRefused s).engine = s.engine ∧
      (State.setRefused s).store = s.store ∧
      (State.setRefused s).supplyLow = s.supplyLow ∧
      (State.setRefused s).fresh = s.fresh ∧
      (State.setRefused s).pending = s.pending := by
  simp [State.setRefused]

@[simp] theorem State.endWrite_frame (cs : List Host.Cell) (s : State) :
      (State.endWrite cs s).time = s.time ∧
      (State.endWrite cs s).sense = s.sense ∧
      (State.endWrite cs s).supplyLow = s.supplyLow ∧
      (State.endWrite cs s).fresh = s.fresh ∧
      (State.endWrite cs s).pending = s.pending := by
  unfold State.endWrite
  (repeat' split) <;> simp

@[simp] theorem State.writeFrame_frame (bytes : List Byte) (s : State) :
      (State.writeFrame bytes s).time = s.time ∧
      (State.writeFrame bytes s).sense = s.sense ∧
      (State.writeFrame bytes s).supplyLow = s.supplyLow ∧
      (State.writeFrame bytes s).fresh = s.fresh ∧
      (State.writeFrame bytes s).pending = s.pending := by
  simp [State.writeFrame]

@[simp] theorem State.writeOwner_frame (n : Fin 16) (o : Owner) (s : State) :
      (State.writeOwner n o s).time = s.time ∧
      (State.writeOwner n o s).sense = s.sense ∧
      (State.writeOwner n o s).supplyLow = s.supplyLow ∧
      (State.writeOwner n o s).fresh = s.fresh ∧
      (State.writeOwner n o s).pending = s.pending := by
  simp [State.writeOwner]

@[simp] theorem State.post_frame (h : SlipHead) (kind : Byte) (params : List Byte) (s : State) :
      (State.post h kind params s).time = s.time ∧
      (State.post h kind params s).sense = s.sense ∧
      (State.post h kind params s).supplyLow = s.supplyLow ∧
      (State.post h kind params s).fresh = s.fresh ∧
      (State.post h kind params s).pending = s.pending := by
  simp [State.post]

@[simp] theorem State.countSlot_frame (n : SlotCount) (s : State) :
      (State.countSlot n s).sense = s.sense ∧
      (State.countSlot n s).climate = s.climate ∧
      (State.countSlot n s).air = s.air ∧
      (State.countSlot n s).rail = s.rail ∧
      (State.countSlot n s).mon = s.mon ∧
      (State.countSlot n s).keypad = s.keypad ∧
      (State.countSlot n s).engine = s.engine ∧
      (State.countSlot n s).store = s.store ∧
      (State.countSlot n s).supplyLow = s.supplyLow ∧
      (State.countSlot n s).fresh = s.fresh ∧
      (State.countSlot n s).pending = s.pending := by
  simp [State.countSlot]

@[simp] theorem State.beginConversions_frame (s : State) :
      (State.beginConversions s).time = s.time ∧
      (State.beginConversions s).climate = s.climate ∧
      (State.beginConversions s).air = s.air ∧
      (State.beginConversions s).rail = s.rail ∧
      (State.beginConversions s).mon = s.mon ∧
      (State.beginConversions s).keypad = s.keypad ∧
      (State.beginConversions s).xmem = s.xmem ∧
      (State.beginConversions s).engine = s.engine ∧
      (State.beginConversions s).store = s.store ∧
      (State.beginConversions s).supplyLow = s.supplyLow ∧
      (State.beginConversions s).fresh = s.fresh ∧
      (State.beginConversions s).pending = s.pending := by
  simp [State.beginConversions]

@[simp] theorem State.startOutputs_frame (k : Nat) (s : State) :
      (State.startOutputs k s).time = s.time ∧
      (State.startOutputs k s).air = s.air ∧
      (State.startOutputs k s).rail = s.rail ∧
      (State.startOutputs k s).mon = s.mon ∧
      (State.startOutputs k s).keypad = s.keypad ∧
      (State.startOutputs k s).xmem = s.xmem ∧
      (State.startOutputs k s).engine = s.engine ∧
      (State.startOutputs k s).store = s.store ∧
      (State.startOutputs k s).supplyLow = s.supplyLow ∧
      (State.startOutputs k s).fresh = s.fresh ∧
      (State.startOutputs k s).pending = s.pending := by
  unfold State.startOutputs
  dsimp only
  split <;> simp

@[simp] theorem State.clearServed_frame (s : State) :
      (State.clearServed s).time = s.time ∧
      (State.clearServed s).sense = s.sense ∧
      (State.clearServed s).climate = s.climate ∧
      (State.clearServed s).air = s.air ∧
      (State.clearServed s).rail = s.rail ∧
      (State.clearServed s).mon = s.mon ∧
      (State.clearServed s).keypad = s.keypad ∧
      (State.clearServed s).xmem = s.xmem ∧
      (State.clearServed s).store = s.store ∧
      (State.clearServed s).supplyLow = s.supplyLow ∧
      (State.clearServed s).fresh = s.fresh ∧
      (State.clearServed s).pending = s.pending := by
  simp [State.clearServed]

@[simp] theorem State.slotWork_frame (n : SlotCount) (p : Image) (pgood hsleep : Bool) (levels : BitVec 4) (s : State) :
      (State.slotWork n p pgood hsleep levels s).supplyLow = s.supplyLow ∧
      (State.slotWork n p pgood hsleep levels s).fresh = s.fresh ∧
      (State.slotWork n p pgood hsleep levels s).pending = s.pending := by
  unfold State.slotWork
  split <;> simp

@[simp] theorem State.activateDue_frame (now : SlotCount) (old : Image) (s : State) :
      (State.activateDue now old s).time = s.time ∧
      (State.activateDue now old s).sense = s.sense ∧
      (State.activateDue now old s).supplyLow = s.supplyLow ∧
      (State.activateDue now old s).fresh = s.fresh ∧
      (State.activateDue now old s).pending = s.pending := by
  unfold State.activateDue
  split <;> simp

@[simp] theorem State.boundaryWork_frame (now : SlotCount) (old : Image) (s : State) :
      (State.boundaryWork now old s).sense = s.sense ∧
      (State.boundaryWork now old s).supplyLow = s.supplyLow ∧
      (State.boundaryWork now old s).fresh = s.fresh ∧
      (State.boundaryWork now old s).pending = s.pending := by
  simp [State.boundaryWork]

@[simp] theorem State.receiveAnswer_frame (p : Image) (granted : Bool) (boundary : SlotCount) (s : State) :
      (State.receiveAnswer p granted boundary s).time = s.time ∧
      (State.receiveAnswer p granted boundary s).sense = s.sense ∧
      (State.receiveAnswer p granted boundary s).store = s.store ∧
      (State.receiveAnswer p granted boundary s).supplyLow = s.supplyLow ∧
      (State.receiveAnswer p granted boundary s).fresh = s.fresh ∧
      (State.receiveAnswer p granted boundary s).pending = s.pending := by
  simp only [State.receiveAnswer]
  (repeat' split) <;> simp

@[simp] theorem State.takeCode_frame (p : Image) (k : Fin 6) (c : BitVec 12) (s : State) :
      (State.takeCode p k c s).time = s.time ∧
      (State.takeCode p k c s).climate = s.climate ∧
      (State.takeCode p k c s).air = s.air ∧
      (State.takeCode p k c s).rail = s.rail ∧
      (State.takeCode p k c s).mon = s.mon ∧
      (State.takeCode p k c s).keypad = s.keypad ∧
      (State.takeCode p k c s).engine = s.engine ∧
      (State.takeCode p k c s).store = s.store ∧
      (State.takeCode p k c s).supplyLow = s.supplyLow ∧
      (State.takeCode p k c s).fresh = s.fresh ∧
      (State.takeCode p k c s).pending = s.pending := by
  simp only [State.takeCode]
  (repeat' split) <;> simp

@[simp] theorem State.judgeOvertemp_frame (now : SlotCount) (p : Image) (s : State) :
      (State.judgeOvertemp now p s).time = s.time ∧
      (State.judgeOvertemp now p s).sense = s.sense ∧
      (State.judgeOvertemp now p s).air = s.air ∧
      (State.judgeOvertemp now p s).keypad = s.keypad ∧
      (State.judgeOvertemp now p s).engine = s.engine ∧
      (State.judgeOvertemp now p s).store = s.store ∧
      (State.judgeOvertemp now p s).supplyLow = s.supplyLow ∧
      (State.judgeOvertemp now p s).fresh = s.fresh ∧
      (State.judgeOvertemp now p s).pending = s.pending := by
  unfold State.judgeOvertemp
  (repeat' split) <;> simp

@[simp] theorem State.deliverTemp_frame (now : SlotCount) (p : Image) (k : Fin 6) (s : State) :
      (State.deliverTemp now p k s).time = s.time ∧
      (State.deliverTemp now p k s).sense = s.sense ∧
      (State.deliverTemp now p k s).air = s.air ∧
      (State.deliverTemp now p k s).engine = s.engine ∧
      (State.deliverTemp now p k s).store = s.store ∧
      (State.deliverTemp now p k s).supplyLow = s.supplyLow ∧
      (State.deliverTemp now p k s).fresh = s.fresh ∧
      (State.deliverTemp now p k s).pending = s.pending := by
  unfold State.deliverTemp
  (repeat' split) <;> simp

@[simp] theorem State.formAverage_frame (s : State) :
      (State.formAverage s).time = s.time ∧
      (State.formAverage s).climate = s.climate ∧
      (State.formAverage s).air = s.air ∧
      (State.formAverage s).rail = s.rail ∧
      (State.formAverage s).mon = s.mon ∧
      (State.formAverage s).keypad = s.keypad ∧
      (State.formAverage s).engine = s.engine ∧
      (State.formAverage s).store = s.store ∧
      (State.formAverage s).supplyLow = s.supplyLow ∧
      (State.formAverage s).fresh = s.fresh ∧
      (State.formAverage s).pending = s.pending := by
  simp [State.formAverage]

@[simp] theorem State.testCurrent_frame (now : SlotCount) (p : Image) (mA : Nat) (s : State) :
      (State.testCurrent now p mA s).time = s.time ∧
      (State.testCurrent now p mA s).sense = s.sense ∧
      (State.testCurrent now p mA s).air = s.air ∧
      (State.testCurrent now p mA s).keypad = s.keypad ∧
      (State.testCurrent now p mA s).engine = s.engine ∧
      (State.testCurrent now p mA s).store = s.store ∧
      (State.testCurrent now p mA s).supplyLow = s.supplyLow ∧
      (State.testCurrent now p mA s).fresh = s.fresh ∧
      (State.testCurrent now p mA s).pending = s.pending := by
  unfold State.testCurrent
  (repeat' split) <;> simp

@[simp] theorem State.endPgoodLimit_frame (p : Image) (e : SlotCount) (s : State) :
      (State.endPgoodLimit p e s).time = s.time ∧
      (State.endPgoodLimit p e s).sense = s.sense ∧
      (State.endPgoodLimit p e s).air = s.air ∧
      (State.endPgoodLimit p e s).keypad = s.keypad ∧
      (State.endPgoodLimit p e s).engine = s.engine ∧
      (State.endPgoodLimit p e s).store = s.store ∧
      (State.endPgoodLimit p e s).supplyLow = s.supplyLow ∧
      (State.endPgoodLimit p e s).fresh = s.fresh ∧
      (State.endPgoodLimit p e s).pending = s.pending := by
  simp only [State.endPgoodLimit]
  (repeat' split) <;> simp

@[simp] theorem State.endResetHold_frame (p : Image) (e : SlotCount) (s : State) :
      (State.endResetHold p e s).time = s.time ∧
      (State.endResetHold p e s).sense = s.sense ∧
      (State.endResetHold p e s).air = s.air ∧
      (State.endResetHold p e s).keypad = s.keypad ∧
      (State.endResetHold p e s).engine = s.engine ∧
      (State.endResetHold p e s).store = s.store ∧
      (State.endResetHold p e s).supplyLow = s.supplyLow ∧
      (State.endResetHold p e s).fresh = s.fresh ∧
      (State.endResetHold p e s).pending = s.pending := by
  unfold State.endResetHold
  split <;> simp

@[simp] theorem State.endStopLimit_frame (p : Image) (e : SlotCount) (s : State) :
      (State.endStopLimit p e s).time = s.time ∧
      (State.endStopLimit p e s).sense = s.sense ∧
      (State.endStopLimit p e s).air = s.air ∧
      (State.endStopLimit p e s).keypad = s.keypad ∧
      (State.endStopLimit p e s).engine = s.engine ∧
      (State.endStopLimit p e s).store = s.store ∧
      (State.endStopLimit p e s).supplyLow = s.supplyLow ∧
      (State.endStopLimit p e s).fresh = s.fresh ∧
      (State.endStopLimit p e s).pending = s.pending := by
  unfold State.endStopLimit
  split <;> simp

@[simp] theorem State.endResetDelay_frame (p : Image) (e : SlotCount) (s : State) :
      (State.endResetDelay p e s).time = s.time ∧
      (State.endResetDelay p e s).sense = s.sense ∧
      (State.endResetDelay p e s).climate = s.climate ∧
      (State.endResetDelay p e s).air = s.air ∧
      (State.endResetDelay p e s).mon = s.mon ∧
      (State.endResetDelay p e s).keypad = s.keypad ∧
      (State.endResetDelay p e s).xmem = s.xmem ∧
      (State.endResetDelay p e s).engine = s.engine ∧
      (State.endResetDelay p e s).store = s.store ∧
      (State.endResetDelay p e s).supplyLow = s.supplyLow ∧
      (State.endResetDelay p e s).fresh = s.fresh ∧
      (State.endResetDelay p e s).pending = s.pending := by
  unfold State.endResetDelay
  split <;> simp

@[simp] theorem State.endResetWidth_frame (p : Image) (e : SlotCount) (s : State) :
      (State.endResetWidth p e s).time = s.time ∧
      (State.endResetWidth p e s).sense = s.sense ∧
      (State.endResetWidth p e s).air = s.air ∧
      (State.endResetWidth p e s).keypad = s.keypad ∧
      (State.endResetWidth p e s).engine = s.engine ∧
      (State.endResetWidth p e s).store = s.store ∧
      (State.endResetWidth p e s).supplyLow = s.supplyLow ∧
      (State.endResetWidth p e s).fresh = s.fresh ∧
      (State.endResetWidth p e s).pending = s.pending := by
  unfold State.endResetWidth
  split <;> simp

@[simp] theorem State.endOffTimer_frame (p : Image) (e : SlotCount) (s : State) :
      (State.endOffTimer p e s).time = s.time ∧
      (State.endOffTimer p e s).sense = s.sense ∧
      (State.endOffTimer p e s).air = s.air ∧
      (State.endOffTimer p e s).keypad = s.keypad ∧
      (State.endOffTimer p e s).engine = s.engine ∧
      (State.endOffTimer p e s).store = s.store ∧
      (State.endOffTimer p e s).supplyLow = s.supplyLow ∧
      (State.endOffTimer p e s).fresh = s.fresh ∧
      (State.endOffTimer p e s).pending = s.pending := by
  simp only [State.endOffTimer]
  (repeat' split) <;> simp

@[simp] theorem State.endPulse_frame (_p : Image) (_e : SlotCount) (s : State) :
      (State.endPulse _p _e s).time = s.time ∧
      (State.endPulse _p _e s).sense = s.sense ∧
      (State.endPulse _p _e s).climate = s.climate ∧
      (State.endPulse _p _e s).air = s.air ∧
      (State.endPulse _p _e s).mon = s.mon ∧
      (State.endPulse _p _e s).keypad = s.keypad ∧
      (State.endPulse _p _e s).xmem = s.xmem ∧
      (State.endPulse _p _e s).engine = s.engine ∧
      (State.endPulse _p _e s).store = s.store ∧
      (State.endPulse _p _e s).supplyLow = s.supplyLow ∧
      (State.endPulse _p _e s).fresh = s.fresh ∧
      (State.endPulse _p _e s).pending = s.pending := by
  simp [State.endPulse]

@[simp] theorem State.endOverride_frame (p : Image) (e : SlotCount) (s : State) :
      (State.endOverride p e s).time = s.time ∧
      (State.endOverride p e s).sense = s.sense ∧
      (State.endOverride p e s).air = s.air ∧
      (State.endOverride p e s).keypad = s.keypad ∧
      (State.endOverride p e s).engine = s.engine ∧
      (State.endOverride p e s).store = s.store ∧
      (State.endOverride p e s).supplyLow = s.supplyLow ∧
      (State.endOverride p e s).fresh = s.fresh ∧
      (State.endOverride p e s).pending = s.pending := by
  simp only [State.endOverride]
  (repeat' split) <;> simp

@[simp] theorem State.expire_frame (cause : RestartCause) (p : Image) (e : SlotCount) (s : State) :
      (State.expire cause p e s).time = s.time ∧
      (State.expire cause p e s).sense = s.sense ∧
      (State.expire cause p e s).store = s.store ∧
      (State.expire cause p e s).supplyLow = s.supplyLow ∧
      (State.expire cause p e s).fresh = s.fresh ∧
      (State.expire cause p e s).pending = s.pending := by
  simp [State.expire]

@[simp] theorem State.warn_frame (e : SlotCount) (s : State) :
      (State.warn e s).time = s.time ∧
      (State.warn e s).sense = s.sense ∧
      (State.warn e s).climate = s.climate ∧
      (State.warn e s).air = s.air ∧
      (State.warn e s).rail = s.rail ∧
      (State.warn e s).keypad = s.keypad ∧
      (State.warn e s).engine = s.engine ∧
      (State.warn e s).store = s.store ∧
      (State.warn e s).supplyLow = s.supplyLow ∧
      (State.warn e s).fresh = s.fresh ∧
      (State.warn e s).pending = s.pending := by
  simp [State.warn]

end Sys2Proof.Machine
end

