-- ==== Sys2Proof/Laws/Memory.lean ====
section
/-!
SUPPORT. The laws of the exchange memory: what a write makes every address read, that every operation keeps the
canonical form, and what a part write and a landing make the blocks and an open READ frame see (R153).
-/

namespace Sys2Proof.Machine

/-! ### The bytes -/

theorem Memory.wfFrom_mono {m : List Host.Cell} : ∀ {lo lo' : Nat}, Memory.wfFrom lo m = true → lo' ≤ lo →
    Memory.wfFrom lo' m = true := by
  cases m with
  | nil => intros; rfl
  | cons c r =>
    intro lo lo' h hl
    simp only [Memory.wfFrom, Bool.and_eq_true, decide_eq_true_eq] at h ⊢
    exact ⟨⟨⟨by omega, h.1.1.2⟩, h.1.2⟩, h.2⟩

/-- Below the first address of a canonical list every address reads its reset byte. -/
theorem Memory.read_below {m : List Host.Cell} : ∀ {lo a : Nat}, Memory.wfFrom lo m = true → a < lo →
    Memory.read m a = resetByte a := by
  induction m with
  | nil => intros; rfl
  | cons c r ih =>
    intro lo a h ha
    simp only [Memory.wfFrom, Bool.and_eq_true, decide_eq_true_eq] at h
    have : a ≠ c.1 := by omega
    simp only [Memory.read, this, if_false]
    exact ih h.2 (by omega)

theorem Memory.read_put {m : List Host.Cell} (a : Nat) (b : Byte) : ∀ {lo : Nat}, Memory.wfFrom lo m = true → ∀ x,
    Memory.read (Memory.put m a b) x = if x = a then b else Memory.read m x := by
  induction m with
  | nil =>
    intro lo _ x
    by_cases hb : b = resetByte a
    · simp only [Memory.put, hb, if_true, Memory.read]
      split <;> simp_all
    · simp only [Memory.put, hb, if_false, Memory.read]
  | cons c r ih =>
    obtain ⟨k, v⟩ := c
    intro lo h x
    simp only [Memory.wfFrom, Bool.and_eq_true, decide_eq_true_eq] at h
    simp only [Memory.put]
    split
    · rename_i hk
      split
      · rename_i hb
        by_cases hx : x = a
        · subst hx
          have hne : x ≠ k := by omega
          simp only [Memory.read, hne, if_false, if_true, hb]
          exact Memory.read_below h.2 (by omega)
        · simp [hx]
      · rfl
    · split
      · rename_i hk ha
        subst ha
        split
        · rename_i hb
          by_cases hx : x = a
          · subst hx
            simp only [if_true, hb]
            exact Memory.read_below h.2 (by omega)
          · simp [hx, Memory.read]
        · by_cases hx : x = a <;> simp [hx, Memory.read]
      · rename_i hk ha
        simp only [Memory.read, ih h.2 x]
        by_cases hx : x = k
        · subst hx
          have : x ≠ a := by omega
          simp [this]
        · simp [hx]

theorem Memory.wf_put {m : List Host.Cell} (a : Nat) (b : Byte) (ha : a < memorySize) : ∀ {lo : Nat},
    Memory.wfFrom lo m = true → lo ≤ a → Memory.wfFrom lo (Memory.put m a b) = true := by
  induction m with
  | nil =>
    intro lo _ hl
    simp only [Memory.put]
    split
    · rfl
    · rename_i hb
      simp only [Memory.wfFrom, Bool.and_eq_true, decide_eq_true_eq, Bool.and_true, bne_iff_ne, ne_eq]
      exact ⟨⟨hl, ha⟩, hb⟩
  | cons c r ih =>
    obtain ⟨k, v⟩ := c
    intro lo h hl
    have h' := h
    simp only [Memory.wfFrom, Bool.and_eq_true, decide_eq_true_eq, bne_iff_ne, ne_eq] at h
    simp only [Memory.put]
    split
    · split
      · exact h'
      · rename_i hk hb
        simp only [Memory.wfFrom, Bool.and_eq_true, decide_eq_true_eq, bne_iff_ne, ne_eq]
        exact ⟨⟨⟨hl, ha⟩, hb⟩, ⟨⟨⟨by omega, h.1.1.2⟩, h.1.2⟩, h.2⟩⟩
    · split
      · rename_i hk hak
        split
        · exact Memory.wfFrom_mono h.2 (by omega)
        · rename_i hb
          simp only [Memory.wfFrom, Bool.and_eq_true, decide_eq_true_eq, bne_iff_ne, ne_eq]
          exact ⟨⟨⟨hl, ha⟩, hb⟩, hak ▸ h.2⟩
      · simp only [Memory.wfFrom, Bool.and_eq_true, decide_eq_true_eq, bne_iff_ne, ne_eq]
        exact ⟨h.1, ih h.2 (by omega)⟩

theorem Memory.read_write {m : List Host.Cell} (h : Memory.wf m = true) (a : Nat) (b : Byte) (x : Nat) :
    Memory.read (Memory.write m a b) x = if x = a ∧ a < memorySize then b else Memory.read m x := by
  simp only [Memory.write]
  split
  · rename_i ha
    simp [Memory.read_put a b h x, ha]
  · rename_i ha
    simp [ha]

theorem Memory.wf_write {m : List Host.Cell} (h : Memory.wf m = true) (a : Nat) (b : Byte) :
    Memory.wf (Memory.write m a b) = true := by
  simp only [Memory.write]
  split
  · rename_i ha
    exact Memory.wf_put a b ha h (Nat.zero_le a)
  · exact h

theorem Memory.wf_writeAll {m : List Host.Cell} (h : Memory.wf m = true) (cs : List Host.Cell) :
    Memory.wf (Memory.writeAll m cs) = true := by
  induction cs with
  | nil => exact h
  | cons c cs ih => exact Memory.wf_write ih c.1 c.2

/-- What every address reads after several writes: the first cell of the list that names it wins. -/
theorem Memory.read_writeAll {m : List Host.Cell} (h : Memory.wf m = true) (cs : List Host.Cell) (x : Nat) :
    Memory.read (Memory.writeAll m cs) x =
      if x < memorySize then (Held.get cs x).getD (Memory.read m x) else Memory.read m x := by
  induction cs with
  | nil => simp [Memory.writeAll, Held.get]
  | cons c cs ih =>
    have hw : Memory.wf (Memory.writeAll m cs) = true := Memory.wf_writeAll h cs
    show Memory.read (Memory.write (Memory.writeAll m cs) c.1 c.2) x = _
    rw [Memory.read_write hw, ih]
    by_cases hx : x = c.1
    · subst hx
      by_cases hm : c.1 < memorySize <;> simp [hm, Held.get]
    · simp [hx, Held.get]

/-- Canonical memories that read alike are equal. -/
theorem Memory.ext_of_read {m : List Host.Cell} : ∀ {n : List Host.Cell} {lo : Nat}, Memory.wfFrom lo m = true →
    Memory.wfFrom lo n = true → (∀ a, Memory.read m a = Memory.read n a) → m = n := by
  induction m with
  | nil =>
    intro n lo _ hn h
    cases n with
    | nil => rfl
    | cons c r =>
      simp only [Memory.wfFrom, Bool.and_eq_true, decide_eq_true_eq, bne_iff_ne, ne_eq] at hn
      have := h c.1
      simp only [Memory.read, if_true] at this
      exact absurd this.symm hn.1.2
  | cons c r ih =>
    obtain ⟨k, v⟩ := c
    intro n lo hm hn h
    have hm' := hm
    simp only [Memory.wfFrom, Bool.and_eq_true, decide_eq_true_eq, bne_iff_ne, ne_eq] at hm
    cases n with
    | nil =>
      have := h k
      simp only [Memory.read, if_true] at this
      exact absurd this hm.1.2
    | cons d q =>
      obtain ⟨j, w⟩ := d
      have hn' := hn
      simp only [Memory.wfFrom, Bool.and_eq_true, decide_eq_true_eq, bne_iff_ne, ne_eq] at hn
      have hkj : k = j := by
        rcases Nat.lt_trichotomy k j with hlt | heq | hgt
        · have h1 := h k
          have hne : k ≠ j := by omega
          simp only [Memory.read, if_true, hne, if_false] at h1
          exact absurd (h1.trans (Memory.read_below hn.2 (by omega))) hm.1.2
        · exact heq
        · have h1 := h j
          have hne : j ≠ k := by omega
          simp only [Memory.read, if_true, hne, if_false] at h1
          exact absurd (h1.symm.trans (Memory.read_below hm.2 (by omega))) hn.1.2
      subst hkj
      have hv : v = w := by simpa [Memory.read] using h k
      subst hv
      refine congrArg _ (ih hm.2 hn.2 fun a => ?_)
      by_cases ha : a = k
      · subst ha
        rw [Memory.read_below hm.2 (by omega), Memory.read_below hn.2 (by omega)]
      · simpa [Memory.read, ha] using h a

/-! ### The held image -/

theorem Held.get_put (h : List Host.Cell) (a : Nat) (b : Byte) (x : Nat) :
    Held.get (Held.put h a b) x = if x = a then some b else Held.get h x := by
  induction h with
  | nil => rfl
  | cons c r ih =>
    obtain ⟨k, v⟩ := c
    simp only [Held.put]
    split
    · rfl
    · split
      · rename_i hk ha
        subst ha
        by_cases hx : x = a <;> simp [Held.get, hx]
      · rename_i hk ha
        simp only [Held.get, ih]
        by_cases hx : x = k
        · subst hx
          have : x ≠ a := fun e => ha e.symm
          simp [this]
        · simp [hx]

theorem Held.get_drop (h : List Host.Cell) (a x : Nat) :
    Held.get (Held.drop h a) x = if x = a then none else Held.get h x := by
  induction h with
  | nil => simp [Held.drop, Held.get]
  | cons c r ih =>
    obtain ⟨k, v⟩ := c
    unfold Held.drop at ih ⊢
    by_cases hk : k = a
    · subst hk
      simp only [List.filter_cons, bne_self_eq_false, Bool.false_eq_true, if_false, ih, Held.get]
      by_cases hx : x = k <;> simp [hx]
    · have : (k != a) = true := by simpa using hk
      simp only [List.filter_cons, this, if_true, Held.get, ih]
      by_cases hx : x = k
      · subst hx
        simp [hk]
      · simp [hx]

theorem Held.wfFrom_mono {h : List Host.Cell} : ∀ {lo lo' : Nat}, Held.wfFrom lo h = true → lo' ≤ lo →
    Held.wfFrom lo' h = true := by
  cases h with
  | nil => intros; rfl
  | cons c r =>
    intro lo lo' h hl
    simp only [Held.wfFrom, Bool.and_eq_true, decide_eq_true_eq] at h ⊢
    exact ⟨by omega, h.2⟩

theorem Held.wf_put {h : List Host.Cell} (a : Nat) (b : Byte) : ∀ {lo : Nat}, Held.wfFrom lo h = true → lo ≤ a →
    Held.wfFrom lo (Held.put h a b) = true := by
  induction h with
  | nil => intro lo _ hl; simp [Held.put, Held.wfFrom, hl]
  | cons c r ih =>
    obtain ⟨k, v⟩ := c
    intro lo h hl
    simp only [Held.wfFrom, Bool.and_eq_true, decide_eq_true_eq] at h
    simp only [Held.put]
    split
    · simp only [Held.wfFrom, Bool.and_eq_true, decide_eq_true_eq]
      exact ⟨hl, by omega, h.2⟩
    · split
      · rename_i hk hak
        simp only [Held.wfFrom, Bool.and_eq_true, decide_eq_true_eq]
        exact ⟨hl, hak ▸ h.2⟩
      · simp only [Held.wfFrom, Bool.and_eq_true, decide_eq_true_eq]
        exact ⟨h.1, ih h.2 (by omega)⟩

theorem Held.wf_drop {h : List Host.Cell} (a : Nat) : ∀ {lo : Nat}, Held.wfFrom lo h = true →
    Held.wfFrom lo (Held.drop h a) = true := by
  induction h with
  | nil => intros; rfl
  | cons c r ih =>
    obtain ⟨k, v⟩ := c
    intro lo h
    simp only [Held.wfFrom, Bool.and_eq_true, decide_eq_true_eq] at h
    unfold Held.drop at ih ⊢
    simp only [List.filter_cons]
    split
    · simp only [Held.wfFrom, Bool.and_eq_true, decide_eq_true_eq]
      exact ⟨h.1, ih h.2⟩
    · exact Held.wfFrom_mono (ih h.2) (by omega)

/-! ### Part writes and landings -/

theorem Held.get_foldr_put (cs h : List Host.Cell) (x : Nat) :
    Held.get (cs.foldr (fun c h => Held.put h c.1 c.2) h) x =
      match Held.get cs x with
      | some b => some b
      | none => Held.get h x := by
  induction cs with
  | nil => rfl
  | cons c cs ih =>
    simp only [List.foldr_cons, Held.get_put, ih, Held.get]
    split <;> rfl

theorem Held.get_foldr_drop (cs h : List Host.Cell) (x : Nat) :
    Held.get (cs.foldr (fun c h => Held.drop h c.1) h) x = if (Held.get cs x).isSome then none else Held.get h x := by
  induction cs with
  | nil => rfl
  | cons c cs ih =>
    simp only [List.foldr_cons, Held.get_drop, ih, Held.get]
    split
    · simp
    · rfl

/-- The covered range and the rest of the frame record, with the other fields of the block, are kept by a part write;
only the memory and the held image change. -/
theorem Exchange.partWriteCells_eq (cs : List Host.Cell) (x : Exchange) :
    x.partWriteCells cs =
      { x with
        mem := (x.partWriteCells cs).mem
        frame := { x.frame with held := (x.partWriteCells cs).frame.held } } := by
  unfold Exchange.partWriteCells
  split <;> rfl

section partWriteCells
variable (cs : List Host.Cell) (x : Exchange)
@[simp] theorem Exchange.partWriteCells_ready : (x.partWriteCells cs).ready = x.ready := by
  rw [Exchange.partWriteCells_eq]
@[simp] theorem Exchange.partWriteCells_refused : (x.partWriteCells cs).refused = x.refused := by
  rw [Exchange.partWriteCells_eq]
@[simp] theorem Exchange.partWriteCells_range : (x.partWriteCells cs).range = x.range := by
  rw [Exchange.partWriteCells_eq]
@[simp] theorem Exchange.partWriteCells_summary : (x.partWriteCells cs).summary = x.summary := by
  rw [Exchange.partWriteCells_eq]
@[simp] theorem Exchange.partWriteCells_enable : (x.partWriteCells cs).enable = x.enable := by
  rw [Exchange.partWriteCells_eq]
@[simp] theorem Exchange.partWriteCells_miso : (x.partWriteCells cs).miso = x.miso := by
  rw [Exchange.partWriteCells_eq]
@[simp] theorem Exchange.partWriteCells_covered : (x.partWriteCells cs).frame.covered = x.frame.covered := by
  rw [Exchange.partWriteCells_eq]
@[simp] theorem Exchange.partWriteCells_covers : (x.partWriteCells cs).covers = x.covers := by
  funext a
  simp [Exchange.covers]
end partWriteCells

/-- What the blocks see after a part write: the cells it wrote, and every other byte as before (R153). -/
theorem Exchange.peek_partWriteCells {x : Exchange} (h : x.wf = true) (cs : List Host.Cell) {a : Nat}
    (ha : a < memorySize) : (x.partWriteCells cs).peek a = (Held.get cs a).getD (x.peek a) := by
  simp only [Exchange.wf, Bool.and_eq_true] at h
  unfold Exchange.partWriteCells Exchange.peek
  split
  · simp only [Held.get_foldr_put]
    cases Held.get cs a <;> rfl
  · simp only [Held.get_foldr_drop, Memory.read_writeAll h.1, ha, if_true]
    cases hc : Held.get cs a with
    | none => simp
    | some b => simp

/-- What the blocks see after a part write at an address it does not write. -/
theorem Exchange.peek_partWriteCells_of_none {x : Exchange} (h : x.wf = true) {cs : List Host.Cell} {a : Nat}
    (hc : Held.get cs a = none) : (x.partWriteCells cs).peek a = x.peek a := by
  by_cases ha : a < memorySize
  · simp [Exchange.peek_partWriteCells h cs ha, hc]
  · simp only [Exchange.wf, Bool.and_eq_true] at h
    unfold Exchange.partWriteCells Exchange.peek
    split
    · simp only [Held.get_foldr_put, hc]
    · simp [Held.get_foldr_drop, hc, Memory.read_writeAll h.1, ha]

/-- A part write keeps both lists in their canonical form. -/
theorem Exchange.wf_partWriteCells {x : Exchange} (h : x.wf = true) (cs : List Host.Cell) :
    (x.partWriteCells cs).wf = true := by
  simp only [Exchange.wf, Bool.and_eq_true] at h ⊢
  unfold Exchange.partWriteCells
  split
  · refine ⟨h.1, ?_⟩
    show Held.wfFrom 0 _ = true
    rename_i hn
    clear hn
    induction cs with
    | nil => exact h.2
    | cons c cs ih => exact Held.wf_put c.1 c.2 ih (Nat.zero_le _)
  · refine ⟨Memory.wf_writeAll h.1 cs, ?_⟩
    show Held.wfFrom 0 _ = true
    rename_i hn
    clear hn
    induction cs with
    | nil => exact h.2
    | cons c cs ih => exact Held.wf_drop c.1 ih

/-- An open READ frame goes on reading the same bytes: a part write never changes a covered byte of the memory
(R153). -/
theorem Exchange.read_partWriteCells_of_covers {x : Exchange} (h : x.wf = true) (cs : List Host.Cell) {a : Nat}
    (ha : x.covers a = true) : Memory.read (x.partWriteCells cs).mem a = Memory.read x.mem a := by
  simp only [Exchange.wf, Bool.and_eq_true] at h
  unfold Exchange.partWriteCells
  split
  · rfl
  · rename_i hn
    simp only [Memory.read_writeAll h.1]
    have : Held.get cs a = none := by
      clear h
      induction cs with
      | nil => rfl
      | cons c cs ih =>
        simp only [List.any_cons, Bool.or_eq_true, not_or] at hn
        have hc : a ≠ c.1 := by
          intro e
          exact hn.1 (e ▸ ha)
        simp only [Held.get, hc, if_false]
        exact ih hn.2
    simp [this]

/-- A landing changes nothing that the blocks see (R153). -/
theorem Exchange.peek_land {x : Exchange} (h : x.wf = true) {a : Nat} (ha : a < memorySize) :
    x.land.peek a = x.peek a := by
  simp only [Exchange.wf, Bool.and_eq_true] at h
  simp only [Exchange.land, Exchange.peek, Held.get, Memory.read_writeAll h.1, ha, if_true, Option.getD_none]

/-- A landing keeps both lists in their canonical form. -/
theorem Exchange.wf_land {x : Exchange} (h : x.wf = true) : x.land.wf = true := by
  simp only [Exchange.wf, Bool.and_eq_true] at h ⊢
  exact ⟨Memory.wf_writeAll h.1 _, rfl⟩

/-- What the bytes `bs` from `a` on hold at address `x`. -/
theorem Held.get_cellsAt (bs : List Byte) : ∀ (a x : Nat),
    Held.get (cellsAt a bs) x = if a ≤ x then bs[x - a]? else none := by
  induction bs with
  | nil => intro a x; simp [cellsAt, Held.get]
  | cons b bs ih =>
    intro a x
    simp only [cellsAt, Held.get, ih]
    by_cases hx : x = a
    · subst hx
      simp
    · by_cases hl : a ≤ x
      · have h1 : a + 1 ≤ x := by omega
        have h2 : x - a = (x - (a + 1)) + 1 := by omega
        simp [hx, hl, h1, h2]
      · have h1 : ¬ a + 1 ≤ x := by omega
        simp [hx, hl, h1]

/-- What the blocks see after a part write of the bytes `bs` from `b` on. -/
theorem Exchange.peek_partWrite {x : Exchange} (h : x.wf = true) (b : Nat) (bs : List Byte) {a : Nat}
    (ha : a < memorySize) : (x.partWrite b bs).peek a = if b ≤ a then bs[a - b]?.getD (x.peek a) else x.peek a := by
  unfold Exchange.partWrite
  rw [Exchange.peek_partWriteCells h _ ha, Held.get_cellsAt]
  split <;> simp

/-- A part write of bytes leaves every other address as the blocks saw it. -/
theorem Exchange.peek_partWrite_of_not_mem {x : Exchange} (h : x.wf = true) (b : Nat) (bs : List Byte) {a : Nat}
    (ha : a < b ∨ b + bs.length ≤ a) : (x.partWrite b bs).peek a = x.peek a := by
  refine Exchange.peek_partWriteCells_of_none h ?_
  rw [Held.get_cellsAt]
  split
  · rw [List.getElem?_eq_none]
    omega
  · rfl

theorem Exchange.wf_partWrite {x : Exchange} (h : x.wf = true) (b : Nat) (bs : List Byte) :
    (x.partWrite b bs).wf = true := Exchange.wf_partWriteCells h _

end Sys2Proof.Machine
end

