-- ==== Sys2Proof/Laws/Page.lean ====
section
/-!
SUPPORT. What the monitor's publications leave in exchange memory, in the terms of the statements: the watchdog state with
its remaining seconds, and the restart record region.
-/

namespace Sys2Proof.Machine

/-- A part write inside the memory shows its bytes. -/
theorem Exchange.shows_partWrite {x : Exchange} (h : x.wf = true) (b : Nat) (bs : List Byte)
    (hb : b + bs.length ≤ memorySize) : (x.partWrite b bs).shows b bs := by
  intro i hi
  rw [Exchange.peek_partWrite h b bs (by omega)]
  simp [hi]

/-- The remaining seconds of R124, in the words of `State.watchdogShown`. -/
theorem Monitor.remaining_eq (now : SlotCount) (m : Monitor) :
    m.remaining now =
      if m.watchdog == .grace || m.watchdog == .watching || m.watchdog == .warned then
        (m.stageEnd.map fun e => ((e - now).toNat + 63) / 64).getD 0
      else 0 := by
  cases hw : m.watchdog <;> cases he : m.stageEnd <;> simp [Monitor.remaining, hw, he]

/-- `publishWatchdog` shows the watchdog. -/
theorem State.publishWatchdog_shown (now : SlotCount) {s : State} (h : s.xmem.wf = true) :
    (s.publishWatchdog now).watchdogShown now := by
  have hx := Exchange.wf_partWrite h 0x1A [s.mon.watchdog.code]
  refine ⟨?_, ?_⟩
  · have h1 := Exchange.shows_partWrite h 0x1A [s.mon.watchdog.code] (by simp [memorySize]) 0 (by simp)
    simp only [State.publishWatchdog, State.mapX]
    rw [Exchange.peek_partWrite_of_not_mem hx 0x0B0 _ (Or.inl (by decide))]
    exact h1
  · have h2 := Exchange.shows_partWrite hx 0x0B0 (le16 (s.mon.remaining now)) (by simp [le16, memorySize])
    rw [Monitor.remaining_eq] at h2
    simpa [State.publishWatchdog, State.mapX, Monitor.remaining_eq] using h2

/-- A record has 32 bytes. -/
theorem RestartRecord.bytes_length (r : RestartRecord) : r.bytes.length = 32 := rfl

theorem zeros_getD (n k : Nat) : (List.replicate n (0 : Byte)).getD k 0 = 0 := by
  rw [List.getD_eq_getElem?_getD, List.getElem?_replicate]
  split <;> rfl

theorem recordRegion_length (rs : List RestartRecord) : (recordRegion rs).length = 256 := by
  rw [recordRegion, List.length_take, List.length_append, List.length_replicate]
  omega

/-- Position `i` of the record region, by section 10.6. -/
theorem recordRegion_getD : ∀ (rs : List RestartRecord) (i j : Nat), j < 32 →
    (rs.flatMap RestartRecord.bytes ++ List.replicate 256 0).getD (32 * i + j) 0 = (recordAt rs i).getD j 0
  | [], _, j, _ => (zeros_getD 256 _).trans (zeros_getD 32 j).symm
  | r :: rs, 0, j, hj => by
    rw [List.flatMap_cons, List.append_assoc, List.getD_append _ _ _ _ (by rw [RestartRecord.bytes_length]; omega)]
    simp [recordAt, RestartRecord.bytes]
  | r :: rs, i + 1, j, hj => by
    rw [List.flatMap_cons, List.append_assoc,
      List.getD_append_right _ _ _ _ (by rw [RestartRecord.bytes_length]; omega), RestartRecord.bytes_length,
      show 32 * (i + 1) + j - 32 = 32 * i + j by omega, recordRegion_getD rs i j hj]
    simp [recordAt]

/-- `publishRecords` shows the records. -/
theorem State.publishRecords_shown {s : State} (h : s.xmem.wf = true) : s.publishRecords.recordsShown := by
  intro i hi j hj
  have hl := recordRegion_length s.mon.records
  have hj' : j < 32 := by
    simp only [State.publishRecords, State.mapX, recordAt] at hj
    split at hj <;> simpa [le16, le32, sle16] using hj
  have h1 := Exchange.shows_partWrite h 0x600 (recordRegion s.mon.records) (by rw [hl]; decide) (32 * i + j)
    (by rw [hl]; omega)
  rw [← Nat.add_assoc] at h1
  refine h1.trans ?_
  rw [show s.publishRecords.mon.records = s.mon.records from rfl, ← recordRegion_getD s.mon.records i j hj', recordRegion,
    List.getD_eq_getElem?_getD, List.getD_eq_getElem?_getD, List.getElem?_take_of_lt (by omega)]

end Sys2Proof.Machine
end

