-- ==== Sys2Proof/Laws/Profile.lean ====
section
/-!
SUPPORT. The laws of the CRC and of the factory profile: a CRC fits two bytes, an image that ends in the CRC of its
first 1,022 bytes passes the first check of R177, the factory profile passes every check (R184), and the staging area
holds what is written into it.
-/

namespace Sys2Proof.Machine

theorem crcBit_lt {c : Nat} (h : c < 65536) : crcBit c < 65536 := by
  unfold crcBit
  split
  · exact Nat.xor_lt_two_pow (n := 16) (Nat.mod_lt _ (by decide)) (by decide)
  · omega

theorem crcByte_lt {c : Nat} (b : Byte) (h : c < 65536) : crcByte c b < 65536 := by
  have hb : b.toNat * 256 < 2 ^ 16 := by have := b.isLt; omega
  have hx : c ^^^ (b.toNat * 256) < 65536 := Nat.xor_lt_two_pow (n := 16) h hb
  unfold crcByte
  iterate 8 refine crcBit_lt ?_
  exact hx

theorem foldl_crcByte_lt (bs : List Byte) : ∀ {c : Nat}, c < 65536 → bs.foldl crcByte c < 65536 := by
  induction bs with
  | nil => intro c h; exact h
  | cons b bs ih => intro c h; rw [List.foldl_cons]; exact ih (crcByte_lt b h)

theorem crc16_lt (bs : List Byte) : crc16 bs < 65536 := by
  unfold crc16
  exact foldl_crcByte_lt bs (by omega)

@[simp] theorem le16_length (n : Nat) : (le16 n).length = 2 := rfl

/-- A two-byte field reads back what `le16` wrote after `bs`. -/
theorem u16_append_le16 (bs : List Byte) {n : Nat} (h : n < 65536) : u16 (bs ++ le16 n) bs.length = n := by
  simp only [u16, u8, List.getD_eq_getElem?_getD]
  rw [List.getElem?_append_right (Nat.le_refl _), List.getElem?_append_right (Nat.le_succ _)]
  simp [le16, BitVec.toNat_ofNat]
  omega

theorem factoryBody_length : factoryBody.length = 1022 := by decide +kernel

theorem factoryImage_length : factoryImage.length = 1024 := by
  simp [factoryImage, factoryBody_length]

/-- The factory profile passes the first check of R177. -/
theorem factoryImage_crc : crc16 (factoryImage.take 1022) = u16 factoryImage 1022 := by
  have h := u16_append_le16 factoryBody (crc16_lt factoryBody)
  rw [factoryBody_length] at h
  rw [factoryImage, List.take_append_of_le_length (by rw [factoryBody_length]), ← factoryBody_length,
    List.take_length]
  rw [factoryBody_length, h]

/-- A record whose write was cut off hands over the reference 0 (R181). -/
theorem serviceReference_tornRecord (fresh : Nat) : serviceReference (tornRecord fresh) = 0 := by
  have hl : (List.ofFn fun i : Fin 30 => Config.tornServiceByte fresh i.val).length = 30 := List.length_ofFn
  unfold serviceReference tornRecord
  generalize (List.ofFn fun i : Fin 30 => Config.tornServiceByte fresh i.val) = body at hl
  have hu := u16_append_le16 body
    (n := (crc16 body + 1 + Config.tornServiceCrc fresh % 65535) % 65536) (Nat.mod_lt _ (by decide))
  have hc := crc16_lt body
  rw [← hl, List.take_left, hu, if_neg (by omega)]

/-- The factory profile is valid (R184, R177). -/
theorem factoryImage_valid : validImage factoryImage = true := by
  have h2 : u8 factoryImage 0 = 3 := by decide +kernel
  have h3 : u16 factoryImage 2 = 1024 := by decide +kernel
  have h4 : firstFailing factoryImage fieldChecks = none := by decide +kernel
  have h5 : firstFailing factoryImage crossChecks = none := by decide +kernel
  simp [validImage, imageFailure, factoryImage_crc, h2, h3, h4, h5]

/-- An image of another layout version than 3 is not valid, whatever its CRC (R177). -/
theorem not_validImage_of_version {p : Image} (h : u8 p 0 ≠ 3) : validImage p = false := by
  unfold validImage imageFailure
  split <;> rfl

/-- The staging area holds an image that is written over it (R178). -/
theorem Exchange.staged_partWrite {x : Exchange} (h : x.wf = true) {p : Image} (hp : p.length = 1024) :
    (x.partWrite 0x800 p).staged = p := by
  apply List.ext_getElem
  · simp [Exchange.staged, hp]
  · intro i h1 h2
    have hi : i < 1024 := hp ▸ h2
    simp only [Exchange.staged, List.getElem_map, List.getElem_range]
    rw [Exchange.peek_partWrite h 0x800 p (by unfold memorySize; omega)]
    simp [hp, hi]

end Sys2Proof.Machine
end

