-- ==== Sys2Proof/Tests/Slice0.lean ====
section
/-!
SUPPORT. Tests of the model. First the operands that `Instr.wellFormed` refuses; then single steps whose expected values
are worked out by hand from the manual's rules and the factory profile (R184); then, for each statement with hypotheses,
a state and operands that meet all of them, at a boundary of each of its clauses.
-/

namespace Sys2Proof.Tests

set_option Elab.async false

open Sys2Proof Sys2Proof.Machine

/-! ### Helpers -/

/-- The part with the factory profile active and READY set, in slot count `n`. -/
def ready (n : SlotCount) : State :=
  { State.reset with
    store := { State.reset.store with active := some factoryImage, factoryActive := true }
    xmem := { Exchange.initial with ready := true }
    time := { slotCount := n, started := true, boundaryTaken := false } }

/-- The same with the rail in state `r`. -/
def rail (r : RailState) : State := { ready 1000 with rail := { Rail.initial with state := r, railEn := r.isOn } }

/-- The rail in RUNNING with the watchdog in state `w`, its stage ending at slot count 1000. -/
def watch (w : WatchdogState) : State :=
  { rail .running with mon := { Monitor.initial with watchdog := w, armed := true, stageEnd := some 1000 } }

/-- The part with channel `k` as given, in slot count `n`. -/
def channel (n : SlotCount) (k : Fin 6) (c : Channel) : State :=
  { ready n with sense := { State.reset.sense with channels := State.reset.sense.channels.set k c } }

/-- The head of a slip for slot 3 that chains to nothing. -/
def head : SlipHead := { slot := 3, priority := 0, next := 255, tag := 0x1234 }

/-- The state after `c`. -/
def run (c : Instr) (s : State) : State :=
  match exec c s with
  | .next t => t
  | .fault _ => s
  | .refused _ => s

/-! ### What `Instr.wellFormed` refuses -/

theorem test_wf_refuses_tach_of_0 : (Instr.tachEdge 0 0).wellFormed = false := by decide
theorem test_wf_refuses_late_tach : (Instr.tachEdge 0 1000001).wellFormed = false := by decide
theorem test_wf_takes_last_tach : (Instr.tachEdge 0 1000000).wellFormed = true := by decide
theorem test_wf_refuses_read_as_unknown : (Instr.unknownCommand 0x3A 0).wellFormed = false := by decide
theorem test_wf_refuses_kind_1 : (Instr.unknownKind head 1).wellFormed = false := by decide
theorem test_wf_refuses_kind_10 : (Instr.unknownKind head 10).wellFormed = false := by decide
theorem test_wf_takes_kind_11 : (Instr.unknownKind head 11).wellFormed = true := by decide

/-! ### Single steps of the manual's worked sequences -/

/-- Section 1.3: code 2,500 on GLASS with trim +3 is 14.4 °C. -/
theorem test_worked_conversion : convert (factoryImage.set 0x04A 3) 4 2500 = 144 := by decide +kernel

/-- Section 1.8: 24,000 mV at 1,880 mA in slot 63 closes a window of 29,140 slot-deciwatts at 455 dW. -/
theorem test_worked_window_of_power :
    (run (.railConversionEnd 3000 470)
      { ready 63 with sense := { State.reset.sense with windowSum := 28689 } }).sense.railAverage = 455 := by
  decide +kernel

/-- The state of the worked allotment of section 2.12, with Rz 50 in the factory profile. -/
def allotment : State :=
  let zone (i r g : Nat) : ZoneRec := { ZoneRec.initial with integrator := i, request := r, grant := g }
  let s := rail .running
  { s with
    store := { s.store with active := some (factoryImage.set 0x08A 50) }
    time := { s.time with slotCount := 64 }
    climate := { s.climate with zones := #v[zone 6400 38 38, zone 7500 44 44, zone 3000 64 64] }
    air := { s.air with fans := tab 2 fun f => { s.air.fans[f] with floor := some 40 } }
    sense :=
      { s.sense with
        railAverage := 452
        channels :=
          #v[84, 100, 121, 71, 52, 0].map fun v =>
            { lastCode := none, accepted := some v, pendingValue := none, fault := false } } }

theorem test_worked_allotment :
    (run .windowBoundary allotment).climate.zones.toList.map (fun z => (z.effective, z.request, z.grant, z.heldHigh)) =
      [(150, 40, 40, false), (100, 51, 42, true), (114, 64, 64, true)] := by decide +kernel

theorem test_worked_allotment_power :
    (run .windowBoundary allotment).climate.available = 600 ∧
      (run .windowBoundary allotment).keypad.edgeSet = some [0, 40, 42] := by decide +kernel

/-- R38, section 10.3: the live page after it. Z0 at 0x070 with 15.0 °C, 40 and 40, A 600 dW (0x0258) and H 502 dW
(0x01F6) at 0x088, and F0's duty 40 without a fault at 0x098. -/
theorem test_worked_allotment_page :
    (List.range 4).map (fun i => (run .windowBoundary allotment).xmem.peek (0x070 + i)) = [150, 0, 40, 40] ∧
      (List.range 4).map (fun i => (run .windowBoundary allotment).xmem.peek (0x088 + i)) = [0x58, 2, 0xF6, 1] ∧
      (List.range 2).map (fun i => (run .windowBoundary allotment).xmem.peek (0x098 + i)) = [40, 0] := by decide +kernel

/-- Nothing is POSTED there and no measurement runs, so the boundary takes no slip. -/
theorem test_witness_BoundaryAllotment_framed :
    allotment.xmem.wf = true ∧ allotment.boundaryTakesNone :=
  ⟨rfl, .inr ⟨by unfold State.nonePosted; decide +kernel, .inl (by decide +kernel)⟩⟩

/-- Section 5.9: a kick with the right value in the early window is refused as EARLY. -/
theorem test_worked_early_kick :
    (run (.kick 18)
      { watch .watching with
        mon :=
          { (watch .watching).mon with
            expected := some 18, lastKick := some 872, inForce := { s1 := 30, s2 := 10, early := 5 } } }).mon.lastRefusal =
      .early := by decide +kernel

/-- Section 6.7: the queue is full with a gap count of 2, and the host's read counter 980 makes room for the GAP entry. -/
theorem test_worked_queue_gap :
    (run (.keyReadCounter 980)
      { rail .running with
        keypad := { Keypad.initial with writeCounter := 1000, readCounter := 968, gap := 2 } }).xmem.peek 0x542 = 6 := by
  decide +kernel

/-- Section 6.3, scan 2 of the worked touch: the drift count reaches 16 and the baseline moves to 1,201. -/
theorem test_worked_drift :
    (run (.scanEnd (tab 24 fun k => if k = 7 then 1207 else 1200))
      { rail .running with
        keypad :=
          { Keypad.initial with
            fog := false, scan := some 1000
            keys := tab 24 fun _ => { KeyRec.initial with state := .idle, baseline := 1200, drift := 15 } }
        engine := { Engine.initial with served := true } }).keypad.keys[(7 : Fin 24)].baseline = 1201 := by
  decide +kernel

/-- Section 4.16: the second slot above the limit in STARTING cuts the rail, and the ladder index becomes 1. -/
theorem test_worked_overcurrent :
    (run (.railConversionEnd 3000 765)
      { rail .starting with
        rail := { (rail .starting).rail with overcurrentCount := 1 } }).rail.state = .cooldown := by decide +kernel

/-- Section 8.9: of S2 and S6 at priority 1 and S9 at priority 2, the engine takes S9. -/
theorem test_worked_arbitration :
    (({ ready 1000 with
        engine := { Engine.initial with lastServed := 5 }
        xmem :=
          (((ready 1000).xmem.partWrite 0x180 [1, 2, 1]).partWrite 0x280 [1, 2, 1]).partWrite 0x340 [1, 3, 2] } :
      State).choose []) = some 9 := by decide +kernel

/-- The Note of R167 and R164: one frame posts S2 at priority 0 and S9 at priority 3 to an idle engine, and S2 is taken at
its own delivery, before S9 is delivered. -/
theorem test_frame_posting_two_slots :
    (run (.write (0x01 :: 0x80 :: 1 :: 0 :: 0 :: (List.replicate 445 0 ++ [1, 0, 3]))) (ready 1000)).engine.lastServed = 2 ∧
      (run (.write (0x01 :: 0x80 :: 1 :: 0 :: 0 :: (List.replicate 445 0 ++ [1, 0, 3]))) (ready 1000)).xmem.peek 0x340 = 1 := by
  decide +kernel

/-- R2: a second conversion of a window changes nothing, and none falls outside its slot. -/
theorem test_one_conversion_a_slot :
    (run (.conversionEnd 0 3000) (run (.conversionEnd 0 2048) (ready 4))).sense.channels[(0 : Fin 6)].lastCode =
        some 2048 ∧
      (run (.conversionEnd 1 2048) (ready 4)).sense.channels[(1 : Fin 6)].lastCode = none := by decide +kernel

/-- R11: one rail conversion a slot; a second one does not count again in the window sum. -/
theorem test_one_rail_conversion_a_slot :
    (run (.railConversionEnd 3000 470) (run (.railConversionEnd 3000 470) (ready 63))).sense.windowSum = 451 := by
  decide +kernel

/-- R13: slot 63 takes no boundary before its rail conversion has ended. -/
theorem test_boundary_waits_for_the_rail_conversion :
    (ready 63).boundaryDue = none ∧ (run (.railConversionEnd 3000 470) (ready 63)).boundaryDue = some 64 := by
  decide +kernel

/-- R150, R151: the latched status byte is returned at each byte, and REFUSED is cleared. -/
theorem test_status_clears_refused :
    (run (.status 1) { ready 4 with xmem := { (ready 4).xmem with refused := true } }).xmem.miso = [0, 3] := by
  decide +kernel

/-- R168, R170: a slip of a kind the part does not know is DONE (5) with UNKNOWN_KIND (2), the codes of section 10.4. -/
theorem test_unknown_kind_completes :
    (run (.unknownKind head 0) (ready 1000)).xmem.peek 0x1C0 = 5 ∧
      (run (.unknownKind head 0) (ready 1000)).xmem.peek 0x1C6 = 2 := by decide +kernel

/-! ### Witnesses

For each statement with hypotheses, a state and operands that meet them all, once for each of its clauses that rests on a
range, at a boundary of that range. `factoryImage` is the active profile throughout but where the statement says
otherwise.
-/

/-- The hypotheses that most statements share. -/
def shared (s : State) : Prop := s.store.active = some factoryImage ∧ s.xmem.wf = true ∧ s.xmem.ready = true

theorem shared_ready (n : SlotCount) : shared (ready n) := ⟨rfl, rfl, rfl⟩
theorem shared_rail (r : RailState) : shared (rail r) := ⟨rfl, rfl, rfl⟩
theorem shared_watch (w : WatchdogState) : shared (watch w) := ⟨rfl, rfl, rfl⟩
theorem shared_channel (n : SlotCount) (k : Fin 6) (c : Channel) : shared (channel n k c) := ⟨rfl, rfl, rfl⟩

theorem test_witness_StepTakesTheFrontCommand :
    { State.reset with pending := [.profileLoad, .powerOn] }.pending = Instr.profileLoad :: [.powerOn] ∧
      State.reset.pending = [] := by decide +kernel

theorem test_witness_ProfileLoadStartsThePart :
    State.reset.store.active = none ∧ State.reset.xmem.wf = true ∧ State.reset.rail.state = .off ∧
      false = validImage State.reset.store.storedImage := ⟨rfl, rfl, rfl, (not_validImage_of_version (by decide +kernel)).symm⟩

/-- The part with a valid stored image before the load. -/
def programmed : State := { State.reset with store := { State.reset.store with storedImage := factoryImage } }

theorem test_witness_ProfileLoadStartsThePart_valid :
    programmed.store.active = none ∧ programmed.xmem.wf = true ∧ programmed.rail.state = .off ∧
      true = validImage programmed.store.storedImage := ⟨rfl, rfl, rfl, factoryImage_valid.symm⟩

theorem test_witness_SlotStartCountsAndSamples :
    shared (ready 63) ∧ (ready 63).upcoming.toNat % 64 = 0 ∧ (ready 64).upcoming.toNat % 64 = 1 ∧
      (ready 63).rail.state = .off ∧ (ready 63).nonePosted ∧
      (ready 63).inputsSteady factoryImage (run (.slotStart true false 15) (ready 63)) := ⟨shared_ready 63, by decide +kernel, by decide +kernel, rfl, by intro n; fin_cases n <;> decide +kernel, by intro k; fin_cases k <;> decide +kernel⟩

/-- The gate is judged in WARMING, PGOOD is watched in STARTING, and HSLEEP pauses the watchdog in RUNNING, in slots whose
inputs are steady. -/
theorem test_witness_SlotStart_states :
    (rail .warming).rail.judgedAt ≠ some (rail .warming).upcoming ∧
      (run (.slotStart true false 15) (rail .warming)).rail.waitReason = .cold ∧
      (run (.slotStart true false 15) (rail .starting)).rail.resetHold = some 1033 ∧
      (run (.slotStart true true 15) (watch .grace)).mon.watchdog = .paused ∧
      (run (.slotStart true true 15) (watch .expired)).mon.watchdog = .expired ∧
      (run (.slotStart true true 15) (rail .stopping)).rail.sleepCount = 1 ∧
      (run (.slotStart true false 15) (run (.slotStart true true 15) (rail .stopping))).rail.sleepCount = 0 ∧
      (run (.slotStart true true 15) (rail .resetting)).rail.state = .resetting := by decide +kernel

/-- The rail in state `r`, its next sample making IN0 active, with the route `route` on IN0. -/
def routed (route : Byte) (r : RailState) : State :=
  { rail r with
    store := { (rail r).store with active := some ((factoryImage.set 0x0EC 0).set 0x0F0 route) }
    rail :=
      { (rail r).rail with
        inputs :=
          tab 4 fun k =>
            if k = 0 then { lastSample := some true, agree := 1, taken := some false }
            else { lastSample := some true, agree := 2, taken := some true } } }

/-- IN0 alone becomes active, and START, STOP and CUT act where R91 lets them. -/
theorem test_witness_SlotStart_routes :
    (routed 2 .running).inputActive ((factoryImage.set 0x0EC 0).set 0x0F0 2) 0 = false ∧
      (run (.slotStart true false 15) (routed 5 .off)).rail.state = .warming ∧
      (run (.slotStart true false 15) (routed 5 .cooldown)).rail.restartPending = true ∧
      (run (.slotStart true false 15) (routed 2 .running)).rail.state = .stopping ∧
      (run (.slotStart true false 15) (routed 2 .starting)).rail.state = .starting ∧
      (run (.slotStart true false 15) (routed 3 .starting)).rail.state = .cooldown ∧
      (run (.slotStart true false 15) (routed 3 .warming)).rail.state = .off := by decide +kernel

/-- The same with PGOOD released, the level of a host that is off: START in OFF and in COOLDOWN, CUT in WARMING and in
COOLDOWN, and NOTE (the cause INPUT_NOTE) in LOCKOUT. -/
theorem test_witness_SlotStart_routes_host_off :
    (routed 5 .off).rail.state.isOn = false ∧ (routed 5 .cooldown).rail.state.isOn = false ∧
      (run (.slotStart false false 15) (routed 5 .off)).rail.state = .warming ∧
      (run (.slotStart false false 15) (routed 5 .cooldown)).rail.restartPending = true ∧
      (run (.slotStart false false 15) (routed 3 .warming)).rail.state = .off ∧
      (run (.slotStart false false 15) (routed 3 .cooldown)).rail.restartPending = false ∧
      (run (.slotStart false false 15) (routed 1 .lockout)).xmem.summary &&& Cause.inputNote.bit = Cause.inputNote.bit := by
  decide +kernel

/-- R124: 30 s of a stage are left at its start, and 30 s still one slot later (1,919 slots, rounded up). -/
theorem test_witness_SlotStart_remaining :
    let s : State := { watch .watching with mon := { (watch .watching).mon with stageEnd := some 2920 } }
    (run (.slotStart true false 15) s).xmem.peek 0x0B0 = 30 ∧
      (run (.slotStart true false 15) (watch .paused)).xmem.peek 0x0B0 = 0 := by decide +kernel

theorem test_witness_PowergoodLossCutsTheRail :
    shared (rail .running) ∧ (rail .running).rail.state = .running ∧ shared (rail .resetting) ∧
      (rail .resetting).rail.state = .resetting ∧ (rail .running).mon.ladderIndex < Profile.ladderLength factoryImage ∧
      Profile.ladderStep factoryImage 0 = .warm := ⟨shared_rail _, rfl, shared_rail _, rfl, by decide +kernel⟩

theorem test_witness_BoundaryAllotment :
    shared (ready 64) ∧ (ready 64).boundaryDue = some 64 ∧
      (run (.railConversionEnd 0 0) (ready 63)).boundaryDue = some 64 ∧
      (ready 64).store.commit ≠ .armed := ⟨shared_ready _, by decide +kernel⟩

/-- The priority order of the factory profile is three different zones, as `State.allotted` asks. -/
theorem test_witness_BoundaryAllotment_order :
    (u8 factoryImage 0x080 < 3 ∧ u8 factoryImage 0x081 < 3 ∧ u8 factoryImage 0x082 < 3) ∧
      u8 factoryImage 0x080 ≠ u8 factoryImage 0x081 ∧ u8 factoryImage 0x080 ≠ u8 factoryImage 0x082 ∧
      u8 factoryImage 0x081 ≠ u8 factoryImage 0x082 := by decide +kernel

/-- WARMING with the start request raised at a boundary, the boundary's answer `answer` waiting. -/
def asking (answer : Option (Bool × SlotCount)) : State :=
  { rail .warming with
    rail := { Rail.initial with state := .warming, startRequest := true }
    time := { (rail .warming).time with slotCount := 64 }
    climate := { State.reset.climate with answer := answer } }

/-- The start reservation of R35 and R36 is asked for, and granted by the factory profile with both fans at 100 %. -/
theorem test_witness_BoundaryAllotment_asked :
    (asking none).boundaryDue = some 64 ∧ (asking none).rail.state = .warming ∧ (asking none).rail.startRequest = true ∧
      (run .windowBoundary (asking none)).climate.answer = some (true, 64) := by decide +kernel

theorem test_witness_BoundaryZoneControl :
    allotment.store.active = some (factoryImage.set 0x08A 50) ∧ allotment.boundaryDue = some 64 ∧
      allotment.store.commit ≠ .armed ∧ Profile.zoneFitted (factoryImage.set 0x08A 50) 2 = true := ⟨rfl, by decide +kernel⟩

/-- A fan that turns at its stall floor, or 1 rpm below it, and is judged. -/
def turning (rpm stalls : Nat) : State :=
  { ready 64 with
    air := { Air.initial with fans := tab 2 fun _ => { FanRec.initial with duty := 20, kickAge := some 5, rpm := rpm, stallCount := stalls } } }

theorem test_witness_BoundaryFans :
    shared (turning 600 2) ∧ (turning 600 2).boundaryDue = some 64 ∧ (turning 600 2).store.commit ≠ .armed ∧
      Profile.stallFloor factoryImage 0 = 600 ∧ Profile.kickTime factoryImage 0 + 3 = 5 ∧
      (run .windowBoundary (turning 600 2)).air.fans[(0 : Fin 2)].fault = false ∧
      (run .windowBoundary (turning 599 2)).air.fans[(0 : Fin 2)].fault = true ∧
      (run .windowBoundary (turning 599 2)).xmem.summary &&& Cause.fanFault.bit = Cause.fanFault.bit :=
  ⟨⟨rfl, rfl, rfl⟩, by decide +kernel⟩

/-- The table of R43 for the factory profile: below the first point, at the last, and between two points. -/
theorem test_witness_BoundaryFans_curve :
    curveRises factoryImage ∧
      curveValue factoryImage (Profile.curveTemp factoryImage 0 - 1) = Profile.curveDuty factoryImage 0 ∧
      curveValue factoryImage (Profile.curveTemp factoryImage 7) = Profile.curveDuty factoryImage 7 ∧
      curveValue factoryImage (Profile.curveTemp factoryImage 7 + 1) = Profile.curveDuty factoryImage 7 :=
  ⟨fun j hj => by interval_cases j <;> decide +kernel, by decide +kernel⟩

/-- A probe that waits, in a state that meets every start condition of R53. -/
def probing : State :=
  { rail .running with
    time := { slotCount := 64, started := true, boundaryTaken := false }
    air := { Air.initial with probe := { Probe.initial with phase := .waiting, origin := some .probeAirflow } }
    sense :=
      { State.reset.sense with
        channels := tab 6 fun _ => { lastCode := none, accepted := some 200, pendingValue := none, fault := false } } }

theorem test_witness_ProbeStartsOnlyWhenAllowed :
    shared probing ∧ probing.boundaryDue = some 64 ∧ probing.store.commit ≠ .armed ∧
      (run .windowBoundary probing).air.probe.phase = .settle ∧ probing.air.probe.phase ≠ .settle :=
  ⟨⟨rfl, rfl, rfl⟩, by decide +kernel⟩

/-- The probe `phase` with the sums given and one window left, in a state that keeps it going; the engine has served its
slot. -/
def measuring (phase : ProbePhase) (rise : Int) (power : Nat) : State :=
  { probing with
    engine := { Engine.initial with served := true }
    air :=
      { probing.air with
        filterReference := 98
        probe :=
          { Probe.initial with
            phase := phase, origin := some .schedule, windowsLeft := 1, riseSum := rise, powerSum := power
            heldParams := some { probeDuty := 100, settleTime := 1, measureTime := 60 } } }
    sense :=
      { probing.sense with
        channels := #v[200, 200, 200, 0, 0, 0].map fun v =>
          { lastCode := none, accepted := some v, pendingValue := none, fault := false } } }

/-- The last window of SETTLE leads to MEASURE; the last of MEASURE ends with LOW_LOAD below 6,000 dW, with NO_RISE at a sum
of 0, and else completes with the figure 1,000 × 6,000 / 60,000 = 100, the clog index 102. -/
theorem test_witness_Probe_course :
    shared (measuring .settle 0 0) ∧ (measuring .settle 0 0).boundaryDue = some 64 ∧
      (measuring .settle 0 0).engine.served = true ∧
      (run .windowBoundary (measuring .settle 0 0)).air.probe.phase = .measure ∧
      (run .windowBoundary (measuring .measure 6000 5999)).air.probe.lastAbort = .lowLoad ∧
      (run .windowBoundary (measuring .measure 0 6000)).air.probe.lastAbort = .noRise ∧
      (run .windowBoundary (measuring .measure 6000 60000)).air.clogIndex = 102 :=
  ⟨⟨rfl, rfl, rfl⟩, by decide +kernel⟩

/-- A commit that is ARMED with the factory profile's image. -/
def armed : State :=
  { ready 64 with store := { (ready 64).store with commit := .armed, stagingHeld := true, storedImage := factoryImage } }

theorem test_witness_ArmedCommitTakesEffectAtTheBoundary :
    shared armed ∧ armed.boundaryDue = some 64 ∧ armed.store.commit = .armed ∧ armed.store.storedImage = factoryImage :=
  ⟨⟨rfl, rfl, rfl⟩, by decide +kernel, rfl, rfl⟩

/-- The same with the commit's slip in slot 3, a service write waiting, and the engine's slot served. -/
def reporting : State :=
  { armed with
    store := { armed.store with service := .waiting }
    engine := { Engine.initial with served := true, storeSlot := some 3 }
    xmem := armed.xmem.partWrite 0x1C0 [3] }

theorem test_witness_ArmedCommit_reports :
    reporting.boundaryDue = some 64 ∧ reporting.engine.storeSlot = some 3 ∧ reporting.engine.airSlot ≠ some 3 ∧
      reporting.engine.served = true ∧ reporting.store.service = .waiting := by decide +kernel

/-- `reporting` with a rebaseline in flight over the keys `mask` of `keys`, for the slip in slot 5. -/
def rebaselined (mask : BitVec 24) : State :=
  { reporting with
    engine := { reporting.engine with keypadSlot := some 5 }
    xmem := reporting.xmem.partWrite 0x240 [3]
    keypad :=
      { reporting.keypad with
        rebaseline := some mask
        keys := tab 24 fun k =>
          { KeyRec.initial with state := if k = 0 then .calibrating else .idle } } }

/-- At the activation the rebaseline goes on while K0 is in CALIBRATING, and without K0 it ends with OK. -/
theorem test_witness_ArmedCommit_rebaseline :
    shared (rebaselined 3) ∧ (rebaselined 3).boundaryDue = some 64 ∧ (rebaselined 3).engine.served = true ∧
      (run .windowBoundary (rebaselined 3)).keypad.rebaseline = some 3 ∧
      (run .windowBoundary (rebaselined 2)).keypad.rebaseline = none :=
  ⟨⟨rfl, by decide +kernel⟩, by decide +kernel, rfl, by decide +kernel, by decide +kernel⟩

theorem test_witness_StartAnswerReceived (granted : Bool) :
    shared (asking (some (granted, 64))) ∧ (asking (some (granted, 64))).climate.answer = some (granted, 64) ∧
      (asking (some (granted, 64))).rail.state = .warming ∧ (asking (some (granted, 64))).rail.startRequest = true ∧
      (rail .off).rail.startRequest = false :=
  ⟨⟨rfl, rfl, rfl⟩, rfl, rfl, rfl, rfl⟩

/-- Codes 15 and 4,080 are fault codes; 16 and 4,079 are in range and end a fault (R4, R5). -/
theorem test_witness_ConversionFaults :
    shared (ready 28) ∧ (ready 28).conversionDue 3 = true ∧ (ready 44).conversionDue 5 = true ∧ ¬(16 ≤ (15 : BitVec 12).toNat ∧ (15 : BitVec 12).toNat ≤ 4079) ∧
      ¬(16 ≤ (4080 : BitVec 12).toNat ∧ (4080 : BitVec 12).toNat ≤ 4079) ∧
      (channel 28 3 { Channel.initial with fault := true }).sense.channels[(3 : Fin 6)].fault = true :=
  ⟨shared_ready _, by decide +kernel⟩

theorem test_witness_FirstConversionIsAccepted :
    shared (ready 28) ∧ (ready 28).conversionDue 3 = true ∧
      (16 ≤ (16 : BitVec 12).toNat ∧ (4079 : BitVec 12).toNat ≤ 4079) ∧
      (ready 28).sense.channels[(3 : Fin 6)].fault = false ∧ (ready 28).sense.channels[(3 : Fin 6)].accepted = none ∧
      (ready 28).sense.channels[(3 : Fin 6)].pendingValue = none :=
  ⟨shared_ready _, by decide +kernel⟩

/-- Code 2,048 is 39.9 °C by the factory table: 50 from 349, and 51 from 348 and from 450. -/
theorem test_witness_SpikeRule :
    shared (channel 28 3 { Channel.initial with accepted := some 349 }) ∧
      (channel 28 3 { Channel.initial with accepted := some 349 }).conversionDue 3 = true ∧
      (channel 28 3 { Channel.initial with accepted := some 349 }).sense.channels[(3 : Fin 6)].fault = false ∧
      (channel 28 3 { Channel.initial with accepted := some 349 }).sense.channels[(3 : Fin 6)].accepted = some 349 ∧
      (16 ≤ (2048 : BitVec 12).toNat ∧ (2048 : BitVec 12).toNat ≤ 4079) ∧
      (convert factoryImage 3 2048 - 349).natAbs ≤ 50 ∧ ¬(convert factoryImage 3 2048 - 348).natAbs ≤ 50 ∧
      ¬(convert factoryImage 3 2048 - 450).natAbs ≤ 50 :=
  ⟨shared_channel _ _ _, by decide +kernel⟩

/-- INLET − GLASS at 30 is fog, at 20 keeps what is held, at 19 ends it. The kept value of INLET is 399. -/
theorem test_witness_FogIsJudged :
    shared (channel 4 4 { Channel.initial with accepted := some 369 }) ∧
      (run (.conversionEnd 0 2048) (channel 4 4 { Channel.initial with accepted := some 369 })).keypad.fog = true ∧
      (run (.conversionEnd 0 2048) (channel 4 4 { Channel.initial with accepted := some 379 })).keypad.fog = true ∧
      (run (.conversionEnd 0 2048) (channel 4 4 { Channel.initial with accepted := some 380 })).keypad.fog = false :=
  ⟨shared_channel _ _ _, by decide +kernel⟩

/-- In fog with INLET at 39.9 °C and the factory fog lift, Z2's effective setpoint is raised on the page at once. -/
theorem test_witness_FogIsJudged_lift :
    let t := run (.conversionEnd 0 2048) (channel 4 4 { Channel.initial with accepted := some 369 })
    t.climate.zones[(2 : Fin 3)].effective = 399 + Profile.fogLift factoryImage ∧
      t.xmem.peek16 0x080 = 399 + Profile.fogLift factoryImage := by decide +kernel

/-- The rail RUNNING in slot 20 of a window, MODULE's. Code 1,531 is 70.0 °C by the factory table, the critical
temperature, and code 1,532 is 69.9 °C. -/
def moduleSlot : State := { rail .running with time := (ready 20).time }

theorem test_witness_OvertemperatureCutsTheRail :
    shared moduleSlot ∧ moduleSlot.rail.state.isOn = true ∧ moduleSlot.conversionDue 2 = true ∧
      (run (.conversionEnd 2 1531) moduleSlot).rail.state = .cooldown ∧
      (run (.conversionEnd 2 1532) moduleSlot).rail.state = .running :=
  ⟨⟨rfl, rfl, rfl⟩, by decide +kernel⟩

/-- The rail on, with the overcurrent count at `n`, in slot 62 or 63 of a window. -/
def loaded (slot : SlotCount) (n : Nat) : State :=
  { rail .running with
    time := { (rail .running).time with slotCount := slot }
    rail := { (rail .running).rail with overcurrentCount := n } }

/-- 2,500 mA is within the factory limit and 2,504 mA above it. -/
theorem test_witness_RailConversionAndOvercurrent :
    shared (loaded 63 1) ∧ (loaded 63 1).rail.overcurrentCount ≤ 1 ∧ (loaded 62 0).rail.overcurrentCount ≤ 1 ∧
      (run (.railConversionEnd 3000 625) (loaded 63 1)).rail.state = .running ∧
      (run (.railConversionEnd 3000 626) (loaded 63 1)).rail.state = .cooldown :=
  ⟨⟨rfl, rfl, rfl⟩, by decide +kernel⟩

/-- Section 10.6: the record of that cut at position 0: number 1, OVERCURRENT 5, COLD 2 (WARM carried out as COLD), ladder
index 0, no flag, no refusal, RUNNING 3; position 1 is empty. -/
theorem test_witness_RailConversion_record :
    (List.range 8).map (fun i => (run (.railConversionEnd 3000 626) (loaded 63 1)).xmem.peek (0x600 + i)) =
        [1, 0, 5, 2, 0, 0, 0, 3] ∧
      (run (.railConversionEnd 3000 626) (loaded 63 1)).xmem.peek 0x620 = 0 := by decide +kernel

/-- An EXPIRED watchdog with the record 4 pending, RESETTING, at the ladder's end: PGOOD released leads to LOCKOUT, where the
watchdog is DORMANT and no record is pending; at the ladder's start it leads to COOLDOWN, where both are kept. -/
theorem test_witness_PowergoodLoss_expired :
    let s (i : Nat) : State :=
      { rail .resetting with
        mon := { Monitor.initial with watchdog := .expired, pendingRecord := some 4, ladderIndex := i } }
    let t (i : Nat) : State := run (.slotStart false false 15) (s i)
    ((t 4).rail.state, (t 4).mon.watchdog, (t 4).mon.pendingRecord) = (.lockout, .dormant, none) ∧
      ((t 0).rail.state, (t 0).mon.watchdog, (t 0).mon.pendingRecord) = (.cooldown, .expired, some 4) := by decide +kernel

/-- Periods of 1 µs and of 1,000,000 µs, with the timing running and not. -/
theorem test_witness_TachometerTimesTheFan :
    shared (turning 0 0) ∧ 1 ≤ 1 ∧ 1000000 ≤ 1000000 ∧ (turning 0 0).air.fans[(0 : Fin 2)].timing = false ∧
      (run (.tachEdge 0 1000000) (turning 0 0)).air.fans[(0 : Fin 2)].timing = true ∧
      (run (.tachEdge 0 1000000) (run (.tachEdge 0 1) (turning 0 0))).air.fans[(0 : Fin 2)].rpm = 30 :=
  ⟨⟨rfl, rfl, rfl⟩, by decide +kernel⟩

/-- The rail in state `r` with every timer ending at slot count `e`. -/
def timed (r : RailState) (e : SlotCount) : State :=
  { rail r with
    rail :=
      { (rail r).rail with
        pgoodLimit := some e, resetHold := some e, stopLimit := some e, resetDelay := some e, resetWidth := some e
        offTimer := some e, pulse := some e, override := some e, sleepCount := 320, restartPending := r == .cooldown } }

theorem shared_timed (r : RailState) (e : SlotCount) : shared (timed r e) := ⟨rfl, rfl, rfl⟩

/-- `s` with this slot's rail conversion ended. -/
def converted (s : State) : State := { s with sense := { s.sense with railConverted := true } }

/-- A timer that ends at slot count 1000 may end in slot 1000; one that ends at 1001 may do so there once the slot is
over. -/
theorem test_witness_HostLeavesResetIntoRunning :
    shared (timed .starting 1000) ∧ (timed .starting 1000).rail.state = .starting ∧
      (timed .starting 1000).due (timed .starting 1000).rail.resetHold = some 1000 ∧
      shared (converted (timed .resetting 1001)) ∧ (converted (timed .resetting 1001)).rail.state = .resetting ∧
      (converted (timed .resetting 1001)).due (timed .resetting 1001).rail.resetWidth = some 1001 ∧
      (timed .resetting 1001).due (timed .resetting 1001).rail.resetWidth = none :=
  ⟨shared_timed _ _, rfl, by decide +kernel, ⟨rfl, rfl, rfl⟩, rfl, by decide +kernel⟩

/-- STARTING with the PGOOD limit ending now and no reset hold. -/
def waiting : State := { rail .starting with rail := { (rail .starting).rail with pgoodLimit := some 1000 } }

theorem test_witness_NoPowergoodInTimeCutsTheRail :
    shared waiting ∧ waiting.rail.state = .starting ∧ waiting.due waiting.rail.pgoodLimit = some 1000 ∧
      waiting.rail.resetHold = none ∧ shared (timed .starting 1000) ∧
      (timed .starting 1000).due (timed .starting 1000).rail.pgoodLimit = some 1000 ∧
      (timed .starting 1000).rail.resetHold.isSome = true :=
  ⟨⟨rfl, rfl, rfl⟩, rfl, by decide +kernel, rfl, shared_timed _ _, by decide +kernel, rfl⟩

/-- STOPPING with the stop limit ending now, one slot short of the sleep hold. -/
def unslept : State :=
  { timed .stopping 1000 with rail := { (timed .stopping 1000).rail with sleepCount := 319 } }

/-- The sleep hold reached, the stop limit without it, and PGOOD released. -/
theorem test_witness_StopEnds :
    shared (timed .stopping 1000) ∧ (timed .stopping 1000).rail.state = .stopping ∧
      Profile.sleepHold factoryImage * 64 = (timed .stopping 1000).rail.sleepCount ∧
      (run .sleepHoldEnd (timed .stopping 1000)).rail.state = .cooldown ∧ shared unslept ∧
      unslept.due unslept.rail.stopLimit = some 1000 ∧ (run .sleepHoldEnd unslept).rail.state = .stopping ∧
      (run .stopLimitEnd unslept).rail.state = .cooldown ∧
      (run (.slotStart true true 15) unslept).rail.state = .stopping ∧
      (run (.slotStart false true 15) unslept).rail.state = .cooldown :=
  ⟨shared_timed _ _, rfl, by decide +kernel, by decide +kernel, ⟨rfl, rfl, rfl⟩, by decide +kernel⟩

theorem test_witness_StopEnds_steady :
    unslept.nonePosted ∧ unslept.inputsSteady factoryImage (run (.slotStart false true 15) unslept) :=
  ⟨by intro n; fin_cases n <;> decide +kernel, by intro k; fin_cases k <;> decide +kernel⟩

theorem test_witness_OverrideEndCutsTheRail :
    shared (timed .running 1000) ∧ (timed .running 1000).due (timed .running 1000).rail.override = some 1000 ∧
      (timed .running 1000).rail.state.isOn = true ∧ (timed .off 1000).rail.state.isOn = false ∧
      (timed .off 1000).due (timed .off 1000).rail.override = some 1000 :=
  ⟨shared_timed _ _, by decide +kernel⟩

/-- A commit whose programming began 44 slots before this one, and a stable time that ends now. -/
def programming : State :=
  { rail .running with
    store := { (ready 0).store with commit := .programming, stagingHeld := true, programmingBegan := some 956 }
    mon := { Monitor.initial with stableEnd := some 1000, ladderIndex := 2 } }

theorem test_witness_SingleEffectEnds :
    shared (timed .resetting 1000) ∧ (timed .resetting 1000).due (timed .resetting 1000).rail.pulse = some 1000 ∧
      (timed .resetting 1000).rail.state = .resetting ∧
      (timed .resetting 1000).due (timed .resetting 1000).rail.resetDelay = some 1000 ∧ shared programming ∧
      programming.due programming.mon.stableEnd = some 1000 ∧ programming.store.commit = .programming ∧
      programming.store.service ≠ .writing :=
  ⟨shared_timed _ _, by decide +kernel, rfl, by decide +kernel, ⟨rfl, rfl, rfl⟩, by decide +kernel⟩

/-- `programming`, begun at slot count `b`. -/
def begun (b : SlotCount) : State :=
  { programming with store := { programming.store with programmingBegan := some b } }

/-- R179: programming ends at the first slot start after it began and at the 44th, not at its own and not at the 45th, and
not before a service record has been written. -/
theorem test_programming_ends_within_44_slots :
    programming.store.programmingBegan = some 956 ∧ (run .programmingEnd programming).store.commit = .armed ∧
      (run .programmingEnd (begun 999)).store.commit = .armed ∧
      (run .programmingEnd (begun 1000)).store.commit = .programming ∧
      (run .programmingEnd (begun 955)).store.commit = .programming ∧
      (run .programmingEnd (converted (begun 1000))).store.commit = .armed ∧
      (run .programmingEnd
        { programming with store := { programming.store with programmingBegan := none } }).store.commit = .programming := by
  decide +kernel

/-- R179, R15: programming that begins before the first slot start ends at slot count 0 and at 43, not at 44. -/
theorem test_programming_begun_before_the_first_slot_start :
    let unstarted : State := { ready 0 with time := { slotCount := 0, started := false, boundaryTaken := false } }
    let at' (n : SlotCount) : State := { begun (unstarted.countsFrom 0) with time := (ready n).time }
    (unstarted.takesNow head.slot = true ∧ unstarted.store.commit = .idle) ∧
      (run .programmingEnd (at' 0)).store.commit = .armed ∧ (run .programmingEnd (at' 43)).store.commit = .armed ∧
      (run .programmingEnd (at' 44)).store.commit = .programming := by decide +kernel

/-- R128, R15: a scan that a boundary began before the first slot start ends only once slot 0 has begun. -/
theorem test_scan_waits_for_the_first_slot_start :
    let s : State := { ready 0 with keypad := { Keypad.initial with scan := some 0 } }
    s.scanDue = some 0 ∧ { s with time := { s.time with started := false } }.scanDue = none := by decide +kernel

/-- COOLDOWN with the off timer ending now, no restart pending. -/
def cooled : State := { rail .cooldown with rail := { (rail .cooldown).rail with offTimer := some 1000 } }

theorem test_witness_OffTimerEndsCooldown :
    shared cooled ∧ cooled.rail.state = .cooldown ∧ cooled.due cooled.rail.offTimer = some 1000 ∧
      cooled.rail.restartPending = false ∧ shared (timed .cooldown 1000) ∧
      (timed .cooldown 1000).rail.state = .cooldown ∧ (timed .cooldown 1000).rail.restartPending = true ∧
      (timed .cooldown 1000).due (timed .cooldown 1000).rail.offTimer = some 1000 :=
  ⟨⟨rfl, rfl, rfl⟩, rfl, by decide +kernel, rfl, shared_timed _ _, rfl, rfl, by decide +kernel⟩

/-- The factory ladder is WARM, WARM, COLD, COLD: index 0 warms, index 3 cuts, index 4 is beyond it and locks out. -/
theorem test_witness_WatchdogExpiryIsAFailure :
    shared (watch .grace) ∧ (watch .grace).rail.state = .running ∧
      (watch .grace).due (watch .grace).mon.stageEnd = some 1000 ∧ (watch .grace).mon.watchdog = .grace ∧
      shared (watch .warned) ∧ (watch .warned).mon.watchdog = .warned ∧
      (watch .warned).due (watch .warned).mon.stageEnd = some 1000 ∧ Profile.ladderStep factoryImage 0 = .warm ∧
      Profile.ladderStep factoryImage 3 = .cold ∧ Profile.ladderLength factoryImage = 4 :=
  ⟨shared_watch _, rfl, by decide +kernel, rfl, shared_watch _, rfl, by decide +kernel⟩

theorem test_witness_StageOneExpiryWarns :
    shared (watch .watching) ∧ (watch .watching).mon.watchdog = .watching ∧
      (watch .watching).mon.stageEnd = some (watch .watching).time.slotCount :=
  ⟨shared_watch _, rfl, rfl⟩

theorem test_witness_KickInGraceIsAccepted : shared (watch .grace) ∧ (watch .grace).mon.watchdog = .grace :=
  ⟨shared_watch _, rfl⟩

/-- The watchdog in WATCHING, expecting 43, with `elapsed` slots since the last accepted kick and an early window of
5 s. -/
def kicked (elapsed : SlotCount) : State :=
  { watch .watching with
    mon :=
      { (watch .watching).mon with
        expected := some 43, lastKick := some (1000 - elapsed), inForce := { s1 := 30, s2 := 10, early := 5 } } }

/-- The value 42 fails; 319 slots is in the early window and 320 is not. -/
theorem test_witness_KickIsJudged :
    shared (kicked 319) ∧ (kicked 319).mon.watchdog = .watching ∧ (watch .warned).mon.watchdog = .warned ∧
      (run (.kick 42) (kicked 320)).mon.lastRefusal = .badValue ∧
      (run (.kick 43) (kicked 319)).mon.lastRefusal = .early ∧
      (run (.kick 43) (kicked 320)).mon.expected = some 44 :=
  ⟨⟨rfl, rfl, rfl⟩, rfl, rfl, by decide +kernel⟩

/-- R124: after an accepted kick stage 1 of 25 s begins, which is what the page shows. -/
theorem test_witness_Kick_remaining :
    let s : State := { watch .grace with mon := { (watch .grace).mon with runtimeSet := { s1 := 25, s2 := 10, early := 5 } } }
    (run (.kick 7) s).xmem.peek 0x0B0 = 25 ∧ (run (.kick 7) s).xmem.peek 0x1A = 2 := by decide +kernel

/-- The watchdog EXPIRED with the one record of the list pending. -/
def expired : State :=
  let s := (watch .expired).addRecord 900 .graceExpiry .warm 0 .running
  { s with mon := { s.mon with pendingRecord := some 1 } }

theorem test_witness_LateKickMarksTheRecord :
    expired.store.active = some factoryImage ∧ expired.xmem.wf = true ∧ expired.xmem.ready = true ∧
      expired.mon.watchdog = .expired ∧ (expired.mon.records.any fun r => r.number == 1) = true ∧
      (watch .dormant).mon.watchdog = .dormant ∧ (watch .paused).mon.watchdog = .paused ∧
      (expired.mon.records.any fun r => r.lateKick) = false ∧
      ((run (.kick 7) expired).mon.records.any fun r => r.lateKick) = true :=
  ⟨rfl, by decide +kernel⟩

/-- A scan has begun over keys that are IDLE with baseline 1,200 on clear glass, and the engine has served its slot. -/
def scanning : State :=
  { rail .running with
    engine := { Engine.initial with served := true }
    keypad :=
      { Keypad.initial with
        fog := false, scan := some 1000
        keys := tab 24 fun _ => { KeyRec.initial with state := .idle, baseline := 1200 } } }

/-- `n` keys of a scan read exactly the touch threshold of 60 above the baseline, the others 59. -/
def film (n : Nat) : Vector (BitVec 12) 24 := tab 24 fun k => if k.val < n then 1260 else 1259

/-- Three keys at the threshold exceed the factory maximum of 2. -/
theorem test_witness_WaterFilmRejectsTheScan :
    shared scanning ∧ scanning.scanDue = some 1000 ∧ scanning.engine.served = true ∧
      Profile.maxSimultaneous factoryImage < ((List.finRange 24).filter fun k =>
        Profile.keyEnabled factoryImage k && scanning.keypad.keys[k].state != .calibrating &&
          decide (((Profile.touchThreshold factoryImage +
              if scanning.keypad.fog then Profile.fogAdd factoryImage else 0 : Nat) : Int) ≤
            ((film 3)[k].toNat : Int) - (scanning.keypad.keys[k].baseline : Int))).length :=
  ⟨⟨rfl, rfl, rfl⟩, by decide +kernel⟩

/-- Two keys at the threshold do not. -/
theorem test_witness_AcceptedScanMovesTheKeys :
    ¬Profile.maxSimultaneous factoryImage < ((List.finRange 24).filter fun k =>
        Profile.keyEnabled factoryImage k && scanning.keypad.keys[k].state != .calibrating &&
          decide (((Profile.touchThreshold factoryImage +
              if scanning.keypad.fog then Profile.fogAdd factoryImage else 0 : Nat) : Int) ≤
            ((film 2)[k].toNat : Int) - (scanning.keypad.keys[k].baseline : Int))).length := by
  decide +kernel

/-- `scanning` with K0 in `state`, touched at slot count `since`. -/
def pressing (state : KeyState) (since : Option SlotCount) : State :=
  { scanning with
    keypad :=
      { scanning.keypad with
        keys := scanning.keypad.keys.set 0
          { KeyRec.initial with state := state, baseline := 1200, touchTime := since, nextHold := some 1100 } } }

/-- `scanning` with K0 touched, its next hold at slot count `e`. -/
def touching (e : SlotCount) : State :=
  { scanning with
    keypad :=
      { scanning.keypad with
        keys := scanning.keypad.keys.set 0
          { KeyRec.initial with state := .touched, baseline := 1200, touchTime := some 990, nextHold := some e } } }

/-- A third pressed scan is PRESS and sets the touch time; the third low scan is RELEASE; the stuck limit forces it. -/
theorem test_witness_AcceptedScan_events :
    (run (.scanEnd (film 1)) (pressing .pressing2 none)).keypad.keys[(0 : Fin 24)].touchTime = some 1000 ∧
      (run (.scanEnd (film 1)) (pressing .pressing2 none)).xmem.peek 0x502 = 1 ∧
      (run (.scanEnd (tab 24 fun _ => 1200)) (pressing .releasing2 (some 990))).xmem.peek 0x502 = 2 ∧
      (run (.scanEnd (film 1)) (pressing .touched (some (1000 - 3840)))).xmem.peek 0x502 = 3 ∧
      (run (.scanEnd (film 1)) (pressing .touched (some (1001 - 3840)))).xmem.peek 0x502 = 0 := by decide +kernel

/-- R137: the scan waits for a HOLD of its slot, and the HOLD of the coming slot waits for the scan. -/
theorem test_hold_and_scan_keep_their_order :
    (touching 1000).scanDue = none ∧ (run (.hold 0) (touching 1000)).scanDue = some 1000 ∧
      (converted (touching 1001)).due (touching 1001).keypad.keys[(0 : Fin 24)].nextHold = none ∧
      (run (.hold 0) (run (.scanEnd (film 1)) (converted (touching 1001)))).xmem.peek 0x502 = 4 := by decide +kernel

/-- R137: the HOLD of slot 1 waits while slot 0 still has its boundary, whose scan comes first. -/
theorem test_hold_waits_for_the_boundary :
    let s : State := converted { touching 65 with
      time := { slotCount := 64, started := true, boundaryTaken := false }
      keypad := { (touching 65).keypad with scan := none } }
    s.due (some 65) = none ∧ { s with time := { s.time with boundaryTaken := true } }.due (some 65) = some 65 := by
  decide +kernel

/-- A rebaseline of K0 and K1 for the slip in slot 3, whose next slot 4 is CHAINED and names slot 5, CHAINED too; K0 has
`count` scans of its calibration, K1 has finished. -/
def rebaselining (count : Nat) (stop : Bool) : State :=
  { scanning with
    engine := { scanning.engine with keypadSlot := some 3 }
    xmem :=
      ((scanning.xmem.partWrite 0x1C0 [3, 8, 0, 4]).partWrite 0x200 [2, 2, 0, 5]).partWrite 0x240 [2, 2, 0, 255]
    keypad :=
      { scanning.keypad with
        rebaseline := some 3, stopPending := stop
        keys := scanning.keypad.keys.set 0
          { KeyRec.initial with state := .calibrating, baseline := 1100, calCount := count, calSum := 8400 } } }

/-- At the eighth scan the slip is OK with the mask 3 and slot 4 POSTED; before it the slip goes on; a stop completes it
with STOPPED and the mask 2, and breaks the whole chain. -/
theorem test_witness_Scan_rebaseline :
    (rebaselining 7 false).scanDue = some 1000 ∧ (rebaselining 7 false).engine.served = true ∧
      (run (.scanEnd (film 1)) (rebaselining 7 false)).xmem.peek 0x1C0 = 5 ∧
      (run (.scanEnd (film 1)) (rebaselining 7 false)).xmem.peek 0x1E0 = 3 ∧
      (run (.scanEnd (film 1)) (rebaselining 7 false)).xmem.peek 0x200 = 1 ∧
      (run (.scanEnd (film 1)) (rebaselining 6 false)).xmem.peek 0x1C0 = 3 ∧
      (run (.scanEnd (film 3)) (rebaselining 7 true)).xmem.peek 0x1E0 = 2 := by decide +kernel

theorem test_chain_breaks_to_its_end :
    (run (.scanEnd (film 1)) (rebaselining 7 true)).xmem.peek 0x1C6 = 8 ∧
      (run (.scanEnd (film 1)) (rebaselining 7 true)).xmem.peek 0x206 = 10 ∧
      (run (.scanEnd (film 1)) (rebaselining 7 true)).xmem.peek 0x246 = 10 ∧
      (run (.scanEnd (film 1)) (rebaselining 7 true)).xmem.peek 0x260 = 3 := by decide +kernel

/-- A queue that holds `n` entries, with the gap count `gap`, in rail state `r`; every key's next hold, and the hold of
every chord, is now. -/
def queued (r : RailState) (n : Half) (gap : Nat) : State :=
  { rail r with
    keypad :=
      { Keypad.initial with
        writeCounter := n, gap := gap
        keys := tab 24 fun _ => { KeyRec.initial with state := .touched, nextHold := some 1000 }
        chords := tab 4 fun _ => { fired := false, holdEnd := some 1000 } } }

theorem shared_queued (r : RailState) (n : Half) (gap : Nat) : shared (queued r n gap) := ⟨rfl, rfl, rfl⟩

theorem test_witness_HoldEventIsOffered :
    shared (queued .running 32 0) ∧
      (queued .running 32 0).due (queued .running 32 0).keypad.keys[(7 : Fin 24)].nextHold = some 1000 ∧
      ((queued .running 32 0).keypad.writeCounter - (queued .running 32 0).keypad.readCounter).toNat = 32 ∧
      (run (.hold 7) (queued .running 32 0)).keypad.gap = 1 ∧
      (run (.hold 7) (queued .running 31 0)).keypad.writeCounter = 32 ∧
      (run (.hold 7) (queued .running 30 5)).keypad.writeCounter = 32 ∧
      (run (.hold 7) (queued .running 31 5)).keypad.gap = 1 ∧
      (run (.hold 7) (queued .off 0 0)).keypad.writeCounter = 0 :=
  ⟨shared_queued _ _ _, by decide +kernel⟩

theorem test_witness_ChordFires :
    shared (queued .lockout 0 0) ∧
      (queued .lockout 0 0).due (queued .lockout 0 0).keypad.chords[(0 : Fin 4)].holdEnd = some 1000 ∧
      (queued .lockout 0 0).keypad.chords[(0 : Fin 4)].fired = false ∧ (queued .lockout 0 0).rail.state = .lockout ∧
      (run (.chord 0) (queued .lockout 0 0)).rail.state = .warming ∧
      (run (.chord 1) (queued .lockout 0 0)).rail.state = .lockout ∧
      (run (.chord 0) (queued .running 31 0)).keypad.writeCounter = 32 :=
  ⟨shared_queued _ _ _, by decide +kernel⟩

/-- With 32 entries a read counter of 32 is taken, 33 is clamped, and a gap goes once there is room. -/
theorem test_witness_ReadCounterIsTakenOrClamped :
    shared (queued .running 32 0) ∧ (run (.keyReadCounter 32) (queued .running 32 0)).keypad.readCounter = 32 ∧
      (run (.keyReadCounter 33) (queued .running 40 0)).keypad.readCounter = 33 ∧
      (run (.keyReadCounter 41) (queued .running 40 0)).keypad.readCounter = 40 ∧
      (run (.keyReadCounter 0) (queued .running 32 5)).keypad.gap = 5 ∧
      (run (.keyReadCounter 1) (queued .running 32 5)).keypad.gap = 0 :=
  ⟨shared_queued _ _ _, by decide +kernel⟩

/-- A READ frame open at the last address, 0xBFF. -/
def reading : State := run (.readAddressComplete 0x0B 0xFF) (ready 1000)

theorem test_witness_ReadFrameReturnsTheSnapshot :
    (ready 1000).xmem.wf = true ∧ reading.xmem.wf = true ∧ reading.xmem.frame.covered = some 0xBFF ∧
      (run (.read 1) reading).xmem.range = false ∧ (run (.read 2) reading).xmem.range = true := by decide +kernel

/-- R150: a READ frame cut off after its command byte, or after one address byte, begins a new record, and MISO shifts
zeros. -/
theorem test_witness_ReadFrame_cut_off :
    (ready 1000).xmem.frame.covered = none ∧ (run (.read 0) (ready 1000)).xmem.frame.command = some .read ∧
      (run (.read 1) (ready 1000)).xmem.frame.addressBytes = 1 ∧ (run (.read 1) (ready 1000)).xmem.miso = [0, 0] ∧
      (run (.read 1) (run (.write [0x0B, 0xFF, 7]) (ready 1000))).xmem.frame.buffer = [] := by decide +kernel

/-- One byte at the last staging address lands, two bytes run past the memory, and a byte of the live page is refused. -/
theorem test_witness_WriteFrameIsJudgedThenLanded :
    shared (ready 1000) ∧
      (run (.write [0x0B, 0xFF, 7, 7]) (ready 1000)).xmem.peek 0xBFF = 7 ∧
      (run (.write [0x0B, 0xFF, 7, 7]) (ready 1000)).xmem.range = true ∧
      (run (.write [0x00, 0x40, 7]) (ready 1000)).xmem.refused = true :=
  ⟨shared_ready _, by decide +kernel⟩

/-- The table of R156 at its edges: action words; the owner byte and the body of a TAKEN slot, of a FREE one and of one
that is DONE; the staging area held and not; bytes that only the part writes. -/
theorem test_witness_WriteFrame_table :
    let taken := (ready 1000).xmem.partWrite 0x1C0 [3]
    let s : State := { ready 1000 with xmem := taken.partWrite 0x200 [5] }
    (List.range 0x100).filter (fun a => s.accepts a 7) = [0x0E, 0x0F, 0x10, 0x11, 0x12, 0x16, 0x17] ∧
      s.accepts 0x1C0 4 = true ∧ s.accepts 0x1C0 0 = false ∧ s.accepts 0x1C1 7 = false ∧ s.accepts 0x1FF 7 = false ∧
      s.accepts 0x200 1 = true ∧ s.accepts 0x200 2 = false ∧ s.accepts 0x201 7 = true ∧ s.accepts 0x4FF 7 = true ∧
      s.accepts 0x500 7 = false ∧ s.accepts 0x7FF 7 = false ∧ s.accepts 0x800 7 = true ∧ s.accepts 0xBFF 7 = true ∧
      s.accepts 0xC00 7 = false ∧ programming.accepts 0x800 7 = false ∧ programming.accepts 0xBFF 7 = false := by
  decide +kernel

/-- The guard itself refuses the body of a TAKEN slot, the staging area while it is held, and a part-owned byte, and takes
an action word. -/
theorem test_witness_WriteFrame_guard :
    (run (.write [0x01, 0xC1, 7]) { ready 1000 with xmem := (ready 1000).xmem.partWrite 0x1C0 [3] }).xmem.refused = true ∧
      (run (.write [0x08, 0x00, 7]) programming).xmem.refused = true ∧
      (run (.write [0x05, 0x00, 7]) (ready 1000)).xmem.refused = true ∧
      (run (.write [0x00, 0x12, 7]) (ready 1000)).xmem.refused = false := by decide +kernel

theorem test_witness_BeforeReadyEverythingIsRefused :
    State.reset.xmem.wf = true ∧ State.reset.xmem.ready = false ∧
      (0x0B : Byte).toNat * 256 + (0xFF : Byte).toNat < memorySize := by decide +kernel

theorem test_witness_StatusAndUnknownFrames :
    (ready 1000).xmem.wf = true ∧ (Instr.unknownCommand 0x00 0).wellFormed = true := by decide +kernel

theorem test_witness_ClearFrameRaisesClearing :
    shared (watch .watching) ∧ (watch .watching).mon.armed = Profile.watchdogArmed factoryImage :=
  ⟨shared_watch _, by decide +kernel⟩

/-- R121 at a clearing: the factory profile arms a DORMANT watchdog of a RUNNING rail, into GRACE or, while HSLEEP is
asserted, into PAUSED; elsewhere the flag alone changes; a profile that does not arm stops a running one. -/
theorem test_witness_Clear_armed :
    (rail .running).mon.armed ≠ Profile.watchdogArmed factoryImage ∧
      (run (.clear 0) (rail .running)).mon.watchdog = .grace ∧
      (run (.clear 0) { rail .running with mon := { Monitor.initial with hsleep := true } }).mon.watchdog = .paused ∧
      (run (.clear 0) (rail .off)).mon.watchdog = .dormant ∧ (run (.clear 0) (rail .off)).mon.armed = true ∧
      (run (.clear 0)
        { watch .watching with
          store := { (ready 0).store with active := some (factoryImage.set 0x100 0) } }).mon.watchdog = .dormant := by
  decide +kernel

theorem test_witness_AttentionWordsAreDelivered : shared (ready 1000) := shared_ready _

/-- The part with slot 3's owner byte at `o`. -/
def owned (o : Byte) : State := { ready 1000 with xmem := (ready 1000).xmem.partWrite 0x1C0 [o] }

theorem shared_owned : shared (owned 3) ∧ shared (owned 1) ∧ shared (owned 5) :=
  ⟨⟨rfl, by decide +kernel⟩, ⟨rfl, by decide +kernel⟩, ⟨rfl, by decide +kernel⟩⟩

/-- Allowed: FREE to CHAINED, POSTED and DONE to FREE, TAKEN to STOPREQ. Refused: TAKEN to FREE, DONE to CHAINED. -/
theorem test_witness_OwnerBytesFollowTheTransitions :
    (Instr.slipChain 3, (2 : Byte)) ∈
        [(Instr.slipChain 3, (2 : Byte)), (.slipWithdraw 3, 0), (.slipFree 3, 0), (.slipStopreq 3, 4)] ∧
      (run (.slipChain 3) (owned 0)).xmem.peek 0x1C0 = 2 ∧ (run (.slipWithdraw 3) (owned 1)).xmem.peek 0x1C0 = 0 ∧
      (run (.slipFree 3) (owned 5)).xmem.peek 0x1C0 = 0 ∧ (run (.slipStopreq 3) (owned 3)).xmem.peek 0x1C0 = 4 ∧
      (run (.slipFree 3) (owned 3)).xmem.refused = true ∧ (run (.slipChain 3) (owned 5)).xmem.refused = true := by
  decide +kernel

theorem test_witness_PostedSlotIsTakenInTurn :
    (owned 5).takesNow 3 = true ∧ (owned 0).takesNow 3 = true ∧ (owned 3).xmem.peek (slotAddr 3) = 3 ∧
      { owned 5 with engine := { Engine.initial with served := true } }.engine.served = true := by decide +kernel

/-- S2 at priority 1 and S9 at priority 4, which counts as 3, are POSTED. -/
def posted : State := { ready 1000 with xmem := ((ready 1000).xmem.partWrite 0x180 [1, 0, 1]).partWrite 0x340 [1, 0, 4] }

theorem test_witness_PostedSlot_first :
    posted.firstPosted 9 ∧ (run (.slotStart true false 15) posted).engine.lastServed = 9 ∧
      (run (.slotStart true false 15) posted).xmem.peek 0x180 = 1 := by
  refine ⟨⟨by decide +kernel, ?_⟩, by decide +kernel⟩
  intro k; fin_cases k <;> decide +kernel

/-- What the statements about slips taken at once share. -/
theorem test_witness_takesNow :
    shared (rail .running) ∧ (rail .running).takesNow head.slot = true ∧ (rail .off).takesNow head.slot = true :=
  ⟨shared_rail _, by decide +kernel⟩

/-- Zone 2 and setpoint 60.0 °C are the last taken as they are, fan 1 and floor 100 likewise. -/
theorem test_witness_ZoneTargetAndFanFloorSlips :
    (run (.setZoneTarget head 2 1 600) (rail .running)).climate.zones[(2 : Fin 3)].override = some 600 ∧
      (run (.setZoneTarget head 2 1 601) (rail .running)).climate.zones[(2 : Fin 3)].override = some 600 ∧
      (run (.setZoneTarget head 3 1 600) (rail .running)).xmem.peek 0x1C6 = 3 ∧
      (run (.setFanFloor head 1 100) (rail .running)).air.fans[(1 : Fin 2)].floor = some 100 ∧
      (run (.setFanFloor head 2 100) (rail .running)).xmem.peek 0x1C6 = 3 := by decide +kernel

theorem test_witness_RequestStopBeginsAnOrderlyStop :
    (rail .running).rail.state = .running ∧ (rail .off).rail.state ≠ .running ∧
      (run (.requestStop head 86400) (rail .running)).rail.stopRestart = 86400 ∧
      (run (.requestStop head 86401) (rail .running)).rail.stopRestart = 86400 := by decide +kernel

theorem test_witness_RequestRestartResetsOrCuts :
    (run (.requestRestart head 1) (rail .running)).rail.state = .resetting ∧
      (run (.requestRestart head 2) (rail .running)).rail.state = .cooldown ∧
      (run (.requestRestart head 3) (rail .running)).xmem.peek 0x1C6 = 3 ∧
      (run (.requestRestart head 1) (rail .off)).xmem.peek 0x1C6 = 6 := by decide +kernel

/-- Stage 1 of 3,600 s is taken and 3,601 s clamped; the factory profile does not permit DISARM. -/
theorem test_witness_WatchdogSlipArmsAndDisarms :
    (run (.setWatchdog head 1 3600 600 3599) (rail .running)).mon.runtimeSet = { s1 := 3600, s2 := 600, early := 3599 } ∧
      (run (.setWatchdog head 1 3601 601 3600) (rail .running)).mon.runtimeSet = { s1 := 3600, s2 := 600, early := 3599 } ∧
      (run (.setWatchdog head 1 30 10 0) (rail .running)).mon.watchdog = .grace ∧
      (run (.setWatchdog head 2 30 10 0) (rail .running)).xmem.peek 0x1C6 = 5 := by decide +kernel

theorem test_witness_ReadProfileCopiesTheImageOut :
    factoryImage.length = 1024 ∧ (rail .running).store.commit = .idle ∧ programming.store.commit ≠ .idle ∧
      programming.takesNow head.slot = true ∧ (Instr.unknownKind head 0).wellFormed = true ∧
      (Instr.unknownKind head 11).wellFormed = true := by decide +kernel

theorem test_witness_ProbeSlipsWaitForABoundary :
    (Instr.probeAirflow head, ProbeOrigin.probeAirflow, (3 : Byte)) ∈
        [(Instr.probeAirflow head, ProbeOrigin.probeAirflow, (3 : Byte)),
          (.resetFilterReference head, .resetFilterReference, 4)] ∧
      (rail .running).air.probe.phase = .idle ∧ probing.air.probe.phase ≠ .idle ∧
      probing.takesNow head.slot = true := by decide +kernel

/-- The same state with its engine idle. -/
def idle (s : State) : State := { s with engine := { s.engine with served := false } }

/-- A scan end, a boundary and an activation take no slip where the engine is idle too: nothing is POSTED, and no CHAINED
slot is promoted, since no lasting slip ends or the one that ends names none. -/
theorem test_witness_takesNone_scan :
    (idle scanning).scanDue = some 1000 ∧ (idle scanning).engine.served = false ∧
      (idle scanning).scanTakesNone (fun _ => false) ∧
      (idle scanning).scanTakesNone ((idle scanning).finishesKey factoryImage) :=
  have h : (idle scanning).nonePosted := by unfold State.nonePosted; decide +kernel
  ⟨by decide +kernel, rfl, .inr ⟨h, .inl rfl⟩, .inr ⟨h, .inl rfl⟩⟩

/-- Slot 3 chains slot 4: at the seventh scan the rebaseline goes on, at the eighth it promotes slot 4. -/
theorem test_witness_takesNone_rebaseline :
    (idle (rebaselining 6 false)).scanTakesNone ((idle (rebaselining 6 false)).finishesKey factoryImage) ∧
      (idle (rebaselining 7 false)).finishesKey factoryImage 0 = true ∧
      ¬(idle (rebaselining 7 false)).unchained (some 3) :=
  ⟨.inr ⟨by unfold State.nonePosted; decide +kernel, .inr (.inl (by decide +kernel))⟩, by decide +kernel,
    fun h => absurd (h 3 rfl 4 (by decide) (by decide +kernel)) (by decide +kernel)⟩

theorem test_witness_takesNone_boundary :
    (idle (measuring .measure 6000 60000)).boundaryDue = some 64 ∧
      (idle (measuring .measure 6000 60000)).boundaryTakesNone ∧
      (run .windowBoundary (idle (measuring .measure 6000 60000))).air.clogIndex = 102 :=
  ⟨by decide +kernel, .inr ⟨by unfold State.nonePosted; decide +kernel, .inr (.inr (by rintro n ⟨⟩))⟩, by decide +kernel⟩

theorem test_witness_takesNone_activation :
    (idle (rebaselined 3)).boundaryDue = some 64 ∧ (idle (rebaselined 3)).store.commit = .armed ∧
      (idle (rebaselined 3)).activationTakesNone factoryImage factoryImage :=
  ⟨by decide +kernel, rfl,
    .inr ⟨by unfold State.nonePosted; decide +kernel, .inl (by decide +kernel), by unfold State.unchained; decide +kernel,
      .inr (.inl (by decide +kernel))⟩⟩

/-- An empty mask is BAD_PARAM; K23 alone begins a rebaseline. -/
theorem test_witness_RebaselineSlipCalibratesTheKeys :
    (run (.rebaselineKeys head 0) (queued .running 0 0)).xmem.peek 0x1C6 = 3 ∧
      (run (.rebaselineKeys head 0x800000) (queued .running 0 0)).engine.keypadSlot = some 3 ∧
      (run (.rebaselineKeys head 0x800000) (queued .running 0 0)).keypad.keys[(23 : Fin 24)].state = .calibrating ∧
      (queued .running 0 0).takesNow head.slot = true := by decide +kernel

/-- A rebaseline in flight makes the slip BUSY (4 of section 10.4), also with an empty mask. -/
theorem test_witness_Rebaseline_busy :
    let q := queued .running 0 0
    let s : State := { q with keypad := { q.keypad with rebaseline := some 1 } }
    s.takesNow head.slot = true ∧ s.store.active = some factoryImage ∧ s.keypad.rebaseline.isSome = true ∧
      (run (.rebaselineKeys head 2) s).xmem.peek 0x1C6 = 4 ∧ (run (.rebaselineKeys head 0) s).xmem.peek 0x1C6 = 4 ∧
      (run (.rebaselineKeys head 2) s).keypad.rebaseline = some 1 := by
  refine ⟨by decide +kernel, rfl, by decide +kernel⟩

/-- K0 and K1 of `queued` are touched: REBASELINE KEYS offers RELEASE_FORCED (3) for K0 and then for K1. With K0 as the
power key the override stops, and the chord of K0 and K1 is ARMED. -/
theorem test_witness_Rebaseline_touched :
    let p := ((factoryImage.set 0x127 0).set 0x13A 0).set 0x13B 1
    let q := queued .running 0 0
    let s : State :=
      { q with
        store := { q.store with active := some p }
        rail := { q.rail with override := some 1500 }
        keypad := { q.keypad with chords := tab 4 fun _ => { fired := true, holdEnd := none } } }
    let t := run (.rebaselineKeys head 3) s
    s.takesNow head.slot = true ∧ s.keypad.rebaseline = none ∧ Profile.keyEnabled p 0 = true ∧
      Profile.keyEnabled p 1 = true ∧ s.keypad.keys[(0 : Fin 24)].state.isTouched = true ∧
      (t.xmem.peek 0x502, t.xmem.peek 0x503, t.xmem.peek 0x50A, t.xmem.peek 0x50B) = (3, 0, 3, 1) ∧
      t.keypad.writeCounter = 2 ∧ t.rail.override = none ∧ t.keypad.chords[(0 : Fin 4)].fired = false := by
  decide +kernel

/-- The part with the image `p` staged. -/
def staged (p : Image) : State := { rail .running with xmem := (rail .running).xmem.partWrite 0x800 p }

/-- Staging an image leaves the slip table, and so what the engine can take, as it is. -/
theorem takesNow_staged (p : Image) (n : Fin 16) : (staged p).takesNow n = (rail .running).takesNow n := by
  have ho : ∀ (m : Nat) (o : Owner), m < 16 → (staged p).xmem.ownerIs m o = (rail .running).xmem.ownerIs m o := by
    intro m o hm
    unfold Exchange.ownerIs staged
    rw [Exchange.peek_partWrite_of_not_mem rfl 0x800 p (Or.inl (by unfold slotAddr; omega))]
  have hr : (staged p).xmem.ready = (rail .running).xmem.ready := Exchange.partWriteCells_ready _ _
  unfold State.takesNow
  simp only [hr, ho _ _ n.isLt, ho _ _ (Fin.isLt _)]
  rfl

theorem staged_sound (p : Image) (hp : p.length = 1024) :
    (staged p).xmem.wf = true ∧ (staged p).takesNow head.slot = true ∧ (staged p).store.commit = .idle ∧
      (staged p).xmem.staged = p :=
  ⟨Exchange.wf_partWrite rfl 0x800 p, (takesNow_staged p _).trans (by decide +kernel), rfl,
    Exchange.staged_partWrite rfl hp⟩

/-- The factory profile's image passes every check. -/
theorem test_witness_CommitSlipValidatesTheStagedImage :
    ∃ s : State, s.store.active = some factoryImage ∧ s.xmem.wf = true ∧ s.takesNow head.slot = true ∧
      s.store.commit = .idle ∧ validImage s.xmem.staged = true :=
  have h := staged_sound factoryImage factoryImage_length
  ⟨staged factoryImage, rfl, h.1, h.2.1, h.2.2.1, h.2.2.2.symm ▸ factoryImage_valid⟩

/-- A staging area of zeros fails a check: if its CRC is right, its layout version is not. -/
theorem test_witness_CommitSlipValidatesTheStagedImage_invalid :
    (rail .running).takesNow head.slot = true ∧ (rail .running).store.commit = .idle ∧
      ∃ r, imageFailure (rail .running).xmem.staged = some r := by
  have h : validImage (rail .running).xmem.staged = false := not_validImage_of_version (by decide +kernel)
  exact ⟨by decide +kernel, rfl, Option.isSome_iff_exists.mp (by simpa [validImage] using h)⟩

/-- R177 at its edges: an IN polarity of 2, a chord of one key, a zone twice in the priority order, and a release threshold
equal to the touch threshold are refused, each at its own field; the factory image passes checks 2 to 5. -/
theorem test_checks_of_an_image :
    fieldFails (factoryImage.set 0x0EC 2) 0x0EC = true ∧ fieldFails (factoryImage.set 0x13A 1) 0x13A = true ∧
      ((crossConditions (factoryImage.set 0x081 (factoryImage.getD 0x080 0))).find? fun c => !c.2) = some (0x080, false) ∧
      ((crossConditions ((factoryImage.set 0x12A (factoryImage.getD 0x128 0)).set 0x12B
        (factoryImage.getD 0x129 0))).find? fun c => !c.2) = some (0x12A, false) ∧
      u8 factoryImage 0 = 3 ∧ u16 factoryImage 2 = 1024 ∧
      ((List.range 1024).all fun a => !fieldFails factoryImage a) = true ∧
      ((crossConditions factoryImage).all fun c => c.2) = true := by decide +kernel

/-- The service record is being written for a slip in slot 3, since 6 slots before this one. -/
def writing : State :=
  { owned 3 with
    store := { (ready 0).store with service := .writing, serviceRf := 98, writeBegan := some 994 }
    engine := { Engine.initial with served := true, airSlot := some 3 } }

theorem test_witness_ServiceWriteEndTakesTheReference :
    writing.store.active = some factoryImage ∧ writing.xmem.wf = true ∧ writing.writeDue = some 1000 ∧
      writing.engine.served = true ∧ writing.engine.airSlot = some 3 :=
  ⟨rfl, by decide +kernel⟩

theorem test_witness_takesNone_service_write :
    (idle writing).writeDue = some 1000 ∧ (idle writing).nonePosted ∧ (idle writing).unchained (idle writing).engine.airSlot :=
  ⟨by decide +kernel, by unfold State.nonePosted; decide +kernel, by unfold State.unchained; decide +kernel⟩

/-- R181: the write ends at one of the first 6 slot starts after it began, not at its own and not at the 7th. -/
theorem test_service_write_ends_within_6_slots :
    let began (b : SlotCount) : State := { writing with store := { writing.store with writeBegan := some b } }
    (began 999).writeDue = some 1000 ∧ (began 993).writeDue = none ∧ (began 1000).writeDue = none ∧
      (converted (began 1000)).writeDue = some 1001 ∧ (run .serviceWriteEnd (began 993)).store.service = .writing := by
  decide +kernel

/-- The same with an idle engine and slot 4, SET FAN FLOOR, CHAINED after slot 3: it is taken in the event. -/
def writingChained : State :=
  { writing with
    engine := { Engine.initial with airSlot := some 3 }
    xmem := (writing.xmem.partWrite 0x1C0 [3, 4, 0, 4]).partWrite 0x200 [2, 2, 0, 255] }

theorem test_witness_ServiceWriteEnd_takes :
    writingChained.engine.served = false ∧ writingChained.engine.airSlot = some 3 ∧
      (writingChained.xmem.peek (slotAddr 3 + 3)).toNat = 4 ∧ writingChained.xmem.ownerIs 4 .chained = true ∧
      (run .serviceWriteEnd writingChained).engine.lastServed = 4 ∧
      (run .serviceWriteEnd writingChained).xmem.peek 0x200 = 5 := by decide +kernel

theorem test_witness_ServiceWriteEnd_none_posted : writingChained.nonePosted := by
  intro n; fin_cases n <;> decide +kernel

theorem test_witness_EventsOutOfTheirTimeDoNothing :
    selfTimed (.hold 0) = true ∧ fallsNow (ready 1000) (.hold 0) = false ∧ selfTimed .windowBoundary = true ∧
      fallsNow (ready 1000) .windowBoundary = false := by decide +kernel

/-- A slot start falls while a READ frame over the header is open: its slot count is held. -/
theorem test_witness_OpenReadFrameKeepsItsSnapshot :
    let s := run (.readAddressComplete 0 0) (ready 1000)
    s.xmem.wf = true ∧ s.xmem.frame.covered.isSome = true ∧ endsRead (.slotStart true false 15) = false ∧
      Memory.read (run (.slotStart true false 15) s).xmem.mem 0x08 = Memory.read s.xmem.mem 0x08 ∧
      (run (.slotStart true false 15) s).xmem.peek 0x08 = 0xE9 := by decide +kernel

/-- A part in slot 0 with the factory profile, and a slot start and a boundary waiting. -/
def loadedPart : State :=
  { ready 0 with
    xmem := ((ready 0).xmem.partWrite 0x04 [3]).partWrite 0x0B2 [1]
    pending := [.slotStart false false 15, .windowBoundary] }

/-- Every invariant holds in it, and a step answers. -/
theorem test_witness_invariants :
    loadedPart.sound = true ∧ (match step loadedPart with | .next t => t.time.slotCount == 1 | _ => false) = true := by
  have h : loadedPart.profileSound = true := by
    unfold State.profileSound
    rw [show loadedPart.store.active = some factoryImage from rfl]
    simp only [factoryImage_valid, Bool.true_and]
    decide +kernel
  refine ⟨?_, by decide +kernel⟩
  unfold State.sound
  rw [h]
  decide +kernel

end Sys2Proof.Tests
end

