-- ==== Sys2Proof/Proofs/SensorPage.lean ====
section
/-!
SUPPORT. The channel entries of the live page (R14) as an invariant of the exchange memory: a part write elsewhere keeps
an entry, so the deliveries of a conversion end (R9), which write the fog state, Z2's setpoint, the rail and the restart
records, leave the entry of the converted channel as the conversion wrote it.
-/

namespace Sys2Proof.Machine

/-! ### One entry of the live page -/

/-- The exchange memory is canonical and shows the five bytes `bs` as the entry of channel `k`. -/
def Exchange.holdsEntry (k : Fin 6) (bs : List Byte) (x : Exchange) : Prop :=
  x.wf = true ∧ bs.length = 5 ∧ x.shows (0x040 + 8 * k.val) bs

theorem Exchange.holdsEntry_partWrite_entry {x : Exchange} (h : x.wf = true) (k : Fin 6) {bs : List Byte}
    (hl : bs.length = 5) : (x.partWrite (0x040 + 8 * k.val) bs).holdsEntry k bs :=
  ⟨Exchange.wf_partWrite h _ _, hl, Exchange.shows_partWrite h _ _ (by simp only [memorySize]; omega)⟩

/-- The six entries lie within 0x040 to 0x06F: a part write outside that range keeps them. -/
theorem Exchange.holdsEntry_partWrite {k : Fin 6} {bs : List Byte} {x : Exchange} (h : x.holdsEntry k bs) (b : Nat)
    (cs : List Byte) (hb : b + cs.length ≤ 0x040 ∨ 0x070 ≤ b) : (x.partWrite b cs).holdsEntry k bs := by
  obtain ⟨hw, hl, hs⟩ := h
  refine ⟨Exchange.wf_partWrite hw _ _, hl, fun i hi => ?_⟩
  rw [Exchange.peek_partWrite_of_not_mem hw _ _ (by omega)]
  exact hs i hi

theorem Exchange.holdsEntry_raise {k : Fin 6} {bs : List Byte} {x : Exchange} (h : x.holdsEntry k bs) (c : Cause) :
    (x.raise c).holdsEntry k bs := by
  have hs : Exchange.holdsEntry k bs { x with summary := x.summary ||| c.bit } := h
  exact Exchange.holdsEntry_partWrite hs _ _ (.inl (by simp))

/-- A part write changes bytes of its own range alone and raises nothing. -/
theorem Exchange.partWrote_partWrite {x : Exchange} (h : x.wf = true) {rs : List (Nat × Nat)} (b : Nat)
    (bs : List Byte) (hrs : (b, bs.length) ∈ rs) : x.partWrote rs 0 (x.partWrite b bs) := by
  constructor
  · simpa [Exchange.partWrite] using Exchange.partWriteCells_eq (cellsAt b bs) x
  · intro a _ ha
    have hout := List.all_eq_true.mp ha _ hrs
    exact Exchange.peek_partWrite_of_not_mem h b bs (by simpa using hout)

/-! ### The deliveries of a conversion end keep every entry -/

section deliveries
variable {k : Fin 6} {bs : List Byte} {s : State} (h : s.xmem.holdsEntry k bs)
include h

theorem State.publishWatchdog_holdsEntry (now : SlotCount) : (s.publishWatchdog now).xmem.holdsEntry k bs :=
  Exchange.holdsEntry_partWrite (Exchange.holdsEntry_partWrite h _ _ (.inl (by simp))) _ _ (.inr (by simp))

theorem State.setWait_holdsEntry (w : WaitReason) : (s.setWait w).xmem.holdsEntry k bs :=
  Exchange.holdsEntry_partWrite h _ _ (.inr (by simp))

theorem State.setRestartPending_holdsEntry (b : Bool) : (s.setRestartPending b).xmem.holdsEntry k bs :=
  Exchange.holdsEntry_partWrite h _ _ (.inr (by simp))

theorem State.addRecord_holdsEntry (now : SlotCount) (cause : RestartCause) (action : RecordAction) (i : Nat)
    (before : RailState) : (s.addRecord now cause action i before).xmem.holdsEntry k bs :=
  Exchange.holdsEntry_raise
    (Exchange.holdsEntry_partWrite (Exchange.holdsEntry_partWrite h _ _ (.inr (by simp))) _ _ (.inl (by simp))) _

theorem State.setRail_holdsEntry (now : SlotCount) (new : RailState) : (s.setRail now new).xmem.holdsEntry k bs := by
  have hstate : (s.xmem.partWrite 0x19 [new.code]).holdsEntry k bs :=
    Exchange.holdsEntry_partWrite h _ _ (.inl (by simp))
  unfold State.setRail
  apply State.publishWatchdog_holdsEntry
  rw [State.mapMon_xmem]
  split
  · apply State.setWait_holdsEntry
    split <;> exact hstate
  · split <;> exact hstate

theorem State.enterCooldown_holdsEntry (now : SlotCount) (restart : Bool) (off : Nat) :
    (s.enterCooldown now restart off).xmem.holdsEntry k bs := by
  have hcut : s.cutLines.xmem.holdsEntry k bs := h
  exact State.setRestartPending_holdsEntry (State.setRail_holdsEntry hcut now .cooldown) restart

theorem State.judgeOvertemp_holdsEntry (now : SlotCount) (p : Image) :
    (s.judgeOvertemp now p).xmem.holdsEntry k bs := by
  unfold State.judgeOvertemp
  split
  · split
    · exact State.enterCooldown_holdsEntry (State.addRecord_holdsEntry h _ _ _ _ _) _ _ _
    · exact h
  · exact h

theorem State.fogNotice_holdsEntry (p : Image) : (s.fogNotice p).xmem.holdsEntry k bs := by
  unfold State.fogNotice
  split
  · exact h
  · dsimp only
    split
    · exact Exchange.holdsEntry_partWrite h _ _ (.inr (by simp))
    · exact h

theorem State.judgeFog_holdsEntry (p : Image) : (s.judgeFog p).xmem.holdsEntry k bs := by
  have hfog (f : Bool) : (s.mapKeypad fun u => { u with fog := f }).publishFog.xmem.holdsEntry k bs :=
    Exchange.holdsEntry_partWrite h _ _ (.inr (by simp))
  have hraise {u : State} (hu : u.xmem.holdsEntry k bs) (b : Bool) :
      (if b then u.raise .fog else u).xmem.holdsEntry k bs := by
    split
    · exact Exchange.holdsEntry_raise hu _
    · exact hu
  unfold State.judgeFog
  dsimp only
  split
  · exact State.fogNotice_holdsEntry (hraise (hfog _) _) p
  · exact hraise (hfog _) _

theorem State.deliverTemp_holdsEntry (now : SlotCount) (p : Image) (j : Fin 6) :
    (s.deliverTemp now p j).xmem.holdsEntry k bs := by
  unfold State.deliverTemp
  split
  · exact State.judgeFog_holdsEntry h p
  · split
    · exact State.judgeOvertemp_holdsEntry h now p
    · exact h

end deliveries

/-- DISPLAY and OUTSIDE are delivered to no controller at their conversion end (R9). -/
theorem State.deliverTemp_of_unheard {k : Fin 6} (hk : k = 3 ∨ k = 5) (now : SlotCount) (p : Image) (s : State) :
    s.deliverTemp now p k = s := by
  rcases hk with rfl | rfl <;> rfl

end Sys2Proof.Machine
end

