-- ==== Sys2Proof/Proofs/Conversion.lean ====
section
/-!
SUPPORT. What a conversion end does in its slot: the rules for a channel record (R3, R6, R7), the step of the channel,
and the state after the deliveries.
-/

namespace Sys2Proof.Machine

/-! ### The channel record -/

theorem faultCode_of_in_range {c : Nat} (h : 16 ≤ c ∧ c ≤ 4079) : faultCode c = false := by
  simp [faultCode, h.1, h.2]

theorem clampInt_eq_max_min {lo hi : Int} (h : lo ≤ hi) (x : Int) : clampInt lo hi x = max lo (min hi x) := by
  unfold clampInt
  split
  · omega
  · split <;> omega

/-- `v` agrees with the accepted value `a`, or with the pending value if one is held (R7). -/
def spikeAgrees (v a : Int) (pending : Option Int) : Bool :=
  (v - a).natAbs ≤ 50 ∨ pending.any fun q => (v - q).natAbs ≤ 50

/-- The spike rule as one choice: whichever comparison succeeds, `v` is accepted and nothing stays pending. -/
theorem spikeRule_eq (v a : Int) (pending : Option Int) :
    spikeRule v a pending = if spikeAgrees v a pending then (v, none) else (a, some v) := by
  by_cases ha : (v - a).natAbs ≤ 50
  · simp [spikeRule, spikeAgrees, within50, ha]
  · cases pending with
    | none => simp [spikeRule, spikeAgrees, within50, ha]
    | some q => simp [spikeRule, spikeAgrees, within50, ha]

section take
variable {r : Channel} {c : BitVec 12} (v : Int) (hc : 16 ≤ c.toNat ∧ c.toNat ≤ 4079) (hf : r.fault = false)
include hc hf

/-- R6: with no accepted value the converted one is accepted. -/
theorem Channel.take_of_accepted_none (ha : r.accepted = none) :
    r.take c v = { r with lastCode := some c, accepted := some v } := by
  simp [Channel.take, faultCode_of_in_range hc, hf, ha]

/-- R7: with an accepted value the spike rule decides. -/
theorem Channel.take_of_accepted_some {a : Int} (ha : r.accepted = some a) :
    r.take c v =
      { lastCode := some c, accepted := some (if spikeAgrees v a r.pendingValue then v else a),
        pendingValue := if spikeAgrees v a r.pendingValue then none else some v, fault := false } := by
  cases hagree : spikeAgrees v a r.pendingValue <;>
    simp [Channel.take, faultCode_of_in_range hc, hf, ha, spikeRule_eq, hagree]

end take

theorem Channel.entry_length (r : Channel) : r.entry.length = 5 := rfl

/-! ### The step -/

theorem State.conversionDue_of_slot {s : State} {k : Fin 6} (hstart : s.time.started = true)
    (hslot : s.time.slotCount.toNat % 64 = 4 + 8 * k.val) (hconv : s.sense.converted = false) :
    s.conversionDue k = true := by
  simp [State.conversionDue, State.slotNumber, hstart, hslot, hconv]

/-- In its slot a conversion end is the channel's step and the deliveries (R2, R9). -/
theorem exec_conversionEnd_of_due {s : State} {p : Image} {k : Fin 6} (hp : s.store.active = some p)
    (hdue : s.conversionDue k = true) (c : BitVec 12) :
    exec (.conversionEnd k c) s = .next ((s.takeCode p k c).deliverTemp s.time.slotCount p k) := by
  show execConversionEnd k c s = _
  simp only [execConversionEnd, hp, hdue, if_true]

/-- The channel's new record is its only trace in the sensing unit, with the flag of the slot's conversion. -/
theorem State.takeCode_sense (p : Image) (k : Fin 6) (c : BitVec 12) (s : State) :
    (s.takeCode p k c).sense =
      { s.sense with
        channels := s.sense.channels.set k (s.sense.channels[k].take c (convert p k c.toNat)), converted := true } := by
  unfold State.takeCode
  dsimp only
  split <;> simp

/-- A record without fault raises nothing: the step is the record and its entry. -/
theorem State.takeCode_of_no_fault {p : Image} {k : Fin 6} {c : BitVec 12} {s : State}
    (hf : (s.sense.channels[k].take c (convert p k c.toNat)).fault = false) :
    s.takeCode p k c =
      { s with
        sense := (s.takeCode p k c).sense
        xmem := s.xmem.partWrite (0x040 + 8 * k.val) (s.sense.channels[k].take c (convert p k c.toNat)).entry } := by
  rw [State.takeCode_sense]
  simp only [State.takeCode, hf, Bool.false_and]
  rfl

/-- What a conversion end leaves that gives channel `k` the record `r`, without fault: the record, the frame of the
sensing unit, the entry on the live page (R14), and, for a channel that no controller hears (R9), nothing else. -/
theorem exec_conversionEnd_of_no_fault {s : State} {p : Image} {k : Fin 6} {c : BitVec 12} {r : Channel}
    (hp : s.store.active = some p) (hw : s.xmem.wf = true) (hdue : s.conversionDue k = true)
    (hr : s.sense.channels[k].take c (convert p k c.toNat) = r) (hf : r.fault = false) :
    ∃ t, exec (.conversionEnd k c) s = .next t ∧
      t.sense.channels[k] = r ∧
      (∀ j : Fin 6, j ≠ k → t.sense.channels[j] = s.sense.channels[j]) ∧
      t.sense = { s.sense with channels := t.sense.channels, converted := t.sense.converted } ∧
      t.xmem.shows (0x040 + 8 * k.val) r.entry ∧
      (k = 3 ∨ k = 5 → t = { s with sense := t.sense, xmem := t.xmem } ∧
        s.xmem.partWrote [(0x0C, 2), (0x040 + 8 * k.val, 5)] 0 t.xmem) := by
  subst hr
  have hstep := State.takeCode_of_no_fault hf
  have hsense := State.takeCode_sense p k c s
  refine ⟨_, exec_conversionEnd_of_due hp hdue c, ?_, ?_, ?_, ?_, ?_⟩
  · simp [hsense]
  · intro j hj
    have hne : k.val ≠ j.val := fun e => hj (Fin.ext e.symm)
    simp [hsense, Vector.getElem_set_ne, hne]
  · simp [hsense]
  · have hentry : (s.takeCode p k c).xmem.holdsEntry k (s.sense.channels[k].take c (convert p k c.toNat)).entry := by
      rw [hstep]
      exact Exchange.holdsEntry_partWrite_entry hw k (Channel.entry_length _)
    exact (State.deliverTemp_holdsEntry hentry _ p k).2.2
  · intro hk
    rw [State.deliverTemp_of_unheard hk, hstep]
    exact ⟨rfl, Exchange.partWrote_partWrite hw _ _ (by simp [Channel.entry_length])⟩

end Sys2Proof.Machine
end

