-- ==== Sys2Proof/Proofs/TemperatureSensing.lean ====
section
/-!
The statements of the family on temperature sensing: R6 and R7 at a conversion end.
-/

namespace Sys2Proof.Proofs

open Sys2Proof.Machine

/-- Settles O14: the record that R6 gives, through the step of the channel. -/
theorem firstConversionIsAccepted : Obligations.FirstConversionIsAccepted := by
  intro s p k c hp hw hstart hslot hconv hc hf ha hpend
  have hr := Channel.take_of_accepted_none (convert p k c.toNat) hc hf ha
  obtain ⟨t, ht, hnew, hothers, hframe, hshows, hunheard⟩ :=
    exec_conversionEnd_of_no_fault hp hw (State.conversionDue_of_slot hstart hslot hconv) hr hf
  refine ⟨t, ht, ?_, hothers, hframe, ?_, hunheard⟩
  · rw [hnew, convert, clampInt_eq_max_min (by decide), hpend, hf]
  · rw [hnew]
    exact hshows

/-- Settles O15: the record that R7 gives, through the step of the channel. -/
theorem spikeRule : Obligations.SpikeRule := by
  intro s p k c a hp hw hstart hslot hconv hc hf ha
  have hr := Channel.take_of_accepted_some (convert p k c.toNat) hc hf ha
  obtain ⟨t, ht, hnew, hothers, hframe, hshows, hunheard⟩ :=
    exec_conversionEnd_of_no_fault hp hw (State.conversionDue_of_slot hstart hslot hconv) hr rfl
  refine ⟨t, ht, hnew, hothers, hframe, ?_, hunheard⟩
  rw [hnew]
  exact hshows

end Sys2Proof.Proofs
end

