-- ==== Sys2Proof/Proofs/PartWrites.lean ====
section
/-!
SUPPORT. What the parts' writes leave in exchange memory, in the terms of `Exchange.partWrote`: writes one after another
add up, a raise (R160) touches the header's summary and its cause alone, and the publication of the watchdog (R124)
touches its three bytes alone.
-/

namespace Sys2Proof.Machine

/-! ### Writes of the part, one after another -/

/-- Writes one after another change the ranges of both, and raise the causes of both. -/
theorem Exchange.partWrote_trans {x y z : Exchange} {rs : List (Nat × Nat)} {c d : BitVec 12}
    (hxy : x.partWrote rs c y) (hyz : y.partWrote rs d z) : x.partWrote rs (c ||| d) z := by
  obtain ⟨hy, hkeepy⟩ := hxy
  obtain ⟨hz, hkeepz⟩ := hyz
  constructor
  · rw [← BitVec.or_assoc]
    refine hz.trans ?_
    rw [hy]
  · intro a ha hout
    exact (hkeepz a ha hout).trans (hkeepy a ha hout)

/-! ### Raising a cause (R160) -/

/-- A raise sets its cause and writes the header's copy of the summary alone. -/
theorem Exchange.partWrote_raise {x : Exchange} (h : x.wf = true) {rs : List (Nat × Nat)} (c : Cause)
    (hrs : (0x0C, 2) ∈ rs) : x.partWrote rs c.bit (x.raise c) := by
  have hset : x.partWrote rs c.bit { x with summary := x.summary ||| c.bit } := ⟨rfl, fun _ _ _ => rfl⟩
  have hcopy := Exchange.partWrote_partWrite (x := { x with summary := x.summary ||| c.bit }) h 0x0C
    (le16 (x.summary ||| c.bit).toNat) hrs
  have hcause : c.bit ||| 0 = c.bit := BitVec.or_zero
  exact hcause ▸ Exchange.partWrote_trans hset hcopy

/-- After a raise the header shows the summary. -/
theorem Exchange.raise_shows_summary {x : Exchange} (h : x.wf = true) (c : Cause) :
    (x.raise c).shows 0x0C (le16 (x.raise c).summary.toNat) := by
  have hsum : (x.raise c).summary = x.summary ||| c.bit := Exchange.partWriteCells_summary _ _
  rw [hsum]
  exact Exchange.shows_partWrite (x := { x with summary := x.summary ||| c.bit }) h _ _ (by simp [memorySize])

/-- A raise leaves every byte but the header's copy of the summary as the blocks saw it. -/
theorem Exchange.peek_raise_of_not_mem {x : Exchange} (h : x.wf = true) (c : Cause) {a : Nat}
    (ha : a < 0x0C ∨ 0x0E ≤ a) : (x.raise c).peek a = x.peek a :=
  Exchange.peek_partWrite_of_not_mem (x := { x with summary := x.summary ||| c.bit }) h 0x0C _ (by simpa using ha)

/-- A raise leaves what the host sees of the watchdog. -/
theorem State.watchdogShown_raise {s : State} {now : SlotCount} (h : s.xmem.wf = true) (hs : s.watchdogShown now)
    (c : Cause) : (s.raise c).watchdogShown now := by
  obtain ⟨hcode, hleft⟩ := hs
  refine ⟨(Exchange.peek_raise_of_not_mem h c (by decide)).trans hcode, fun i hi => ?_⟩
  exact (Exchange.peek_raise_of_not_mem h c (by omega)).trans (hleft i hi)

/-! ### The publication of the watchdog (R124) -/

theorem State.publishWatchdog_wf (now : SlotCount) {s : State} (h : s.xmem.wf = true) :
    (s.publishWatchdog now).xmem.wf = true :=
  Exchange.wf_partWrite (Exchange.wf_partWrite h _ _) _ _

/-- The publication writes the watchdog state and the remaining seconds alone, and raises nothing. -/
theorem State.partWrote_publishWatchdog (now : SlotCount) {s : State} (h : s.xmem.wf = true)
    {rs : List (Nat × Nat)} (hcode : (0x1A, 1) ∈ rs) (hleft : (0x0B0, 2) ∈ rs) :
    s.xmem.partWrote rs 0 (s.publishWatchdog now).xmem :=
  Exchange.partWrote_trans (c := 0) (d := 0) (Exchange.partWrote_partWrite h 0x1A [s.mon.watchdog.code] hcode)
    (Exchange.partWrote_partWrite (Exchange.wf_partWrite h _ _) 0x0B0 (le16 (s.mon.remaining now)) hleft)

end Sys2Proof.Machine
end

