-- ==== Sys2Proof/Proofs/Liveness.lean ====
section
/-!
The statements of the family on liveness supervision and the restart ladder: R110 at the end of stage 1.
-/

namespace Sys2Proof.Machine

/-- A timer that ends in the current slot acts there, with the profile in force (R68). -/
theorem State.atEnd_of_slot {s : State} {p : Image} {timer : Option SlotCount} (hp : s.store.active = some p)
    (hend : timer = some s.time.slotCount) (act : Image → SlotCount → State → State) :
    s.atEnd timer act = act p s.time.slotCount s := by
  have hdue : s.due timer = some s.time.slotCount := by simp [State.due, hend]
  simp only [State.atEnd, hp, hdue]

/-- In WATCHING the end of stage 1, reached in its slot, is the warning of R110. -/
theorem exec_stage1Expiry_of_watching {s : State} {p : Image} (hp : s.store.active = some p)
    (hwatch : s.mon.watchdog = .watching) (hend : s.mon.stageEnd = some s.time.slotCount) :
    exec .stage1Expiry s = .next (s.warn s.time.slotCount) := by
  show execStage1Expiry s = _
  simp only [execStage1Expiry, State.atEnd_of_slot hp hend, hwatch, if_true]

/-- The warning is a change of the watchdog and its stage end, with their copies; the ladder and the records stay. -/
theorem State.warn_eq (e : SlotCount) (s : State) :
    s.warn e =
      { s with
        mon := { s.mon with watchdog := .warned, stageEnd := some (after e (s.mon.inForce.s2 * 64)) }
        xmem := (s.warn e).xmem } := rfl

/-- The watchdog of R110: WARNED, with stage 2 begun at slot count `e`, and no copy written yet. -/
def State.warned (e : SlotCount) (s : State) : State :=
  s.mapMon fun m => { m with watchdog := .warned, stageEnd := some (after e (m.inForce.s2 * 64)) }

/-- The warning publishes the WARNED watchdog and then raises its cause. -/
theorem State.warn_eq_raise (e : SlotCount) (s : State) :
    s.warn e = ((s.warned e).publishWatchdog e).raise .wdtWarn := rfl

section warn
variable {s : State} (e : SlotCount) (h : s.xmem.wf = true)
include h

/-- The memory on which the warning raises its cause is canonical. -/
theorem State.warned_published_wf : ((s.warned e).publishWatchdog e).xmem.wf = true :=
  State.publishWatchdog_wf e (s := s.warned e) h

/-- The warning shows the watchdog: the raise that follows its publication leaves it. -/
theorem State.warn_shown : (s.warn e).watchdogShown e := by
  rw [State.warn_eq_raise]
  exact State.watchdogShown_raise (State.warned_published_wf e h)
    (State.publishWatchdog_shown e (s := s.warned e) h) .wdtWarn

/-- After the warning the header shows the summary. -/
theorem State.warn_shows_summary : (s.warn e).xmem.shows 0x0C (le16 (s.warn e).xmem.summary.toNat) := by
  rw [State.warn_eq_raise]
  exact Exchange.raise_shows_summary (State.warned_published_wf e h) .wdtWarn

/-- The warning writes the copies alone and raises WDT_WARN alone. -/
theorem State.partWrote_warn :
    s.xmem.partWrote [(0x0C, 2), (0x1A, 1), (0x0B0, 2)] Cause.wdtWarn.bit (s.warn e).xmem := by
  rw [State.warn_eq_raise]
  have hpublished : s.xmem.partWrote [(0x0C, 2), (0x1A, 1), (0x0B0, 2)] 0 ((s.warned e).publishWatchdog e).xmem :=
    State.partWrote_publishWatchdog e (s := s.warned e) h (by simp) (by simp)
  have hraised := Exchange.partWrote_raise (State.warned_published_wf e h) .wdtWarn
    (rs := [(0x0C, 2), (0x1A, 1), (0x0B0, 2)]) (by simp)
  have hcauses : 0 ||| Cause.wdtWarn.bit = Cause.wdtWarn.bit := BitVec.zero_or
  exact hcauses ▸ Exchange.partWrote_trans hpublished hraised

end warn

end Sys2Proof.Machine

namespace Sys2Proof.Proofs

open Sys2Proof.Machine

/-- Settles O27: the step is the warning of R110, whose watchdog, copies and cause are the rules of `State.warn`. -/
theorem stageOneExpiryWarns : Obligations.StageOneExpiryWarns := by
  intro s p hp hw hwatch hend
  have hshown : (s.warn s.time.slotCount).watchdogShown s.time.slotCount := State.warn_shown _ hw
  exact ⟨_, exec_stage1Expiry_of_watching hp hwatch hend, State.warn_eq _ s, hshown.1, hshown,
    State.warn_shows_summary _ hw, State.partWrote_warn _ hw⟩

end Sys2Proof.Proofs
end

