-- ==== Sys2Proof/Proofs/Writes.lean ====
section
/-!
SUPPORT. Where the part writes: one relation between the exchange memory before and after an operation of the part, with
the ranges it may touch, and one lemma for each operation. The relation keeps the canonical form and the snapshot of an
open READ frame (R153), so the frames of exchange memory and the invariants on it follow from these lemmas alone.
-/

namespace Sys2Proof.Machine

/-! ### Ranges -/

/-- The range `r` lies within one of the ranges `rs`. -/
def rangeWithin (rs : List (Nat × Nat)) (r : Nat × Nat) : Bool :=
  rs.any fun q => decide (q.1 ≤ r.1) && decide (r.1 + r.2 ≤ q.1 + q.2)

/-- Each of the ranges `qs` lies within one of the ranges `rs`. -/
def rangesCover (rs qs : List (Nat × Nat)) : Bool := qs.all (rangeWithin rs)

theorem rangeWithin_of_mem {rs : List (Nat × Nat)} {r : Nat × Nat} (h : r ∈ rs) : rangeWithin rs r = true := by
  simp only [rangeWithin, List.any_eq_true]
  exact ⟨r, h, by simp⟩

theorem rangesCover_of_subset {rs qs : List (Nat × Nat)} (h : qs ⊆ rs) : rangesCover rs qs = true := by
  simp only [rangesCover, List.all_eq_true]
  exact fun r hr => rangeWithin_of_mem (h hr)

/-- An address outside the ranges `rs` is in no range within them. -/
theorem not_mem_of_outside {rs : List (Nat × Nat)} {r : Nat × Nat} {a : Nat} (hr : rangeWithin rs r = true)
    (ha : outside rs a = true) : a < r.1 ∨ r.1 + r.2 ≤ a := by
  simp only [rangeWithin, List.any_eq_true] at hr
  obtain ⟨q, hq, hin⟩ := hr
  have hout := List.all_eq_true.mp ha q hq
  simp only [Bool.and_eq_true, decide_eq_true_eq] at hin
  simp only [Bool.or_eq_true, decide_eq_true_eq] at hout
  omega

/-- A range within a range of `qs`, each of which lies within one of `rs`, lies within one of `rs`. -/
theorem rangeWithin_of_cover {rs qs : List (Nat × Nat)} {r : Nat × Nat} (h : rangesCover rs qs = true)
    (hr : rangeWithin qs r = true) : rangeWithin rs r = true := by
  simp only [rangeWithin, List.any_eq_true, Bool.and_eq_true, decide_eq_true_eq] at hr
  obtain ⟨q, hq, hin⟩ := hr
  have hqs := List.all_eq_true.mp h q hq
  simp only [rangeWithin, List.any_eq_true, Bool.and_eq_true, decide_eq_true_eq] at hqs ⊢
  obtain ⟨w, hw, hout⟩ := hqs
  exact ⟨w, hw, by omega⟩

theorem rangesCover_trans {rs qs ps : List (Nat × Nat)} (h : rangesCover rs qs = true)
    (hp : rangesCover qs ps = true) : rangesCover rs ps = true :=
  List.all_eq_true.mpr fun r hr => rangeWithin_of_cover h (List.all_eq_true.mp hp r hr)

theorem outside_of_cover {rs qs : List (Nat × Nat)} {a : Nat} (h : rangesCover rs qs = true)
    (ha : outside rs a = true) : outside qs a = true := by
  simp only [outside, List.all_eq_true]
  intro r hr
  have := not_mem_of_outside (List.all_eq_true.mp h r hr) ha
  simpa using this

/-! ### The relation -/

/-- What the part's own writes to the ranges `rs` leave: the lists canonical, the frame in progress and the link flags as
they were, every byte that an open READ frame covers as it reads it (R153), every byte outside the ranges as the blocks see
it, and nothing held where no READ frame is open. -/
structure Exchange.Wrote (rs : List (Nat × Nat)) (x y : Exchange) : Prop where
  wf : y.wf = true
  frame : y.frame = { x.frame with held := y.frame.held }
  miso : y.miso = x.miso
  ready : y.ready = x.ready
  refused : y.refused = x.refused
  range : y.range = x.range
  snapshot : ∀ a, x.covers a = true → Memory.read y.mem a = Memory.read x.mem a
  kept : ∀ a < memorySize, outside rs a = true → y.peek a = x.peek a
  holdsNone : x.frame.covered = none → x.frame.held = [] → y.frame.held = []

/-- The part's own writes to the ranges `rs` lead from the canonical memory `x` to `y`. -/
def Exchange.writes (rs : List (Nat × Nat)) (x y : Exchange) : Prop := x.wf = true → Exchange.Wrote rs x y

theorem Exchange.Wrote.covered {rs : List (Nat × Nat)} {x y : Exchange} (h : Exchange.Wrote rs x y) :
    y.frame.covered = x.frame.covered := by rw [h.frame]

theorem Exchange.Wrote.covers {rs : List (Nat × Nat)} {x y : Exchange} (h : Exchange.Wrote rs x y) :
    y.covers = x.covers := by
  funext a
  simp only [Exchange.covers, h.covered]

theorem Exchange.writes_refl (rs : List (Nat × Nat)) (x : Exchange) : x.writes rs x :=
  fun h => ⟨h, rfl, rfl, rfl, rfl, rfl, fun _ _ => rfl, fun _ _ _ => rfl, fun _ h => h⟩

theorem Exchange.writes.trans {rs : List (Nat × Nat)} {x y z : Exchange} (hxy : x.writes rs y) (hyz : y.writes rs z) :
    x.writes rs z := by
  intro hx
  have h1 := hxy hx
  have h2 := hyz h1.wf
  refine ⟨h2.wf, ?_, h2.miso.trans h1.miso, h2.ready.trans h1.ready, h2.refused.trans h1.refused,
    h2.range.trans h1.range, fun a ha => ?_, fun a ha ho => (h2.kept a ha ho).trans (h1.kept a ha ho),
    fun hc hh => h2.holdsNone (h1.covered.trans hc) (h1.holdsNone hc hh)⟩
  · rw [h2.frame, h1.frame]
  · exact (h2.snapshot a (by rw [h1.covers]; exact ha)).trans (h1.snapshot a ha)

/-- The ranges may grow, and change beyond the memory. -/
theorem Exchange.writes.of_outside {qs rs : List (Nat × Nat)} {x y : Exchange} (h : x.writes qs y)
    (hrs : ∀ a < memorySize, outside rs a = true → outside qs a = true) : x.writes rs y := by
  intro hx
  obtain ⟨hwf, hframe, hmiso, hready, hrefused, hrange, hsnap, hkept, hnone⟩ := h hx
  exact ⟨hwf, hframe, hmiso, hready, hrefused, hrange, hsnap, fun a ha ho => hkept a ha (hrs a ha ho), hnone⟩

theorem Exchange.writes.mono {qs rs : List (Nat × Nat)} {x y : Exchange} (h : x.writes qs y)
    (hrs : rangesCover rs qs = true) : x.writes rs y :=
  h.of_outside fun _ _ => outside_of_cover hrs

/-- One write after another, each within the ranges. -/
theorem Exchange.writes.andThen {rs qs ps : List (Nat × Nat)} {x y z : Exchange} (hxy : x.writes qs y)
    (hyz : y.writes ps z) (hq : rangesCover rs qs = true) (hp : rangesCover rs ps = true) : x.writes rs z :=
  (hxy.mono hq).trans (hyz.mono hp)

theorem Exchange.writes_ite {rs : List (Nat × Nat)} {x : Exchange} {c : Prop} [Decidable c] {s t : State}
    (hs : c → x.writes rs s.xmem) (ht : ¬c → x.writes rs t.xmem) : x.writes rs (if c then s else t).xmem := by
  split
  · exact hs ‹_›
  · exact ht ‹_›

/-- Where no READ frame is open, a part write is made at once (R153). -/
theorem Exchange.partWriteCells_holdsNone {x : Exchange} (hc : x.frame.covered = none) (hh : x.frame.held = [])
    (cs : List Host.Cell) : (x.partWriteCells cs).frame.held = [] := by
  have hnone : (cs.any fun c => x.covers c.1) = false := by simp [Exchange.covers, hc]
  have hdrop : ∀ ds : List Host.Cell, ds.foldr (fun c h => Held.drop h c.1) [] = [] := fun ds => by
    induction ds with
    | nil => rfl
    | cons d ds ih => rw [List.foldr_cons, ih]; rfl
  unfold Exchange.partWriteCells
  rw [hnone, hh]
  exact hdrop cs

/-- A part write changes nothing beside its cells. -/
theorem Exchange.writes_partWriteCells {rs : List (Nat × Nat)} {cs : List Host.Cell}
    (hcs : ∀ a, outside rs a = true → Held.get cs a = none) (x : Exchange) : x.writes rs (x.partWriteCells cs) := by
  intro h
  have heq := Exchange.partWriteCells_eq cs x
  refine ⟨Exchange.wf_partWriteCells h cs, ?_, by simp, by simp, by simp, by simp,
    fun a ha => Exchange.read_partWriteCells_of_covers h cs ha,
    fun a _ ho => Exchange.peek_partWriteCells_of_none h (hcs a ho), fun hc hh => ?_⟩
  · exact congrArg Exchange.frame heq
  · exact Exchange.partWriteCells_holdsNone hc hh cs

theorem Held.get_cellsAt_outside {rs : List (Nat × Nat)} {b a : Nat} {bs : List Byte}
    (hb : rangeWithin rs (b, bs.length) = true) (ha : outside rs a = true) : Held.get (cellsAt b bs) a = none := by
  have hout := not_mem_of_outside hb ha
  rw [Held.get_cellsAt]
  split
  · exact List.getElem?_eq_none (by dsimp only at hout; omega)
  · rfl

theorem Exchange.writes_partWrite {rs : List (Nat × Nat)} {b : Nat} {bs : List Byte}
    (hb : rangeWithin rs (b, bs.length) = true) (x : Exchange) : x.writes rs (x.partWrite b bs) :=
  Exchange.writes_partWriteCells (fun _ ha => Held.get_cellsAt_outside hb ha) x

/-- A change of the summary or the enable is no write. -/
theorem Exchange.writes_of_flags (rs : List (Nat × Nat)) (x : Exchange) (v w : BitVec 12) :
    x.writes rs { x with summary := v, enable := w } :=
  fun h => ⟨h, rfl, rfl, rfl, rfl, rfl, fun _ _ => rfl, fun _ _ _ => rfl, fun _ h => h⟩

/-- The relation with the causes raised is `partWrote`. -/
theorem Exchange.Wrote.partWrote {rs : List (Nat × Nat)} {x y : Exchange} (h : Exchange.Wrote rs x y)
    {causes : BitVec 12} (hs : y.summary = x.summary ||| causes) (he : y.enable = x.enable) :
    x.partWrote rs causes y := by
  obtain ⟨_, hframe, hmiso, hready, hrefused, hrange, _, hkept, _⟩ := h
  refine ⟨?_, hkept⟩
  rw [← hframe, ← hs, ← he, ← hmiso, ← hready, ← hrefused, ← hrange]

/-! ### Flags and the slip table -/

theorem Exchange.setSummary_writes (v : BitVec 12) (x : Exchange) : x.writes [(0x0C, 2)] (x.setSummary v) :=
  (Exchange.writes_of_flags _ x v x.enable).trans (Exchange.writes_partWrite (by simp [rangeWithin]) _)

theorem Exchange.raise_writes (c : Cause) (x : Exchange) : x.writes [(0x0C, 2)] (x.raise c) :=
  Exchange.setSummary_writes _ x

theorem State.raise_writes (c : Cause) (s : State) : s.xmem.writes [(0x0C, 2)] (s.raise c).xmem :=
  Exchange.raise_writes c s.xmem

theorem Exchange.clearAttention_writes (x : Exchange) : x.writes [(0x0C, 2), (0x10, 2)] x.clearAttention :=
  ((Exchange.setSummary_writes _ x).mono (by decide)).trans
    ((Exchange.writes_of_flags _ (x.setSummary _) _ 0xFFF).trans (Exchange.writes_partWrite (by decide) _))

theorem Exchange.deliverAcknowledge_writes (x : Exchange) : x.writes [(0x0C, 4)] x.deliverAcknowledge :=
  Exchange.writes.andThen (Exchange.writes_partWrite (rs := [(0x0E, 2)]) (by decide) x)
    (Exchange.setSummary_writes _ _) (by decide) (by decide)

theorem Exchange.deliverEnable_writes (x : Exchange) : x.writes [(0x10, 2)] x.deliverEnable :=
  (Exchange.writes_of_flags _ x _ _).trans (Exchange.writes_partWrite (by simp [rangeWithin]) _)

/-- The bytes of the slip table, and the summary that its completions raise SLIP_DONE in. -/
def slipTableBytes : List (Nat × Nat) := [(0x0C, 2), (0x100, 0x400)]

theorem payloadBytes_length (bs : List Byte) : (payloadBytes bs).length = 32 := by
  simp only [payloadBytes, List.length_take, List.length_append, List.length_replicate]
  omega

/-- A result is written within its slot. -/
theorem Exchange.writeResult_writes {n : Nat} (o : Owner) (code detail : Byte) (payload : List Byte) (x : Exchange) :
    x.writes [(slotAddr n, 64)] (x.writeResult n o code detail payload) := by
  refine Exchange.writes_partWriteCells (fun a ha => ?_) x
  simp only [outside, List.all_cons, List.all_nil, Bool.and_true, Bool.or_eq_true, decide_eq_true_eq] at ha
  have hp := payloadBytes_length payload
  have happend (cs ds : List Host.Cell) (hc : Held.get cs a = none) : Held.get (cs ++ ds) a = Held.get ds a := by
    induction cs with
    | nil => rfl
    | cons c cs ih =>
      simp only [List.cons_append, Held.get] at hc ⊢
      split at hc
      · cases hc
      · rename_i hne
        simp only [hne, if_false, ih hc]
  have hne : a ≠ slotAddr n := by omega
  simp only [Held.get, hne, if_false]
  rw [happend _ _ (by rw [Held.get_cellsAt]; split <;> [exact List.getElem?_eq_none (by simp; omega); rfl]), Held.get_cellsAt]
  split
  · exact List.getElem?_eq_none (by omega)
  · rfl

/-- A slot lies in the slip table. -/
theorem slot_within_table {n : Nat} (hn : n < 16) : rangesCover slipTableBytes [(slotAddr n, 64)] = true := by
  simp only [rangesCover, rangeWithin, slipTableBytes, slotAddr, List.all_cons, List.all_nil, List.any_cons,
    List.any_nil, Bool.and_true, Bool.or_false, Bool.or_eq_true, Bool.and_eq_true, decide_eq_true_eq]
  omega

/-- A byte of a slot lies in the slip table. -/
theorem slot_byte_within_table {n i : Nat} (hn : n < 16) (hi : i < 64) :
    rangeWithin slipTableBytes (slotAddr n + i, 1) = true := by
  simp only [rangeWithin, slipTableBytes, List.any_cons, List.any_nil, Bool.or_false, Bool.or_eq_true,
    Bool.and_eq_true, decide_eq_true_eq]
  unfold slotAddr
  omega

theorem Exchange.nextSlot_lt {x : Exchange} {n m : Nat} (h : x.nextSlot n = some m) : m < 16 := by
  simp only [Exchange.nextSlot] at h
  split at h
  · rename_i hm
    exact Option.some.inj h ▸ hm
  · cases h

/-- The link of a completion is written within the two slots it speaks of. -/
theorem Exchange.followLink_writes {n : Nat} (hn : n < 16) (x : Exchange) : x.writes slipTableBytes (x.followLink n) := by
  unfold Exchange.followLink
  split
  · exact Exchange.writes_refl _ x
  · rename_i m hm
    have hm' := Exchange.nextSlot_lt hm
    split
    · exact Exchange.writes_partWrite (slot_byte_within_table (i := 0) hm' (by decide)) x
    · exact Exchange.writes_partWrite (slot_byte_within_table (i := 7) hn (by decide)) x

theorem Exchange.breakChain_writes (first : Nat) : ∀ (fuel n : Nat) (x : Exchange),
    x.writes slipTableBytes (Exchange.breakChain first fuel n x)
  | 0, _, x => Exchange.writes_refl _ x
  | fuel + 1, n, x => by
    unfold Exchange.breakChain
    split
    · exact Exchange.writes_refl _ x
    · rename_i m hm
      split
      · exact ((Exchange.writeResult_writes _ _ _ _ x).andThen (Exchange.raise_writes .slipDone _)
          (slot_within_table (Exchange.nextSlot_lt hm)) (by decide)).trans (Exchange.breakChain_writes first fuel m _)
      · exact Exchange.writes_refl _ x

theorem Exchange.complete_writes {n : Nat} (hn : n < 16) (r : SlipResult) (x : Exchange) :
    x.writes slipTableBytes (x.complete n r) := by
  have hresult := (Exchange.writeResult_writes (n := n) .done r.code.code r.detail r.payload x).mono
    (slot_within_table hn)
  unfold Exchange.complete
  refine Exchange.writes.trans (y := if r.code = .ok then _ else _) (hresult.trans ?_)
    ((Exchange.raise_writes .slipDone _).mono (by decide))
  split
  · exact Exchange.followLink_writes hn _
  · exact Exchange.breakChain_writes n 16 n _

theorem State.report_writes (b : LastingBlock) (r : SlipResult) (s : State) :
    s.xmem.writes slipTableBytes (s.report b r).xmem := by
  unfold State.report
  split
  · exact Exchange.writes_refl _ _
  · exact Exchange.complete_writes (Fin.isLt _) r s.xmem

theorem State.accept_writes (b : LastingBlock) (n : Fin 16) (s : State) :
    s.xmem.writes [(slotAddr n.val, 64)] (s.accept b n).xmem :=
  Exchange.writeResult_writes _ _ _ _ s.xmem

theorem State.clearSlips_writes (s : State) : s.xmem.writes [(0x100, 0x400)] s.clearSlips.xmem :=
  Exchange.writes_partWrite (by rw [List.length_replicate]; decide) s.xmem

/-! ### The monitor -/

/-- The bytes of the watchdog's publication (R124). -/
def watchdogBytes : List (Nat × Nat) := [(0x1A, 1), (0x0B0, 2)]

theorem State.publishWatchdog_writes (now : SlotCount) (s : State) :
    s.xmem.writes watchdogBytes (s.publishWatchdog now).xmem :=
  (Exchange.writes_partWrite (by simp [rangeWithin, watchdogBytes]) s.xmem).trans
    (Exchange.writes_partWrite (by simp [rangeWithin, watchdogBytes]) _)

theorem State.setLadderIndex_writes (i : Nat) (s : State) : s.xmem.writes [(0x0AF, 1)] (s.setLadderIndex i).xmem :=
  Exchange.writes_partWrite (by simp [rangeWithin]) s.xmem

theorem State.setRefusal_writes (r : KickRefusal) (s : State) : s.xmem.writes [(0x13, 1)] (s.setRefusal r).xmem :=
  Exchange.writes_partWrite (by simp [rangeWithin]) s.xmem

theorem State.monitorRunning_writes (now : SlotCount) (p : Image) (s : State) :
    s.xmem.writes watchdogBytes (s.monitorRunning now p).xmem := by
  unfold State.monitorRunning
  refine Exchange.writes.trans (y := s.xmem) (Exchange.writes_refl _ _) ?_
  have h := State.publishWatchdog_writes now ((s.mapMon fun m =>
    { m with
      hsleep := s.rail.hsleep
      pendingRecord := none
      stableEnd := some (after now (Profile.stableTime p * 3840)) }).startWatchdog now p)
  simpa using h

theorem State.publishRecords_writes (s : State) : s.xmem.writes [(0x600, 256)] s.publishRecords.xmem :=
  Exchange.writes_partWrite (by rw [recordRegion_length]; decide) s.xmem

/-- The bytes of a new record: the records, the last refusal and the summary (R118, R119, R160). -/
def recordBytes : List (Nat × Nat) := [(0x0C, 2), (0x13, 1), (0x600, 256)]

theorem State.addRecord_writes (now : SlotCount) (cause : RestartCause) (action : RecordAction) (i : Nat)
    (before : RailState) (s : State) : s.xmem.writes recordBytes (s.addRecord now cause action i before).xmem :=
  ((State.publishRecords_writes (s.mapMon _)).andThen (State.setRefusal_writes .noRefusal _)
    (by decide) (by decide)).trans ((State.raise_writes .restartNote _).mono (by decide))

theorem State.setArmed_writes (now : SlotCount) (p : Image) (b : Bool) (s : State) :
    s.xmem.writes watchdogBytes (s.setArmed now p b).xmem := by
  unfold State.setArmed
  refine Exchange.writes.trans (y := s.xmem) (Exchange.writes_refl _ _) ?_
  refine Exchange.writes.trans ?_ (State.publishWatchdog_writes now _)
  split
  · simpa using Exchange.writes_refl watchdogBytes s.xmem
  · split <;> exact Exchange.writes_refl watchdogBytes s.xmem

theorem State.clearMonitor_writes (now : SlotCount) (p : Image) (s : State) :
    s.xmem.writes watchdogBytes (s.clearMonitor now p).xmem :=
  State.setArmed_writes now p _ (s.mapMon _)

/-! ### The rail -/

theorem State.setGap_writes (g : Nat) (s : State) : s.xmem.writes [(0x18, 1)] (s.setGap g).xmem :=
  Exchange.writes_partWrite (by simp [rangeWithin]) s.xmem

theorem State.setReadCounter_writes (v : Half) (s : State) : s.xmem.writes [(0x16, 2)] (s.setReadCounter v).xmem :=
  Exchange.writes_partWrite (by simp [rangeWithin]) s.xmem

theorem State.clearKeypad_writes (s : State) : s.xmem.writes [(0x16, 3)] s.clearKeypad.xmem :=
  Exchange.writes.andThen (State.setReadCounter_writes _ s) (State.setGap_writes 0 (s.setReadCounter _))
    (by decide) (by decide)

/-- The bytes of host restart clearing (R94). -/
def clearingBytes : List (Nat × Nat) := [(0x0C, 2), (0x10, 2), (0x16, 3), (0x1A, 1), (0x0B0, 2), (0x100, 0x400)]

theorem State.hostRestartClearing_writes (now : SlotCount) (p : Image) (s : State) :
    s.xmem.writes clearingBytes (s.hostRestartClearing now p).xmem := by
  have hmonitor : s.xmem.writes clearingBytes ((s.clearOverrides.clearAir).clearMonitor now p).xmem :=
    (State.clearMonitor_writes now p (s.clearOverrides.clearAir)).mono (by decide)
  exact ((hmonitor.trans ((State.clearKeypad_writes _).mono (by decide))).trans
    ((State.clearSlips_writes _).mono (by decide))).trans ((Exchange.clearAttention_writes _).mono (by decide))

theorem State.setWait_writes (w : WaitReason) (s : State) : s.xmem.writes [(0x0AC, 1)] (s.setWait w).xmem :=
  Exchange.writes_partWrite (by simp [rangeWithin]) s.xmem

theorem State.setRestartPending_writes (b : Bool) (s : State) :
    s.xmem.writes [(0x0AD, 1)] (s.setRestartPending b).xmem :=
  Exchange.writes_partWrite (by simp [rangeWithin]) s.xmem

/-- A change of rail state shows the rail and the watchdog, and the wait reason where it leaves WARMING. -/
theorem State.setRail_writes_of {rs : List (Nat × Nat)} (now : SlotCount) (new : RailState) (s : State)
    (hrs : rangesCover rs [(0x19, 1), (0x1A, 1), (0x0B0, 2)] = true)
    (hwait : s.rail.state = .warming → new ≠ .warming → rangesCover rs [(0x0AC, 1)] = true) :
    s.xmem.writes rs (s.setRail now new).xmem := by
  have hstate : s.xmem.writes rs (s.xmem.partWrite 0x19 [new.code]) :=
    (Exchange.writes_partWrite (rs := [(0x19, 1)]) (by simp [rangeWithin]) s.xmem).mono
      (rangesCover_trans hrs (by decide))
  unfold State.setRail
  refine Exchange.writes.trans ?_ ((State.publishWatchdog_writes now _).mono (rangesCover_trans hrs (by decide)))
  rw [State.mapMon_xmem]
  refine Exchange.writes_ite (fun hw => ?_) (fun _ => ?_)
  · refine Exchange.writes.trans ?_ ((State.setWait_writes .noWait _).mono (hwait hw.1 hw.2))
    split <;> exact hstate
  · split <;> exact hstate

theorem State.setRail_writes (now : SlotCount) (new : RailState) (s : State) :
    s.xmem.writes [(0x19, 2), (0x0AC, 1), (0x0B0, 2)] (s.setRail now new).xmem :=
  State.setRail_writes_of now new s (by decide) (fun _ _ => by decide)

/-- Beside the rail and the watchdog, a rail that goes off shows restart pending. -/
theorem State.enterCooldown_writes_of {rs : List (Nat × Nat)} (now : SlotCount) (restart : Bool) (off : Nat) (s : State)
    (hrs : rangesCover rs [(0x19, 1), (0x1A, 1), (0x0AD, 1), (0x0B0, 2)] = true)
    (hwait : s.rail.state = .warming → rangesCover rs [(0x0AC, 1)] = true) :
    s.xmem.writes rs (s.enterCooldown now restart off).xmem := by
  have hrail := State.setRail_writes_of now .cooldown s.cutLines (rangesCover_trans hrs (by decide))
    (fun hw _ => hwait hw)
  exact hrail.trans ((State.setRestartPending_writes restart _).mono (rangesCover_trans hrs (by decide)))

theorem State.enterLockout_writes_of {rs : List (Nat × Nat)} (now : SlotCount) (s : State)
    (hrs : rangesCover rs [(0x19, 1), (0x1A, 1), (0x0AD, 1), (0x0B0, 2)] = true)
    (hwait : s.rail.state = .warming → rangesCover rs [(0x0AC, 1)] = true) :
    s.xmem.writes rs (s.enterLockout now).xmem := by
  have hrail := State.setRail_writes_of now .lockout s.cutLines (rangesCover_trans hrs (by decide))
    (fun hw _ => hwait hw)
  exact hrail.trans ((State.setRestartPending_writes false _).mono (rangesCover_trans hrs (by decide)))

/-- A failure writes the bytes of a cut, and the wait reason where it leaves WARMING. -/
theorem State.failure_writes_of {rs : List (Nat × Nat)} (now : SlotCount) (p : Image) (cause : RestartCause) (s : State)
    (hrs : rangesCover rs cutBytes = true) (hwait : s.rail.state = .warming → rangesCover rs [(0x0AC, 1)] = true) :
    s.xmem.writes rs (s.failure now p cause).xmem := by
  have hoff : rangesCover rs [(0x19, 1), (0x1A, 1), (0x0AD, 1), (0x0B0, 2)] = true :=
    rangesCover_trans hrs (by decide)
  have hrecord (action : RecordAction) : s.xmem.writes rs
      ((s.setLadderIndex (ladderNext p s.mon.ladderIndex)).addRecord now cause action s.mon.ladderIndex s.rail.state).xmem :=
    (State.setLadderIndex_writes _ s).andThen (State.addRecord_writes _ _ _ _ _ _)
      (rangesCover_trans hrs (by decide)) (rangesCover_trans hrs (by decide))
  unfold State.failure
  dsimp only
  split
  · exact (hrecord .lockout).trans (State.enterLockout_writes_of now _ hoff (by simpa using hwait))
  · exact (hrecord .cold).trans (State.enterCooldown_writes_of now _ _ _ hoff (by simpa using hwait))
  · exact (hrecord .cold).trans (State.enterCooldown_writes_of now _ _ _ hoff (by simpa using hwait))

end Sys2Proof.Machine
end

