-- ==== Sys2Proof/Proofs/WritesOfBlocks.lean ====
section
/-!
SUPPORT. Where the blocks write (continued): the rail controller's events, the climate controller, the air controller, the
keypad controller, the store and the slip engine, each by the relation `Exchange.writes`.
-/

namespace Sys2Proof.Machine

/-- A fold of operations writes where each of them does. -/
theorem Exchange.writes_foldl {α : Type} {rs : List (Nat × Nat)} {op : State → α → State}
    (h : ∀ (s : State) (a : α), s.xmem.writes rs (op s a).xmem) (l : List α) (s : State) :
    s.xmem.writes rs (l.foldl op s).xmem := by
  induction l generalizing s with
  | nil => exact Exchange.writes_refl _ _
  | cons a l ih => exact (h s a).trans (ih (op s a))

/-! ### The rail controller -/

/-- The bytes of the rail controller's events: those of a cut, the wait reason and the inputs. -/
def railBytes : List (Nat × Nat) := [(0x0C, 2), (0x13, 1), (0x19, 2), (0x0AC, 4), (0x0B0, 2), (0x600, 256)]

theorem State.cutWithNotice_writes_of {rs : List (Nat × Nat)} (now : SlotCount) (p : Image) (cause : RestartCause)
    (restart : Bool) (s : State) (hrs : rangesCover rs cutBytes = true)
    (hwait : s.rail.state = .warming → rangesCover rs [(0x0AC, 1)] = true) :
    s.xmem.writes rs (s.cutWithNotice now p cause restart).xmem :=
  ((State.addRecord_writes _ _ _ _ _ s).mono (rangesCover_trans hrs (by decide))).trans
    (State.enterCooldown_writes_of now restart _ _ (rangesCover_trans hrs (by decide)) (by simpa using hwait))

theorem State.judgeGate_writes (p : Image) (age : Nat) (s : State) :
    s.xmem.writes [(0x0AC, 1)] (s.judgeGate p age).xmem :=
  State.setWait_writes _ _

theorem State.judgeAtSlot_writes (now : SlotCount) (p : Image) (s : State) :
    s.xmem.writes [(0x0AC, 1)] (s.judgeAtSlot now p).xmem := by
  unfold State.judgeAtSlot
  refine Exchange.writes_ite (fun _ => ?_) fun _ => Exchange.writes_refl _ _
  exact Exchange.writes_ite (fun _ => Exchange.writes_refl _ _) fun _ => State.judgeGate_writes p _ _

/-- The bytes of an entry into WARMING (R71). -/
def warmingBytes : List (Nat × Nat) := [(0x19, 2), (0x0AC, 2), (0x0B0, 2)]

theorem State.enterWarming_writes (now : SlotCount) (p : Image) (s : State) :
    s.xmem.writes warmingBytes (s.enterWarming now p).xmem := by
  unfold State.enterWarming
  refine Exchange.writes.trans ?_ ((State.judgeGate_writes p 0 _).mono (by decide))
  rw [State.mapRail_xmem]
  exact (State.setRail_writes now .warming s).andThen (State.setRestartPending_writes false _) (by decide) (by decide)

theorem State.enterStarting_writes (now : SlotCount) (p : Image) (s : State) :
    s.xmem.writes (clearingBytes ++ [(0x19, 2), (0x0AC, 1)]) (s.enterStarting now p).xmem := by
  unfold State.enterStarting
  refine Exchange.writes.trans ?_ ((State.hostRestartClearing_writes now p _).mono (by decide))
  rw [State.mapRail_xmem]
  exact (State.setRail_writes now .starting s).mono (by decide)

theorem State.enterRunning_writes_of {rs : List (Nat × Nat)} (now : SlotCount) (p : Image) (s : State)
    (hrs : rangesCover rs [(0x19, 1), (0x1A, 1), (0x0B0, 2)] = true)
    (hwait : s.rail.state = .warming → rangesCover rs [(0x0AC, 1)] = true) :
    s.xmem.writes rs (s.enterRunning now p).xmem := by
  unfold State.enterRunning
  refine Exchange.writes.trans ?_ ((State.monitorRunning_writes now p _).mono (rangesCover_trans hrs (by decide)))
  rw [← State.mapRail_xmem s]
  exact State.setRail_writes_of now .running _ hrs fun hw _ => hwait hw

theorem State.startPulse_xmem (now : SlotCount) (p : Image) (s : State) : (s.startPulse now p).xmem = s.xmem := by
  simp

theorem State.enterStopping_writes_of {rs : List (Nat × Nat)} (now : SlotCount) (p : Image) (delay : Nat) (s : State)
    (hrs : rangesCover rs [(0x19, 1), (0x1A, 1), (0x0B0, 2)] = true)
    (hwait : s.rail.state = .warming → rangesCover rs [(0x0AC, 1)] = true) :
    s.xmem.writes rs (s.enterStopping now p delay).xmem :=
  State.setRail_writes_of now .stopping s hrs fun hw _ => hwait hw

theorem State.enterResetting_writes_of {rs : List (Nat × Nat)} (now : SlotCount) (p : Image) (s : State)
    (hrs : rangesCover rs ((0x19, 1) :: clearingBytes) = true)
    (hwait : s.rail.state = .warming → rangesCover rs [(0x0AC, 1)] = true) :
    s.xmem.writes rs (s.enterResetting now p).xmem := by
  have hcleared : s.xmem.writes rs ((s.setRail now .resetting).hostRestartClearing now p).xmem :=
    (State.setRail_writes_of now .resetting s (rangesCover_trans hrs (by decide)) fun hw _ => hwait hw).trans
      ((State.hostRestartClearing_writes now p _).mono (rangesCover_trans hrs (by decide)))
  exact Exchange.writes_ite (fun _ => hcleared) fun _ => hcleared

theorem State.carryOut_writes (now : SlotCount) (p : Image) (a : LadderAction) (s : State) :
    s.xmem.writes (railBytes ++ clearingBytes) (s.carryOut now p a).xmem := by
  cases a with
  | warm => exact State.enterResetting_writes_of now p s (by decide) fun _ => by decide
  | cold => exact State.enterCooldown_writes_of now _ _ s (by decide) fun _ => by decide
  | lockout => exact State.enterLockout_writes_of now s (by decide) fun _ => by decide

theorem State.hsleepChanged_writes (now : SlotCount) (p : Image) (level : Bool) (s : State) :
    s.xmem.writes watchdogBytes (s.hsleepChanged now p level).xmem := by
  unfold State.hsleepChanged
  refine Exchange.writes.trans ?_ (State.publishWatchdog_writes now _)
  split
  · split <;> exact Exchange.writes_refl _ _
  · split
    · split <;> exact Exchange.writes_refl _ _
    all_goals exact Exchange.writes_refl _ _

theorem State.samplePower_writes (now : SlotCount) (p : Image) (pgood hsleep : Bool) (s : State) :
    s.xmem.writes railBytes (s.samplePower now p pgood hsleep).xmem := by
  have hfail (u : State) (cause : RestartCause) : u.xmem.writes railBytes (u.failure now p cause).xmem :=
    State.failure_writes_of now p cause u (by decide) fun _ => by decide
  unfold State.samplePower
  dsimp only
  rw [← State.mapRail_xmem s fun r => { r with pgood := pgood, hsleep := hsleep }]
  generalize (s.mapRail fun r => { r with pgood := pgood, hsleep := hsleep }) = u
  split
  · refine Exchange.writes_ite (fun _ => ?_) fun _ => ?_
    · exact Exchange.writes_ite (fun _ => Exchange.writes_refl _ _) fun _ => Exchange.writes_refl _ _
    · refine Exchange.writes_ite (fun _ => ?_) fun _ => Exchange.writes_refl _ _
      exact Exchange.writes_ite (fun _ => Exchange.writes_refl _ _) fun _ => hfail _ _
  · refine Exchange.writes_ite (fun _ => hfail _ _) fun _ => ?_
    exact Exchange.writes_ite (fun _ => (State.hsleepChanged_writes now p hsleep _).mono (by decide))
      fun _ => Exchange.writes_refl _ _
  · exact Exchange.writes_ite (fun _ => hfail _ _) fun _ => Exchange.writes_refl _ _
  · rw [← State.mapRail_xmem u]
    refine Exchange.writes_ite (fun _ => ?_) fun _ => Exchange.writes_refl _ _
    exact State.enterCooldown_writes_of now _ _ _ (by decide) fun _ => by decide
  all_goals exact Exchange.writes_refl _ _

theorem State.publishInputs_writes (p : Image) (s : State) : s.xmem.writes [(0x0AE, 1)] (s.publishInputs p).xmem :=
  Exchange.writes_partWrite (by simp [rangeWithin]) s.xmem

theorem State.cutInput_writes (now : SlotCount) (p : Image) (s : State) :
    s.xmem.writes railBytes (s.cutInput now p).xmem := by
  unfold State.cutInput
  refine Exchange.writes_ite (fun _ => ?_) fun _ => ?_
  · exact State.cutWithNotice_writes_of now p _ _ s (by decide) fun _ => by decide
  · split
    · exact (State.setRail_writes now .off (s.mapRail _)).mono (by decide)
    · exact (State.setRestartPending_writes false s).mono (by decide)
    · exact Exchange.writes_refl _ _

theorem State.inputRises_writes (now : SlotCount) (p : Image) (k : Fin 4) (s : State) :
    s.xmem.writes railBytes (s.inputRises now p k).xmem := by
  unfold State.inputRises
  split
  · exact Exchange.writes_refl _ _
  · exact (State.raise_writes .inputNote s).mono (by decide)
  · exact Exchange.writes_refl _ _
  · split
    · exact (State.enterWarming_writes now p s).mono (by decide)
    · exact (State.setRestartPending_writes true s).mono (by decide)
    · exact Exchange.writes_refl _ _
  · refine Exchange.writes_ite (fun _ => ?_) fun _ => Exchange.writes_refl _ _
    have hstop := State.enterStopping_writes_of (rs := railBytes) now p 0 s (by decide) fun _ => by decide
    rw [← State.startPulse_xmem now p (s.enterStopping now p 0)] at hstop
    exact hstop.trans ((State.raise_writes .stopAsked _).mono (by decide))
  · exact State.cutInput_writes now p s

theorem State.inputFalls_writes (p : Image) (k : Fin 4) (s : State) :
    s.xmem.writes [(0x0C, 2)] (s.inputFalls p k).xmem :=
  Exchange.writes_ite (fun _ => State.raise_writes .inputNote s) fun _ => Exchange.writes_refl _ _

theorem State.sampleInput_writes (now : SlotCount) (p : Image) (levels : BitVec 4) (s : State) (k : Fin 4) :
    s.xmem.writes railBytes (s.sampleInput now p levels k).xmem := by
  unfold State.sampleInput
  dsimp only
  refine Exchange.writes_ite (fun _ => ?_) fun _ => Exchange.writes_ite (fun _ => ?_) fun _ => Exchange.writes_refl _ _
  · exact (State.publishInputs_writes p (s.mapRail _)).andThen (State.inputRises_writes now p k _) (by decide) (by decide)
  · exact (State.publishInputs_writes p (s.mapRail _)).andThen (State.inputFalls_writes p k _) (by decide) (by decide)

theorem State.sampleInputs_writes (now : SlotCount) (p : Image) (levels : BitVec 4) (s : State) :
    s.xmem.writes railBytes (s.sampleInputs now p levels).xmem :=
  Exchange.writes_foldl (State.sampleInput_writes now p levels) _ s

theorem State.powerKeyPress_writes (now : SlotCount) (p : Image) (s : State) :
    s.xmem.writes warmingBytes (s.powerKeyPress now p).xmem := by
  unfold State.powerKeyPress
  dsimp only
  split
  · exact State.enterWarming_writes now p (s.mapRail _)
  · rw [State.startPulse_xmem]
    exact Exchange.writes_refl _ _
  · exact Exchange.writes_refl _ _

theorem State.serviceChord_writes (now : SlotCount) (p : Image) (s : State) :
    s.xmem.writes railBytes (s.serviceChord now p).xmem :=
  Exchange.writes_ite
    (fun _ => (State.setLadderIndex_writes 0 s).andThen (State.enterWarming_writes now p _) (by decide) (by decide))
    fun _ => Exchange.writes_refl _ _

/-! ### The climate controller -/

theorem State.publishZone_writes (s : State) (z : Fin 3) :
    s.xmem.writes [(0x070 + 8 * z.val, 4)] (s.publishZone z).xmem :=
  Exchange.writes_partWrite (by simp [rangeWithin, sle16]) s.xmem

/-- The bytes of stage 7 of the boundary (R38). -/
def climateBytes : List (Nat × Nat) := [(0x070, 4), (0x078, 4), (0x080, 4), (0x088, 4)]

theorem State.publishClimate_writes (s : State) : s.xmem.writes climateBytes s.publishClimate.xmem := by
  have hzones : s.xmem.writes climateBytes ((List.finRange 3).foldl State.publishZone s).xmem :=
    Exchange.writes_foldl
      (fun u z => (State.publishZone_writes u z).mono ((by decide : ∀ z : Fin 3, rangesCover climateBytes
        [(0x070 + 8 * z.val, 4)] = true) z)) _ s
  exact (hzones.trans (Exchange.writes_partWrite (by simp [rangeWithin, climateBytes]) _)).trans
    (Exchange.writes_partWrite (by simp [rangeWithin, climateBytes]) _)

theorem State.climateBoundary_writes (now : SlotCount) (p : Image) (s : State) :
    s.xmem.writes climateBytes (s.climateBoundary now p).1.xmem :=
  State.publishClimate_writes (s.mapClimate _)

theorem State.fogNotice_writes (p : Image) (s : State) : s.xmem.writes [(0x080, 2)] (s.fogNotice p).xmem := by
  unfold State.fogNotice
  split
  · exact Exchange.writes_refl _ _
  · exact Exchange.writes_ite
      (fun _ => Exchange.writes_partWrite (by simp [rangeWithin, sle16]) s.xmem) fun _ => Exchange.writes_refl _ _

/-! ### The air controller -/

theorem State.judgeFan_writes (p : Image) (s : State) (f : Fin 2) :
    s.xmem.writes [(0x0C, 2)] (s.judgeFan p f).xmem := by
  unfold State.judgeFan
  exact Exchange.writes_ite (fun _ => State.raise_writes .fanFault (s.mapAir _)) fun _ => Exchange.writes_refl _ _

theorem State.setFanSpeed_writes (f : Fin 2) (r : FanRec) (s : State) :
    s.xmem.writes [(0x09A + 8 * f.val, 2)] (s.setFanSpeed f r).xmem :=
  Exchange.writes_ite (fun _ => Exchange.writes_partWrite (by simp [rangeWithin]) s.xmem)
    fun _ => Exchange.writes_refl _ _

theorem State.endProbe_writes (reason : AbortReason) (s : State) :
    s.xmem.writes slipTableBytes (s.endProbe reason).1.xmem := by
  unfold State.endProbe
  dsimp only
  split
  · exact State.report_writes .air _ (s.mapAir _)
  · exact State.report_writes .air _ (s.mapAir _)
  all_goals exact Exchange.writes_refl _ _

theorem State.clogAlarms_writes (p : Image) (c : Nat) (s : State) :
    s.xmem.writes [(0x0C, 2)] (s.clogAlarms p c).xmem := by
  refine Exchange.writes_ite (fun _ => Exchange.writes_refl _ _) fun _ => Exchange.writes_ite (fun _ => ?_) fun _ => ?_
  · exact State.raise_writes .clogWarn (s.mapAir _)
  · exact (State.raise_writes .clogWarn (s.mapAir _)).trans (State.raise_writes .clogLimit _)

theorem State.completeProbe_writes (now : SlotCount) (p : Image) (measure : Nat) (s : State) :
    s.xmem.writes slipTableBytes (s.completeProbe now p measure).1.xmem := by
  unfold State.completeProbe
  dsimp only
  split
  · exact Exchange.writes_refl _ _
  · have hclog (u : State) : u.xmem.writes slipTableBytes
        (if u.air.filterReference = 0 then u else u.clogAlarms p (clogOf
          (s.air.probe.riseSum * 1000 / s.air.probe.powerSum).toNat s.air.filterReference)).xmem :=
      Exchange.writes_ite (fun _ => Exchange.writes_refl _ _) fun _ => (State.clogAlarms_writes p _ u).mono (by decide)
    split
    · exact (hclog (s.mapAir _)).trans (State.report_writes .air _ _)
    · exact hclog (s.mapAir _)

theorem State.probeStage_writes (now : SlotCount) (p : Image) (curve : Option Nat) (s : State) :
    s.xmem.writes slipTableBytes (s.probeStage now p curve).1.xmem := by
  unfold State.probeStage
  split
  · exact Exchange.writes_refl _ _
  · split <;> exact Exchange.writes_refl _ _
  · split
    · exact State.endProbe_writes _ s
    · split
      · exact State.endProbe_writes _ s
      · split <;> exact Exchange.writes_refl _ _
  · split
    · exact State.endProbe_writes _ s
    · exact Exchange.writes_refl _ _
  · split
    · exact State.endProbe_writes _ s
    · dsimp only
      split
      · split
        · exact State.endProbe_writes _ (s.mapAir _)
        · split
          · exact State.endProbe_writes _ (s.mapAir _)
          · exact State.completeProbe_writes now p _ (s.mapAir _)
      · exact Exchange.writes_refl _ _
  · exact Exchange.writes_refl _ _
  · exact Exchange.writes_refl _ _

theorem State.publishFan_writes (s : State) (f : Fin 2) :
    s.xmem.writes [(0x098 + 8 * f.val, 2)] (s.publishFan f).xmem :=
  Exchange.writes_partWrite (by simp [rangeWithin]) s.xmem

theorem State.publishProbe_writes (s : State) : s.xmem.writes [(0x0A8, 4)] s.publishProbe.xmem :=
  Exchange.writes_partWrite (by simp [rangeWithin]) s.xmem

/-- The bytes of the air controller's stage 7 (R45). -/
def airBytes : List (Nat × Nat) := [(0x098, 2), (0x0A0, 2), (0x0A8, 4)]

/-- Stage 3 of the boundary follows the judgement of the fans (R45). -/
def State.probed (now : SlotCount) (p : Image) (s : State) : State × ProbeEvent :=
  ((List.finRange 2).foldl (State.judgeFan p) s).probeStage now p (s.controlTemp.map (curveValue p))

/-- Stages 5 and 6 of the boundary (R44, R46, R47). -/
def State.driveFans (p : Image) (curve : Option Nat) (s : State) : State :=
  s.mapAir fun a => { a with fans := tab 2 fun f => a.fans[f].drive p f (effectiveDuty p a curve a.probe.holds f) }

/-- The stages of the air controller's boundary, one after another (R45). -/
theorem State.airBoundary_eq (now : SlotCount) (p : Image) (s : State) :
    s.airBoundary now p =
      ((List.finRange 2).foldl State.publishFan
        (((s.probed now p).1.mapAir (Air.schedule (s.probed now p).2)).driveFans p
          (s.controlTemp.map (curveValue p)))).publishProbe := rfl

theorem State.airBoundary_writes (now : SlotCount) (p : Image) (s : State) :
    s.xmem.writes (slipTableBytes ++ airBytes) (s.airBoundary now p).xmem := by
  have hjudge : s.xmem.writes [(0x0C, 2)] ((List.finRange 2).foldl (State.judgeFan p) s).xmem :=
    Exchange.writes_foldl (State.judgeFan_writes p) _ s
  have hfans (u : State) : u.xmem.writes airBytes ((List.finRange 2).foldl State.publishFan u).xmem :=
    Exchange.writes_foldl
      (fun v f => (State.publishFan_writes v f).mono ((by decide : ∀ f : Fin 2, rangesCover airBytes
        [(0x098 + 8 * f.val, 2)] = true) f)) _ u
  have hprobe : s.xmem.writes (slipTableBytes ++ airBytes) (s.probed now p).1.xmem :=
    hjudge.andThen (State.probeStage_writes now p (s.controlTemp.map (curveValue p)) _) (by decide) (by decide)
  have hdriven : s.xmem.writes (slipTableBytes ++ airBytes) (((s.probed now p).1.mapAir
      (Air.schedule (s.probed now p).2)).driveFans p (s.controlTemp.map (curveValue p))).xmem := hprobe
  rw [State.airBoundary_eq]
  exact (hdriven.trans ((hfans _).mono (by decide))).trans ((State.publishProbe_writes _).mono (by decide))

theorem State.referenceWritten_writes (rf : Nat) (s : State) :
    s.xmem.writes slipTableBytes (s.referenceWritten rf).xmem :=
  State.report_writes .air _ (s.mapAir _)

/-! ### The keypad controller -/

theorem State.publishFog_writes (s : State) : s.xmem.writes [(0x0B2, 1)] s.publishFog.xmem :=
  Exchange.writes_partWrite (by simp [rangeWithin]) s.xmem

theorem State.judgeFog_writes (p : Image) (s : State) :
    s.xmem.writes [(0x0C, 2), (0x080, 2), (0x0B2, 1)] (s.judgeFog p).xmem := by
  unfold State.judgeFog
  dsimp only
  have hfog (f : Bool) : s.xmem.writes [(0x0C, 2), (0x080, 2), (0x0B2, 1)]
      (s.mapKeypad fun k => { k with fog := f }).publishFog.xmem :=
    (State.publishFog_writes (s.mapKeypad _)).mono (by decide)
  have hraise (f b : Bool) : s.xmem.writes [(0x0C, 2), (0x080, 2), (0x0B2, 1)]
      (if b then (s.mapKeypad fun k => { k with fog := f }).publishFog.raise .fog
       else (s.mapKeypad fun k => { k with fog := f }).publishFog).xmem :=
    Exchange.writes_ite (fun _ => (hfog f).trans ((State.raise_writes .fog _).mono (by decide))) fun _ => hfog f
  exact Exchange.writes_ite (fun _ => (hraise _ _).trans ((State.fogNotice_writes p _).mono (by decide)))
    fun _ => hraise _ _

/-- The bytes of the key queue: the summary, the write counter, the gap count and the entries (R141, R142). -/
def queueBytes : List (Nat × Nat) := [(0x0C, 2), (0x14, 2), (0x18, 1), (0x500, 256)]

theorem State.writeEntry_writes (now : SlotCount) (kind : EntryKind) (subject : Byte) (s : State) :
    s.xmem.writes [(0x0C, 2), (0x14, 2), (0x500, 256)] (s.writeEntry now kind subject).xmem := by
  have hentry : s.xmem.writes [(0x0C, 2), (0x14, 2), (0x500, 256)]
      (s.xmem.partWrite (0x500 + 8 * (s.keypad.writeCounter.toNat % 32))
        (le16 s.keypad.writeCounter.toNat ++ [kind.code, subject] ++ le32 now.toNat)) := by
    refine Exchange.writes_partWrite ?_ _
    have hm := Nat.mod_lt s.keypad.writeCounter.toNat (y := 32) (by decide)
    simp only [rangeWithin, le16, le32, List.any_cons, List.any_nil, List.length_append, List.length_cons,
      List.length_nil, Bool.or_false, Bool.or_eq_true, Bool.and_eq_true, decide_eq_true_eq]
    omega
  exact (hentry.trans (Exchange.writes_partWrite (b := 0x14) (by simp [rangeWithin]) _)).trans
    ((Exchange.raise_writes .key _).mono (by decide))

theorem State.writeGap_writes (now : SlotCount) (s : State) : s.xmem.writes queueBytes (s.writeGap now).xmem :=
  (State.writeEntry_writes now .gap _ s).andThen (State.setGap_writes 0 _) (by decide) (by decide)

theorem State.offer_writes (now : SlotCount) (kind : EntryKind) (subject : Byte) (s : State) :
    s.xmem.writes queueBytes (s.offer now kind subject).xmem := by
  unfold State.offer
  refine Exchange.writes_ite (fun _ => ?_) fun _ => Exchange.writes_refl _ _
  refine Exchange.writes_ite (fun _ => (State.setGap_writes _ s).mono (by decide)) fun _ => ?_
  refine Exchange.writes_ite (fun _ => ?_) fun _ => (State.writeEntry_writes now kind subject s).mono (by decide)
  refine Exchange.writes_ite (fun _ => ?_) fun _ => ?_
  · exact (State.writeGap_writes now s).trans ((State.setGap_writes 1 _).mono (by decide))
  · exact (State.writeGap_writes now s).trans ((State.writeEntry_writes now kind subject _).mono (by decide))

theorem State.deliverReadCounter_writes (now : SlotCount) (s : State) :
    s.xmem.writes ((0x16, 2) :: queueBytes) (s.deliverReadCounter now).xmem := by
  unfold State.deliverReadCounter
  dsimp only
  have hread : s.xmem.writes ((0x16, 2) :: queueBytes)
      (if (BitVec.ofNat 16 (s.xmem.peek16 0x16) - s.keypad.readCounter).toNat ≤
          (s.keypad.writeCounter - s.keypad.readCounter).toNat then
        s.mapKeypad fun k => { k with readCounter := BitVec.ofNat 16 (s.xmem.peek16 0x16) }
      else s.setReadCounter s.keypad.writeCounter).xmem :=
    Exchange.writes_ite (fun _ => Exchange.writes_refl _ _) fun _ => (State.setReadCounter_writes _ s).mono (by decide)
  exact Exchange.writes_ite (fun _ => hread.trans ((State.writeGap_writes now _).mono (by decide))) fun _ => hread

/-- An event writes the key queue, and, for a press of the power key, what an entry into WARMING does. -/
theorem State.give_writes (now : SlotCount) (p : Image) (s : State) (e : KeyEvent) :
    s.xmem.writes (queueBytes ++ warmingBytes) (s.give now p e).xmem := by
  have hoffer := (State.offer_writes now e.kind e.subject s).mono (rs := queueBytes ++ warmingBytes) (by decide)
  unfold State.give
  dsimp only
  split
  · exact hoffer
  · exact hoffer.trans ((State.powerKeyPress_writes now p _).mono (by decide))
  · exact hoffer

theorem State.endRebaseline_writes (code : ResultCode) (mask : BitVec 24) (s : State) :
    s.xmem.writes slipTableBytes (s.endRebaseline code mask).xmem :=
  State.report_writes .keypad _ (s.mapKeypad _)

theorem State.finishRebaseline_writes (s : State) : s.xmem.writes slipTableBytes s.finishRebaseline.xmem := by
  unfold State.finishRebaseline
  split
  · exact Exchange.writes_ite (fun _ => State.endRebaseline_writes .ok _ s) fun _ => Exchange.writes_refl _ _
  · exact Exchange.writes_refl _ _

theorem State.stopRebaseline_writes (s : State) : s.xmem.writes slipTableBytes s.stopRebaseline.xmem := by
  unfold State.stopRebaseline
  split
  · exact Exchange.writes_ite (fun _ => State.endRebaseline_writes .stopped _ (s.mapKeypad _))
      fun _ => Exchange.writes_refl _ _
  · exact Exchange.writes_refl _ _

theorem State.rebaselineSlip_writes (now : SlotCount) (p : Image) (mask : BitVec 24) (s : State) :
    s.xmem.writes (queueBytes ++ warmingBytes) (s.rebaselineSlip now p mask).1.xmem := by
  unfold State.rebaselineSlip
  dsimp only
  split
  · exact Exchange.writes_refl _ _
  · split
    · exact Exchange.writes_refl _ _
    · split
      · exact Exchange.writes_refl _ _
      · exact Exchange.writes_foldl (State.give_writes now p) _ (s.mapKeypad _)

theorem Held.get_flatMap_none {α : Type} {f : α → List Host.Cell} {a : Nat} (l : List α)
    (h : ∀ x ∈ l, Held.get (f x) a = none) : Held.get (l.flatMap f) a = none := by
  have happend (cs ds : List Host.Cell) (hc : Held.get cs a = none) (hd : Held.get ds a = none) :
      Held.get (cs ++ ds) a = none := by
    induction cs with
    | nil => exact hd
    | cons c cs ih =>
      simp only [List.cons_append, Held.get] at hc ⊢
      split at hc
      · cases hc
      · rename_i hne
        simp only [hne, if_false, ih hc]
  induction l with
  | nil => rfl
  | cons x l ih =>
    rw [List.flatMap_cons]
    exact happend _ _ (h x (by simp)) (ih fun y hy => h y (by simp [hy]))

theorem State.publishDetail_writes (p : Image) (deltas : Vector Int 24) (s : State) :
    s.xmem.writes [(0x700, 0xC0)] (s.publishDetail p deltas).xmem := by
  refine Exchange.writes_partWriteCells (fun a ha => Held.get_flatMap_none _ fun k _ => ?_) s.xmem
  refine Held.get_cellsAt_outside (rs := [(0x700, 0xC0)]) ?_ ha
  have hk := k.isLt
  simp only [rangeWithin, detailBytes, sle16, le16, List.any_cons, List.any_nil, List.length_append, List.length_cons,
    List.length_nil, Bool.or_false, Bool.and_eq_true, decide_eq_true_eq]
  omega

/-- The bytes of a scan's end (R128). -/
def scanBytes : List (Nat × Nat) := queueBytes ++ warmingBytes ++ slipTableBytes ++ [(0x700, 0xC0)]

/-- Stage 1 of a scan end: the raw counts are taken and the scan is over (R128). -/
def State.scanTaken (p : Image) (counts : Vector (BitVec 12) 24) (s : State) : State :=
  s.mapKeypad fun k => { k.takeRaw p counts with scan := none }

/-- Stages 2 and 3 of a scan end, with the events they give: the keys of a rejected scan or of an accepted one (R128,
R129). -/
def Keypad.scanned (now : SlotCount) (p : Image) (k : Keypad) : Keypad × List KeyEvent :=
  if Profile.maxSimultaneous p < k.filmCount p (touchThreshold p k.fog) then (k.rejectScan, [])
  else k.scanKeys now p (touchThreshold p k.fog)

/-- The stages of a scan's end, one after another (R128). -/
theorem State.scanWork_eq (now : SlotCount) (p : Image) (counts : Vector (BitVec 12) 24) (s : State) :
    s.scanWork now p counts =
      ((((((s.scanTaken p counts).keypad.scanned now p).2.foldl (State.give now p)
        ((s.scanTaken p counts).mapKeypad fun _ => ((s.scanTaken p counts).keypad.scanned now p).1)).finishRebaseline
          ).stopRebaseline).publishDetail p (tab 24 fun k => (s.scanTaken p counts).keypad.delta k)) := rfl

theorem State.scanWork_writes (now : SlotCount) (p : Image) (counts : Vector (BitVec 12) 24) (s : State) :
    s.xmem.writes scanBytes (s.scanWork now p counts).xmem := by
  have hgive (es : List KeyEvent) (u : State) : u.xmem.writes scanBytes (es.foldl (State.give now p) u).xmem :=
    (Exchange.writes_foldl (State.give_writes now p) es u).mono (qs := queueBytes ++ warmingBytes) (by decide)
  have hevents := hgive ((s.scanTaken p counts).keypad.scanned now p).2
    ((s.scanTaken p counts).mapKeypad fun _ => ((s.scanTaken p counts).keypad.scanned now p).1)
  rw [State.scanWork_eq]
  refine Exchange.writes.trans ?_ ((State.publishDetail_writes p _ _).mono (by decide))
  refine Exchange.writes.trans ?_ ((State.stopRebaseline_writes _).mono (by decide))
  refine Exchange.writes.trans ?_ ((State.finishRebaseline_writes _).mono (by decide))
  exact hevents

theorem State.giveHold_writes (now : SlotCount) (p : Image) (k : Fin 24) (s : State) :
    s.xmem.writes queueBytes (s.giveHold now p k).xmem :=
  State.offer_writes now .hold _ (s.mapKeypad _)

theorem State.giveChord_writes (now : SlotCount) (p : Image) (c : Fin 4) (s : State) :
    s.xmem.writes (queueBytes ++ railBytes) (s.giveChord now p c).xmem := by
  unfold State.giveChord
  refine Exchange.writes.trans ?_ ((State.offer_writes now .chord _ _).mono (by decide))
  exact Exchange.writes_ite (fun _ => (State.serviceChord_writes now p (s.mapKeypad _)).mono (by decide))
    fun _ => Exchange.writes_refl _ _

theorem State.publishDisabled_writes (old new : Image) (s : State) (k : Fin 24) :
    s.xmem.writes [(0x700, 0xC0)] (s.publishDisabled old new k).xmem := by
  refine Exchange.writes_ite (fun _ => Exchange.writes_partWrite ?_ s.xmem) fun _ => Exchange.writes_refl _ _
  have hk := k.isLt
  simp only [rangeWithin, List.any_cons, List.any_nil, List.length_cons, List.length_nil, Bool.or_false,
    Bool.and_eq_true, decide_eq_true_eq]
  omega

theorem State.adoptKeypad_writes (old new : Image) (s : State) :
    s.xmem.writes (slipTableBytes ++ [(0x700, 0xC0)]) (s.adoptKeypad old new).xmem := by
  have hpage (u : State) : u.xmem.writes (slipTableBytes ++ [(0x700, 0xC0)])
      ((List.finRange 24).foldl (State.publishDisabled old new) u).xmem :=
    (Exchange.writes_foldl (State.publishDisabled_writes old new) _ u).mono (qs := [(0x700, 0xC0)]) (by decide)
  unfold State.adoptKeypad
  dsimp only
  refine Exchange.writes.trans ?_ ((State.finishRebaseline_writes _).mono (by decide))
  exact Exchange.writes_ite (fun _ => hpage (s.mapKeypad _)) fun _ => hpage (s.mapKeypad _)

theorem State.beginKeypad_writes (p : Image) (s : State) : s.xmem.writes [(0x0B2, 1)] (s.beginKeypad p).xmem :=
  State.publishFog_writes (s.mapKeypad _)

/-! ### The store -/

theorem State.beginRail_writes (p : Image) (s : State) : s.xmem.writes warmingBytes (s.beginRail p).xmem :=
  Exchange.writes_ite (fun _ => by rw [State.mapRail_xmem]; exact State.enterWarming_writes _ p s)
    fun _ => Exchange.writes_refl _ _

/-- The image read out fills the staging area and no other byte. -/
theorem State.readProfileSlip_writes (p : Image) (s : State) :
    s.xmem.writes [(0x800, 0x400)] (s.readProfileSlip p).1.xmem := by
  unfold State.readProfileSlip
  split
  · have himage : s.xmem.writes [(0x800, p.length)] (s.xmem.partWrite 0x800 p) :=
      Exchange.writes_partWrite (by simp [rangeWithin]) s.xmem
    refine himage.of_outside fun a ha ho => ?_
    simp only [outside, memorySize, List.all_cons, List.all_nil, Bool.and_true, Bool.or_eq_true,
      decide_eq_true_eq] at ha ho ⊢
    omega
  · exact Exchange.writes_refl _ _

theorem State.adoptMonitor_writes (p : Image) (s : State) : s.xmem.writes [(0x0AF, 1)] (s.adoptMonitor p).xmem :=
  Exchange.writes_ite (fun _ => State.setLadderIndex_writes _ s) fun _ => Exchange.writes_refl _ _

/-- The bytes of an activation (R180). -/
def activationBytes : List (Nat × Nat) := slipTableBytes ++ [(0x04, 1), (0x0AE, 2), (0x700, 0xC0)]

/-- The programmed image is the active profile, which the header shows, and no block has taken it up yet (R180). -/
def State.bringIntoForce (s : State) : State :=
  (s.mapStore fun t =>
    { t with active := some s.store.storedImage, factoryActive := false, commit := .idle, stagingHeld := false }).mapX
    (Exchange.partWrite 0x04 [headerFlags true false])

/-- The activation, block after block (R180). -/
theorem State.activate_eq (now : SlotCount) (old : Image) (s : State) :
    s.activate now old =
      ((((s.bringIntoForce.adoptMonitor s.store.storedImage).publishInputs s.store.storedImage).adoptKeypad old
        s.store.storedImage).report .store
          { SlipResult.ok with payload := le16 (u16 s.store.storedImage 1022) }).mapStore fun t =>
            if t.service = .waiting then { t with service := .writing, writeBegan := some now } else t := rfl

theorem State.activate_writes (now : SlotCount) (old : Image) (s : State) :
    s.xmem.writes activationBytes (s.activate now old).xmem := by
  have hflags : s.xmem.writes activationBytes s.bringIntoForce.xmem :=
    Exchange.writes_partWrite (by simp [rangeWithin, activationBytes, slipTableBytes]) s.xmem
  rw [State.activate_eq, State.mapStore_xmem]
  refine Exchange.writes.trans ?_ ((State.report_writes .store _ _).mono (by decide))
  refine Exchange.writes.trans ?_ ((State.adoptKeypad_writes old _ _).mono (by decide))
  refine Exchange.writes.trans ?_ ((State.publishInputs_writes _ _).mono (by decide))
  refine Exchange.writes.trans ?_ ((State.adoptMonitor_writes _ _).mono (by decide))
  exact hflags

theorem State.endServiceWrite_writes (now : SlotCount) (s : State) :
    s.xmem.writes slipTableBytes (s.endServiceWrite now).xmem :=
  State.referenceWritten_writes _ (s.mapStore _)

end Sys2Proof.Machine
end

