-- ==== Sys2Proof/Proofs/WritesOfEvents.lean ====
section
/-!
SUPPORT. Where the part writes (the end): the slips, the events of time, the conversions and the deliveries of a host
frame, each by the relation `Exchange.writes`.
-/

namespace Sys2Proof.Machine

/-! ### Slips -/

/-- The whole of the exchange memory. -/
def memoryBytes : List (Nat × Nat) := [(0, 0xC00)]

/-- Where a slip may write: with a commit in flight READ PROFILE is BUSY, and the staging area stands (R178). -/
def State.slipReach (s : State) : List (Nat × Nat) := if s.store.commit = .idle then memoryBytes else [(0, 0x800)]

theorem State.slipReach_cover (s : State) {qs : List (Nat × Nat)} (h : rangesCover [(0, 0x800)] qs = true) :
    rangesCover s.slipReach qs = true := by
  unfold State.slipReach
  split
  · exact rangesCover_trans (by decide) h
  · exact h

theorem State.slipReach_within_memory (s : State) : rangesCover memoryBytes s.slipReach = true := by
  unfold State.slipReach
  split <;> decide

section slips
variable (now : SlotCount) (p : Image) (n : Fin 16) (s : State)

theorem Exchange.complete_within {rs : List (Nat × Nat)} (hrs : rangesCover rs slipTableBytes = true) (r : SlipResult)
    (x : Exchange) : x.writes rs (x.complete n.val r) :=
  (Exchange.complete_writes n.isLt r x).mono hrs

/-- An immediate slip writes what its block writes, and its completion. -/
theorem State.immediate_writes {rs : List (Nat × Nat)} (hrs : rangesCover rs slipTableBytes = true)
    {a : State × SlipResult} (ha : s.xmem.writes rs a.1.xmem) : s.xmem.writes rs (State.immediate n a).xmem :=
  ha.trans (Exchange.complete_within n hrs _ _)

/-- A lasting slip writes what its block writes, and its acceptance or its completion. -/
theorem State.lasting_writes {rs : List (Nat × Nat)} (hrs : rangesCover rs slipTableBytes = true) (b : LastingBlock)
    {a : State × LastingAnswer} (ha : s.xmem.writes rs a.1.xmem) : s.xmem.writes rs (State.lasting b n a).xmem := by
  unfold State.lasting
  split
  · exact ha.trans ((State.accept_writes b n _).mono (rangesCover_trans hrs (slot_within_table n.isLt)))
  · exact ha.trans (Exchange.complete_within n hrs _ _)

theorem State.stopSlip_writes (delay : Nat) :
    s.xmem.writes (watchdogBytes ++ [(0x19, 1)]) (s.stopSlip now p delay).1.xmem := by
  unfold State.stopSlip
  split
  · rename_i hr
    exact State.enterStopping_writes_of now p _ s (by decide) (by simp [hr])
  · exact Exchange.writes_refl _ _

theorem State.watchdogSlip_writes (mode : Nat) (v : StageSet) :
    s.xmem.writes watchdogBytes (s.watchdogSlip now p mode v).1.xmem := by
  unfold State.watchdogSlip
  split
  · exact Exchange.writes_refl _ _
  · split
    · exact Exchange.writes_refl _ _
    · exact State.setArmed_writes now p _ (s.mapMon _)

theorem State.restartHost_writes (mode : Nat) :
    s.xmem.writes (railBytes ++ clearingBytes) (s.restartHost now p mode).xmem := by
  unfold State.restartHost
  refine Exchange.writes_ite (fun _ => ?_) fun _ => Exchange.writes_refl _ _
  refine Exchange.writes_ite (fun _ => ?_) fun _ => Exchange.writes_ite (fun _ => ?_) fun _ => Exchange.writes_refl _ _
  · exact ((State.addRecord_writes now _ _ _ _ s).mono (by decide)).trans
      (State.enterResetting_writes_of now p _ (by decide) fun _ => by decide)
  · exact State.cutWithNotice_writes_of now p _ _ s (by decide) fun _ => by decide

theorem State.runSlip_writes : s.xmem.writes s.slipReach (s.runSlip now p n).xmem := by
  have hc := s.slipReach_cover (qs := slipTableBytes) (by decide)
  have himm {a : State × SlipResult} (ha : s.xmem.writes s.slipReach a.1.xmem) := State.immediate_writes n s hc ha
  have hlast {a : State × LastingAnswer} (b : LastingBlock) (ha : s.xmem.writes s.slipReach a.1.xmem) :=
    State.lasting_writes n s hc b ha
  unfold State.runSlip
  dsimp only
  split
  · exact himm (by simpa using Exchange.writes_refl _ _)
  · exact himm (by simpa using Exchange.writes_refl _ _)
  · exact hlast .air (by simpa using Exchange.writes_refl _ _)
  · exact hlast .air (by simpa using Exchange.writes_refl _ _)
  · exact himm ((State.stopSlip_writes now p s _).mono (s.slipReach_cover (by decide)))
  · exact (Exchange.complete_within n hc _ s.xmem).trans
      ((State.restartHost_writes now p (s.mapX _) _).mono (s.slipReach_cover (by decide)))
  · exact himm ((State.watchdogSlip_writes now p s _ _).mono (s.slipReach_cover (by decide)))
  · exact hlast .keypad ((State.rebaselineSlip_writes now p _ s).mono (s.slipReach_cover (by decide)))
  · refine himm ?_
    by_cases hidle : s.store.commit = .idle
    · exact (State.readProfileSlip_writes p s).mono (by rw [State.slipReach, if_pos hidle]; decide)
    · simp only [State.readProfileSlip, hidle, if_false]
      exact Exchange.writes_refl _ _
  · exact hlast .store (by simpa using Exchange.writes_refl _ _)
  · exact himm (Exchange.writes_refl _ _)

theorem State.takeSlip_writes : s.xmem.writes s.slipReach (s.takeSlip now p n).xmem :=
  State.runSlip_writes now p n (s.mapEngine _)

theorem State.arbitrateAmong_writes (undelivered : List (Fin 16)) :
    s.xmem.writes s.slipReach (s.arbitrateAmong undelivered now p).xmem := by
  unfold State.arbitrateAmong
  refine Exchange.writes_ite (fun _ => Exchange.writes_refl _ _) fun _ => ?_
  split
  · exact Exchange.writes_refl _ _
  · exact State.takeSlip_writes now p _ s

theorem State.arbitrate_writes : s.xmem.writes s.slipReach (s.arbitrate now p).xmem :=
  State.arbitrateAmong_writes now p s []

theorem State.arbitrate_within_memory : s.xmem.writes memoryBytes (s.arbitrate now p).xmem :=
  (State.arbitrate_writes now p s).mono s.slipReach_within_memory

end slips

/-! ### Deliveries of a host frame -/

theorem State.kick_writes (now : SlotCount) (v : Byte) (s : State) :
    s.xmem.writes [(0x13, 1), (0x1A, 1), (0x0B0, 2), (0x600, 256)] (s.kick now v).xmem := by
  have haccepted (f : Monitor → Monitor) : s.xmem.writes [(0x13, 1), (0x1A, 1), (0x0B0, 2), (0x600, 256)]
      ((s.mapMon f).publishWatchdog now).xmem := (State.publishWatchdog_writes now (s.mapMon f)).mono (by decide)
  have hrefused (r : KickRefusal) : s.xmem.writes [(0x13, 1), (0x1A, 1), (0x0B0, 2), (0x600, 256)]
      (s.setRefusal r).xmem := (State.setRefusal_writes r s).mono (by decide)
  have hjudged {c d : Prop} [Decidable c] [Decidable d] (r : KickRefusal) (f : Monitor → Monitor) :
      s.xmem.writes [(0x13, 1), (0x1A, 1), (0x0B0, 2), (0x600, 256)]
        (if d then s.setRefusal r else (s.mapMon f).publishWatchdog now).xmem :=
    Exchange.writes_ite (fun _ => hrefused r) fun _ => haccepted f
  unfold State.kick
  dsimp only
  split
  · exact haccepted _
  · refine Exchange.writes_ite (fun _ => hrefused _) fun _ => ?_
    split
    · exact Exchange.writes_ite (fun _ => hrefused _) fun _ => haccepted _
    · exact haccepted _
  · refine Exchange.writes_ite (fun _ => hrefused _) fun _ => ?_
    split
    · exact Exchange.writes_ite (fun _ => hrefused _) fun _ => haccepted _
    · exact haccepted _
  · split
    · exact Exchange.writes_ite (fun _ => (State.publishRecords_writes (s.mapMon _)).mono (by decide))
        fun _ => Exchange.writes_refl _ _
    · exact Exchange.writes_refl _ _
  all_goals exact Exchange.writes_refl _ _

theorem State.deliverOwner_writes (undelivered : List (Fin 16)) (now : SlotCount) (p : Image) (n : Fin 16) (s : State) :
    s.xmem.writes s.slipReach (s.deliverOwner undelivered now p n).xmem := by
  unfold State.deliverOwner
  refine Exchange.writes_ite (fun _ => State.arbitrateAmong_writes now p s undelivered) fun _ => ?_
  exact Exchange.writes_ite (fun _ => by simpa using Exchange.writes_refl _ _) fun _ => Exchange.writes_refl _ _

/-- The bytes that the delivery of the header's words writes. -/
def headerWordBytes : List (Nat × Nat) :=
  [(0x0C, 6), (0x13, 3), (0x16, 3), (0x1A, 1), (0x0B0, 2), (0x500, 0x200)]

/-- The deliveries of the four header words, in their order (R157). -/
def State.deliverWords (now : SlotCount) (cs : List Host.Cell) (s : State) : State :=
  let s := if touched cs 0x0E 0x0F then s.mapX Exchange.deliverAcknowledge else s
  let s := if touched cs 0x10 0x11 then s.mapX Exchange.deliverEnable else s
  let s := if touched cs 0x12 0x12 then s.kick now (s.xmem.peek 0x12) else s
  if touched cs 0x16 0x17 then s.deliverReadCounter now else s

/-- The delivery of one owner byte, if the frame touched it. -/
def State.deliverTouched (now : SlotCount) (p : Image) (cs : List Host.Cell) (s : State) (n : Fin 16) : State :=
  if touched cs (slotAddr n.val) (slotAddr n.val) then s.deliverOwner (ownersAfter cs n) now p n else s

theorem State.deliverAll_eq (now : SlotCount) (p : Image) (cs : List Host.Cell) (s : State) :
    s.deliverAll now p cs = (List.finRange 16).foldl (State.deliverTouched now p cs) (s.deliverWords now cs) := rfl

theorem State.deliverWords_writes (now : SlotCount) (cs : List Host.Cell) (s : State) :
    s.xmem.writes headerWordBytes (s.deliverWords now cs).xmem := by
  have hack : s.xmem.writes headerWordBytes
      (if touched cs 0x0E 0x0F then s.mapX Exchange.deliverAcknowledge else s).xmem :=
    Exchange.writes_ite (fun _ => (Exchange.deliverAcknowledge_writes _).mono (by decide))
      fun _ => Exchange.writes_refl _ _
  have hstep {c : Prop} [Decidable c] (f : State → State) (hf : ∀ u : State, u.xmem.writes headerWordBytes (f u).xmem)
      {u : State} (hu : s.xmem.writes headerWordBytes u.xmem) :
      s.xmem.writes headerWordBytes (if c then f u else u).xmem :=
    Exchange.writes_ite (fun _ => hu.trans (hf u)) fun _ => hu
  unfold State.deliverWords
  refine hstep (State.deliverReadCounter now) (fun u => (State.deliverReadCounter_writes now u).mono (by decide)) ?_
  refine hstep (fun u => u.kick now (u.xmem.peek 0x12)) (fun u => (State.kick_writes now _ u).mono (by decide)) ?_
  exact hstep (fun u => u.mapX Exchange.deliverEnable)
    (fun u => (Exchange.deliverEnable_writes u.xmem).mono (by decide)) hack

theorem State.deliverTouched_writes (now : SlotCount) (p : Image) (cs : List Host.Cell) (s : State) (n : Fin 16) :
    s.xmem.writes s.slipReach (s.deliverTouched now p cs n).xmem :=
  Exchange.writes_ite (fun _ => State.deliverOwner_writes _ now p n s) fun _ => Exchange.writes_refl _ _

theorem State.deliverAll_writes (now : SlotCount) (p : Image) (cs : List Host.Cell) (s : State) :
    s.xmem.writes memoryBytes (s.deliverAll now p cs).xmem := by
  rw [State.deliverAll_eq]
  exact ((State.deliverWords_writes now cs s).mono (by decide)).trans
    (Exchange.writes_foldl (fun u n => (State.deliverTouched_writes now p cs u n).mono u.slipReach_within_memory) _ _)

/-! ### The timebase -/

theorem State.countSlot_writes (n : SlotCount) (s : State) : s.xmem.writes [(0x08, 4)] (s.countSlot n).xmem :=
  Exchange.writes_partWrite (by simp [rangeWithin, le32]) s.xmem

/-- The bytes of a slot start before its engine takes a slip. -/
def slotBytes : List (Nat × Nat) := (0x08, 4) :: railBytes

/-- The work of a slot start before its engine takes a slip (R15). -/
def State.slotWorked (n : SlotCount) (p : Image) (pgood hsleep : Bool) (levels : BitVec 4) (s : State) : State :=
  (((((s.countSlot n).startOutputs (n.toNat % 64)).samplePower n p pgood hsleep).sampleInputs n p levels).judgeAtSlot n
    p).publishWatchdog n

/-- The decision about a scan, which waits for the publication in slot 0 (R127). -/
def State.slotDecided (n : SlotCount) (p : Image) (s : State) : State :=
  if n.toNat % 64 = 0 then s else s.decideScan n p (n.toNat % 64)

theorem State.slotWork_eq (n : SlotCount) (p : Image) (pgood hsleep : Bool) (levels : BitVec 4) (s : State) :
    s.slotWork n p pgood hsleep levels =
      ((s.slotWorked n p pgood hsleep levels).slotDecided n p).clearServed.arbitrate n p := rfl

theorem State.slotWorked_writes (n : SlotCount) (p : Image) (pgood hsleep : Bool) (levels : BitVec 4) (s : State) :
    s.xmem.writes slotBytes (s.slotWorked n p pgood hsleep levels).xmem := by
  have hcount : s.xmem.writes slotBytes ((s.countSlot n).startOutputs (n.toNat % 64)).xmem := by
    rw [(State.startOutputs_frame (n.toNat % 64) (s.countSlot n)).2.2.2.2.2.1]
    exact (State.countSlot_writes n s).mono (by decide)
  unfold State.slotWorked
  refine Exchange.writes.trans ?_ ((State.publishWatchdog_writes n _).mono (by decide))
  refine Exchange.writes.trans ?_ ((State.judgeAtSlot_writes n p _).mono (by decide))
  refine Exchange.writes.trans ?_ ((State.sampleInputs_writes n p levels _).mono (by decide))
  exact hcount.trans ((State.samplePower_writes n p pgood hsleep _).mono (by decide))

@[simp] theorem State.slotDecided_xmem (n : SlotCount) (p : Image) (s : State) : (s.slotDecided n p).xmem = s.xmem := by
  unfold State.slotDecided
  split <;> simp

theorem State.slotWork_writes (n : SlotCount) (p : Image) (pgood hsleep : Bool) (levels : BitVec 4) (s : State) :
    s.xmem.writes memoryBytes (s.slotWork n p pgood hsleep levels).xmem := by
  rw [State.slotWork_eq]
  refine Exchange.writes.trans ?_ (State.arbitrate_within_memory n p _)
  simpa using (State.slotWorked_writes n p pgood hsleep levels s).mono (by decide)

theorem State.activateDue_writes (now : SlotCount) (old : Image) (s : State) :
    s.xmem.writes memoryBytes (s.activateDue now old).xmem :=
  Exchange.writes_ite
    (fun _ => ((State.activate_writes now old s).mono (by decide)).trans (State.arbitrate_within_memory now _ _))
    fun _ => Exchange.writes_refl _ _

/-- The work of a boundary before its engine takes a slip: the air and the climate controller, and the decision about the
scan of slot 0 (R16). -/
def State.boundaryWorked (now : SlotCount) (p : Image) (s : State) : State :=
  ((((s.airBoundary now p).climateBoundary now p).1.takeEdges ((s.airBoundary now p).climateBoundary now p).2).decideScan
    now p 0)

theorem State.boundaryWork_eq (now : SlotCount) (old : Image) (s : State) :
    s.boundaryWork now old =
      (((s.mapTime fun t => { t with boundaryTaken := true }).activateDue now old).boundaryWorked now
        (s.profileAfter old)).arbitrate now (s.profileAfter old) := rfl

theorem State.boundaryWorked_writes (now : SlotCount) (p : Image) (s : State) :
    s.xmem.writes (slipTableBytes ++ airBytes ++ climateBytes) (s.boundaryWorked now p).xmem := by
  have h := (State.airBoundary_writes now p s).andThen (rs := slipTableBytes ++ airBytes ++ climateBytes)
    (State.climateBoundary_writes now p _) (by decide) (by decide)
  simpa [State.boundaryWorked] using h

theorem State.boundaryWork_writes (now : SlotCount) (old : Image) (s : State) :
    s.xmem.writes memoryBytes (s.boundaryWork now old).xmem := by
  rw [State.boundaryWork_eq]
  refine Exchange.writes.trans ?_ (State.arbitrate_within_memory now _ _)
  exact (State.activateDue_writes now old (s.mapTime _)).trans ((State.boundaryWorked_writes now _ _).mono (by decide))

theorem State.receiveAnswer_writes (p : Image) (granted : Bool) (boundary : SlotCount) (s : State) :
    s.xmem.writes memoryBytes (s.receiveAnswer p granted boundary).xmem := by
  unfold State.receiveAnswer
  refine Exchange.writes_ite (fun _ => ?_) fun _ => Exchange.writes_refl _ _
  refine Exchange.writes_ite (fun _ => ?_) fun _ => ?_
  · exact (State.enterStarting_writes boundary p (s.mapClimate _)).mono (by decide)
  · exact (State.setWait_writes .budget ((s.mapClimate _).mapRail _)).mono (by decide)

/-! ### Sensing -/

theorem Channel.entry_within (k : Fin 6) (r : Channel) :
    rangeWithin [(0x040 + 8 * k.val, 5)] (0x040 + 8 * k.val, r.entry.length) = true :=
  rangeWithin_of_mem (by simp [Channel.entry_length])

theorem State.takeCode_writes (p : Image) (k : Fin 6) (c : BitVec 12) (s : State) :
    s.xmem.writes [(0x0C, 2), (0x040 + 8 * k.val, 5)] (s.takeCode p k c).xmem := by
  have hentry (r : Channel) : s.xmem.writes [(0x0C, 2), (0x040 + 8 * k.val, 5)]
      (s.xmem.partWrite (0x040 + 8 * k.val) r.entry) :=
    (Exchange.writes_partWrite (Channel.entry_within k r) s.xmem).mono (rangesCover_of_subset (by simp))
  have hraise (u : State) : u.xmem.writes [(0x0C, 2), (0x040 + 8 * k.val, 5)] (u.raise .climateFault).xmem :=
    (State.raise_writes .climateFault u).mono (rangesCover_of_subset (by simp))
  unfold State.takeCode
  exact Exchange.writes_ite (fun _ => Exchange.writes.trans (hentry _) (hraise (State.mapX _ _))) fun _ => hentry _

theorem State.judgeOvertemp_writes (now : SlotCount) (p : Image) (s : State) :
    s.xmem.writes cutBytes (s.judgeOvertemp now p).xmem := by
  unfold State.judgeOvertemp
  split
  · refine Exchange.writes_ite (fun h => ?_) fun _ => Exchange.writes_refl _ _
    exact State.cutWithNotice_writes_of now p _ _ s (by decide) fun hw => by simp [hw, RailState.isOn] at h
  · exact Exchange.writes_refl _ _

theorem State.deliverTemp_writes (now : SlotCount) (p : Image) (k : Fin 6) (s : State) :
    s.xmem.writes memoryBytes (s.deliverTemp now p k).xmem := by
  unfold State.deliverTemp
  refine Exchange.writes_ite (fun _ => (State.judgeFog_writes p s).mono (by decide)) fun _ => ?_
  exact Exchange.writes_ite (fun _ => (State.judgeOvertemp_writes now p s).mono (by decide))
    fun _ => Exchange.writes_refl _ _

theorem State.takeRailCodes_writes (mV mA : Nat) (s : State) :
    s.xmem.writes [(0x08C, 4), (0x090, if s.slotNumber = 63 then 2 else 0)] (s.takeRailCodes mV mA).xmem := by
  have hvalues (b : Nat) : s.xmem.writes [(0x08C, 4), (0x090, b)] (s.xmem.partWrite 0x08C (le16 mV ++ le16 mA)) :=
    Exchange.writes_partWrite (by simp [rangeWithin]) s.xmem
  unfold State.takeRailCodes
  by_cases hlast : s.slotNumber = 63
  · have hslot : ((s.mapSense (Sensing.takeRail mV mA)).mapX (Exchange.partWrite 0x08C (le16 mV ++ le16 mA))).slotNumber
        = 63 := hlast
    simp only [hlast, hslot, if_true]
    exact (hvalues 2).trans (Exchange.writes_partWrite (by simp [rangeWithin]) _)
  · have hslot : ((s.mapSense (Sensing.takeRail mV mA)).mapX (Exchange.partWrite 0x08C (le16 mV ++ le16 mA))).slotNumber
        ≠ 63 := hlast
    simp only [hlast, hslot, if_false]
    exact hvalues 0

theorem State.testCurrent_writes (now : SlotCount) (p : Image) (mA : Nat) (s : State) :
    s.xmem.writes cutBytes (s.testCurrent now p mA).xmem := by
  unfold State.testCurrent
  refine Exchange.writes_ite (fun h => ?_) fun _ => Exchange.writes_refl _ _
  refine Exchange.writes_ite (fun _ => Exchange.writes_refl _ _) fun _ => ?_
  exact State.failure_writes_of now p _ s (by decide) fun hw => by simp [hw, RailState.isOn] at h

/-! ### Ends of timers -/

/-- An event that belongs to a timer writes what its act does. -/
theorem State.atEnd_writes {rs : List (Nat × Nat)} (timer : Option SlotCount) {act : Image → SlotCount → State → State}
    {s : State} (h : ∀ p e, s.xmem.writes rs (act p e s).xmem) : s.xmem.writes rs (s.atEnd timer act).xmem := by
  unfold State.atEnd
  split
  · exact h _ _
  · exact Exchange.writes_refl _ _

section ends
variable (p : Image) (e : SlotCount) (s : State)

theorem State.endPgoodLimit_writes : s.xmem.writes cutBytes (s.endPgoodLimit p e).xmem := by
  unfold State.endPgoodLimit
  refine Exchange.writes_ite (fun h => ?_) fun _ => Exchange.writes_refl _ _
  refine Exchange.writes_ite (fun _ => Exchange.writes_refl _ _) fun _ => ?_
  exact State.failure_writes_of e p _ (s.mapRail _) (by decide) fun hw => by simp [h] at hw

theorem State.endResetHold_writes : s.xmem.writes [(0x19, 2), (0x0B0, 2)] (s.endResetHold p e).xmem :=
  Exchange.writes_ite (fun h => State.enterRunning_writes_of e p s (by decide) fun hw => by simp [h] at hw)
    fun _ => Exchange.writes_refl _ _

theorem State.endStopLimit_writes : s.xmem.writes cutBytes (s.endStopLimit p e).xmem := by
  unfold State.endStopLimit
  refine Exchange.writes_ite (fun h => ?_) fun _ => Exchange.writes_refl _ _
  exact ((State.addRecord_writes e _ _ _ _ s).mono (by decide)).trans
    (State.enterCooldown_writes_of e _ _ _ (by decide) fun hw => by simp [h] at hw)

theorem State.endResetWidth_writes : s.xmem.writes [(0x19, 2), (0x0B0, 2)] (s.endResetWidth p e).xmem :=
  Exchange.writes_ite (fun h => State.enterRunning_writes_of e p s (by decide) fun hw => by simp [h] at hw)
    fun _ => Exchange.writes_refl _ _

theorem State.endOffTimer_writes : s.xmem.writes warmingBytes (s.endOffTimer p e).xmem := by
  unfold State.endOffTimer
  refine Exchange.writes_ite (fun h => ?_) fun _ => Exchange.writes_refl _ _
  refine Exchange.writes_ite (fun _ => State.enterWarming_writes e p (s.mapRail _)) fun _ => ?_
  exact (State.setRail_writes e .off (s.mapRail _)).mono (by decide)

theorem State.endOverride_writes : s.xmem.writes cutBytes (s.endOverride p e).xmem := by
  unfold State.endOverride
  refine Exchange.writes_ite (fun h => ?_) fun _ => Exchange.writes_refl _ _
  refine State.cutWithNotice_writes_of e p _ _ (s.mapRail _) (by decide) fun hw => ?_
  have hwarming : s.rail.state = .warming := hw
  simp [hwarming, RailState.isOn] at h

theorem State.completeStop_writes (hs : s.rail.state = .stopping) :
    s.xmem.writes [(0x19, 2), (0x0AD, 1), (0x0B0, 2)] (s.completeStop e p).xmem :=
  State.enterCooldown_writes_of e _ _ s (by decide) fun hw => by simp [hs] at hw

/-- The watchdog's expiry up to the record: the ladder has moved, the record names the action, and it is pending (R111,
steps 1 to 4). -/
def State.expired (cause : RestartCause) (p : Image) (e : SlotCount) (s : State) : State :=
  (((s.mapMon fun m => { m with watchdog := .expired, stageEnd := none }).setLadderIndex
    (ladderNext p s.mon.ladderIndex)).addRecord e cause (ladderAction p s.mon.ladderIndex).recorded s.mon.ladderIndex
      .running).mapMon fun m => { m with pendingRecord := some m.recordCounter }

theorem State.expire_eq (cause : RestartCause) :
    s.expire cause p e =
      ((s.expired cause p e).carryOut e p (ladderAction p s.mon.ladderIndex)).publishWatchdog e := rfl

theorem State.expired_writes (cause : RestartCause) :
    s.xmem.writes ((0x0AF, 1) :: recordBytes) (s.expired cause p e).xmem := by
  unfold State.expired
  rw [State.mapMon_xmem]
  exact (State.setLadderIndex_writes _ (s.mapMon _)).andThen (State.addRecord_writes e _ _ _ _ _) (by decide)
    (by decide)

theorem State.expire_writes (cause : RestartCause) :
    s.xmem.writes (railBytes ++ clearingBytes) (s.expire cause p e).xmem := by
  rw [State.expire_eq]
  refine Exchange.writes.trans ?_ ((State.publishWatchdog_writes e _).mono (by decide))
  exact ((State.expired_writes p e s cause).mono (by decide)).trans (State.carryOut_writes e p _ _)

theorem State.warn_writes : s.xmem.writes ((0x0C, 2) :: watchdogBytes) (s.warn e).xmem :=
  ((State.publishWatchdog_writes e (s.mapMon _)).mono (by decide)).trans
    ((State.raise_writes .wdtWarn _).mono (by decide))

end ends

end Sys2Proof.Machine
end

