-- ==== Sys2Proof/Proofs/MemoryForm.lean ====
section
/-!
The statements on the exchange memory as every step keeps it: an open READ frame's snapshot (R153) and the canonical
form. Both are read off the relation `Exchange.writes`, command by command.
-/

namespace Sys2Proof.Machine

/-! ### Commands that are no frames -/

/-- What an open READ frame depends on stays: the canonical form, the covered range, the bytes shifted out and the bytes it
reads (R153). -/
def Exchange.undisturbed (x y : Exchange) : Prop :=
  x.wf = true → y.wf = true ∧ y.frame.covered = x.frame.covered ∧ y.miso = x.miso ∧
    ∀ a, x.covers a = true → Memory.read y.mem a = Memory.read x.mem a

theorem Exchange.writes.undisturbed {rs : List (Nat × Nat)} {x y : Exchange} (h : x.writes rs y) : x.undisturbed y :=
  fun hx => ⟨(h hx).wf, (h hx).covered, (h hx).miso, (h hx).snapshot⟩

theorem Exchange.undisturbed.trans {x y z : Exchange} (hxy : x.undisturbed y) (hyz : y.undisturbed z) :
    x.undisturbed z := by
  intro hx
  obtain ⟨hwf, hcov, hmiso, hread⟩ := hxy hx
  obtain ⟨hwf', hcov', hmiso', hread'⟩ := hyz hwf
  refine ⟨hwf', hcov'.trans hcov, hmiso'.trans hmiso, fun a ha => (hread' a ?_).trans (hread a ha)⟩
  simpa only [Exchange.covers, hcov] using ha

/-- READY is set without a write. -/
theorem Exchange.undisturbed_ready (x : Exchange) : x.undisturbed { x with ready := true } :=
  fun h => ⟨h, rfl, rfl, fun _ _ => rfl⟩

/-- The image that the load makes active (R176). -/
def State.loadedImage (s : State) : Image :=
  if validImage s.store.storedImage then s.store.storedImage else factoryImage

/-- The load up to the moment at which READY is set: the store, the header flags, the reference, the monitor and the keypad
controller (R176). -/
def State.loaded (s : State) : State :=
  let good := validImage s.store.storedImage
  let s1 : State :=
    { s.mapStore fun t => { t with active := some s.loadedImage, factoryActive := !good } with supplyLow := false }
  let s2 := s1.mapX (Exchange.partWrite 0x04 [headerFlags true (!good)])
  let s3 := if good then s2 else s2.raise .profileDefaulted
  ((s3.loadReference (serviceReference s3.store.serviceRecord)).beginMonitor s.loadedImage).beginKeypad s.loadedImage

theorem State.loadProfile_eq (s : State) :
    s.loadProfile = (s.loaded.mapX fun x => { x with ready := true }).beginRail s.loadedImage := rfl

theorem State.loaded_writes (s : State) : s.xmem.writes [(0x04, 1), (0x0C, 2), (0x0B2, 1)] s.loaded.xmem := by
  have hflags (b : Bool) : s.xmem.writes [(0x04, 1), (0x0C, 2), (0x0B2, 1)] (s.xmem.partWrite 0x04 [headerFlags true b]) :=
    Exchange.writes_partWrite (by simp [rangeWithin]) s.xmem
  unfold State.loaded
  refine Exchange.writes.trans ?_ ((State.beginKeypad_writes _ _).mono (by decide))
  simp only [State.beginMonitor_frame, State.loadReference_frame]
  exact Exchange.writes_ite (fun _ => hflags _)
    fun _ => Exchange.writes.trans (hflags _) ((Exchange.raise_writes .profileDefaulted _).mono (by decide))

theorem State.loadProfile_undisturbed (s : State) : s.xmem.undisturbed s.loadProfile.xmem := by
  rw [State.loadProfile_eq]
  have hready : s.loaded.xmem.undisturbed (s.loaded.mapX fun x => { x with ready := true }).xmem :=
    Exchange.undisturbed_ready s.loaded.xmem
  exact ((State.loaded_writes s).undisturbed.trans hready).trans (State.beginRail_writes _ _).undisturbed

/-- Every command but the load, the frames of the link and the changes of the supply is a series of the part's own
writes. -/
theorem exec_writes {s t : State} {c : Instr} (hc : endsRead c = false) (hload : c ≠ .profileLoad)
    (h : exec c s = .next t) : s.xmem.writes memoryBytes t.xmem := by
  cases c with
  | profileLoad => exact absurd rfl hload
  | slotStart pgood hsleep inputs =>
    cases h
    split
    · exact State.slotWork_writes _ _ _ _ _ s
    · exact Exchange.writes_refl _ _
  | windowBoundary =>
    cases h
    split
    · exact State.boundaryWork_writes _ _ s
    · exact Exchange.writes_refl _ _
  | startReservationAnswer =>
    cases h
    split
    · exact State.receiveAnswer_writes _ _ _ s
    · exact Exchange.writes_refl _ _
  | conversionEnd k code =>
    cases h
    split
    · refine Exchange.writes_ite (fun _ => ?_) fun _ => Exchange.writes_refl _ _
      refine Exchange.writes.trans ?_ (State.deliverTemp_writes _ _ k _)
      exact (State.takeCode_writes _ k code s).mono
        ((by decide : ∀ k : Fin 6, rangesCover memoryBytes [(0x0C, 2), (0x040 + 8 * k.val, 5)] = true) k)
    · exact Exchange.writes_refl _ _
  | railConversionEnd vsns isns =>
    cases h
    split
    · refine Exchange.writes_ite (fun _ => ?_) fun _ => Exchange.writes_refl _ _
      refine Exchange.writes.trans ?_ ((State.testCurrent_writes _ _ _ _).mono (by decide))
      exact (State.takeRailCodes_writes _ _ s).mono (by split <;> decide)
    · exact Exchange.writes_refl _ _
  | tachEdge fan elapsed =>
    cases h
    exact (State.setFanSpeed_writes fan _ s).mono
      ((by decide : ∀ f : Fin 2, rangesCover memoryBytes [(0x09A + 8 * f.val, 2)] = true) fan)
  | tachTimeout fan =>
    cases h
    exact (State.setFanSpeed_writes fan _ s).mono
      ((by decide : ∀ f : Fin 2, rangesCover memoryBytes [(0x09A + 8 * f.val, 2)] = true) fan)
  | sleepHoldEnd =>
    cases h
    split
    · exact Exchange.writes_ite (fun hs => (State.completeStop_writes _ _ s hs.1).mono (by decide))
        fun _ => Exchange.writes_refl _ _
    · exact Exchange.writes_refl _ _
  | pgoodLimitEnd =>
    cases h
    exact (State.atEnd_writes _ fun p e => State.endPgoodLimit_writes p e s).mono (by decide)
  | resetHoldEnd =>
    cases h
    exact (State.atEnd_writes _ fun p e => State.endResetHold_writes p e s).mono (by decide)
  | stopLimitEnd =>
    cases h
    exact (State.atEnd_writes _ fun p e => State.endStopLimit_writes p e s).mono (by decide)
  | resetDelayEnd =>
    cases h
    exact State.atEnd_writes _ fun p e => by simpa using Exchange.writes_refl _ _
  | resetWidthEnd =>
    cases h
    exact (State.atEnd_writes _ fun p e => State.endResetWidth_writes p e s).mono (by decide)
  | offTimerEnd =>
    cases h
    exact (State.atEnd_writes _ fun p e => State.endOffTimer_writes p e s).mono (by decide)
  | pulseEnd =>
    cases h
    exact State.atEnd_writes _ fun p e => Exchange.writes_refl _ _
  | overrideEnd =>
    cases h
    exact (State.atEnd_writes _ fun p e => State.endOverride_writes p e s).mono (by decide)
  | graceExpiry =>
    cases h
    exact State.atEnd_writes _ fun p e => Exchange.writes_ite
      (fun _ => (State.expire_writes p e s _).mono (by decide)) fun _ => Exchange.writes_refl _ _
  | stage1Expiry =>
    cases h
    exact State.atEnd_writes _ fun _ e => Exchange.writes_ite
      (fun _ => (State.warn_writes e s).mono (by decide)) fun _ => Exchange.writes_refl _ _
  | stage2Expiry =>
    cases h
    exact State.atEnd_writes _ fun p e => Exchange.writes_ite
      (fun _ => (State.expire_writes p e s _).mono (by decide)) fun _ => Exchange.writes_refl _ _
  | stableEnd =>
    cases h
    exact State.atEnd_writes _ fun _ _ => (State.setLadderIndex_writes 0 (s.mapMon _)).mono (by decide)
  | scanEnd counts =>
    cases h
    split
    · exact ((State.scanWork_writes _ _ counts s).mono (by decide)).trans (State.arbitrate_within_memory _ _ _)
    · exact Exchange.writes_refl _ _
  | hold key =>
    cases h
    exact State.atEnd_writes _ fun p e => (State.giveHold_writes e p key s).mono (by decide)
  | chord number =>
    cases h
    exact State.atEnd_writes _ fun p e => Exchange.writes_ite (fun _ => Exchange.writes_refl _ _)
      fun _ => (State.giveChord_writes e p number s).mono (by decide)
  | programmingEnd =>
    cases h
    split <;> exact Exchange.writes_refl _ _
  | serviceWriteEnd =>
    cases h
    split
    · exact ((State.endServiceWrite_writes _ s).mono (by decide)).trans (State.arbitrate_within_memory _ _ _)
    · exact Exchange.writes_refl _ _
  | _ => cases hc

/-- While no frame begins or ends and the supply stays, what an open READ frame reads stays (R153). -/
theorem exec_undisturbed {s t : State} {c : Instr} (hc : endsRead c = false) (h : exec c s = .next t) :
    s.xmem.undisturbed t.xmem := by
  by_cases hload : c = .profileLoad
  · subst hload
    cases h
    split
    · exact (Exchange.writes_refl memoryBytes _).undisturbed
    · exact State.loadProfile_undisturbed s
  · exact (exec_writes hc hload h).undisturbed

/-! ### Frames of the link -/

/-- A frame's beginning or end leaves the landed memory and an empty held image. -/
theorem Exchange.wf_of_landed {x y : Exchange} (hx : x.wf = true) (hmem : y.mem = x.land.mem)
    (hheld : y.frame.held = []) : y.wf = true := by
  have hland := Exchange.wf_land hx
  simp only [Exchange.wf, Bool.and_eq_true] at hland ⊢
  rw [hmem, hheld]
  exact ⟨hland.1, rfl⟩

theorem Exchange.wf_takeWrite {x : Exchange} (hx : x.wf = true) (bytes : List Byte) : (x.takeWrite bytes).wf = true := by
  unfold Exchange.takeWrite
  split <;> exact Exchange.wf_of_landed hx rfl rfl

theorem Exchange.wf_writeAll {x : Exchange} (hx : x.wf = true) (cs : List Host.Cell) :
    Exchange.wf { x with mem := Memory.writeAll x.mem cs } = true := by
  simp only [Exchange.wf, Bool.and_eq_true] at hx ⊢
  exact ⟨Memory.wf_writeAll hx.1 cs, hx.2⟩

theorem State.endWrite_wf {s : State} (hs : s.xmem.wf = true) (cs : List Host.Cell) : (s.endWrite cs).xmem.wf = true := by
  have hrefused (b : Bool) : (if b then s else s.setRefused).xmem.wf = true := by
    split <;> exact hs
  unfold State.endWrite
  split
  · exact hs
  · split
    · exact ((State.deliverAll_writes _ _ _ _) (Exchange.wf_writeAll (hrefused _) _)).wf
    · exact hs

theorem State.writeFrame_wf {s : State} (hs : s.xmem.wf = true) (bytes : List Byte) :
    (s.writeFrame bytes).xmem.wf = true :=
  State.endWrite_wf (Exchange.wf_takeWrite hs bytes) _

/-- Every command keeps the exchange memory and the held image canonical. -/
theorem exec_wf {s t : State} {c : Instr} (hs : s.xmem.wf = true) (h : exec c s = .next t) : t.xmem.wf = true := by
  by_cases hc : endsRead c = false
  · exact (exec_undisturbed hc h hs).1
  · cases c with
    | powerOn => cases h; rfl
    | brownOut => cases h; rfl
    | read n =>
      cases h
      split
      · exact Exchange.wf_of_landed hs rfl rfl
      · split
        · exact Exchange.wf_of_landed hs rfl rfl
        · exact hs
    | status n => cases h; exact Exchange.wf_of_landed hs rfl rfl
    | clear n =>
      cases h
      split
      · exact ((State.hostRestartClearing_writes _ _ _) (Exchange.wf_of_landed hs rfl rfl)).wf
      · exact Exchange.wf_of_landed hs rfl rfl
    | unknownCommand command n =>
      cases h
      split
      · exact hs
      · exact Exchange.wf_of_landed hs rfl rfl
    | readAddressComplete high low => cases h; exact Exchange.wf_of_landed hs rfl rfl
    | write | attentionAcknowledge | attentionEnable | kick | keyReadCounter | slipPost | slipChain | slipWithdraw
    | slipStopreq | slipFree | setZoneTarget | setFanFloor | probeAirflow | resetFilterReference | requestStop
    | requestRestart | setWatchdog | rebaselineKeys | readProfile | commitProfile | unknownKind =>
      cases h
      exact State.writeFrame_wf hs _
    | _ => exact absurd rfl hc

/-- A step is an idle step or a command on the state with the rest of the queue. -/
theorem step_cases {s t : State} (h : step s = .next t) :
    t = s ∨ ∃ c rest, s.pending = c :: rest ∧ exec c { s with pending := rest } = .next t := by
  unfold step at h
  split at h
  · exact .inl (Host.Outcome.next.inj h).symm
  · exact .inr ⟨_, _, ‹_›, h⟩

end Sys2Proof.Machine

namespace Sys2Proof.Proofs

open Sys2Proof.Machine

/-- Settles O54: a command that is no frame and no change of the supply leaves an open READ frame undisturbed. -/
theorem openReadFrameKeepsItsSnapshot : Obligations.OpenReadFrameKeepsItsSnapshot := by
  intro s t c hs _ hc h
  exact (exec_undisturbed hc h hs).2

/-- Settles O55: every command keeps the canonical form, and so does every step. -/
theorem memoryKeepsItsCanonicalForm : Obligations.MemoryKeepsItsCanonicalForm := by
  intro s t hs h
  obtain rfl | ⟨c, rest, _, hexec⟩ := step_cases h
  · exact hs
  · exact exec_wf (s := { s with pending := rest }) hs hexec

end Sys2Proof.Proofs
end

