-- ==== Sys2Proof/Proofs/RailRules.lean ====
section
/-!
SUPPORT. What the rail controller's operations leave of the rail record, the monitor and the climate controller: one
equation for each, in the terms of the record before.
-/

namespace Sys2Proof.Machine

/-! ### The monitor at a change of rail state (R104) -/

/-- The rail leaves RUNNING. -/
def leavesRunning (old new : RailState) : Bool := old == .running && new != .running

/-- The rail enters OFF or LOCKOUT. -/
def restsAt (new : RailState) : Bool := new == .off || new == .lockout

/-- R104, field by field. -/
theorem Monitor.railChanged_eq (old new : RailState) (m : Monitor) :
    m.railChanged old new =
      { m with
        watchdog :=
          if m.watchdog = .expired then (if restsAt new then .dormant else .expired)
          else if leavesRunning old new then .dormant else m.watchdog
        stageEnd := if leavesRunning old new ∧ m.watchdog ≠ .expired then none else m.stageEnd
        stableEnd := if leavesRunning old new then none else m.stableEnd
        pendingRecord := if restsAt new then none else m.pendingRecord } := by
  have hleave : (old = .running ∧ new ≠ .running) ↔ leavesRunning old new = true := by simp [leavesRunning]
  have hrest : (new = .off ∨ new = .lockout) ↔ restsAt new = true := by simp [restsAt]
  obtain ⟨watchdog⟩ := m
  unfold Monitor.railChanged
  simp only [hleave, hrest]
  by_cases hw : watchdog = .expired
  · subst hw
    cases leavesRunning old new <;> cases restsAt new <;> simp
  · cases leavesRunning old new <;> cases restsAt new <;> simp [hw]

/-- A change of rail state that neither leaves RUNNING nor comes to rest is nothing to the monitor. -/
theorem Monitor.railChanged_of_steady {old new : RailState} (hl : leavesRunning old new = false)
    (hr : restsAt new = false) (m : Monitor) : m.railChanged old new = m := by
  have hleave : ¬(old = .running ∧ new ≠ .running) := by simpa [leavesRunning] using hl
  have hrest : ¬(new = .off ∨ new = .lockout) := by simpa [restsAt] using hr
  simp only [Monitor.railChanged, hleave, hrest, if_false]

/-! ### The change of rail state (R66, R98) -/

/-- The climate controller without overrides (R21). -/
def Climate.withoutOverrides (c : Climate) : Climate :=
  { c with zones := tab 3 fun z => { c.zones[z] with override := none } }

theorem State.clearOverrides_climate (s : State) : s.clearOverrides.climate = s.climate.withoutOverrides := rfl

section setRail
variable (now : SlotCount) (new : RailState) (s : State)

theorem State.setRail_rail :
    (s.setRail now new).rail =
      { s.rail with
        state := new
        waitReason := if s.rail.state = .warming ∧ new ≠ .warming then .noWait else s.rail.waitReason } := by
  unfold State.setRail
  by_cases hw : s.rail.state = .warming ∧ new ≠ .warming <;> by_cases ho : new.removesOverrides = true <;>
    simp [hw, ho, State.setWait]

theorem State.setRail_mon : (s.setRail now new).mon = s.mon.railChanged s.rail.state new := by
  unfold State.setRail
  by_cases hw : s.rail.state = .warming ∧ new ≠ .warming <;> by_cases ho : new.removesOverrides = true <;>
    simp [hw, ho]

theorem State.setRail_climate :
    (s.setRail now new).climate = if new.removesOverrides then s.climate.withoutOverrides else s.climate := by
  unfold State.setRail
  by_cases hw : s.rail.state = .warming ∧ new ≠ .warming <;> by_cases ho : new.removesOverrides = true <;>
    simp [hw, ho, State.clearOverrides, Climate.withoutOverrides]

/-- The change of state publishes the watchdog last (R98, R124). -/
theorem State.setRail_shown (h : s.xmem.wf = true) : (s.setRail now new).watchdogShown now := by
  unfold State.setRail
  refine State.publishWatchdog_shown now ?_
  rw [State.mapMon_xmem]
  have hstate := Exchange.wf_partWrite h 0x19 [new.code]
  split
  · refine Exchange.wf_partWrite ?_ _ _
    split <;> exact hstate
  · split <;> exact hstate

end setRail

/-! ### The rail goes off (R78, R85) -/

/-- The rail record after a cut, with the fields of COOLDOWN or LOCKOUT still to come (R78). -/
def Rail.cut (r : Rail) : Rail :=
  { r with
    railEn := false, hrst := false, hpwrbtn := false, pulse := none, pgoodLimit := none, resetHold := none,
    stopLimit := none, resetDelay := none, resetWidth := none, overcurrentCount := 0, sleepCount := 0 }

theorem State.cutLines_rail (s : State) : s.cutLines.rail = s.rail.cut := rfl

section cut
variable (now : SlotCount) (restart : Bool) (off : Nat) (s : State)

theorem State.enterCooldown_rail :
    (s.enterCooldown now restart off).rail =
      { s.rail.cut with
        state := .cooldown
        waitReason := if s.rail.state = .warming then .noWait else s.rail.waitReason
        restartPending := restart, offTime := off, offTimer := some (after now off) } := by
  simp [State.enterCooldown, State.setRestartPending, State.setRail_rail, State.cutLines_rail, Rail.cut]

theorem State.enterCooldown_mon :
    (s.enterCooldown now restart off).mon = s.mon.railChanged s.rail.state .cooldown := by
  simp [State.enterCooldown, State.setRail_mon, State.cutLines_rail, Rail.cut]

theorem State.enterCooldown_climate :
    (s.enterCooldown now restart off).climate = s.climate.withoutOverrides := by
  simp [State.enterCooldown, State.setRail_climate, RailState.removesOverrides]

theorem State.enterLockout_rail :
    (s.enterLockout now).rail =
      { s.rail.cut with
        state := .lockout
        waitReason := if s.rail.state = .warming then .noWait else s.rail.waitReason
        restartPending := false } := by
  simp [State.enterLockout, State.setRestartPending, State.setRail_rail, State.cutLines_rail, Rail.cut]

theorem State.enterLockout_mon : (s.enterLockout now).mon = s.mon.railChanged s.rail.state .lockout := by
  simp [State.enterLockout, State.setRail_mon, State.cutLines_rail, Rail.cut]

theorem State.enterLockout_climate : (s.enterLockout now).climate = s.climate.withoutOverrides := by
  simp [State.enterLockout, State.setRail_climate, RailState.removesOverrides]

end cut

/-! ### Records and the ladder (R114, R118, R119) -/

/-- The monitor with the record of `newRecord` added (R118, R119). -/
theorem State.addRecord_mon (now : SlotCount) (cause : RestartCause) (action : RecordAction) (i : Nat)
    (before : RailState) (s : State) :
    (s.addRecord now cause action i before).mon =
      { s.mon with
        recordCounter := nextRecordNumber s.mon.recordCounter
        records := (s.newRecord now cause action i before :: s.mon.records).take 8
        lastRefusal := .noRefusal } := by
  simp [State.addRecord, State.setRefusal, State.newRecord]

theorem State.setLadderIndex_mon (i : Nat) (s : State) : (s.setLadderIndex i).mon = { s.mon with ladderIndex := i } := rfl

theorem State.setRefusal_mon (r : KickRefusal) (s : State) : (s.setRefusal r).mon = { s.mon with lastRefusal := r } := rfl

/-- Whether the ladder asks for LOCKOUT at index `i`. -/
def ladderLocks (p : Image) (i : Nat) : Bool := ladderAction p i == .lockout

/-- In the words of the statements: beyond its length the ladder locks (R114). -/
theorem ladderLocks_eq (p : Image) (i : Nat) :
    ladderLocks p i = decide (i < Profile.ladderLength p → Profile.ladderStep p i = .lockout) := by
  unfold ladderLocks ladderAction
  by_cases hi : i < Profile.ladderLength p
  · simp only [hi, if_true, forall_const]
    cases Profile.ladderStep p i <;> rfl
  · simp [hi]

/-- The action of a failure's record: WARM is carried out as COLD (R79, R119). -/
def failureAction (p : Image) (i : Nat) : RecordAction := if ladderLocks p i then .lockout else .cold

/-- The part after the ladder has moved and the record of a failure is added, before the rail goes off (R79). -/
def State.failureRecorded (now : SlotCount) (p : Image) (cause : RestartCause) (s : State) : State :=
  (s.setLadderIndex (ladderNext p s.mon.ladderIndex)).addRecord now cause (failureAction p s.mon.ladderIndex)
    s.mon.ladderIndex s.rail.state

/-- A failure is the record, then LOCKOUT or COOLDOWN (R79). -/
theorem State.failure_eq (now : SlotCount) (p : Image) (cause : RestartCause) (s : State) :
    s.failure now p cause =
      if ladderLocks p s.mon.ladderIndex then (s.failureRecorded now p cause).enterLockout now
      else (s.failureRecorded now p cause).enterCooldown now true (minimumOffSlots p) := by
  unfold State.failure State.failureRecorded failureAction ladderLocks
  dsimp only
  cases ladderAction p s.mon.ladderIndex <;> rfl

theorem State.failureRecorded_mon (now : SlotCount) (p : Image) (cause : RestartCause) (s : State) :
    (s.failureRecorded now p cause).mon =
      { s.mon with
        ladderIndex := ladderNext p s.mon.ladderIndex
        recordCounter := nextRecordNumber s.mon.recordCounter
        records :=
          (s.newRecord now cause (failureAction p s.mon.ladderIndex) s.mon.ladderIndex s.rail.state ::
            s.mon.records).take 8
        lastRefusal := .noRefusal } := by
  rw [State.failureRecorded, State.addRecord_mon]
  rfl

@[simp] theorem State.failureRecorded_frame (now : SlotCount) (p : Image) (cause : RestartCause) (s : State) :
    (s.failureRecorded now p cause).time = s.time ∧ (s.failureRecorded now p cause).sense = s.sense ∧
      (s.failureRecorded now p cause).climate = s.climate ∧ (s.failureRecorded now p cause).air = s.air ∧
      (s.failureRecorded now p cause).rail = s.rail ∧ (s.failureRecorded now p cause).keypad = s.keypad ∧
      (s.failureRecorded now p cause).engine = s.engine ∧ (s.failureRecorded now p cause).store = s.store ∧
      (s.failureRecorded now p cause).supplyLow = s.supplyLow ∧ (s.failureRecorded now p cause).fresh = s.fresh ∧
      (s.failureRecorded now p cause).pending = s.pending := by
  simp [State.failureRecorded]

/-! ### The start gate (R71 to R74) -/

/-- The rail record of a judgement in the terms of its input: start request and wait reason stand by the gate. -/
theorem State.judgeGate_rail (p : Image) (age : Nat) (s : State) :
    ∃ counts isOpen refused wait,
      (s.judgeGate p age).rail =
        { s.rail with
          warmingAge := age, warmCount := counts, startRequest := isOpen, budgetRefused := refused, waitReason := wait } :=
  ⟨_, _, _, _, rfl⟩

theorem State.enterWarming_rail (now : SlotCount) (p : Image) (s : State) :
    ∃ counts isOpen wait,
      (s.enterWarming now p).rail =
        { s.rail with
          state := .warming, restartPending := false, offTimer := none, judgedAt := some now, warmingAge := 0
          warmCount := counts, startRequest := isOpen, budgetRefused := false, waitReason := wait } := by
  obtain ⟨counts, isOpen, refused, wait, hrail⟩ := State.judgeGate_rail p 0
    (((s.setRail now .warming).setRestartPending false).mapRail fun r =>
      { r with
        warmCount := Vector.replicate 3 0, startRequest := false, budgetRefused := false, judgedAt := some now,
        offTimer := none })
  have hrefused : (s.enterWarming now p).rail.budgetRefused = false := by
    simp [State.enterWarming, State.judgeGate, State.setWait]
  refine ⟨counts, isOpen, wait, ?_⟩
  have heq : (s.enterWarming now p).rail = _ := hrail
  rw [heq] at hrefused ⊢
  dsimp only at hrefused
  rw [hrefused]
  simp [State.setRestartPending, State.setRail_rail]

theorem State.enterWarming_mon (now : SlotCount) (p : Image) (s : State) :
    (s.enterWarming now p).mon = s.mon.railChanged s.rail.state .warming := by
  simp [State.enterWarming, State.setRail_mon]

theorem State.enterWarming_climate (now : SlotCount) (p : Image) (s : State) :
    (s.enterWarming now p).climate = s.climate.withoutOverrides := by
  simp [State.enterWarming, State.setRail_climate, RailState.removesOverrides]

/-! ### STARTING, RUNNING, STOPPING, RESETTING -/

section enter
variable (now : SlotCount) (p : Image) (s : State)

theorem State.enterStarting_rail :
    (s.enterStarting now p).rail =
      { s.rail with
        state := .starting, waitReason := if s.rail.state = .warming then .noWait else s.rail.waitReason
        railEn := true, hrst := true, startRequest := false, budgetRefused := false, overcurrentCount := 0,
        pgoodLimit := some (after now (seconds (Profile.pgoodLimit p))), resetHold := none } := by
  simp [State.enterStarting, State.setRail_rail]

/-- The rail record of an entry into RUNNING (R76, R86). -/
theorem State.enterRunning_rail :
    (s.enterRunning now p).rail =
      { s.rail with
        state := .running, waitReason := if s.rail.state = .warming then .noWait else s.rail.waitReason
        hrst := false, pgoodLimit := none, resetHold := none, resetDelay := none, resetWidth := none } := by
  simp [State.enterRunning, State.setRail_rail]

theorem State.startPulse_rail :
    (s.startPulse now p).rail =
      if s.rail.pulse.isSome then s.rail
      else { s.rail with hpwrbtn := true, pulse := some (after now (Profile.pulseWidth p)) } := by
  unfold State.startPulse
  split <;> rfl

theorem State.enterStopping_rail (delay : Nat) :
    (s.enterStopping now p delay).rail =
      { s.rail with
        state := .stopping, waitReason := if s.rail.state = .warming then .noWait else s.rail.waitReason
        stopRestart := delay, sleepCount := 0, stopLimit := some (after now (seconds (Profile.stopLimit p))) } := by
  simp [State.enterStopping, State.setRail_rail]

theorem State.enterStopping_mon (delay : Nat) :
    (s.enterStopping now p delay).mon = s.mon.railChanged s.rail.state .stopping := by
  simp [State.enterStopping, State.setRail_mon]

theorem State.enterResetting_rail :
    (s.enterResetting now p).rail =
      { s.rail with
        state := .resetting, waitReason := if s.rail.state = .warming then .noWait else s.rail.waitReason
        hrst := if Profile.resetDelay p = 0 then true else s.rail.hrst
        resetDelay := if Profile.resetDelay p = 0 then none else some (after now (Profile.resetDelay p))
        resetWidth := if Profile.resetDelay p = 0 then some (after now (Profile.resetWidth p)) else s.rail.resetWidth } := by
  unfold State.enterResetting
  by_cases h0 : Profile.resetDelay p = 0 <;> simp [h0, State.setRail_rail, State.assertReset]

end enter

/-! ### The activation and the load, as the rail controller and the store see them -/

/-- A new profile takes nothing of the rail record but the override time (R149). -/
theorem State.adoptKeypad_rail (old new : Image) (s : State) :
    ∃ o, (s.adoptKeypad old new).rail = { s.rail with override := o } := by
  unfold State.adoptKeypad
  dsimp only
  split
  · exact ⟨none, by simp [State.powerKeyRelease]⟩
  · exact ⟨s.rail.override, by simp⟩

section load
variable (s : State)

@[simp] theorem State.loaded_frame :
    s.loaded.time = s.time ∧ s.loaded.sense = s.sense ∧ s.loaded.climate = s.climate ∧ s.loaded.rail = s.rail ∧
      s.loaded.engine = s.engine ∧ s.loaded.supplyLow = false ∧ s.loaded.fresh = s.fresh ∧
      s.loaded.pending = s.pending := by
  unfold State.loaded
  dsimp only
  split <;> simp

theorem State.loaded_store :
    s.loaded.store =
      { s.store with active := some s.loadedImage, factoryActive := !validImage s.store.storedImage } := by
  unfold State.loaded
  dsimp only
  split <;> simp

theorem State.loaded_mon :
    s.loaded.mon =
      { s.mon with
        armed := Profile.watchdogArmed s.loadedImage, runtimeSet := Profile.stages s.loadedImage
        inForce := Profile.stages s.loadedImage } := by
  unfold State.loaded
  dsimp only
  split <;> simp [State.beginMonitor, State.loadReference]

end load

/-! ### The store at a boundary's probe -/

/-- Two stores that differ at most in a service record write handed over (R62, R181). -/
def Store.handsOver (a b : Store) : Prop :=
  ∃ v rf w, b = { a with service := v, serviceRf := rf, writeBegan := w }

theorem Store.handsOver_refl (a : Store) : a.handsOver a := ⟨_, _, _, rfl⟩

theorem Store.handsOver.images {a b : Store} (h : a.handsOver b) :
    b.active = a.active ∧ b.factoryActive = a.factoryActive ∧ b.commit = a.commit ∧ b.stagingHeld = a.stagingHeld ∧
      b.storedImage = a.storedImage := by
  obtain ⟨_, _, _, rfl⟩ := h
  exact ⟨rfl, rfl, rfl, rfl, rfl⟩

theorem State.handReference_store (now : SlotCount) (rf : Nat) (s : State) :
    s.store.handsOver (s.handReference now rf).store := by
  unfold State.handReference
  rw [State.mapStore_store]
  split
  · exact ⟨_, _, _, rfl⟩
  · exact ⟨_, _, _, rfl⟩

theorem State.completeProbe_store (now : SlotCount) (p : Image) (measure : Nat) (s : State) :
    s.store.handsOver (s.completeProbe now p measure).1.store := by
  unfold State.completeProbe
  dsimp only
  split
  · exact State.handReference_store now _ (s.mapAir _)
  · split <;> split <;> simp [Store.handsOver_refl]

theorem State.probeStage_store (now : SlotCount) (p : Image) (curve : Option Nat) (s : State) :
    s.store.handsOver (s.probeStage now p curve).1.store := by
  have hend (u : State) (r : AbortReason) (hu : u.store = s.store) : s.store.handsOver (u.endProbe r).1.store := by
    simp [hu, Store.handsOver_refl]
  have hstands : s.store.handsOver s.store := Store.handsOver_refl _
  unfold State.probeStage
  split
  · exact hstands
  · split <;> exact hstands
  · split
    · exact hend _ _ rfl
    · split
      · exact hend _ _ rfl
      · split <;> exact hstands
  · split
    · exact hend _ _ rfl
    · exact hstands
  · split
    · exact hend _ _ rfl
    · dsimp only
      split
      · split
        · exact hend _ _ rfl
        · split
          · exact hend _ _ rfl
          · exact State.completeProbe_store now p _ (s.mapAir _)
      · exact hstands
  · exact hstands
  · exact hstands

theorem State.airBoundary_store (now : SlotCount) (p : Image) (s : State) :
    s.store.handsOver (s.airBoundary now p).store := by
  have hprobe := State.probeStage_store now p (s.controlTemp.map (curveValue p))
    ((List.finRange 2).foldl (State.judgeFan p) s)
  rw [(State.judgeFan_foldl_frame p _ s).2.2.2.2.2.2.2.1] at hprobe
  rw [State.airBoundary_eq]
  simpa [State.driveFans, State.probed] using hprobe

end Sys2Proof.Machine
end

