-- ==== Sys2Proof/Proofs/EveryCommand.lean ====
section
/-!
SUPPORT. The commands as the events of the part: what a predicate needs of the operations of one state, `EventsKeep`, to
hold after every command from it (`exec_keeps`). The frames of the link are three things: a change of the frame record, the
landing and delivery of accepted bytes, and the clearing of CLEAR.
-/

namespace Sys2Proof.Machine

/-- The watchdog runs: GRACE, WATCHING or WARNED (R104). -/
def WatchdogState.runs : WatchdogState → Bool
  | .grace => true | .watching => true | .warned => true
  | .dormant => false | .paused => false | .expired => false

/-! ### A change of the frame record (R150, R153) -/

/-- `y` is `x` with a landed image and another frame record: every byte as the blocks see it, the summary, the enable and
READY stand. -/
structure Exchange.Reframed (x y : Exchange) : Prop where
  wf : y.wf = true
  held : y.frame.held = []
  peek : ∀ a < memorySize, y.peek a = x.peek a
  summary : y.summary = x.summary
  enable : y.enable = x.enable
  ready : y.ready = x.ready

theorem Exchange.reframed_of_land {x y : Exchange} (hx : x.wf = true) (hmem : y.mem = x.land.mem)
    (hheld : y.frame.held = []) (hs : y.summary = x.summary) (he : y.enable = x.enable) (hr : y.ready = x.ready) :
    x.Reframed y where
  wf := Exchange.wf_of_landed hx hmem hheld
  held := hheld
  peek a ha := by
    have hpeek : y.peek a = x.land.peek a := by
      unfold Exchange.peek
      rw [hheld, hmem]
      rfl
    rw [hpeek, Exchange.peek_land hx ha]
  summary := hs
  enable := he
  ready := hr

theorem Exchange.takeWrite_reframed {x : Exchange} (hx : x.wf = true) (bytes : List Byte) :
    x.Reframed (x.takeWrite bytes) := by
  unfold Exchange.takeWrite
  split <;> exact Exchange.reframed_of_land hx rfl rfl rfl rfl rfl

theorem Exchange.Reframed.refused {x y : Exchange} (h : x.Reframed y) (b : Bool) :
    x.Reframed { y with refused := b } :=
  ⟨h.wf, h.held, h.peek, h.summary, h.enable, h.ready⟩

/-- The exchange memory with the accepted bytes of a WRITE frame landed (R155). -/
def Exchange.landHost (cs : List Host.Cell) (x : Exchange) : Exchange := { x with mem := Memory.writeAll x.mem cs }

/-- A byte after a landing, where no image is held: the accepted one for its address, if any (R155). -/
theorem Exchange.peek_landHost {x : Exchange} (hx : x.wf = true) (hheld : x.frame.held = []) (cs : List Host.Cell)
    {a : Nat} (ha : a < memorySize) : (x.landHost cs).peek a = (Held.get cs a).getD (x.peek a) := by
  have hmem : Memory.wf x.mem = true := ((Bool.and_eq_true _ _).mp hx).1
  simp [Exchange.landHost, Exchange.peek, hheld, Held.get, Memory.read_writeAll hmem, ha]

theorem Held.get_eq_some {cs : List Host.Cell} {a : Nat} {b : Byte} (h : Held.get cs a = some b) : (a, b) ∈ cs := by
  induction cs with
  | nil => cases h
  | cons c cs ih =>
    unfold Held.get at h
    split at h
    · obtain rfl := Option.some.inj h
      rename_i heq
      exact heq ▸ List.mem_cons_self
    · exact List.mem_cons_of_mem _ (ih h)

theorem Held.get_eq_none {cs : List Host.Cell} {a : Nat} (h : ∀ b, (a, b) ∉ cs) : Held.get cs a = none := by
  cases hget : Held.get cs a with
  | none => rfl
  | some b => exact absurd (Held.get_eq_some hget) (h b)

/-! ### The events -/

/-- `P` holds after every event of the part from `s`. -/
structure EventsKeep (P : State → Prop) (s : State) : Prop where
  powerUp : ∀ low, P (s.powerUp low)
  load : s.store.active = none → P s.loadProfile
  tach : ∀ f g, P (s.setFanSpeed f g)
  slotStart : ∀ p pgood hsleep levels, s.store.active = some p → P (s.slotWork s.upcoming p pgood hsleep levels)
  boundary : ∀ p now, s.store.active = some p → P (s.boundaryWork now p)
  answer : ∀ p granted boundary, s.store.active = some p → P (s.receiveAnswer p granted boundary)
  conversion : ∀ p k code, s.store.active = some p → P ((s.takeCode p k code).deliverTemp s.time.slotCount p k)
  railConversion : ∀ p mV mA, s.store.active = some p → P ((s.takeRailCodes mV mA).testCurrent s.time.slotCount p mA)
  completeStop : ∀ p, s.store.active = some p → s.rail.state = .stopping → P (s.completeStop s.time.slotCount p)
  pgoodLimit : ∀ p e, s.store.active = some p → P (s.endPgoodLimit p e)
  resetHold : ∀ p e, s.store.active = some p → P (s.endResetHold p e)
  stopLimit : ∀ p e, s.store.active = some p → P (s.endStopLimit p e)
  resetDelay : ∀ p e, s.store.active = some p → s.rail.resetDelay.isSome = true → P (s.endResetDelay p e)
  resetWidth : ∀ p e, s.store.active = some p → P (s.endResetWidth p e)
  offTimer : ∀ p e, s.store.active = some p → P (s.endOffTimer p e)
  pulse : ∀ p e, s.store.active = some p → P (s.endPulse p e)
  override : ∀ p e, s.store.active = some p → P (s.endOverride p e)
  expiry : ∀ cause p e, s.store.active = some p → s.mon.watchdog.runs = true → P (s.expire cause p e)
  warning : ∀ e, s.mon.watchdog = .watching → P (s.warn e)
  stable : P ((s.mapMon fun m => { m with stableEnd := none }).setLadderIndex 0)
  scan : ∀ p t counts, s.store.active = some p → P ((s.scanWork t p counts).arbitrate s.time.slotCount p)
  hold : ∀ p e k, s.store.active = some p → P (s.giveHold e p k)
  chord : ∀ p e c, s.store.active = some p → P (s.giveChord e p c)
  programming :
    s.store.commit = .programming →
      P (s.mapStore fun t => { t with storedImage := s.xmem.staged, commit := .armed, programmingBegan := none })
  serviceWrite :
    ∀ p e, s.store.active = some p → s.store.service = .writing → P ((s.endServiceWrite e).arbitrate e p)
  frame : ∀ x, s.xmem.Reframed x → P { s with xmem := x }
  delivery :
    ∀ p x cs, s.store.active = some p → s.xmem.Reframed x → (∀ c ∈ cs, x.guard s.store.stagingHeld c = true) →
      P ({ s with xmem := x.landHost cs }.deliverAll s.time.slotCount p cs)
  clear :
    ∀ p x, s.store.active = some p → s.xmem.Reframed x → P ({ s with xmem := x }.hostRestartClearing s.time.slotCount p)

section
variable {P : State → Prop} {s : State}

theorem State.atEnd_keeps {timer : Option SlotCount} {act : Image → SlotCount → State → State} (hs : P s)
    (h : ∀ p e, s.store.active = some p → timer.isSome = true → P (act p e s)) : P (s.atEnd timer act) := by
  unfold State.atEnd
  split
  · rename_i p e hp he
    refine h p e hp ?_
    cases timer with
    | none => simp [State.due] at he
    | some _ => rfl
  · exact hs

theorem EventsKeep.endWrite (h : EventsKeep P s) {x : Exchange} (hx : s.xmem.Reframed x) (cs : List Host.Cell) :
    P ({ s with xmem := x }.endWrite cs) := by
  unfold State.endWrite
  split
  · exact h.frame x hx
  · split
    · rename_i p _ hp
      have hdeliver (y : Exchange) (hy : s.xmem.Reframed y)
          (hguard : ∀ c, y.guard s.store.stagingHeld c = x.guard s.store.stagingHeld c) :
          P ({ s with
            xmem := y.landHost (cs.filter (x.guard s.store.stagingHeld)) }.deliverAll s.time.slotCount p
              (cs.filter (x.guard s.store.stagingHeld))) :=
        h.delivery p y _ hp hy fun c hc => (hguard c).trans (List.mem_filter.mp hc).2
      dsimp only
      split
      · exact hdeliver x hx fun _ => rfl
      · exact hdeliver { x with refused := true } (hx.refused true) fun _ => rfl
    · exact h.frame { x with refused := true } (hx.refused true)

/-- A WRITE frame is a change of the frame record, a landing and a delivery (R155). -/
theorem EventsKeep.writeFrame (h : EventsKeep P s) (hwf : s.xmem.wf = true) (bytes : List Byte) :
    P (s.writeFrame bytes) :=
  h.endWrite (Exchange.takeWrite_reframed hwf bytes) _

/-- Every command is one of the events, or leaves the state. -/
theorem exec_keeps {t : State} {c : Instr} (h : EventsKeep P s) (hwf : s.xmem.wf = true) (hs : P s)
    (hexec : exec c s = .next t) : P t := by
  cases c with
  | powerOn => cases hexec; exact h.powerUp false
  | brownOut => cases hexec; exact h.powerUp true
  | profileLoad =>
    cases hexec
    split
    · exact hs
    · rename_i hnone
      exact h.load (by simpa using hnone)
  | slotStart pgood hsleep inputs =>
    cases hexec
    split
    · exact h.slotStart _ _ _ _ ‹_›
    · exact hs
  | windowBoundary =>
    cases hexec
    split
    · exact h.boundary _ _ ‹_›
    · exact hs
  | startReservationAnswer =>
    cases hexec
    split
    · exact h.answer _ _ _ ‹_›
    · exact hs
  | conversionEnd k code =>
    cases hexec
    split
    · split
      · exact h.conversion _ _ _ ‹_›
      · exact hs
    · exact hs
  | railConversionEnd vsns isns =>
    cases hexec
    split
    · split
      · exact h.railConversion _ _ _ ‹_›
      · exact hs
    · exact hs
  | tachEdge fan elapsed => cases hexec; exact h.tach _ _
  | tachTimeout fan => cases hexec; exact h.tach _ _
  | sleepHoldEnd =>
    cases hexec
    split
    · split
      · rename_i hstop
        exact h.completeStop _ ‹_› hstop.1
      · exact hs
    · exact hs
  | pgoodLimitEnd => cases hexec; exact State.atEnd_keeps hs fun p e hp _ => h.pgoodLimit p e hp
  | resetHoldEnd => cases hexec; exact State.atEnd_keeps hs fun p e hp _ => h.resetHold p e hp
  | stopLimitEnd => cases hexec; exact State.atEnd_keeps hs fun p e hp _ => h.stopLimit p e hp
  | resetDelayEnd => cases hexec; exact State.atEnd_keeps hs h.resetDelay
  | resetWidthEnd => cases hexec; exact State.atEnd_keeps hs fun p e hp _ => h.resetWidth p e hp
  | offTimerEnd => cases hexec; exact State.atEnd_keeps hs fun p e hp _ => h.offTimer p e hp
  | pulseEnd => cases hexec; exact State.atEnd_keeps hs fun p e hp _ => h.pulse p e hp
  | overrideEnd => cases hexec; exact State.atEnd_keeps hs fun p e hp _ => h.override p e hp
  | graceExpiry =>
    cases hexec
    refine State.atEnd_keeps hs fun p e hp _ => ?_
    split
    · exact h.expiry _ p e hp (by simp [*, WatchdogState.runs])
    · exact hs
  | stage1Expiry =>
    cases hexec
    refine State.atEnd_keeps hs fun p e hp _ => ?_
    split
    · exact h.warning e ‹_›
    · exact hs
  | stage2Expiry =>
    cases hexec
    refine State.atEnd_keeps hs fun p e hp _ => ?_
    split
    · exact h.expiry _ p e hp (by simp [*, WatchdogState.runs])
    · exact hs
  | stableEnd => cases hexec; exact State.atEnd_keeps hs fun _ _ _ _ => h.stable
  | scanEnd counts =>
    cases hexec
    split
    · exact h.scan _ _ _ ‹_›
    · exact hs
  | hold key => cases hexec; exact State.atEnd_keeps hs fun p e hp _ => h.hold p e key hp
  | chord number =>
    cases hexec
    refine State.atEnd_keeps hs fun p e hp _ => ?_
    split
    · exact hs
    · exact h.chord p e number hp
  | programmingEnd =>
    cases hexec
    split
    · rename_i hdue
      unfold State.programmingDue at hdue
      split at hdue
      · exact h.programming ‹_›
      · simp at hdue
    · exact hs
  | serviceWriteEnd =>
    cases hexec
    split
    · rename_i hp hdue
      unfold State.writeDue at hdue
      split at hdue
      · exact h.serviceWrite _ _ hp ‹_›
      · simp at hdue
    · exact hs
  | read n =>
    cases hexec
    split
    · exact h.frame _ (Exchange.reframed_of_land hwf rfl rfl rfl rfl rfl)
    · split
      · exact h.frame _ (Exchange.reframed_of_land hwf rfl rfl rfl rfl rfl)
      · exact hs
  | status n => cases hexec; exact h.frame _ (Exchange.reframed_of_land hwf rfl rfl rfl rfl rfl)
  | clear n =>
    have hframe : s.xmem.Reframed (s.xmem.ignoreFrame (some .clear) n) :=
      Exchange.reframed_of_land hwf rfl rfl rfl rfl rfl
    cases hexec
    split
    · exact h.clear _ _ ‹_› hframe
    · exact h.frame _ (hframe.refused true)
  | unknownCommand command n =>
    cases hexec
    split
    · exact hs
    · exact h.frame _ (Exchange.reframed_of_land hwf rfl rfl rfl rfl rfl)
  | readAddressComplete high low => cases hexec; exact h.frame _ (Exchange.reframed_of_land hwf rfl rfl rfl rfl rfl)
  | write | attentionAcknowledge | attentionEnable | kick | keyReadCounter | slipPost | slipChain | slipWithdraw
  | slipStopreq | slipFree | setZoneTarget | setFanFloor | probeAirflow | resetFilterReference | requestStop
  | requestRestart | setWatchdog | rebaselineKeys | readProfile | commitProfile | unknownKind =>
    cases hexec
    exact h.writeFrame hwf _

/-- Every step keeps what every event keeps. -/
theorem step_keeps {t : State} (h : ∀ rest, EventsKeep P { s with pending := rest }) (hwf : s.xmem.wf = true)
    (hs : P s) (hpending : ∀ rest, P s → P { s with pending := rest }) (hstep : step s = .next t) : P t := by
  obtain rfl | ⟨c, rest, _, hexec⟩ := step_cases hstep
  · exact hs
  · exact exec_keeps (h rest) hwf (hpending rest hs) hexec

end

end Sys2Proof.Machine
end

