-- ==== Sys2Proof/Proofs/RailSafety.lean ====
section
/-!
The statement that the lines, the timers, the flags and the watchdog follow the rail state at every step (R67, R68, R73,
R74, R86, R87, R104). The invariant is one of the rail record and the watchdog state alone, `Rail.fits`; each operation of
the rail controller and of the monitor keeps it.
-/

namespace Sys2Proof.Machine

/-! ### The invariant -/

/-- The rail record and the watchdog state go together. -/
def Rail.fits (r : Rail) (w : WatchdogState) : Prop :=
  r.linesOk = true ∧ r.timersOk = true ∧ r.flagsOk = true ∧ (w.runs = true → r.state = .running)

/-- The invariant with a profile active. -/
def State.railFits (s : State) : Prop := s.rail.fits s.mon.watchdog ∧ s.store.active.isSome = true

theorem State.watchdogOk_iff (s : State) :
    s.watchdogOk = true ↔ (s.mon.watchdog.runs = true → s.rail.state = .running) := by
  unfold State.watchdogOk
  cases s.mon.watchdog <;> simp [WatchdogState.runs]

theorem State.railSafe_of_railFits {s : State} (h : s.railFits) : s.railSafe = true := by
  obtain ⟨⟨hl, ht, hf, hw⟩, ha⟩ := h
  simp [State.railSafe, hl, ht, hf, ha, (State.watchdogOk_iff s).mpr hw]

theorem State.fits_of_railSafe {s : State} (h : s.railSafe = true) : s.rail.fits s.mon.watchdog := by
  simp only [State.railSafe, Bool.and_eq_true] at h
  obtain ⟨⟨⟨⟨hl, ht⟩, hf⟩, hw⟩, _⟩ := h
  exact ⟨hl, ht, hf, (State.watchdogOk_iff s).mp hw⟩

theorem State.railFits_of_railSafe {s : State} {p : Image} (h : s.railSafe = true) (hp : s.store.active = some p) :
    s.railFits :=
  ⟨State.fits_of_railSafe h, by simp [hp]⟩

theorem State.wf_railSafe_of_sound {s : State} (h : s.sound = true) : s.xmem.wf = true ∧ s.railSafe = true := by
  simp only [State.sound, Bool.and_eq_true] at h
  obtain ⟨⟨⟨⟨⟨⟨⟨hwf, hrail⟩, _⟩, _⟩, _⟩, _⟩, _⟩, _⟩ := h
  exact ⟨hwf, hrail⟩

/-- The invariant speaks of the rail, the watchdog state and the active profile alone. -/
theorem State.railFits_of_eq {s t : State} (h : s.railFits) (hr : t.rail = s.rail)
    (hw : t.mon.watchdog = s.mon.watchdog) (ha : t.store.active = s.store.active) : t.railFits := by
  unfold State.railFits at h ⊢
  rw [hr, hw, ha]
  exact h

/-! ### The rail record -/

section records
variable {r : Rail} {w v : WatchdogState}

/-- The watchdog may change to one that does not run. -/
theorem Rail.fits.stopped (h : r.fits w) (hv : v.runs = false) : r.fits v :=
  ⟨h.1, h.2.1, h.2.2.1, by simp [hv]⟩

/-- In RUNNING every watchdog state fits. -/
theorem Rail.fits.ofRunning (h : r.fits w) (hs : r.state = .running) : r.fits v :=
  ⟨h.1, h.2.1, h.2.2.1, fun _ => hs⟩

/-- What a rail-on state says of the flags. -/
theorem Rail.fits.flagsClear (h : r.fits w) (hs : r.state ≠ .warming) :
    r.startRequest = false ∧ r.waitReason = .noWait := by
  have hflags := h.2.2.1
  simp [Rail.flagsOk, hs] at hflags
  exact hflags.1

theorem RailState.isOn_ne_warming {st : RailState} (h : st.isOn = true) : st ≠ .warming := by
  rintro rfl
  simp [RailState.isOn] at h

/-- In a rail-off state no line is asserted and no timer but the off timer runs (R67, R68). -/
theorem Rail.fits.quiet (h : r.fits w) (hoff : r.state.isOn = false) :
    r.railEn = false ∧ r.hrst = false ∧ r.hpwrbtn = false ∧ r.pulse = none ∧ r.pgoodLimit = none ∧ r.resetHold = none ∧
      r.stopLimit = none ∧ r.resetDelay = none ∧ r.resetWidth = none := by
  obtain ⟨hl, ht, _, _⟩ := h
  have hne {st : RailState} (hst : st.isOn = true) : (r.state == st) = false := by
    rw [beq_eq_false_iff_ne]
    rintro rfl
    simp [hst] at hoff
  have hreset : r.state ≠ .resetting := by
    intro hs
    simp [hs, RailState.isOn] at hoff
  simp only [Rail.linesOk, hoff, hne (st := .starting) rfl, hne (st := .resetting) rfl, hne (st := .running) rfl,
    hne (st := .stopping) rfl, Bool.false_and, Bool.or_false, Bool.and_eq_true, beq_iff_eq, Bool.not_eq_true'] at hl
  simp only [Rail.timersOk, hreset, hne (st := .starting) rfl, hne (st := .stopping) rfl, Bool.false_or, if_false,
    Bool.and_eq_true, Option.isNone_iff_eq_none] at ht
  obtain ⟨⟨⟨hen, hrst⟩, hpulse⟩, hbtn⟩ := hl
  obtain ⟨⟨⟨⟨hlimit, hhold⟩, hstop⟩, hdelay, hwidth⟩, _⟩ := ht
  have hnone : r.pulse = none := by simpa [hbtn] using hpulse.symm
  exact ⟨hen, hrst, hbtn, hnone, hlimit, hhold, hstop, hdelay, hwidth⟩

/-- A cut rail in COOLDOWN (R78, R85). -/
theorem Rail.fits.cooldown (h : r.fits w) (hon : r.state.isOn = true) (hv : v.runs = false) (wait : WaitReason)
    (restart : Bool) (off : Nat) (timer : Option SlotCount) :
    Rail.fits
      { r.cut with
        state := .cooldown, waitReason := if r.state = .warming then wait else r.waitReason
        restartPending := restart, offTime := off, offTimer := timer } v := by
  have hs := RailState.isOn_ne_warming hon
  obtain ⟨hrequest, hwait⟩ := h.flagsClear hs
  simp [Rail.fits, Rail.linesOk, Rail.timersOk, Rail.flagsOk, Rail.cut, RailState.isOn, hs, hrequest, hwait, hv]

/-- A cut rail in LOCKOUT (R79). -/
theorem Rail.fits.lockout (h : r.fits w) (hon : r.state.isOn = true) (hv : v.runs = false) (wait : WaitReason) :
    Rail.fits
      { r.cut with
        state := .lockout, waitReason := if r.state = .warming then wait else r.waitReason, restartPending := false }
      v := by
  have hs := RailState.isOn_ne_warming hon
  obtain ⟨hrequest, hwait⟩ := h.flagsClear hs
  have htimers := h.2.1
  have hoff : r.offTimer = none := by
    have hcool : r.state ≠ .cooldown := by
      intro hc
      simp [hc, RailState.isOn] at hon
    simp [Rail.timersOk, hcool] at htimers
    exact htimers.2
  simp [Rail.fits, Rail.linesOk, Rail.timersOk, Rail.flagsOk, Rail.cut, RailState.isOn, hs, hrequest, hwait, hv, hoff]

end records

/-! ### The monitor's watchdog -/

/-- After the rail leaves RUNNING no watchdog runs, and none starts at any other change (R104). -/
theorem Monitor.railChanged_runs {old new : RailState} {m : Monitor} (hm : m.watchdog.runs = true → old = .running)
    (hnew : new ≠ .running) : (m.railChanged old new).watchdog.runs = false := by
  rw [Monitor.railChanged_eq]
  by_cases hw : m.watchdog = .expired
  · cases restsAt new <;> simp [hw, WatchdogState.runs]
  · cases hold : leavesRunning old new
    · have hne : old ≠ .running := by simpa [leavesRunning, hnew] using hold
      cases hr : m.watchdog.runs
      · simp [hw, hr]
      · exact absurd (hm hr) hne
    · simp [hw, WatchdogState.runs]

/-! ### The operations -/

section operations
variable {s : State} (now : SlotCount) (p : Image)

theorem State.addRecord_railFits (cause : RestartCause) (action : RecordAction) (i : Nat) (before : RailState)
    (h : s.railFits) : (s.addRecord now cause action i before).railFits :=
  State.railFits_of_eq h (by simp) (by rw [State.addRecord_mon]) (by simp)

theorem State.setArmed_railFits (b : Bool) (h : s.railFits) : (s.setArmed now p b).railFits := by
  have hfits {u : State} (hr : u.rail = s.rail) (ha : u.store.active = s.store.active)
      (hw : u.mon.watchdog.runs = false ∨ s.rail.state = .running ∨ u.mon.watchdog = s.mon.watchdog) : u.railFits := by
    refine ⟨?_, ha ▸ h.2⟩
    rw [hr]
    rcases hw with hw | hw | hw
    · exact h.1.stopped hw
    · exact h.1.ofRunning hw
    · exact hw ▸ h.1
  unfold State.setArmed
  refine State.railFits_of_eq (s := if _ then _ else _) ?_ rfl rfl rfl
  split
  · rename_i hc
    simp only [Bool.and_eq_true, decide_eq_true_eq] at hc
    exact hfits (by simp) (by simp) (.inr (.inl (by simpa using hc.2)))
  · split
    · exact hfits rfl rfl (.inl rfl)
    · exact hfits rfl rfl (.inr (.inr rfl))

theorem State.hostRestartClearing_railFits (h : s.railFits) : (s.hostRestartClearing now p).railFits := by
  have hm : ((s.clearOverrides.clearAir).clearMonitor now p).railFits := by
    have hset := State.setArmed_railFits now p (Profile.watchdogArmed p)
      (State.railFits_of_eq (t := (s.clearOverrides.clearAir).mapMon fun m => { m with runtimeSet := Profile.stages p }) h
        rfl rfl rfl)
    exact State.railFits_of_eq hset rfl rfl rfl
  refine State.railFits_of_eq hm (by simp) ?_ (by simp)
  simp [State.hostRestartClearing]

theorem State.enterCooldown_railFits (restart : Bool) (off : Nat) (h : s.railFits) (hon : s.rail.state.isOn = true) :
    (s.enterCooldown now restart off).railFits := by
  refine ⟨?_, by simpa using h.2⟩
  rw [State.enterCooldown_rail, State.enterCooldown_mon]
  exact h.1.cooldown hon (Monitor.railChanged_runs h.1.2.2.2 (by decide)) _ _ _ _

theorem State.enterLockout_railFits (h : s.railFits) (hon : s.rail.state.isOn = true) :
    (s.enterLockout now).railFits := by
  refine ⟨?_, by simpa using h.2⟩
  rw [State.enterLockout_rail, State.enterLockout_mon]
  exact h.1.lockout hon (Monitor.railChanged_runs h.1.2.2.2 (by decide)) _

theorem State.failure_railFits (cause : RestartCause) (h : s.railFits) (hon : s.rail.state.isOn = true) :
    (s.failure now p cause).railFits := by
  have hrecord : (s.failureRecorded now p cause).railFits :=
    State.railFits_of_eq h (by simp) (by rw [State.failureRecorded_mon]) (by simp)
  rw [State.failure_eq]
  split
  · exact State.enterLockout_railFits now hrecord (by simpa using hon)
  · exact State.enterCooldown_railFits now _ _ hrecord (by simpa using hon)

theorem State.cutWithNotice_railFits (cause : RestartCause) (restart : Bool) (h : s.railFits)
    (hon : s.rail.state.isOn = true) : (s.cutWithNotice now p cause restart).railFits :=
  State.enterCooldown_railFits now _ _ (State.addRecord_railFits now _ _ _ _ h) (by simpa using hon)

theorem State.judgeGate_railFits (age : Nat) (h : s.railFits) (hs : s.rail.state = .warming) :
    (s.judgeGate p age).railFits := by
  obtain ⟨counts, isOpen, refused, wait, hrail⟩ := State.judgeGate_rail p age s
  refine ⟨?_, by simpa using h.2⟩
  obtain ⟨⟨hl, ht, hf, hw⟩, _⟩ := h
  have hmon : (s.judgeGate p age).mon = s.mon := by simp
  rw [hrail, hmon]
  refine ⟨hl, ht, ?_, hw⟩
  simp [Rail.flagsOk, hs] at hf ⊢
  exact hf

theorem State.judgeAtSlot_railFits (h : s.railFits) : (s.judgeAtSlot now p).railFits := by
  unfold State.judgeAtSlot
  split
  · have hjudged : (s.mapRail fun r => { r with judgedAt := none }).railFits := h
    dsimp only
    split
    · exact hjudged
    · exact State.judgeGate_railFits p _ hjudged ‹_›
  · exact h

/-- An entry into WARMING from a rail-off state (R71). -/
theorem State.enterWarming_railFits (h : s.railFits) (hoff : s.rail.state.isOn = false) :
    (s.enterWarming now p).railFits := by
  refine ⟨?_, by simpa using h.2⟩
  obtain ⟨counts, isOpen, wait, hrail⟩ := State.enterWarming_rail now p s
  obtain ⟨hen, hrst, hbtn, hpulse, hlimit, hhold, hstop, hdelay, hwidth⟩ := h.1.quiet hoff
  have hruns := Monitor.railChanged_runs (new := .warming) h.1.2.2.2 (by decide)
  rw [hrail, State.enterWarming_mon]
  simp [Rail.fits, Rail.linesOk, Rail.timersOk, Rail.flagsOk, RailState.isOn, hruns, hen, hrst, hbtn, hpulse, hlimit,
    hhold, hstop, hdelay, hwidth]

theorem State.enterStarting_railFits (h : s.railFits) (hs : s.rail.state = .warming) :
    (s.enterStarting now p).railFits := by
  have hentered : ((s.setRail now .starting).mapRail fun r =>
      { r with
        railEn := true, hrst := true, startRequest := false, budgetRefused := false, overcurrentCount := 0,
        pgoodLimit := some (after now (seconds (Profile.pgoodLimit p))), resetHold := none }).railFits := by
    refine ⟨?_, by simpa using h.2⟩
    obtain ⟨_, _, hbtn, hpulse, _, _, hstop, hdelay, hwidth⟩ := h.1.quiet (by simp [hs, RailState.isOn])
    obtain ⟨_, ht, hf, hw⟩ := h.1
    have hruns := Monitor.railChanged_runs (new := .starting) hw (by decide)
    simp [Rail.timersOk, hs] at ht
    simp [Rail.flagsOk, hs] at hf
    rw [hs] at hruns
    simp [Rail.fits, Rail.linesOk, Rail.timersOk, Rail.flagsOk, RailState.isOn, hs, State.setRail_rail,
      State.setRail_mon, hruns, hbtn, hpulse, hstop, hdelay, hwidth, ht, hf]
  exact State.hostRestartClearing_railFits now p hentered

/-- An entry into RUNNING from STARTING or RESETTING (R76, R86). -/
theorem State.enterRunning_railFits (h : s.railFits) (hs : s.rail.state = .starting ∨ s.rail.state = .resetting) :
    (s.enterRunning now p).railFits := by
  refine ⟨?_, by simpa using h.2⟩
  obtain ⟨⟨hl, ht, hf, hw⟩, _⟩ := h
  rw [State.enterRunning_rail]
  rcases hs with hs | hs <;>
    simp [Rail.fits, Rail.linesOk, Rail.timersOk, Rail.flagsOk, RailState.isOn, hs] at hl ht hf ⊢ <;> simp_all

theorem State.startPulse_railFits (h : s.railFits)
    (hs : s.rail.state = .running ∨ s.rail.state = .stopping) : (s.startPulse now p).railFits := by
  refine ⟨?_, by simpa using h.2⟩
  obtain ⟨⟨hl, ht, hf, hw⟩, _⟩ := h
  rw [State.startPulse_rail, (State.startPulse_frame now p s).2.2.2.2.1]
  split
  · exact ⟨hl, ht, hf, hw⟩
  · rcases hs with hs | hs <;>
      simp [Rail.fits, Rail.linesOk, Rail.timersOk, Rail.flagsOk, RailState.isOn, hs] at hl ht hf ⊢ <;> simp_all

theorem State.enterStopping_railFits (delay : Nat) (h : s.railFits) (hs : s.rail.state = .running) :
    (s.enterStopping now p delay).railFits := by
  refine ⟨?_, by simpa using h.2⟩
  obtain ⟨⟨hl, ht, hf, hw⟩, _⟩ := h
  have hruns := Monitor.railChanged_runs (new := .stopping) hw (by decide)
  rw [State.enterStopping_rail, State.enterStopping_mon]
  simp [Rail.fits, Rail.linesOk, Rail.timersOk, Rail.flagsOk, RailState.isOn, hs] at hl ht hf ⊢
  rw [hs] at hruns
  simp_all

theorem State.completeStop_railFits (h : s.railFits) (hs : s.rail.state = .stopping) : (s.completeStop now p).railFits :=
  State.enterCooldown_railFits now _ _ h (by simp [hs, RailState.isOn])

theorem State.enterResetting_railFits (h : s.railFits) (hs : s.rail.state = .running) :
    (s.enterResetting now p).railFits := by
  have hmon : (s.enterResetting now p).mon.watchdog.runs = false := by
    have hset : ((s.setRail now .resetting).mon.watchdog).runs = false := by
      rw [State.setRail_mon]
      exact Monitor.railChanged_runs h.1.2.2.2 (by decide)
    have hcleared : (((s.setRail now .resetting).hostRestartClearing now p).mon.watchdog).runs = false := by
      have hstate : (s.setRail now .resetting).rail.state = .resetting := by simp [State.setRail_rail]
      simp [State.hostRestartClearing, State.clearMonitor, State.setArmed, hstate]
      split
      · rfl
      · simpa using hset
    unfold State.enterResetting
    split <;> simpa using hcleared
  refine ⟨?_, by simpa using h.2⟩
  obtain ⟨⟨hl, ht, hf, hw⟩, _⟩ := h
  rw [State.enterResetting_rail]
  by_cases h0 : Profile.resetDelay p = 0 <;>
    simp [Rail.fits, Rail.linesOk, Rail.timersOk, Rail.flagsOk, RailState.isOn, hs, h0] at hl ht hf ⊢ <;> simp_all

theorem State.carryOut_railFits (a : LadderAction) (h : s.railFits) (hs : s.rail.state = .running) :
    (s.carryOut now p a).railFits := by
  have hon : s.rail.state.isOn = true := by simp [hs, RailState.isOn]
  cases a with
  | warm => exact State.enterResetting_railFits now p h hs
  | cold => exact State.enterCooldown_railFits now _ _ h hon
  | lockout => exact State.enterLockout_railFits now h hon

theorem State.hsleepChanged_railFits (level : Bool) (h : s.railFits) (hs : s.rail.state = .running) :
    (s.hsleepChanged now p level).railFits :=
  ⟨by simpa using h.1.ofRunning hs, by simpa using h.2⟩

/-- A sample of PGOOD and HSLEEP, and what each rail state makes of it (R69). -/
theorem State.samplePower_railFits (pgood hsleep : Bool) (h : s.railFits) :
    (s.samplePower now p pgood hsleep).railFits := by
  have hsampled : (s.mapRail fun r => { r with pgood := pgood, hsleep := hsleep }).railFits := h
  have hon {st : RailState} (hs : s.rail.state = st) (hst : st.isOn = true) :
      (s.mapRail fun r => { r with pgood := pgood, hsleep := hsleep }).rail.state.isOn = true := by
    simpa [hs] using hst
  unfold State.samplePower
  dsimp only
  split
  · rename_i hs
    have hstarting (f : Option SlotCount) :
        ((s.mapRail fun r => { r with pgood := pgood, hsleep := hsleep }).mapRail fun r =>
          { r with resetHold := f }).railFits := by
      refine ⟨?_, h.2⟩
      obtain ⟨hl, ht, hf, hw⟩ := h.1
      have hs' : s.rail.state = .starting := hs
      refine ⟨hl, ?_, hf, hw⟩
      simp [Rail.timersOk, hs'] at ht ⊢
      exact ht
    split
    · split
      · exact hsampled
      · exact hstarting _
    · split
      · split
        · exact hstarting _
        · exact State.failure_railFits now p _ hsampled (hon hs rfl)
      · exact hsampled
  · rename_i hs
    split
    · exact State.failure_railFits now p _ hsampled (hon hs rfl)
    · split
      · exact State.hsleepChanged_railFits now p _ hsampled hs
      · exact hsampled
  · rename_i hs
    split
    · exact State.failure_railFits now p _ hsampled (hon hs rfl)
    · exact hsampled
  · rename_i hs
    split
    · exact State.completeStop_railFits now p h hs
    · exact h
  all_goals exact hsampled

theorem State.cutInput_railFits (h : s.railFits) : (s.cutInput now p).railFits := by
  unfold State.cutInput
  split
  · exact State.cutWithNotice_railFits now p _ _ h ‹_›
  · split
    · rename_i hs
      refine ⟨?_, by simpa using h.2⟩
      obtain ⟨hen, hrst, hbtn, hpulse, hlimit, hhold, hstop, hdelay, hwidth⟩ :=
        h.1.quiet (by simp [hs, RailState.isOn])
      obtain ⟨_, ht, hf, hw⟩ := h.1
      have hruns := Monitor.railChanged_runs (new := .off) hw (by decide)
      simp [Rail.timersOk, hs] at ht
      simp [Rail.flagsOk, hs] at hf
      rw [hs] at hruns
      simp [Rail.fits, Rail.linesOk, Rail.timersOk, Rail.flagsOk, RailState.isOn, hs, State.setRail_rail,
        State.setRail_mon, hruns, hen, hrst, hbtn, hpulse, hlimit, hhold, hstop, hdelay, hwidth, ht, hf]
    · rename_i hs
      refine ⟨?_, h.2⟩
      obtain ⟨⟨hl, ht, hf, hw⟩, _⟩ := h
      refine ⟨hl, ht, ?_, hw⟩
      simp [Rail.flagsOk, hs, State.setRestartPending] at hf ⊢
      exact hf
    · exact h

theorem State.setRestartPending_railFits (b : Bool) (h : s.railFits) (hs : s.rail.state = .cooldown) :
    (s.setRestartPending b).railFits := by
  refine ⟨?_, h.2⟩
  obtain ⟨⟨hl, ht, hf, hw⟩, _⟩ := h
  refine ⟨hl, ht, ?_, hw⟩
  simp [Rail.flagsOk, hs, State.setRestartPending] at hf ⊢
  exact hf

theorem State.inputRises_railFits (k : Fin 4) (h : s.railFits) : (s.inputRises now p k).railFits := by
  unfold State.inputRises
  split
  · exact h
  · exact h
  · exact h
  · split
    · rename_i hs
      exact State.enterWarming_railFits now p h (by simp [hs, RailState.isOn])
    · exact State.setRestartPending_railFits true h ‹_›
    · exact h
  · split
    · rename_i hs
      have hstopping : (s.enterStopping now p 0).rail.state = .stopping := by simp [State.enterStopping_rail]
      exact State.railFits_of_eq (State.startPulse_railFits now p (State.enterStopping_railFits now p 0 h hs)
        (.inr hstopping)) (by simp) (by simp) (by simp)
    · exact h
  · exact State.cutInput_railFits now p h

theorem State.inputFalls_railFits (k : Fin 4) (h : s.railFits) : (s.inputFalls p k).railFits :=
  State.railFits_of_eq h (by simp) (by simp) (by simp)

theorem State.sampleInput_railFits (levels : BitVec 4) (k : Fin 4) (h : s.railFits) :
    (s.sampleInput now p levels k).railFits := by
  have hsampled : (s.mapRail fun r =>
      { r with inputs := r.inputs.set k (r.inputs[k].sample (levels.getLsbD k.val)) }).railFits := h
  have hshown : ((s.mapRail fun r =>
      { r with inputs := r.inputs.set k (r.inputs[k].sample (levels.getLsbD k.val)) }).publishInputs p).railFits := h
  unfold State.sampleInput
  dsimp only
  split
  · exact State.inputRises_railFits now p k hshown
  · split
    · exact State.inputFalls_railFits p k hshown
    · exact hsampled

/-- A fold keeps what its step keeps. -/
theorem foldl_induction {α : Type} {P : State → Prop} {op : State → α → State} (h : ∀ s x, P s → P (op s x))
    (l : List α) (s : State) (hs : P s) : P (l.foldl op s) := by
  induction l generalizing s with
  | nil => exact hs
  | cons x l ih => exact ih (op s x) (h s x hs)

theorem State.sampleInputs_railFits (levels : BitVec 4) (h : s.railFits) : (s.sampleInputs now p levels).railFits :=
  foldl_induction (fun _ k hu => State.sampleInput_railFits now p levels k hu) _ s h

theorem State.powerKeyPress_railFits (h : s.railFits) : (s.powerKeyPress now p).railFits := by
  have htimed : (s.mapRail fun r =>
      { r with override := some (after now (seconds (Profile.overrideTime p))) }).railFits := h
  unfold State.powerKeyPress
  dsimp only
  split
  · rename_i hs
    have hoff : s.rail.state = .off := hs
    exact State.enterWarming_railFits now p htimed (by simp [hoff, RailState.isOn])
  · exact State.startPulse_railFits now p htimed (.inl ‹_›)
  · exact htimed

theorem State.give_railFits (e : KeyEvent) (h : s.railFits) : (s.give now p e).railFits := by
  have hoffered : (s.offer now e.kind e.subject).railFits := State.railFits_of_eq h (by simp) (by simp) (by simp)
  unfold State.give
  dsimp only
  split
  · exact hoffered
  · exact State.powerKeyPress_railFits now p hoffered
  · exact hoffered

theorem State.give_foldl_railFits (es : List KeyEvent) (h : s.railFits) : (es.foldl (State.give now p) s).railFits :=
  foldl_induction (fun _ e hu => State.give_railFits now p e hu) _ s h

theorem State.scanWork_railFits (counts : Vector (BitVec 12) 24) (h : s.railFits) :
    (s.scanWork now p counts).railFits := by
  have hgiven := State.give_foldl_railFits now p ((s.scanTaken p counts).keypad.scanned now p).2
    (s := (s.scanTaken p counts).mapKeypad fun _ => ((s.scanTaken p counts).keypad.scanned now p).1) h
  rw [State.scanWork_eq]
  exact State.railFits_of_eq hgiven (by simp) (by simp) (by simp)

theorem State.serviceChord_railFits (h : s.railFits) : (s.serviceChord now p).railFits := by
  unfold State.serviceChord
  split
  · rename_i hs
    have hladder : (s.setLadderIndex 0).railFits := h
    exact State.enterWarming_railFits now p hladder (by simp [hs, RailState.isOn])
  · exact h

theorem State.giveChord_railFits (c : Fin 4) (h : s.railFits) : (s.giveChord now p c).railFits := by
  have hfired : (s.mapKeypad fun kp => { kp with chords := kp.chords.set c { fired := true, holdEnd := none } }).railFits :=
    h
  unfold State.giveChord
  dsimp only
  split
  · exact State.railFits_of_eq (State.serviceChord_railFits now p hfired) (by simp) (by simp) (by simp)
  · exact State.railFits_of_eq hfired (by simp) (by simp) (by simp)

/-! ### Slips and kicks -/

theorem State.complete_railFits (n : Nat) (r : SlipResult) (h : s.railFits) :
    (s.mapX (Exchange.complete n r)).railFits := h

theorem State.restartHost_railFits (mode : Nat) (h : s.railFits) : (s.restartHost now p mode).railFits := by
  unfold State.restartHost
  split
  · rename_i hs
    split
    · exact State.enterResetting_railFits now p (State.addRecord_railFits now _ _ _ _ h) (by simpa using hs)
    · split
      · exact State.cutWithNotice_railFits now p _ _ h (by simp [hs, RailState.isOn])
      · exact h
  · exact h

theorem State.stopSlip_railFits (delay : Nat) (h : s.railFits) : (s.stopSlip now p delay).1.railFits := by
  unfold State.stopSlip
  split
  · exact State.enterStopping_railFits now p _ h ‹_›
  · exact h

theorem State.watchdogSlip_railFits (mode : Nat) (v : StageSet) (h : s.railFits) :
    (s.watchdogSlip now p mode v).1.railFits := by
  unfold State.watchdogSlip
  split
  · exact h
  · split
    · exact h
    · exact State.setArmed_railFits now p _ (s := s.mapMon _) h

theorem State.rebaselineSlip_railFits (mask : BitVec 24) (h : s.railFits) :
    (s.rebaselineSlip now p mask).1.railFits := by
  unfold State.rebaselineSlip
  dsimp only
  split
  · exact h
  · split
    · exact h
    · split
      · exact h
      · exact State.give_foldl_railFits now p _ (s := s.mapKeypad _) h

theorem State.immediate_railFits (n : Fin 16) {a : State × SlipResult} (h : a.1.railFits) :
    (State.immediate n a).railFits := h

theorem State.lasting_railFits (b : LastingBlock) (n : Fin 16) {a : State × LastingAnswer} (h : a.1.railFits) :
    (State.lasting b n a).railFits := by
  unfold State.lasting
  split
  · exact State.railFits_of_eq h (by simp) (by simp) (by simp)
  · exact h

theorem State.commitSlip_active (s : State) : (s.commitSlip now).1.store.active = s.store.active := by
  unfold State.commitSlip
  split
  · rfl
  · split <;> rfl

theorem State.runSlip_railFits (n : Fin 16) (h : s.railFits) : (s.runSlip now p n).railFits := by
  unfold State.runSlip
  dsimp only
  split
  · exact State.immediate_railFits n (State.railFits_of_eq h (by simp) (by simp) (by simp))
  · exact State.immediate_railFits n (State.railFits_of_eq h (by simp) (by simp) (by simp))
  · exact State.lasting_railFits _ n (State.railFits_of_eq h (by simp) (by simp) (by simp))
  · exact State.lasting_railFits _ n (State.railFits_of_eq h (by simp) (by simp) (by simp))
  · exact State.immediate_railFits n (State.stopSlip_railFits now p _ h)
  · exact State.restartHost_railFits now p _ (s := s.mapX _) h
  · exact State.immediate_railFits n (State.watchdogSlip_railFits now p _ _ h)
  · exact State.lasting_railFits _ n (State.rebaselineSlip_railFits now p _ h)
  · exact State.immediate_railFits n (State.railFits_of_eq h (by simp) (by simp) (by simp))
  · exact State.lasting_railFits _ n (State.railFits_of_eq h (by simp) (by simp) (State.commitSlip_active now s))
  · exact h

theorem State.arbitrateAmong_railFits (undelivered : List (Fin 16)) (h : s.railFits) :
    (s.arbitrateAmong undelivered now p).railFits := by
  unfold State.arbitrateAmong
  split
  · exact h
  · split
    · exact h
    · exact State.runSlip_railFits now p _ (s := s.mapEngine _) h

theorem State.arbitrate_railFits (h : s.railFits) : (s.arbitrate now p).railFits :=
  State.arbitrateAmong_railFits now p [] h

/-- A kick makes a watchdog run only where one runs already (R105 to R108). -/
theorem State.kick_railFits (v : Byte) (h : s.railFits) : (s.kick now v).railFits := by
  have haccepted (f : Monitor → Monitor) (hw : s.mon.watchdog.runs = true) :
      ((s.mapMon f).publishWatchdog now).railFits :=
    ⟨h.1.ofRunning (h.1.2.2.2 hw), h.2⟩
  have hrefused (r : KickRefusal) : (s.setRefusal r).railFits := h
  unfold State.kick
  dsimp only
  split
  · exact haccepted _ (by simp [*, WatchdogState.runs])
  · split
    · exact hrefused _
    · split
      · split
        · exact hrefused _
        · exact haccepted _ (by simp [*, WatchdogState.runs])
      · exact haccepted _ (by simp [*, WatchdogState.runs])
  · split
    · exact hrefused _
    · split
      · split
        · exact hrefused _
        · exact haccepted _ (by simp [*, WatchdogState.runs])
      · exact haccepted _ (by simp [*, WatchdogState.runs])
  · split
    · split <;> exact h
    · exact h
  all_goals exact h

theorem State.deliverOwner_railFits (undelivered : List (Fin 16)) (n : Fin 16) (h : s.railFits) :
    (s.deliverOwner undelivered now p n).railFits := by
  unfold State.deliverOwner
  split
  · exact State.arbitrateAmong_railFits now p undelivered h
  · split
    · exact State.railFits_of_eq h (by simp) (by simp) (by simp)
    · exact h

theorem State.deliverAll_railFits (cs : List Host.Cell) (h : s.railFits) : (s.deliverAll now p cs).railFits := by
  have hstep {c : Prop} [Decidable c] (f : State → State) (hf : ∀ u : State, u.railFits → (f u).railFits) {u : State}
      (hu : u.railFits) : (if c then f u else u).railFits := by
    split
    · exact hf u hu
    · exact hu
  rw [State.deliverAll_eq]
  refine foldl_induction (fun u n hu => ?_) _ _ ?_
  · exact hstep (fun u => u.deliverOwner (ownersAfter cs n) now p n)
      (fun u hu => State.deliverOwner_railFits now p _ n hu) hu
  · unfold State.deliverWords
    refine hstep (State.deliverReadCounter now)
      (fun u hu => State.railFits_of_eq hu (by simp) (by simp) (by simp)) ?_
    refine hstep (fun u => u.kick now (u.xmem.peek 0x12)) (fun u hu => State.kick_railFits now _ hu) ?_
    refine hstep (fun u => u.mapX Exchange.deliverEnable) (fun _ hu => hu) ?_
    exact hstep (fun u => u.mapX Exchange.deliverAcknowledge) (fun _ hu => hu) h

/-! ### The timebase, the timers and the load -/

theorem State.slotWork_railFits (pgood hsleep : Bool) (levels : BitVec 4) (h : s.railFits) :
    (s.slotWork now p pgood hsleep levels).railFits := by
  have hcount : ((s.countSlot now).startOutputs (now.toNat % 64)).railFits :=
    State.railFits_of_eq h (by simp) (by simp) (by simp)
  have hjudged := State.judgeAtSlot_railFits now p (State.sampleInputs_railFits now p levels
    (State.samplePower_railFits now p pgood hsleep hcount))
  have hworked : (s.slotWorked now p pgood hsleep levels).railFits :=
    State.railFits_of_eq hjudged (State.publishWatchdog_frame now _).2.2.2.2.1
      (by rw [State.slotWorked, (State.publishWatchdog_frame now _).2.2.2.2.2.1])
      (by rw [State.slotWorked, (State.publishWatchdog_frame now _).2.2.2.2.2.2.2.2.1])
  rw [State.slotWork_eq]
  refine State.arbitrate_railFits now p (State.railFits_of_eq hworked ?_ ?_ ?_) <;>
    (unfold State.slotDecided; split <;> simp)

theorem State.activateDue_railFits (old : Image) (h : s.railFits) : (s.activateDue now old).railFits := by
  have hadopted (new : Image) (u : State) (hu : u.railFits) : (u.adoptKeypad old new).railFits := by
    obtain ⟨o, hrail⟩ := State.adoptKeypad_rail old new u
    refine ⟨?_, by simpa using hu.2⟩
    rw [hrail, (State.adoptKeypad_frame old new u).2.2.2.2.1]
    exact hu.1
  have hladder (new : Image) (u : State) (hu : u.railFits) : (u.adoptMonitor new).railFits := by
    unfold State.adoptMonitor
    split
    · exact hu
    · exact hu
  have hbrought : s.bringIntoForce.railFits := ⟨h.1, rfl⟩
  have hshown : ((s.bringIntoForce.adoptMonitor s.store.storedImage).publishInputs s.store.storedImage).railFits :=
    State.railFits_of_eq (hladder s.store.storedImage _ hbrought) (by simp) (by simp) (by simp)
  unfold State.activateDue
  split
  · refine State.arbitrate_railFits now _ ?_
    rw [State.activate_eq]
    refine State.railFits_of_eq (hadopted s.store.storedImage _ hshown) (by simp) (by simp) ?_
    simp only [State.mapStore_store, State.report_frame]
    split <;> rfl
  · exact h

theorem State.boundaryWork_railFits (old : Image) (h : s.railFits) : (s.boundaryWork now old).railFits := by
  have hactive := State.activateDue_railFits now old (s := s.mapTime fun t => { t with boundaryTaken := true }) h
  have hair (u : State) : (u.airBoundary now (s.profileAfter old)).store.active = u.store.active :=
    (State.airBoundary_store now (s.profileAfter old) u).images.1
  rw [State.boundaryWork_eq]
  refine State.arbitrate_railFits now _ (State.railFits_of_eq hactive ?_ ?_ ?_)
  · simp [State.boundaryWorked]
  · simp [State.boundaryWorked]
  · simp [State.boundaryWorked, hair]

theorem State.receiveAnswer_railFits (granted : Bool) (h : s.railFits) : (s.receiveAnswer p granted now).railFits := by
  have hreceived : (s.mapClimate fun c => { c with answer := none }).railFits := h
  unfold State.receiveAnswer
  dsimp only
  split
  · rename_i hs
    split
    · exact State.enterStarting_railFits now p hreceived hs.1
    · refine ⟨?_, h.2⟩
      obtain ⟨hl, ht, hf, hw⟩ := h.1
      have hwarming : s.rail.state = .warming := hs.1
      refine ⟨hl, ht, ?_, hw⟩
      simp [Rail.flagsOk, hwarming, State.setWait] at hf ⊢
      exact hf
  · exact hreceived

theorem State.judgeOvertemp_railFits (h : s.railFits) : (s.judgeOvertemp now p).railFits := by
  unfold State.judgeOvertemp
  split
  · split
    · rename_i hs
      exact State.cutWithNotice_railFits now p _ _ h hs.1
    · exact h
  · exact h

theorem State.testCurrent_railFits (mA : Nat) (h : s.railFits) : (s.testCurrent now p mA).railFits := by
  unfold State.testCurrent
  split
  · rename_i hs
    split
    · exact h
    · exact State.failure_railFits now p _ h hs.1
  · exact h

theorem State.endPgoodLimit_railFits (h : s.railFits) : (s.endPgoodLimit p now).railFits := by
  unfold State.endPgoodLimit
  split
  · rename_i hs
    have hended : (s.mapRail fun r => { r with pgoodLimit := none }).railFits := by
      refine ⟨?_, h.2⟩
      obtain ⟨hl, ht, hf, hw⟩ := h.1
      refine ⟨hl, ?_, hf, hw⟩
      simp [Rail.timersOk, hs] at ht ⊢
      exact ht
    dsimp only
    split
    · exact hended
    · exact State.failure_railFits now p _ hended (by simp [hs, RailState.isOn])
  · exact h

theorem State.endStopLimit_railFits (h : s.railFits) : (s.endStopLimit p now).railFits := by
  unfold State.endStopLimit
  split
  · rename_i hs
    exact State.enterCooldown_railFits now _ _ (State.addRecord_railFits now _ _ _ _ h) (by simp [hs, RailState.isOn])
  · exact h

theorem State.endResetDelay_railFits (h : s.railFits) (hdelay : s.rail.resetDelay.isSome = true) :
    (s.endResetDelay p now).railFits := by
  unfold State.endResetDelay
  split
  · rename_i hs
    refine ⟨?_, h.2⟩
    obtain ⟨⟨hl, ht, hf, hw⟩, _⟩ := h
    simp [Rail.fits, Rail.linesOk, Rail.timersOk, Rail.flagsOk, RailState.isOn, hs, State.assertReset, hdelay]
      at hl ht hf hw ⊢
    simp_all
  · exact h

theorem State.endOffTimer_railFits (h : s.railFits) : (s.endOffTimer p now).railFits := by
  unfold State.endOffTimer
  split
  · rename_i hs
    have hended : (s.mapRail fun r => { r with offTimer := none }).railFits := by
      refine ⟨?_, h.2⟩
      obtain ⟨hl, ht, hf, hw⟩ := h.1
      refine ⟨hl, ?_, hf, hw⟩
      simp [Rail.timersOk, hs] at ht ⊢
      exact ht
    dsimp only
    split
    · exact State.enterWarming_railFits now p hended (by simp [hs, RailState.isOn])
    · rename_i hpending
      have hpend : s.rail.restartPending = false := by simpa using hpending
      refine ⟨?_, by simpa using h.2⟩
      obtain ⟨hen, hrst, hbtn, hpulse, hlimit, hhold, hstop, hdelay, hwidth⟩ :=
        h.1.quiet (by simp [hs, RailState.isOn])
      obtain ⟨_, _, hf, hw⟩ := h.1
      have hruns := Monitor.railChanged_runs (new := .off) hw (by decide)
      simp [Rail.flagsOk, hs] at hf
      rw [hs] at hruns
      simp [Rail.fits, Rail.linesOk, Rail.timersOk, Rail.flagsOk, RailState.isOn, hs, State.setRail_rail,
        State.setRail_mon, hpend, hruns, hen, hrst, hbtn, hpulse, hlimit, hhold, hstop, hdelay, hwidth, hf]
  · exact h

theorem State.endPulse_railFits (h : s.railFits) : (s.endPulse p now).railFits := by
  refine ⟨?_, h.2⟩
  obtain ⟨hl, ht, hf, hw⟩ := h.1
  refine ⟨?_, ht, hf, hw⟩
  simp only [Rail.linesOk, State.endPulse, State.mapRail_rail, Bool.and_eq_true] at hl ⊢
  exact ⟨⟨⟨hl.1.1.1, hl.1.1.2⟩, rfl⟩, rfl⟩

theorem State.endOverride_railFits (h : s.railFits) : (s.endOverride p now).railFits := by
  have hended : (s.mapRail fun r => { r with override := none }).railFits := h
  unfold State.endOverride
  dsimp only
  split
  · exact State.cutWithNotice_railFits now p _ _ hended ‹_›
  · exact hended

theorem State.expire_railFits (cause : RestartCause) (h : s.railFits) (hw : s.mon.watchdog.runs = true) :
    (s.expire cause p now).railFits := by
  have hs : s.rail.state = .running := h.1.2.2.2 hw
  have hexpired : (s.expired cause p now).railFits := by
    refine ⟨?_, by simpa [State.expired] using h.2⟩
    have hrail : (s.expired cause p now).rail = s.rail := by simp [State.expired]
    rw [hrail]
    exact h.1.ofRunning hs
  rw [State.expire_eq]
  exact State.railFits_of_eq
    (State.carryOut_railFits now p (ladderAction p s.mon.ladderIndex) hexpired (by simpa [State.expired] using hs))
    (by simp) (by simp) (by simp)

/-- The load finds the rail OFF and leaves it there or takes it into WARMING (R70, R176). -/
theorem State.loadProfile_railFits (hs : s.rail.fits s.mon.watchdog) (hoff : s.rail.state = .off) :
    s.loadProfile.railFits := by
  have hloaded : (s.loaded.mapX fun x => { x with ready := true }).railFits := by
    simpa [State.railFits, State.loaded_store, State.loaded_mon] using hs
  have hstate : (s.loaded.mapX fun x => { x with ready := true }).rail.state = .off := by simpa using hoff
  rw [State.loadProfile_eq]
  have hunjudged {u : State} (hu : u.railFits) : (u.mapRail fun r => { r with judgedAt := none }).railFits := hu
  unfold State.beginRail
  split
  · exact hunjudged (State.enterWarming_railFits _ _ hloaded (by rw [hstate]; rfl))
  · exact hloaded

/-! ### Every event -/

theorem State.railSafe_eventsKeep (h : s.railSafe = true) : EventsKeep (fun t => t.railSafe = true) s where
  powerUp _ := rfl
  load hnone := by
    refine State.railSafe_of_railFits (State.loadProfile_railFits (State.fits_of_railSafe h) ?_)
    simp only [State.railSafe, Bool.and_eq_true, hnone] at h
    simpa using h.2
  tach f g := by
    unfold State.setFanSpeed
    dsimp only
    split <;> exact h
  slotStart p pgood hsleep levels hp :=
    State.railSafe_of_railFits (State.slotWork_railFits _ p pgood hsleep levels (State.railFits_of_railSafe h hp))
  boundary p now hp :=
    State.railSafe_of_railFits (State.boundaryWork_railFits now p (State.railFits_of_railSafe h hp))
  answer p granted boundary hp :=
    State.railSafe_of_railFits (State.receiveAnswer_railFits boundary p granted (State.railFits_of_railSafe h hp))
  conversion p k code hp := by
    have htaken : (s.takeCode p k code).railFits :=
      State.railFits_of_eq (State.railFits_of_railSafe h hp) (by simp) (by simp) (by simp)
    refine State.railSafe_of_railFits ?_
    unfold State.deliverTemp
    split
    · exact State.railFits_of_eq htaken (by simp) (by simp) (by simp)
    · split
      · exact State.judgeOvertemp_railFits _ p htaken
      · exact htaken
  railConversion p mV mA hp := by
    have htaken : (s.takeRailCodes mV mA).railFits := by
      refine State.railFits_of_eq (State.railFits_of_railSafe h hp) ?_ ?_ ?_ <;>
        (unfold State.takeRailCodes; dsimp only; split <;> simp)
    exact State.railSafe_of_railFits (State.testCurrent_railFits _ p mA htaken)
  completeStop p hp hs :=
    State.railSafe_of_railFits (State.completeStop_railFits _ p (State.railFits_of_railSafe h hp) hs)
  pgoodLimit p e hp := State.railSafe_of_railFits (State.endPgoodLimit_railFits e p (State.railFits_of_railSafe h hp))
  resetHold p e hp := by
    have hfits := State.railFits_of_railSafe h hp
    unfold State.endResetHold
    split
    · exact State.railSafe_of_railFits (State.enterRunning_railFits e p hfits (.inl ‹_›))
    · exact h
  stopLimit p e hp := State.railSafe_of_railFits (State.endStopLimit_railFits e p (State.railFits_of_railSafe h hp))
  resetDelay p e hp hdelay :=
    State.railSafe_of_railFits (State.endResetDelay_railFits e p (State.railFits_of_railSafe h hp) hdelay)
  resetWidth p e hp := by
    have hfits := State.railFits_of_railSafe h hp
    unfold State.endResetWidth
    split
    · exact State.railSafe_of_railFits (State.enterRunning_railFits e p hfits (.inr ‹_›))
    · exact h
  offTimer p e hp := State.railSafe_of_railFits (State.endOffTimer_railFits e p (State.railFits_of_railSafe h hp))
  pulse p e hp := State.railSafe_of_railFits (State.endPulse_railFits e p (State.railFits_of_railSafe h hp))
  override p e hp := State.railSafe_of_railFits (State.endOverride_railFits e p (State.railFits_of_railSafe h hp))
  expiry cause p e hp hw :=
    State.railSafe_of_railFits (State.expire_railFits e p cause (State.railFits_of_railSafe h hp) hw)
  warning e hw := by
    have hs : s.rail.state = .running := (State.fits_of_railSafe h).2.2.2 (by simp [hw, WatchdogState.runs])
    have hrail : (s.warn e).rail = s.rail := by simp
    have hstore : (s.warn e).store = s.store := by simp
    simp only [State.railSafe, Bool.and_eq_true, hrail, hstore] at h ⊢
    exact ⟨⟨h.1.1, (State.watchdogOk_iff _).mpr fun _ => hrail ▸ hs⟩, h.2⟩
  stable := h
  scan p t counts hp :=
    State.railSafe_of_railFits
      (State.arbitrate_railFits _ p (State.scanWork_railFits t p counts (State.railFits_of_railSafe h hp)))
  hold p e k hp :=
    State.railSafe_of_railFits
      (State.railFits_of_eq (State.railFits_of_railSafe h hp) (by simp) (by simp) (by simp))
  chord p e c hp := State.railSafe_of_railFits (State.giveChord_railFits e p c (State.railFits_of_railSafe h hp))
  programming _ := h
  serviceWrite p e hp _ := by
    refine State.railSafe_of_railFits (State.arbitrate_railFits e p ?_)
    refine State.railFits_of_eq (State.railFits_of_railSafe h hp) (by simp) (by simp) ?_
    simp [State.endServiceWrite]
  frame _ _ := h
  delivery p x cs hp _ _ :=
    State.railSafe_of_railFits (State.deliverAll_railFits _ p cs (State.railFits_of_railSafe (s := { s with xmem := _ }) h hp))
  clear p x hp _ :=
    State.railSafe_of_railFits
      (State.hostRestartClearing_railFits _ p (State.railFits_of_railSafe (s := { s with xmem := x }) h hp))

end operations

end Sys2Proof.Machine

namespace Sys2Proof.Proofs

open Sys2Proof.Machine

/-- Settles O56: every event keeps the rail record and the watchdog in step with the rail state. -/
theorem railLinesFollowTheState : Obligations.RailLinesFollowTheState := by
  intro s t hsound hstep
  obtain ⟨hwf, hrail⟩ := State.wf_railSafe_of_sound hsound
  exact step_keeps (fun rest => State.railSafe_eventsKeep (s := { s with pending := rest }) hrail) hwf hrail
    (fun _ h => h) hstep

end Sys2Proof.Proofs
end

