-- ==== Sys2Proof/Proofs/Changes.lean ====
section
/-!
SUPPORT. The events of the part as series of small changes. `State.Change` lists what one operation of one block can do to
the state; `State.Changes` is its reflexive and transitive closure, and every operation of the part but an activation, the
load, a landing and a boundary's allotment is such a series. An invariant is then shown for each change once.
-/

namespace Sys2Proof.Machine

/-! ### What the changes need -/

/-- The grants, the requests and the available power stand. -/
def Climate.stands (a b : Climate) : Prop :=
  b.available = a.available ∧
    ∀ z : Fin 3, b.zones[z].grant = a.zones[z].grant ∧ b.zones[z].request = a.zones[z].request

theorem Climate.stands_refl (c : Climate) : c.stands c := ⟨rfl, fun _ => ⟨rfl, rfl⟩⟩

theorem Climate.stands_withoutOverrides (c : Climate) : c.stands c.withoutOverrides := by
  refine ⟨rfl, fun z => ?_⟩
  simp only [Climate.withoutOverrides, tab_get]
  exact ⟨trivial, trivial⟩

/-- The probe serves a slip (R61, R62). -/
def Probe.serves (pr : Probe) : Prop := pr.phase ≠ .idle ∧ pr.bySlip = true

/-- A block has a lasting operation in flight. -/
def State.inFlight (s : State) : LastingBlock → Prop
  | .store => s.store.commit ≠ .idle
  | .air => s.air.probe.serves
  | .keypad => s.keypad.rebaseline.isSome = true

/-- A block of `B` whose binding names a slot has the operation in flight (R169). -/
def State.boundOn (B : LastingBlock → Prop) (s : State) : Prop :=
  ∀ b, B b → (s.engine.binding b).isSome = true → s.inFlight b

/-- Every block whose binding names a slot has the operation in flight (R169). -/
def State.bound (s : State) : Prop := s.boundOn fun _ => True

/-- The figures on the live page and the detail page that no invariant speaks of. -/
def pageBytes : List (Nat × Nat) := [(0x070, 0x1C), (0x098, 0x14), (0x700, 0xC0)]

/-- A sampled input, with the active inputs on the live page where the sample changes them (R89). -/
def State.inputTaken (p : Image) (levels : BitVec 4) (k : Fin 4) (s : State) : State :=
  let t := s.mapRail fun r => { r with inputs := r.inputs.set k (r.inputs[k].sample (levels.getLsbD k.val)) }
  if t.inputActive p k = s.inputActive p k then t else t.publishInputs p

/-- The read counter after the delivery of its word (R143). -/
def State.takeReadCounter (s : State) : State :=
  let v : Half := BitVec.ofNat 16 (s.xmem.peek16 0x16)
  if (v - s.keypad.readCounter).toNat ≤ (s.keypad.writeCounter - s.keypad.readCounter).toNat then
    s.mapKeypad fun k => { k with readCounter := v }
  else s.setReadCounter s.keypad.writeCounter

theorem State.deliverReadCounter_eq (now : SlotCount) (s : State) :
    s.deliverReadCounter now =
      if 0 < s.takeReadCounter.keypad.gap ∧ s.takeReadCounter.keypad.count < 32 ∧
          s.takeReadCounter.rail.state.takesKeys then
        s.takeReadCounter.writeGap now
      else s.takeReadCounter := rfl

/-! ### One change -/

/-- What one operation of one block can do. -/
inductive State.Change : State → State → Prop
  | time {s} (f : Timebase → Timebase) (h : (f s.time).slotCount = s.time.slotCount) : Change s (s.mapTime f)
  | count {s} (n : SlotCount) : Change s (s.countSlot n)
  | sense {s} (f : Sensing → Sensing) (hc : (f s.sense).channels = s.sense.channels)
      (hv : (f s.sense).railVoltage = s.sense.railVoltage) (hi : (f s.sense).railCurrent = s.sense.railCurrent)
      (ha : (f s.sense).railAverage = s.sense.railAverage) : Change s (s.mapSense f)
  | code {s} (p : Image) (k : Fin 6) (c : BitVec 12) : Change s (s.takeCode p k c)
  | railCodes {s} (mV mA : Nat) : Change s (s.takeRailCodes mV mA)
  | climate {s} (f : Climate → Climate) (h : s.climate.stands (f s.climate)) : Change s (s.mapClimate f)
  | page {s} (f : Exchange → Exchange) (h : s.xmem.writes pageBytes (f s.xmem))
      (hs : (f s.xmem).summary = s.xmem.summary) (he : (f s.xmem).enable = s.xmem.enable) : Change s (s.mapX f)
  | air {s} (f : Air → Air) (h : s.air.probe.serves → (f s.air).probe.serves) : Change s (s.mapAir f)
  | airReport {s} (f : Air → Air) (r : SlipResult) : Change s ((s.mapAir f).report .air r)
  | rail {s} (f : Rail → Rail) (hs : (f s.rail).state = s.rail.state) (hw : (f s.rail).waitReason = s.rail.waitReason)
      (hp : (f s.rail).restartPending = s.rail.restartPending) (hi : (f s.rail).inputs = s.rail.inputs) :
      Change s (s.mapRail f)
  | railState {s} (now : SlotCount) (new : RailState) : Change s (s.setRail now new)
  | wait {s} (w : WaitReason) : Change s (s.setWait w)
  | restart {s} (b : Bool) : Change s (s.setRestartPending b)
  | input {s} (p : Image) (levels : BitVec 4) (k : Fin 4) (hp : s.store.active = some p) :
      Change s (s.inputTaken p levels k)
  | record {s} (now : SlotCount) (cause : RestartCause) (action : RecordAction) (i : Nat) (before : RailState) :
      Change s (s.addRecord now cause action i before)
  | lateKick {s} (rs : List RestartRecord) : Change s ((s.mapMon fun m => { m with records := rs }).publishRecords)
  | ladder {s} (i : Nat) (hnone : s.store.active = none → i = 0)
      (h : ∀ p, s.store.active = some p → s.mon.ladderIndex ≤ Profile.ladderLength p → i ≤ Profile.ladderLength p) :
      Change s (s.setLadderIndex i)
  | monitor {s} (f : Monitor → Monitor) (hw : (f s.mon).watchdog = s.mon.watchdog)
      (hr : (f s.mon).lastRefusal = s.mon.lastRefusal) (hl : (f s.mon).ladderIndex = s.mon.ladderIndex)
      (hs : (f s.mon).records = s.mon.records) : Change s (s.mapMon f)
  | watchdog {s} (f : Monitor → Monitor) (now : SlotCount) (hr : (f s.mon).lastRefusal = s.mon.lastRefusal)
      (hl : (f s.mon).ladderIndex = s.mon.ladderIndex) (hs : (f s.mon).records = s.mon.records) :
      Change s ((s.mapMon f).publishWatchdog now)
  | refusal {s} (r : KickRefusal) : Change s (s.setRefusal r)
  | clearing {s} (now : SlotCount) (p : Image) : Change s (s.hostRestartClearing now p)
  | keypad {s} (f : Keypad → Keypad) (hf : (f s.keypad).fog = s.keypad.fog)
      (hr : (f s.keypad).readCounter = s.keypad.readCounter) (hw : (f s.keypad).writeCounter = s.keypad.writeCounter)
      (hg : (f s.keypad).gap = s.keypad.gap)
      (hb : s.keypad.rebaseline.isSome = true → (f s.keypad).rebaseline.isSome = true) : Change s (s.mapKeypad f)
  | fog {s} (b : Bool) : Change s ((s.mapKeypad fun k => { k with fog := b }).publishFog)
  | entry {s} (now : SlotCount) (kind : EntryKind) (subject : Byte) (h : s.keypad.count < 32) :
      Change s (s.writeEntry now kind subject)
  | gap {s} (g : Nat) (h : g ≤ 255) : Change s (s.setGap g)
  | readCounter {s} : Change s s.takeReadCounter
  | rebaselineEnd {s} (code : ResultCode) (mask : BitVec 24) : Change s (s.endRebaseline code mask)
  | raise {s} (c : Cause) : Change s (s.raise c)
  | acknowledge {s} : Change s (s.mapX Exchange.deliverAcknowledge)
  | enable {s} : Change s (s.mapX Exchange.deliverEnable)
  | engine {s} (f : Engine → Engine) (h : ∀ b, (f s.engine).binding b = s.engine.binding b) : Change s (s.mapEngine f)
  | complete {s} (n : Fin 16) (r : SlipResult) : Change s (s.mapX (Exchange.complete n.val r))
  | accept {s} (b : LastingBlock) (n : Fin 16) (hfree : s.engine.binding b = none) (h : s.inFlight b) :
      Change s (s.accept b n)
  | storeReport {s} (r : SlipResult) : Change s (s.report .store r)
  | store {s} (f : Store → Store) (ha : (f s.store).active = s.store.active)
      (hf : (f s.store).factoryActive = s.store.factoryActive) (hc : (f s.store).commit = s.store.commit)
      (hh : (f s.store).stagingHeld = s.store.stagingHeld) (hi : (f s.store).storedImage = s.store.storedImage) :
      Change s (s.mapStore f)
  | commit {s} (b : Option SlotCount) (hc : s.store.commit = .idle) (hv : validImage s.xmem.staged = true) :
      Change s (s.mapStore fun t => { t with commit := .programming, stagingHeld := true, programmingBegan := b })
  | readOut {s} (p : Image) (h : s.store.commit = .idle) : Change s (s.mapX (Exchange.partWrite 0x800 p))

/-- A series of changes. -/
def State.Changes : State → State → Prop := Relation.ReflTransGen State.Change

/-! ### What every change keeps -/

theorem State.Change.active {s t : State} (h : s.Change t) : t.store.active = s.store.active := by
  cases h with
  | store f ha _ _ _ _ => exact ha
  | railCodes mV mA => unfold State.takeRailCodes; dsimp only; split <;> simp
  | readCounter => unfold State.takeReadCounter; dsimp only; split <;> simp
  | input => unfold State.inputTaken; dsimp only; split <;> simp
  | _ => simp

theorem State.Change.wf {s t : State} (h : s.Change t) (hs : s.xmem.wf = true) : t.xmem.wf = true := by
  cases h with
  | count n => exact (State.countSlot_writes n s hs).wf
  | code p k c => exact (State.takeCode_writes p k c s hs).wf
  | railCodes mV mA => exact (State.takeRailCodes_writes mV mA s hs).wf
  | page f h _ _ => exact (h hs).wf
  | airReport f r => exact (State.report_writes .air r (s.mapAir f) hs).wf
  | railState now new => exact (State.setRail_writes now new s hs).wf
  | wait w => exact (State.setWait_writes w s hs).wf
  | restart b => exact (State.setRestartPending_writes b s hs).wf
  | input p levels k _ =>
    unfold State.inputTaken
    dsimp only
    split
    · exact hs
    · exact (State.publishInputs_writes p (s.mapRail _) hs).wf
  | record now cause action i before => exact (State.addRecord_writes now cause action i before s hs).wf
  | lateKick rs => exact (State.publishRecords_writes (s.mapMon _) hs).wf
  | ladder i _ _ => exact (State.setLadderIndex_writes i s hs).wf
  | watchdog f now _ _ _ => exact (State.publishWatchdog_writes now (s.mapMon f) hs).wf
  | refusal r => exact (State.setRefusal_writes r s hs).wf
  | clearing now p => exact (State.hostRestartClearing_writes now p s hs).wf
  | fog b => exact (State.publishFog_writes (s.mapKeypad _) hs).wf
  | entry now kind subject _ => exact (State.writeEntry_writes now kind subject s hs).wf
  | gap g _ => exact (State.setGap_writes g s hs).wf
  | readCounter =>
    unfold State.takeReadCounter
    dsimp only
    split
    · exact hs
    · exact (State.setReadCounter_writes _ s hs).wf
  | rebaselineEnd code mask => exact (State.endRebaseline_writes code mask s hs).wf
  | raise c => exact (State.raise_writes c s hs).wf
  | acknowledge => exact (Exchange.deliverAcknowledge_writes s.xmem hs).wf
  | enable => exact (Exchange.deliverEnable_writes s.xmem hs).wf
  | complete n r => exact (Exchange.complete_writes n.isLt r s.xmem hs).wf
  | accept b n _ _ => exact (State.accept_writes b n s hs).wf
  | storeReport r => exact (State.report_writes .store r s hs).wf
  | readOut p _ => exact Exchange.wf_partWrite hs _ _
  | time | sense | climate | air | rail | monitor | keypad | engine | store | commit => exact hs

section bound
variable {B : LastingBlock → Prop}

/-- The bindings may be dropped, and the operations in flight stand where a binding stands. -/
theorem State.boundOn_of {s t : State} (h : s.boundOn B)
    (he : ∀ b, (t.engine.binding b).isSome = true → (s.engine.binding b).isSome = true ∧ (s.inFlight b → t.inFlight b)) :
    t.boundOn B := fun b hB hb => (he b hb).2 (h b hB (he b hb).1)

/-- Nothing of the engine, the probe, the rebaseline and the commit changes. -/
theorem State.boundOn_of_eq {s t : State} (h : s.boundOn B) (he : t.engine = s.engine)
    (ha : t.air.probe = s.air.probe) (hk : t.keypad.rebaseline = s.keypad.rebaseline)
    (hc : t.store.commit = s.store.commit) : t.boundOn B := by
  refine State.boundOn_of h fun b hb => ⟨he ▸ hb, fun hf => ?_⟩
  cases b with
  | store => exact fun h0 => hf (hc ▸ h0)
  | air => exact (show t.air.probe.serves from ha ▸ hf)
  | keypad => exact (show t.keypad.rebaseline.isSome = true from hk ▸ hf)

/-- The binding after a report: its own is gone, the others stand (R170). -/
theorem State.report_binding (b c : LastingBlock) (r : SlipResult) (s : State) :
    (s.report b r).engine.binding c = if c = b then none else s.engine.binding c := by
  unfold State.report
  cases hb : s.engine.binding b with
  | none =>
    by_cases hc : c = b
    · subst hc
      simp [hb]
    · simp [hc]
  | some n => cases b <;> cases c <;> rfl

theorem State.boundOn_report {s : State} (b : LastingBlock) (r : SlipResult)
    (h : s.boundOn fun c => B c ∧ c ≠ b) : (s.report b r).boundOn B := by
  intro c hB hc
  rw [State.report_binding] at hc
  by_cases hcb : c = b
  · simp [hcb] at hc
  · rw [if_neg hcb] at hc
    have hf := h c ⟨hB, hcb⟩ hc
    cases c with
    | store => simpa [State.inFlight] using hf
    | air => simpa [State.inFlight] using hf
    | keypad => simpa [State.inFlight] using hf

theorem State.Change.boundOn {s t : State} (h : s.Change t) (hs : s.boundOn B) : t.boundOn B := by
  cases h with
  | railCodes mV mA =>
    refine State.boundOn_of_eq hs ?_ ?_ ?_ ?_ <;> (unfold State.takeRailCodes; dsimp only; split <;> simp)
  | input => refine State.boundOn_of_eq hs ?_ ?_ ?_ ?_ <;> (unfold State.inputTaken; dsimp only; split <;> simp)
  | readCounter =>
    refine State.boundOn_of_eq hs ?_ ?_ ?_ ?_ <;>
      (unfold State.takeReadCounter State.setReadCounter; dsimp only; split <;> simp)
  | air f hf =>
    refine State.boundOn_of hs fun b hb => ⟨hb, fun h => ?_⟩
    cases b with
    | air => exact hf h
    | store => exact h
    | keypad => exact h
  | airReport f r =>
    refine State.boundOn_report .air r fun c hc hb => ?_
    cases c with
    | air => exact absurd rfl hc.2
    | store => exact hs .store hc.1 hb
    | keypad => exact hs .keypad hc.1 hb
  | keypad f _ _ _ _ hb =>
    refine State.boundOn_of hs fun b h => ⟨h, fun hf => ?_⟩
    cases b with
    | keypad => exact hb hf
    | store => exact hf
    | air => exact hf
  | rebaselineEnd code mask =>
    refine State.boundOn_report .keypad _ fun c hc hb => ?_
    cases c with
    | keypad => exact absurd rfl hc.2
    | store => exact hs .store hc.1 hb
    | air => exact hs .air hc.1 hb
  | storeReport r => exact State.boundOn_report .store r fun c hc hb => hs c hc.1 hb
  | engine f hf => exact State.boundOn_of hs fun b hb => ⟨hf b ▸ hb, fun h => by cases b <;> exact h⟩
  | accept b n _ hf =>
    intro c hB hc
    have hstands : s.inFlight c → (s.accept b n).inFlight c := fun h => by cases c <;> exact h
    by_cases hcb : c = b
    · exact hstands (hcb ▸ hf)
    · refine hstands (hs c hB ?_)
      cases b <;> cases c <;> simp_all [State.accept, Engine.bind, Engine.binding]
  | clearing now p => intro b _ hb; cases b <;> cases hb
  | store f _ _ hc _ _ =>
    refine State.boundOn_of hs fun b h => ⟨h, fun hf => ?_⟩
    cases b with
    | store => exact fun h0 => hf (hc ▸ h0)
    | keypad => exact hf
    | air => exact hf
  | commit b hc _ =>
    refine State.boundOn_of hs fun c h => ⟨h, fun hf => ?_⟩
    cases c with
    | store => exact fun h0 => nomatch h0
    | keypad => exact hf
    | air => exact hf
  | entry => refine State.boundOn_of_eq hs ?_ ?_ ?_ ?_ <;> simp [State.writeEntry]
  | gap => refine State.boundOn_of_eq hs ?_ ?_ ?_ ?_ <;> simp [State.setGap]
  | _ => refine State.boundOn_of_eq hs ?_ ?_ ?_ ?_ <;> simp

end bound

/-! ### Series -/

namespace State.Changes

variable {s t u : State}

theorem refl (s : State) : s.Changes s := Relation.ReflTransGen.refl

theorem trans (h : s.Changes t) (h' : t.Changes u) : s.Changes u := Relation.ReflTransGen.trans h h'

theorem andThen (h : s.Changes t) (h' : t.Change u) : s.Changes u := Relation.ReflTransGen.tail h h'

theorem of_change (h : s.Change t) : s.Changes t := Relation.ReflTransGen.single h

/-- What each change keeps of a well-formed state, a series keeps. -/
theorem keeps {P : State → Prop} (h : s.Changes t) (hP : ∀ u v, u.xmem.wf = true → P u → u.Change v → P v)
    (hwf : s.xmem.wf = true) (hs : P s) : t.xmem.wf = true ∧ P t := by
  induction h with
  | refl => exact ⟨hwf, hs⟩
  | tail _ hc ih => exact ⟨hc.wf ih.1, hP _ _ ih.1 ih.2 hc⟩

theorem wf (h : s.Changes t) (hwf : s.xmem.wf = true) : t.xmem.wf = true :=
  (h.keeps (P := fun _ => True) (fun _ _ _ _ _ => trivial) hwf trivial).1

theorem active (h : s.Changes t) : t.store.active = s.store.active := by
  induction h with
  | refl => rfl
  | tail _ hc ih => exact hc.active.trans ih

theorem boundOn {B : LastingBlock → Prop} (h : s.Changes t) (hs : s.boundOn B) : t.boundOn B := by
  induction h with
  | refl => exact hs
  | tail _ hc ih => exact hc.boundOn ih

theorem bound (h : s.Changes t) (hs : s.bound) : t.bound := h.boundOn hs

theorem foldl {α : Type} {op : State → α → State} (l : List α) (h : ∀ v x, s.Changes v → v.Changes (op v x))
    (ht : s.Changes t) : s.Changes (l.foldl op t) := by
  induction l generalizing t with
  | nil => exact ht
  | cons x l ih => exact ih (ht.trans (h t x ht))

theorem ite {c : Prop} [Decidable c] {a b : State} (ha : c → s.Changes a) (hb : ¬c → s.Changes b) :
    s.Changes (if c then a else b) := by
  split
  · exact ha ‹_›
  · exact hb ‹_›

end State.Changes

end Sys2Proof.Machine
end

