-- ==== Sys2Proof/Proofs/ChangesOfOperations.lean ====
section
/-!
SUPPORT. The operations of the part as series of changes, block after block.
-/

namespace Sys2Proof.Machine

open State (Change Changes)

/-! ### The rail controller -/

section rail
variable {s : State} (now : SlotCount) (p : Image)

theorem ladderNext_le {i : Nat} (h : i ≤ Profile.ladderLength p) : ladderNext p i ≤ Profile.ladderLength p := by
  unfold ladderNext
  split
  · omega
  · exact h

theorem State.enterCooldown_changes (restart : Bool) (off : Nat) : s.Changes (s.enterCooldown now restart off) := by
  have hcut : s.Changes s.cutLines := .of_change (.rail _ rfl rfl rfl rfl)
  have hset := (hcut.andThen (.railState now .cooldown)).andThen (.restart restart)
  unfold State.enterCooldown
  exact hset.andThen (.rail _ rfl rfl rfl rfl)

theorem State.enterLockout_changes : s.Changes (s.enterLockout now) := by
  have hcut : s.Changes s.cutLines := .of_change (.rail _ rfl rfl rfl rfl)
  exact (hcut.andThen (.railState now .lockout)).andThen (.restart false)

theorem State.cutWithNotice_changes (cause : RestartCause) (restart : Bool) :
    s.Changes (s.cutWithNotice now p cause restart) :=
  (Changes.of_change (.record now cause _ _ _)).trans (State.enterCooldown_changes now _ _)

variable {p}

theorem State.setLadderNext_changes (hp : s.store.active = some p) :
    s.Changes (s.setLadderIndex (ladderNext p s.mon.ladderIndex)) := by
  refine .of_change (.ladder _ (fun h => by simp [hp] at h) fun q hq hi => ?_)
  obtain rfl : p = q := Option.some.inj (hp.symm.trans hq)
  exact ladderNext_le p hi

theorem State.failure_changes (cause : RestartCause) (hp : s.store.active = some p) :
    s.Changes (s.failure now p cause) := by
  have hrecorded : s.Changes (s.failureRecorded now p cause) :=
    (State.setLadderNext_changes hp).andThen (.record now cause _ _ _)
  rw [State.failure_eq]
  exact .ite (fun _ => hrecorded.trans (State.enterLockout_changes now))
    fun _ => hrecorded.trans (State.enterCooldown_changes now _ _)

variable (p)

theorem State.judgeGate_changes (age : Nat) : s.Changes (s.judgeGate p age) := by
  unfold State.judgeGate
  exact ((Changes.of_change (.rail _ rfl rfl rfl rfl)).andThen (.rail _ rfl rfl rfl rfl)).andThen (.wait _)

theorem State.judgeAtSlot_changes : s.Changes (s.judgeAtSlot now p) := by
  unfold State.judgeAtSlot
  refine .ite (fun _ => ?_) fun _ => .refl s
  have hjudged : s.Changes (s.mapRail fun r => { r with judgedAt := none }) := .of_change (.rail _ rfl rfl rfl rfl)
  exact .ite (fun _ => hjudged) fun _ => hjudged.trans (State.judgeGate_changes p _)

theorem State.enterWarming_changes : s.Changes (s.enterWarming now p) := by
  unfold State.enterWarming
  have hset := (Changes.of_change (.railState (s := s) now .warming)).andThen (.restart false)
  exact (hset.andThen (.rail _ rfl rfl rfl rfl)).trans (State.judgeGate_changes p 0)

theorem State.enterStarting_changes : s.Changes (s.enterStarting now p) := by
  unfold State.enterStarting
  have hset := Changes.of_change (.railState (s := s) now .starting)
  exact (hset.andThen (.rail _ rfl rfl rfl rfl)).andThen (.clearing now p)

/-- GRACE, PAUSED or DORMANT, shown (R103, R121). -/
theorem State.startWatchdog_changes (f : Monitor → Monitor) (hr : (f s.mon).lastRefusal = s.mon.lastRefusal)
    (hl : (f s.mon).ladderIndex = s.mon.ladderIndex) (hs : (f s.mon).records = s.mon.records) :
    s.Changes (((s.mapMon f).startWatchdog now p).publishWatchdog now) := by
  unfold State.startWatchdog
  split
  · split
    · exact .of_change (.watchdog (fun m => { f m with watchdog := .paused, pausedFrom := .grace, stageEnd := none }) now
        hr hl hs)
    · exact .of_change (.watchdog (fun m =>
        { f m with
          watchdog := .grace, expected := none, stageEnd := some (after now (seconds (bootGrace p (s.temp 2)))) }) now
        hr hl hs)
  · exact .of_change (.watchdog (fun m => { f m with watchdog := .dormant, stageEnd := none }) now hr hl hs)

theorem State.enterRunning_changes : s.Changes (s.enterRunning now p) := by
  unfold State.enterRunning State.monitorRunning
  have hset := (Changes.of_change (.rail (s := s) (fun r =>
    { r with hrst := false, pgoodLimit := none, resetHold := none, resetDelay := none, resetWidth := none }) rfl rfl rfl
    rfl)).andThen (.railState now .running)
  exact hset.trans (State.startWatchdog_changes now p _ rfl rfl rfl)

theorem State.startPulse_changes : s.Changes (s.startPulse now p) :=
  .ite (fun _ => .refl s) fun _ => .of_change (.rail _ rfl rfl rfl rfl)

theorem State.enterStopping_changes (delay : Nat) : s.Changes (s.enterStopping now p delay) :=
  (Changes.of_change (.railState now .stopping)).andThen (.rail _ rfl rfl rfl rfl)

theorem State.completeStop_changes : s.Changes (s.completeStop now p) := State.enterCooldown_changes now _ _

theorem State.assertReset_changes : s.Changes (s.assertReset now p) := .of_change (.rail _ rfl rfl rfl rfl)

theorem State.enterResetting_changes : s.Changes (s.enterResetting now p) := by
  have hset := (Changes.of_change (.railState (s := s) now .resetting)).andThen (.clearing now p)
  unfold State.enterResetting
  exact .ite (fun _ => hset.trans (State.assertReset_changes now p)) fun _ => hset.andThen (.rail _ rfl rfl rfl rfl)

theorem State.carryOut_changes (a : LadderAction) : s.Changes (s.carryOut now p a) := by
  cases a with
  | warm => exact State.enterResetting_changes now p
  | cold => exact State.enterCooldown_changes now _ _
  | lockout => exact State.enterLockout_changes now

theorem State.hsleepChanged_changes (level : Bool) : s.Changes (s.hsleepChanged now p level) := by
  have hquiet : s.Changes ((s.mapMon fun m => { m with hsleep := level }).publishWatchdog now) :=
    .of_change (.watchdog _ now rfl rfl rfl)
  have hshown (f : Monitor → Monitor) (hr : (f s.mon).lastRefusal = s.mon.lastRefusal)
      (hl : (f s.mon).ladderIndex = s.mon.ladderIndex) (hs : (f s.mon).records = s.mon.records) :
      s.Changes ((s.mapMon f).publishWatchdog now) := .of_change (.watchdog f now hr hl hs)
  unfold State.hsleepChanged
  dsimp only
  split
  · split
    · exact hshown (fun m => { m with hsleep := level, watchdog := .paused, pausedFrom := .grace, stageEnd := none })
        rfl rfl rfl
    · exact hshown (fun m => { m with hsleep := level, watchdog := .paused, pausedFrom := .watching, stageEnd := none })
        rfl rfl rfl
    · exact hshown (fun m => { m with hsleep := level, watchdog := .paused, pausedFrom := .watching, stageEnd := none })
        rfl rfl rfl
    all_goals exact hquiet
  · split
    · split
      · exact hshown (fun m =>
          { m with
            hsleep := level, watchdog := .grace, expected := none
            stageEnd := some (after now (seconds (bootGrace p (s.temp 2)))) }) rfl rfl rfl
      · exact hshown (fun m =>
          { m with
            hsleep := level, watchdog := .watching, stageEnd := some (after now (seconds m.inForce.s1)) }) rfl rfl rfl
    all_goals exact hquiet

variable {p}

theorem State.samplePower_changes (pgood hsleep : Bool) (hp : s.store.active = some p) :
    s.Changes (s.samplePower now p pgood hsleep) := by
  have hsampled : s.Changes (s.mapRail fun r => { r with pgood := pgood, hsleep := hsleep }) :=
    .of_change (.rail _ rfl rfl rfl rfl)
  have hfailed (cause : RestartCause) :
      s.Changes ((s.mapRail fun r => { r with pgood := pgood, hsleep := hsleep }).failure now p cause) :=
    hsampled.trans (State.failure_changes now cause hp)
  unfold State.samplePower
  dsimp only
  split
  · refine .ite (fun _ => .ite (fun _ => hsampled) fun _ => hsampled.andThen (.rail _ rfl rfl rfl rfl)) fun _ => ?_
    exact .ite (fun _ => .ite (fun _ => hsampled.andThen (.rail _ rfl rfl rfl rfl)) fun _ => hfailed _) fun _ => hsampled
  · refine .ite (fun _ => hfailed _) fun _ => ?_
    exact .ite (fun _ => hsampled.trans (State.hsleepChanged_changes now p hsleep)) fun _ => hsampled
  · exact .ite (fun _ => hfailed _) fun _ => hsampled
  · have hcounted := hsampled.andThen (.rail (fun r =>
      { r with sleepCount := if hsleep then min (seconds (Profile.sleepHold p)) (r.sleepCount + 1) else 0 }) rfl rfl rfl
      rfl)
    exact .ite (fun _ => hcounted.trans (State.completeStop_changes now p)) fun _ => hcounted
  all_goals exact hsampled

variable (p)

theorem State.cutInput_changes : s.Changes (s.cutInput now p) := by
  unfold State.cutInput
  refine .ite (fun _ => State.cutWithNotice_changes now p _ _) fun _ => ?_
  split
  · exact (Changes.of_change (.rail _ rfl rfl rfl rfl)).andThen (.railState now .off)
  · exact .of_change (.restart false)
  · exact .refl s

theorem State.inputRises_changes (k : Fin 4) : s.Changes (s.inputRises now p k) := by
  unfold State.inputRises
  split
  · exact .refl s
  · exact .of_change (.raise .inputNote)
  · exact .refl s
  · split
    · exact State.enterWarming_changes now p
    · exact .of_change (.restart true)
    · exact .refl s
  · exact .ite (fun _ => ((State.enterStopping_changes now p 0).trans (State.startPulse_changes now p)).andThen
      (.raise .stopAsked)) fun _ => .refl s
  · exact State.cutInput_changes now p

theorem State.inputFalls_changes (k : Fin 4) : s.Changes (s.inputFalls p k) :=
  .ite (fun _ => .of_change (.raise .inputNote)) fun _ => .refl s

/-- A sample is the record with the copy on the page, then what a change of the input does. -/
theorem State.sampleInput_eq (levels : BitVec 4) (k : Fin 4) (s : State) :
    s.sampleInput now p levels k =
      (let t := s.mapRail fun r => { r with inputs := r.inputs.set k (r.inputs[k].sample (levels.getLsbD k.val)) }
       if t.inputActive p k && !s.inputActive p k then (s.inputTaken p levels k).inputRises now p k
       else if s.inputActive p k && !t.inputActive p k then (s.inputTaken p levels k).inputFalls p k
       else s.inputTaken p levels k) := by
  unfold State.sampleInput State.inputTaken
  dsimp only
  cases State.inputActive p k s <;>
    cases State.inputActive p k
      (s.mapRail fun r => { r with inputs := r.inputs.set k (r.inputs[k].sample (levels.getLsbD k.val)) }) <;> simp

variable {p}

theorem State.sampleInput_changes (levels : BitVec 4) (k : Fin 4) (hp : s.store.active = some p) :
    s.Changes (s.sampleInput now p levels k) := by
  have htaken : s.Changes (s.inputTaken p levels k) := .of_change (.input p levels k hp)
  rw [State.sampleInput_eq]
  exact .ite (fun _ => htaken.trans (State.inputRises_changes now p k)) fun _ =>
    .ite (fun _ => htaken.trans (State.inputFalls_changes p k)) fun _ => htaken

theorem State.sampleInputs_changes (levels : BitVec 4) (hp : s.store.active = some p) :
    s.Changes (s.sampleInputs now p levels) :=
  .foldl _ (fun _ k hv => State.sampleInput_changes now levels k (hv.active.trans hp)) (.refl s)

variable (p)

theorem State.powerKeyPress_changes : s.Changes (s.powerKeyPress now p) := by
  have htimed : s.Changes (s.mapRail fun r =>
      { r with override := some (after now (seconds (Profile.overrideTime p))) }) := .of_change (.rail _ rfl rfl rfl rfl)
  unfold State.powerKeyPress
  dsimp only
  split
  · exact htimed.trans (State.enterWarming_changes now p)
  · exact htimed.trans (State.startPulse_changes now p)
  · exact htimed

theorem State.powerKeyRelease_changes : s.Changes s.powerKeyRelease := .of_change (.rail _ rfl rfl rfl rfl)

theorem State.serviceChord_changes : s.Changes (s.serviceChord now p) := by
  have hladder : s.Changes (s.setLadderIndex 0) := .of_change (.ladder 0 (fun _ => rfl) fun _ _ _ => Nat.zero_le _)
  exact .ite (fun _ => hladder.trans (State.enterWarming_changes now p)) fun _ => .refl s

end rail

/-! ### The climate controller and the air controller -/

section air
variable {s : State} (now : SlotCount) (p : Image)

theorem State.driveHeaters_changes (n : Nat) : s.Changes (s.driveHeaters n) :=
  .of_change (.climate _ ⟨rfl, fun _ => ⟨rfl, rfl⟩⟩)

/-- A change of one zone that leaves its grant and its request. -/
theorem Climate.stands_set {c : Climate} (z : Fin 3) {r : ZoneRec} (hg : r.grant = c.zones[z].grant)
    (hr : r.request = c.zones[z].request) : c.stands { c with zones := c.zones.set z r } := by
  refine ⟨rfl, fun y => ?_⟩
  by_cases hy : z = y
  · subst hy
    simp [hg, hr]
  · have hne : z.val ≠ y.val := fun h => hy (Fin.ext h)
    simp [hne]

theorem State.fogNotice_changes : s.Changes (s.fogNotice p) := by
  unfold State.fogNotice
  split
  · exact .refl s
  · refine .ite (fun _ => ?_) fun _ => .refl s
    refine (Changes.of_change (.climate _ ?_)).andThen (.page _ ?_ ?_ ?_)
    · exact Climate.stands_set 2 rfl rfl
    · exact Exchange.writes_partWrite (by simp [rangeWithin, pageBytes, sle16, le16]) _
    · exact Exchange.partWriteCells_summary _ _
    · exact Exchange.partWriteCells_enable _ _

theorem State.zoneTargetSlip_changes (zone action : Nat) (setpoint : Int) :
    s.Changes (s.zoneTargetSlip zone action setpoint).1 := by
  have hset (z : Fin 3) (o : Option Int) : s.Changes (s.setOverride z o) :=
    .of_change (.climate _ (Climate.stands_set z rfl rfl))
  unfold State.zoneTargetSlip
  split
  · split
    · exact hset _ _
    · split
      · exact hset _ _
      · exact .refl s
  · exact .refl s

theorem State.judgeFan_changes (f : Fin 2) : s.Changes (s.judgeFan p f) := by
  have hjudged (r : FanRec) : s.Changes (s.mapAir fun a => { a with fans := a.fans.set f r }) :=
    .of_change (.air _ fun h => h)
  unfold State.judgeFan
  exact .ite (fun _ => (hjudged _).andThen (.raise .fanFault)) fun _ => hjudged _

theorem State.endProbe_changes (reason : AbortReason) : s.Changes (s.endProbe reason).1 := by
  unfold State.endProbe
  dsimp only
  split
  · exact .of_change (.airReport _ _)
  · exact .of_change (.airReport _ _)
  · rename_i horigin
    dsimp only
    refine .of_change (.air _ fun h => ?_)
    exact absurd h.2 (by simp [Probe.bySlip, horigin])
  · rename_i horigin
    dsimp only
    refine .of_change (.air _ fun h => ?_)
    exact absurd h.2 (by simp [Probe.bySlip, horigin])

theorem State.handReference_changes (rf : Nat) : s.Changes (s.handReference now rf) := by
  unfold State.handReference
  refine .of_change (.store _ ?_ ?_ ?_ ?_ ?_) <;> (split <;> rfl)

/-- The clog alarms are the causes they raise, then the clog limit (R59). -/
theorem State.clogAlarms_changes (f : Air → Air) (c : Nat) :
    ∃ (u : State) (b : Bool), s.Changes u ∧ u.air = s.air ∧
      (s.mapAir f).clogAlarms p c = u.mapAir fun a => { f a with clogLimit := b } := by
  unfold State.clogAlarms
  split
  · exact ⟨s, false, .refl s, rfl, rfl⟩
  · split
    · exact ⟨s.raise .clogWarn, false, .of_change (.raise _), rfl, rfl⟩
    · exact ⟨(s.raise .clogWarn).raise .clogLimit, true, (Changes.of_change (.raise _)).andThen (.raise _), rfl, rfl⟩

/-- The figures that a finished measurement gives (R57). -/
def Probe.measured (measure : Nat) (pr : Probe) : ProbeFigures :=
  { rf := (pr.riseSum * 1000 / pr.powerSum).toNat, averageRise := pr.riseSum / measure,
    averageDraw := pr.powerSum / measure }

/-- The clog index that a finished measurement gives (R57). -/
def Air.measuredClog (measure : Nat) (a : Air) : Nat := clogOf (a.probe.measured measure).rf a.filterReference

/-- The air controller after a completion that forms a clog index, but for the clog limit (R57). -/
def Air.completed (measure : Nat) (a : Air) : Air :=
  { a with
    clogIndex := a.measuredClog measure
    probe := { a.probe with phase := .idle, figures := a.probe.measured measure } }

/-- A completion that forms a clog index, with the clog alarms, before the report (R57, R59). -/
def State.clogFormed (p : Image) (measure : Nat) (s : State) : State :=
  if s.air.filterReference = 0 then s.mapAir fun _ => s.air.completed measure
  else (s.mapAir fun _ => s.air.completed measure).clogAlarms p (s.air.measuredClog measure)

/-- A completion is one of three: the write of a new reference, a report of PROBE AIRFLOW, or the figures alone (R57). -/
theorem State.completeProbe_eq (measure : Nat) (s : State) :
    s.completeProbe now p measure =
      (if s.air.probe.origin = some .resetFilterReference then
        (s.mapAir fun a =>
          { a with probe := { s.air.probe with phase := .writing, figures := s.air.probe.measured measure } }).handReference
          now (s.air.probe.measured measure).rf
      else if s.air.probe.origin = some .probeAirflow then
        (s.clogFormed p measure).report .air
          { SlipResult.ok with
            payload := figuresPayload (s.air.probe.measured measure) (s.air.measuredClog measure) }
      else s.clogFormed p measure, .completed) := by
  unfold State.completeProbe
  by_cases hreset : s.air.probe.origin = some .resetFilterReference
  · simp only [if_pos hreset]
    rfl
  · by_cases hairflow : s.air.probe.origin = some .probeAirflow
    · simp only [if_neg hreset, if_pos hairflow]
      rfl
    · simp only [if_neg hreset, if_neg hairflow]
      rfl

/-- A completion is the clog causes it raises, then the air controller. -/
theorem State.clogFormed_changes (measure : Nat) :
    ∃ (u : State) (a : Air), s.Changes u ∧ u.air = s.air ∧ s.clogFormed p measure = u.mapAir (fun _ => a) ∧
      a.probe = (s.air.completed measure).probe := by
  unfold State.clogFormed
  split
  · exact ⟨s, _, .refl s, rfl, rfl, rfl⟩
  · obtain ⟨u, b, hu, ha, heq⟩ := State.clogAlarms_changes (s := s) p (fun _ => s.air.completed measure)
      (s.air.measuredClog measure)
    exact ⟨u, _, hu, ha, heq, rfl⟩

theorem State.completeProbe_changes (measure : Nat) : s.Changes (s.completeProbe now p measure).1 := by
  rw [State.completeProbe_eq]
  dsimp only
  refine .ite (fun _ => ?_) fun hreset => ?_
  · refine Changes.trans (.of_change (.air _ fun h => ?_)) (State.handReference_changes now _)
    exact ⟨by simp, h.2⟩
  · obtain ⟨u, a, hu, ha, heq, hprobe⟩ := State.clogFormed_changes (s := s) p measure
    rw [heq]
    refine .ite (fun _ => hu.andThen (.airReport _ _)) fun hairflow => hu.andThen (.air _ fun h => ?_)
    rw [ha] at h
    exact absurd h.2 (by simp [Probe.bySlip, hairflow, hreset])

/-- A probe starts from IDLE or from WAITING, so it serves a slip after its start if it did before (R53). -/
theorem State.startProbe_changes (h : s.air.probe.phase = .idle ∨ s.air.probe.phase = .waiting) :
    s.Changes (s.startProbe p) := by
  unfold State.startProbe
  dsimp only
  refine .of_change (.air _ fun hserves => ⟨by simp, ?_⟩)
  have hwaiting : s.air.probe.phase = .waiting := h.resolve_left hserves.1
  simpa [hwaiting, Probe.bySlip] using hserves.2

theorem State.probeStage_changes (curve : Option Nat) : s.Changes (s.probeStage now p curve).1 := by
  have hsettled (held : HeldParams) :
      s.Changes (s.mapAir fun a => { a with probe := a.probe.settleStep s.sense.railAverage held }) := by
    refine .of_change (.air _ fun h => ?_)
    unfold Probe.settleStep
    dsimp only
    split
    · exact ⟨by simp, h.2⟩
    · exact h
  have hmeasured : s.Changes (s.mapAir fun a =>
      { a with
        probe := a.probe.measureStep ((s.temp 1).getD 0 - (s.temp 0).getD 0) s.sense.railAverage }) :=
    .of_change (.air _ fun h => h)
  unfold State.probeStage
  split
  · exact .refl s
  · rename_i hidle
    split
    · exact State.startProbe_changes p (.inl hidle)
    · exact .refl s
  · rename_i hwaiting
    split
    · exact State.endProbe_changes _
    · split
      · exact State.endProbe_changes _
      · split
        · exact State.startProbe_changes p (.inr hwaiting)
        · exact .refl s
  · split
    · exact State.endProbe_changes _
    · exact hsettled _
  · split
    · exact State.endProbe_changes _
    · dsimp only
      split
      · split
        · exact hmeasured.trans (State.endProbe_changes _)
        · split
          · exact hmeasured.trans (State.endProbe_changes _)
          · exact hmeasured.trans (State.completeProbe_changes now p _)
      · exact hmeasured
  · exact .refl s
  · exact .refl s

/-- A part write on the pages is one change. -/
theorem State.page_changes {b : Nat} {bs : List Byte} (h : rangeWithin pageBytes (b, bs.length) = true) :
    s.Changes (s.mapX (Exchange.partWrite b bs)) :=
  .of_change (.page _ (Exchange.writes_partWrite h _) (Exchange.partWriteCells_summary _ _)
    (Exchange.partWriteCells_enable _ _))

theorem State.airBoundary_changes : s.Changes (s.airBoundary now p) := by
  have hjudged : s.Changes ((List.finRange 2).foldl (State.judgeFan p) s) :=
    .foldl _ (fun _ f _ => State.judgeFan_changes p f) (.refl s)
  have hprobed : s.Changes (s.probed now p).1 := hjudged.trans (State.probeStage_changes now p _)
  have hscheduled (u : State) (ev : ProbeEvent) : u.Changes (u.mapAir (Air.schedule ev)) := by
    refine .of_change (.air _ fun h => ?_)
    cases ev <;> exact h
  have hdriven (u : State) (curve : Option Nat) : u.Changes (u.driveFans p curve) := .of_change (.air _ fun h => h)
  have hshown (u : State) : u.Changes ((List.finRange 2).foldl State.publishFan u) :=
    .foldl _ (fun _ f _ => State.page_changes (by fin_cases f <;> simp [rangeWithin, pageBytes])) (.refl u)
  rw [State.airBoundary_eq]
  exact (((hprobed.trans (hscheduled _ _)).trans (hdriven _ _)).trans (hshown _)).trans
    (State.page_changes (by simp [rangeWithin, pageBytes, le16]))

end air

end Sys2Proof.Machine
end

