-- ==== Sys2Proof/Proofs/ChangesOfEvents.lean ====
section
/-!
SUPPORT. The keypad controller, the slips, the deliveries and the timers as series of changes.
-/

namespace Sys2Proof.Machine

open State (Change Changes)

/-! ### The keypad controller -/

section keypad
variable {s : State} (now : SlotCount) (p : Image)

theorem State.judgeFog_changes : s.Changes (s.judgeFog p) := by
  have hjudged (b : Bool) : s.Changes ((s.mapKeypad fun k => { k with fog := b }).publishFog) := .of_change (.fog b)
  have hraised (b c : Bool) : s.Changes
      (if c then ((s.mapKeypad fun k => { k with fog := b }).publishFog).raise .fog
       else (s.mapKeypad fun k => { k with fog := b }).publishFog) :=
    .ite (fun _ => (hjudged b).andThen (.raise .fog)) fun _ => hjudged b
  unfold State.judgeFog
  exact .ite (fun _ => (hraised _ _).trans (State.fogNotice_changes p)) fun _ => hraised _ _

/-- One entry more. -/
theorem Keypad.count_succ {k : Keypad} (h : k.count < 32) :
    Keypad.count { k with writeCounter := k.writeCounter + 1 } = k.count + 1 := by
  unfold Keypad.count at *
  bv_omega

theorem State.writeEntry_keypad (kind : EntryKind) (subject : Byte) (s : State) :
    (s.writeEntry now kind subject).keypad = { s.keypad with writeCounter := s.keypad.writeCounter + 1 } := rfl

theorem State.writeGap_keypad (s : State) :
    (s.writeGap now).keypad = { s.keypad with writeCounter := s.keypad.writeCounter + 1, gap := 0 } := rfl

theorem State.writeGap_changes (h : s.keypad.count < 32) : s.Changes (s.writeGap now) :=
  (Changes.of_change (.entry now .gap _ h)).andThen (.gap 0 (Nat.zero_le _))

theorem State.offer_changes (kind : EntryKind) (subject : Byte) : s.Changes (s.offer now kind subject) := by
  unfold State.offer
  refine .ite (fun _ => .ite (fun _ => .of_change (.gap _ (Nat.min_le_left _ _))) fun hroom => ?_) fun _ => .refl s
  have hcount : s.keypad.count < 32 := by omega
  refine .ite (fun _ => .ite (fun _ => ?_) fun hne => ?_) fun _ => .of_change (.entry now kind subject hcount)
  · exact (State.writeGap_changes now hcount).andThen (.gap 1 (by decide))
  · refine (State.writeGap_changes now hcount).andThen (.entry now kind subject ?_)
    have hsucc : (s.writeGap now).keypad.count = s.keypad.count + 1 := Keypad.count_succ hcount
    omega

theorem State.deliverReadCounter_changes : s.Changes (s.deliverReadCounter now) := by
  have htaken : s.Changes s.takeReadCounter := .of_change .readCounter
  rw [State.deliverReadCounter_eq]
  exact .ite (fun h => htaken.trans (State.writeGap_changes now h.2.1)) fun _ => htaken

theorem State.give_changes (e : KeyEvent) : s.Changes (s.give now p e) := by
  have hoffered : s.Changes (s.offer now e.kind e.subject) := State.offer_changes now _ _
  unfold State.give
  dsimp only
  split
  · exact hoffered
  · exact hoffered.trans (State.powerKeyPress_changes now p)
  · exact hoffered.trans State.powerKeyRelease_changes

theorem State.give_foldl_changes (es : List KeyEvent) : s.Changes (es.foldl (State.give now p) s) :=
  .foldl _ (fun _ e _ => State.give_changes now p e) (.refl s)

theorem State.finishRebaseline_changes : s.Changes s.finishRebaseline := by
  unfold State.finishRebaseline
  split
  · exact .ite (fun _ => .of_change (.rebaselineEnd _ _)) fun _ => .refl s
  · exact .refl s

theorem State.stopRebaseline_changes : s.Changes s.stopRebaseline := by
  unfold State.stopRebaseline
  split
  · split
    · exact (Changes.of_change (.keypad _ rfl rfl rfl rfl id)).andThen (.rebaselineEnd _ _)
    · exact .refl s
  · exact .refl s

theorem State.publishDetail_changes (deltas : Vector Int 24) : s.Changes (s.publishDetail p deltas) := by
  unfold State.publishDetail
  refine .of_change (.page _ ?_ ?_ ?_)
  · exact (State.publishDetail_writes p deltas s).mono (by decide)
  · exact Exchange.partWriteCells_summary _ _
  · exact Exchange.partWriteCells_enable _ _

/-- Two keypad controllers that differ at most in the write counter and the gap count (R141, R142). -/
def Keypad.queued (k l : Keypad) : Prop := ∃ w g, l = { k with writeCounter := w, gap := g }

theorem Keypad.queued.trans {k l m : Keypad} (h : k.queued l) (h' : l.queued m) : k.queued m := by
  obtain ⟨_, _, rfl⟩ := h
  obtain ⟨w, g, rfl⟩ := h'
  exact ⟨w, g, rfl⟩

theorem State.offer_queued (kind : EntryKind) (subject : Byte) (s : State) :
    s.keypad.queued (s.offer now kind subject).keypad := by
  unfold State.offer
  (repeat' split) <;> exact ⟨_, _, rfl⟩

theorem State.give_queued (e : KeyEvent) (s : State) : s.keypad.queued (s.give now p e).keypad := by
  have hoffered := State.offer_queued now e.kind e.subject s
  unfold State.give
  dsimp only
  split
  · exact hoffered
  · rw [(State.powerKeyPress_frame now p _).2.2.2.1]
    exact hoffered
  · exact hoffered

theorem State.give_foldl_queued (es : List KeyEvent) (s : State) :
    s.keypad.queued (es.foldl (State.give now p) s).keypad := by
  induction es generalizing s with
  | nil => exact ⟨_, _, rfl⟩
  | cons e es ih => exact (State.give_queued now p e s).trans (ih _)

/-- A scan moves the keys and the chords, and nothing else of the keypad controller (R128). -/
structure Keypad.Scanned (k l : Keypad) : Prop where
  fog : l.fog = k.fog
  readCounter : l.readCounter = k.readCounter
  writeCounter : l.writeCounter = k.writeCounter
  gap : l.gap = k.gap
  rebaseline : l.rebaseline = k.rebaseline
  stopPending : l.stopPending = k.stopPending
  edgeSet : l.edgeSet = k.edgeSet
  deferred : l.deferred = k.deferred
  scan : l.scan = k.scan

theorem Keypad.Scanned.refl (k : Keypad) : k.Scanned k := ⟨rfl, rfl, rfl, rfl, rfl, rfl, rfl, rfl, rfl⟩

theorem Keypad.Scanned.trans {k l m : Keypad} (h : k.Scanned l) (h' : l.Scanned m) : k.Scanned m :=
  ⟨h'.fog.trans h.fog, h'.readCounter.trans h.readCounter, h'.writeCounter.trans h.writeCounter, h'.gap.trans h.gap,
    h'.rebaseline.trans h.rebaseline, h'.stopPending.trans h.stopPending, h'.edgeSet.trans h.edgeSet,
    h'.deferred.trans h.deferred, h'.scan.trans h.scan⟩

theorem Keypad.setKey_scanned (k : Fin 24) (r : KeyRec) (kp : Keypad) : kp.Scanned (kp.setKey k r) :=
  ⟨rfl, rfl, rfl, rfl, rfl, rfl, rfl, rfl, rfl⟩

theorem Keypad.rearm_scanned (k : Fin 24) (kp : Keypad) : kp.Scanned (kp.rearm p k) :=
  ⟨rfl, rfl, rfl, rfl, rfl, rfl, rfl, rfl, rfl⟩

theorem Keypad.touchedScan_scanned (k : Fin 24) (delta : Int) (kp : Keypad) :
    kp.Scanned (kp.touchedScan now p k delta).1 := by
  unfold Keypad.touchedScan
  dsimp only
  split
  · exact (Keypad.setKey_scanned k _ kp).trans (Keypad.rearm_scanned p k _)
  · split
    · exact (Keypad.setKey_scanned k _ kp).trans (Keypad.rearm_scanned p k _)
    · exact Keypad.setKey_scanned k _ kp

theorem Keypad.pressKey_scanned (k : Fin 24) (kp : Keypad) : kp.Scanned (kp.pressKey now p k).1 :=
  ⟨rfl, rfl, rfl, rfl, rfl, rfl, rfl, rfl, rfl⟩

theorem Keypad.scanKey_scanned (tt : Int) (kp : Keypad) (k : Fin 24) : kp.Scanned (kp.scanKey now p tt k).1 := by
  unfold Keypad.scanKey
  dsimp only
  split
  · split
    · exact .refl kp
    · exact Keypad.setKey_scanned k _ kp
  · exact Keypad.setKey_scanned k _ kp
  · exact Keypad.setKey_scanned k _ kp
  · split
    · exact Keypad.pressKey_scanned now p k kp
    · exact Keypad.setKey_scanned k _ kp
  all_goals exact Keypad.touchedScan_scanned now p k _ kp

theorem Keypad.scanKeys_scanned (tt : Int) (kp : Keypad) : kp.Scanned (kp.scanKeys now p tt).1 := by
  have hfold : ∀ (l : List (Fin 24)) (acc : Keypad × List KeyEvent), kp.Scanned acc.1 →
      kp.Scanned (l.foldl
        (fun acc k =>
          if Profile.keyEnabled p k then
            let (kp, es) := acc.1.scanKey now p tt k
            (kp, acc.2 ++ es)
          else acc) acc).1 := by
    intro l
    induction l with
    | nil => exact fun _ h => h
    | cons k l ih =>
      intro acc h
      rw [List.foldl_cons]
      refine ih _ ?_
      split
      · exact h.trans (Keypad.scanKey_scanned now p tt acc.1 k)
      · exact h
  exact hfold _ _ (.refl kp)

theorem Keypad.scanned_scanned (kp : Keypad) : kp.Scanned (kp.scanned now p).1 := by
  unfold Keypad.scanned
  split
  · exact ⟨rfl, rfl, rfl, rfl, rfl, rfl, rfl, rfl, rfl⟩
  · exact Keypad.scanKeys_scanned now p _ kp

/-- A change of the keypad controller by a scan is one change. -/
theorem State.scanned_changes {kp : Keypad} (h : s.keypad.Scanned kp) : s.Changes (s.mapKeypad fun _ => kp) :=
  .of_change (.keypad _ h.fog h.readCounter h.writeCounter h.gap fun hb => h.rebaseline ▸ hb)

theorem State.scanWork_changes (counts : Vector (BitVec 12) 24) : s.Changes (s.scanWork now p counts) := by
  have htaken : s.Changes (s.scanTaken p counts) := .of_change (.keypad _ rfl rfl rfl rfl id)
  have hscanned := htaken.trans (State.scanned_changes (Keypad.scanned_scanned now p (s.scanTaken p counts).keypad))
  rw [State.scanWork_eq]
  exact (((hscanned.trans (State.give_foldl_changes now p _)).trans State.finishRebaseline_changes).trans
    State.stopRebaseline_changes).trans (State.publishDetail_changes p _)

theorem State.giveHold_changes (k : Fin 24) : s.Changes (s.giveHold now p k) := by
  have hset : s.Changes (s.mapKeypad fun kp =>
      kp.setKey k { kp.keys[k] with nextHold := some (after now (Profile.repeatPeriod p)) }) :=
    .of_change (.keypad _ rfl rfl rfl rfl id)
  exact hset.trans (State.offer_changes now _ _)

theorem State.giveChord_changes (c : Fin 4) : s.Changes (s.giveChord now p c) := by
  have hfired : s.Changes (s.mapKeypad fun kp =>
      { kp with chords := kp.chords.set c { fired := true, holdEnd := none } }) :=
    .of_change (.keypad _ rfl rfl rfl rfl id)
  unfold State.giveChord
  dsimp only
  split
  · exact (hfired.trans (State.serviceChord_changes now p)).trans (State.offer_changes now _ _)
  · exact hfired.trans (State.offer_changes now _ _)

/-- The decision about a scan touches the keypad controller's scan and its deferral alone (R127). -/
theorem State.decideScan_changes (n : Nat) : s.Changes (s.decideScan now p n) := by
  unfold State.decideScan
  refine .ite (fun _ => .of_change (.keypad _ rfl rfl rfl rfl id)) fun _ => ?_
  split
  · exact .refl s
  · refine .ite (fun _ => .ite (fun _ => ?_) fun _ => ?_) fun _ => .refl s
    · exact .of_change (.keypad _ rfl rfl rfl rfl id)
    · exact .of_change (.keypad _ rfl rfl rfl rfl id)

theorem State.takeEdges_changes (edges : List Nat) : s.Changes (s.takeEdges edges) :=
  .of_change (.keypad _ rfl rfl rfl rfl id)

end keypad

/-! ### A new profile (R149) -/

/-- What a new profile does to the keypad controller's part of an invariant: fog and the queue stand, and a rebaseline in
flight stays in flight. -/
structure Keypad.Adopted (k l : Keypad) : Prop where
  fog : l.fog = k.fog
  readCounter : l.readCounter = k.readCounter
  writeCounter : l.writeCounter = k.writeCounter
  gap : l.gap = k.gap
  rebaseline : l.rebaseline.isSome = k.rebaseline.isSome

theorem Keypad.adoptKey_adopted (old new : Image) (kp : Keypad) (k : Fin 24) :
    kp.Adopted (kp.adoptKey old new k).1 := by
  unfold Keypad.adoptKey
  dsimp only
  (repeat' split) <;> exact ⟨rfl, rfl, rfl, rfl, by simp [Keypad.setKey, Keypad.rearm]⟩

/-- One key takes up a new profile, with the notices so far (R149). -/
def Keypad.adoptNext (old new : Image) (acc : Keypad × Bool) (k : Fin 24) : Keypad × Bool :=
  ((acc.1.adoptKey old new k).1, acc.2 || (acc.1.adoptKey old new k).2)

/-- The keypad controller after a new profile has been taken up, before its page and its notice, with the notice (R149). -/
def Keypad.adopted (old new : Image) (kp : Keypad) : Keypad × Bool :=
  let r := (List.finRange 24).foldl (Keypad.adoptNext old new) (kp, false)
  (if chordsChanged old new then { r.1 with chords := Vector.replicate 4 { fired := false, holdEnd := none } } else r.1,
    r.2)

/-- The activation in the keypad controller, stage after stage (R149). -/
theorem State.adoptKeypad_eq (old new : Image) (s : State) :
    s.adoptKeypad old new =
      (let t := (List.finRange 24).foldl (State.publishDisabled old new)
        (s.mapKeypad fun _ => (s.keypad.adopted old new).1)
       (if (s.keypad.adopted old new).2 then t.powerKeyRelease else t).finishRebaseline) := by
  have hstep : Keypad.adoptNext old new = fun (acc : Keypad × Bool) k =>
      ((acc.1.adoptKey old new k).1, acc.2 || (acc.1.adoptKey old new k).2) := rfl
  unfold State.adoptKeypad Keypad.adopted
  rw [hstep]

theorem Keypad.adoptNext_adopted (old new : Image) {kp : Keypad} (l : List (Fin 24)) (acc : Keypad × Bool)
    (h : kp.Adopted acc.1) : kp.Adopted (l.foldl (Keypad.adoptNext old new) acc).1 := by
  induction l generalizing acc with
  | nil => exact h
  | cons k l ih =>
    have hk := Keypad.adoptKey_adopted old new acc.1 k
    exact ih _ ⟨hk.fog.trans h.fog, hk.readCounter.trans h.readCounter, hk.writeCounter.trans h.writeCounter,
      hk.gap.trans h.gap, hk.rebaseline.trans h.rebaseline⟩

theorem Keypad.adopted_adopted (old new : Image) (kp : Keypad) : kp.Adopted (kp.adopted old new).1 := by
  have hkeys := Keypad.adoptNext_adopted old new (List.finRange 24) (kp, false) ⟨rfl, rfl, rfl, rfl, rfl⟩
  unfold Keypad.adopted
  generalize (List.finRange 24).foldl (Keypad.adoptNext old new) (kp, false) = r at hkeys ⊢
  dsimp only
  split
  · exact ⟨hkeys.fog, hkeys.readCounter, hkeys.writeCounter, hkeys.gap, hkeys.rebaseline⟩
  · exact hkeys

theorem State.adoptKeypad_changes (old new : Image) {s : State} : s.Changes (s.adoptKeypad old new) := by
  have hk := Keypad.adopted_adopted old new s.keypad
  have hset : s.Changes (s.mapKeypad fun _ => (s.keypad.adopted old new).1) :=
    .of_change (.keypad _ hk.fog hk.readCounter hk.writeCounter hk.gap fun hb => hk.rebaseline.trans hb)
  have hshown (u : State) : u.Changes ((List.finRange 24).foldl (State.publishDisabled old new) u) := by
    refine .foldl _ (fun v k _ => .ite (fun _ => ?_) fun _ => .refl v) (.refl u)
    exact State.page_changes ((by decide : ∀ k : Fin 24, rangeWithin pageBytes (0x706 + 8 * k.val, 1) = true) k)
  rw [State.adoptKeypad_eq]
  dsimp only
  refine Changes.trans ?_ State.finishRebaseline_changes
  exact .ite (fun _ => (hset.trans (hshown _)).trans State.powerKeyRelease_changes) fun _ => hset.trans (hshown _)

/-! ### The slips -/

section slips
variable {s : State} (now : SlotCount) (p : Image)

/-- An armed flag and its effects (R121), from a change of the monitor's other fields. -/
theorem State.setArmed_changes (b : Bool) : s.Changes (s.setArmed now p b) := by
  unfold State.setArmed
  dsimp only
  split
  · exact State.startWatchdog_changes now p _ rfl rfl rfl
  · split
    · exact .of_change (.watchdog (fun m => { m with armed := b, watchdog := .dormant, stageEnd := none }) now rfl rfl rfl)
    · exact .of_change (.watchdog _ now rfl rfl rfl)

theorem State.stopSlip_changes (delay : Nat) : s.Changes (s.stopSlip now p delay).1 := by
  unfold State.stopSlip
  split
  · exact State.enterStopping_changes now p _
  · exact .refl s

theorem State.restartHost_changes (mode : Nat) : s.Changes (s.restartHost now p mode) := by
  unfold State.restartHost
  refine .ite (fun _ => .ite (fun _ => ?_) fun _ => .ite (fun _ => ?_) fun _ => .refl s) fun _ => .refl s
  · exact (Changes.of_change (.record now _ _ _ _)).trans (State.enterResetting_changes now p)
  · exact State.cutWithNotice_changes now p _ _

theorem State.watchdogSlip_changes (mode : Nat) (v : StageSet) : s.Changes (s.watchdogSlip now p mode v).1 := by
  unfold State.watchdogSlip
  split
  · exact .refl s
  · split
    · exact .refl s
    · exact (Changes.of_change (.monitor _ rfl rfl rfl rfl)).trans (State.setArmed_changes now p _)

theorem State.fanFloorSlip_changes (fan floor : Nat) : s.Changes (s.fanFloorSlip fan floor).1 := by
  unfold State.fanFloorSlip
  split
  · dsimp only
    exact .of_change (.air _ fun h => h)
  · exact .refl s

theorem State.readProfileSlip_changes : s.Changes (s.readProfileSlip p).1 := by
  unfold State.readProfileSlip
  split
  · exact .of_change (.readOut p ‹_›)
  · exact .refl s

/-- An immediate slip is its effect and a completion (R168). -/
theorem State.immediate_changes (n : Fin 16) {a : State × SlipResult} (h : s.Changes a.1) :
    s.Changes (State.immediate n a) := h.andThen (.complete n a.2)

/-- A lasting slip is accepted by a block without a binding, or completes at once (R169). -/
theorem State.lasting_changes (b : LastingBlock) (n : Fin 16) {a : State × LastingAnswer} (h : s.Changes a.1)
    (hfree : a.2 = .accepted → a.1.engine.binding b = none ∧ a.1.inFlight b) : s.Changes (State.lasting b n a) := by
  unfold State.lasting
  split
  · obtain ⟨hnone, hflight⟩ := hfree ‹_›
    exact h.andThen (.accept b n hnone hflight)
  · exact h.andThen (.complete n _)

/-- A block without an operation in flight has no binding (R169). -/
theorem State.bound.binding_none (h : s.bound) {b : LastingBlock} (hb : ¬s.inFlight b) : s.engine.binding b = none := by
  cases hbind : s.engine.binding b with
  | none => rfl
  | some n => exact absurd (h b trivial (by simp [hbind])) hb

theorem State.probeSlip_changes (origin : ProbeOrigin) (n : Fin 16) (horigin : origin ≠ .schedule) (hb : s.bound) :
    s.Changes (State.lasting .air n (s.probeSlip origin)) := by
  unfold State.probeSlip
  split
  · rename_i hidle
    have hwaits : s.Changes (s.mapAir fun a =>
        { a with probe := { a.probe with phase := .waiting, origin := some origin } }) :=
      .of_change (.air _ fun h => absurd hidle h.1)
    refine State.lasting_changes .air n hwaits fun _ => ⟨?_, ?_⟩
    · exact hb.binding_none fun h => h.1 hidle
    · refine ⟨by simp, ?_⟩
      cases origin <;> simp_all [Probe.bySlip]
  · exact State.lasting_changes .air n (.refl s) fun h => nomatch h

/-- REBASELINE KEYS is handed over without a rebaseline in flight, and accepted with one (R145). -/
theorem State.rebaselineSlip_cases (mask : BitVec 24) :
    (∃ r, s.rebaselineSlip now p mask = (s, .atOnce r)) ∨
      (s.keypad.rebaseline = none ∧
        ∃ (kp : Keypad) (set : BitVec 24) (es : List KeyEvent),
          s.keypad.Scanned kp ∧
            s.rebaselineSlip now p mask =
              (es.foldl (State.give now p) (s.mapKeypad fun _ => { kp with rebaseline := some set, stopPending := false }),
                .accepted)) := by
  have hfold : ∀ (l : List (Fin 24)) (acc : Keypad × List KeyEvent), s.keypad.Scanned acc.1 →
      s.keypad.Scanned (l.foldl
        (fun (acc : Keypad × List KeyEvent) k =>
          let (kp, es) := acc.1.enterCalibration p k
          (kp, acc.2 ++ es)) acc).1 := by
    intro l
    induction l with
    | nil => exact fun _ h => h
    | cons k l ih =>
      intro acc h
      refine ih _ (h.trans ?_)
      unfold Keypad.enterCalibration
      dsimp only
      split
      · exact (Keypad.setKey_scanned k _ _).trans (Keypad.rearm_scanned p k _)
      · exact Keypad.setKey_scanned k _ _
  unfold State.rebaselineSlip
  dsimp only
  by_cases hbusy : s.keypad.rebaseline.isSome = true
  · exact .inl ⟨_, by rw [if_pos hbusy]⟩
  · rw [if_neg hbusy]
    split
    · exact .inl ⟨_, rfl⟩
    · split
      · exact .inl ⟨_, rfl⟩
      · exact .inr ⟨by simpa using hbusy, _, _, _, hfold _ (s.keypad, []) (.refl _), rfl⟩

theorem State.rebaselineSlip_changes (mask : BitVec 24) (n : Fin 16) (hb : s.bound) :
    s.Changes (State.lasting .keypad n (s.rebaselineSlip now p mask)) := by
  obtain ⟨r, heq⟩ | ⟨hnone, kp, set, es, hkp, heq⟩ := State.rebaselineSlip_cases (s := s) now p mask
  · rw [heq]
    exact State.lasting_changes .keypad n (.refl s) fun h => nomatch h
  · rw [heq]
    have hset : s.Changes (s.mapKeypad fun _ => { kp with rebaseline := some set, stopPending := false }) :=
      .of_change (.keypad _ hkp.fog hkp.readCounter hkp.writeCounter hkp.gap fun _ => rfl)
    refine State.lasting_changes .keypad n (hset.trans (State.give_foldl_changes now p es)) fun _ => ⟨?_, ?_⟩
    · rw [(State.give_foldl_frame now p es _).2.2.2.1]
      exact hb.binding_none fun h => by simp [State.inFlight, hnone] at h
    · obtain ⟨w, g, hqueued⟩ := State.give_foldl_queued now p es
        (s.mapKeypad fun _ => { kp with rebaseline := some set, stopPending := false })
      simp [State.inFlight, hqueued]

theorem State.commitSlip_changes (n : Fin 16) (hb : s.bound) :
    s.Changes (State.lasting .store n (s.commitSlip now)) := by
  unfold State.commitSlip
  split
  · exact State.lasting_changes .store n (.refl s) fun h => nomatch h
  · rename_i hidle
    have hcommit : s.store.commit = .idle := by simpa using hidle
    split
    · exact State.lasting_changes .store n (.refl s) fun h => nomatch h
    · rename_i hvalid
      have hprogramming := Changes.of_change (.commit (s := s)
        (if s.store.service = .writing then none else some (s.countsFrom now)) hcommit (by simp [validImage, hvalid]))
      refine State.lasting_changes .store n hprogramming fun _ => ⟨?_, fun h0 => nomatch h0⟩
      exact hb.binding_none fun h => h hcommit

theorem State.runSlip_changes (n : Fin 16) (hb : s.bound) : s.Changes (s.runSlip now p n) := by
  unfold State.runSlip
  dsimp only
  split
  · exact State.immediate_changes n (State.zoneTargetSlip_changes _ _ _)
  · exact State.immediate_changes n (State.fanFloorSlip_changes _ _)
  · exact State.probeSlip_changes _ n (by decide) hb
  · exact State.probeSlip_changes _ n (by decide) hb
  · exact State.immediate_changes n (State.stopSlip_changes now p _)
  · exact (Changes.of_change (.complete n _)).trans (State.restartHost_changes now p _)
  · exact State.immediate_changes n (State.watchdogSlip_changes now p _ _)
  · exact State.rebaselineSlip_changes now p _ n hb
  · exact State.immediate_changes n (State.readProfileSlip_changes p)
  · exact State.commitSlip_changes now n hb
  · exact State.immediate_changes n (.refl s)

theorem State.arbitrateAmong_changes (undelivered : List (Fin 16)) (hb : s.bound) :
    s.Changes (s.arbitrateAmong undelivered now p) := by
  unfold State.arbitrateAmong
  refine .ite (fun _ => .refl s) fun _ => ?_
  split
  · exact .refl s
  · rename_i n _
    have hserved : s.Changes (s.mapEngine fun e => { e with served := true, lastServed := n }) :=
      .of_change (.engine _ fun b => by cases b <;> rfl)
    exact hserved.trans (State.runSlip_changes now p n (hserved.bound hb))

theorem State.arbitrate_changes (hb : s.bound) : s.Changes (s.arbitrate now p) :=
  State.arbitrateAmong_changes now p [] hb

theorem State.stopRequest_changes (n : Fin 16) : s.Changes (s.stopRequest n) := by
  unfold State.stopRequest
  refine .ite (fun _ => .of_change (.air _ fun h => ?_)) fun _ =>
    .ite (fun _ => .of_change (.keypad _ rfl rfl rfl rfl id)) fun _ => .refl s
  unfold Probe.requestStop
  dsimp only
  split <;> simpa [Probe.serves, Probe.bySlip] using h

/-! ### Deliveries -/

theorem State.kick_changes (v : Byte) : s.Changes (s.kick now v) := by
  have haccepted : s.Changes ((s.mapMon fun m =>
      { m with
        inForce := m.runtimeSet, expected := some (v + 1), lastKick := some now
        stageEnd := some (after now (seconds m.runtimeSet.s1)), watchdog := .watching }).publishWatchdog now) :=
    .of_change (.watchdog _ now rfl rfl rfl)
  have hrefused (r : KickRefusal) : s.Changes (s.setRefusal r) := .of_change (.refusal r)
  unfold State.kick
  dsimp only
  split
  · exact haccepted
  · refine .ite (fun _ => hrefused _) fun _ => ?_
    split
    · exact .ite (fun _ => hrefused _) fun _ => haccepted
    · exact haccepted
  · refine .ite (fun _ => hrefused _) fun _ => ?_
    split
    · exact .ite (fun _ => hrefused _) fun _ => haccepted
    · exact haccepted
  · split
    · exact .ite (fun _ => .of_change (.lateKick _)) fun _ => .refl s
    · exact .refl s
  all_goals exact .refl s

theorem State.deliverOwner_changes (undelivered : List (Fin 16)) (n : Fin 16) (hb : s.bound) :
    s.Changes (s.deliverOwner undelivered now p n) :=
  .ite (fun _ => State.arbitrateAmong_changes now p undelivered hb)
    fun _ => .ite (fun _ => State.stopRequest_changes n) fun _ => .refl s

theorem State.deliverWords_changes (cs : List Host.Cell) : s.Changes (s.deliverWords now cs) := by
  have hstep {c : Prop} [Decidable c] (f : State → State) (hf : ∀ u : State, u.Changes (f u)) {u : State}
      (hu : s.Changes u) : s.Changes (if c then f u else u) := .ite (fun _ => hu.trans (hf u)) fun _ => hu
  unfold State.deliverWords
  refine hstep (State.deliverReadCounter now) (fun u => State.deliverReadCounter_changes now) ?_
  refine hstep (fun u => u.kick now (u.xmem.peek 0x12)) (fun u => State.kick_changes now _) ?_
  refine hstep (fun u => u.mapX Exchange.deliverEnable) (fun u => .of_change .enable) ?_
  exact hstep (fun u => u.mapX Exchange.deliverAcknowledge) (fun u => .of_change .acknowledge) (.refl s)

theorem State.deliverTouched_changes (cs : List Host.Cell) (hb : s.bound) :
    s.Changes ((List.finRange 16).foldl (State.deliverTouched now p cs) s) :=
  .foldl _ (fun _ n hv => .ite (fun _ => State.deliverOwner_changes now p _ n (hv.bound hb)) fun _ => .refl _) (.refl s)

theorem State.deliverAll_changes (cs : List Host.Cell) (hb : s.bound) : s.Changes (s.deliverAll now p cs) := by
  have hwords : s.Changes (s.deliverWords now cs) := State.deliverWords_changes now cs
  rw [State.deliverAll_eq]
  exact hwords.trans (State.deliverTouched_changes now p cs (hwords.bound hb))

end slips

/-! ### The timebase and the sensing unit -/

section events
variable {s : State} (now : SlotCount) {p : Image}

theorem State.startOutputs_changes (k : Nat) : s.Changes (s.startOutputs k) := by
  have hbegun : s.Changes s.beginConversions := .of_change (.sense _ rfl rfl rfl rfl)
  exact .ite (fun _ => hbegun.andThen (.sense _ rfl rfl rfl rfl)) fun _ => hbegun.trans (State.driveHeaters_changes k)

theorem State.publishWatchdog_changes : s.Changes (s.publishWatchdog now) :=
  .of_change (.watchdog (fun m => m) now rfl rfl rfl)

theorem State.slotWork_changes (pgood hsleep : Bool) (levels : BitVec 4) (hp : s.store.active = some p) (hb : s.bound) :
    s.Changes (s.slotWork now p pgood hsleep levels) := by
  have hcounted := (Changes.of_change (.count (s := s) now)).trans (State.startOutputs_changes (now.toNat % 64))
  have hpower := hcounted.trans (State.samplePower_changes now pgood hsleep (hcounted.active.trans hp))
  have hinputs := hpower.trans (State.sampleInputs_changes now levels (hpower.active.trans hp))
  have hworked : s.Changes (s.slotWorked now p pgood hsleep levels) :=
    (hinputs.trans (State.judgeAtSlot_changes now p)).trans (State.publishWatchdog_changes now)
  have hdecided : s.Changes ((s.slotWorked now p pgood hsleep levels).slotDecided now p) :=
    .ite (fun _ => hworked) fun _ => hworked.trans (State.decideScan_changes now p _)
  have hcleared : s.Changes ((s.slotWorked now p pgood hsleep levels).slotDecided now p).clearServed :=
    hdecided.andThen (.engine _ fun b => by cases b <;> rfl)
  rw [State.slotWork_eq]
  exact hcleared.trans (State.arbitrate_changes now p (hcleared.bound hb))

variable (p)

theorem State.receiveAnswer_changes (granted : Bool) (boundary : SlotCount) :
    s.Changes (s.receiveAnswer p granted boundary) := by
  have hreceived : s.Changes (s.mapClimate fun c => { c with answer := none }) :=
    .of_change (.climate _ ⟨rfl, fun _ => ⟨rfl, rfl⟩⟩)
  unfold State.receiveAnswer
  dsimp only
  refine .ite (fun _ => .ite (fun _ => ?_) fun _ => ?_) fun _ => hreceived
  · exact hreceived.trans (State.enterStarting_changes boundary p)
  · exact (hreceived.andThen (.rail _ rfl rfl rfl rfl)).andThen (.wait .budget)

theorem State.conversion_changes (k : Fin 6) (c : BitVec 12) : s.Changes ((s.takeCode p k c).deliverTemp now p k) := by
  have htaken : s.Changes (s.takeCode p k c) := .of_change (.code p k c)
  refine .ite (fun _ => htaken.trans (State.judgeFog_changes p)) fun _ => .ite (fun _ => ?_) fun _ => htaken
  unfold State.judgeOvertemp
  split
  · exact .ite (fun _ => htaken.trans (State.cutWithNotice_changes now p _ _)) fun _ => htaken
  · exact htaken

theorem State.railConversion_changes {p : Image} (mV mA : Nat) (hp : s.store.active = some p) :
    s.Changes ((s.takeRailCodes mV mA).testCurrent now p mA) := by
  have htaken : s.Changes (s.takeRailCodes mV mA) := .of_change (.railCodes mV mA)
  refine .ite (fun _ => .ite (fun _ => htaken.andThen (.rail _ rfl rfl rfl rfl)) fun _ => ?_)
    fun _ => htaken.andThen (.rail _ rfl rfl rfl rfl)
  exact htaken.trans (State.failure_changes now _ (htaken.active.trans hp))

/-! ### The timers -/

theorem State.endPgoodLimit_changes {p : Image} (hp : s.store.active = some p) : s.Changes (s.endPgoodLimit p now) := by
  have hended : s.Changes (s.mapRail fun r => { r with pgoodLimit := none }) := .of_change (.rail _ rfl rfl rfl rfl)
  refine .ite (fun _ => .ite (fun _ => hended) fun _ => ?_) fun _ => .refl s
  exact hended.trans (State.failure_changes now _ hp)

theorem State.endResetHold_changes : s.Changes (s.endResetHold p now) :=
  .ite (fun _ => State.enterRunning_changes now p) fun _ => .refl s

theorem State.endStopLimit_changes : s.Changes (s.endStopLimit p now) :=
  .ite (fun _ => (Changes.of_change (.record now _ _ _ _)).trans (State.enterCooldown_changes now _ _)) fun _ => .refl s

theorem State.endResetDelay_changes : s.Changes (s.endResetDelay p now) :=
  .ite (fun _ => State.assertReset_changes now p) fun _ => .refl s

theorem State.endResetWidth_changes : s.Changes (s.endResetWidth p now) :=
  .ite (fun _ => State.enterRunning_changes now p) fun _ => .refl s

theorem State.endOffTimer_changes : s.Changes (s.endOffTimer p now) := by
  have hended : s.Changes (s.mapRail fun r => { r with offTimer := none }) := .of_change (.rail _ rfl rfl rfl rfl)
  exact .ite (fun _ => .ite (fun _ => hended.trans (State.enterWarming_changes now p))
    fun _ => hended.andThen (.railState now .off)) fun _ => .refl s

theorem State.endPulse_changes : s.Changes (s.endPulse p now) := .of_change (.rail _ rfl rfl rfl rfl)

theorem State.endOverride_changes : s.Changes (s.endOverride p now) := by
  have hended : s.Changes (s.mapRail fun r => { r with override := none }) := .of_change (.rail _ rfl rfl rfl rfl)
  exact .ite (fun _ => hended.trans (State.cutWithNotice_changes now p _ _)) fun _ => hended

theorem State.warn_changes : s.Changes (s.warn now) :=
  (Changes.of_change (.watchdog _ now rfl rfl rfl)).andThen (.raise .wdtWarn)

theorem State.stableEnd_changes : s.Changes ((s.mapMon fun m => { m with stableEnd := none }).setLadderIndex 0) :=
  (Changes.of_change (.monitor _ rfl rfl rfl rfl)).andThen (.ladder 0 (fun _ => rfl) fun _ _ _ => Nat.zero_le _)

theorem State.serviceWrite_changes (hb : s.bound) : s.Changes ((s.endServiceWrite now).arbitrate now p) := by
  have hended : s.Changes (s.endServiceWrite now) :=
    (Changes.of_change (.store _ rfl rfl rfl rfl rfl)).andThen (.airReport _ _)
  exact hended.trans (State.arbitrate_changes now p (hended.bound hb))

theorem State.scanEnd_changes (t e : SlotCount) (counts : Vector (BitVec 12) 24) (hb : s.bound) :
    s.Changes ((s.scanWork t p counts).arbitrate e p) := by
  have hscanned : s.Changes (s.scanWork t p counts) := State.scanWork_changes t p counts
  exact hscanned.trans (State.arbitrate_changes e p (hscanned.bound hb))

end events

end Sys2Proof.Machine
end

