-- ==== Sys2Proof/Proofs/Invariants.lean ====
section
/-!
SUPPORT. From one change to every event: the boundary and the expiry, stage by stage, and what an invariant that every
change keeps still needs.
-/

namespace Sys2Proof.Machine

open State (Change Changes)

/-! ### The boundary, stage by stage -/

section boundary
variable {s : State} (now : SlotCount) (old : Image)

/-- The programmed image in force, in the monitor and on the page, before the keypad controller takes it up (R180). -/
def State.forced (s : State) : State :=
  (s.bringIntoForce.adoptMonitor s.store.storedImage).publishInputs s.store.storedImage

@[simp] theorem State.adoptMonitor_blocks (p : Image) (s : State) :
    (s.adoptMonitor p).air = s.air ∧ (s.adoptMonitor p).keypad = s.keypad ∧ (s.adoptMonitor p).engine = s.engine ∧
      (s.adoptMonitor p).store = s.store ∧ (s.adoptMonitor p).rail = s.rail ∧ (s.adoptMonitor p).climate = s.climate ∧
      (s.adoptMonitor p).sense = s.sense ∧ (s.adoptMonitor p).time = s.time := by
  unfold State.adoptMonitor
  split <;> simp

theorem State.forced_store :
    s.forced.store =
      { s.store with
        active := some s.store.storedImage, factoryActive := false, commit := .idle, stagingHeld := false } := by
  simp [State.forced, State.bringIntoForce]

theorem State.forced_writes : s.xmem.writes [(0x04, 1), (0x0AE, 2)] s.forced.xmem := by
  have hflags : s.xmem.writes [(0x04, 1), (0x0AE, 2)] s.bringIntoForce.xmem :=
    Exchange.writes_partWrite (by simp [rangeWithin]) s.xmem
  exact (hflags.trans ((State.adoptMonitor_writes s.store.storedImage s.bringIntoForce).mono (by decide))).trans
    ((State.publishInputs_writes _ _).mono (by decide))

theorem State.forced_wf (hwf : s.xmem.wf = true) : s.forced.xmem.wf = true := (State.forced_writes hwf).wf

/-- The boundary before its air controller works: the image in force where one is armed (R180). -/
def State.boundaryBegun (s : State) : State :=
  if s.store.commit = .armed then (s.mapTime fun t => { t with boundaryTaken := true }).forced
  else s.mapTime fun t => { t with boundaryTaken := true }

theorem State.boundaryBegun_writes : s.xmem.writes [(0x04, 1), (0x0AE, 2)] s.boundaryBegun.xmem := by
  unfold State.boundaryBegun
  exact Exchange.writes_ite (fun _ => State.forced_writes (s := s.mapTime _)) fun _ => Exchange.writes_refl _ _

theorem State.boundaryBegun_wf (hwf : s.xmem.wf = true) : s.boundaryBegun.xmem.wf = true :=
  (State.boundaryBegun_writes hwf).wf

/-- The activation is the image in force, then changes. -/
theorem State.activate_changes : s.forced.Changes (s.activate now old) := by
  have hadopted : s.forced.Changes (s.forced.adoptKeypad old s.store.storedImage) := State.adoptKeypad_changes old _
  have hreported := hadopted.andThen
    (.storeReport { SlipResult.ok with payload := le16 (u16 s.store.storedImage 1022) })
  rw [State.activate_eq]
  refine hreported.andThen (.store _ ?_ ?_ ?_ ?_ ?_) <;> (split <;> rfl)

/-- After an activation no slip is bound to the store, and the other bindings have their operations in flight. -/
theorem State.activate_bound (hb : s.bound) : (s.activate now old).bound := by
  have hforced : s.forced.boundOn fun c => True ∧ c ≠ .store := by
    intro c hc h
    have hengine : s.forced.engine = s.engine := by simp [State.forced, State.bringIntoForce]
    rw [hengine] at h
    have hf := hb c trivial h
    cases c with
    | store => exact absurd rfl hc.2
    | air => simpa [State.inFlight, State.forced, State.bringIntoForce] using hf
    | keypad => simpa [State.inFlight, State.forced, State.bringIntoForce] using hf
  have hadopted := (State.adoptKeypad_changes old (new := s.store.storedImage)).boundOn hforced
  have hreported := State.boundOn_report (B := fun _ => True) .store
    { SlipResult.ok with payload := le16 (u16 s.store.storedImage 1022) } hadopted
  have hlast (u : State) : u.Changes (u.mapStore fun t =>
      if t.service = .waiting then { t with service := .writing, writeBegan := some now } else t) := by
    refine .of_change (.store _ ?_ ?_ ?_ ?_ ?_) <;> (split <;> rfl)
  rw [State.activate_eq]
  exact (hlast _).bound hreported

/-- A boundary from its activation on: the image in force or the boundary's beginning, changes up to the allotment, the
allotment, and changes after it. -/
theorem State.boundaryWork_changes (hb : s.bound) :
    ∃ u, s.boundaryBegun.Changes u ∧
      u.store.active = (if s.store.commit = .armed then some s.store.storedImage else s.store.active) ∧
      (u.climateBoundary now (s.profileAfter old)).1.Changes (s.boundaryWork now old) := by
  have htimed : s.Changes (s.mapTime fun t => { t with boundaryTaken := true }) := .of_change (.time _ rfl)
  have hafter (v : State) (hv : v.bound) :
      (v.climateBoundary now (s.profileAfter old)).1.Changes
        ((((v.climateBoundary now (s.profileAfter old)).1.takeEdges
          (v.climateBoundary now (s.profileAfter old)).2).decideScan now (s.profileAfter old) 0).arbitrate now
            (s.profileAfter old)) := by
    have hdecided := (State.takeEdges_changes (s := (v.climateBoundary now (s.profileAfter old)).1)
      (v.climateBoundary now (s.profileAfter old)).2).trans (State.decideScan_changes now (s.profileAfter old) 0)
    refine hdecided.trans (State.arbitrate_changes now _ (hdecided.bound ?_))
    exact State.boundOn_of_eq hv (by simp) (by simp) (by simp) (by simp)
  rw [State.boundaryWork_eq]
  unfold State.activateDue State.boundaryWorked State.boundaryBegun
  by_cases harmed : s.store.commit = .armed
  · simp only [State.mapTime_store, harmed, if_true]
    have hactive := State.activate_changes (s := s.mapTime fun t => { t with boundaryTaken := true }) now old
    have hbound := State.activate_bound (s := s.mapTime fun t => { t with boundaryTaken := true }) now old
      (htimed.bound hb)
    have harbitrated := hactive.trans (State.arbitrate_changes now s.store.storedImage hbound)
    have hair := harbitrated.trans (State.airBoundary_changes now (s.profileAfter old))
    refine ⟨_, hair, ?_, hafter _ ?_⟩
    · rw [hair.active, State.forced_store]
      rfl
    · exact (State.airBoundary_changes now _).bound ((State.arbitrate_changes now _ hbound).bound hbound)
  · simp only [State.mapTime_store, harmed, if_false]
    have hair := State.airBoundary_changes (s := s.mapTime fun t => { t with boundaryTaken := true }) now
      (s.profileAfter old)
    exact ⟨_, hair, by rw [hair.active]; rfl, hafter _ (hair.bound (htimed.bound hb))⟩

end boundary

/-! ### An expiry -/

/-- An expiry is the ladder and the record, then the watchdog EXPIRED with its record pending, then changes. -/
theorem State.expire_changes {s : State} {p : Image} (cause : RestartCause) (e : SlotCount)
    (hp : s.store.active = some p) :
    ∃ u, s.Changes u ∧
      (u.mapMon fun m =>
        { m with
          watchdog := .expired, stageEnd := none, pendingRecord := some m.recordCounter }).Changes
        (s.expire cause p e) := by
  refine ⟨(s.setLadderIndex (ladderNext p s.mon.ladderIndex)).addRecord e cause
    (ladderAction p s.mon.ladderIndex).recorded s.mon.ladderIndex .running,
    (State.setLadderNext_changes hp).andThen (.record e cause _ _ _), ?_⟩
  have hexpired : s.expired cause p e =
      ((s.setLadderIndex (ladderNext p s.mon.ladderIndex)).addRecord e cause
        (ladderAction p s.mon.ladderIndex).recorded s.mon.ladderIndex .running).mapMon fun m =>
          { m with watchdog := .expired, stageEnd := none, pendingRecord := some m.recordCounter } := rfl
  rw [State.expire_eq, hexpired]
  exact (State.carryOut_changes e p _).trans (State.publishWatchdog_changes e)

/-! ### Events from changes -/

theorem Exchange.wf_landHost {x : Exchange} (hx : x.wf = true) (cs : List Host.Cell) : (x.landHost cs).wf = true :=
  Exchange.wf_writeAll hx cs

/-- An invariant that every change keeps holds after every event, if it holds after the power-on, the load, a tach event, a
boundary, an expiry, the end of programming, a change of the frame record and a delivery. -/
theorem EventsKeep.of_changes {P : State → Prop} {s : State} (hwf : s.xmem.wf = true) (hs : P s) (hb : s.bound)
    (hchange : ∀ u v, u.xmem.wf = true → P u → u.Change v → P v)
    (powerUp : ∀ low, P (s.powerUp low)) (load : s.store.active = none → P s.loadProfile)
    (tach : ∀ f g, P (s.setFanSpeed f g)) (boundary : ∀ p now, s.store.active = some p → P (s.boundaryWork now p))
    (expiry : ∀ cause p e, s.store.active = some p → s.mon.watchdog.runs = true → P (s.expire cause p e))
    (programming :
      s.store.commit = .programming →
        P (s.mapStore fun t => { t with storedImage := s.xmem.staged, commit := .armed, programmingBegan := none }))
    (frame : ∀ x, s.xmem.Reframed x → P { s with xmem := x })
    (delivery :
      ∀ p x cs, s.store.active = some p → s.xmem.Reframed x → (∀ c ∈ cs, x.guard s.store.stagingHeld c = true) →
        P ({ s with xmem := x.landHost cs }.deliverAll s.time.slotCount p cs)) : EventsKeep P s := by
  have h {t : State} (hc : s.Changes t) : P t := (hc.keeps hchange hwf hs).2
  exact
    { powerUp, load, tach, boundary, expiry, programming, frame, delivery
      slotStart := fun p pgood hsleep levels hp => h (State.slotWork_changes _ pgood hsleep levels hp hb)
      answer := fun p granted boundary _ => h (State.receiveAnswer_changes p granted boundary)
      conversion := fun p k code _ => h (State.conversion_changes _ p k code)
      railConversion := fun p mV mA hp => h (State.railConversion_changes _ mV mA hp)
      completeStop := fun p _ _ => h (State.completeStop_changes _ p)
      pgoodLimit := fun p e hp => h (State.endPgoodLimit_changes e hp)
      resetHold := fun p e _ => h (State.endResetHold_changes e p)
      stopLimit := fun p e _ => h (State.endStopLimit_changes e p)
      resetDelay := fun p e _ _ => h (State.endResetDelay_changes e p)
      resetWidth := fun p e _ => h (State.endResetWidth_changes e p)
      offTimer := fun p e _ => h (State.endOffTimer_changes e p)
      pulse := fun p e _ => h (State.endPulse_changes e p)
      override := fun p e _ => h (State.endOverride_changes e p)
      warning := fun e _ => h (State.warn_changes e)
      stable := h State.stableEnd_changes
      scan := fun p t counts _ => h (State.scanEnd_changes p t _ counts hb)
      hold := fun p e k _ => h (State.giveHold_changes e p k)
      chord := fun p e c _ => h (State.giveChord_changes e p c)
      serviceWrite := fun p e _ _ => h (State.serviceWrite_changes e p hb)
      clear := fun p x _ hx =>
        hchange { s with xmem := x } _ hx.wf (frame x hx) (.clearing s.time.slotCount p) }

/-- A delivery is changes after the landing. -/
theorem State.delivery_keeps {P : State → Prop} {s : State} {p : Image} {x : Exchange} {cs : List Host.Cell}
    (hb : s.bound) (hchange : ∀ u v, u.xmem.wf = true → P u → u.Change v → P v) (hx : s.xmem.Reframed x)
    (hlanded : P { s with xmem := x.landHost cs }) :
    P ({ s with xmem := x.landHost cs }.deliverAll s.time.slotCount p cs) :=
  ((State.deliverAll_changes (s := { s with xmem := x.landHost cs }) s.time.slotCount p cs hb).keeps hchange
    (Exchange.wf_landHost hx.wf cs) hlanded).2

/-- What soundness says of the bindings. -/
theorem State.bound_of_slipsSound {s : State} (h : s.slipsSound = true) : s.bound := by
  simp only [State.slipsSound, Bool.and_eq_true, Bool.or_eq_true, Option.isNone_iff_eq_none, bne_iff_ne, ne_eq] at h
  obtain ⟨⟨⟨_, hair⟩, hkeypad⟩, hstore⟩ := h
  intro b _ hb
  cases b with
  | store => exact hstore.resolve_left fun h0 => by simp [Engine.binding, h0] at hb
  | air =>
    obtain ⟨hphase, horigin⟩ := hair.resolve_left fun h0 => by simp [Engine.binding, h0] at hb
    exact ⟨hphase, by simpa [Probe.bySlip] using horigin⟩
  | keypad => exact hkeypad.resolve_left fun h0 => by simp [Engine.binding, h0] at hb

/-- The parts of soundness. -/
theorem State.sound_iff {s : State} :
    s.sound = true ↔
      s.xmem.wf = true ∧ s.railSafe = true ∧ s.budgetKept = true ∧ s.queueSound = true ∧ s.slipsSound = true ∧
        s.profileSound = true ∧ s.ladderBounded = true ∧ s.mirrored = true := by
  simp only [State.sound, Bool.and_eq_true, and_assoc]

end Sys2Proof.Machine
end

