-- ==== Sys2Proof/Proofs/Budget.lean ====
section
/-!
The statement that the granted heater power stays within the allotment (R32, R40). Only the allotment of a boundary makes
grants; every change leaves the grants, the requests and the available power.
-/

namespace Sys2Proof.Machine

open State (Change Changes)

/-! ### What keeps the budget -/

theorem Climate.stands.trans {a b c : Climate} (h : a.stands b) (h' : b.stands c) : a.stands c :=
  ⟨h'.1.trans h.1, fun z => ⟨(h'.2 z).1.trans (h.2 z).1, (h'.2 z).2.trans (h.2 z).2⟩⟩

theorem State.Change.stands {s t : State} (h : s.Change t) : s.climate.stands t.climate := by
  cases h with
  | climate f h => exact h
  | railState now new =>
    rw [State.setRail_climate]
    split
    · exact Climate.stands_withoutOverrides _
    · exact Climate.stands_refl _
  | clearing now p =>
    have heq : (s.hostRestartClearing now p).climate = s.climate.withoutOverrides := by
      simp [State.hostRestartClearing, State.clearOverrides_climate]
    rw [heq]
    exact Climate.stands_withoutOverrides _
  | input p levels k _ =>
    have heq : (s.inputTaken p levels k).climate = s.climate := by
      unfold State.inputTaken
      dsimp only
      split <;> simp
    exact heq ▸ Climate.stands_refl _
  | railCodes mV mA =>
    have heq : (s.takeRailCodes mV mA).climate = s.climate := by
      unfold State.takeRailCodes
      dsimp only
      split <;> simp
    exact heq ▸ Climate.stands_refl _
  | readCounter =>
    have heq : s.takeReadCounter.climate = s.climate := by
      unfold State.takeReadCounter
      dsimp only
      split <;> simp
    exact heq ▸ Climate.stands_refl _
  | _ => simpa using Climate.stands_refl s.climate

/-- The budget is one of the active profile and of what `Climate.stands` keeps. -/
theorem State.budgetKept_of {s t : State} (h : s.budgetKept = true) (ha : t.store.active = s.store.active)
    (hc : s.climate.stands t.climate) : t.budgetKept = true := by
  obtain ⟨havail, hzones⟩ := hc
  unfold State.budgetKept State.grantedPower at h ⊢
  rw [ha]
  simpa only [havail, (hzones _).1, (hzones _).2] using h

/-! ### The allotment (R32) -/

/-- The slot-deciwatts of grants, by the ratings of `p`. -/
def spent (p : Image) (grants : Vector Nat 3) : Nat :=
  Profile.zoneRating p 0 * grants[0] + Profile.zoneRating p 1 * grants[1] + Profile.zoneRating p 2 * grants[2]

/-- A grant more costs at most its rating times its slots. -/
theorem spent_set (p : Image) (grants : Vector Nat 3) (z : Fin 3) (g : Nat) :
    spent p (grants.set z g) ≤ spent p grants + Profile.zoneRating p z * g := by
  fin_cases z <;> simp [spent] <;> omega

/-- The allotment never spends more than it has left, and grants no zone more than its request. -/
theorem allot_within (p : Image) (request : Vector Nat 3) (zs : List (Fin 3)) (left : Nat) (grants : Vector Nat 3)
    (h : ∀ z : Fin 3, grants[z] ≤ request[z]) :
    spent p (allot p request zs left grants) ≤ spent p grants + left ∧
      ∀ z : Fin 3, (allot p request zs left grants)[z] ≤ request[z] := by
  induction zs generalizing left grants with
  | nil => exact ⟨Nat.le_add_right _ _, h⟩
  | cons y zs ih =>
    unfold allot
    split
    · have hg : Profile.zoneRating p y * min request[y] (left / Profile.zoneRating p y) ≤ left :=
        (Nat.mul_le_mul_left _ (Nat.min_le_right _ _)).trans (Nat.mul_div_le left _)
      have hset : ∀ z : Fin 3, (grants.set y (min request[y] (left / Profile.zoneRating p y)))[z] ≤ request[z] := by
        intro z
        by_cases hz : y = z
        · subst hz
          simp
        · have hne : y.val ≠ z.val := fun h => hz (Fin.ext h)
          simpa [Vector.getElem_set, hne] using h z
      obtain ⟨hspent, hle⟩ := ih (left - Profile.zoneRating p y * min request[y] (left / Profile.zoneRating p y)) _ hset
      refine ⟨hspent.trans ?_, hle⟩
      have hmore := spent_set p grants y (min request[y] (left / Profile.zoneRating p y))
      omega
    · exact ih left grants h

theorem grantsFor_within (p : Image) (request : Vector Nat 3) (available : Nat) :
    spent p (grantsFor p request available) ≤ 64 * available ∧
      ∀ z : Fin 3, (grantsFor p request available)[z] ≤ request[z] := by
  obtain ⟨hspent, hle⟩ := allot_within p request (Profile.priorityOrder p) (available * 64) (Vector.replicate 3 0)
    (by simp)
  refine ⟨hspent.trans (Nat.le_of_eq ?_), hle⟩
  simp [spent]
  omega

theorem zoneRequest_le (p : Image) (z : Fin 3) (e : Int) (integrator : Nat) :
    zoneRequest p z e integrator ≤ Profile.dutyCap p z := by
  unfold zoneRequest clampInt
  omega

/-- A request never exceeds its duty cap (R25, R26). -/
theorem ZoneRec.control_request_le (p : Image) (z : Fin 3) (effective : Int) (temp : Option Int) (r : ZoneRec) :
    (r.control p z effective temp).request ≤ Profile.dutyCap p z := by
  unfold ZoneRec.control
  split
  · split
    · exact zoneRequest_le p z _ _
    · exact Nat.min_le_right _ _
  · exact Nat.zero_le _

/-- The boundary's allotment keeps the budget of the profile it is made with. -/
theorem State.climateBoundary_budgetKept {s : State} {p : Image} (now : SlotCount) (hp : s.store.active = some p) :
    (s.climateBoundary now p).1.budgetKept = true := by
  have hstore : (s.climateBoundary now p).1.store.active = some p := by simpa using hp
  have hclimate : (s.climateBoundary now p).1.climate = _ := (State.publishClimate_frame _).2.2.1
  have hgrants := grantsFor_within p
  unfold State.budgetKept State.grantedPower
  rw [hstore, hclimate]
  simp only [State.mapClimate_climate, tab_get, Bool.and_eq_true, decide_eq_true_eq, List.all_eq_true]
  refine ⟨(hgrants _ _).1, fun z _ => ⟨?_, ZoneRec.control_request_le p z _ _ _⟩⟩
  exact ((hgrants _ _).2 z).trans (by rw [tab_get])

/-! ### Every event -/

/-- Before the first profile nothing is granted, so the load keeps the budget (R40). -/
theorem State.loaded_budgetKept {s : State} (h : s.budgetKept = true) (hnone : s.store.active = none) :
    s.loaded.budgetKept = true := by
  have hzones : ∀ z : Fin 3, s.climate.zones[z].grant = 0 ∧ s.climate.zones[z].request = 0 := by
    simpa [State.budgetKept, hnone] using h
  have hclimate : s.loaded.climate = s.climate := by simp
  unfold State.budgetKept State.grantedPower
  rw [State.loaded_store, hclimate]
  simp only [(hzones _).1, (hzones _).2]
  simp

theorem State.loadProfile_budgetKept {s : State} (h : s.budgetKept = true) (hnone : s.store.active = none) :
    s.loadProfile.budgetKept = true := by
  have hloaded := State.loaded_budgetKept h hnone
  have hwarmed (u : State) (now : SlotCount) (p : Image) (hu : u.budgetKept = true) :
      ((u.enterWarming now p).mapRail fun r => { r with judgedAt := none }).budgetKept = true := by
    have hclimate : (u.enterWarming now p).climate = u.climate.withoutOverrides := State.enterWarming_climate now p u
    refine State.budgetKept_of hu (by simp) ?_
    rw [State.mapRail_climate, hclimate]
    exact Climate.stands_withoutOverrides _
  rw [State.loadProfile_eq]
  unfold State.beginRail
  split
  · exact hwarmed _ _ _ hloaded
  · exact hloaded

theorem State.budgetKept_eventsKeep {s : State} (hwf : s.xmem.wf = true) (hb : s.bound) (h : s.budgetKept = true) :
    EventsKeep (fun t => t.budgetKept = true) s := by
  have hchange (u v : State) (_ : u.xmem.wf = true) (hu : u.budgetKept = true) (hc : u.Change v) :
      v.budgetKept = true := State.budgetKept_of hu hc.active hc.stands
  refine .of_changes hwf h hb hchange (fun _ => rfl) (State.loadProfile_budgetKept h) (fun f g => ?_)
    (fun p now hp => ?_) (fun cause p e hp _ => ?_) (fun _ => h) (fun _ _ => h)
    fun p x cs _ hx _ => State.delivery_keeps hb hchange hx h
  · exact State.budgetKept_of h (by simp) (by simpa using Climate.stands_refl _)
  · obtain ⟨u, hbefore, hactive, hafter⟩ := State.boundaryWork_changes now p hb
    have hu : u.store.active = some (s.profileAfter p) := by
      rw [hactive]
      unfold State.profileAfter
      split
      · rfl
      · exact hp
    have hallotted := State.climateBoundary_budgetKept now hu
    have hwfu := (State.climateBoundary_writes now (s.profileAfter p) u
      (hbefore.wf (State.boundaryBegun_wf hwf))).wf
    exact (hafter.keeps hchange hwfu hallotted).2
  · obtain ⟨u, hu, hafter⟩ := State.expire_changes cause e hp
    obtain ⟨hwfu, hku⟩ := hu.keeps hchange hwf h
    exact (hafter.keeps hchange hwfu hku).2

end Sys2Proof.Machine

namespace Sys2Proof.Proofs

open Sys2Proof.Machine

/-- Settles O57: the allotment of each boundary is within the available power, and every change leaves the grants. -/
theorem heatersStayInTheBudget : Obligations.HeatersStayInTheBudget := by
  intro s t hsound hstep
  obtain ⟨hwf, _, hbudget, _, hslips, _⟩ := State.sound_iff.mp hsound
  exact step_keeps
    (fun rest => State.budgetKept_eventsKeep (s := { s with pending := rest }) hwf (State.bound_of_slipsSound hslips) hbudget)
    hwf hbudget (fun _ h => h) hstep

end Sys2Proof.Proofs
end

