-- ==== Sys2Proof/Proofs/ImageChecks.lean ====
section
/-!
SUPPORT. The checks of R177 in the words of the statements: the field checks are the ranges of section 10.8 with the five
special fields, in ascending order of offset, and the cross-field checks are the conditions of the table.
-/

namespace Sys2Proof.Machine

/-! ### Field forms -/

theorem FieldForm.read_byte (p : Image) (k : Nat) : FieldForm.byte.read p k = (u8 p k : Int) := rfl

theorem FieldForm.read_word (p : Image) (k : Nat) : FieldForm.word.read p k = (u16 p k : Int) := by
  have h : FieldForm.word.read p k = (u8 p k : Int) + 256 * (u8 p (k + 1) : Int) := rfl
  rw [h, u16]
  omega

theorem FieldForm.read_signedWord (p : Image) (k : Nat) : FieldForm.signedWord.read p k = s16 p k := by
  have h : FieldForm.signedWord.read p k = (u8 p k : Int) + 256 * (p.getD (k + 1) 0).toInt := rfl
  have hlow : u8 p k < 256 := (p.getD k 0).isLt
  have hhigh : u8 p (k + 1) < 256 := (p.getD (k + 1) 0).isLt
  have hint : (p.getD (k + 1) 0).toInt = if 2 * u8 p (k + 1) < 256 then (u8 p (k + 1) : Int) else u8 p (k + 1) - 256 :=
    BitVec.toInt_eq_toNat_cond _
  rw [h, hint, s16, signed16, u16]
  split <;> split <;> omega

theorem FieldForm.read_signedByte (p : Image) (k : Nat) : FieldForm.signedByte.read p k = signed8 (u8 p k) := by
  have h : FieldForm.signedByte.read p k = (p.getD k 0).toInt := rfl
  have hbyte : u8 p k < 256 := (p.getD k 0).isLt
  have hint : (p.getD k 0).toInt = if 2 * u8 p k < 256 then (u8 p k : Int) else u8 p k - 256 :=
    BitVec.toInt_eq_toNat_cond _
  rw [h, hint, signed8]
  split <;> split <;> omega

/-- A range of section 10.8 as a field check. -/
def rangeCheck (f : FieldRange) : FieldCheck :=
  (f.1, fun p => f.2.2.1 ≤ f.2.1.read p f.1 && f.2.1.read p f.1 ≤ f.2.2.2)

theorem byteIn_eq (k lo hi : Nat) : (k, byteIn k lo hi) = rangeCheck (k, .byte, lo, hi) := by
  refine Prod.ext rfl (funext fun p => ?_)
  simp [rangeCheck, byteIn, FieldForm.read_byte]

theorem wordIn_eq (k lo hi : Nat) : (k, wordIn k lo hi) = rangeCheck (k, .word, lo, hi) := by
  refine Prod.ext rfl (funext fun p => ?_)
  simp [rangeCheck, wordIn, FieldForm.read_word]

theorem signedIn_eq (k : Nat) (lo hi : Int) : (k, signedIn k lo hi) = rangeCheck (k, .signedWord, lo, hi) := by
  refine Prod.ext rfl (funext fun p => ?_)
  simp only [rangeCheck, signedIn, FieldForm.read_signedWord]

theorem signedByteIn_eq (k : Nat) (lo hi : Int) :
    (k, signedByteIn k lo hi) = rangeCheck (k, .signedByte, lo, hi) := by
  refine Prod.ext rfl (funext fun p => ?_)
  simp only [rangeCheck, signedByteIn, FieldForm.read_signedByte]

/-! ### The segments of the field checks -/

theorem sensorChecks_eq :
    sensorChecks =
      (rowRanges 33 0x004 2 .signedWord (-2000) 3000 ++ rowRanges 6 0x046 1 .signedByte (-50) 50).map rangeCheck := by
  simp only [sensorChecks, signedIn_eq, signedByteIn_eq]
  rfl

theorem zoneChecks_eq (z : Nat) : zoneChecks z = (zoneRanges z).map rangeCheck := by
  simp only [zoneChecks, byteIn_eq, wordIn_eq, signedIn_eq]
  rfl

/-- The priority order as a field check. -/
def priorityCheck : FieldCheck := (0x080, fun p => byteIn 0x080 0 2 p && byteIn 0x081 0 2 p && byteIn 0x082 0 2 p)

theorem budgetChecks_eq : budgetChecks = priorityCheck :: budgetRanges.map rangeCheck := by
  simp only [budgetChecks, wordIn_eq]
  rfl

theorem fanChecks_eq (f : Nat) : fanChecks f = (fanRanges f).map rangeCheck := by
  simp only [fanChecks, byteIn_eq, wordIn_eq]
  rfl

theorem airChecks_eq :
    airChecks =
      (rowRanges 8 0x0A0 2 .signedWord (-550) 1250 ++ rowRanges 8 0x0B0 1 .byte 0 100 ++ railRanges.take 6).map
        rangeCheck := by
  simp only [airChecks, byteIn_eq, wordIn_eq, signedIn_eq]
  rfl

theorem railChecks_eq :
    railChecks =
      (railRanges.drop 6 ++ rowRanges 4 0x0EC 1 .byte 0 1 ++ rowRanges 4 0x0F0 1 .byte 0 5).map rangeCheck := by
  simp only [railChecks, byteIn_eq, wordIn_eq, signedIn_eq]
  rfl

/-- The steps of the ladder as field checks. -/
def ladderChecks : List FieldCheck :=
  (List.range 6).map fun i =>
    (0x111 + i, fun p => decide (Profile.ladderLength p ≤ i) || byteIn (0x111 + i) 1 3 p)

theorem monitorChecks_eq : monitorChecks = (watchdogAndKeyRanges.take 10).map rangeCheck ++ ladderChecks := by
  simp only [monitorChecks, ladderChecks]
  refine congrArg (· ++ _) ?_
  simp only [byteIn_eq, wordIn_eq, signedIn_eq]
  rfl

/-- The scan period and the power key as field checks. -/
def keyChecks : List FieldCheck :=
  [(0x126, fun p => u8 p 0x126 == 1 || u8 p 0x126 == 2 || u8 p 0x126 == 4),
    (0x127, fun p => decide (u8 p 0x127 < 24) || u8 p 0x127 == 0xFF)]

/-- The member lists of the chords as field checks. -/
def chordChecks : List FieldCheck := (List.finRange 4).map fun c => (0x13A + 3 * c.val, chordListIn c)

theorem keypadChecks_eq :
    keypadChecks = keyChecks ++ (watchdogAndKeyRanges.drop 10).map rangeCheck ++ chordChecks := by
  simp only [keypadChecks, byteIn_eq, wordIn_eq]
  rfl

/-- The field checks are the ranges of section 10.8 and the special fields. -/
theorem mem_fieldChecks (c : FieldCheck) :
    c ∈ fieldChecks ↔
      c ∈ fieldRanges.map rangeCheck ∨ c = priorityCheck ∨ c ∈ ladderChecks ∨ c ∈ keyChecks ∨ c ∈ chordChecks := by
  have hrail (d : FieldCheck) : d ∈ railRanges.map rangeCheck ↔
      d ∈ (railRanges.take 6).map rangeCheck ∨ d ∈ (railRanges.drop 6).map rangeCheck := by
    rw [← List.mem_append, ← List.map_append, List.take_append_drop]
  have hkeys (d : FieldCheck) : d ∈ watchdogAndKeyRanges.map rangeCheck ↔
      d ∈ (watchdogAndKeyRanges.take 10).map rangeCheck ∨ d ∈ (watchdogAndKeyRanges.drop 10).map rangeCheck := by
    rw [← List.mem_append, ← List.map_append, List.take_append_drop]
  have hzones : (List.range 3).flatMap zoneChecks = ((List.range 3).flatMap zoneRanges).map rangeCheck := by
    rw [List.map_flatMap]
    exact congrArg (List.flatMap · _) (funext zoneChecks_eq)
  have hfans : (List.range 2).flatMap fanChecks = ((List.range 2).flatMap fanRanges).map rangeCheck := by
    rw [List.map_flatMap]
    exact congrArg (List.flatMap · _) (funext fanChecks_eq)
  unfold fieldChecks fieldRanges
  rw [sensorChecks_eq, hzones, budgetChecks_eq, hfans, airChecks_eq, railChecks_eq, monitorChecks_eq, keypadChecks_eq]
  simp only [List.flatten_cons, List.flatten_nil, List.append_nil, List.map_append, List.mem_append, List.mem_cons,
    hrail, hkeys]
  tauto

/-! ### A field that fails (R177 check 4) -/

/-- Some check of a list fails at offset `k`. -/
def failsAt (cs : List FieldCheck) (p : Image) (k : Nat) : Prop := ∃ c ∈ cs, c.1 = k ∧ c.2 p = false

section fails
variable (p : Image) (k : Nat)

theorem failsAt_ranges :
    failsAt (fieldRanges.map rangeCheck) p k ↔
      (fieldRanges.any fun f => f.1 == k && !(f.2.2.1 ≤ f.2.1.read p k && f.2.1.read p k ≤ f.2.2.2)) = true := by
  simp only [failsAt, List.mem_map, List.any_eq_true]
  constructor
  · rintro ⟨_, ⟨f, hf, rfl⟩, rfl, hfails⟩
    refine ⟨f, hf, ?_⟩
    rw [Bool.and_eq_true, Bool.not_eq_true']
    exact ⟨beq_self_eq_true _, hfails⟩
  · rintro ⟨f, hf, hfails⟩
    simp only [Bool.and_eq_true, beq_iff_eq, Bool.not_eq_true'] at hfails
    obtain ⟨rfl, hfails⟩ := hfails
    exact ⟨_, ⟨f, hf, rfl⟩, rfl, hfails⟩

theorem failsAt_priority :
    (priorityCheck.1 = k ∧ priorityCheck.2 p = false) ↔
      (k == 0x080 && (2 < u8 p 0x080 || 2 < u8 p 0x081 || 2 < u8 p 0x082)) = true := by
  simp only [priorityCheck, byteIn, Bool.and_eq_true, beq_iff_eq, Bool.or_eq_true, decide_eq_true_eq,
    Bool.and_eq_false_iff, decide_eq_false_iff_not]
  omega

theorem failsAt_ladder :
    failsAt ladderChecks p k ↔
      (0x111 ≤ k && k < 0x117 && k - 0x111 < u8 p 0x110 && !(1 ≤ u8 p k && u8 p k ≤ 3)) = true := by
  simp only [failsAt, ladderChecks, List.mem_map, List.mem_range, Profile.ladderLength, byteIn, Bool.and_eq_true,
    decide_eq_true_eq, Bool.not_eq_true', Bool.and_eq_false_iff, decide_eq_false_iff_not]
  constructor
  · rintro ⟨_, ⟨i, hi, rfl⟩, rfl, hfails⟩
    simp only [Bool.or_eq_false_iff, decide_eq_false_iff_not, Bool.and_eq_false_iff] at hfails ⊢
    obtain ⟨hlength, hfails⟩ := hfails
    have hbelow := of_decide_eq_false hlength
    exact ⟨⟨⟨by omega, by omega⟩, by omega⟩, hfails⟩
  · rintro ⟨⟨⟨hlow, hhigh⟩, hlength⟩, hfails⟩
    have hk : 0x111 + (k - 0x111) = k := by omega
    refine ⟨_, ⟨k - 0x111, by omega, rfl⟩, hk, ?_⟩
    simp only [hk, Bool.or_eq_false_iff, decide_eq_false_iff_not, Bool.and_eq_false_iff]
    exact ⟨decide_eq_false (by omega), hfails⟩

theorem failsAt_key :
    failsAt keyChecks p k ↔
      (k == 0x126 && !(u8 p k == 1 || u8 p k == 2 || u8 p k == 4)) = true ∨
        (k == 0x127 && 24 ≤ u8 p k && u8 p k != 0xFF) = true := by
  simp only [failsAt, keyChecks, List.mem_cons, List.not_mem_nil, or_false, exists_eq_or_imp, exists_eq_left,
    Bool.and_eq_true, beq_iff_eq, Bool.not_eq_true', bne_iff_ne, decide_eq_true_eq]
  constructor
  · rintro (⟨rfl, hfails⟩ | ⟨rfl, hfails⟩)
    · exact .inl ⟨rfl, hfails⟩
    · exact .inr (by simpa using hfails)
  · rintro (⟨rfl, hfails⟩ | ⟨⟨rfl, hlow⟩, hne⟩)
    · exact .inl ⟨rfl, hfails⟩
    · exact .inr ⟨rfl, by simpa using ⟨hlow, hne⟩⟩

theorem failsAt_chord :
    failsAt chordChecks p k ↔
      ((k == 0x13A || k == 0x13D || k == 0x140 || k == 0x143) &&
        !((u8 p k < 24 && u8 p (k + 1) < 24 && (u8 p (k + 2) < 24 || u8 p (k + 2) == 0xFF)) ||
          (u8 p k == 0xFF && u8 p (k + 1) == 0xFF && u8 p (k + 2) == 0xFF))) = true := by
  have hlist (c : Fin 4) : chordListIn c p = false ↔
      (!((u8 p (0x13A + 3 * c.val) < 24 && u8 p (0x13A + 3 * c.val + 1) < 24 &&
          (u8 p (0x13A + 3 * c.val + 2) < 24 || u8 p (0x13A + 3 * c.val + 2) == 0xFF)) ||
        (u8 p (0x13A + 3 * c.val) == 0xFF && u8 p (0x13A + 3 * c.val + 1) == 0xFF &&
          u8 p (0x13A + 3 * c.val + 2) == 0xFF))) = true := by
    have h1 : 0x13A + 3 * c.val + 1 = 0x13B + 3 * c.val := by omega
    have h2 : 0x13A + 3 * c.val + 2 = 0x13C + 3 * c.val := by omega
    simp only [h1, h2, chordListIn, Profile.chordPlaces]
    by_cases ha : u8 p (0x13A + 3 * c.val) < 24 <;> by_cases hb : u8 p (0x13B + 3 * c.val) < 24 <;> simp [ha, hb] <;>
      tauto
  have hoffset : (k == 0x13A || k == 0x13D || k == 0x140 || k == 0x143) = true ↔ ∃ c : Fin 4, 0x13A + 3 * c.val = k := by
    simp only [Bool.or_eq_true, beq_iff_eq]
    constructor
    · intro h
      exact ⟨⟨(k - 0x13A) / 3, by omega⟩, by dsimp only; omega⟩
    · rintro ⟨c, rfl⟩
      omega
  rw [Bool.and_eq_true, hoffset]
  simp only [failsAt, chordChecks, List.mem_map, List.mem_finRange, true_and]
  constructor
  · rintro ⟨_, ⟨c, rfl⟩, rfl, hfails⟩
    exact ⟨⟨c, rfl⟩, (hlist c).mp hfails⟩
  · rintro ⟨⟨c, rfl⟩, hfails⟩
    exact ⟨_, ⟨c, rfl⟩, rfl, (hlist c).mpr hfails⟩

/-- A field fails in the words of the statements exactly if one of the checks fails. -/
theorem fieldFails_iff : fieldFails p k = true ↔ failsAt fieldChecks p k := by
  have hsplit : failsAt fieldChecks p k ↔
      failsAt (fieldRanges.map rangeCheck) p k ∨ (priorityCheck.1 = k ∧ priorityCheck.2 p = false) ∨
        failsAt ladderChecks p k ∨ failsAt keyChecks p k ∨ failsAt chordChecks p k := by
    simp only [failsAt, mem_fieldChecks, or_and_right, exists_or, exists_eq_left]
  rw [hsplit, failsAt_ranges, failsAt_priority, failsAt_ladder, failsAt_key, failsAt_chord]
  unfold fieldFails
  simp only [Bool.or_eq_true, or_assoc]
  rfl

end fails

/-! ### The first field that fails -/

/-- The first check of a list in ascending order of offset that fails is the one at the least offset. -/
theorem firstFailing_eq_some (p : Image) (k : Nat) (cs : List FieldCheck)
    (hsorted : (cs.map Prod.fst).Pairwise (· < ·)) :
    firstFailing p cs = some k ↔ failsAt cs p k ∧ ∀ a < k, ¬failsAt cs p a := by
  induction cs with
  | nil => simp [firstFailing, failsAt]
  | cons c cs ih =>
    obtain ⟨hfirst, hrest⟩ := List.pairwise_cons.mp hsorted
    have hlater (a : Nat) (h : failsAt cs p a) : c.1 < a := by
      obtain ⟨d, hd, rfl, -⟩ := h
      exact hfirst _ (List.mem_map_of_mem hd)
    have hcons (a : Nat) : failsAt (c :: cs) p a ↔ (c.1 = a ∧ c.2 p = false) ∨ failsAt cs p a := by
      simp only [failsAt, List.mem_cons, or_and_right, exists_or, exists_eq_left]
    cases hc : c.2 p with
    | false =>
      have hfind : firstFailing p (c :: cs) = some c.1 := by simp [firstFailing, hc]
      rw [hfind, Option.some.injEq, hcons]
      constructor
      · rintro rfl
        refine ⟨.inl ⟨rfl, hc⟩, fun a ha hfails => ?_⟩
        obtain ⟨heq, -⟩ | hfails := (hcons a).mp hfails
        · omega
        · exact absurd (hlater a hfails) (by omega)
      · rintro ⟨⟨heq, -⟩ | hfails, hleast⟩
        · exact heq
        · exact absurd ((hcons c.1).mpr (.inl ⟨rfl, hc⟩)) (hleast _ (hlater k hfails))
    | true =>
      have hfind : firstFailing p (c :: cs) = firstFailing p cs := by simp [firstFailing, hc]
      have hsame (a : Nat) : failsAt (c :: cs) p a ↔ failsAt cs p a := by simp [hcons, hc]
      simp only [hfind, hsame]
      exact ih hrest

theorem firstFailing_eq_none (p : Image) (cs : List FieldCheck) :
    firstFailing p cs = none ↔ ∀ c ∈ cs, c.2 p = true := by
  simp [firstFailing]

theorem fieldChecks_sorted : (fieldChecks.map Prod.fst).Pairwise (· < ·) :=
  List.isChain_iff_pairwise.mp (by decide +kernel)

/-- No field lies beyond the image, so no offset below 1,024 fails exactly if every check passes. -/
theorem fieldChecks_pass_iff (p : Image) :
    (∀ c ∈ fieldChecks, c.2 p = true) ↔ ∀ a < 1024, fieldFails p a = false := by
  have hinside : ∀ k ∈ fieldChecks.map Prod.fst, k < 1024 := by decide +kernel
  constructor
  · intro hpass a _
    rw [← Bool.not_eq_true, fieldFails_iff]
    rintro ⟨c, hc, -, hfails⟩
    simp [hpass c hc] at hfails
  · intro hpass c hc
    by_contra hfails
    have := hpass c.1 (hinside _ (List.mem_map_of_mem hc))
    rw [← Bool.not_eq_true, fieldFails_iff] at this
    exact this ⟨c, hc, rfl, Bool.not_eq_true _ ▸ hfails⟩

/-! ### The cross-field conditions (R177 check 5) -/

theorem chordMembers_length (p : Image) (c : Fin 4) :
    (Profile.chordMembers p c).length = listedMembers p c.val := by
  simp only [Profile.chordMembers, Profile.chordPlaces, listedMembers, u8,
    show List.range 3 = [0, 1, 2] from rfl, List.filter_cons, List.filterMap_cons]
  have h1 : 0x13A + 3 * c.val + 1 = 0x13B + 3 * c.val := by omega
  have h2 : 0x13A + 3 * c.val + 2 = 0x13C + 3 * c.val := by omega
  simp only [h1, h2, Nat.add_zero]
  by_cases ha : (p.getD (0x13A + 3 * c.val) 0).toNat < 24 <;> by_cases hb : (p.getD (0x13B + 3 * c.val) 0).toNat < 24 <;>
    by_cases hd : (p.getD (0x13C + 3 * c.val) 0).toNat < 24 <;> simp only [ha, hb, hd] <;> simp

/-- Three zone numbers name every zone exactly if they differ. -/
theorem priorityOrder_complete (p : Image) (hfield : priorityCheck.2 p = true) :
    ((Profile.priorityOrder p).contains 0 && (Profile.priorityOrder p).contains 1 &&
        (Profile.priorityOrder p).contains 2) =
      (u8 p 0x080 != u8 p 0x081 && u8 p 0x080 != u8 p 0x082 && u8 p 0x081 != u8 p 0x082) := by
  have hcases (a b d : Fin 3) : (([a, b, d].contains 0 && [a, b, d].contains 1) && [a, b, d].contains 2) =
      (a.val != b.val && a.val != d.val && b.val != d.val) := by
    revert a b d
    decide
  simp only [priorityCheck, byteIn, Bool.and_eq_true, decide_eq_true_eq] at hfield
  have ha : u8 p 0x080 < 3 := by omega
  have hb : u8 p 0x081 < 3 := by omega
  have hd : u8 p 0x082 < 3 := by omega
  have horder : Profile.priorityOrder p = [⟨u8 p 0x080, ha⟩, ⟨u8 p 0x081, hb⟩, ⟨u8 p 0x082, hd⟩] := by
    simp [Profile.priorityOrder, show List.range 3 = [0, 1, 2] from rfl, ha, hb, hd]
  rw [horder]
  exact hcases _ _ _

/-- The key numbers among three places differ exactly if the places do, or there are none. -/
theorem keyNumbers_nodup (a b d : Nat)
    (h : (a < 24 ∧ b < 24 ∧ (d < 24 ∨ d = 0xFF)) ∨ (a = 0xFF ∧ b = 0xFF ∧ d = 0xFF)) :
    ([a, b, d].filterMap fun n => if h : n < 24 then some (⟨n, h⟩ : Fin 24) else none).Nodup ↔
      a = 0xFF ∨ (a ≠ b ∧ a ≠ d ∧ b ≠ d) := by
  obtain ⟨ha, hb, hd | rfl⟩ | ⟨rfl, rfl, rfl⟩ := h
  · have hne : a ≠ 255 := by omega
    simp [ha, hb, hd, hne, and_assoc]
  · have hne : a ≠ 255 ∧ b ≠ 255 := by omega
    simp [ha, hb, hne.1, hne.2]
  · simp

/-- The members of a list in range differ exactly if the places of the list do, or it lists none. -/
theorem chordMembers_nodup (p : Image) (c : Fin 4) (hfield : chordListIn c p = true) :
    decide (Profile.chordMembers p c).Nodup =
      (u8 p (0x13A + 3 * c.val) == 0xFF ||
        (u8 p (0x13A + 3 * c.val) != u8 p (0x13A + 3 * c.val + 1) &&
          u8 p (0x13A + 3 * c.val) != u8 p (0x13A + 3 * c.val + 2) &&
          u8 p (0x13A + 3 * c.val + 1) != u8 p (0x13A + 3 * c.val + 2))) := by
  have h1 : 0x13A + 3 * c.val + 1 = 0x13B + 3 * c.val := by omega
  have h2 : 0x13A + 3 * c.val + 2 = 0x13C + 3 * c.val := by omega
  simp only [chordListIn, Profile.chordPlaces, Bool.or_eq_true, Bool.and_eq_true, decide_eq_true_eq,
    beq_iff_eq] at hfield
  have hnodup := keyNumbers_nodup (u8 p (0x13A + 3 * c.val)) (u8 p (0x13B + 3 * c.val)) (u8 p (0x13C + 3 * c.val))
    (by tauto)
  rw [Bool.eq_iff_iff, decide_eq_true_eq, h1, h2, Profile.chordMembers, Profile.chordPlaces]
  simpa [and_assoc] using hnodup

theorem largestChord_le_iff (p : Image) (m : Nat) :
    largestChord p ≤ m ↔ ∀ c < 4, listedMembers p c ≤ m := by
  have hfold (cs : List (Fin 4)) (n : Nat) :
      cs.foldl (fun n c => max n (Profile.chordMembers p c).length) n ≤ m ↔
        n ≤ m ∧ ∀ c ∈ cs, (Profile.chordMembers p c).length ≤ m := by
    induction cs generalizing n with
    | nil => simp
    | cons c cs ih => simp [ih, and_assoc]
  unfold largestChord
  rw [hfold]
  simp only [Nat.zero_le, List.mem_finRange, true_imp_iff, true_and, chordMembers_length]
  exact ⟨fun h c hc => h ⟨c, hc⟩, fun h c => h c.val c.isLt⟩

/-- Where every field is in range, the cross-field checks are the conditions of the table of R177. -/
theorem crossChecks_eq (p : Image) (hfields : ∀ c ∈ fieldChecks, c.2 p = true) :
    (crossChecks.map fun c => (c.1, c.2 p)) = crossConditions p := by
  have hpriority : priorityCheck.2 p = true := hfields _ ((mem_fieldChecks _).mpr (.inr (.inl rfl)))
  have hchord (c : Fin 4) : chordListIn c p = true :=
    hfields (0x13A + 3 * c.val, chordListIn c)
      ((mem_fieldChecks _).mpr (.inr (.inr (.inr (.inr (List.mem_map_of_mem (List.mem_finRange c)))))))
  unfold crossChecks crossConditions
  simp only [List.map_append, List.map_map, List.map_cons, List.map_nil]
  refine congrArg₂ (· ++ ·) (congrArg₂ (· ++ ·) (congrArg₂ (· ++ ·) (congrArg₂ (· ++ ·) (congrArg₂ (· ++ ·)
    ?priority ?sensor) ?curve) ?single) ?chords) ?last
  case priority => exact congrArg (fun b => [(0x080, b)]) (priorityOrder_complete p hpriority)
  case sensor =>
    refine List.map_congr_left fun i _ => ?_
    have hnext : 0x004 + 2 * (i + 1) = 0x006 + 2 * i := by omega
    simp [Profile.sensorPoint, FieldForm.read_signedWord, hnext]
  case curve =>
    refine List.map_congr_left fun j _ => ?_
    have hnext : 0x0A0 + 2 * (j + 1) = 0x0A2 + 2 * j := by omega
    simp [Profile.curveTemp, FieldForm.read_signedWord, hnext]
  case single => rfl
  case chords =>
    rw [← List.map_coe_finRange_eq_range, List.map_map]
    refine List.map_congr_left fun c _ => ?_
    exact congrArg _ (chordMembers_nodup p c (hchord c))
  case last =>
    have hlargest : decide (largestChord p ≤ Profile.maxSimultaneous p) =
        (List.range 4).all fun c => decide (listedMembers p c ≤ u8 p 0x12F) := by
      rw [Bool.eq_iff_iff, decide_eq_true_eq, largestChord_le_iff, List.all_eq_true]
      simp [Profile.maxSimultaneous]
    simp only [hlargest, FieldForm.read_signedWord]
    rfl

/-! ### R177 as a whole -/

theorem headPasses_one (p : Image) : headPasses p 1 ↔ crc16 (p.take 1022) = u16 p 1022 := by simp [headPasses]

theorem headPasses_two (p : Image) : headPasses p 2 ↔ u8 p 0 = 3 := by simp [headPasses]

theorem headPasses_three (p : Image) : headPasses p 3 ↔ u16 p 2 = 1024 := by simp [headPasses]

theorem headsPass_iff (p : Image) (check : Nat) :
    (∀ n < check, headPasses p n) ↔
      (1 < check → headPasses p 1) ∧ (2 < check → headPasses p 2) ∧ (3 < check → headPasses p 3) := by
  refine ⟨fun h => ⟨h 1, h 2, h 3⟩, fun ⟨h1, h2, h3⟩ n hn => ?_⟩
  by_cases hcheck : n = 1 ∨ n = 2 ∨ n = 3
  · obtain rfl | rfl | rfl := hcheck
    · exact h1 hn
    · exact h2 hn
    · exact h3 hn
  · exact ⟨by omega, by omega, by omega⟩

/-- The first condition of the table that does not hold is the first cross-field check that fails. -/
theorem crossConditions_find (p : Image) (k : Nat) (hfields : ∀ c ∈ fieldChecks, c.2 p = true) :
    ((crossConditions p).find? fun c => !c.2) = some (k, false) ↔ firstFailing p crossChecks = some k := by
  rw [← crossChecks_eq p hfields, List.find?_map, firstFailing, Option.map_eq_some_iff, Option.map_eq_some_iff]
  refine exists_congr fun c => and_congr_right fun hc => ?_
  have hfails : c.2 p = false := by simpa using List.find?_some hc
  simp [hfails]

/-- The checks in order reject an image as R177 does. -/
theorem imageFailure_iff (p : Image) (k check : Nat) : imageFailure p = some (k, check) ↔ imageRejected p k check := by
  have hfirst : firstFailing p fieldChecks = some k ↔
      fieldFails p k = true ∧ ∀ a < k, fieldFails p a = false := by
    rw [firstFailing_eq_some p k _ fieldChecks_sorted]
    simp only [← fieldFails_iff, Bool.not_eq_true]
  have hpass : firstFailing p fieldChecks = none ↔ ∀ a < 1024, fieldFails p a = false := by
    rw [firstFailing_eq_none, fieldChecks_pass_iff]
  unfold imageRejected imageFailure
  rw [headsPass_iff, headPasses_one, headPasses_two, headPasses_three]
  by_cases h1 : crc16 (p.take 1022) = u16 p 1022
  case neg =>
    rw [if_pos h1]
    constructor
    · rintro ⟨rfl, rfl⟩
      simp [h1]
    · rintro ⟨⟨hone, -⟩, ⟨rfl, rfl, -⟩ | ⟨rfl, -⟩ | ⟨rfl, -⟩ | ⟨rfl, -⟩ | ⟨rfl, -⟩⟩ <;> simp_all
  by_cases h2 : u8 p 0 = 3
  case neg =>
    rw [if_neg (not_not.mpr h1), if_pos h2]
    constructor
    · rintro ⟨rfl, rfl⟩
      simp [h1, h2]
    · rintro ⟨⟨-, htwo, -⟩, ⟨rfl, rfl, hfails⟩ | ⟨rfl, rfl, -⟩ | ⟨rfl, -⟩ | ⟨rfl, -⟩ | ⟨rfl, -⟩⟩ <;> simp_all
  by_cases h3 : u16 p 2 = 1024
  case neg =>
    rw [if_neg (not_not.mpr h1), if_neg (not_not.mpr h2), if_pos h3]
    constructor
    · rintro ⟨rfl, rfl⟩
      simp [h1, h2, h3]
    · rintro ⟨⟨-, -, hthree⟩, ⟨rfl, rfl, hfails⟩ | ⟨rfl, rfl, hfails⟩ | ⟨rfl, rfl, -⟩ | ⟨rfl, -⟩ | ⟨rfl, -⟩⟩ <;> simp_all
  simp only [h1, h2, h3, ne_eq, not_true_eq_false, if_false, implies_true, true_and, and_false, false_or]
  cases hfield : firstFailing p fieldChecks with
  | some j =>
    have hnotAll : ¬∀ a < 1024, fieldFails p a = false := by simp [← hpass, hfield]
    rw [← hfirst, hfield]
    simp only [hnotAll, Option.some.injEq, Prod.mk.injEq, false_and, and_false, or_false]
    exact ⟨fun ⟨hk, hcheck⟩ => ⟨hcheck.symm, hk⟩, fun ⟨hcheck, hk⟩ => ⟨hk, hcheck.symm⟩⟩
  | none =>
    have hall := hpass.mp hfield
    have hnone : ¬(fieldFails p k = true ∧ ∀ a < k, fieldFails p a = false) := by simp [← hfirst, hfield]
    rw [crossConditions_find p k ((fieldChecks_pass_iff p).mpr hall)]
    constructor
    · intro h
      obtain ⟨j, hj, heq⟩ := Option.map_eq_some_iff.mp h
      obtain ⟨rfl, rfl⟩ := Prod.mk.inj heq
      exact .inr ⟨rfl, hall, hj⟩
    · rintro (⟨-, hfails⟩ | ⟨rfl, -, hj⟩)
      · exact absurd hfails hnone
      · exact Option.map_eq_some_iff.mpr ⟨k, hj, rfl⟩

/-- The checks accept an image as R177 does. -/
theorem validImage_iff (p : Image) : validImage p = true ↔ imageAccepted p := by
  unfold imageAccepted
  rw [headsPass_iff, headPasses_one, headPasses_two, headPasses_three, ← fieldChecks_pass_iff]
  unfold validImage imageFailure
  by_cases h1 : crc16 (p.take 1022) = u16 p 1022
  case neg => simp [h1]
  by_cases h2 : u8 p 0 = 3
  case neg => simp [h1, h2]
  by_cases h3 : u16 p 2 = 1024
  case neg => simp [h1, h2, h3]
  by_cases hfields : ∀ c ∈ fieldChecks, c.2 p = true
  case neg =>
    obtain ⟨k, hk⟩ := Option.ne_none_iff_exists'.mp fun h => hfields ((firstFailing_eq_none p _).mp h)
    simp only [h1, h2, h3, hk, hfields, ne_eq, not_true_eq_false, if_false, Option.isNone_some, Bool.false_eq_true,
      false_and, and_false]
  have hcross : (∀ c ∈ crossConditions p, c.2 = true) ↔ ∀ c ∈ crossChecks, c.2 p = true := by
    rw [← crossChecks_eq p hfields]
    simp only [List.forall_mem_map]
  rw [hcross, ← firstFailing_eq_none p crossChecks, (firstFailing_eq_none p fieldChecks).mpr hfields]
  simp only [h1, h2, h3, ne_eq, not_true_eq_false, if_false, Option.isNone_map, Option.isNone_iff_eq_none,
    implies_true, true_and]
  exact ⟨fun h => ⟨hfields, h⟩, fun ⟨_, h⟩ => h⟩

end Sys2Proof.Machine
end

