-- ==== Sys2Proof/Proofs/ProfileSafety.lean ====
section
/-!
The statement that only valid profiles run (R114, R176 to R180). Every change keeps the images and the commit, but for the
one that begins a commit of a valid staged image; no change writes the staging area while a commit is in flight.
-/

namespace Sys2Proof.Machine

open State (Change Changes)

/-! ### The staging area -/

theorem Exchange.staged_congr {x y : Exchange} (h : ∀ i < 1024, y.peek (0x800 + i) = x.peek (0x800 + i)) :
    y.staged = x.staged :=
  List.map_congr_left fun i hi => h i (List.mem_range.mp hi)

/-- A write below the staging area leaves it. -/
theorem Exchange.Wrote.staged {x y : Exchange} (h : Exchange.Wrote [(0, 0x800)] x y) : y.staged = x.staged :=
  Exchange.staged_congr fun i hi => h.kept _ (by unfold memorySize; omega) (by simp [outside])

/-- No change but the copying out of the profile writes the staging area (R178). -/
theorem State.Change.writes_below_staging {s t : State} (h : s.Change t) (hc : s.store.commit ≠ .idle) :
    s.xmem.writes [(0, 0x800)] t.xmem := by
  cases h with
  | count n => exact (State.countSlot_writes n s).mono (by decide)
  | code p k c => exact (State.takeCode_writes p k c s).mono (by revert k; decide)
  | railCodes mV mA => exact (State.takeRailCodes_writes mV mA s).mono (by split <;> decide)
  | page f h _ _ => exact h.mono (by decide)
  | airReport f r => exact (State.report_writes .air r (s.mapAir f)).mono (by decide)
  | railState now new => exact (State.setRail_writes now new s).mono (by decide)
  | wait w => exact (State.setWait_writes w s).mono (by decide)
  | restart b => exact (State.setRestartPending_writes b s).mono (by decide)
  | input p levels k _ =>
    unfold State.inputTaken
    dsimp only
    split
    · exact Exchange.writes_refl _ _
    · exact (State.publishInputs_writes p (s.mapRail _)).mono (by decide)
  | record now cause action i before => exact (State.addRecord_writes now cause action i before s).mono (by decide)
  | lateKick rs => exact (State.publishRecords_writes (s.mapMon _)).mono (by decide)
  | ladder i _ _ => exact (State.setLadderIndex_writes i s).mono (by decide)
  | watchdog f now _ _ _ => exact (State.publishWatchdog_writes now (s.mapMon f)).mono (by decide)
  | refusal r => exact (State.setRefusal_writes r s).mono (by decide)
  | clearing now p => exact (State.hostRestartClearing_writes now p s).mono (by decide)
  | fog b => exact (State.publishFog_writes (s.mapKeypad _)).mono (by decide)
  | entry now kind subject _ => exact (State.writeEntry_writes now kind subject s).mono (by decide)
  | gap g _ => exact (State.setGap_writes g s).mono (by decide)
  | readCounter =>
    unfold State.takeReadCounter
    dsimp only
    split
    · exact Exchange.writes_refl _ _
    · exact (State.setReadCounter_writes _ s).mono (by decide)
  | rebaselineEnd code mask => exact (State.endRebaseline_writes code mask s).mono (by decide)
  | raise c => exact (State.raise_writes c s).mono (by decide)
  | acknowledge => exact (Exchange.deliverAcknowledge_writes s.xmem).mono (by decide)
  | enable => exact (Exchange.deliverEnable_writes s.xmem).mono (by decide)
  | complete n r => exact (Exchange.complete_writes n.isLt r s.xmem).mono (by decide)
  | accept b n _ _ => exact (State.accept_writes b n s).mono (by revert n; decide)
  | storeReport r => exact (State.report_writes .store r s).mono (by decide)
  | readOut p h => exact absurd h hc
  | time | sense | climate | air | rail | monitor | keypad | engine | store | commit => exact Exchange.writes_refl _ _

/-! ### The images and the ladder -/

/-- Nothing of the images and of the commit changes. -/
def Store.sameImages (a b : Store) : Prop :=
  b.active = a.active ∧ b.commit = a.commit ∧ b.stagingHeld = a.stagingHeld ∧ b.storedImage = a.storedImage

theorem State.Change.sameImages {s t : State} (h : s.Change t) :
    s.store.sameImages t.store ∨ (s.store.commit = .idle ∧ validImage s.xmem.staged = true ∧
      ∃ b, t = s.mapStore fun r => { r with commit := .programming, stagingHeld := true, programmingBegan := b }) := by
  unfold Store.sameImages
  cases h with
  | commit b hc hv => exact .inr ⟨hc, hv, b, rfl⟩
  | store f ha _ hc hh hi => exact .inl ⟨ha, hc, hh, hi⟩
  | railCodes mV mA => left; unfold State.takeRailCodes; dsimp only; split <;> simp
  | readCounter => left; unfold State.takeReadCounter; dsimp only; split <;> simp
  | input => left; unfold State.inputTaken; dsimp only; split <;> simp
  | _ => left; simp

/-- The images stand, and the staging area where one is being programmed. -/
theorem State.profileSound_of {s t : State} (h : s.profileSound = true) (hi : s.store.sameImages t.store)
    (hx : s.store.commit = .programming → t.xmem.staged = s.xmem.staged) : t.profileSound = true := by
  obtain ⟨ha, hc, hh, hi⟩ := hi
  unfold State.profileSound at h ⊢
  rw [ha, hc, hh, hi]
  cases hs : s.store.commit with
  | programming => simpa only [hs, hx hs] using h
  | idle => simpa only [hs] using h
  | armed => simpa only [hs] using h

theorem State.Change.profileSound {s t : State} (h : s.Change t) (hwf : s.xmem.wf = true)
    (hs : s.profileSound = true) : t.profileSound = true := by
  obtain hi | ⟨hc, hv, b, rfl⟩ := h.sameImages
  · exact State.profileSound_of hs hi fun hp => (h.writes_below_staging (by rw [hp]; decide) hwf).staged
  · unfold State.profileSound at hs ⊢
    simp only [hc, Bool.and_eq_true] at hs
    simp [hs.1, hv]

/-- An arming or disarming moves the watchdog's stage alone (R121). -/
theorem State.setArmed_mon (now : SlotCount) (p : Image) (b : Bool) (s : State) :
    ∃ w e x f, (s.setArmed now p b).mon =
      { s.mon with armed := b, watchdog := w, stageEnd := e, expected := x, pausedFrom := f } := by
  simp only [State.setArmed, State.startWatchdog, State.enterPaused, State.enterGrace, State.enterDormant,
    State.publishWatchdog_frame]
  (repeat' split) <;> exact ⟨_, _, _, _, rfl⟩

/-- Host restart clearing leaves the ladder, the records and the refusal (R122). -/
theorem State.hostRestartClearing_mon (now : SlotCount) (p : Image) (s : State) :
    ∃ w e f, (s.hostRestartClearing now p).mon =
      { s.mon with
        runtimeSet := Profile.stages p, armed := Profile.watchdogArmed p, watchdog := w, stageEnd := e, expected := none
        pausedFrom := f } := by
  have hmon : (s.hostRestartClearing now p).mon = ((s.clearOverrides.clearAir).clearMonitor now p).mon := by
    simp [State.hostRestartClearing]
  obtain ⟨w, e, x, f, harmed⟩ := State.setArmed_mon now p (Profile.watchdogArmed p)
    ((s.clearOverrides.clearAir).mapMon fun m => { m with runtimeSet := Profile.stages p })
  refine ⟨w, e, f, ?_⟩
  rw [hmon, State.clearMonitor, State.mapMon_mon, harmed]
  simp

theorem State.Change.ladderIndex {s t : State} (h : s.Change t) :
    t.mon.ladderIndex = s.mon.ladderIndex ∨
      ((s.store.active = none → t.mon.ladderIndex = 0) ∧
        ∀ p, s.store.active = some p → s.mon.ladderIndex ≤ Profile.ladderLength p →
          t.mon.ladderIndex ≤ Profile.ladderLength p) := by
  cases h with
  | ladder i hnone h => right; simpa using ⟨hnone, h⟩
  | monitor f _ _ hl _ => exact .inl hl
  | watchdog f now _ hl _ => left; simpa using hl
  | railCodes mV mA => left; unfold State.takeRailCodes; dsimp only; split <;> simp
  | readCounter => left; unfold State.takeReadCounter; dsimp only; split <;> simp
  | input => left; unfold State.inputTaken; dsimp only; split <;> simp
  | clearing now p =>
    obtain ⟨w, e, f, hmon⟩ := State.hostRestartClearing_mon now p s
    rw [hmon]
    exact .inl rfl
  | railState now new =>
    left
    rw [State.setRail_mon, Monitor.railChanged_eq]
  | record => left; simp [State.addRecord, State.setRefusal]
  | refusal => left; simp [State.setRefusal]
  | _ => left; simp

theorem State.Change.ladderBounded {s t : State} (h : s.Change t) (hs : s.ladderBounded = true) :
    t.ladderBounded = true := by
  unfold State.ladderBounded at hs ⊢
  rw [h.active]
  obtain heq | ⟨hnone, hsome⟩ := h.ladderIndex
  · rw [heq]
    exact hs
  · cases hp : s.store.active with
    | none => simpa using hnone hp
    | some p =>
      simp only [hp, decide_eq_true_eq] at hs ⊢
      exact hsome p hp hs

/-! ### Every event -/

/-- The images are valid and the ladder is within bounds. -/
def State.profileKept (s : State) : Prop := s.profileSound = true ∧ s.ladderBounded = true

theorem State.profileKept_change {s t : State} (hwf : s.xmem.wf = true) (hs : s.profileKept) (h : s.Change t) :
    t.profileKept := ⟨h.profileSound hwf hs.1, h.ladderBounded hs.2⟩

theorem State.powerUp_profileKept (low : Bool) (s : State) : (s.powerUp low).profileKept := ⟨rfl, rfl⟩

theorem State.loadedImage_valid (s : State) : validImage s.loadedImage = true := by
  unfold State.loadedImage
  split
  · assumption
  · exact factoryImage_valid

/-- The load begins with the ladder at its first step, so the first profile finds it within bounds (R176). -/
theorem State.loaded_profileKept {s : State} (hwf : s.xmem.wf = true) (h : s.profileKept)
    (hnone : s.store.active = none) : s.loaded.profileKept := by
  obtain ⟨hsound, hladder⟩ := h
  have hstaged : s.loaded.xmem.staged = s.xmem.staged := (((State.loaded_writes s).mono (by decide)) hwf).staged
  unfold State.profileSound at hsound
  simp only [State.ladderBounded, hnone, beq_iff_eq] at hladder
  constructor
  · unfold State.profileSound
    simpa [State.loaded_store, hstaged, State.loadedImage_valid, hnone] using hsound
  · unfold State.ladderBounded
    simp [State.loaded_store, State.loaded_mon, hladder]

theorem State.beginRail_changes (p : Image) (s : State) : s.Changes (s.beginRail p) := by
  unfold State.beginRail
  exact Changes.ite (fun _ => (State.enterWarming_changes _ p).andThen (.rail _ rfl rfl rfl rfl)) fun _ => .refl s

theorem State.loadProfile_profileKept {s : State} (hwf : s.xmem.wf = true) (h : s.profileKept)
    (hnone : s.store.active = none) : s.loadProfile.profileKept := by
  rw [State.loadProfile_eq]
  exact ((State.beginRail_changes s.loadedImage (s.loaded.mapX fun x => { x with ready := true })).keeps
    (fun _ _ hw hv hc => State.profileKept_change hw hv hc) ((State.loaded_writes s) hwf).wf
    (State.loaded_profileKept hwf h hnone)).2

theorem State.adoptMonitor_ladderIndex (p : Image) (s : State) :
    (s.adoptMonitor p).mon.ladderIndex = min s.mon.ladderIndex (Profile.ladderLength p) := by
  unfold State.adoptMonitor
  split
  · rw [State.setLadderIndex_mon]
    dsimp only
    omega
  · omega

theorem State.forced_profileKept {s : State} (h : s.profileKept) (harmed : s.store.commit = .armed) :
    s.forced.profileKept := by
  have hvalid : validImage s.store.storedImage = true := by
    have := h.1
    simp only [State.profileSound, harmed, Bool.and_eq_true] at this
    exact this.2.2
  constructor
  · unfold State.profileSound
    simp [State.forced_store, hvalid]
  · have hindex : s.forced.mon.ladderIndex ≤ Profile.ladderLength s.store.storedImage := by
      simp [State.forced, State.adoptMonitor_ladderIndex]
    unfold State.ladderBounded
    rw [State.forced_store]
    simpa using hindex

theorem State.boundaryBegun_profileKept {s : State} (h : s.profileKept) : s.boundaryBegun.profileKept := by
  unfold State.boundaryBegun
  split
  · exact State.forced_profileKept (s := s.mapTime _) h ‹_›
  · exact h

theorem State.landHost_profileKept {s : State} {x : Exchange} {cs : List Host.Cell} (h : s.profileKept)
    (hx : s.xmem.Reframed x) (hcs : ∀ c ∈ cs, x.guard s.store.stagingHeld c = true) :
    State.profileKept { s with xmem := x.landHost cs } := by
  refine ⟨State.profileSound_of h.1 ⟨rfl, rfl, rfl, rfl⟩ fun hprog => Exchange.staged_congr fun i hi => ?_, h.2⟩
  have hheld : s.store.stagingHeld = true := by
    have := h.1
    simp only [State.profileSound, hprog, Bool.and_eq_true] at this
    exact this.2.1
  have hinside : 0x800 + i < memorySize := by unfold memorySize; omega
  have hrefused : Held.get cs (0x800 + i) = none := Held.get_eq_none fun b hb => by
    have hguard := hcs _ hb
    have haction : headerAction (0x800 + i) = false := by
      simp [headerAction]
      omega
    simp [Exchange.guard, haction, hheld, show ¬0x800 + i < 0x500 by omega] at hguard
  show (x.landHost cs).peek (0x800 + i) = _
  rw [Exchange.peek_landHost hx.wf hx.held cs hinside, hrefused, Option.getD_none, hx.peek _ hinside]

theorem State.profileKept_eventsKeep {s : State} (hwf : s.xmem.wf = true) (hb : s.bound) (h : s.profileKept) :
    EventsKeep State.profileKept s := by
  refine .of_changes hwf h hb (fun _ _ hwfu hu hc => State.profileKept_change hwfu hu hc)
    (fun low => State.powerUp_profileKept low s) (State.loadProfile_profileKept hwf h) (fun f g => ?_) (fun p now hp => ?_)
    (fun cause p e hp _ => ?_) (fun hprog => ?_) (fun x hx => ?_)
    fun p x cs _ hx hcs => State.delivery_keeps hb (fun _ _ hwfu hu hc => State.profileKept_change hwfu hu hc) hx
      (State.landHost_profileKept h hx hcs)
  · have hstore : (s.setFanSpeed f g).store = s.store := by simp
    have hmon : (s.setFanSpeed f g).mon = s.mon := by simp
    refine ⟨State.profileSound_of h.1 (by simp [Store.sameImages]) fun _ => ?_, ?_⟩
    · exact (((State.setFanSpeed_writes f g s).mono ((by decide : ∀ f : Fin 2,
        rangesCover [(0, 0x800)] [(0x09A + 8 * f.val, 2)] = true) f)) hwf).staged
    · unfold State.ladderBounded
      rw [hstore, hmon]
      exact h.2
  · obtain ⟨u, hbefore, _, hafter⟩ := State.boundaryWork_changes now p hb
    have hwfbegun := State.boundaryBegun_wf hwf
    obtain ⟨hwfu, hu⟩ := hbefore.keeps (fun _ _ hw hv hc => State.profileKept_change hw hv hc) hwfbegun
      (State.boundaryBegun_profileKept h)
    have hwrites := State.climateBoundary_writes now (s.profileAfter p) u
    have hallotted : (u.climateBoundary now (s.profileAfter p)).1.profileKept := by
      have hstore : (u.climateBoundary now (s.profileAfter p)).1.store = u.store := by simp
      have hmon : (u.climateBoundary now (s.profileAfter p)).1.mon = u.mon := by simp
      refine ⟨State.profileSound_of hu.1 (by simp [Store.sameImages]) fun _ =>
        ((hwrites.mono (by decide)) hwfu).staged, ?_⟩
      unfold State.ladderBounded
      rw [hstore, hmon]
      exact hu.2
    exact (hafter.keeps (fun _ _ hw hv hc => State.profileKept_change hw hv hc) (hwrites hwfu).wf hallotted).2
  · obtain ⟨u, hu, hafter⟩ := State.expire_changes cause e hp
    obtain ⟨hwfu, hku⟩ := hu.keeps (fun _ _ hw hv hc => State.profileKept_change hw hv hc) hwf h
    exact (hafter.keeps (fun _ _ hw hv hc => State.profileKept_change hw hv hc) hwfu hku).2
  · have hsound := h.1
    refine ⟨?_, h.2⟩
    unfold State.profileSound at hsound ⊢
    simpa [hprog] using hsound
  · refine ⟨State.profileSound_of h.1 ⟨rfl, rfl, rfl, rfl⟩ fun _ => Exchange.staged_congr fun i hi => ?_, h.2⟩
    exact hx.peek _ (by unfold memorySize; omega)

end Sys2Proof.Machine

namespace Sys2Proof.Proofs

open Sys2Proof.Machine

/-- Settles O59: every change keeps the images and the commit, and an image comes into force only valid. -/
theorem onlyValidProfilesRun : Obligations.OnlyValidProfilesRun := by
  intro s t hsound hstep
  obtain ⟨hwf, _, _, _, hslips, hprofile, hladder, _⟩ := State.sound_iff.mp hsound
  have hkept : t.profileKept := step_keeps
    (fun rest => State.profileKept_eventsKeep (s := { s with pending := rest }) hwf
      (State.bound_of_slipsSound hslips) ⟨hprofile, hladder⟩)
    hwf ⟨hprofile, hladder⟩ (fun _ h => h) hstep
  obtain ⟨hsound', hbounded⟩ := hkept
  refine ⟨hsound', hbounded, fun p hp => ?_⟩
  simp only [State.profileSound, hp, Bool.and_eq_true] at hsound'
  exact (validImage_iff p).mp hsound'.1

end Sys2Proof.Proofs
end

