-- ==== Sys2Proof/Proofs/SlipSafety.lean ====
section
/-!
The statement that owner bytes and bindings go together (R163, R169). A completion makes no slot TAKEN or STOPREQ and
settles its own; an acceptance takes the slot that its binding names; the host asks for a stop of a TAKEN slot alone.
-/

namespace Sys2Proof.Machine

open State (Change Changes)

/-! ### Owner bytes -/

/-- An owner byte that needs no binding: FREE, POSTED, CHAINED or DONE. -/
def ownerSettled (b : Byte) : Bool := b.toNat ≤ 5 && b != Owner.taken.code && b != Owner.stopreq.code

theorem ownerSettled_code : ∀ o : Owner, o ≠ .taken → o ≠ .stopreq → ownerSettled o.code = true := by
  intro o
  cases o <;> decide

/-- From `x` on the owner bytes stand or become settled. -/
def Exchange.settles (x y : Exchange) : Prop :=
  x.wf = true → y.wf = true ∧
    ∀ n < 16, y.peek (slotAddr n) = x.peek (slotAddr n) ∨ ownerSettled (y.peek (slotAddr n)) = true

theorem Exchange.settles_refl (x : Exchange) : x.settles x := fun h => ⟨h, fun _ _ => .inl rfl⟩

theorem Exchange.settles.trans {x y z : Exchange} (h : x.settles y) (h' : y.settles z) : x.settles z := by
  intro hx
  obtain ⟨hy, hxy⟩ := h hx
  obtain ⟨hz, hyz⟩ := h' hy
  refine ⟨hz, fun n hn => ?_⟩
  obtain heq | hsettled := hyz n hn
  · rw [heq]
    exact hxy n hn
  · exact .inr hsettled

theorem slotAddr_lt {n : Nat} (hn : n < 16) : slotAddr n < memorySize := by
  unfold slotAddr memorySize
  omega

/-- Where no owner byte is written, every owner byte stands. -/
theorem Exchange.writes.settles {rs : List (Nat × Nat)} {x y : Exchange} (h : x.writes rs y)
    (hrs : ∀ n : Fin 16, outside rs (slotAddr n.val) = true) : x.settles y := by
  intro hx
  have hw := h hx
  exact ⟨hw.wf, fun n hn => .inl (hw.kept _ (slotAddr_lt hn) (hrs ⟨n, hn⟩))⟩

/-- The owner byte after a result is written. -/
theorem Exchange.peek_writeResult_owner {x : Exchange} (hx : x.wf = true) {n m : Nat} (hn : n < 16) (hm : m < 16)
    (o : Owner) (code detail : Byte) (payload : List Byte) :
    (x.writeResult n o code detail payload).peek (slotAddr m) =
      if m = n then o.code else x.peek (slotAddr m) := by
  by_cases hmn : m = n
  · subst hmn
    rw [if_pos rfl, Exchange.writeResult, Exchange.peek_partWriteCells hx _ (slotAddr_lt hm)]
    simp [Held.get]
  · rw [if_neg hmn]
    refine ((Exchange.writeResult_writes o code detail payload x) hx).kept _ (slotAddr_lt hm) ?_
    have hapart : slotAddr m < slotAddr n ∨ slotAddr n + 64 ≤ slotAddr m := by unfold slotAddr; omega
    simpa [outside] using hapart

theorem Exchange.writeResult_settles {n : Nat} (hn : n < 16) (o : Owner) (ho : ownerSettled o.code = true)
    (code detail : Byte) (payload : List Byte) (x : Exchange) : x.settles (x.writeResult n o code detail payload) := by
  intro hx
  refine ⟨((Exchange.writeResult_writes o code detail payload x) hx).wf, fun m hm => ?_⟩
  rw [Exchange.peek_writeResult_owner hx hn hm]
  split
  · exact .inr ho
  · exact .inl rfl

theorem Exchange.raise_settles (c : Cause) (x : Exchange) : x.settles (x.raise c) :=
  (Exchange.raise_writes c x).settles (by decide)

theorem Exchange.partWrite_settles {a : Nat} {b : Byte} {x : Exchange}
    (h : ∀ n < 16, slotAddr n = a → ownerSettled b = true) : x.settles (x.partWrite a [b]) := by
  intro hx
  refine ⟨Exchange.wf_partWrite hx _ _, fun n hn => ?_⟩
  by_cases ha : slotAddr n = a
  · rw [Exchange.peek_partWrite hx _ _ (slotAddr_lt hn), ha]
    simpa using .inr (h n hn ha)
  · exact .inl (Exchange.peek_partWrite_of_not_mem hx _ _ (by simp only [List.length_singleton]; omega))

theorem Exchange.followLink_settles (n : Nat) (x : Exchange) : x.settles (x.followLink n) := by
  unfold Exchange.followLink
  split
  · exact Exchange.settles_refl x
  · split
    · exact Exchange.partWrite_settles fun _ _ _ => by decide
    · exact Exchange.partWrite_settles fun m hm hmn => by unfold slotAddr at hmn; omega

theorem Exchange.breakChain_settles (first : Nat) : ∀ (fuel n : Nat) (x : Exchange),
    x.settles (Exchange.breakChain first fuel n x)
  | 0, _, x => Exchange.settles_refl x
  | fuel + 1, n, x => by
    unfold Exchange.breakChain
    split
    · exact Exchange.settles_refl x
    · rename_i m hm
      split
      · exact ((Exchange.writeResult_settles (Exchange.nextSlot_lt hm) .done (by decide) _ _ _ x).trans
          (Exchange.raise_settles .slipDone _)).trans (Exchange.breakChain_settles first fuel m _)
      · exact Exchange.settles_refl x

/-- A completion settles owner bytes alone, and its own among them (R170 to R172). -/
theorem Exchange.complete_settles {n : Nat} (hn : n < 16) (r : SlipResult) (x : Exchange) :
    x.settles (x.complete n r) ∧ (x.wf = true → ownerSettled ((x.complete n r).peek (slotAddr n)) = true) := by
  have hresult := Exchange.writeResult_settles hn .done (by decide) r.code.code r.detail r.payload x
  have hrest : (x.writeResult n .done r.code.code r.detail r.payload).settles (x.complete n r) := by
    unfold Exchange.complete
    dsimp only
    refine Exchange.settles.trans ?_ (Exchange.raise_settles .slipDone _)
    split
    · exact Exchange.followLink_settles n _
    · exact Exchange.breakChain_settles n 16 n _
  refine ⟨hresult.trans hrest, fun hx => ?_⟩
  obtain heq | hsettled := (hrest (hresult hx).1).2 n hn
  · rw [heq, Exchange.peek_writeResult_owner hx hn hn, if_pos rfl]
    decide
  · exact hsettled

/-! ### Owner bytes and bindings -/

/-- Every owner byte holds one of the six values, and one that needs a binding has one. -/
def State.ownersKept (s : State) : Prop :=
  ∀ n : Fin 16, (s.xmem.peek (slotAddr n.val)).toNat ≤ 5 ∧
    (s.engine.names n = true ∨ ownerSettled (s.xmem.peek (slotAddr n.val)) = true)

theorem State.ownersKept_of {s t : State} (hwf : s.xmem.wf = true) (h : s.ownersKept) (hx : s.xmem.settles t.xmem)
    (hnames : ∀ n : Fin 16, s.engine.names n = true →
      t.engine.names n = true ∨ ownerSettled (t.xmem.peek (slotAddr n.val)) = true) : t.ownersKept := by
  intro n
  obtain heq | hsettled := (hx hwf).2 n n.isLt
  · obtain ⟨hknown, hn | hn⟩ := h n
    · exact ⟨heq ▸ hknown, hnames n hn⟩
    · exact ⟨heq ▸ hknown, .inr (heq ▸ hn)⟩
  · exact ⟨by simp [ownerSettled] at hsettled; omega, .inr hsettled⟩

theorem Engine.names_iff (e : Engine) (n : Fin 16) : e.names n = true ↔ ∃ b, e.binding b = some n := by
  constructor
  · intro h
    simp only [Engine.names, Bool.or_eq_true, beq_iff_eq] at h
    obtain (h | h) | h := h
    · exact ⟨.store, h⟩
    · exact ⟨.air, h⟩
    · exact ⟨.keypad, h⟩
  · rintro ⟨b, hb⟩
    cases b <;> simp_all [Engine.names, Engine.binding]

theorem State.report_ownersKept {s : State} (hwf : s.xmem.wf = true) (h : s.ownersKept) (b : LastingBlock)
    (r : SlipResult) : (s.report b r).ownersKept := by
  cases hb : s.engine.binding b with
  | none =>
    have heq : s.report b r = s := by simp [State.report, hb]
    rw [heq]
    exact h
  | some m =>
    have hx : (s.report b r).xmem = s.xmem.complete m.val r := by simp [State.report, hb]
    obtain ⟨hsettles, hown⟩ := Exchange.complete_settles m.isLt r s.xmem
    refine State.ownersKept_of hwf h (hx ▸ hsettles) fun n hn => ?_
    by_cases hnm : n = m
    · exact .inr (by rw [hx, hnm]; exact hown hwf)
    · obtain ⟨c, hc⟩ := (Engine.names_iff _ _).mp hn
      refine .inl ((Engine.names_iff _ _).mpr ⟨c, ?_⟩)
      rw [State.report_binding, if_neg, hc]
      rintro rfl
      exact hnm (Option.some.inj (hc.symm.trans hb))

theorem State.accept_ownersKept {s : State} (hwf : s.xmem.wf = true) (h : s.ownersKept) {b : LastingBlock}
    {m : Fin 16} (hfree : s.engine.binding b = none) : (s.accept b m).ownersKept := by
  intro n
  have hx : (s.accept b m).xmem.peek (slotAddr n.val) =
      if n.val = m.val then Owner.taken.code else s.xmem.peek (slotAddr n.val) :=
    Exchange.peek_writeResult_owner hwf m.isLt n.isLt _ _ _ _
  have hbinding (c : LastingBlock) : (s.accept b m).engine.binding c = if c = b then some m else s.engine.binding c := by
    cases b <;> cases c <;> rfl
  rw [hx]
  by_cases hnm : n = m
  · subst hnm
    rw [if_pos rfl]
    exact ⟨by decide, .inl ((Engine.names_iff _ _).mpr ⟨b, by simp [hbinding]⟩)⟩
  · rw [if_neg fun heq => hnm (Fin.ext heq)]
    obtain ⟨hknown, hn | hn⟩ := h n
    · obtain ⟨c, hc⟩ := (Engine.names_iff _ _).mp hn
      refine ⟨hknown, .inl ((Engine.names_iff _ _).mpr ⟨c, ?_⟩)⟩
      rw [hbinding, if_neg, hc]
      rintro rfl
      simp [hfree] at hc
    · exact ⟨hknown, .inr hn⟩

/-- Host restart clearing frees every slot (R174). -/
theorem State.hostRestartClearing_free {s : State} (hwf : s.xmem.wf = true) (now : SlotCount) (p : Image) {a : Nat}
    (ha : 0x100 ≤ a ∧ a < 0x500) : (s.hostRestartClearing now p).xmem.peek a = 0 := by
  have hinside : a < memorySize := by unfold memorySize; omega
  have hmonitor := (State.clearMonitor_writes now p (s.clearOverrides.clearAir)) hwf
  have hkeypad := (State.clearKeypad_writes ((s.clearOverrides.clearAir).clearMonitor now p)) hmonitor.wf
  have hslips := (State.clearSlips_writes (((s.clearOverrides.clearAir).clearMonitor now p).clearKeypad)) hkeypad.wf
  have hattention := (Exchange.clearAttention_writes
    ((((s.clearOverrides.clearAir).clearMonitor now p).clearKeypad).clearSlips).xmem) hslips.wf
  have hzero : ((((s.clearOverrides.clearAir).clearMonitor now p).clearKeypad).clearSlips).xmem.peek a = 0 := by
    have hpeek := Exchange.peek_partWrite hkeypad.wf 0x100 (List.replicate 1024 0) hinside
    rw [if_pos ha.1, List.getElem?_replicate, if_pos (by omega)] at hpeek
    exact hpeek
  have hkept := hattention.kept a hinside (by simp [outside]; omega)
  rw [hzero] at hkept
  exact hkept

theorem State.hostRestartClearing_ownersKept {s : State} (hwf : s.xmem.wf = true) (now : SlotCount) (p : Image) :
    (s.hostRestartClearing now p).ownersKept := by
  intro n
  rw [State.hostRestartClearing_free hwf now p (by unfold slotAddr; omega)]
  exact ⟨by decide, .inr (by decide)⟩

theorem State.ownersKept_of_writes {rs : List (Nat × Nat)} {s t : State} (hwf : s.xmem.wf = true) (h : s.ownersKept)
    (hx : s.xmem.writes rs t.xmem) (hrs : ∀ n : Fin 16, outside rs (slotAddr n.val) = true)
    (he : t.engine = s.engine) : t.ownersKept :=
  State.ownersKept_of hwf h (hx.settles hrs) fun _ hn => .inl (he ▸ hn)

theorem State.Change.ownersKept {s t : State} (hwf : s.xmem.wf = true) (h : s.Change t) (hs : s.ownersKept) :
    t.ownersKept := by
  cases h with
  | count n => exact State.ownersKept_of_writes hwf hs (State.countSlot_writes n s) (by decide) (by simp)
  | code p k c =>
    exact State.ownersKept_of_writes hwf hs (State.takeCode_writes p k c s) (by revert k; decide) (by simp)
  | railCodes mV mA =>
    refine State.ownersKept_of_writes hwf hs (State.takeRailCodes_writes mV mA s) (by split <;> decide) ?_
    unfold State.takeRailCodes
    dsimp only
    split <;> simp
  | page f h _ _ => exact State.ownersKept_of_writes hwf hs h (by decide) rfl
  | airReport f r => exact State.report_ownersKept (s := s.mapAir f) hwf hs .air r
  | railState now new => exact State.ownersKept_of_writes hwf hs (State.setRail_writes now new s) (by decide) (by simp)
  | wait w => exact State.ownersKept_of_writes hwf hs (State.setWait_writes w s) (by decide) (by simp)
  | restart b => exact State.ownersKept_of_writes hwf hs (State.setRestartPending_writes b s) (by decide) (by simp)
  | input p levels k _ =>
    unfold State.inputTaken
    dsimp only
    split
    · exact hs
    · exact State.ownersKept_of_writes (t := (s.mapRail _).publishInputs p) (s := s.mapRail _) hwf hs
        (State.publishInputs_writes p (s.mapRail _)) (by decide) (by simp)
  | record now cause action i before =>
    exact State.ownersKept_of_writes hwf hs (State.addRecord_writes now cause action i before s) (by decide) (by simp)
  | lateKick rs =>
    exact State.ownersKept_of_writes (s := s.mapMon _) hwf hs (State.publishRecords_writes (s.mapMon _)) (by decide)
      (by simp)
  | ladder i _ _ => exact State.ownersKept_of_writes hwf hs (State.setLadderIndex_writes i s) (by decide) (by simp)
  | watchdog f now _ _ _ =>
    exact State.ownersKept_of_writes (s := s.mapMon f) hwf hs (State.publishWatchdog_writes now (s.mapMon f)) (by decide)
      (by simp)
  | refusal r => exact State.ownersKept_of_writes hwf hs (State.setRefusal_writes r s) (by decide) (by simp)
  | clearing now p => exact State.hostRestartClearing_ownersKept hwf now p
  | fog b =>
    exact State.ownersKept_of_writes (s := s.mapKeypad _) hwf hs (State.publishFog_writes (s.mapKeypad _)) (by decide)
      (by simp)
  | entry now kind subject _ =>
    exact State.ownersKept_of_writes hwf hs (State.writeEntry_writes now kind subject s) (by decide)
      (by simp [State.writeEntry])
  | gap g _ => exact State.ownersKept_of_writes hwf hs (State.setGap_writes g s) (by decide) (by simp)
  | readCounter =>
    unfold State.takeReadCounter
    dsimp only
    split
    · exact hs
    · exact State.ownersKept_of_writes hwf hs (State.setReadCounter_writes _ s) (by decide) (by simp)
  | rebaselineEnd code mask => exact State.report_ownersKept (s := s.mapKeypad _) hwf hs .keypad _
  | raise c => exact State.ownersKept_of_writes hwf hs (State.raise_writes c s) (by decide) (by simp)
  | acknowledge =>
    exact State.ownersKept_of_writes hwf hs (t := s.mapX _) (Exchange.deliverAcknowledge_writes s.xmem) (by decide) rfl
  | enable =>
    exact State.ownersKept_of_writes hwf hs (t := s.mapX _) (Exchange.deliverEnable_writes s.xmem) (by decide) rfl
  | engine f hf =>
    refine State.ownersKept_of hwf hs (Exchange.settles_refl _) fun n hn => .inl ?_
    obtain ⟨b, hb⟩ := (Engine.names_iff _ _).mp hn
    exact (Engine.names_iff _ _).mpr ⟨b, (hf b).trans hb⟩
  | complete n r =>
    exact State.ownersKept_of (t := s.mapX _) hwf hs (Exchange.complete_settles n.isLt r s.xmem).1 fun _ hn => .inl hn
  | accept b n hfree _ => exact State.accept_ownersKept hwf hs hfree
  | storeReport r => exact State.report_ownersKept hwf hs .store r
  | readOut p h =>
    refine State.ownersKept_of_writes (t := s.mapX _) hwf hs
      (Exchange.writes_partWrite (rs := [(0x800, p.length)]) (by simp [rangeWithin]) s.xmem) (fun n => ?_) rfl
    have hbelow : slotAddr n.val < 0x800 := by unfold slotAddr; omega
    simp [outside, hbelow]
  | time | sense | climate | air | rail | monitor | keypad | store | commit => exact hs

/-! ### Every event -/

/-- The owner bytes and the bindings go together. -/
def State.slipsKept (s : State) : Prop := s.ownersKept ∧ s.bound

theorem State.slipsSound_iff {s : State} : s.slipsSound = true ↔ s.slipsKept := by
  have howner (b : Byte) : ownerSettled b = true ↔ b.toNat ≤ 5 ∧ (b == Owner.taken.code || b == Owner.stopreq.code) = false := by
    simp [ownerSettled, and_assoc]
  constructor
  · intro h
    refine ⟨fun n => ?_, State.bound_of_slipsSound h⟩
    simp only [State.slipsSound, Bool.and_eq_true, List.all_eq_true, List.mem_finRange, true_imp_iff] at h
    obtain ⟨⟨⟨howners, _⟩, _⟩, _⟩ := h
    obtain ⟨hknown, hnamed⟩ := howners n
    have hle : (s.xmem.peek (slotAddr n.val)).toNat ≤ 5 := by simpa [Exchange.ownerKnown] using hknown
    refine ⟨hle, ?_⟩
    simp only [Bool.or_eq_true, Bool.not_eq_true'] at hnamed
    exact hnamed.imp_right fun h => (howner _).mpr ⟨hle, h⟩
  · rintro ⟨howners, hbound⟩
    simp only [State.slipsSound, Bool.and_eq_true, List.all_eq_true, List.mem_finRange, true_imp_iff]
    refine ⟨⟨⟨fun n => ⟨?_, ?_⟩, ?_⟩, ?_⟩, ?_⟩
    · simpa [Exchange.ownerKnown] using (howners n).1
    · simp only [Bool.or_eq_true, Bool.not_eq_true']
      exact (howners n).2.imp_right fun h => ((howner _).mp h).2
    · have := hbound .air trivial
      cases hair : s.engine.airSlot with
      | none => rfl
      | some m =>
        obtain ⟨hphase, hslip⟩ := this (by simp [Engine.binding, hair])
        simp only [Probe.bySlip, Bool.or_eq_true] at hslip
        simpa using ⟨hphase, by simpa using hslip⟩
    · have := hbound .keypad trivial
      cases hkeypad : s.engine.keypadSlot with
      | none => rfl
      | some m => simpa [State.inFlight] using this (by simp [Engine.binding, hkeypad])
    · have := hbound .store trivial
      cases hstore : s.engine.storeSlot with
      | none => rfl
      | some m => simpa [State.inFlight] using this (by simp [Engine.binding, hstore])

theorem State.slipsKept_change {s t : State} (hwf : s.xmem.wf = true) (hs : s.slipsKept) (h : s.Change t) :
    t.slipsKept := ⟨h.ownersKept hwf hs.1, h.boundOn hs.2⟩

/-- The bindings at a boundary: the store's is gone with its commit, the others have their operations (R169, R180). -/
theorem State.boundaryWork_bound {s : State} (now : SlotCount) (old : Image) (hb : s.bound) :
    (s.boundaryWork now old).bound := by
  have htimed : (s.mapTime fun t => { t with boundaryTaken := true }).bound := hb
  have hafter (v : State) (p : Image) (hv : v.bound) :
      ((((v.climateBoundary now p).1.takeEdges (v.climateBoundary now p).2).decideScan now p 0).arbitrate now p).bound := by
    have hallotted : (v.climateBoundary now p).1.bound :=
      State.boundOn_of_eq hv (by simp) (by simp) (by simp) (by simp)
    have hdecided := ((State.takeEdges_changes (v.climateBoundary now p).2).trans
      (State.decideScan_changes now p 0)).bound hallotted
    exact (State.arbitrate_changes now p hdecided).bound hdecided
  have hair (u : State) (p : Image) (hu : u.bound) : (u.airBoundary now p).bound :=
    (State.airBoundary_changes now p).bound hu
  rw [State.boundaryWork_eq]
  unfold State.activateDue State.boundaryWorked
  split
  · have hactive := State.activate_bound now old htimed
    exact hafter _ _ (hair _ _ ((State.arbitrate_changes now s.store.storedImage hactive).bound hactive))
  · exact hafter _ _ (hair _ _ htimed)

theorem hostTransition_settles {cur new : Byte} (h : hostTransition cur new = true) :
    new.toNat ≤ 5 ∧ (ownerSettled cur = true → ownerSettled new = true) := by
  simp only [hostTransition, Bool.or_eq_true, Bool.and_eq_true, beq_iff_eq] at h
  obtain (((⟨rfl, rfl | rfl⟩ | ⟨rfl, rfl⟩) | ⟨rfl, rfl⟩) | ⟨rfl, rfl⟩) | ⟨rfl, rfl | rfl⟩ := h <;> decide

/-- A landing changes an owner byte by a host transition alone (R156, R164). -/
theorem State.landHost_ownersKept {s : State} {x : Exchange} {cs : List Host.Cell} (h : s.ownersKept)
    (hx : s.xmem.Reframed x) (hcs : ∀ c ∈ cs, x.guard s.store.stagingHeld c = true) :
    State.ownersKept { s with xmem := x.landHost cs } := by
  intro n
  have hinside := slotAddr_lt n.isLt
  obtain ⟨hknown, hnamed⟩ := h n
  have hpeek : (x.landHost cs).peek (slotAddr n.val) = (Held.get cs (slotAddr n.val)).getD (s.xmem.peek (slotAddr n.val)) := by
    rw [Exchange.peek_landHost hx.wf hx.held cs hinside, hx.peek _ hinside]
  dsimp only
  rw [hpeek]
  cases hget : Held.get cs (slotAddr n.val) with
  | none => exact ⟨hknown, hnamed⟩
  | some b =>
    have hguard := hcs _ (Held.get_eq_some hget)
    have haction : headerAction (slotAddr n.val) = false :=
      (by decide : ∀ n : Fin 16, headerAction (slotAddr n.val) = false) n
    have htable : 0x100 ≤ slotAddr n.val ∧ slotAddr n.val < 0x500 ∧ (slotAddr n.val - 0x100) % 64 = 0 := by
      unfold slotAddr
      omega
    simp only [Exchange.guard, haction, htable, Bool.false_eq_true, if_false, if_true, and_self,
      hx.peek _ hinside] at hguard
    obtain ⟨hnew, hsettles⟩ := hostTransition_settles hguard
    exact ⟨hnew, hnamed.imp_right hsettles⟩

theorem State.loadProfile_slipsKept {s : State} (hwf : s.xmem.wf = true) (h : s.slipsKept) :
    s.loadProfile.slipsKept := by
  rw [State.loadProfile_eq]
  have hwrites := State.loaded_writes s
  have hair : s.loaded.air.probe = s.air.probe := by
    unfold State.loaded
    dsimp only
    split <;> simp [State.loadReference]
  have hkeypad : s.loaded.keypad.rebaseline = s.keypad.rebaseline := by
    unfold State.loaded
    dsimp only
    split <;> simp [State.loadReference, State.beginKeypad, State.beginMonitor]
  have hloaded : s.loaded.slipsKept :=
    ⟨State.ownersKept_of_writes hwf h.1 hwrites (by decide) (by simp),
      State.boundOn_of_eq h.2 (by simp) hair hkeypad (by simp [State.loaded_store])⟩
  exact ((State.beginRail_changes s.loadedImage (s.loaded.mapX fun x => { x with ready := true })).keeps
    (fun _ _ hw hv hc => State.slipsKept_change hw hv hc) (hwrites hwf).wf hloaded).2

/-- At power-on every slot is FREE and nothing is bound (R166). -/
theorem State.powerUp_slipsKept (low : Bool) (s : State) : (s.powerUp low).slipsKept := by
  have hreset : State.reset.ownersKept := by
    unfold State.ownersKept
    decide +kernel
  refine ⟨hreset, fun b _ hb => ?_⟩
  cases b <;> cases hb

/-- The allotment of a boundary writes figures alone. -/
theorem State.climateBoundary_ownersKept {s : State} (hwf : s.xmem.wf = true) (now : SlotCount) (p : Image)
    (h : s.ownersKept) : (s.climateBoundary now p).1.ownersKept :=
  State.ownersKept_of_writes hwf h (State.climateBoundary_writes now p s) (by decide) (by simp)

/-- An image in force leaves the slip table (R180). -/
theorem State.boundaryBegun_ownersKept {s : State} (hwf : s.xmem.wf = true) (h : s.ownersKept) :
    s.boundaryBegun.ownersKept := by
  refine State.ownersKept_of_writes hwf h State.boundaryBegun_writes (by decide) ?_
  unfold State.boundaryBegun
  split <;> simp [State.forced, State.bringIntoForce]

theorem State.slipsKept_eventsKeep {s : State} (hwf : s.xmem.wf = true) (h : s.slipsKept) :
    EventsKeep State.slipsKept s := by
  have hchange (u v : State) (hw : u.xmem.wf = true) (hu : u.slipsKept) (hc : u.Change v) : v.slipsKept :=
    State.slipsKept_change hw hu hc
  refine .of_changes hwf h h.2 hchange (fun low => State.powerUp_slipsKept low s)
    (fun _ => State.loadProfile_slipsKept hwf h) (fun f g => ⟨?_, ?_⟩) (fun p now hp => ⟨?_, ?_⟩)
    (fun cause p e hp _ => ?_) (fun hprog => ⟨h.1, ?_⟩) (fun x hx => ⟨fun n => ?_, h.2⟩)
    fun p x cs _ hx hcs => State.delivery_keeps h.2 hchange hx ⟨State.landHost_ownersKept h.1 hx hcs, h.2⟩
  · exact State.ownersKept_of_writes (t := s.setFanSpeed f g) hwf h.1 (State.setFanSpeed_writes f g s)
      ((by decide : ∀ (f : Fin 2) (n : Fin 16), outside [(0x09A + 8 * f.val, 2)] (slotAddr n.val) = true) f) (by simp)
  · have hprobe : (s.setFanSpeed f g).air.probe = s.air.probe := by
      unfold State.setFanSpeed
      dsimp only
      split <;> rfl
    exact State.boundOn_of_eq (t := s.setFanSpeed f g) h.2 (by simp) hprobe (by simp) (by simp)
  · obtain ⟨u, hbefore, _, hafter⟩ := State.boundaryWork_changes now p h.2
    have hkeeps (v w : State) (hw : v.xmem.wf = true) (hv : v.ownersKept) (hc : v.Change w) : w.ownersKept :=
      hc.ownersKept hw hv
    obtain ⟨hwfu, hu⟩ := hbefore.keeps hkeeps (State.boundaryBegun_wf hwf) (State.boundaryBegun_ownersKept hwf h.1)
    exact (hafter.keeps hkeeps ((State.climateBoundary_writes now _ u) hwfu).wf
      (State.climateBoundary_ownersKept hwfu now _ hu)).2
  · exact State.boundaryWork_bound now p h.2
  · obtain ⟨u, hu, hafter⟩ := State.expire_changes cause e hp
    obtain ⟨hwfu, hku⟩ := hu.keeps hchange hwf h
    exact (hafter.keeps hchange hwfu hku).2
  · refine State.boundOn_of h.2 fun b hb => ⟨hb, fun hf => ?_⟩
    cases b with
    | store => exact fun h0 => nomatch h0
    | air => exact hf
    | keypad => exact hf
  · rw [hx.peek _ (slotAddr_lt n.isLt)]
    exact h.1 n

end Sys2Proof.Machine

namespace Sys2Proof.Proofs

open Sys2Proof.Machine

/-- Settles O58: every change keeps each TAKEN slot with its binding and each binding with its operation. -/
theorem slipTableStaysSound : Obligations.SlipTableStaysSound := by
  intro s t hsound hstep
  obtain ⟨hwf, _, _, _, hslips, _⟩ := State.sound_iff.mp hsound
  have hkept := State.slipsSound_iff.mp hslips
  exact State.slipsSound_iff.mpr (step_keeps
    (fun rest => State.slipsKept_eventsKeep (s := { s with pending := rest }) hwf hkept) hwf hkept (fun _ h => h) hstep)

end Sys2Proof.Proofs
end

