-- ==== Sys2Proof/Proofs/Copies.lean ====
section
/-!
SUPPORT. The copies of the blocks' fields that the header, the live page and the restart record region show: each with its
address and its bytes. A publication shows its own copy and leaves the others; every change keeps every copy shown.
-/

namespace Sys2Proof.Machine

open State (Change Changes)

/-! ### The copies -/

/-- A copy of a block's fields in exchange memory (section 10.2, section 10.3, section 10.6). -/
inductive Copy where
  | flags | count | refusal | written | read | gap | rail | watchdog | entry (k : Fin 6) | railValues | average | wait
  | restart | inputs | ladder | fog | records
deriving DecidableEq

def Copy.addr : Copy → Nat
  | .flags => 0x04 | .count => 0x08 | .refusal => 0x13 | .written => 0x14 | .read => 0x16 | .gap => 0x18
  | .rail => 0x19 | .watchdog => 0x1A | .entry k => 0x040 + 8 * k.val | .railValues => 0x08C | .average => 0x090
  | .wait => 0x0AC | .restart => 0x0AD | .inputs => 0x0AE | .ladder => 0x0AF | .fog => 0x0B2 | .records => 0x600

def Copy.length : Copy → Nat
  | .count => 4 | .written => 2 | .read => 2 | .entry _ => 5 | .railValues => 4 | .average => 2 | .records => 256
  | .flags => 1 | .refusal => 1 | .gap => 1 | .rail => 1 | .watchdog => 1 | .wait => 1 | .restart => 1 | .inputs => 1
  | .ladder => 1 | .fog => 1

/-- What a copy shows. Before a profile is active the page shows no input, and nothing is said of the fog (R70, R176). -/
def Copy.bytes (s : State) : Copy → List Byte
  | .flags => [headerFlags s.store.active.isSome (s.store.active.isSome && s.store.factoryActive)]
  | .count => le32 s.time.slotCount.toNat
  | .refusal => [s.mon.lastRefusal.code]
  | .written => le16 s.keypad.writeCounter.toNat
  | .read => le16 s.keypad.readCounter.toNat
  | .gap => [BitVec.ofNat 8 s.keypad.gap]
  | .rail => [s.rail.state.code]
  | .watchdog => [s.mon.watchdog.code]
  | .entry k => s.sense.channels[k].entry
  | .railValues => le16 s.sense.railVoltage ++ le16 s.sense.railCurrent
  | .average => le16 s.sense.railAverage
  | .wait => [s.rail.waitReason.code]
  | .restart => [flagByte s.rail.restartPending]
  | .inputs => [match s.store.active with | some p => s.inputsByte p | none => 0]
  | .ladder => [BitVec.ofNat 8 s.mon.ladderIndex]
  | .fog => match s.store.active with | some _ => [flagByte s.keypad.fog] | none => []
  | .records => recordRegion s.mon.records

/-- The exchange memory shows the copy. -/
def State.shown (s : State) (c : Copy) : Prop := s.xmem.shows c.addr (c.bytes s)

theorem Copy.bytes_length (s : State) (c : Copy) : (c.bytes s).length ≤ c.length := by
  cases c with
  | records => exact le_of_eq (recordRegion_length _)
  | fog => simp only [Copy.bytes, Copy.length]; split <;> simp
  | entry k => exact le_of_eq (Channel.entry_length _)
  | _ => exact le_refl _

/-- No byte of the copy lies in one of the ranges. -/
def Copy.apart (rs : List (Nat × Nat)) (c : Copy) : Bool :=
  rs.all fun r => c.addr + c.length ≤ r.1 || r.1 + r.2 ≤ c.addr

theorem Copy.outside_of_apart {rs : List (Nat × Nat)} {c : Copy} (h : c.apart rs = true) {i : Nat} (hi : i < c.length) :
    outside rs (c.addr + i) = true := by
  simp only [Copy.apart, outside, List.all_eq_true, Bool.or_eq_true, decide_eq_true_eq] at h ⊢
  exact fun r hr => (h r hr).imp (fun _ => by omega) fun _ => by omega

theorem Copy.within (c : Copy) : c.addr + c.length ≤ 0x700 := by
  cases c with
  | entry k => simp only [Copy.addr, Copy.length]; omega
  | _ => decide

/-- Every copy. -/
def Copy.all : List Copy :=
  [.flags, .count, .refusal, .written, .read, .gap, .rail, .watchdog, .railValues, .average, .wait, .restart, .inputs,
    .ladder, .fog, .records] ++ (List.finRange 6).map .entry

theorem Copy.mem_all (c : Copy) : c ∈ Copy.all := by
  cases c with
  | entry k => exact List.mem_append_right _ (List.mem_map_of_mem (List.mem_finRange k))
  | _ => decide

/-- The copies lie apart from each other. -/
theorem Copy.apart_of_ne {c d : Copy} (h : c ≠ d) : c.apart [(d.addr, d.length)] = true := by
  have hall : ∀ c ∈ Copy.all, ∀ d ∈ Copy.all, c ≠ d → c.apart [(d.addr, d.length)] = true := by decide +kernel
  exact hall c c.mem_all d d.mem_all h

/-- Every copy but those of `ds` lies apart from the ranges. -/
def Copy.othersApart (ds : List Copy) (rs : List (Nat × Nat)) : Bool :=
  Copy.all.all fun c => ds.contains c || c.apart rs

theorem Copy.apart_of_others {ds : List Copy} {rs : List (Nat × Nat)} (h : Copy.othersApart ds rs = true) {c : Copy}
    (hc : c ∉ ds) : c.apart rs = true := by
  have := List.all_eq_true.mp h c c.mem_all
  simpa [hc] using this

/-! ### What keeps a copy shown -/

variable {s t : State} {c : Copy}

theorem State.shown_of_writes {rs : List (Nat × Nat)} (hwf : s.xmem.wf = true) (h : s.shown c)
    (hx : s.xmem.writes rs t.xmem) (hrs : c.apart rs = true) (hb : c.bytes t = c.bytes s) : t.shown c := by
  intro i hi
  rw [hb] at hi ⊢
  have hlt : i < c.length := lt_of_lt_of_le hi (c.bytes_length s)
  have hinside : c.addr + i < memorySize := by have := c.within; unfold memorySize; omega
  rw [(hx hwf).kept _ hinside (Copy.outside_of_apart hrs hlt)]
  exact h i hi

/-- A block publishes a copy: the copy is shown, and every other one as before. -/
theorem State.shown_published (d : Copy) (hwf : s.xmem.wf = true) (h : c ≠ d → s.shown c)
    (hb : c ≠ d → c.bytes t = c.bytes s) (hd : d.bytes t ≠ [])
    (ht : t.xmem = s.xmem.partWrite d.addr (d.bytes t)) : t.shown c := by
  have hlength := d.bytes_length t
  by_cases hc : c = d
  · subst hc
    unfold State.shown
    rw [ht]
    exact Exchange.shows_partWrite hwf _ _ (by have := c.within; unfold memorySize; omega)
  · have hwrites : s.xmem.writes [(d.addr, d.length)] t.xmem := by
      rw [ht]
      exact Exchange.writes_partWrite (by simp [rangeWithin, hlength]) _
    exact State.shown_of_writes hwf (h hc) hwrites (Copy.apart_of_ne hc) (hb hc)

/-! ### The operations -/

section operations
variable (hwf : s.xmem.wf = true)
include hwf

theorem State.raise_shown (k : Cause) (h : s.shown c) : (s.raise k).shown c :=
  State.shown_of_writes hwf h (State.raise_writes k s) (Copy.apart_of_others (ds := []) (by decide) (by simp))
    (by cases c <;> rfl)

theorem State.setWait_shown (w : WaitReason) (h : c ≠ .wait → s.shown c) : (s.setWait w).shown c :=
  State.shown_published .wait hwf h (fun hc => by cases c <;> trivial) (by simp [Copy.bytes]) rfl

theorem State.setRestartPending_shown (b : Bool) (h : c ≠ .restart → s.shown c) : (s.setRestartPending b).shown c :=
  State.shown_published .restart hwf h (fun hc => by cases c <;> trivial) (by simp [Copy.bytes]) rfl

theorem State.setGap_shown (g : Nat) (h : c ≠ .gap → s.shown c) : (s.setGap g).shown c :=
  State.shown_published .gap hwf h (fun hc => by cases c <;> trivial) (by simp [Copy.bytes]) rfl

theorem State.setReadCounter_shown (v : Half) (h : c ≠ .read → s.shown c) : (s.setReadCounter v).shown c :=
  State.shown_published .read hwf h (fun hc => by cases c <;> trivial) (by simp [Copy.bytes, le16]) rfl

theorem State.setLadderIndex_shown (i : Nat) (h : c ≠ .ladder → s.shown c) : (s.setLadderIndex i).shown c :=
  State.shown_published .ladder hwf h (fun hc => by cases c <;> trivial) (by simp [Copy.bytes]) rfl

theorem State.setRefusal_shown (r : KickRefusal) (h : c ≠ .refusal → s.shown c) : (s.setRefusal r).shown c :=
  State.shown_published .refusal hwf h (fun hc => by cases c <;> trivial) (by simp [Copy.bytes]) rfl

theorem State.publishRecords_shown_copy (h : c ≠ .records → s.shown c) : s.publishRecords.shown c :=
  State.shown_published .records hwf h (fun hc => by cases c <;> trivial)
    (fun h0 => by simpa using (recordRegion_length s.mon.records).symm.trans (congrArg List.length h0)) rfl

theorem State.countSlot_shown (n : SlotCount) (h : c ≠ .count → s.shown c) : (s.countSlot n).shown c :=
  State.shown_published .count hwf h (fun hc => by cases c <;> trivial) (by simp [Copy.bytes, le32]) rfl

theorem State.formAverage_shown (h : c ≠ .average → s.shown c) : s.formAverage.shown c :=
  State.shown_published .average hwf h (fun hc => by cases c <;> trivial) (by simp [Copy.bytes, le16]) rfl

theorem State.publishInputs_shown {p : Image} (hp : s.store.active = some p) (h : c ≠ .inputs → s.shown c) :
    (s.publishInputs p).shown c := by
  refine State.shown_published .inputs hwf h (fun hc => by cases c <;> trivial) (by simp [Copy.bytes]) ?_
  have hbytes : Copy.bytes (s.publishInputs p) .inputs = [s.inputsByte p] := by
    have hactive : (s.publishInputs p).store.active = some p := hp
    simp only [Copy.bytes, hactive]
    rfl
  rw [hbytes]
  rfl

theorem State.publishFog_shown (h : c ≠ .fog → s.shown c) : s.publishFog.shown c := by
  cases hp : s.store.active with
  | some p =>
    have hbytes : Copy.bytes s.publishFog .fog = [flagByte s.keypad.fog] := by
      have hactive : s.publishFog.store.active = some p := hp
      simp only [Copy.bytes, hactive]
      rfl
    refine State.shown_published .fog hwf h (fun hc => by cases c <;> trivial) (by simp [hbytes]) ?_
    rw [hbytes]
    rfl
  | none =>
    by_cases hc : c = .fog
    · have hbytes : Copy.bytes s.publishFog .fog = [] := by
        have hactive : s.publishFog.store.active = none := hp
        simp only [Copy.bytes, hactive]
      intro i hi
      rw [hc, hbytes] at hi
      exact absurd hi (Nat.not_lt_zero i)
    · exact State.shown_of_writes hwf (h hc) (State.publishFog_writes s)
        (Copy.apart_of_others (ds := [.fog]) (by decide) (by simpa using hc)) (by cases c <;> trivial)

/-- The watchdog is published in the header; the remaining seconds are no copy. -/
theorem State.publishWatchdog_shown_copy (now : SlotCount) (h : c ≠ .watchdog → s.shown c) :
    (s.publishWatchdog now).shown c := by
  have hstate : (s.mapX (Exchange.partWrite 0x1A [s.mon.watchdog.code])).shown c :=
    State.shown_published .watchdog hwf h (fun hc => by cases c <;> trivial) (by simp [Copy.bytes]) rfl
  exact State.shown_of_writes (Exchange.wf_partWrite hwf _ _) hstate
    (Exchange.writes_partWrite (rs := [(0x0B0, 2)]) (by simp [rangeWithin, le16]) _)
    (Copy.apart_of_others (ds := []) (by decide) (by simp)) (by cases c <;> trivial)

omit hwf in
theorem State.clearOverrides_shown (h : s.shown c) : s.clearOverrides.shown c := by cases c <;> exact h

/-- What the monitor does at a change of rail state moves the watchdog's copy alone (R104). -/
theorem State.mapMon_railChanged_shown (old new : RailState) (h : s.shown c) (hc : c ≠ .watchdog) :
    (s.mapMon (Monitor.railChanged old new)).shown c := by
  refine State.shown_of_writes (rs := []) hwf h (Exchange.writes_refl _ _) rfl ?_
  cases c <;> simp_all [Copy.bytes, Monitor.railChanged_eq, State.inputsByte, State.inputActive]

/-- A change of rail state publishes the state, the wait reason and the watchdog (R98). -/
theorem State.setRail_shown_copy (now : SlotCount) (new : RailState)
    (h : c ≠ .rail → c ≠ .watchdog → s.shown c) : (s.setRail now new).shown c := by
  have hstate (hc : c ≠ .watchdog) :
      ((s.mapRail fun r => { r with state := new }).mapX (Exchange.partWrite 0x19 [new.code])).shown c :=
    State.shown_published .rail hwf (fun hr => h hr hc) (fun hr => by cases c <;> trivial) (by simp [Copy.bytes]) rfl
  have hwf1 : ((s.mapRail fun r => { r with state := new }).mapX (Exchange.partWrite 0x19 [new.code])).xmem.wf = true :=
    Exchange.wf_partWrite hwf _ _
  unfold State.setRail
  dsimp only
  generalize (s.mapRail fun r => { r with state := new }).mapX (Exchange.partWrite 0x19 [new.code]) = u at *
  have hover (hc : c ≠ .watchdog) : (if new.removesOverrides = true then u.clearOverrides else u).shown c := by
    split
    · exact State.clearOverrides_shown (hstate hc)
    · exact hstate hc
  have hwf2 : (if new.removesOverrides = true then u.clearOverrides else u).xmem.wf = true := by split <;> exact hwf1
  generalize (if new.removesOverrides = true then u.clearOverrides else u) = v at *
  have hwait (hc : c ≠ .watchdog) :
      (if s.rail.state = .warming ∧ new ≠ .warming then v.setWait .noWait else v).shown c := by
    split
    · exact State.setWait_shown hwf2 .noWait fun _ => hover hc
    · exact hover hc
  have hwf3 : (if s.rail.state = .warming ∧ new ≠ .warming then v.setWait .noWait else v).xmem.wf = true := by
    split
    · exact ((State.setWait_writes .noWait v) hwf2).wf
    · exact hwf2
  exact State.publishWatchdog_shown_copy (s := State.mapMon _ _) hwf3 now fun hc =>
    State.mapMon_railChanged_shown hwf3 _ new (hwait hc) hc

theorem State.addRecord_shown_copy (now : SlotCount) (cause : RestartCause) (action : RecordAction) (i : Nat)
    (before : RailState) (h : c ≠ .refusal → c ≠ .records → s.shown c) :
    (s.addRecord now cause action i before).shown c := by
  unfold State.addRecord
  dsimp only
  generalize s.newRecord now cause action i before = r
  have hrecorded (hc : c ≠ .refusal) : ((s.mapMon fun m =>
      { m with recordCounter := r.number, records := (r :: m.records).take 8 }).publishRecords).shown c :=
    State.publishRecords_shown_copy (s := s.mapMon _) hwf fun hr =>
      State.shown_of_writes (rs := []) hwf (h hc hr) (Exchange.writes_refl _ _) rfl (by cases c <;> trivial)
  have hwf1 := ((State.publishRecords_writes (s.mapMon fun m =>
      { m with recordCounter := r.number, records := (r :: m.records).take 8 })) hwf).wf
  have hrefused := State.setRefusal_shown hwf1 .noRefusal hrecorded
  exact State.raise_shown (((State.setRefusal_writes .noRefusal _) hwf1).wf) .restartNote hrefused

theorem State.writeEntry_shown (now : SlotCount) (kind : EntryKind) (subject : Byte) (h : c ≠ .written → s.shown c) :
    (s.writeEntry now kind subject).shown c := by
  unfold State.writeEntry
  dsimp only
  have hentry (hc : c ≠ .written) : (s.mapX (Exchange.partWrite (0x500 + 8 * (s.keypad.writeCounter.toNat % 32))
      (le16 s.keypad.writeCounter.toNat ++ [kind.code, subject] ++ le32 now.toNat))).shown c :=
    State.shown_of_writes hwf (h hc)
      (Exchange.writes_partWrite (rs := [(0x500, 256)]) (by simp [rangeWithin, le16, le32]; omega) s.xmem)
      (Copy.apart_of_others (ds := []) (by decide) (by simp)) (by cases c <;> rfl)
  have hwf1 := Exchange.wf_partWrite hwf (0x500 + 8 * (s.keypad.writeCounter.toNat % 32))
    (le16 s.keypad.writeCounter.toNat ++ [kind.code, subject] ++ le32 now.toNat)
  refine State.raise_shown (Exchange.wf_partWrite hwf1 _ _) .key ?_
  exact State.shown_published .written hwf1 hentry (fun hc => by cases c <;> trivial) (by simp [Copy.bytes, le16]) rfl

theorem State.takeCode_shown (p : Image) (k : Fin 6) (code : BitVec 12) (h : s.shown c) :
    (s.takeCode p k code).shown c := by
  unfold State.takeCode
  dsimp only
  generalize s.sense.channels[k].take code (convert p k code.toNat) = new
  have hentry : ((s.mapSense fun u => { u with channels := u.channels.set k new, converted := true }).mapX
      (Exchange.partWrite (0x040 + 8 * k.val) new.entry)).shown c := by
    refine State.shown_published (.entry k) hwf (fun _ => h) (fun hc => ?_) ?_ ?_
    · cases c with
      | entry j =>
        have hjk : j ≠ k := fun hjk => hc (congrArg Copy.entry hjk)
        simp [Copy.bytes, Vector.getElem_set_ne, Fin.val_ne_of_ne hjk.symm]
      | _ => rfl
    · intro h0
      have := Channel.entry_length new
      simp [Copy.bytes] at h0
      simp [h0] at this
    · simp [Copy.bytes, Copy.addr]
  split
  · exact State.raise_shown (Exchange.wf_partWrite hwf _ _) .climateFault hentry
  · exact hentry

theorem State.takeRailCodes_shown (mV mA : Nat) (h : s.shown c) : (s.takeRailCodes mV mA).shown c := by
  have hvalues : ((s.mapSense (Sensing.takeRail mV mA)).mapX (Exchange.partWrite 0x08C (le16 mV ++ le16 mA))).shown c :=
    State.shown_published .railValues hwf (fun _ => h) (fun hc => by cases c <;> trivial) (by simp [Copy.bytes, le16]) rfl
  unfold State.takeRailCodes
  dsimp only
  split
  · exact State.formAverage_shown (Exchange.wf_partWrite hwf _ _) fun _ => hvalues
  · exact hvalues

omit hwf in
theorem State.startWatchdog_shown (now : SlotCount) (p : Image) (h : s.shown c) (hc : c ≠ .watchdog) :
    (s.startWatchdog now p).shown c := by
  unfold State.startWatchdog
  split
  · split
    · cases c <;> trivial
    · cases c <;> trivial
  · cases c <;> trivial

theorem State.setArmed_shown_copy (now : SlotCount) (p : Image) (b : Bool) (h : c ≠ .watchdog → s.shown c) :
    (s.setArmed now p b).shown c := by
  have harmed (hc : c ≠ .watchdog) : (s.mapMon fun m => { m with armed := b }).shown c := by
    have := h hc
    cases c <;> exact this
  have hwatched (hc : c ≠ .watchdog) : ((s.mapMon fun m => { m with armed := b }).enterDormant).shown c := by
    have := h hc
    cases c <;> trivial
  unfold State.setArmed
  refine State.publishWatchdog_shown_copy ?_ now fun hc => ?_
  · split
    · simpa using hwf
    · split
      · exact hwf
      · exact hwf
  · split
    · exact State.startWatchdog_shown now p (harmed hc) hc
    · split
      · exact hwatched hc
      · exact harmed hc

theorem State.hostRestartClearing_shown (now : SlotCount) (p : Image)
    (h : c ≠ .watchdog → c ≠ .read → c ≠ .gap → s.shown c) : (s.hostRestartClearing now p).shown c := by
  have hmonitor (hr : c ≠ .read) (hg : c ≠ .gap) : ((s.clearOverrides.clearAir).clearMonitor now p).shown c := by
    have hstages (hc : c ≠ .watchdog) :
        ((s.clearOverrides.clearAir).mapMon fun m => { m with runtimeSet := Profile.stages p }).shown c := by
      have := h hc hr hg
      cases c <;> exact this
    have harmed := State.setArmed_shown_copy
      (s := (s.clearOverrides.clearAir).mapMon fun m => { m with runtimeSet := Profile.stages p }) hwf now p
      (Profile.watchdogArmed p) hstages
    cases c <;> exact harmed
  have hwf1 := ((State.clearMonitor_writes now p (s.clearOverrides.clearAir)) hwf).wf
  unfold State.hostRestartClearing
  generalize (s.clearOverrides.clearAir).clearMonitor now p = u at *
  have hread (hg : c ≠ .gap) : (u.setReadCounter u.keypad.writeCounter).shown c :=
    State.setReadCounter_shown hwf1 _ fun hr => hmonitor hr hg
  have hgap := State.setGap_shown ((State.setReadCounter_writes _ u) hwf1).wf 0 hread
  have hkeypad : u.clearKeypad.shown c := by cases c <;> exact hgap
  have hwf2 := ((State.clearKeypad_writes u) hwf1).wf
  have hslips : u.clearKeypad.clearSlips.shown c :=
    State.shown_of_writes hwf2 hkeypad (State.clearSlips_writes u.clearKeypad)
      (Copy.apart_of_others (ds := []) (by decide) (by simp)) (by cases c <;> rfl)
  exact State.shown_of_writes ((State.clearSlips_writes u.clearKeypad) hwf2).wf hslips
    (Exchange.clearAttention_writes _) (Copy.apart_of_others (ds := []) (by decide) (by simp)) (by cases c <;> rfl)

/-- The slip table is no copy. -/
theorem State.report_shown (b : LastingBlock) (r : SlipResult) (h : s.shown c) : (s.report b r).shown c :=
  State.shown_of_writes hwf h (State.report_writes b r s) (Copy.apart_of_others (ds := []) (by decide) (by simp))
    (by cases c <;> simp [Copy.bytes, State.inputsByte, State.inputActive])

theorem State.inputTaken_shown {p : Image} (levels : BitVec 4) (k : Fin 4) (hp : s.store.active = some p)
    (h : s.shown c) : (s.inputTaken p levels k).shown c := by
  unfold State.inputTaken
  dsimp only
  split
  · rename_i hsame
    have hactive (j : Fin 4) :
        (s.mapRail fun r => { r with inputs := r.inputs.set k (r.inputs[k].sample (levels.getLsbD k.val)) }).inputActive
          p j = s.inputActive p j := by
      by_cases hjk : j = k
      · rw [hjk]
        exact hsame
      · simp [State.inputActive, Vector.getElem_set_ne, Fin.val_ne_of_ne (Ne.symm hjk)]
    have hbytes : c.bytes (s.mapRail fun r =>
        { r with inputs := r.inputs.set k (r.inputs[k].sample (levels.getLsbD k.val)) }) = c.bytes s := by
      cases c with
      | inputs =>
        have hstore : (s.mapRail fun r =>
            { r with inputs := r.inputs.set k (r.inputs[k].sample (levels.getLsbD k.val)) }).store.active = some p := hp
        simp only [Copy.bytes, hstore, hp, State.inputsByte, hactive]
      | _ => rfl
    exact State.shown_of_writes (rs := []) hwf h (Exchange.writes_refl _ _) rfl hbytes
  · exact State.publishInputs_shown (s := s.mapRail _) hwf hp fun hc => by cases c <;> trivial

/-- The delivery of the read counter's word makes the word and the counter agree (R143). -/
theorem State.takeReadCounter_shown (h : c ≠ .read → s.shown c) : s.takeReadCounter.shown c := by
  unfold State.takeReadCounter
  dsimp only
  split
  · by_cases hc : c = .read
    · subst hc
      have hword : (BitVec.ofNat 16 (s.xmem.peek16 0x16)).toNat = (s.xmem.peek 0x16).toNat + 256 * (s.xmem.peek 0x17).toNat := by
        have h0 := (s.xmem.peek 0x16).isLt
        have h1 := (s.xmem.peek 0x17).isLt
        rw [BitVec.toNat_ofNat, Exchange.peek16]
        exact Nat.mod_eq_of_lt (by omega)
      intro i hi
      have hi2 : i < 2 := hi
      have hbytes : Copy.bytes (s.mapKeypad fun k => { k with readCounter := BitVec.ofNat 16 (s.xmem.peek16 0x16) }) .read =
          [s.xmem.peek 0x16, s.xmem.peek 0x17] := by
        simp only [Copy.bytes, State.mapKeypad_keypad, le16, hword]
        congr 1
        · apply BitVec.eq_of_toNat_eq
          rw [BitVec.toNat_ofNat]
          omega
        · congr 1
          apply BitVec.eq_of_toNat_eq
          rw [BitVec.toNat_ofNat]
          omega
      rw [hbytes]
      obtain rfl | rfl : i = 0 ∨ i = 1 := by omega
      · rfl
      · rfl
    · exact State.shown_of_writes (rs := []) hwf (h hc) (Exchange.writes_refl _ _) rfl (by cases c <;> trivial)
  · exact State.setReadCounter_shown hwf _ h

theorem State.shown_of_apart {rs : List (Nat × Nat)} (hs : s.shown c) (h : s.xmem.writes rs t.xmem)
    (hrs : Copy.othersApart [] rs = true) (hb : c.bytes t = c.bytes s) : t.shown c :=
  State.shown_of_writes hwf hs h (Copy.apart_of_others hrs (by simp)) hb

end operations

/-! ### Every change -/

theorem State.Change.shown (h : s.Change t) (hwf : s.xmem.wf = true) (hs : s.shown c) : t.shown c := by
  have hfields {u : State} (hx : u.xmem = s.xmem) (hb : c.bytes u = c.bytes s) : u.shown c := by
    unfold State.shown
    rw [hx, hb]
    exact hs
  cases h with
  | count n => exact State.countSlot_shown hwf n fun _ => hs
  | code p k code => exact State.takeCode_shown hwf p k code hs
  | railCodes mV mA => exact State.takeRailCodes_shown hwf mV mA hs
  | sense f hc hv hi ha =>
    exact hfields rfl (by cases c <;> simp_all [Copy.bytes, State.inputsByte, State.inputActive])
  | page f h _ _ =>
    exact State.shown_of_writes hwf hs h (Copy.apart_of_others (ds := []) (by decide) (by simp)) (by cases c <;> rfl)
  | airReport f r =>
    exact State.report_shown (s := s.mapAir f) hwf .air r (by cases c <;> exact hs)
  | rail f hst hw hp hi =>
    exact hfields rfl (by cases c <;> simp_all [Copy.bytes, State.inputsByte, State.inputActive])
  | railState now new => exact State.setRail_shown_copy hwf now new fun _ _ => hs
  | wait w => exact State.setWait_shown hwf w fun _ => hs
  | restart b => exact State.setRestartPending_shown hwf b fun _ => hs
  | input p levels k hp => exact State.inputTaken_shown hwf levels k hp hs
  | record now cause action i before => exact State.addRecord_shown_copy hwf now cause action i before fun _ _ => hs
  | lateKick rs =>
    exact State.publishRecords_shown_copy (s := s.mapMon _) hwf fun hc =>
      hfields rfl (by cases c <;> trivial)
  | ladder i _ _ => exact State.setLadderIndex_shown hwf i fun _ => hs
  | monitor f hw hr hl hrs =>
    exact hfields rfl (by cases c <;> simp_all [Copy.bytes, State.inputsByte, State.inputActive])
  | watchdog f now hr hl hrs =>
    exact State.publishWatchdog_shown_copy (s := s.mapMon f) hwf now fun hc =>
      hfields rfl (by cases c <;> simp_all [Copy.bytes, State.inputsByte, State.inputActive])
  | refusal r => exact State.setRefusal_shown hwf r fun _ => hs
  | clearing now p => exact State.hostRestartClearing_shown hwf now p fun _ _ _ => hs
  | keypad f hf hr hw hg _ =>
    exact hfields rfl (by cases c <;> simp_all [Copy.bytes, State.inputsByte, State.inputActive])
  | fog b =>
    exact State.publishFog_shown (s := s.mapKeypad _) hwf fun hc => hfields rfl (by cases c <;> trivial)
  | entry now kind subject _ => exact State.writeEntry_shown hwf now kind subject fun _ => hs
  | gap g _ => exact State.setGap_shown hwf g fun _ => hs
  | readCounter => exact State.takeReadCounter_shown hwf fun _ => hs
  | rebaselineEnd code mask =>
    exact State.report_shown (s := s.mapKeypad _) hwf .keypad _ (by cases c <;> exact hs)
  | raise k => exact State.raise_shown hwf k hs
  | acknowledge =>
    exact State.shown_of_apart (t := s.mapX _) hwf hs (Exchange.deliverAcknowledge_writes s.xmem) (by decide)
      (by cases c <;> rfl)
  | enable =>
    exact State.shown_of_apart (t := s.mapX _) hwf hs (Exchange.deliverEnable_writes s.xmem) (by decide)
      (by cases c <;> rfl)
  | complete n r =>
    exact State.shown_of_apart (t := s.mapX _) hwf hs (Exchange.complete_writes n.isLt r s.xmem) (by decide)
      (by cases c <;> rfl)
  | accept b n _ _ =>
    exact State.shown_of_apart hwf hs (State.accept_writes b n s)
      ((by decide : ∀ n : Fin 16, Copy.othersApart [] [(slotAddr n.val, 64)] = true) n) (by cases c <;> rfl)
  | storeReport r => exact State.report_shown hwf .store r hs
  | store f ha hf _ _ _ =>
    exact hfields rfl (by cases c <;> simp_all [Copy.bytes, State.inputsByte, State.inputActive])
  | readOut p _ =>
    refine State.shown_of_writes (t := s.mapX _) hwf hs
      (Exchange.writes_partWrite (rs := [(0x800, p.length)]) (by simp [rangeWithin]) s.xmem) ?_ (by cases c <;> rfl)
    have hbelow : c.addr + c.length ≤ 0x800 := le_trans c.within (by decide)
    simp [Copy.apart, hbelow]
  | time f hf =>
    exact hfields rfl (by cases c <;> simp_all [Copy.bytes, State.inputsByte, State.inputActive])
  | climate f _ => cases c <;> exact hs
  | air f _ => cases c <;> exact hs
  | engine f _ => cases c <;> exact hs
  | commit b _ _ => cases c <;> exact hs

end Sys2Proof.Machine
end

