-- ==== Sys2Proof/Proofs/Attention.lean ====
section
/-!
SUPPORT. The header's copies of the attention summary and of the enable (R160, R161): every change keeps them.
-/

namespace Sys2Proof.Machine

open State (Change Changes)

/-- The header shows the summary (R160). -/
def Exchange.summaryShown (x : Exchange) : Prop := x.shows 0x0C (le16 x.summary.toNat)

/-- The header shows the enable (R161). -/
def Exchange.enableShown (x : Exchange) : Prop := x.shows 0x10 (le16 x.enable.toNat)

/-- From `x` on the header goes on showing the summary and the enable. -/
def Exchange.follows (x y : Exchange) : Prop :=
  x.wf = true → y.wf = true ∧ (x.summaryShown → y.summaryShown) ∧ (x.enableShown → y.enableShown)

theorem Exchange.follows_refl (x : Exchange) : x.follows x := fun h => ⟨h, id, id⟩

theorem Exchange.follows.trans {x y z : Exchange} (h : x.follows y) (h' : y.follows z) : x.follows z := fun hx =>
  ⟨(h' (h hx).1).1, (h' (h hx).1).2.1 ∘ (h hx).2.1, (h' (h hx).1).2.2 ∘ (h hx).2.2⟩

theorem Exchange.shows_of_writes {rs : List (Nat × Nat)} {x y : Exchange} {a n : Nat} (hx : x.wf = true)
    (h : x.writes rs y) (ha : a + 1 < memorySize) (hrs : outside rs a = true ∧ outside rs (a + 1) = true)
    (hs : x.shows a (le16 n)) : y.shows a (le16 n) := by
  intro i hi
  have hi2 : i < 2 := hi
  rw [← hs i hi]
  obtain rfl | rfl : i = 0 ∨ i = 1 := by omega
  · exact (h hx).kept _ (by omega) hrs.1
  · exact (h hx).kept _ ha hrs.2

/-- Where the two words are not written and the two registers stand, the header goes on showing them. -/
theorem Exchange.writes.follows {rs : List (Nat × Nat)} {x y : Exchange} (h : x.writes rs y)
    (hrs : outside rs 0x0C && outside rs 0x0D && outside rs 0x10 && outside rs 0x11) (hs : y.summary = x.summary)
    (he : y.enable = x.enable) : x.follows y := by
  simp only [Bool.and_eq_true] at hrs
  obtain ⟨⟨⟨h0, h1⟩, h2⟩, h3⟩ := hrs
  intro hx
  refine ⟨(h hx).wf, fun hsum => ?_, fun hen => ?_⟩
  · unfold Exchange.summaryShown
    rw [hs]
    exact Exchange.shows_of_writes hx h (by decide) ⟨h0, h1⟩ hsum
  · unfold Exchange.enableShown
    rw [he]
    exact Exchange.shows_of_writes hx h (by decide) ⟨h2, h3⟩ hen

/-- A part write that touches neither word. -/
theorem Exchange.partWrite_follows {a : Nat} {bs : List Byte} (h : 0x12 ≤ a ∨ a + bs.length ≤ 0x0C) (x : Exchange) :
    x.follows (x.partWrite a bs) :=
  (Exchange.writes_partWrite (rs := [(a, bs.length)]) (by simp [rangeWithin]) x).follows
    (by simp [outside]; omega) (by simp [Exchange.partWrite]) (by simp [Exchange.partWrite])

theorem Exchange.setSummary_follows (v : BitVec 12) (x : Exchange) : x.follows (x.setSummary v) := by
  intro hx
  refine ⟨((Exchange.setSummary_writes v x) hx).wf, fun _ => ?_, fun hen => ?_⟩
  · have hsummary : (x.setSummary v).summary = v := by simp [Exchange.setSummary, Exchange.partWrite]
    unfold Exchange.summaryShown
    rw [hsummary]
    exact Exchange.shows_partWrite (x := { x with summary := v }) hx 0x0C (le16 v.toNat) (by simp [le16, memorySize])
  · have henable : (x.setSummary v).enable = x.enable := by simp [Exchange.setSummary, Exchange.partWrite]
    unfold Exchange.enableShown
    rw [henable]
    exact Exchange.shows_of_writes hx (Exchange.setSummary_writes v x) (by decide) (by decide) hen

theorem Exchange.raise_follows (c : Cause) (x : Exchange) : x.follows (x.raise c) := Exchange.setSummary_follows _ x

theorem Exchange.deliverAcknowledge_follows (x : Exchange) : x.follows x.deliverAcknowledge :=
  Exchange.follows.trans
    ((Exchange.writes_partWrite (rs := [(0x0E, 2)]) (b := 0x0E) (bs := [0, 0]) (by decide) x).follows (by decide)
      (by simp [Exchange.partWrite]) (by simp [Exchange.partWrite]))
    (Exchange.setSummary_follows _ _)

/-- The delivery of the enable word shows the enable, whatever the word held (R161). -/
theorem Exchange.deliverEnable_shows {x : Exchange} (hx : x.wf = true) : x.deliverEnable.enableShown := by
  have henable : x.deliverEnable.enable = BitVec.ofNat 12 (x.peek16 0x10) := by
    simp [Exchange.deliverEnable, Exchange.partWrite]
  unfold Exchange.enableShown
  rw [henable]
  exact Exchange.shows_partWrite (x := { x with enable := BitVec.ofNat 12 (x.peek16 0x10) }) hx 0x10 _
    (by simp [le16, memorySize])

theorem Exchange.deliverEnable_follows (x : Exchange) : x.follows x.deliverEnable := by
  intro hx
  refine ⟨((Exchange.deliverEnable_writes x) hx).wf, fun hsum => ?_, fun _ => Exchange.deliverEnable_shows hx⟩
  have hsummary : x.deliverEnable.summary = x.summary := by simp [Exchange.deliverEnable, Exchange.partWrite]
  unfold Exchange.summaryShown
  rw [hsummary]
  exact Exchange.shows_of_writes hx (Exchange.deliverEnable_writes x) (by decide) (by decide) hsum

/-- Host restart clearing shows both words (R162). -/
theorem Exchange.clearAttention_follows (x : Exchange) : x.follows x.clearAttention := by
  refine (Exchange.setSummary_follows
    (x.summary &&& (Cause.restartNote.bit ||| Cause.profileDefaulted.bit)) x).trans ?_
  intro hx
  have hwrites := Exchange.writes_of_flags [(0x10, 2)]
    (x.setSummary (x.summary &&& (Cause.restartNote.bit ||| Cause.profileDefaulted.bit)))
    (x.setSummary (x.summary &&& (Cause.restartNote.bit ||| Cause.profileDefaulted.bit))).summary 0xFFF
  have hwritten := hwrites.trans (Exchange.writes_partWrite (b := 0x10) (bs := le16 0xFFF) (by decide) _)
  refine ⟨(hwritten hx).wf, fun hsum => ?_, fun _ => ?_⟩
  · have hsummary : x.clearAttention.summary =
        (x.setSummary (x.summary &&& (Cause.restartNote.bit ||| Cause.profileDefaulted.bit))).summary := by
      simp [Exchange.clearAttention, Exchange.partWrite]
    unfold Exchange.summaryShown
    rw [hsummary]
    exact Exchange.shows_of_writes hx hwritten (by decide) (by decide) hsum
  · have henable : x.clearAttention.enable = 0xFFF := by simp [Exchange.clearAttention, Exchange.partWrite]
    unfold Exchange.enableShown
    rw [henable]
    exact Exchange.shows_partWrite
      (x := { x.setSummary (x.summary &&& (Cause.restartNote.bit ||| Cause.profileDefaulted.bit)) with enable := 0xFFF })
      hx 0x10 (le16 0xFFF) (by decide)

/-! ### The slip table -/

theorem Exchange.writeResult_follows {n : Nat} (o : Owner) (code detail : Byte) (payload : List Byte) (x : Exchange) :
    x.follows (x.writeResult n o code detail payload) :=
  (Exchange.writeResult_writes o code detail payload x).follows
    (by simp [outside, slotAddr]; omega) (by simp [Exchange.writeResult]) (by simp [Exchange.writeResult])

theorem Exchange.followLink_follows (n : Nat) (x : Exchange) : x.follows (x.followLink n) := by
  unfold Exchange.followLink
  split
  · exact Exchange.follows_refl x
  · split
    · exact Exchange.partWrite_follows (.inl (by unfold slotAddr; omega)) x
    · exact Exchange.partWrite_follows (.inl (by unfold slotAddr; omega)) x

theorem Exchange.breakChain_follows (first : Nat) : ∀ (fuel n : Nat) (x : Exchange),
    x.follows (Exchange.breakChain first fuel n x)
  | 0, _, x => Exchange.follows_refl x
  | fuel + 1, n, x => by
    unfold Exchange.breakChain
    split
    · exact Exchange.follows_refl x
    · rename_i m _
      split
      · exact ((Exchange.writeResult_follows .done _ _ _ x).trans (Exchange.raise_follows .slipDone _)).trans
          (Exchange.breakChain_follows first fuel m _)
      · exact Exchange.follows_refl x

theorem Exchange.complete_follows (n : Nat) (r : SlipResult) (x : Exchange) : x.follows (x.complete n r) := by
  have hresult := Exchange.writeResult_follows (n := n) .done r.code.code r.detail r.payload x
  unfold Exchange.complete
  dsimp only
  refine Exchange.follows.trans ?_ (Exchange.raise_follows .slipDone _)
  split
  · exact hresult.trans (Exchange.followLink_follows n _)
  · exact hresult.trans (Exchange.breakChain_follows n 16 n _)

theorem State.report_follows (b : LastingBlock) (r : SlipResult) (s : State) : s.xmem.follows (s.report b r).xmem := by
  unfold State.report
  split
  · exact Exchange.follows_refl _
  · exact Exchange.complete_follows _ r s.xmem

/-! ### The operations -/

section
variable {s t : State}

theorem Exchange.follows_ite {x : Exchange} {c : Prop} [Decidable c] {u v : State} (hu : c → x.follows u.xmem)
    (hv : ¬c → x.follows v.xmem) : x.follows (if c then u else v).xmem := by
  split
  · exact hu ‹_›
  · exact hv ‹_›

theorem State.publishWatchdog_follows (now : SlotCount) (s : State) : s.xmem.follows (s.publishWatchdog now).xmem :=
  (Exchange.partWrite_follows (.inl (by decide)) s.xmem).trans (Exchange.partWrite_follows (.inl (by decide)) _)

theorem State.setRail_follows (now : SlotCount) (new : RailState) (s : State) :
    s.xmem.follows (s.setRail now new).xmem := by
  unfold State.setRail
  refine Exchange.follows.trans ?_ (State.publishWatchdog_follows now _)
  have hstate : s.xmem.follows (s.xmem.partWrite 0x19 [new.code]) := Exchange.partWrite_follows (.inl (by decide)) _
  have hover (u : State) (hu : s.xmem.follows u.xmem) :
      s.xmem.follows (if new.removesOverrides = true then u.clearOverrides else u).xmem :=
    Exchange.follows_ite (fun _ => hu) fun _ => hu
  exact Exchange.follows_ite
    (fun _ => (hover ((s.mapRail _).mapX _) hstate).trans (Exchange.partWrite_follows (.inl (by decide)) _))
    fun _ => hover ((s.mapRail _).mapX _) hstate

theorem State.addRecord_follows (now : SlotCount) (cause : RestartCause) (action : RecordAction) (i : Nat)
    (before : RailState) (s : State) : s.xmem.follows (s.addRecord now cause action i before).xmem :=
  ((Exchange.partWrite_follows (.inl (by decide)) s.xmem).trans
    (Exchange.partWrite_follows (.inl (by decide)) _)).trans (Exchange.raise_follows .restartNote _)

theorem State.writeEntry_follows (now : SlotCount) (kind : EntryKind) (subject : Byte) (s : State) :
    s.xmem.follows (s.writeEntry now kind subject).xmem :=
  ((Exchange.partWrite_follows (.inl (by omega)) s.xmem).trans
    (Exchange.partWrite_follows (.inl (by decide)) _)).trans (Exchange.raise_follows .key _)

theorem State.takeCode_follows (p : Image) (k : Fin 6) (code : BitVec 12) (s : State) :
    s.xmem.follows (s.takeCode p k code).xmem := by
  unfold State.takeCode
  dsimp only
  have hentry (bs : List Byte) : s.xmem.follows (s.xmem.partWrite (0x040 + 8 * k.val) bs) :=
    Exchange.partWrite_follows (.inl (by omega)) _
  exact Exchange.follows_ite (fun _ => (hentry _).trans (Exchange.raise_follows .climateFault _)) fun _ => hentry _

theorem State.takeRailCodes_follows (mV mA : Nat) (s : State) : s.xmem.follows (s.takeRailCodes mV mA).xmem := by
  have hvalues : s.xmem.follows (s.xmem.partWrite 0x08C (le16 mV ++ le16 mA)) :=
    Exchange.partWrite_follows (.inl (by decide)) _
  unfold State.takeRailCodes
  exact Exchange.follows_ite (fun _ => hvalues.trans (Exchange.partWrite_follows (.inl (by decide)) _)) fun _ => hvalues

theorem State.hostRestartClearing_follows (now : SlotCount) (p : Image) (s : State) :
    s.xmem.follows (s.hostRestartClearing now p).xmem := by
  have hmonitor : s.xmem.follows ((s.clearOverrides.clearAir).clearMonitor now p).xmem := by
    have hstart (u : State) : (u.startWatchdog now p).xmem = u.xmem := by simp
    unfold State.clearMonitor State.setArmed
    refine Exchange.follows.trans ?_ (State.publishWatchdog_follows now _)
    refine Exchange.follows_ite (fun _ => ?_) fun _ => Exchange.follows_ite (fun _ => ?_) fun _ => ?_
    · rw [hstart]
      exact Exchange.follows_refl _
    · exact Exchange.follows_refl _
    · exact Exchange.follows_refl _
  have hkeypad := hmonitor.trans ((Exchange.partWrite_follows (a := 0x16)
    (bs := le16 ((s.clearOverrides.clearAir).clearMonitor now p).keypad.writeCounter.toNat) (.inl (by decide)) _).trans
      (Exchange.partWrite_follows (a := 0x18) (bs := [BitVec.ofNat 8 0]) (.inl (by decide)) _))
  exact (hkeypad.trans (Exchange.partWrite_follows (.inl (by decide)) _)).trans (Exchange.clearAttention_follows _)

/-! ### Every change -/

theorem State.Change.follows (h : s.Change t) : s.xmem.follows t.xmem := by
  cases h with
  | count n => exact Exchange.partWrite_follows (.inr (by simp [le32])) s.xmem
  | code p k code => exact State.takeCode_follows p k code s
  | railCodes mV mA => exact State.takeRailCodes_follows mV mA s
  | page f h hs he => exact h.follows (by decide) hs he
  | airReport f r => exact State.report_follows .air r (s.mapAir f)
  | railState now new => exact State.setRail_follows now new s
  | wait w => exact Exchange.partWrite_follows (.inl (by decide)) s.xmem
  | restart b => exact Exchange.partWrite_follows (.inl (by decide)) s.xmem
  | input p levels k _ =>
    unfold State.inputTaken
    exact Exchange.follows_ite (fun _ => Exchange.follows_refl _)
      fun _ => Exchange.partWrite_follows (.inl (by decide)) s.xmem
  | record now cause action i before => exact State.addRecord_follows now cause action i before s
  | lateKick rs => exact Exchange.partWrite_follows (.inl (by decide)) s.xmem
  | ladder i _ _ => exact Exchange.partWrite_follows (.inl (by decide)) s.xmem
  | watchdog f now _ _ _ => exact State.publishWatchdog_follows now (s.mapMon f)
  | refusal r => exact Exchange.partWrite_follows (.inl (by decide)) s.xmem
  | clearing now p => exact State.hostRestartClearing_follows now p s
  | fog b => exact Exchange.partWrite_follows (.inl (by decide)) s.xmem
  | entry now kind subject _ => exact State.writeEntry_follows now kind subject s
  | gap g _ => exact Exchange.partWrite_follows (.inl (by decide)) s.xmem
  | readCounter =>
    unfold State.takeReadCounter
    exact Exchange.follows_ite (fun _ => Exchange.follows_refl _)
      fun _ => Exchange.partWrite_follows (.inl (by decide)) s.xmem
  | rebaselineEnd code mask => exact State.report_follows .keypad _ (s.mapKeypad _)
  | raise k => exact Exchange.raise_follows k s.xmem
  | acknowledge => exact Exchange.deliverAcknowledge_follows s.xmem
  | enable => exact Exchange.deliverEnable_follows s.xmem
  | complete n r => exact Exchange.complete_follows n.val r s.xmem
  | accept b n _ _ => exact Exchange.writeResult_follows .taken 0 0 [] s.xmem
  | storeReport r => exact State.report_follows .store r s
  | readOut p _ => exact Exchange.partWrite_follows (.inl (by decide)) s.xmem
  | time | sense | climate | air | rail | monitor | keypad | engine | store | commit => exact Exchange.follows_refl _

end

end Sys2Proof.Machine
end

