-- ==== Sys2Proof/Proofs/HeaderSafety.lean ====
section
/-!
The statement that the key queue stays sound and the header, the live page and the restart record region show what the
blocks hold (R141 to R143, R160, R161). An expiry breaks the watchdog's copy until it publishes it, and a landing breaks the
copies of the enable and of the read counter until their words are delivered.
-/

namespace Sys2Proof.Machine

open State (Change Changes)

/-! ### The key queue -/

/-- The sequence number of entry `i` (R141). -/
def Keypad.sequence (k : Keypad) (i : Nat) : Nat := (k.readCounter + BitVec.ofNat 16 i).toNat

/-- The queue holds at most 32 entries, each at its position, and at most 255 are in the gap (R141, R142). -/
def State.queueKept (s : State) : Prop :=
  s.keypad.count ≤ 32 ∧ s.keypad.gap ≤ 255 ∧
    ∀ i < s.keypad.count, s.xmem.peek16 (0x500 + 8 * (s.keypad.sequence i % 32)) = s.keypad.sequence i

theorem State.queueSound_iff {s : State} : s.queueSound = true ↔ s.queueKept := by
  simp only [State.queueSound, State.queueKept, Keypad.sequence, Bool.and_eq_true, decide_eq_true_eq, List.all_eq_true,
    List.mem_range, beq_iff_eq, and_assoc]

section queue
variable {s t : State}

/-- Where the counters stand and no entry is written, the queue stands. -/
theorem State.queueKept_of_writes {rs : List (Nat × Nat)} (hwf : s.xmem.wf = true) (h : s.queueKept)
    (hx : s.xmem.writes rs t.xmem) (hrs : rs.all (fun r => r.1 + r.2 ≤ 0x500 || 0x600 ≤ r.1) = true)
    (hr : t.keypad.readCounter = s.keypad.readCounter) (hw : t.keypad.writeCounter = s.keypad.writeCounter)
    (hg : t.keypad.gap = s.keypad.gap) : t.queueKept := by
  have hkept (a : Nat) (ha : 0x500 ≤ a ∧ a < 0x600) : t.xmem.peek a = s.xmem.peek a := by
    refine (hx hwf).kept a (by unfold memorySize; omega) ?_
    simp only [outside, List.all_eq_true, Bool.or_eq_true, decide_eq_true_eq] at hrs ⊢
    exact fun r hr => (hrs r hr).symm.imp (fun _ => by omega) fun _ => by omega
  have hcount : t.keypad.count = s.keypad.count := by simp [Keypad.count, hr, hw]
  obtain ⟨hc, hgap, hentries⟩ := h
  refine ⟨hcount ▸ hc, hg ▸ hgap, fun i hi => ?_⟩
  have hseq : t.keypad.sequence i = s.keypad.sequence i := by simp [Keypad.sequence, hr]
  rw [hseq, Exchange.peek16, hkept _ (by omega), hkept _ (by omega)]
  exact hentries i (hcount ▸ hi)

theorem State.queueKept_empty (hr : s.keypad.readCounter = s.keypad.writeCounter) (hg : s.keypad.gap ≤ 255) :
    s.queueKept := by
  have hcount : s.keypad.count = 0 := by simp [Keypad.count, hr]
  exact ⟨by omega, hg, fun i hi => by omega⟩

theorem Keypad.sequence_eq (k : Keypad) (i : Nat) : k.sequence i = (k.readCounter.toNat + i) % 65536 := by
  simp [Keypad.sequence, BitVec.toNat_add]

theorem Keypad.writeCounter_eq (k : Keypad) : k.writeCounter.toNat = (k.readCounter.toNat + k.count) % 65536 := by
  have hr := k.readCounter.isLt
  have hw := k.writeCounter.isLt
  simp only [Keypad.count, BitVec.toNat_sub]
  omega

/-- A new entry takes the position after the last, which no held entry has (R141). -/
theorem State.writeEntry_queueKept (hwf : s.xmem.wf = true) (h : s.queueKept) (hroom : s.keypad.count < 32)
    (now : SlotCount) (kind : EntryKind) (subject : Byte) : (s.writeEntry now kind subject).queueKept := by
  obtain ⟨_, hgap, hentries⟩ := h
  have hkeypad : (s.writeEntry now kind subject).keypad =
      { s.keypad with writeCounter := s.keypad.writeCounter + 1 } := by simp [State.writeEntry]
  have hlast := s.keypad.writeCounter_eq
  have hcount : (s.writeEntry now kind subject).keypad.count = s.keypad.count + 1 := by
    have hr := s.keypad.readCounter.isLt
    rw [hkeypad]
    simp only [Keypad.count, BitVec.toNat_sub, BitVec.toNat_add] at hroom hlast ⊢
    simp
    omega
  have hsequence (i : Nat) : (s.writeEntry now kind subject).keypad.sequence i = s.keypad.sequence i := by
    rw [hkeypad]
    rfl
  refine ⟨by omega, by rw [hkeypad]; exact hgap, fun i hi => ?_⟩
  have hlater (a : Nat) (ha : 0x500 ≤ a ∧ a < 0x600) : (s.writeEntry now kind subject).xmem.peek a =
      (s.xmem.partWrite (0x500 + 8 * (s.keypad.writeCounter.toNat % 32))
        (le16 s.keypad.writeCounter.toNat ++ [kind.code, subject] ++ le32 now.toNat)).peek a := by
    have hentry := Exchange.wf_partWrite hwf (0x500 + 8 * (s.keypad.writeCounter.toNat % 32))
      (le16 s.keypad.writeCounter.toNat ++ [kind.code, subject] ++ le32 now.toNat)
    have hcounter := Exchange.wf_partWrite hentry 0x14 (le16 (s.keypad.writeCounter + 1).toNat)
    exact (Exchange.peek_raise_of_not_mem hcounter .key (by omega)).trans
      (Exchange.peek_partWrite_of_not_mem hentry _ _ (.inr (by simp [le16]; omega)))
  rw [hsequence, Exchange.peek16, hlater _ (by omega), hlater _ (by omega)]
  have hseq := Keypad.sequence_eq s.keypad i
  by_cases hnew : i = s.keypad.count
  · have hw : s.keypad.sequence i = s.keypad.writeCounter.toNat := by rw [hseq, hnew, hlast]
    have hlt := s.keypad.writeCounter.isLt
    rw [hw, Exchange.peek_partWrite hwf _ _ (by unfold memorySize; omega),
      Exchange.peek_partWrite hwf _ _ (by unfold memorySize; omega), if_pos (le_refl _), if_pos (by omega)]
    simp [le16]
    omega
  · have hapart : 0x500 + 8 * (s.keypad.sequence i % 32) + 8 ≤ 0x500 + 8 * (s.keypad.writeCounter.toNat % 32) ∨
        0x500 + 8 * (s.keypad.writeCounter.toNat % 32) + 8 ≤ 0x500 + 8 * (s.keypad.sequence i % 32) := by omega
    have hlength : (le16 s.keypad.writeCounter.toNat ++ [kind.code, subject] ++ le32 now.toNat).length = 8 := by
      simp [le16, le32]
    rw [Exchange.peek_partWrite_of_not_mem hwf _ _ (by omega), Exchange.peek_partWrite_of_not_mem hwf _ _ (by omega)]
    exact hentries i (by omega)

/-- Taking a read counter within the queue drops the entries before it (R143). -/
theorem State.takeReadCounter_queueKept (h : s.queueKept) : s.takeReadCounter.queueKept := by
  obtain ⟨hc, hgap, hentries⟩ := h
  unfold State.takeReadCounter
  dsimp only
  generalize BitVec.ofNat 16 (s.xmem.peek16 0x16) = v
  split
  · rename_i hv
    have hr := s.keypad.readCounter.isLt
    have hvlt := v.isLt
    have hlast := s.keypad.writeCounter_eq
    have hdrop : (v - s.keypad.readCounter).toNat + (s.keypad.writeCounter - v).toNat = s.keypad.count := by
      have hw := s.keypad.writeCounter.isLt
      simp only [Keypad.count, BitVec.toNat_sub] at hv ⊢
      omega
    refine ⟨?_, hgap, fun i hi => ?_⟩
    · simp only [Keypad.count, State.mapKeypad_keypad] at hc hdrop ⊢
      omega
    · have hi' : i < (s.keypad.writeCounter - v).toNat := hi
      have hsequence : (s.mapKeypad fun k => { k with readCounter := v }).keypad.sequence i =
          s.keypad.sequence ((v - s.keypad.readCounter).toNat + i) := by
        simp only [Keypad.sequence_eq, State.mapKeypad_keypad, BitVec.toNat_sub]
        omega
      rw [hsequence]
      exact hentries _ (by omega)
  · exact State.queueKept_empty rfl hgap

theorem State.hostRestartClearing_keypad (now : SlotCount) (p : Image) (s : State) :
    (s.hostRestartClearing now p).keypad =
      { s.keypad with
        readCounter := s.keypad.writeCounter, gap := 0
        stopPending := s.keypad.stopPending || s.keypad.rebaseline.isSome } := by
  simp [State.hostRestartClearing, State.clearKeypad, State.setReadCounter, State.setGap]

theorem State.Change.queueKept (h : s.Change t) (hwf : s.xmem.wf = true) (hs : s.queueKept) : t.queueKept := by
  cases h with
  | count n => exact State.queueKept_of_writes hwf hs (State.countSlot_writes n s) (by decide) rfl rfl rfl
  | code p k code =>
    exact State.queueKept_of_writes hwf hs (State.takeCode_writes p k code s) (by revert k; decide) (by simp) (by simp) (by simp)
  | railCodes mV mA =>
    have hkeypad : (s.takeRailCodes mV mA).keypad = s.keypad := by
      unfold State.takeRailCodes
      dsimp only
      split <;> simp
    exact State.queueKept_of_writes hwf hs (State.takeRailCodes_writes mV mA s) (by split <;> decide) (by rw [hkeypad])
      (by rw [hkeypad]) (by rw [hkeypad])
  | page f h _ _ => exact State.queueKept_of_writes hwf hs h (by decide) rfl rfl rfl
  | airReport f r =>
    exact State.queueKept_of_writes (s := s.mapAir f) hwf hs (State.report_writes .air r (s.mapAir f)) (by decide) (by simp)
      (by simp)
      (by simp)
  | railState now new =>
    exact State.queueKept_of_writes hwf hs (State.setRail_writes now new s) (by decide) (by simp) (by simp) (by simp)
  | wait w => exact State.queueKept_of_writes hwf hs (State.setWait_writes w s) (by decide) rfl rfl rfl
  | restart b => exact State.queueKept_of_writes hwf hs (State.setRestartPending_writes b s) (by decide) rfl rfl rfl
  | input p levels k _ =>
    unfold State.inputTaken
    dsimp only
    split
    · exact hs
    · exact State.queueKept_of_writes (s := s.mapRail _) hwf hs (State.publishInputs_writes p (s.mapRail _))
        (by decide) rfl rfl rfl
  | record now cause action i before =>
    exact State.queueKept_of_writes hwf hs (State.addRecord_writes now cause action i before s) (by decide) rfl rfl rfl
  | lateKick rs =>
    exact State.queueKept_of_writes (s := s.mapMon _) hwf hs (State.publishRecords_writes (s.mapMon _)) (by decide) rfl rfl rfl
  | ladder i _ _ => exact State.queueKept_of_writes hwf hs (State.setLadderIndex_writes i s) (by decide) rfl rfl rfl
  | watchdog f now _ _ _ =>
    exact State.queueKept_of_writes (s := s.mapMon f) hwf hs (State.publishWatchdog_writes now (s.mapMon f))
      (by decide) rfl rfl rfl
  | refusal r => exact State.queueKept_of_writes hwf hs (State.setRefusal_writes r s) (by decide) rfl rfl rfl
  | clearing now p =>
    have hkeypad := State.hostRestartClearing_keypad now p s
    exact State.queueKept_empty (by rw [hkeypad]) (by rw [hkeypad]; exact Nat.zero_le _)
  | fog b =>
    exact State.queueKept_of_writes hwf hs (State.publishFog_writes (s.mapKeypad _)) (by decide) rfl rfl rfl
  | entry now kind subject hroom => exact State.writeEntry_queueKept hwf hs hroom now kind subject
  | gap g hg =>
    obtain ⟨hc, _, hentries⟩ := hs
    exact State.queueKept_of_writes (s := s.mapKeypad fun k => { k with gap := g }) hwf ⟨hc, hg, hentries⟩
      (State.setGap_writes g s) (by decide) rfl rfl rfl
  | readCounter => exact State.takeReadCounter_queueKept hs
  | rebaselineEnd code mask =>
    exact State.queueKept_of_writes hwf hs (State.endRebaseline_writes code mask s) (by decide)
      (by simp [State.endRebaseline]) (by simp [State.endRebaseline]) (by simp [State.endRebaseline])
  | raise k => exact State.queueKept_of_writes hwf hs (State.raise_writes k s) (by decide) rfl rfl rfl
  | acknowledge =>
    exact State.queueKept_of_writes (t := s.mapX _) hwf hs (Exchange.deliverAcknowledge_writes s.xmem) (by decide) rfl rfl rfl
  | enable =>
    exact State.queueKept_of_writes (t := s.mapX _) hwf hs (Exchange.deliverEnable_writes s.xmem) (by decide) rfl rfl rfl
  | complete n r =>
    exact State.queueKept_of_writes (t := s.mapX _) hwf hs (Exchange.complete_writes n.isLt r s.xmem) (by decide) rfl rfl rfl
  | accept b n _ _ =>
    exact State.queueKept_of_writes hwf hs (State.accept_writes b n s)
      ((by decide : ∀ n : Fin 16, [(slotAddr n.val, 64)].all (fun r => r.1 + r.2 ≤ 0x500 || 0x600 ≤ r.1) = true) n) rfl rfl rfl
  | storeReport r =>
    exact State.queueKept_of_writes hwf hs (State.report_writes .store r s) (by decide) (by simp) (by simp) (by simp)
  | keypad f _ hr hw hg _ => exact State.queueKept_of_writes (rs := []) hwf hs (Exchange.writes_refl _ _) rfl hr hw hg
  | readOut p _ =>
    exact State.queueKept_of_writes (t := s.mapX _) hwf hs
      (Exchange.writes_partWrite (rs := [(0x800, p.length)]) (by simp [rangeWithin]) s.xmem) (by simp) rfl rfl rfl
  | time | sense | climate | air | rail | monitor | engine | store | commit => exact hs

end queue

/-! ### The copies in the words of the statement -/

section words
variable {x : Exchange} {a n : Nat}

theorem Exchange.shows_single (b : Byte) : x.shows a [b] ↔ x.peek a = b := by
  constructor
  · intro h
    exact h 0 (by simp)
  · intro h i hi
    obtain rfl : i = 0 := by simpa using hi
    exact h

theorem Exchange.shows_append {bs cs : List Byte} :
    x.shows a (bs ++ cs) ↔ x.shows a bs ∧ x.shows (a + bs.length) cs := by
  constructor
  · intro h
    refine ⟨fun i hi => ?_, fun i hi => ?_⟩
    · rw [h i (by simp; omega), List.getD_append _ _ _ _ hi]
    · have := h (bs.length + i) (by simp; omega)
      rwa [← Nat.add_assoc, List.getD_append_right _ _ _ _ (by omega), Nat.add_sub_cancel_left] at this
  · rintro ⟨hb, hc⟩ i hi
    by_cases hlt : i < bs.length
    · rw [List.getD_append _ _ _ _ hlt]
      exact hb i hlt
    · rw [List.getD_append_right _ _ _ _ (by omega), ← hc (i - bs.length) (by simp at hi; omega)]
      congr 1
      omega

theorem byte_eq_ofNat {b : Byte} {m : Nat} : b = BitVec.ofNat 8 m ↔ b.toNat = m % 256 :=
  ⟨fun h => by rw [h, BitVec.toNat_ofNat], fun h => BitVec.eq_of_toNat_eq (by rw [BitVec.toNat_ofNat]; exact h)⟩

theorem Exchange.shows_le16 : x.shows a (le16 n) ↔ x.peek16 a = n % 65536 := by
  have hsplit : le16 n = [BitVec.ofNat 8 n] ++ [BitVec.ofNat 8 (n / 256)] := rfl
  have h0 := (x.peek a).isLt
  have h1 := (x.peek (a + 1)).isLt
  rw [hsplit, Exchange.shows_append, Exchange.shows_single, Exchange.shows_single, byte_eq_ofNat, byte_eq_ofNat,
    Exchange.peek16]
  simp only [List.length_singleton]
  omega

theorem Exchange.shows_le32 : x.shows a (le32 n) ↔ x.peek16 a + 65536 * x.peek16 (a + 2) = n % 4294967296 := by
  have hsplit : le32 n = le16 n ++ le16 (n / 65536) := by
    simp only [le32, le16, List.cons_append, List.nil_append, Nat.div_div_eq_div_mul]
  have hlength : (le16 n).length = 2 := rfl
  have h0 : x.peek16 a < 65536 := by
    have := (x.peek a).isLt
    have := (x.peek (a + 1)).isLt
    unfold Exchange.peek16
    omega
  rw [hsplit, Exchange.shows_append, Exchange.shows_le16, hlength, Exchange.shows_le16]
  omega

theorem recordRegion_eq (rs : List RestartRecord) {i j : Nat} (hi : i < 8) (hj : j < 32) :
    (recordRegion rs).getD (32 * i + j) 0 = (recordAt rs i).getD j 0 := by
  rw [← recordRegion_getD rs i j hj, recordRegion, List.getD_eq_getElem?_getD, List.getD_eq_getElem?_getD,
    List.getElem?_take_of_lt (by omega)]

theorem Exchange.shows_records (rs : List RestartRecord) :
    x.shows 0x600 (recordRegion rs) ↔
      ∀ i < 8, ∀ j < 32, x.peek (0x600 + 32 * i + j) = (recordAt rs i).getD j 0 := by
  constructor
  · intro h i hi j hj
    rw [← recordRegion_eq rs hi hj, Nat.add_assoc]
    exact h _ (by rw [recordRegion_length]; omega)
  · intro h i hi
    rw [recordRegion_length] at hi
    have hsplit : 32 * (i / 32) + i % 32 = i := by omega
    rw [← hsplit, recordRegion_eq rs (by omega) (by omega), ← Nat.add_assoc]
    exact h _ (by omega) _ (by omega)

end words

/-- Before a profile is active no input has been taken (R70). -/
def State.untaken (s : State) : Prop := s.store.active = none → ∀ k : Fin 4, s.rail.inputs[k].taken = none

/-- The inputs and the fog are shown as the profile has them (R98, R176). -/
def State.profileCopies (s : State) : Bool :=
  match s.store.active with
  | some p => s.xmem.peek 0x0AE == s.inputsByte p && s.xmem.peek 0x0B2 == flagByte s.keypad.fog
  | none => s.xmem.peek 0x0AE == 0 && (List.finRange 4).all fun k => s.rail.inputs[k].taken.isNone

theorem State.profileCopies_iff {s : State} :
    s.profileCopies = true ↔ s.shown .inputs ∧ s.shown .fog ∧ s.untaken := by
  unfold State.profileCopies State.shown State.untaken
  simp only [Copy.addr, Copy.bytes]
  cases hp : s.store.active with
  | some p => simp [Exchange.shows_single]
  | none =>
    have hempty : s.xmem.shows 0x0B2 [] := fun i hi => absurd hi (Nat.not_lt_zero i)
    simp [Exchange.shows_single, hempty]

theorem Copy.forall_iff {P : Copy → Prop} :
    (∀ c, P c) ↔
      P .flags ∧ (∀ k, P (.entry k)) ∧ P .railValues ∧ P .average ∧ P .inputs ∧ P .fog ∧ P .read ∧ P .rail ∧ P .wait ∧
        P .restart ∧ P .watchdog ∧ P .refusal ∧ P .ladder ∧ P .records ∧ P .written ∧ P .gap ∧ P .count := by
  constructor
  · intro h
    exact ⟨h _, fun k => h _, h _, h _, h _, h _, h _, h _, h _, h _, h _, h _, h _, h _, h _, h _, h _⟩
  · rintro ⟨_, hentry, _⟩ c
    cases c with
    | entry k => exact hentry k
    | _ => tauto

theorem State.shown_entry {s : State} (k : Fin 6) :
    s.shown (.entry k) ↔ ∀ i < 5, s.xmem.peek (0x040 + 8 * k.val + i) = s.sense.channels[k].entry.getD i 0 :=
  Iff.rfl

theorem State.shown_railValues {s : State} :
    s.shown .railValues ↔
      s.xmem.peek16 0x08C = s.sense.railVoltage % 65536 ∧ s.xmem.peek16 0x08E = s.sense.railCurrent % 65536 := by
  unfold State.shown
  simp only [Copy.addr, Copy.bytes, Exchange.shows_append, Exchange.shows_le16]
  rfl

theorem State.mirrored_iff {s : State} :
    s.mirrored = true ↔ (∀ c, s.shown c) ∧ s.xmem.summaryShown ∧ s.xmem.enableShown ∧ s.untaken := by
  have hfold : s.mirrored =
      (s.xmem.peek 0x04 == headerFlags s.store.active.isSome (s.store.active.isSome && s.store.factoryActive) &&
        ((List.finRange 6).all fun k =>
          (List.range 5).all fun i => s.xmem.peek (0x040 + 8 * k.val + i) == s.sense.channels[k].entry.getD i 0) &&
        s.xmem.peek16 0x08C == s.sense.railVoltage % 65536 && s.xmem.peek16 0x08E == s.sense.railCurrent % 65536 &&
        s.xmem.peek16 0x090 == s.sense.railAverage % 65536 && s.profileCopies &&
        s.xmem.peek16 0x16 == s.keypad.readCounter.toNat &&
        s.xmem.peek 0x19 == s.rail.state.code && s.xmem.peek 0x0AC == s.rail.waitReason.code &&
        s.xmem.peek 0x0AD == flagByte s.rail.restartPending &&
        s.xmem.peek 0x1A == s.mon.watchdog.code && s.xmem.peek 0x13 == s.mon.lastRefusal.code &&
        s.xmem.peek 0x0AF == BitVec.ofNat 8 s.mon.ladderIndex &&
        ((List.range 8).all fun i =>
          (List.range 32).all fun j => s.xmem.peek (0x600 + 32 * i + j) == (recordAt s.mon.records i).getD j 0) &&
        s.xmem.peek16 0x14 == s.keypad.writeCounter.toNat && s.xmem.peek 0x18 == BitVec.ofNat 8 s.keypad.gap &&
        s.xmem.peek16 0x0C == s.xmem.summary.toNat && s.xmem.peek16 0x10 == s.xmem.enable.toNat &&
        s.xmem.peek16 0x08 + 65536 * s.xmem.peek16 0x0A == s.time.slotCount.toNat) := rfl
  have hread : s.keypad.readCounter.toNat % 65536 = s.keypad.readCounter.toNat := Nat.mod_eq_of_lt s.keypad.readCounter.isLt
  have hwritten : s.keypad.writeCounter.toNat % 65536 = s.keypad.writeCounter.toNat := Nat.mod_eq_of_lt s.keypad.writeCounter.isLt
  have hcount : s.time.slotCount.toNat % 4294967296 = s.time.slotCount.toNat := Nat.mod_eq_of_lt s.time.slotCount.isLt
  have hsummary : s.xmem.summary.toNat % 65536 = s.xmem.summary.toNat := by have := s.xmem.summary.isLt; omega
  have henable : s.xmem.enable.toNat % 65536 = s.xmem.enable.toNat := by have := s.xmem.enable.isLt; omega
  rw [hfold, Copy.forall_iff]
  simp only [Bool.and_eq_true, beq_iff_eq, List.all_eq_true, List.mem_finRange, true_imp_iff, List.mem_range,
    State.profileCopies_iff, State.shown_entry, State.shown_railValues]
  simp only [State.shown, Copy.addr, Copy.bytes, Exchange.shows_single, Exchange.shows_le16, Exchange.shows_le32,
    Exchange.shows_records, Exchange.summaryShown, Exchange.enableShown, hread,
    hwritten, hcount, hsummary, henable, and_assoc]
  tauto

/-! ### Every event -/

/-- What the host can read of the blocks. -/
def State.headerKept (s : State) : Prop :=
  s.queueKept ∧ (∀ c, s.shown c) ∧ s.xmem.summaryShown ∧ s.xmem.enableShown ∧ s.untaken

section
variable {s t : State}

theorem State.Change.untaken (h : s.Change t) (hs : s.untaken) : t.untaken := by
  have hinputs (hi : t.rail.inputs = s.rail.inputs) : t.untaken := by
    unfold State.untaken
    rw [h.active, hi]
    exact hs
  cases h with
  | rail f _ _ _ hi => exact hinputs hi
  | railState now new => exact hinputs (by rw [State.setRail_rail])
  | input p levels k hp => exact fun hnone => by rw [(State.Change.input p levels k hp).active, hp] at hnone; cases hnone
  | wait => exact hinputs rfl
  | restart => exact hinputs rfl
  | railCodes mV mA => exact hinputs (by unfold State.takeRailCodes; dsimp only; split <;> simp)
  | readCounter => exact hinputs (by unfold State.takeReadCounter; dsimp only; split <;> simp)
  | _ => exact hinputs (by simp)

theorem State.headerKept_change (hwf : s.xmem.wf = true) (hs : s.headerKept) (h : s.Change t) : t.headerKept := by
  obtain ⟨hqueue, hshown, hsummary, henable, huntaken⟩ := hs
  obtain ⟨_, hs', he'⟩ := h.follows hwf
  exact ⟨h.queueKept hwf hqueue, fun c => h.shown hwf (hshown c), hs' hsummary, he' henable, h.untaken huntaken⟩

theorem State.setFanSpeed_changes (f : Fin 2) (r : FanRec) : s.Changes (s.setFanSpeed f r) := by
  have hset : s.Changes (s.mapAir fun a => { a with fans := a.fans.set f r }) := .of_change (.air _ id)
  exact .ite (fun _ => hset.trans (State.page_changes (by fin_cases f <;> simp [rangeWithin, pageBytes, le16])))
    fun _ => hset

theorem State.publishClimate_changes : s.Changes s.publishClimate := by
  have hzones : s.Changes ((List.finRange 3).foldl State.publishZone s) :=
    .foldl _ (fun _ z _ => State.page_changes (by fin_cases z <;> simp [rangeWithin, pageBytes, sle16, le16])) (.refl s)
  exact (hzones.trans (State.page_changes (by simp [rangeWithin, pageBytes, le16]))).trans
    (State.page_changes (by simp [rangeWithin, pageBytes, le16]))

/-- The climate controller's record is no copy. -/
theorem State.mapClimate_headerKept (f : Climate → Climate) (hs : s.headerKept) : (s.mapClimate f).headerKept := by
  obtain ⟨hqueue, hshown, hsummary, henable, huntaken⟩ := hs
  exact ⟨hqueue, fun c => by have := hshown c; cases c <;> exact this, hsummary, henable, huntaken⟩

theorem State.climateBoundary_eq (now : SlotCount) (p : Image) (s : State) :
    ∃ f, (s.climateBoundary now p).1 = (s.mapClimate f).publishClimate := ⟨_, rfl⟩

/-- The store's images are no copy, but for which is active. -/
theorem State.mapStore_headerKept (f : Store → Store) (ha : (f s.store).active = s.store.active)
    (hf : (f s.store).factoryActive = s.store.factoryActive) (hs : s.headerKept) : (s.mapStore f).headerKept := by
  obtain ⟨hqueue, hshown, hsummary, henable, huntaken⟩ := hs
  refine ⟨hqueue, fun c => ?_, hsummary, henable, ?_⟩
  · have hbytes : c.bytes (s.mapStore f) = c.bytes s := by
      cases c <;> simp [Copy.bytes, State.inputsByte, State.inputActive, ha, hf]
    have := hshown c
    unfold State.shown at this ⊢
    rw [hbytes]
    exact this
  · unfold State.untaken
    rw [State.mapStore_store, ha]
    exact huntaken

theorem State.powerUp_headerKept (low : Bool) (s : State) : (s.powerUp low).headerKept := by
  have hqueue : State.reset.queueSound = true := by decide +kernel
  have hmirrored : State.reset.mirrored = true := by decide +kernel
  have hsame : (s.powerUp low).mirrored = State.reset.mirrored := rfl
  exact ⟨State.queueSound_iff.mp hqueue, State.mirrored_iff.mp (hsame.trans hmirrored)⟩

/-- All that the host can read, but the copy `d`. -/
def State.headerKeptBut (d : Copy) (s : State) : Prop :=
  s.queueKept ∧ (∀ c, c ≠ d → s.shown c) ∧ s.xmem.summaryShown ∧ s.xmem.enableShown ∧ s.untaken

theorem State.headerKeptBut_change {d : Copy} (hwf : s.xmem.wf = true) (hs : s.headerKeptBut d) (h : s.Change t) :
    t.headerKeptBut d := by
  obtain ⟨hqueue, hshown, hsummary, henable, huntaken⟩ := hs
  obtain ⟨_, hs', he'⟩ := h.follows hwf
  exact ⟨h.queueKept hwf hqueue, fun c hc => h.shown hwf (hshown c hc), hs' hsummary, he' henable, h.untaken huntaken⟩

/-- A part write of a copy shows it. -/
theorem State.headerKept_of_but {d : Copy} (hwf : s.xmem.wf = true) (hs : s.headerKeptBut d)
    (hshown : ∀ c, (c ≠ d → s.shown c) → t.shown c) (hx : t.xmem = s.xmem.partWrite d.addr (d.bytes t))
    (hd : 0x12 ≤ d.addr ∧ d.addr + d.length ≤ 0x500) (hkeypad : t.keypad = s.keypad) (hstore : t.store = s.store)
    (hrail : t.rail = s.rail) : t.headerKept := by
  obtain ⟨hqueue, hothers, hsummary, henable, huntaken⟩ := hs
  have hlength := d.bytes_length t
  have hwrites : s.xmem.writes [(d.addr, d.length)] t.xmem := by
    rw [hx]
    exact Exchange.writes_partWrite (by simp [rangeWithin, hlength]) _
  have hfollows : s.xmem.follows t.xmem := by
    rw [hx]
    exact Exchange.partWrite_follows (.inl hd.1) _
  obtain ⟨_, hs', he'⟩ := hfollows hwf
  refine ⟨State.queueKept_of_writes hwf hqueue hwrites (by simp [hd.2]) (by rw [hkeypad]) (by rw [hkeypad]) (by rw [hkeypad]),
    fun c => hshown c (hothers c), hs' hsummary, he' henable, ?_⟩
  unfold State.untaken
  rw [hstore, hrail]
  exact huntaken

theorem State.inputsByte_of_untaken (h : ∀ k : Fin 4, s.rail.inputs[k].taken = none) (p : Image) :
    s.inputsByte p = 0 := by
  have hinactive (k : Fin 4) : s.inputActive p k = false := by
    unfold State.inputActive
    rw [h k]
    rfl
  simp only [State.inputsByte, hinactive]
  decide

/-- A profile that comes into force with its flags shown: nothing else that the host can read changes but `d`. -/
theorem State.headerKeptBut_activated {d : Copy} {f : Store → Store} {p : Image} (hwf : s.xmem.wf = true) (hs : s.headerKept)
    (hp : (f s.store).active = some p)
    (hbytes : ∀ c, c ≠ d → c ≠ .flags → c.bytes (s.mapStore f) = c.bytes s) :
    ((s.mapStore f).mapX (Exchange.partWrite 0x04 [headerFlags true (f s.store).factoryActive])).headerKeptBut d := by
  obtain ⟨hqueue, hshown, hsummary, henable, huntaken⟩ := hs
  have hfollows := Exchange.partWrite_follows (a := 0x04) (bs := [headerFlags true (f s.store).factoryActive])
    (.inr (by simp)) s.xmem
  have hwrites : s.xmem.writes [(0x04, 1)] (s.xmem.partWrite 0x04 [headerFlags true (f s.store).factoryActive]) :=
    Exchange.writes_partWrite (by simp [rangeWithin]) _
  refine ⟨State.queueKept_of_writes (s := s) hwf hqueue hwrites (by decide) rfl rfl rfl, fun c hc => ?_,
    (hfollows hwf).2.1 hsummary, (hfollows hwf).2.2 henable, fun hnone => ?_⟩
  · refine State.shown_published .flags hwf (fun _ => hshown c) (fun hne => ?_) (by simp [Copy.bytes]) ?_
    · rw [← hbytes c hc hne]
      cases c <;> rfl
    · simp [Copy.bytes, Copy.addr, hp]
  · have hactive : ((s.mapStore f).mapX (Exchange.partWrite 0x04
        [headerFlags true (f s.store).factoryActive])).store.active = some p := hp
    rw [hactive] at hnone
    cases hnone

theorem State.publishFog_headerKept {p : Image} (hwf : s.xmem.wf = true) (hp : s.store.active = some p)
    (hs : s.headerKeptBut .fog) : s.publishFog.headerKept := by
  have hbytes : Copy.bytes s.publishFog .fog = [flagByte s.keypad.fog] := by
    have hactive : s.publishFog.store.active = some p := hp
    simp only [Copy.bytes, hactive]
    rfl
  exact State.headerKept_of_but hwf hs (fun c h => State.publishFog_shown hwf h) (by rw [hbytes]; rfl) (by decide)
    rfl rfl rfl

theorem State.publishInputs_headerKept {p : Image} (hwf : s.xmem.wf = true) (hp : s.store.active = some p)
    (hs : s.headerKeptBut .inputs) : (s.publishInputs p).headerKept := by
  have hbytes : Copy.bytes (s.publishInputs p) .inputs = [s.inputsByte p] := by
    have hactive : (s.publishInputs p).store.active = some p := hp
    simp only [Copy.bytes, hactive]
    rfl
  exact State.headerKept_of_but hwf hs (fun c h => State.publishInputs_shown hwf hp h) (by rw [hbytes]; rfl) (by decide)
    rfl rfl rfl

/-- The part with the profile of the load active and the flags shown (R176). -/
def State.loadFlagged (s : State) : State :=
  let good := validImage s.store.storedImage
  (({ s with supplyLow := false } : State).mapStore fun t =>
    { t with active := some s.loadedImage, factoryActive := !good }).mapX
      (Exchange.partWrite 0x04 [headerFlags true (!good)])

theorem State.loadFlagged_headerKeptBut (hwf : s.xmem.wf = true) (hs : s.headerKept) (hnone : s.store.active = none) :
    s.loadFlagged.headerKeptBut .fog := by
  have huntaken : ∀ k : Fin 4, s.rail.inputs[k].taken = none := hs.2.2.2.2 hnone
  have hlow : State.headerKept { s with supplyLow := false } := by
    obtain ⟨hqueue, hshown, hrest⟩ := hs
    exact ⟨hqueue, fun c => by have := hshown c; cases c <;> exact this, hrest⟩
  refine State.headerKeptBut_activated (s := { s with supplyLow := false }) (p := s.loadedImage) hwf hlow rfl
    fun c hc hf => ?_
  cases c with
  | fog => exact absurd rfl hc
  | flags => exact absurd rfl hf
  | inputs =>
    have hbyte : (({ s with supplyLow := false } : State).mapStore fun t =>
        { t with active := some s.loadedImage, factoryActive := !validImage s.store.storedImage }).inputsByte
          s.loadedImage = 0 := State.inputsByte_of_untaken huntaken _
    simp only [Copy.bytes, State.mapStore_store, hbyte, hnone]
  | _ => rfl

/-- The part with PROFILE_DEFAULTED raised for the factory profile (R176). -/
def State.loadNoticed (s : State) : State :=
  if validImage s.store.storedImage then s.loadFlagged else s.loadFlagged.raise .profileDefaulted

theorem State.loaded_eq (s : State) :
    s.loaded =
      ((s.loadNoticed.loadReference (serviceReference s.loadNoticed.store.serviceRecord)).beginMonitor
        s.loadedImage).beginKeypad s.loadedImage := rfl

theorem State.beginKeypad_eq (p : Image) (s : State) :
    ∃ keys, s.beginKeypad p = (s.mapKeypad fun kp => { kp with keys := keys }).publishFog := ⟨_, rfl⟩

theorem State.beginMonitor_changes (rref : Nat) (p : Image) : s.Changes ((s.loadReference rref).beginMonitor p) := by
  unfold State.loadReference State.beginMonitor
  exact (Changes.of_change (.air _ id)).andThen (.monitor _ rfl rfl rfl rfl)

/-- The load publishes the fog last (R176). -/
theorem State.loaded_headerKept (hwf : s.xmem.wf = true) (hs : s.headerKept) (hnone : s.store.active = none) :
    s.loaded.headerKept := by
  have hflagged := State.loadFlagged_headerKeptBut hwf hs hnone
  have hwfFlagged : s.loadFlagged.xmem.wf = true := Exchange.wf_partWrite (x := s.xmem) hwf 0x04 _
  have hnoticed : s.loadFlagged.Changes s.loadNoticed := .ite (fun _ => .refl _) fun _ => .of_change (.raise _)
  rw [State.loaded_eq]
  obtain ⟨keys, hkeys⟩ := State.beginKeypad_eq s.loadedImage
    ((s.loadNoticed.loadReference (serviceReference s.loadNoticed.store.serviceRecord)).beginMonitor s.loadedImage)
  rw [hkeys]
  have hbefore := (hnoticed.trans (State.beginMonitor_changes (serviceReference s.loadNoticed.store.serviceRecord)
    s.loadedImage)).andThen (.keypad (fun kp => { kp with keys := keys }) rfl rfl rfl rfl id)
  obtain ⟨hwfBefore, hkept⟩ := hbefore.keeps (fun _ _ hw hv hc => State.headerKeptBut_change hw hv hc) hwfFlagged hflagged
  have hactive := hbefore.active
  exact State.publishFog_headerKept hwfBefore (hactive.trans rfl) hkept

theorem State.loadProfile_headerKept (hwf : s.xmem.wf = true) (hs : s.headerKept) (hnone : s.store.active = none) :
    s.loadProfile.headerKept := by
  have hloaded := State.loaded_headerKept hwf hs hnone
  have hready : (s.loaded.mapX fun x => { x with ready := true }).headerKept := by
    obtain ⟨hqueue, hshown, hrest⟩ := hloaded
    exact ⟨hqueue, fun c => by have := hshown c; cases c <;> exact this, hrest⟩
  rw [State.loadProfile_eq]
  exact ((State.beginRail_changes s.loadedImage (s.loaded.mapX fun x => { x with ready := true })).keeps
    (fun _ _ hw hv hc => State.headerKept_change hw hv hc) ((State.loaded_writes s) hwf).wf hready).2

theorem State.forced_headerKept (hwf : s.xmem.wf = true) (hs : s.headerKept) (hactive : s.store.active.isSome = true) :
    s.forced.headerKept := by
  obtain ⟨q, hq⟩ := Option.isSome_iff_exists.mp hactive
  have hflags : s.bringIntoForce.headerKeptBut .inputs := by
    refine State.headerKeptBut_activated (p := s.store.storedImage) hwf hs rfl fun c hc hf => ?_
    cases c with
    | fog => simp [Copy.bytes, hq]
    | inputs => exact absurd rfl hc
    | flags => exact absurd rfl hf
    | _ => rfl
  have hwfFlags : s.bringIntoForce.xmem.wf = true := Exchange.wf_partWrite hwf 0x04 _
  have hadopted : s.bringIntoForce.Changes (s.bringIntoForce.adoptMonitor s.store.storedImage) :=
    .ite (fun _ => .of_change (.ladder _ (fun h => nomatch h) fun p hp _ => by
      obtain rfl : s.store.storedImage = p := Option.some.inj hp
      exact le_refl _)) fun _ => .refl _
  obtain ⟨hwfAdopted, hkept⟩ := hadopted.keeps (fun _ _ hw hv hc => State.headerKeptBut_change hw hv hc) hwfFlags hflags
  exact State.publishInputs_headerKept hwfAdopted (by rw [hadopted.active]; rfl) hkept

theorem State.boundaryBegun_headerKept (hwf : s.xmem.wf = true) (hs : s.headerKept)
    (hactive : s.store.active.isSome = true) : s.boundaryBegun.headerKept := by
  have htimed : (s.mapTime fun t => { t with boundaryTaken := true }).headerKept :=
    State.headerKept_change hwf hs (.time _ rfl)
  unfold State.boundaryBegun
  split
  · exact State.forced_headerKept (s := s.mapTime _) hwf htimed hactive
  · exact htimed

/-- An expiry publishes the watchdog at its end (R124). -/
theorem State.expire_headerKept {p : Image} (cause : RestartCause) (e : SlotCount) (hwf : s.xmem.wf = true)
    (hs : s.headerKept) (hp : s.store.active = some p) : (s.expire cause p e).headerKept := by
  obtain ⟨u, hbefore, hafter⟩ := State.expire_changes cause e hp
  obtain ⟨hwfu, hu⟩ := hbefore.keeps (fun _ _ hw hv hc => State.headerKept_change hw hv hc) hwf hs
  obtain ⟨hqueue, hshown, hsummary, henable, huntaken⟩ := hu
  have hrest {P : State → Prop} (hP : ∀ v w, v.xmem.wf = true → P v → v.Change w → P w)
      (h : P (u.mapMon fun m =>
        { m with watchdog := .expired, stageEnd := none, pendingRecord := some m.recordCounter })) :
      P (s.expire cause p e) := (hafter.keeps hP hwfu h).2
  refine ⟨hrest (fun _ _ hw hv hc => hc.queueKept hw hv) hqueue, fun c => ?_,
    hrest (P := fun v => v.xmem.summaryShown) (fun _ _ hw hv hc => (hc.follows hw).2.1 hv) hsummary,
    hrest (P := fun v => v.xmem.enableShown) (fun _ _ hw hv hc => (hc.follows hw).2.2 hv) henable,
    hrest (fun _ _ _ hv hc => hc.untaken hv) huntaken⟩
  by_cases hc : c = .watchdog
  · rw [State.expire_eq]
    refine State.publishWatchdog_shown_copy ?_ e fun hne => absurd hc hne
    exact ((State.carryOut_writes e p _ _) ((State.expired_writes p e s cause) hwf).wf).wf
  · refine hrest (P := fun v => v.shown c) (fun _ _ hw hv hchange => hchange.shown hw hv) ?_
    have := hshown c
    cases c <;> trivial

theorem State.shows_of_peek {x y : Exchange} {a : Nat} {bs : List Byte} (ha : a + bs.length ≤ memorySize)
    (h : ∀ b < memorySize, a ≤ b → b < a + bs.length → y.peek b = x.peek b) (hs : x.shows a bs) : y.shows a bs :=
  fun i hi => (h (a + i) (by omega) (by omega) (by omega)).trans (hs i hi)

/-- Another memory that reads the same. -/
theorem State.shown_of_peek {x : Exchange} {c : Copy}
    (h : ∀ b < memorySize, c.addr ≤ b → b < c.addr + c.length → x.peek b = s.xmem.peek b) (hs : s.shown c) :
    State.shown { s with xmem := x } c := by
  have hlength := c.bytes_length s
  have hbytes : c.bytes { s with xmem := x } = c.bytes s := by cases c <;> rfl
  unfold State.shown at hs ⊢
  rw [hbytes]
  exact State.shows_of_peek (by have := c.within; unfold memorySize; omega)
    (fun b hb hlow hhigh => h b hb hlow (by omega)) hs

theorem State.queueKept_of_peek {x : Exchange}
    (h : ∀ b < memorySize, 0x500 ≤ b → b < 0x600 → x.peek b = s.xmem.peek b) (hs : s.queueKept) :
    State.queueKept { s with xmem := x } := by
  obtain ⟨hcount, hgap, hentries⟩ := hs
  refine ⟨hcount, hgap, fun i hi => ?_⟩
  have := hentries i hi
  simp only [Exchange.peek16] at this ⊢
  rw [h _ (by unfold memorySize; omega) (by omega) (by omega), h _ (by unfold memorySize; omega) (by omega) (by omega)]
  exact this

theorem State.reframed_headerKept {x : Exchange} (hs : s.headerKept) (hx : s.xmem.Reframed x) :
    State.headerKept { s with xmem := x } := by
  obtain ⟨hqueue, hshown, hsummary, henable, huntaken⟩ := hs
  refine ⟨State.queueKept_of_peek (fun b hb _ _ => hx.peek b hb) hqueue,
    fun c => State.shown_of_peek (fun b hb _ _ => hx.peek b hb) (hshown c), ?_, ?_, huntaken⟩
  · unfold Exchange.summaryShown at hsummary ⊢
    dsimp only
    rw [hx.summary]
    exact State.shows_of_peek (by simp [le16, memorySize]) (fun b hb _ _ => hx.peek b hb) hsummary
  · unfold Exchange.enableShown at henable ⊢
    dsimp only
    rw [hx.enable]
    exact State.shows_of_peek (by simp [le16, memorySize]) (fun b hb _ _ => hx.peek b hb) henable

/-- A landing writes no byte that the table of R156 withholds from the host. -/
theorem Exchange.landHost_kept {x : Exchange} {held : Bool} {cs : List Host.Cell} (hwf : x.wf = true)
    (hheld : x.frame.held = []) (hcs : ∀ c ∈ cs, x.guard held c = true) {b : Nat} (hb : b < memorySize)
    (hout : ∀ v, (b, v) ∈ cs → x.guard held (b, v) = false) : (x.landHost cs).peek b = x.peek b := by
  rw [Exchange.peek_landHost hwf hheld cs hb, Held.get_eq_none, Option.getD_none]
  intro v hv
  have := hcs _ hv
  rw [hout v hv] at this
  cases this

theorem guard_withholds {x : Exchange} {held : Bool} {c : Host.Cell} (haction : headerAction c.1 = false)
    (htable : c.1 < 0x100 ∨ 0x500 ≤ c.1) (hstaging : c.1 < 0x800) : x.guard held c = false := by
  have h1 : ¬(0x100 ≤ c.1 ∧ c.1 < 0x500) := by omega
  have h2 : ¬(0x800 ≤ c.1 ∧ c.1 < 0xC00) := by omega
  simp only [Exchange.guard, haction, h1, h2, Bool.false_eq_true, if_false]

theorem not_mem_of_untouched {cs : List Host.Cell} {lo hi b : Nat} (h : ¬touched cs lo hi = true) (hlow : lo ≤ b)
    (hhigh : b ≤ hi) (v : Byte) : (b, v) ∉ cs := fun hmem =>
  h (List.any_eq_true.mpr ⟨(b, v), hmem, by simp [hlow, hhigh]⟩)

/-- The copies that no host byte can reach. -/
theorem Copy.withheld (c : Copy) {b : Nat} (hc : c ≠ .read) (hlow : c.addr ≤ b) (hhigh : b < c.addr + c.length) :
    headerAction b = false ∧ (b < 0x100 ∨ 0x500 ≤ b) ∧ b < 0x800 := by
  have hall : ∀ c ∈ Copy.all, c ≠ .read → ∀ i < c.length, headerAction (c.addr + i) = false ∧
      (c.addr + i < 0x100 ∨ 0x500 ≤ c.addr + i) ∧ c.addr + i < 0x800 := by decide +kernel
  obtain ⟨i, rfl⟩ : ∃ i, b = c.addr + i := ⟨b - c.addr, by omega⟩
  exact hall c c.mem_all hc i (by omega)

section delivery
variable {x : Exchange} {cs : List Host.Cell}

/-- What a landing leaves shown: every copy but those whose words the frame wrote (R155, R156). -/
theorem State.landHost_shown {held : Bool} (hx : s.xmem.Reframed x) (hcs : ∀ c ∈ cs, x.guard held c = true) {c : Copy}
    (hc : c = .read → ¬touched cs 0x16 0x17 = true) (hs : s.shown c) :
    State.shown { s with xmem := x.landHost cs } c := by
  refine State.shown_of_peek (fun b hb hlow hhigh => ?_) hs
  by_cases hread : c = .read
  · subst hread
    have hlow' : 0x16 ≤ b := hlow
    have hhigh' : b < 0x16 + 2 := hhigh
    rw [Exchange.peek_landHost hx.wf hx.held cs hb,
      Held.get_eq_none (not_mem_of_untouched (hc rfl) hlow' (by omega)), Option.getD_none, hx.peek b hb]
  · obtain ⟨haction, htable, hstaging⟩ := c.withheld hread hlow hhigh
    rw [Exchange.landHost_kept hx.wf hx.held hcs hb fun _ _ => guard_withholds haction htable hstaging, hx.peek b hb]

theorem State.landHost_summaryShown {held : Bool} (hx : s.xmem.Reframed x) (hcs : ∀ c ∈ cs, x.guard held c = true)
    (hs : s.xmem.summaryShown) : (x.landHost cs).summaryShown := by
  have hsummary : (x.landHost cs).summary = s.xmem.summary := hx.summary
  unfold Exchange.summaryShown
  rw [hsummary]
  refine State.shows_of_peek (by simp [le16, memorySize]) (fun b hb hlow hhigh => ?_) hs
  have hword : b = 0x0C ∨ b = 0x0D := by simp [le16] at hhigh; omega
  rw [Exchange.landHost_kept hx.wf hx.held hcs hb fun _ _ => ?_, hx.peek b hb]
  obtain rfl | rfl := hword
  · exact guard_withholds rfl (by simp) (by simp)
  · exact guard_withholds rfl (by simp) (by simp)

theorem State.landHost_enableShown (hx : s.xmem.Reframed x) (ht : ¬touched cs 0x10 0x11 = true)
    (hs : s.xmem.enableShown) : (x.landHost cs).enableShown := by
  have henable : (x.landHost cs).enable = s.xmem.enable := hx.enable
  unfold Exchange.enableShown
  rw [henable]
  refine State.shows_of_peek (by simp [le16, memorySize]) (fun b hb hlow hhigh => ?_) hs
  have hhigh' : b ≤ 0x11 := by simp [le16] at hhigh; omega
  rw [Exchange.peek_landHost hx.wf hx.held cs hb, Held.get_eq_none (not_mem_of_untouched ht hlow hhigh'),
    Option.getD_none, hx.peek b hb]

theorem State.landHost_queueKept {held : Bool} (hx : s.xmem.Reframed x) (hcs : ∀ c ∈ cs, x.guard held c = true)
    (hs : s.queueKept) : State.queueKept { s with xmem := x.landHost cs } := by
  refine State.queueKept_of_peek (fun b hb hlow hhigh => ?_) hs
  have haction : headerAction b = false := by simp [headerAction]; omega
  rw [Exchange.landHost_kept hx.wf hx.held hcs hb fun _ _ => guard_withholds haction (by simp; omega) (by simp; omega),
    hx.peek b hb]

/-- The part after the acknowledge word (R157). -/
def State.acknowledgeDelivered (cs : List Host.Cell) (s : State) : State :=
  if touched cs 0x0E 0x0F then s.mapX Exchange.deliverAcknowledge else s

/-- The part after the enable word. -/
def State.enableDelivered (cs : List Host.Cell) (s : State) : State :=
  if touched cs 0x10 0x11 then s.mapX Exchange.deliverEnable else s

/-- The part after the kick word. -/
def State.kickDelivered (now : SlotCount) (cs : List Host.Cell) (s : State) : State :=
  if touched cs 0x12 0x12 then s.kick now (s.xmem.peek 0x12) else s

/-- The part after the read counter's word. -/
def State.readDelivered (now : SlotCount) (cs : List Host.Cell) (s : State) : State :=
  if touched cs 0x16 0x17 then s.deliverReadCounter now else s

theorem State.deliverWords_eq (now : SlotCount) (cs : List Host.Cell) (s : State) :
    s.deliverWords now cs =
      (((s.acknowledgeDelivered cs).enableDelivered cs).kickDelivered now cs).readDelivered now cs := rfl

theorem State.acknowledgeDelivered_changes (cs : List Host.Cell) : s.Changes (s.acknowledgeDelivered cs) :=
  .ite (fun _ => .of_change .acknowledge) fun _ => .refl s

theorem State.enableDelivered_changes (cs : List Host.Cell) : s.Changes (s.enableDelivered cs) :=
  .ite (fun _ => .of_change .enable) fun _ => .refl s

theorem State.kickDelivered_changes (now : SlotCount) (cs : List Host.Cell) : s.Changes (s.kickDelivered now cs) :=
  .ite (fun _ => State.kick_changes now _) fun _ => .refl s

theorem State.readDelivered_changes (now : SlotCount) (cs : List Host.Cell) : s.Changes (s.readDelivered now cs) :=
  .ite (fun _ => State.deliverReadCounter_changes now) fun _ => .refl s

theorem Changes.enableShown (h : s.Changes t) (hwf : s.xmem.wf = true) (hs : s.xmem.enableShown) :
    t.xmem.enableShown :=
  (h.keeps (P := fun v => v.xmem.enableShown) (fun _ _ hw hv hc => (hc.follows hw).2.2 hv) hwf hs).2

theorem Changes.shown {c : Copy} (h : s.Changes t) (hwf : s.xmem.wf = true) (hs : s.shown c) : t.shown c :=
  (h.keeps (P := fun v => v.shown c) (fun _ _ hw hv hc => hc.shown hw hv) hwf hs).2

/-- The delivery of the enable word, where the frame wrote it, shows the enable (R161). -/
theorem State.deliverWords_enableShown (now : SlotCount) (hwf : s.xmem.wf = true)
    (hs : ¬touched cs 0x10 0x11 = true → s.xmem.enableShown) : (s.deliverWords now cs).xmem.enableShown := by
  have hack := State.acknowledgeDelivered_changes (s := s) cs
  have hafter (u : State) (hu : u.xmem.wf = true) (h : u.xmem.enableShown) :
      ((u.kickDelivered now cs).readDelivered now cs).xmem.enableShown :=
    Changes.enableShown ((State.kickDelivered_changes now cs).trans (State.readDelivered_changes now cs)) hu h
  rw [State.deliverWords_eq]
  refine hafter _ ((State.enableDelivered_changes cs).wf (hack.wf hwf)) ?_
  unfold State.enableDelivered
  split
  · exact Exchange.deliverEnable_shows (hack.wf hwf)
  · rename_i ht
    exact Changes.enableShown hack hwf (hs ht)

/-- The delivery of the read counter's word, where the frame wrote it, makes word and counter agree (R143). -/
theorem State.deliverWords_readShown (now : SlotCount) (hwf : s.xmem.wf = true)
    (hs : ¬touched cs 0x16 0x17 = true → s.shown .read) : (s.deliverWords now cs).shown .read := by
  have hbefore : s.Changes (((s.acknowledgeDelivered cs).enableDelivered cs).kickDelivered now cs) :=
    ((State.acknowledgeDelivered_changes cs).trans (State.enableDelivered_changes cs)).trans
      (State.kickDelivered_changes now cs)
  have hread (u : State) (hu : u.xmem.wf = true) : (u.deliverReadCounter now).shown .read := by
    have htaken : u.takeReadCounter.shown .read := State.takeReadCounter_shown hu fun h => absurd rfl h
    have hwfu := (State.Change.readCounter (s := u)).wf hu
    rw [State.deliverReadCounter_eq]
    split
    · rename_i h
      exact Changes.shown (State.writeGap_changes now h.2.1) hwfu htaken
    · exact htaken
  rw [State.deliverWords_eq]
  unfold State.readDelivered
  split
  · exact hread _ (hbefore.wf hwf)
  · rename_i ht
    exact Changes.shown hbefore hwf (hs ht)

theorem State.delivery_headerKept {p : Image} (hb : s.bound) (hs : s.headerKept)
    (hx : s.xmem.Reframed x) (hcs : ∀ c ∈ cs, x.guard s.store.stagingHeld c = true) :
    ({ s with xmem := x.landHost cs }.deliverAll s.time.slotCount p cs).headerKept := by
  obtain ⟨hqueue, hshown, hsummary, henable, huntaken⟩ := hs
  have hwf := Exchange.wf_landHost hx.wf cs
  have hwords := State.deliverWords_changes (s := { s with xmem := x.landHost cs }) s.time.slotCount cs
  have hwordsWf := hwords.wf hwf
  have howners := State.deliverTouched_changes s.time.slotCount p cs (hwords.bound hb)
  have hall := State.deliverAll_changes (s := { s with xmem := x.landHost cs }) s.time.slotCount p cs hb
  refine ⟨(hall.keeps (fun _ _ hw hv hc => hc.queueKept hw hv) hwf (State.landHost_queueKept hx hcs hqueue)).2,
    fun c => ?_,
    (hall.keeps (P := fun v => v.xmem.summaryShown) (fun _ _ hw hv hc => (hc.follows hw).2.1 hv) hwf
      (State.landHost_summaryShown hx hcs hsummary)).2,
    (howners.keeps (P := fun v => v.xmem.enableShown) (fun _ _ hw hv hc => (hc.follows hw).2.2 hv) hwordsWf
      (State.deliverWords_enableShown _ hwf fun ht => State.landHost_enableShown hx ht henable)).2,
    (hall.keeps (P := State.untaken) (fun _ _ _ hv hc => hc.untaken hv) hwf huntaken).2⟩
  by_cases hc : c = .read
  · subst hc
    exact (howners.keeps (P := fun v => v.shown .read) (fun _ _ hw hv hchange => hchange.shown hw hv) hwordsWf
      (State.deliverWords_readShown _ hwf fun ht => State.landHost_shown hx hcs (fun _ => ht) (hshown _))).2
  · exact (hall.keeps (P := fun v => v.shown c) (fun _ _ hw hv hchange => hchange.shown hw hv) hwf
      (State.landHost_shown hx hcs (fun h => absurd h hc) (hshown c))).2

end delivery

theorem State.headerKept_eventsKeep (hwf : s.xmem.wf = true) (hb : s.bound) (hs : s.headerKept) :
    EventsKeep State.headerKept s := by
  have hchange (u v : State) (hw : u.xmem.wf = true) (hu : u.headerKept) (hc : u.Change v) : v.headerKept :=
    State.headerKept_change hw hu hc
  refine .of_changes hwf hs hb hchange (fun low => State.powerUp_headerKept low s) (State.loadProfile_headerKept hwf hs)
    (fun f g => ?_) (fun p now hp => ?_) (fun cause p e hp _ => State.expire_headerKept cause e hwf hs hp)
    (fun _ => ?_) (fun x hx => State.reframed_headerKept hs hx)
    fun p x cs _ hx hcs => State.delivery_headerKept hb hs hx hcs
  · exact ((State.setFanSpeed_changes f g).keeps hchange hwf hs).2
  · obtain ⟨u, hbefore, _, hafter⟩ := State.boundaryWork_changes now p hb
    obtain ⟨hwfu, hu⟩ := hbefore.keeps hchange (State.boundaryBegun_wf hwf)
      (State.boundaryBegun_headerKept hwf hs (by rw [hp]; rfl))
    obtain ⟨f, hf⟩ := State.climateBoundary_eq now (s.profileAfter p) u
    rw [hf] at hafter
    have hallotted := (State.publishClimate_changes (s := u.mapClimate f)).keeps hchange hwfu
      (State.mapClimate_headerKept f hu)
    exact (hafter.keeps hchange hallotted.1 hallotted.2).2
  · exact State.mapStore_headerKept _ rfl rfl hs

end

end Sys2Proof.Machine

namespace Sys2Proof.Proofs

open Sys2Proof.Machine

/-- Settles O60: every change keeps the queue and every copy that is written at the change itself. -/
theorem headerAndQueueShowTheBlocks : Obligations.HeaderAndQueueShowTheBlocks := by
  intro s t hsound hstep
  obtain ⟨hwf, _, _, hqueue, hslips, _, _, hmirrored⟩ := State.sound_iff.mp hsound
  have hkept : s.headerKept := ⟨State.queueSound_iff.mp hqueue, State.mirrored_iff.mp hmirrored⟩
  have hafter : t.headerKept := step_keeps
    (fun rest => State.headerKept_eventsKeep (s := { s with pending := rest }) hwf
      (State.bound_of_slipsSound hslips) hkept) hwf hkept (fun _ h => h) hstep
  exact ⟨State.queueSound_iff.mpr hafter.1, State.mirrored_iff.mpr hafter.2⟩

end Sys2Proof.Proofs
end

