-- ==== Sys2Proof/Proofs/StepAndReset.lean ====
section
/-!
The statements of one step, of reset, of the changes of the supply and of events out of their time (R1, R15, R159, R175).
-/

namespace Sys2Proof.Machine

/-! ### States by their blocks -/

theorem State.ext_blocks {a b : State} (time : a.time = b.time) (sense : a.sense = b.sense)
    (climate : a.climate = b.climate) (air : a.air = b.air) (rail : a.rail = b.rail) (mon : a.mon = b.mon)
    (keypad : a.keypad = b.keypad) (xmem : a.xmem = b.xmem) (engine : a.engine = b.engine) (store : a.store = b.store)
    (supplyLow : a.supplyLow = b.supplyLow) (fresh : a.fresh = b.fresh) (pending : a.pending = b.pending) : a = b := by
  cases a
  cases b
  simp_all

@[simp] theorem State.takeRailCodes_frame (mV mA : Nat) (s : State) :
    (s.takeRailCodes mV mA).time = s.time ∧ (s.takeRailCodes mV mA).climate = s.climate ∧
      (s.takeRailCodes mV mA).air = s.air ∧ (s.takeRailCodes mV mA).rail = s.rail ∧
      (s.takeRailCodes mV mA).mon = s.mon ∧ (s.takeRailCodes mV mA).keypad = s.keypad ∧
      (s.takeRailCodes mV mA).engine = s.engine ∧ (s.takeRailCodes mV mA).store = s.store ∧
      (s.takeRailCodes mV mA).supplyLow = s.supplyLow ∧ (s.takeRailCodes mV mA).fresh = s.fresh ∧
      (s.takeRailCodes mV mA).pending = s.pending := by
  unfold State.takeRailCodes
  dsimp only
  split <;> simp

/-! ### Every command completes and leaves the queue -/

theorem State.atEnd_pending {timer : Option SlotCount} {act : Image → SlotCount → State → State} {s : State}
    (h : ∀ p e, (act p e s).pending = s.pending) : (s.atEnd timer act).pending = s.pending := by
  unfold State.atEnd
  split
  · exact h _ _
  · rfl

theorem exec_pending (s : State) (c : Instr) : ∃ t, exec c s = .next t ∧ t.pending = s.pending := by
  cases c with
  | powerOn => exact ⟨_, rfl, rfl⟩
  | brownOut => exact ⟨_, rfl, rfl⟩
  | pgoodLimitEnd => exact ⟨_, rfl, State.atEnd_pending fun _ _ => by simp⟩
  | resetHoldEnd => exact ⟨_, rfl, State.atEnd_pending fun _ _ => by simp⟩
  | stopLimitEnd => exact ⟨_, rfl, State.atEnd_pending fun _ _ => by simp⟩
  | resetDelayEnd => exact ⟨_, rfl, State.atEnd_pending fun _ _ => by simp⟩
  | resetWidthEnd => exact ⟨_, rfl, State.atEnd_pending fun _ _ => by simp⟩
  | offTimerEnd => exact ⟨_, rfl, State.atEnd_pending fun _ _ => by simp⟩
  | pulseEnd => exact ⟨_, rfl, State.atEnd_pending fun _ _ => by simp⟩
  | overrideEnd => exact ⟨_, rfl, State.atEnd_pending fun _ _ => by simp⟩
  | graceExpiry => exact ⟨_, rfl, State.atEnd_pending fun _ _ => by split <;> simp⟩
  | stage1Expiry => exact ⟨_, rfl, State.atEnd_pending fun _ _ => by split <;> simp⟩
  | stage2Expiry => exact ⟨_, rfl, State.atEnd_pending fun _ _ => by split <;> simp⟩
  | stableEnd => exact ⟨_, rfl, State.atEnd_pending fun _ _ => by simp⟩
  | hold key => exact ⟨_, rfl, State.atEnd_pending fun _ _ => by simp⟩
  | chord number => exact ⟨_, rfl, State.atEnd_pending fun _ _ => by split <;> simp⟩
  | tachEdge fan elapsed => exact ⟨_, rfl, by simp⟩
  | tachTimeout fan => exact ⟨_, rfl, by simp⟩
  | profileLoad => refine ⟨_, rfl, ?_⟩; split <;> simp
  | slotStart pgood hsleep inputs => refine ⟨_, rfl, ?_⟩; split <;> simp
  | windowBoundary => refine ⟨_, rfl, ?_⟩; split <;> simp
  | startReservationAnswer => refine ⟨_, rfl, ?_⟩; split <;> simp
  | conversionEnd channel code => refine ⟨_, rfl, ?_⟩; (repeat' split) <;> simp
  | railConversionEnd vsns isns => refine ⟨_, rfl, ?_⟩; (repeat' split) <;> simp
  | sleepHoldEnd => refine ⟨_, rfl, ?_⟩; (repeat' split) <;> simp
  | scanEnd counts => refine ⟨_, rfl, ?_⟩; split <;> simp
  | programmingEnd => refine ⟨_, rfl, ?_⟩; split <;> simp
  | serviceWriteEnd => refine ⟨_, rfl, ?_⟩; split <;> simp
  | read n => refine ⟨_, rfl, ?_⟩; (repeat' split) <;> simp
  | clear n => refine ⟨_, rfl, ?_⟩; split <;> simp
  | unknownCommand command n => refine ⟨_, rfl, ?_⟩; split <;> simp
  | status n => exact ⟨_, rfl, by simp⟩
  | readAddressComplete high low => exact ⟨_, rfl, by simp⟩
  | write bytes => exact ⟨_, rfl, by simp⟩
  | _ => exact ⟨_, rfl, by simp⟩

/-! ### Events out of their time -/

theorem State.atEnd_of_not_due {timer : Option SlotCount} (act : Image → SlotCount → State → State) {s : State}
    (h : (s.due timer).isSome = false) : s.atEnd timer act = s := by
  unfold State.atEnd
  split
  · rename_i he
    simp [he] at h
  · rfl

theorem exec_of_not_falls {s : State} {c : Instr} (hc : selfTimed c = true) (h : fallsNow s c = false) :
    exec c s = .next s := by
  have hend (timer : Option SlotCount) (act : Image → SlotCount → State → State)
      (h : (s.due timer).isSome = false) : Host.Outcome.next (s.atEnd timer act) = (.next s : Host.Outcome State Fault Refusal) :=
    congrArg _ (State.atEnd_of_not_due act h)
  cases c with
  | pgoodLimitEnd => exact hend _ _ h
  | resetHoldEnd => exact hend _ _ h
  | stopLimitEnd => exact hend _ _ h
  | resetDelayEnd => exact hend _ _ h
  | resetWidthEnd => exact hend _ _ h
  | offTimerEnd => exact hend _ _ h
  | pulseEnd => exact hend _ _ h
  | overrideEnd => exact hend _ _ h
  | stableEnd => exact hend _ _ h
  | hold k => exact hend _ _ h
  | chord k => exact hend _ _ h
  | graceExpiry =>
    refine congrArg Host.Outcome.next ?_
    unfold State.atEnd
    split
    · rename_i he
      exact if_neg fun hw => by simp [fallsNow, hw, he] at h
    · rfl
  | stage1Expiry =>
    refine congrArg Host.Outcome.next ?_
    unfold State.atEnd
    split
    · rename_i he
      exact if_neg fun hw => by simp [fallsNow, hw, he] at h
    · rfl
  | stage2Expiry =>
    refine congrArg Host.Outcome.next ?_
    unfold State.atEnd
    split
    · rename_i he
      exact if_neg fun hw => by simp [fallsNow, hw, he] at h
    · rfl
  | slotStart pgood hsleep inputs =>
    refine congrArg Host.Outcome.next ?_
    split
    · simp_all [fallsNow]
    · rfl
  | windowBoundary =>
    refine congrArg Host.Outcome.next ?_
    split
    · simp_all [fallsNow]
    · rfl
  | startReservationAnswer =>
    refine congrArg Host.Outcome.next ?_
    split
    · simp_all [fallsNow]
    · rfl
  | scanEnd counts =>
    refine congrArg Host.Outcome.next ?_
    split
    · simp_all [fallsNow]
    · rfl
  | programmingEnd =>
    refine congrArg Host.Outcome.next ?_
    split
    · simp_all [fallsNow]
    · rfl
  | serviceWriteEnd =>
    refine congrArg Host.Outcome.next ?_
    split
    · simp_all [fallsNow]
    · rfl
  | conversionEnd k code =>
    refine congrArg Host.Outcome.next ?_
    split
    · exact if_neg fun hdue => by simp_all [fallsNow]
    · rfl
  | railConversionEnd vsns isns =>
    refine congrArg Host.Outcome.next ?_
    split
    · exact if_neg fun hdue => by simp_all [fallsNow]
    · rfl
  | sleepHoldEnd =>
    refine congrArg Host.Outcome.next ?_
    split
    · exact if_neg fun hdue => by simp_all [fallsNow]
    · rfl
  | read n =>
    refine congrArg Host.Outcome.next ?_
    split
    · simp_all [fallsNow]
    · exact if_neg fun hn => by simp_all [fallsNow]
  | profileLoad =>
    refine congrArg Host.Outcome.next (if_pos ?_)
    simpa [fallsNow, Option.isSome_iff_ne_none] using h
  | _ => cases hc

/-! ### Reset and the supply -/

/-- At reset every byte but the identity fields and the enable reads 0 (R159). -/
theorem State.reset_peek (a : Nat) (h : outside [(0x00, 4), (0x10, 2)] a = true) : State.reset.xmem.peek a = 0 := by
  simp only [outside, List.all_cons, List.all_nil, Bool.and_true, Bool.and_eq_true, Bool.or_eq_true,
    decide_eq_true_eq] at h
  have hbyte : State.reset.xmem.peek a = resetByte a := rfl
  rw [hbyte, resetByte]
  simp only [show a ≠ 0x00 by omega, show a ≠ 0x01 by omega, show a ≠ 0x02 by omega, show a ≠ 0x03 by omega,
    show a ≠ 0x10 by omega, show a ≠ 0x11 by omega, if_false]

end Sys2Proof.Machine

namespace Sys2Proof.Proofs

open Sys2Proof.Machine

/-- Settles O1: the front command, the idle queue, and the queue that no command touches. -/
theorem stepTakesTheFrontCommand : Obligations.StepTakesTheFrontCommand := by
  refine ⟨fun s c rest h => ?_, fun s h => ?_, fun s c => exec_pending s c⟩
  · unfold step
    rw [h]
  · unfold step
    rw [h]

/-- Settles O53: the guard of each self-timed event is the one of its fall. -/
theorem eventsOutOfTheirTimeDoNothing : Obligations.EventsOutOfTheirTimeDoNothing := fun _ _ hc h =>
  exec_of_not_falls hc h

/-- Settles O2: the model's reset, block by block. -/
theorem resetValues : Obligations.ResetValues := by
  unfold Obligations.ResetValues
  have hchannels : ∀ k : Fin 6, State.reset.sense.channels[k] = Channel.initial := by decide
  have hzones : ∀ z : Fin 3, State.reset.climate.zones[z] = ZoneRec.initial ∧ State.reset.climate.heaters[z] = false := by
    decide
  have hfans : ∀ f : Fin 2, State.reset.air.fans[f] = FanRec.initial := by decide
  have hinputs : ∀ k : Fin 4, State.reset.rail.inputs[k] = { lastSample := none, agree := 0, taken := none } := by decide
  have hkeys : ∀ k : Fin 24, State.reset.keypad.keys[k] = KeyRec.initial := by decide
  have hchords : ∀ c : Fin 4, State.reset.keypad.chords[c] = { fired := false, holdEnd := none } := by decide
  have hwarm : ∀ z : Fin 3, State.reset.rail.warmCount[z] = 0 := by decide
  have hsound : State.reset.sound = true := by decide +kernel
  have hmemory (a : Nat) (_ : a < memorySize) (h : outside [(0x00, 4), (0x10, 2)] a = true) :
      State.reset.xmem.peek a = 0 := State.reset_peek a h
  have henable : State.reset.xmem.shows 0x10 [0xFF, 0x0F] := by
    unfold Exchange.shows
    decide
  exact ⟨rfl, hchannels, rfl, rfl, rfl, hzones, rfl, rfl, hfans, rfl, rfl, rfl, rfl, rfl, rfl, rfl, rfl, rfl, rfl,
    rfl, rfl, rfl, rfl, rfl, rfl, rfl, rfl, rfl, rfl, rfl, rfl, rfl, rfl, rfl, rfl, rfl, rfl, rfl, rfl, rfl, rfl,
    hwarm, hinputs, rfl, rfl, rfl, rfl, rfl, rfl, rfl, rfl, rfl, rfl, rfl, rfl, rfl, hkeys, rfl, rfl, rfl, rfl, rfl,
    rfl, rfl, rfl, hchords, rfl, rfl, rfl, rfl, rfl, rfl, rfl, rfl, rfl, rfl, rfl, henable, hmemory, rfl, rfl, rfl,
    rfl, rfl, hsound⟩

/-- Settles O3: power-on is reset but for the nonvolatile areas, and a cut-off write fails its CRC. -/
theorem powerOnAndBrownOutReset : Obligations.PowerOnAndBrownOutReset := by
  intro s
  refine ⟨s.powerUp false, rfl, rfl, fun h => ?_, fun h => ?_, fun h => ?_, rfl⟩
  · exact if_neg h
  · exact if_neg h
  · have hrecord : (s.powerUp false).store.serviceRecord = tornRecord s.fresh := if_pos h
    rw [hrecord]
    exact serviceReference_tornRecord _

end Sys2Proof.Proofs
end

