-- ==== Sys2Proof/Proofs/RailGoesOff.lean ====
section
/-!
SUPPORT. What the exchange memory and the monitor keep of a rail that goes off: the causes raised by each operation, the
copies that stand after it, and the pictures `railWentOff`, `recordAdded`, `failed` and `cutNoticed` of the statements.
-/

namespace Sys2Proof.Machine

/-! ### The causes raised (R160) -/

section causes
variable (x : Exchange)

@[simp] theorem Exchange.partWrite_summary (a : Nat) (bs : List Byte) : (x.partWrite a bs).summary = x.summary :=
  Exchange.partWriteCells_summary _ _

@[simp] theorem Exchange.partWrite_enable (a : Nat) (bs : List Byte) : (x.partWrite a bs).enable = x.enable :=
  Exchange.partWriteCells_enable _ _

@[simp] theorem Exchange.setSummary_summary (v : BitVec 12) : (x.setSummary v).summary = v :=
  Exchange.partWrite_summary _ _ _

@[simp] theorem Exchange.setSummary_enable (v : BitVec 12) : (x.setSummary v).enable = x.enable :=
  Exchange.partWrite_enable _ _ _

@[simp] theorem Exchange.raise_summary (c : Cause) : (x.raise c).summary = x.summary ||| c.bit :=
  Exchange.setSummary_summary _ _

@[simp] theorem Exchange.raise_enable (c : Cause) : (x.raise c).enable = x.enable := Exchange.setSummary_enable _ _

end causes

/-- From `x` to `y` the causes `causes` are raised, and the enable stands. -/
def Exchange.raised (causes : BitVec 12) (x y : Exchange) : Prop :=
  y.summary = x.summary ||| causes ∧ y.enable = x.enable

/-- The writes of the part and the causes it raises, in the words of the statements. -/
theorem Exchange.writes.partWrote {rs : List (Nat × Nat)} {causes : BitVec 12} {x y : Exchange} (h : x.writes rs y)
    (hwf : x.wf = true) (hr : x.raised causes y) : x.partWrote rs causes y :=
  (h hwf).partWrote hr.1 hr.2

section raised
variable (now : SlotCount) (s : State)

@[simp] theorem State.raise_xmem (c : Cause) : (s.raise c).xmem = s.xmem.raise c := rfl

@[simp] theorem State.publishWatchdog_flags :
    (s.publishWatchdog now).xmem.summary = s.xmem.summary ∧ (s.publishWatchdog now).xmem.enable = s.xmem.enable := by
  simp [State.publishWatchdog]

@[simp] theorem State.setWait_flags (w : WaitReason) :
    (s.setWait w).xmem.summary = s.xmem.summary ∧ (s.setWait w).xmem.enable = s.xmem.enable := by
  simp [State.setWait]

@[simp] theorem State.setRestartPending_flags (b : Bool) :
    (s.setRestartPending b).xmem.summary = s.xmem.summary ∧ (s.setRestartPending b).xmem.enable = s.xmem.enable := by
  simp [State.setRestartPending]

@[simp] theorem State.setLadderIndex_flags (i : Nat) :
    (s.setLadderIndex i).xmem.summary = s.xmem.summary ∧ (s.setLadderIndex i).xmem.enable = s.xmem.enable := by
  simp [State.setLadderIndex]

@[simp] theorem State.setRail_flags (new : RailState) :
    (s.setRail now new).xmem.summary = s.xmem.summary ∧ (s.setRail now new).xmem.enable = s.xmem.enable := by
  unfold State.setRail State.clearOverrides
  dsimp only
  split <;> split <;> simp

@[simp] theorem State.addRecord_flags (cause : RestartCause) (action : RecordAction) (i : Nat) (before : RailState) :
    (s.addRecord now cause action i before).xmem.summary = s.xmem.summary ||| Cause.restartNote.bit ∧
      (s.addRecord now cause action i before).xmem.enable = s.xmem.enable := by
  simp [State.addRecord, State.publishRecords, State.setRefusal]

@[simp] theorem State.enterCooldown_flags (restart : Bool) (off : Nat) :
    (s.enterCooldown now restart off).xmem.summary = s.xmem.summary ∧
      (s.enterCooldown now restart off).xmem.enable = s.xmem.enable := by
  simp [State.enterCooldown, State.cutLines]

@[simp] theorem State.enterLockout_flags :
    (s.enterLockout now).xmem.summary = s.xmem.summary ∧ (s.enterLockout now).xmem.enable = s.xmem.enable := by
  simp [State.enterLockout, State.cutLines]

@[simp] theorem State.failure_flags (p : Image) (cause : RestartCause) :
    (s.failure now p cause).xmem.summary = s.xmem.summary ||| Cause.restartNote.bit ∧
      (s.failure now p cause).xmem.enable = s.xmem.enable := by
  rw [State.failure_eq]
  split <;> simp [State.failureRecorded]

@[simp] theorem State.cutWithNotice_flags (p : Image) (cause : RestartCause) (restart : Bool) :
    (s.cutWithNotice now p cause restart).xmem.summary = s.xmem.summary ||| Cause.restartNote.bit ∧
      (s.cutWithNotice now p cause restart).xmem.enable = s.xmem.enable := by
  simp [State.cutWithNotice]

end raised

/-! ### Copies that stand -/

section copies
variable {s t : State}

/-- The remaining seconds shown depend on the monitor's watchdog and stage end alone. -/
theorem State.watchdogShown_of_writes {now : SlotCount} {rs : List (Nat × Nat)} (hwf : s.xmem.wf = true)
    (h : s.watchdogShown now) (hx : s.xmem.writes rs t.xmem)
    (hrs : (outside rs 0x1A && outside rs 0x0B0 && outside rs 0x0B1) = true) (hw : t.mon.watchdog = s.mon.watchdog)
    (he : t.mon.stageEnd = s.mon.stageEnd) : t.watchdogShown now := by
  simp only [Bool.and_eq_true] at hrs
  obtain ⟨⟨hstate, hlow⟩, hhigh⟩ := hrs
  have hkept := (hx hwf).kept
  obtain ⟨hcode, hleft⟩ := h
  unfold State.watchdogShown
  rw [hw, he]
  refine ⟨(hkept _ (by decide) hstate).trans hcode, fun i hi => ?_⟩
  refine Eq.trans ?_ (hleft i hi)
  have hi2 : i < 2 := hi
  obtain rfl | rfl : i = 0 ∨ i = 1 := by omega
  · exact hkept _ (by decide) hlow
  · exact hkept _ (by decide) hhigh

theorem recordAt_length (rs : List RestartRecord) (i : Nat) : (recordAt rs i).length = 32 := by
  unfold recordAt
  split <;> simp [le16, le32, sle16]

theorem State.shown.records (h : s.shown .records) : s.recordsShown := fun i hi j hj => by
  have hlength : (recordAt s.mon.records i).length = 32 := recordAt_length _ _
  exact (Exchange.shows_records s.mon.records).mp h i hi j (by omega)

/-- A copy of one byte. -/
theorem State.shown.byte {c : Copy} {b : Byte} (h : s.shown c) (hb : c.bytes s = [b]) : s.xmem.peek c.addr = b := by
  have hbyte := h 0 (by rw [hb]; exact Nat.one_pos)
  rwa [hb] at hbyte

end copies

/-! ### The rail goes off (R78, R85) -/

section off
variable {s u t : State} {now : SlotCount}

/-- The monitor as a cut finds it, but for the fields that records and the ladder move. -/
def Monitor.recordsAside (a b : Monitor) : Prop :=
  b =
    { a with
      ladderIndex := b.ladderIndex, lastRefusal := b.lastRefusal, recordCounter := b.recordCounter
      records := b.records }

/-- The rail goes off from the state before the record as from the state after it. -/
theorem State.railWentOff.of_recorded {target : Option (Bool × Nat)} (h : u.railWentOff target now t)
    (hrail : u.rail = s.rail) (hclimate : u.climate = s.climate) (hmon : s.mon.recordsAside u.mon) :
    s.railWentOff target now t := by
  unfold State.railWentOff at h ⊢
  rw [hrail, hclimate] at h
  obtain ⟨hr, hc, hm, hrest⟩ := h
  refine ⟨hr, hc, ?_, hrest⟩
  rw [hmon] at hm
  exact hm

theorem State.enterCooldown_wentOff (hwf : s.xmem.wf = true) (hw : s.rail.state ≠ .warming) (restart : Bool) (off : Nat) :
    s.railWentOff (some (restart, off)) now (s.enterCooldown now restart off) := by
  have hrail : (s.enterCooldown now restart off).shown .rail := by
    have hstate := State.setRail_shown_copy (s := s.cutLines) (c := .rail) hwf now .cooldown fun h => absurd rfl h
    have hwf1 := ((State.setRail_writes now .cooldown s.cutLines) hwf).wf
    exact State.setRestartPending_shown hwf1 restart fun _ => hstate
  have hpending : (s.enterCooldown now restart off).shown .restart :=
    State.setRestartPending_shown ((State.setRail_writes now .cooldown s.cutLines) hwf).wf restart fun h => absurd rfl h
  refine ⟨?_, State.enterCooldown_climate now restart off s, ?_, hrail.byte rfl, hpending.byte rfl, ?_⟩
  · rw [State.enterCooldown_rail]
    simp [Rail.cut, hw]
  · rw [State.enterCooldown_mon, Monitor.railChanged_eq]
    simp [restsAt, leavesRunning]
  · exact State.watchdogShown_of_writes ((State.setRail_writes now .cooldown s.cutLines) hwf).wf
      (State.setRail_shown now .cooldown s.cutLines hwf) (State.setRestartPending_writes restart _) (by decide) rfl rfl

theorem State.enterLockout_wentOff (hwf : s.xmem.wf = true) (hw : s.rail.state ≠ .warming) :
    s.railWentOff none now (s.enterLockout now) := by
  have hrail : (s.enterLockout now).shown .rail := by
    have hstate := State.setRail_shown_copy (s := s.cutLines) (c := .rail) hwf now .lockout fun h => absurd rfl h
    have hwf1 := ((State.setRail_writes now .lockout s.cutLines) hwf).wf
    exact State.setRestartPending_shown hwf1 false fun _ => hstate
  have hpending : (s.enterLockout now).shown .restart :=
    State.setRestartPending_shown ((State.setRail_writes now .lockout s.cutLines) hwf).wf false fun h => absurd rfl h
  refine ⟨?_, State.enterLockout_climate now s, ?_, hrail.byte rfl, hpending.byte rfl, ?_⟩
  · rw [State.enterLockout_rail]
    simp [Rail.cut, hw]
  · rw [State.enterLockout_mon, Monitor.railChanged_eq]
    simp [restsAt, leavesRunning]
  · exact State.watchdogShown_of_writes ((State.setRail_writes now .lockout s.cutLines) hwf).wf
      (State.setRail_shown now .lockout s.cutLines hwf) (State.setRestartPending_writes false _) (by decide) rfl rfl

/-! ### The record (R118, R119) -/

/-- A record stands in the monitor and is shown. -/
theorem State.recordAdded_of {cause : RestartCause} {action : RecordAction} {i : Nat} {before : RailState}
    (hcounter : t.mon.recordCounter = nextRecordNumber s.mon.recordCounter) (hrefusal : t.mon.lastRefusal = .noRefusal)
    (hrecords : t.mon.records = (s.newRecord now cause action i before :: s.mon.records).take 8)
    (hshown : t.shown .refusal) (hregion : t.shown .records) : s.recordAdded now cause action i before t := by
  refine ⟨hcounter, hrefusal, ?_, ?_, hregion.records⟩
  · have hbyte := hshown.byte rfl
    rwa [hrefusal] at hbyte
  · rw [hcounter]
    exact hrecords

/-- A cut leaves the copies that are no part of it. -/
theorem State.enterCooldown_shown_copy {c : Copy} (hwf : s.xmem.wf = true) (h : s.shown c) (restart : Bool) (off : Nat)
    (hc : Copy.apart [(0x19, 1), (0x1A, 1), (0x0AC, 2), (0x0B0, 2)] c = true)
    (hb : c.bytes (s.enterCooldown now restart off) = c.bytes s) : (s.enterCooldown now restart off).shown c :=
  State.shown_of_writes hwf h (State.enterCooldown_writes_of now restart off s (by decide) fun _ => by decide) hc hb

theorem State.enterLockout_shown_copy {c : Copy} (hwf : s.xmem.wf = true) (h : s.shown c)
    (hc : Copy.apart [(0x19, 1), (0x1A, 1), (0x0AC, 2), (0x0B0, 2)] c = true)
    (hb : c.bytes (s.enterLockout now) = c.bytes s) : (s.enterLockout now).shown c :=
  State.shown_of_writes hwf h (State.enterLockout_writes_of now s (by decide) fun _ => by decide) hc hb

/-! ### A failure and a cut with a record (R79, R95) -/

section outcomes
variable {s : State} (now : SlotCount) (p : Image) (hwf : s.xmem.wf = true)
include hwf

theorem State.failureRecorded_wf (cause : RestartCause) : (s.failureRecorded now p cause).xmem.wf = true :=
  ((State.addRecord_writes now cause _ _ _ _) ((State.setLadderIndex_writes _ s) hwf).wf).wf

/-- The record, the last refusal and the ladder index of a failure are shown before the rail goes off. -/
theorem State.failureRecorded_shown (cause : RestartCause) {c : Copy} (hc : c = .refusal ∨ c = .records ∨ c = .ladder) :
    (s.failureRecorded now p cause).shown c := by
  refine State.addRecord_shown_copy ((State.setLadderIndex_writes _ s) hwf).wf now cause _ _ _ fun hr hs => ?_
  obtain rfl | rfl | rfl := hc
  · exact absurd rfl hr
  · exact absurd rfl hs
  · exact State.setLadderIndex_shown hwf _ fun h => absurd rfl h

theorem State.failure_shown (cause : RestartCause) {c : Copy} (hc : c = .refusal ∨ c = .records ∨ c = .ladder) :
    (s.failure now p cause).shown c := by
  have hwf1 := State.failureRecorded_wf now p hwf cause
  have hrecorded := State.failureRecorded_shown now p hwf cause hc
  rw [State.failure_eq]
  split
  · refine State.enterLockout_shown_copy hwf1 hrecorded ?_ ?_
    · obtain rfl | rfl | rfl := hc <;> decide
    · obtain rfl | rfl | rfl := hc <;> simp [Copy.bytes, State.enterLockout_mon, Monitor.railChanged_eq]
  · refine State.enterCooldown_shown_copy hwf1 hrecorded _ _ ?_ ?_
    · obtain rfl | rfl | rfl := hc <;> decide
    · obtain rfl | rfl | rfl := hc <;> simp [Copy.bytes, State.enterCooldown_mon, Monitor.railChanged_eq]

omit hwf in
/-- The rail going off leaves the ladder and the records of a failure. -/
theorem State.failure_recorded (cause : RestartCause) :
    (s.failure now p cause).mon.ladderIndex = (s.failureRecorded now p cause).mon.ladderIndex ∧
      (s.failure now p cause).mon.lastRefusal = (s.failureRecorded now p cause).mon.lastRefusal ∧
      (s.failure now p cause).mon.recordCounter = (s.failureRecorded now p cause).mon.recordCounter ∧
      (s.failure now p cause).mon.records = (s.failureRecorded now p cause).mon.records := by
  rw [State.failure_eq]
  split <;> simp [State.enterLockout_mon, State.enterCooldown_mon, Monitor.railChanged_eq]

theorem State.failure_recordAdded (cause : RestartCause) :
    s.recordAdded now cause (failureAction p s.mon.ladderIndex) s.mon.ladderIndex s.rail.state
      (s.failure now p cause) := by
  obtain ⟨_, hrefusal, hcounter, hrecords⟩ := State.failure_recorded (s := s) now p cause
  rw [State.failureRecorded_mon] at hrefusal hcounter hrecords
  exact State.recordAdded_of hcounter hrefusal hrecords (State.failure_shown now p hwf cause (.inl rfl))
    (State.failure_shown now p hwf cause (.inr (.inl rfl)))

/-- A failure takes the rail into LOCKOUT or into COOLDOWN with the minimum off time (R79). -/
theorem State.failure_wentOff (hw : s.rail.state ≠ .warming) (cause : RestartCause) :
    s.railWentOff (if ladderLocks p s.mon.ladderIndex then none else some (true, Profile.minimumOff p * 64)) now
      (s.failure now p cause) := by
  have hwf1 := State.failureRecorded_wf now p hwf cause
  have hframe := State.failureRecorded_frame now p cause s
  have hrail : (s.failureRecorded now p cause).rail = s.rail := by simp
  have hclimate : (s.failureRecorded now p cause).climate = s.climate := by simp
  have hmon : s.mon.recordsAside (s.failureRecorded now p cause).mon := by
    rw [State.failureRecorded_mon]
    rfl
  have hw1 : (s.failureRecorded now p cause).rail.state ≠ .warming := by rwa [hrail]
  rw [State.failure_eq]
  split
  · exact (State.enterLockout_wentOff hwf1 hw1).of_recorded hrail hclimate hmon
  · exact (State.enterCooldown_wentOff hwf1 hw1 true (minimumOffSlots p)).of_recorded hrail hclimate hmon

theorem State.failure_failed (hw : s.rail.state ≠ .warming) (cause : RestartCause) :
    s.failed p cause now (s.failure now p cause) := by
  have hladder : (s.failure now p cause).mon.ladderIndex = ladderNext p s.mon.ladderIndex := by
    rw [(State.failure_recorded now p cause).1, State.failureRecorded_mon]
  have hrecorded := State.failure_recordAdded now p hwf cause
  have hoff := State.failure_wentOff now p hwf hw cause
  unfold failureAction at hrecorded
  rw [ladderLocks_eq] at hrecorded hoff
  refine ⟨hladder, (State.failure_shown now p hwf cause (.inr (.inr rfl))).byte rfl, hrecorded, hoff, ?_, ?_⟩
  · exact (State.failure_writes_of now p cause s (by decide) fun h => absurd h hw).partWrote hwf
      (State.failure_flags now s p cause)
  · apply State.ext_blocks <;> simp

/-- A cut with a record (R95): the record, then COOLDOWN with the off time `off`. -/
theorem State.recordedCut_noticed (hw : s.rail.state ≠ .warming) (cause : RestartCause) (restart : Bool) (off : Nat) :
    s.cutNoticed cause restart off now
      ((s.addRecord now cause (if restart then .cold else .off) s.mon.ladderIndex s.rail.state).enterCooldown now restart
        off) := by
  set action : RecordAction := if restart then .cold else .off
  set u := s.addRecord now cause action s.mon.ladderIndex s.rail.state with hu
  have hwrote := State.addRecord_writes now cause action s.mon.ladderIndex s.rail.state s
  have hwf1 : u.xmem.wf = true := (hwrote hwf).wf
  have hmon := State.addRecord_mon now cause action s.mon.ladderIndex s.rail.state s
  have hrail : u.rail = s.rail := by simp [hu]
  have hw1 : u.rail.state ≠ .warming := by rwa [hrail]
  have hshown {c : Copy} (hc : c = .refusal ∨ c = .records) : (u.enterCooldown now restart off).shown c := by
    have hrecorded : u.shown c := State.addRecord_shown_copy hwf now cause action _ _ fun hr hs => by
      obtain rfl | rfl := hc
      · exact absurd rfl hr
      · exact absurd rfl hs
    refine State.enterCooldown_shown_copy hwf1 hrecorded _ _ ?_ ?_
    · obtain rfl | rfl := hc <;> decide
    · obtain rfl | rfl := hc <;> simp [Copy.bytes, State.enterCooldown_mon, Monitor.railChanged_eq]
  have hafter : (u.enterCooldown now restart off).mon.ladderIndex = s.mon.ladderIndex ∧
      (u.enterCooldown now restart off).mon.recordCounter = nextRecordNumber s.mon.recordCounter ∧
      (u.enterCooldown now restart off).mon.lastRefusal = .noRefusal ∧
      (u.enterCooldown now restart off).mon.records =
        (s.newRecord now cause action s.mon.ladderIndex s.rail.state :: s.mon.records).take 8 := by
    rw [State.enterCooldown_mon, hu, hmon, Monitor.railChanged_eq]
    exact ⟨rfl, rfl, rfl, rfl⟩
  obtain ⟨hladder, hcounter, hrefusal, hrecords⟩ := hafter
  refine ⟨hladder, State.recordAdded_of hcounter hrefusal hrecords (hshown (.inl rfl)) (hshown (.inr rfl)), ?_, ?_, ?_⟩
  · refine (State.enterCooldown_wentOff hwf1 hw1 restart off).of_recorded hrail (by simp [hu]) ?_
    rw [hu, hmon]
    rfl
  · exact (hwrote.andThen (State.enterCooldown_writes_of (rs := cutBytes) now restart off u (by decide)
      fun h => absurd h hw1) (by decide) (by decide)).partWrote hwf (by simp [Exchange.raised, hu])
  · apply State.ext_blocks <;> simp [hu]

theorem State.cutWithNotice_noticed (hw : s.rail.state ≠ .warming) (cause : RestartCause) (restart : Bool) :
    s.cutNoticed cause restart (Profile.minimumOff p * 64) now (s.cutWithNotice now p cause restart) :=
  State.recordedCut_noticed now hwf hw cause restart (minimumOffSlots p)

end outcomes

end off

end Sys2Proof.Machine
end

