-- ==== Sys2Proof/Proofs/RailTimerEnds.lean ====
section
/-!
The statements on the tachometers and on the ends of the rail controller's timers: the pulse, the reset delay, the stable
time and programming, the entry into RUNNING, the PGOOD limit and the override time.
-/

namespace Sys2Proof.Machine

/-! ### A timer that ends now (R68) -/

theorem State.atEnd_of_due {s : State} {p : Image} {e : SlotCount} {timer : Option SlotCount}
    (hp : s.store.active = some p) (hdue : s.due timer = some e) (act : Image → SlotCount → State → State) :
    s.atEnd timer act = act p e s := by
  simp only [State.atEnd, hp, hdue]

/-- An operation of the store ends now exactly if one of its slot starts is the current one, or the coming one once the slot
is over. -/
theorem State.endsWithin_isSome (n : Nat) (b : SlotCount) (s : State) :
    (s.endsWithin n (some b)).isSome =
      [s.time.slotCount, s.upcoming].any fun e =>
        (e == s.time.slotCount || s.slotOver) && decide (1 ≤ (e - b).toNat) && decide ((e - b).toNat ≤ n) := by
  let within (e : SlotCount) : Bool := decide (1 ≤ (e - b).toNat) && decide ((e - b).toNat ≤ n)
  have hcases : s.endsWithin n (some b) =
      if within s.time.slotCount then some s.time.slotCount
      else if within s.upcoming && s.slotOver then some s.upcoming
      else none := rfl
  have hsame : s.upcoming = s.time.slotCount → within s.upcoming = within s.time.slotCount := fun h => by rw [h]
  simp only [List.any_cons, List.any_nil, Bool.or_false, Bool.and_assoc, beq_self_eq_true, Bool.true_or, Bool.true_and]
  rw [hcases]
  show _ = (within s.time.slotCount || ((s.upcoming == s.time.slotCount || s.slotOver) && within s.upcoming))
  cases hnow : within s.time.slotCount
  · by_cases hu : s.upcoming = s.time.slotCount
    · simp [hsame hu, hnow]
    · cases within s.upcoming <;> cases s.slotOver <;> simp [hu]
  · simp

/-! ### The tachometers (R48) -/

/-- A fan's new record, with its rpm on the live page once a profile is active. -/
theorem State.setFanSpeed_of_active {s : State} {p : Image} (hp : s.store.active = some p) (f : Fin 2) (r : FanRec) :
    s.setFanSpeed f r =
      { s with
        air := { s.air with fans := s.air.fans.set f r }
        xmem := s.xmem.partWrite (0x09A + 8 * f.val) (le16 r.rpm) } := by
  unfold State.setFanSpeed
  rw [if_pos]
  · rfl
  · simp [hp]

/-- A part write of two bytes shows them and writes nothing else. -/
theorem Exchange.word_written {x : Exchange} (hwf : x.wf = true) (f : Fin 2) (v : Nat) :
    (x.partWrite (0x09A + 8 * f.val) (le16 v)).shows (0x09A + 8 * f.val) (le16 v) ∧
      x.partWrote [(0x09A + 8 * f.val, 2)] 0 (x.partWrite (0x09A + 8 * f.val) (le16 v)) :=
  ⟨Exchange.shows_partWrite hwf _ _ (by simp [le16, memorySize]; omega),
    (Exchange.writes_partWrite (rs := [(0x09A + 8 * f.val, 2)]) (by simp [rangeWithin, le16]) x).partWrote hwf
      (by simp [Exchange.raised])⟩

/-! ### The entry into RUNNING (R76, R86, R103) -/

section running
variable {s : State} (now : SlotCount) (p : Image)

/-- The monitor's entry into RUNNING, as R103 gives it. -/
theorem State.monitorRunning_mon :
    (s.monitorRunning now p).mon =
      { s.mon with
        hsleep := s.rail.hsleep, pendingRecord := none, stableEnd := some (after now (Profile.stableTime p * 3840))
        watchdog := if s.mon.armed then (if s.rail.hsleep then .paused else .grace) else .dormant
        pausedFrom := if s.mon.armed && s.rail.hsleep then .grace else s.mon.pausedFrom
        stageEnd := if s.mon.armed && !s.rail.hsleep then some (after now (s.graceNow p * 64)) else none
        expected := if s.mon.armed && !s.rail.hsleep then none else s.mon.expected } := by
  cases ha : s.mon.armed <;> cases hh : s.rail.hsleep <;>
    simp [State.monitorRunning, State.startWatchdog, ha, hh, State.enterDormant, State.enterPaused, State.enterGrace,
      State.graceNow, bootGrace, seconds, State.temp]

theorem State.enterRunning_climate : (s.enterRunning now p).climate = s.climate := by
  simp [State.enterRunning, State.setRail_climate, RailState.removesOverrides]

theorem State.enterRunning_enters (hwf : s.xmem.wf = true)
    (hs : s.rail.state = .starting ∨ s.rail.state = .resetting) : s.enteredRunning p now (s.enterRunning now p) := by
  have hw : s.rail.state ≠ .warming := by rcases hs with hs | hs <;> simp [hs]
  have hl : leavesRunning s.rail.state .running = false := by simp [leavesRunning]
  set v := s.mapRail fun r =>
    { r with hrst := false, pgoodLimit := none, resetHold := none, resetDelay := none, resetWidth := none } with hv
  set u := v.setRail now .running with hu
  have hrail : u.rail = { v.rail with state := .running } := by
    rw [hu, State.setRail_rail]
    simp [hv, hw]
  have hmon : u.mon = s.mon := by
    rw [hu, State.setRail_mon]
    exact Monitor.railChanged_of_steady hl rfl s.mon
  have hgrace : u.graceNow p = s.graceNow p := by simp [hu, hv, State.graceNow, State.temp]
  have hwf1 : u.xmem.wf = true := ((State.setRail_writes now .running v) hwf).wf
  have hwf2 : ((u.mapMon fun m =>
      { m with
        hsleep := u.rail.hsleep, pendingRecord := none
        stableEnd := some (after now (Profile.stableTime p * 3840)) }).startWatchdog now p).xmem.wf = true := by simpa using hwf1
  have hshown : (s.enterRunning now p).shown .rail := by
    refine State.shown_of_writes hwf1 (State.setRail_shown_copy (s := v) hwf now .running fun h => absurd rfl h)
      (State.monitorRunning_writes now p u) (by decide) (by simp [Copy.bytes, State.enterRunning_rail, hrail])
  refine ⟨?_, ?_, ?_, State.publishWatchdog_shown now hwf2, ?_, ?_⟩
  · rw [State.enterRunning_rail]
    simp [hw]
  · have hmonitor : (s.enterRunning now p).mon = (u.monitorRunning now p).mon := rfl
    rw [hmonitor, State.monitorRunning_mon, hmon, hgrace, hrail]
    rfl
  · have hstate := hshown.byte rfl
    rwa [State.enterRunning_rail] at hstate
  · exact (State.enterRunning_writes_of now p s (by decide) fun h => absurd h hw).partWrote hwf
      (by simp [Exchange.raised, State.enterRunning, State.monitorRunning])
  · apply State.ext_blocks <;> simp [State.enterRunning_climate]

end running

end Sys2Proof.Machine

namespace Sys2Proof.Proofs

open Sys2Proof.Machine

/-- Settles O19: a fan's new record is the edge's or the timeout's, and its rpm is a part write of its own. -/
theorem tachometerTimesTheFan : Obligations.TachometerTimesTheFan := by
  intro s p f us hp hwf hlow hhigh
  have hedge := State.setFanSpeed_of_active hp f (s.air.fans[f].edge (some (Profile.pulsesPerRev p f)) us)
  have htimeout := State.setFanSpeed_of_active hp f s.air.fans[f].timeout
  obtain ⟨hshows, hwrote⟩ := Exchange.word_written hwf f (s.air.fans[f].edge (some (Profile.pulsesPerRev p f)) us).rpm
  refine ⟨_, rfl, ?_⟩
  rw [hp, Option.map_some, hedge]
  refine ⟨by simp, ?_, by simpa using hshows, hwrote, fun htiming => ⟨_, rfl, ?_⟩⟩
  · have hperiod : max 1 us = us := Nat.max_eq_right hlow
    simp [FanRec.edge, hhigh, hperiod, rpmOf]
  · have hrecord : s.air.fans[f].timeout = { s.air.fans[f] with period := 1000000, rpm := 0, timing := false } := by
      rw [FanRec.timeout, if_pos htiming]
    obtain ⟨hzero, hwrote0⟩ := Exchange.word_written hwf f 0
    rw [htimeout, hrecord]
    exact ⟨rfl, hzero, hwrote0⟩

/-- Settles O20: both ends are the entry into RUNNING, at the slot count of the end. -/
theorem hostLeavesResetIntoRunning : Obligations.HostLeavesResetIntoRunning := by
  intro s p e c hp hwf hc
  have hs : s.rail.state = .starting ∨ s.rail.state = .resetting :=
    hc.imp (fun h => h.2.1) fun h => h.2.1
  have hexec : exec c s = .next (s.enterRunning e p) := by
    obtain ⟨rfl, hstate, hdue⟩ | ⟨rfl, hstate, hdue⟩ := hc
    · show execResetHoldEnd s = _
      rw [execResetHoldEnd, State.atEnd_of_due hp hdue, State.endResetHold, if_pos hstate]
    · show execResetWidthEnd s = _
      rw [execResetWidthEnd, State.atEnd_of_due hp hdue, State.endResetWidth, if_pos hstate]
  exact ⟨_, hexec, State.enterRunning_enters e p hwf hs⟩

/-- Settles O21: without a reset hold the end of the PGOOD limit is a failure, and the cut clears the limit itself. -/
theorem noPowergoodInTimeCutsTheRail : Obligations.NoPowergoodInTimeCutsTheRail := by
  intro s p e hp hwf hs hdue
  have hexec : exec .pgoodLimitEnd s = .next (s.endPgoodLimit p e) := by
    show execPgoodLimitEnd s = _
    rw [execPgoodLimitEnd, State.atEnd_of_due hp hdue]
  have hend : s.endPgoodLimit p e =
      if s.rail.resetHold.isSome then s.mapRail fun r => { r with pgoodLimit := none }
      else (s.mapRail fun r => { r with pgoodLimit := none }).failure e p .noPowergood := by
    rw [State.endPgoodLimit, if_pos hs]
    rfl
  refine ⟨_, hexec, fun hhold => ?_, fun hhold => ?_⟩
  · rw [hend, if_pos hhold]
    rfl
  · rw [hend, if_neg (by simp [hhold])]
    have hw : s.rail.state ≠ .warming := by simp [hs]
    exact State.failure_failed (s := s.mapRail fun r => { r with pgoodLimit := none }) e p hwf hw .noPowergood

/-- Settles O23: a rail that is on is cut with the record KEY_OVERRIDE once the timer is stopped. -/
theorem overrideEndCutsTheRail : Obligations.OverrideEndCutsTheRail := by
  intro s p e hp hwf hdue
  have hexec : exec .overrideEnd s = .next (s.endOverride p e) := by
    show execOverrideEnd s = _
    rw [execOverrideEnd, State.atEnd_of_due hp hdue]
  have hend : s.endOverride p e =
      if s.rail.state.isOn then
        (s.mapRail fun r => { r with override := none }).cutWithNotice e p .keyOverride false
      else s.mapRail fun r => { r with override := none } := rfl
  refine ⟨_, hexec, fun hoff => ?_, fun hon => ?_⟩
  · rw [hend, if_neg (by simp [hoff])]
    rfl
  · rw [hend, if_pos hon]
    have hw : s.rail.state ≠ .warming := fun hw => by simp [hw, RailState.isOn] at hon
    exact State.cutWithNotice_noticed (s := s.mapRail fun r => { r with override := none }) e p hwf hw .keyOverride false

/-- Settles O24: each end is one equation of the step; programming ends now exactly if one of its slot starts does. -/
theorem singleEffectEnds : Obligations.SingleEffectEnds := by
  refine ⟨fun s p e hp hdue => ?_, fun s p e hp hs hdue => ?_, fun s p e hp hwf hdue => ?_, fun s b hc hb => ?_⟩
  · show execPulseEnd s = _
    rw [execPulseEnd, State.atEnd_of_due hp hdue]
    rfl
  · show execResetDelayEnd s = _
    rw [execResetDelayEnd, State.atEnd_of_due hp hdue, State.endResetDelay, if_pos hs]
    rfl
  · set u := s.mapMon fun m => { m with stableEnd := none } with hu
    have hexec : exec .stableEnd s = .next (u.setLadderIndex 0) := by
      show execStableEnd s = _
      rw [execStableEnd, State.atEnd_of_due hp hdue]
    have hshown := State.setLadderIndex_shown (s := u) (c := .ladder) hwf 0 fun h => absurd rfl h
    refine ⟨_, hexec, rfl, hshown.byte rfl, ?_⟩
    exact (State.setLadderIndex_writes 0 u).partWrote hwf (by simp [Exchange.raised, hu])
  · show execProgrammingEnd s = _
    have hends := State.endsWithin_isSome 44 b s
    rw [execProgrammingEnd, State.programmingDue, if_pos hc, hb]
    dsimp only
    rw [← hends]
    cases s.endsWithin 44 (some b) with
    | none => rfl
    | some _ => rfl

end Sys2Proof.Proofs
end

