-- ==== Sys2Proof/Proofs/Gate.lean ====
section
/-!
SUPPORT. The start gate in the words of the statements (R71 to R74), and the statement on the end of the off timer, which
judges it.
-/

namespace Sys2Proof.Machine

/-! ### The gate's parts -/

section parts
variable (p : Image) (z : Fin 3) (temp : Option Int) (count age : Nat) (s : State)

theorem warmCountNext_eq :
    warmCountNext p z temp count =
      if gateZone p z && temp.any fun x => Profile.startThreshold p z ≤ x then min 38400 (count + 1) else 0 := by
  cases hg : gateZone p z <;> cases temp <;> simp [warmCountNext, hg]

theorem zoneWarm_eq :
    zoneWarm p z temp count age =
      if temp.isSome then (temp.any fun x => Profile.startThreshold p z ≤ x) && decide (Profile.dwell p * 64 ≤ count)
      else decide (Profile.blindWarmTime p * 64 ≤ age) := by
  cases temp <;> rfl

theorem State.bypass_eq :
    s.bypass p = (Profile.bypassEnable p && (s.temp 5).any fun x => Profile.bypassTemp p ≤ x) := by
  unfold State.bypass
  cases s.temp 5 <;> rfl

theorem State.hot_eq : s.hot p = ((s.temp 2).or (s.temp 1)).any fun x => Profile.hotStartLimit p ≤ x := by
  unfold State.hot State.moduleTemp
  cases s.temp 2 <;> cases s.temp 1 <;> rfl

theorem State.held_eq :
    s.held p = (List.finRange 4).any fun k => Profile.inputRoute p k == .hold && s.inputActive p k := by
  unfold State.held
  congr 1

end parts

/-! ### A judgement -/

/-- The rail controller with the warming age and the warm counts of a judgement, before the gate is decided (R72). -/
def State.aged (p : Image) (age : Nat) (s : State) : State :=
  s.mapRail fun r =>
    { r with
      warmingAge := age
      warmCount := tab 3 fun z => warmCountNext p z (s.temp (Profile.zoneSensor p z)) r.warmCount[z] }

/-- The gate is open (R73). -/
def State.gateOpen (p : Image) (age : Nat) (s : State) : Bool :=
  (s.aged p age).zonesWarm p && !s.hot p && !s.held p

/-- The zones' part of the gate reads the sensors and the new counts alone. -/
theorem State.aged_zonesWarm (p : Image) (age : Nat) (s : State) :
    (s.aged p age).zonesWarm p =
      (List.finRange 3).all fun z =>
        !gateZone p z || s.bypass p ||
          zoneWarm p z (s.temp (Profile.zoneSensor p z))
            (warmCountNext p z (s.temp (Profile.zoneSensor p z)) s.rail.warmCount[z]) age := by
  unfold State.zonesWarm
  congr 1
  funext z
  have hcount : (s.aged p age).rail.warmCount[z] =
      warmCountNext p z (s.temp (Profile.zoneSensor p z)) s.rail.warmCount[z] := by simp [State.aged]
  rw [hcount]
  rfl

/-- The wait reason of a judgement (R74). -/
def State.gateWait (p : Image) (age : Nat) (s : State) : WaitReason :=
  if s.held p then .hold
  else if s.hot p then .hot
  else if !(s.aged p age).zonesWarm p then .cold
  else if s.rail.budgetRefused then .budget
  else .noWait

/-- A judgement, field by field (R72 to R74). -/
theorem State.judgeGate_rail_eq (p : Image) (age : Nat) (s : State) :
    (s.judgeGate p age).rail =
      { s.rail with
        warmingAge := age
        warmCount := tab 3 fun z => warmCountNext p z (s.temp (Profile.zoneSensor p z)) s.rail.warmCount[z]
        startRequest := s.gateOpen p age
        budgetRefused := s.rail.budgetRefused && s.gateOpen p age
        waitReason := s.gateWait p age } := by
  have hwait : (s.judgeGate p age).rail.waitReason = s.gateWait p age := by
    have hopen : (s.judgeGate p age).rail.waitReason =
        if s.held p then .hold
        else if s.hot p then .hot
        else if !(s.aged p age).zonesWarm p then .cold
        else if s.rail.budgetRefused && s.gateOpen p age then .budget
        else .noWait := rfl
    rw [hopen, State.gateWait]
    cases hheld : s.held p <;> cases hhot : s.hot p <;> cases hzones : (s.aged p age).zonesWarm p <;>
      simp [State.gateOpen, hheld, hhot, hzones]
  have heq : (s.judgeGate p age).rail =
      { s.rail with
        warmingAge := age
        warmCount := tab 3 fun z => warmCountNext p z (s.temp (Profile.zoneSensor p z)) s.rail.warmCount[z]
        startRequest := s.gateOpen p age
        budgetRefused := s.rail.budgetRefused && s.gateOpen p age
        waitReason := (s.judgeGate p age).rail.waitReason } := rfl
  rw [heq, hwait]

/-- A judgement in the words of the statements, from a state `u` of the same event with the temperatures, the warm counts and
the refusal of `s`, whatever the override time. -/
theorem State.gateJudged_of_temps {p : Image} {age : Nat} {s u t : State} {override : Option SlotCount} (htemp : u.temp = s.temp)
    (hcount : u.rail.warmCount = s.rail.warmCount) (hrefused : u.rail.budgetRefused = s.rail.budgetRefused)
    (hstate : u.rail.state = .warming) (hinputs : t.rail.inputs = u.rail.inputs)
    (hrail : t.rail = { (u.judgeGate p age).rail with override := override }) (hshown : t.shown .wait) :
    s.gateJudged p age t := by
  have hactive (k : Fin 4) : t.inputActive p k = u.inputActive p k := by simp only [State.inputActive, hinputs]
  rw [State.judgeGate_rail_eq] at hrail
  unfold State.gateJudged
  simp only [hactive]
  have hwait := hshown.byte rfl
  refine ⟨by rw [hrail]; exact hstate, by rw [hrail], fun z => ?_, ?_, ?_, ?wait,
    hwait.trans (congrArg WaitReason.code ?wait)⟩
  · rw [hrail]
    simp [warmCountNext_eq, htemp, hcount, gateZone]
  · rw [hrail]
    simp only [State.gateOpen, State.aged_zonesWarm, zoneWarm_eq, warmCountNext_eq, State.bypass_eq, State.hot_eq,
      State.held_eq, htemp, hcount, gateZone]
    rfl
  · rw [hrail]
    simp only [State.gateOpen, State.aged_zonesWarm, zoneWarm_eq, warmCountNext_eq, State.bypass_eq, State.hot_eq,
      State.held_eq, htemp, hcount, gateZone, hrefused]
    rfl
  · rw [hrail]
    simp only [State.gateWait, State.aged_zonesWarm, zoneWarm_eq, warmCountNext_eq, State.bypass_eq, State.hot_eq,
      State.held_eq, htemp, hcount, gateZone, hrefused]
    rfl

/-- The same with the sensors of `s`. -/
theorem State.gateJudged_of {p : Image} {age : Nat} {s u t : State} (hsense : u.sense = s.sense)
    (hcount : u.rail.warmCount = s.rail.warmCount) (hrefused : u.rail.budgetRefused = s.rail.budgetRefused)
    (hstate : u.rail.state = .warming) (hinputs : t.rail.inputs = u.rail.inputs)
    (hrail : t.rail = (u.judgeGate p age).rail) (hshown : t.shown .wait) : s.gateJudged p age t := by
  have htemp : u.temp = s.temp := by
    funext k
    simp only [State.temp, hsense]
  exact State.gateJudged_of_temps (override := t.rail.override) htemp hcount hrefused hstate hinputs (by rw [hrail]) hshown

/-- Without a refusal before it, a judgement raises the start request exactly if it finds no reason to wait. -/
theorem State.gateWait_of_unrefused {p : Image} {age : Nat} {s : State} (h : s.rail.budgetRefused = false) :
    s.gateOpen p age = decide (s.gateWait p age = .noWait) ∧ s.gateWait p age ≠ .budget := by
  cases hheld : s.held p <;> cases hhot : s.hot p <;> cases hzones : (s.aged p age).zonesWarm p <;>
    simp [State.gateOpen, State.gateWait, hheld, hhot, hzones, h]

/-! ### The entry into WARMING (R71) -/

/-- The part in WARMING, before the first judgement. -/
def State.warmingEntered (now : SlotCount) (s : State) : State :=
  ((s.setRail now .warming).setRestartPending false).mapRail fun r =>
    { r with
      warmCount := Vector.replicate 3 0, startRequest := false, budgetRefused := false, judgedAt := some now,
      offTimer := none }

theorem State.enterWarming_eq (now : SlotCount) (p : Image) (s : State) :
    s.enterWarming now p = (s.warmingEntered now).judgeGate p 0 := rfl

section entry
variable {s : State} (now : SlotCount) (p : Image)

theorem State.warmingEntered_rail :
    (s.warmingEntered now).rail =
      { s.rail with
        state := .warming, restartPending := false, warmCount := Vector.replicate 3 0, startRequest := false
        budgetRefused := false, judgedAt := some now, offTimer := none } := by
  simp [State.warmingEntered, State.setRestartPending, State.setRail_rail]

/-- The rail record of the entry, judged once with age 0. -/
theorem State.enterWarming_judged :
    let u := s.warmingEntered now
    (s.enterWarming now p).rail =
      { s.rail with
        state := .warming, restartPending := false, judgedAt := some now, offTimer := none
        warmingAge := 0, startRequest := u.gateOpen p 0, budgetRefused := false, waitReason := u.gateWait p 0
        warmCount := tab 3 fun z => warmCountNext p z (u.temp (Profile.zoneSensor p z)) 0 } := by
  dsimp only
  rw [State.enterWarming_eq, State.judgeGate_rail_eq, State.warmingEntered_rail]
  simp [Vector.getElem_replicate]

/-- The entry shows the rail, the wait reason, restart pending and the watchdog. -/
theorem State.enterWarming_shown (hwf : s.xmem.wf = true) {c : Copy} (hc : c = .rail ∨ c = .wait ∨ c = .restart) :
    (s.enterWarming now p).shown c := by
  have hwf1 := ((State.setRail_writes now .warming s) hwf).wf
  have hwf2 := ((State.setRestartPending_writes false (s.setRail now .warming)) hwf1).wf
  refine State.shown_published (s := s.warmingEntered now) .wait hwf2 (fun hwait => ?_) (fun hwait => ?_)
    (by simp [Copy.bytes]) rfl
  · have hpending := State.setRestartPending_shown (c := c) hwf1 false fun hrestart =>
      State.setRail_shown_copy hwf now .warming fun hrail => ?_
    · obtain rfl | rfl | rfl := hc
      · exact hpending
      · exact absurd rfl hwait
      · exact hpending
    · obtain rfl | rfl | rfl := hc
      · exact absurd rfl hrail
      · exact absurd rfl hwait
      · exact absurd rfl hrestart
  · have hrail := State.enterWarming_judged (s := s) now p
    obtain rfl | rfl | rfl := hc
    · simp [Copy.bytes, hrail, State.warmingEntered_rail]
    · exact absurd rfl hwait
    · simp [Copy.bytes, hrail, State.warmingEntered_rail]

@[simp] theorem State.judgeGate_flags (age : Nat) :
    (s.judgeGate p age).xmem.summary = s.xmem.summary ∧ (s.judgeGate p age).xmem.enable = s.xmem.enable := by
  simp [State.judgeGate]

@[simp] theorem State.enterWarming_flags :
    (s.enterWarming now p).xmem.summary = s.xmem.summary ∧ (s.enterWarming now p).xmem.enable = s.xmem.enable := by
  simp [State.enterWarming]

theorem State.enterWarming_watched (hwf : s.xmem.wf = true) : (s.enterWarming now p).watchdogShown now := by
  have hwf1 := ((State.setRail_writes now .warming s) hwf).wf
  have hwrites : (s.setRail now .warming).xmem.writes [(0x0AC, 2)] (s.enterWarming now p).xmem :=
    (State.setRestartPending_writes false (s.setRail now .warming)).andThen
      (State.judgeGate_writes p 0 (s.warmingEntered now)) (by decide) (by decide)
  exact State.watchdogShown_of_writes hwf1 (State.setRail_shown now .warming s hwf) hwrites (by decide) rfl rfl

end entry

end Sys2Proof.Machine

namespace Sys2Proof.Proofs

open Sys2Proof.Machine

/-- Settles O25: the end of the off timer is the entry into WARMING, judged at once, or the change into OFF. -/
theorem offTimerEndsCooldown : Obligations.OffTimerEndsCooldown := by
  intro s p e hp hwf hs hdue
  set u := s.mapRail fun r => { r with offTimer := none } with hu
  have hwfu : u.xmem.wf = true := hwf
  have hsu : u.rail.state = .cooldown := hs
  have hexec : exec .offTimerEnd s = .next (if s.rail.restartPending then u.enterWarming e p else u.setRail e .off) := by
    show execOffTimerEnd s = _
    rw [execOffTimerEnd, State.atEnd_of_due hp hdue, State.endOffTimer, if_pos hs]
    rfl
  cases hpending : s.rail.restartPending
  · have ht : (if s.rail.restartPending then u.enterWarming e p else u.setRail e .off) = u.setRail e .off :=
      if_neg (by simp [hpending])
    rw [ht] at hexec
    have hrail : (u.setRail e .off).rail = { s.rail with state := .off, offTimer := none } := by
      rw [State.setRail_rail, hsu]
      rfl
    have hmon : (u.setRail e .off).mon =
        { s.mon with
          watchdog := if s.mon.watchdog = .expired then .dormant else s.mon.watchdog, pendingRecord := none } := by
      rw [State.setRail_mon, Monitor.railChanged_eq, hsu]
      rfl
    have hshown := State.setRail_shown_copy (c := .rail) hwfu e .off fun h => absurd rfl h
    have hstate := hshown.byte rfl
    rw [hrail] at hstate
    refine ⟨_, hexec, fun _ => ⟨hrail, hmon, hstate, ?_⟩, fun h => absurd h (by simp), by rw [hrail], by rw [hrail],
      by rw [hrail], State.setRail_shown e .off u hwfu, State.setRail_climate e .off u, ?_⟩
    · exact (State.setRail_writes_of e .off u (by decide) fun h => by simp [hsu] at h).partWrote hwfu
        (by simp [Exchange.raised, hu])
    · apply State.ext_blocks <;> simp [hu]
  · have ht : (if s.rail.restartPending then u.enterWarming e p else u.setRail e .off) = u.enterWarming e p :=
      if_pos hpending
    rw [ht] at hexec
    have hrail := State.enterWarming_judged (s := u) e p
    dsimp only at hrail
    obtain ⟨hopen, hbudget⟩ := State.gateWait_of_unrefused (p := p) (age := 0) (s := u.warmingEntered e)
      (by rw [State.warmingEntered_rail])
    have hshown {c : Copy} (hc : c = .rail ∨ c = .wait ∨ c = .restart) := State.enterWarming_shown (s := u) e p hwfu hc
    have hstate := (hshown (.inl rfl)).byte rfl
    have hrestart := (hshown (.inr (.inr rfl))).byte rfl
    rw [hrail] at hstate hrestart
    have hmon : (u.enterWarming e p).mon = s.mon := by
      rw [State.enterWarming_mon, hsu]
      exact Monitor.railChanged_of_steady rfl rfl s.mon
    refine ⟨_, hexec, fun h => absurd h (by simp), fun _ => ⟨by rw [hrail], by rw [hrail], by rw [hrail], by rw [hrail],
        by rw [hrail], fun z => ?_, by rw [hrail]; exact hopen, by rw [hrail]; exact hbudget, hmon, hstate,
        (hshown (.inr (.inl rfl))).byte rfl, hrestart, ?_⟩, by rw [hrail]; rfl, by rw [hrail]; rfl, by rw [hrail]; rfl,
      State.enterWarming_watched e p hwfu, State.enterWarming_climate e p u, ?_⟩
    · rw [hrail]
      simp only [warmCountNext_eq, tab_get]
      split <;> simp
    · exact (State.enterWarming_writes e p u).partWrote hwfu (by simp [Exchange.raised, hu])
    · apply State.ext_blocks <;> simp [hu]

end Sys2Proof.Proofs
end

