-- ==== Sys2Proof/Proofs/Clearing.lean ====
section
/-!
SUPPORT. Host restart clearing (R94, R122) in the words of the statements: the monitor it leaves and the picture
`hostCleared`; and the statements on the answer to the start request and on the CLEAR command.
-/

namespace Sys2Proof.Machine

/-! ### The monitor (R121, R122) -/

/-- The armed flag and its effects, field by field (R121). -/
theorem State.setArmed_mon_eq (now : SlotCount) (p : Image) (b : Bool) (s : State) :
    (s.setArmed now p b).mon = s.armedAs p b now := by
  have heq : s.setArmed now p b =
      (if b && !s.mon.armed && s.mon.watchdog == .dormant && s.rail.state == .running then
          (s.mapMon fun m => { m with armed := b }).startWatchdog now p
        else if !b && s.mon.armed && s.mon.watchdog != .expired && s.mon.watchdog != .dormant then
          (s.mapMon fun m => { m with armed := b }).enterDormant
        else s.mapMon fun m => { m with armed := b }).publishWatchdog now := by
    unfold State.setArmed
    simp only [Bool.and_eq_true, decide_eq_true_eq, beq_iff_eq, bne_iff_ne]
    rfl
  rw [heq]
  unfold State.armedAs
  dsimp only
  cases harms : (b && !s.mon.armed && s.mon.watchdog == .dormant && s.rail.state == .running)
  · cases (!b && s.mon.armed && s.mon.watchdog != .expired && s.mon.watchdog != .dormant) <;> simp [State.enterDormant]
  · simp only [Bool.and_eq_true, Bool.not_eq_true', beq_iff_eq] at harms
    obtain ⟨⟨⟨hb, ha⟩, hw⟩, hr⟩ := harms
    cases hh : s.mon.hsleep <;>
      simp [State.startWatchdog, State.enterPaused, State.enterGrace, State.graceNow, bootGrace, seconds, State.temp, hb, hh]

theorem State.hostRestartClearing_mon_eq (now : SlotCount) (p : Image) (s : State) :
    (s.hostRestartClearing now p).mon = s.monitorCleared p now := by
  have hmon : (s.hostRestartClearing now p).mon = ((s.clearOverrides.clearAir).clearMonitor now p).mon := by
    simp [State.hostRestartClearing]
  rw [hmon, State.clearMonitor, State.mapMon_mon, State.setArmed_mon_eq]
  rfl

/-! ### Every block (R41, R64, R148, R162, R174) -/

/-- A stop request is remembered by a probe in WAITING, SETTLE or MEASURE alone. -/
theorem Probe.requestStop_eq (pr : Probe) :
    pr.requestStop =
      { pr with
        stopPending := pr.stopPending || pr.phase == .waiting || pr.phase == .settle || pr.phase == .measure } := by
  obtain ⟨phase, _, _, _, _, _, _, stop⟩ := pr
  cases phase <;> cases stop <;> rfl

section cleared
variable {s t u : State} (now : SlotCount) (p : Image)

theorem State.hostRestartClearing_climate :
    (s.hostRestartClearing now p).climate = s.climate.withoutOverrides := by
  simp [State.hostRestartClearing, State.clearOverrides, Climate.withoutOverrides]

theorem State.hostRestartClearing_air : (s.hostRestartClearing now p).air = (s.clearAir).air := by
  simp [State.hostRestartClearing, State.clearAir]

theorem State.clearSlips_engine :
    s.clearSlips.engine = { s.engine with storeSlot := none, airSlot := none, keypadSlot := none, lastServed := 15 } := rfl

theorem State.hostRestartClearing_engine :
    (s.hostRestartClearing now p).engine =
      { s.engine with storeSlot := none, airSlot := none, keypadSlot := none, lastServed := 15 } := by
  unfold State.hostRestartClearing
  rw [State.mapX_engine, State.clearSlips_engine]
  simp

@[simp] theorem Exchange.clearAttention_flags (x : Exchange) :
    x.clearAttention.summary = x.summary &&& 0x180 ∧ x.clearAttention.enable = 0xFFF := by
  refine ⟨?_, ?_⟩
  · simp [Exchange.clearAttention, Cause.bit, Cause.index]
  · simp [Exchange.clearAttention]

@[simp] theorem State.setArmed_flags (b : Bool) : (s.setArmed now p b).xmem.summary = s.xmem.summary := by
  unfold State.setArmed
  dsimp only
  split
  · simp
  · split <;> simp [State.enterDormant]

theorem State.clearKeypad_summary : s.clearKeypad.xmem.summary = s.xmem.summary := by
  simp [State.clearKeypad, State.setGap, State.setReadCounter]

theorem State.clearSlips_summary : s.clearSlips.xmem.summary = s.xmem.summary := by
  unfold State.clearSlips
  rw [State.mapEngine_xmem, State.mapX_xmem, Exchange.partWrite_summary]

theorem State.hostRestartClearing_flags :
    (s.hostRestartClearing now p).xmem.summary = s.xmem.summary &&& 0x180 ∧
      (s.hostRestartClearing now p).xmem.enable = 0xFFF := by
  unfold State.hostRestartClearing
  rw [State.mapX_xmem]
  refine ⟨?_, Exchange.clearAttention_flags _ |>.2⟩
  rw [(Exchange.clearAttention_flags _).1, State.clearSlips_summary, State.clearKeypad_summary]
  simp [State.clearMonitor, State.clearOverrides, State.clearAir]

/-- Only the memory and the slip table come after the monitor's part of the clearing. -/
theorem State.hostRestartClearing_after :
    ((s.clearOverrides.clearAir).clearMonitor now p).xmem.writes [(0x0C, 2), (0x10, 2), (0x16, 3), (0x100, 0x400)]
      (s.hostRestartClearing now p).xmem :=
  ((State.clearKeypad_writes _).andThen (State.clearSlips_writes _) (by decide) (by decide)).trans
    ((Exchange.clearAttention_writes _).mono (by decide))

theorem State.hostRestartClearing_watched (hwf : s.xmem.wf = true) :
    (s.hostRestartClearing now p).watchdogShown now := by
  set v := (s.clearOverrides.clearAir).mapMon fun m => { m with runtimeSet := Profile.stages p } with hv
  have hwf1 : (v.setArmed now p (Profile.watchdogArmed p)).xmem.wf = true :=
    ((State.setArmed_writes now p _ v) hwf).wf
  have harmed : (v.setArmed now p (Profile.watchdogArmed p)).watchdogShown now := by
    unfold State.setArmed
    refine State.publishWatchdog_shown now ?_
    split
    · simpa [hv] using hwf
    · split <;> exact hwf
  refine State.watchdogShown_of_writes hwf1 harmed (State.hostRestartClearing_after (s := s) now p) (by decide) ?_ ?_
  · simp [State.hostRestartClearing, State.clearMonitor, hv]
  · simp [State.hostRestartClearing, State.clearMonitor, hv]

/-- The clearing shows the emptied queue and the enable. -/
theorem State.hostRestartClearing_words (hwf : s.xmem.wf = true) :
    (s.hostRestartClearing now p).xmem.shows 0x16 (le16 s.keypad.writeCounter.toNat ++ [0]) ∧
      (s.hostRestartClearing now p).xmem.shows 0x10 [0xFF, 0x0F] := by
  have hkeypad := State.hostRestartClearing_keypad now p s
  have hread := State.hostRestartClearing_shown (c := .read) hwf now p fun _ h _ => absurd rfl h
  have hgap := State.hostRestartClearing_shown (c := .gap) hwf now p fun _ _ h => absurd rfl h
  unfold State.shown at hread hgap
  simp only [Copy.bytes, hkeypad] at hread hgap
  refine ⟨Exchange.shows_append.mpr ⟨hread, hgap⟩, ?_⟩
  have hle : le16 0xFFF = [0xFF, 0x0F] := by decide
  rw [← hle]
  unfold State.hostRestartClearing Exchange.clearAttention
  refine Exchange.shows_partWrite ?_ _ _ (by decide)
  have hmonitor := ((State.clearMonitor_writes now p (s.clearOverrides.clearAir)) hwf).wf
  have hslips := ((State.clearSlips_writes _) ((State.clearKeypad_writes _) hmonitor).wf).wf
  exact ((Exchange.setSummary_writes _ _) hslips).wf

theorem State.hostRestartClearing_cleared (hwf : s.xmem.wf = true) :
    s.hostCleared p 0 (s.hostRestartClearing now p) := by
  have hclimate := State.hostRestartClearing_climate (s := s) now p
  have hair := State.hostRestartClearing_air (s := s) now p
  have hmon := State.hostRestartClearing_mon_eq now p s
  have hengine := State.hostRestartClearing_engine (s := s) now p
  obtain ⟨hsummary, henable⟩ := State.hostRestartClearing_flags (s := s) now p
  obtain ⟨hread, hword⟩ := State.hostRestartClearing_words (s := s) now p hwf
  refine ⟨fun z => ?_, ?_, fun f => ?_, ?_, by rw [hmon]; rfl, by rw [hmon]; rfl, by rw [hmon]; rfl, by rw [hmon]; rfl,
    by rw [hmon]; rfl, State.hostRestartClearing_keypad now p s, by rw [hengine], by rw [hengine], by rw [hengine],
    by rw [hengine], by simp, by simp, by simp, henable, by simpa using hsummary,
    fun a ha hlow => State.hostRestartClearing_free hwf now p ⟨hlow, ha⟩, hread, hword⟩
  · rw [hclimate]
    simp [Climate.withoutOverrides]
  · rw [hclimate]
    rfl
  · rw [hair]
    simp [State.clearAir]
  · rw [hair]
    simp only [State.clearAir, State.mapAir_air, Probe.requestStop_eq]

/-- The clearing as seen from the state `s` in which its event began. -/
theorem State.hostCleared.of_begun {causes : BitVec 12} (h : u.hostCleared p 0 t)
    (hzones : u.climate.zones = s.climate.zones)
    (hclimate : u.climate = { s.climate with answer := u.climate.answer }) (hair : u.air = s.air)
    (hforce : u.mon.inForce = s.mon.inForce) (hkick : u.mon.lastKick = s.mon.lastKick) (hkeypad : u.keypad = s.keypad)
    (hstore : u.store = s.store) (hsense : u.sense = s.sense) (htime : u.time = s.time)
    (hsummary : u.xmem.summary = s.xmem.summary ||| causes) : s.hostCleared p causes t := by
  obtain ⟨hz, hc, hf, ha, hstages, harmed, hexpected, hinforce, hlast, hk, hs1, hs2, hs3, hserved, hst, hse, hti, hen, hsum,
    hrest⟩ := h
  refine ⟨fun z => ?_, ?_, fun f => ?_, ?_, hstages, harmed, hexpected, hinforce.trans hforce, hlast.trans hkick, ?_, hs1, hs2,
    hs3, hserved, hst.trans hstore, hse.trans hsense, hti.trans htime, hen, ?_, ?_⟩
  · rw [hz z, hzones]
  · rw [hc, hclimate]
  · rw [hf f, hair]
  · rw [ha, hair]
  · rw [hk, hkeypad]
  · rw [hsum, hsummary]
    simp
  · rwa [hkeypad] at hrest

/-- What comes after the clearing in the same event leaves it. -/
theorem State.hostCleared.of_ended {causes : BitVec 12} {rs : List (Nat × Nat)} (h : s.hostCleared p causes u)
    (hwf : u.xmem.wf = true) (hx : u.xmem.writes rs t.xmem)
    (hrs : ∀ a, (0x10 ≤ a ∧ a ≤ 0x12) ∨ (0x16 ≤ a ∧ a ≤ 0x18) ∨ (0x100 ≤ a ∧ a < 0x500) → outside rs a = true)
    (hflags : t.xmem.summary = u.xmem.summary ∧ t.xmem.enable = u.xmem.enable) (hclimate : t.climate = u.climate)
    (hair : t.air = u.air) (hmon : t.mon = u.mon) (hkeypad : t.keypad = u.keypad) (hengine : t.engine = u.engine)
    (hstore : t.store = u.store) (hsense : t.sense = u.sense) (htime : t.time = u.time) : s.hostCleared p causes t := by
  have hkept (a : Nat) (ha : a < memorySize)
      (hin : (0x10 ≤ a ∧ a ≤ 0x12) ∨ (0x16 ≤ a ∧ a ≤ 0x18) ∨ (0x100 ≤ a ∧ a < 0x500)) : t.xmem.peek a = u.xmem.peek a :=
    (hx hwf).kept a ha (hrs a hin)
  unfold State.hostCleared at h ⊢
  rw [hclimate, hair, hmon, hkeypad, hengine, hstore, hsense, htime, hflags.1, hflags.2]
  refine h.imp id <| And.imp id <| And.imp id <| And.imp id <| And.imp id <| And.imp id <| And.imp id <| And.imp id <|
    And.imp id <| And.imp id <| And.imp id <| And.imp id <| And.imp id <| And.imp id <| And.imp id <| And.imp id <|
    And.imp id <| And.imp id <| And.imp id ?_
  rintro ⟨hfree, hqueue, hword⟩
  refine ⟨fun a ha hlow => ?_, fun i hi => ?_, fun i hi => ?_⟩
  · rw [hkept a (by unfold memorySize; omega) (.inr (.inr ⟨hlow, ha⟩))]
    exact hfree a ha hlow
  · have hi3 : i < 3 := hi
    rw [hkept _ (by unfold memorySize; omega) (.inr (.inl (by omega)))]
    exact hqueue i hi
  · have hi2 : i < 2 := hi
    rw [hkept _ (by unfold memorySize; omega) (.inl (by omega))]
    exact hword i hi

end cleared

end Sys2Proof.Machine
end

