-- ==== Sys2Proof/Proofs/RailStarts.lean ====
section
/-!
The statements on the events that clear the part for a new run of the host: the answer to the start request, the CLEAR
command, and the expiry of the watchdog.
-/

namespace Sys2Proof.Machine

/-- The monitor's part of a clearing reads the monitor, whether the rail is in RUNNING, and the sensors (R121, R122). -/
theorem State.monitorCleared_congr {s v : State} (now : SlotCount) (p : Image) (hmon : v.mon = s.mon)
    (hrail : (v.rail.state == .running) = (s.rail.state == .running)) (hsense : v.sense = s.sense) :
    v.monitorCleared p now = s.monitorCleared p now := by
  have hgrace : v.graceNow p = s.graceNow p := by simp only [State.graceNow, State.temp, hsense]
  unfold State.monitorCleared State.armedAs
  rw [hmon, hrail, hgrace]

/-- A change of rail state that leaves WARMING shows that nothing is waited for (R74). -/
theorem State.setRail_shown_wait {s : State} (now : SlotCount) {new : RailState} (hwf : s.xmem.wf = true)
    (hs : s.rail.state = .warming) (hnew : new ≠ .warming) : (s.setRail now new).shown .wait := by
  unfold State.setRail
  dsimp only
  rw [if_pos ⟨hs, hnew⟩]
  have hwf1 : (if new.removesOverrides then
      ((s.mapRail fun r => { r with state := new }).mapX (Exchange.partWrite 0x19 [new.code])).clearOverrides
      else (s.mapRail fun r => { r with state := new }).mapX (Exchange.partWrite 0x19 [new.code])).xmem.wf = true := by
    split <;> exact Exchange.wf_partWrite hwf _ _
  generalize (if new.removesOverrides then
      ((s.mapRail fun r => { r with state := new }).mapX (Exchange.partWrite 0x19 [new.code])).clearOverrides
      else (s.mapRail fun r => { r with state := new }).mapX (Exchange.partWrite 0x19 [new.code])) = v at *
  have hwait := State.setWait_shown (c := .wait) hwf1 .noWait fun h => absurd rfl h
  have hwf2 := ((State.setWait_writes .noWait v) hwf1).wf
  exact State.publishWatchdog_shown_copy (s := (v.setWait .noWait).mapMon
    (Monitor.railChanged s.rail.state new)) hwf2 now fun _ =>
    State.mapMon_railChanged_shown hwf2 _ new hwait (by decide)

/-! ### The answer to the start request (R75, R76) -/

/-- The part in STARTING, before host restart clearing. -/
def State.startingEntered (now : SlotCount) (p : Image) (s : State) : State :=
  (s.setRail now .starting).mapRail fun r =>
    { r with
      railEn := true, hrst := true, startRequest := false, budgetRefused := false, overcurrentCount := 0,
      pgoodLimit := some (after now (seconds (Profile.pgoodLimit p))), resetHold := none }

theorem State.enterStarting_eq (now : SlotCount) (p : Image) (s : State) :
    s.enterStarting now p = (s.startingEntered now p).hostRestartClearing now p := rfl

section starting
variable {s : State} (now : SlotCount) (p : Image)

theorem State.startingEntered_writes : s.xmem.writes [(0x19, 2), (0x0AC, 1), (0x0B0, 2)] (s.startingEntered now p).xmem :=
  State.setRail_writes now .starting s

theorem State.startingEntered_mon (hs : s.rail.state = .warming) : (s.startingEntered now p).mon = s.mon := by
  have hmon : (s.startingEntered now p).mon = (s.setRail now .starting).mon := rfl
  rw [hmon, State.setRail_mon, hs]
  exact Monitor.railChanged_of_steady rfl rfl s.mon

theorem State.startingEntered_climate : (s.startingEntered now p).climate = s.climate := by
  simp [State.startingEntered, State.setRail_climate, RailState.removesOverrides]

/-- The clearing of the entry into STARTING, as seen from before the event (R76, R94). -/
theorem State.enterStarting_cleared (hwf : s.xmem.wf = true) (hs : s.rail.state = .warming) :
    s.hostCleared p 0 (s.enterStarting now p) := by
  have hwf1 := ((State.startingEntered_writes (s := s) now p) hwf).wf
  have hclimate := State.startingEntered_climate (s := s) now p
  have hmon := State.startingEntered_mon now p hs
  exact (State.hostRestartClearing_cleared now p hwf1).of_begun p (by rw [hclimate]) (by rw [hclimate])
    (by simp [State.startingEntered]) (by rw [hmon]) (by rw [hmon]) (by simp [State.startingEntered])
    (by simp [State.startingEntered]) (by simp [State.startingEntered]) (by simp [State.startingEntered])
    (by simp [State.startingEntered])

theorem State.enterStarting_monitor (hs : s.rail.state = .warming) : (s.enterStarting now p).mon = s.monitorCleared p now := by
  rw [State.enterStarting_eq, State.hostRestartClearing_mon_eq]
  refine State.monitorCleared_congr now p (State.startingEntered_mon now p hs) ?_ (by simp [State.startingEntered])
  rw [hs]
  simp [State.startingEntered, State.setRail_rail]

end starting

end Sys2Proof.Machine

namespace Sys2Proof.Proofs

open Sys2Proof.Machine

/-- Settles O40: after READY the frame is the clearing on a memory that reads as before. -/
theorem clearFrameRaisesClearing : Obligations.ClearFrameRaisesClearing := by
  intro s p n hp hwf hready
  have hframe : s.xmem.Reframed (s.xmem.ignoreFrame (some .clear) n) :=
    Exchange.reframed_of_land hwf rfl rfl rfl rfl rfl
  set u := s.mapX (Exchange.ignoreFrame (some .clear) n) with hu
  have hwfu : u.xmem.wf = true := hframe.wf
  have hexec : exec (.clear n) s = .next (u.hostRestartClearing s.time.slotCount p) := by
    have hready1 : u.xmem.ready = true := hframe.ready.trans hready
    have hp1 : u.store.active = some p := hp
    show execClear n s = _
    unfold execClear
    dsimp only
    rw [← hu, hready1, hp1]
    rfl
  have hmon : (u.hostRestartClearing s.time.slotCount p).mon = s.monitorCleared p s.time.slotCount := by
    rw [State.hostRestartClearing_mon_eq]
    rfl
  have hwrote := (State.hostRestartClearing_writes s.time.slotCount p u) hwfu
  have hclimate := State.hostRestartClearing_climate (s := u) s.time.slotCount p
  refine ⟨_, hexec, ?_, by simp [hu], by rw [State.hostRestartClearing_engine]; rfl, by rw [hmon]; rfl, by rw [hmon]; rfl,
    by rw [hmon]; rfl, by rw [hmon]; rfl, fun harmed => ?_, hmon,
    State.hostRestartClearing_watched s.time.slotCount p hwfu, by rw [hclimate]; rfl, hwrote.ready.trans
      (hframe.ready.trans hready),
    hwrote.refused, hwrote.range, fun a ha hout => ?_⟩
  · exact (State.hostRestartClearing_cleared s.time.slotCount p hwfu).of_begun p rfl rfl rfl rfl rfl rfl rfl rfl rfl
      (by simp [hframe.summary, hu])
  · rw [hmon]
    unfold State.monitorCleared State.armedAs
    dsimp only
    rw [harmed]
    cases Profile.watchdogArmed p <;> simp
  · exact (hwrote.kept a ha hout).trans (hframe.peek a ha)

/-- Settles O12: an answer that is not discarded is the entry into STARTING, or the refusal's wait reason. -/
theorem startAnswerReceived : Obligations.StartAnswerReceived := by
  intro s p granted b hp hwf hanswer
  set u := s.mapClimate fun c => { c with answer := none } with hu
  have hwfu : u.xmem.wf = true := hwf
  have hexec : exec .startReservationAnswer s = .next (s.receiveAnswer p granted b) := by
    show execStartReservationAnswer s = _
    rw [execStartReservationAnswer, hp, hanswer]
  have hreceive : s.receiveAnswer p granted b =
      if s.rail.state = .warming ∧ s.rail.startRequest = true then
        if granted then u.enterStarting b p
        else (u.mapRail fun r => { r with budgetRefused := true }).setWait .budget
      else u := rfl
  have hanswered : (s.receiveAnswer p granted b).climate.answer = none := by
    rw [hreceive]
    split
    · split
      · rw [State.enterStarting_eq, State.hostRestartClearing_climate, State.startingEntered_climate]
        rfl
      · simp [hu]
    · rfl
  refine ⟨_, hexec, hanswered, fun hs hr hg => ?_, fun hs hr hg => ?_, fun hno => ?_⟩
  · have ht : s.receiveAnswer p granted b = u.enterStarting b p := by rw [hreceive, if_pos ⟨hs, hr⟩, if_pos hg]
    rw [ht]
    have hmon : (u.enterStarting b p).mon = s.monitorCleared p b :=
      (State.enterStarting_monitor b p (s := u) hs).trans (State.monitorCleared_congr b p rfl rfl rfl)
    have hfirst := (State.startingEntered_writes (s := u) b p) hwfu
    have hlast := (State.hostRestartClearing_writes b p (u.startingEntered b p)) hfirst.wf
    have hrail := State.enterStarting_rail b p u
    have hreason : (if u.rail.state = .warming then WaitReason.noWait else u.rail.waitReason) = .noWait := if_pos hs
    rw [hreason] at hrail
    have hkept {c : Copy} (hc : c = .rail ∨ c = .wait) : (u.enterStarting b p).shown c := by
      refine State.hostRestartClearing_shown hfirst.wf b p fun _ _ _ => ?_
      obtain rfl | rfl := hc
      · exact State.setRail_shown_copy (c := .rail) hwfu b .starting fun h => absurd rfl h
      · exact State.setRail_shown_wait b hwfu hs (by decide)
    have hstate := (hkept (.inl rfl)).byte rfl
    have hwait := (hkept (.inr rfl)).byte rfl
    rw [hrail] at hstate hwait
    have hcleared := (State.enterStarting_cleared b p hwfu (s := u) hs).of_begun (s := s) (causes := 0) p rfl rfl rfl rfl rfl rfl
      rfl rfl rfl (by simp [hu])
    refine ⟨hrail, hcleared, hmon, State.hostRestartClearing_watched b p hfirst.wf, hstate, hwait, by rw [hmon]; rfl,
      by rw [hmon]; rfl, ?_, hlast.ready.trans hfirst.ready, hlast.refused.trans hfirst.refused,
      hlast.range.trans hfirst.range, fun a ha hout => ?_⟩
    · rw [State.enterStarting_eq, State.hostRestartClearing_engine]
      simp [State.startingEntered, hu]
    · have hpage : outside clearingBytes a = true := outside_of_cover (by decide) hout
      have hrails : outside [(0x19, 2), (0x0AC, 1), (0x0B0, 2)] a = true := outside_of_cover (by decide) hout
      exact (hlast.kept a ha hpage).trans (hfirst.kept a ha hrails)
  · have ht : s.receiveAnswer p granted b = (u.mapRail fun r => { r with budgetRefused := true }).setWait .budget := by
      rw [hreceive, if_pos ⟨hs, hr⟩, if_neg (by simp [hg])]
    rw [ht]
    have hshown := State.setWait_shown (s := u.mapRail fun r => { r with budgetRefused := true }) (c := .wait) hwfu .budget
      fun h => absurd rfl h
    refine ⟨rfl, hshown.byte rfl, ?_⟩
    exact (State.setWait_writes .budget (u.mapRail fun r => { r with budgetRefused := true })).partWrote hwfu
      (by simp [Exchange.raised, hu])
  · rw [hreceive, if_neg hno]
    rfl

end Sys2Proof.Proofs
end

