-- ==== Sys2Proof/Proofs/Expiry.lean ====
section
/-!
SUPPORT. The entry into RESETTING with its clearing (R86, R94), and the statement on the expiry of the watchdog, whose
action is recorded before it is carried out (R111).
-/

namespace Sys2Proof.Machine

/-! ### RESETTING (R86) -/

section resetting
variable {s : State} (now : SlotCount) (p : Image)

theorem State.enterResetting_after :
    ∃ f : Rail → Rail, (∀ r, (f r).state = r.state) ∧
      s.enterResetting now p = ((s.setRail now .resetting).hostRestartClearing now p).mapRail f := by
  unfold State.enterResetting
  split
  · exact ⟨fun r => { r with hrst := true, resetDelay := none, resetWidth := some (after now (Profile.resetWidth p)) },
      fun _ => rfl, rfl⟩
  · exact ⟨fun r => { r with resetDelay := some (after now (Profile.resetDelay p)) }, fun _ => rfl, rfl⟩

theorem State.enterResetting_mon (hs : s.rail.state = .running) :
    (s.enterResetting now p).mon =
      { s.mon with
        watchdog := if s.mon.watchdog = .expired then .expired else .dormant
        stageEnd := if s.mon.watchdog = .expired then s.mon.stageEnd else none
        stableEnd := none, runtimeSet := Profile.stages p, armed := Profile.watchdogArmed p, expected := none } := by
  obtain ⟨f, _, heq⟩ := State.enterResetting_after (s := s) now p
  have hrail : (s.setRail now .resetting).rail.state = .resetting := by rw [State.setRail_rail]
  have hmon := State.setRail_mon now .resetting s
  rw [Monitor.railChanged_eq, hs] at hmon
  rw [heq, State.mapRail_mon, State.hostRestartClearing_mon_eq, State.monitorCleared, State.armedAs, hrail, hmon]
  by_cases hw : s.mon.watchdog = .expired
  · simp [restsAt, leavesRunning, hw]
  · simp [restsAt, leavesRunning, hw]

theorem State.enterResetting_cleared (hwf : s.xmem.wf = true) : s.hostCleared p 0 (s.enterResetting now p) := by
  obtain ⟨f, _, heq⟩ := State.enterResetting_after (s := s) now p
  have hwf1 := ((State.setRail_writes now .resetting s) hwf).wf
  have hclimate : (s.setRail now .resetting).climate = s.climate := by
    rw [State.setRail_climate]
    rfl
  have hmon := State.setRail_mon now .resetting s
  rw [Monitor.railChanged_eq] at hmon
  have hcleared := (State.hostRestartClearing_cleared now p hwf1).of_begun (s := s) (causes := 0) p (by rw [hclimate])
    (by rw [hclimate]) (by simp) (by rw [hmon]) (by rw [hmon]) (by simp) (by simp) (by simp) (by simp) (by simp)
  rw [heq]
  exact hcleared

/-- The entry shows the rail, and leaves what is shown of the records and the ladder. -/
theorem State.enterResetting_shown (hwf : s.xmem.wf = true) {c : Copy}
    (hc : c = .rail ∨ ((c = .refusal ∨ c = .records ∨ c = .ladder) ∧ s.shown c)) : (s.enterResetting now p).shown c := by
  obtain ⟨f, hf, heq⟩ := State.enterResetting_after (s := s) now p
  have hwf1 := ((State.setRail_writes now .resetting s) hwf).wf
  have hcleared : ((s.setRail now .resetting).hostRestartClearing now p).shown c :=
    State.hostRestartClearing_shown hwf1 now p fun _ _ _ => State.setRail_shown_copy hwf now .resetting fun hr _ =>
      hc.elim (fun h => absurd h hr) And.right
  have hwf2 := ((State.hostRestartClearing_writes now p (s.setRail now .resetting)) hwf1).wf
  rw [heq]
  generalize (s.setRail now .resetting).hostRestartClearing now p = u at *
  have hbytes : c.bytes (u.mapRail f) = c.bytes u := by
    obtain rfl | ⟨rfl | rfl | rfl, _⟩ := hc <;> simp [Copy.bytes, hf]
  exact State.shown_of_writes (rs := []) hwf2 hcleared (Exchange.writes_refl _ _) rfl hbytes

end resetting

/-! ### The expiry (R111) -/

section expiry
variable {s t : State} (cause : RestartCause) (p : Image) (e : SlotCount)

theorem State.expired_mon :
    (s.expired cause p e).mon =
      { s.mon with
        watchdog := .expired, stageEnd := none, ladderIndex := ladderNext p s.mon.ladderIndex
        recordCounter := nextRecordNumber s.mon.recordCounter
        records :=
          (s.newRecord e cause (ladderAction p s.mon.ladderIndex).recorded s.mon.ladderIndex .running :: s.mon.records).take 8
        lastRefusal := .noRefusal, pendingRecord := some (nextRecordNumber s.mon.recordCounter) } := by
  rw [State.expired, State.mapMon_mon, State.addRecord_mon]
  rfl

@[simp] theorem State.expired_flags :
    (s.expired cause p e).xmem.summary = s.xmem.summary ||| Cause.restartNote.bit ∧
      (s.expired cause p e).xmem.enable = s.xmem.enable := by
  simp [State.expired]

theorem State.expired_shown (hwf : s.xmem.wf = true) {c : Copy} (hc : c = .refusal ∨ c = .records ∨ c = .ladder) :
    (s.expired cause p e).shown c := by
  set v := (s.mapMon fun m => { m with watchdog := .expired, stageEnd := none }).setLadderIndex
    (ladderNext p s.mon.ladderIndex) with hv
  have hwf1 : v.xmem.wf = true := ((State.setLadderIndex_writes _ (s.mapMon _)) hwf).wf
  have hrecorded : (v.addRecord e cause (ladderAction p s.mon.ladderIndex).recorded s.mon.ladderIndex .running).shown c := by
    refine State.addRecord_shown_copy hwf1 e cause _ _ _ fun hr hs => ?_
    obtain rfl | rfl | rfl := hc
    · exact absurd rfl hr
    · exact absurd rfl hs
    · exact State.setLadderIndex_shown (s := s.mapMon _) hwf _ fun h => absurd rfl h
  have hwf2 := ((State.addRecord_writes e cause (ladderAction p s.mon.ladderIndex).recorded s.mon.ladderIndex .running v) hwf1).wf
  have heq : s.expired cause p e =
      (v.addRecord e cause (ladderAction p s.mon.ladderIndex).recorded s.mon.ladderIndex .running).mapMon fun m =>
        { m with pendingRecord := some m.recordCounter } := rfl
  rw [heq]
  generalize v.addRecord e cause (ladderAction p s.mon.ladderIndex).recorded s.mon.ladderIndex .running = u at *
  refine State.shown_of_writes (rs := []) hwf2 hrecorded (Exchange.writes_refl _ _) rfl ?_
  obtain rfl | rfl | rfl := hc <;> rfl

/-- The watchdog is published once more at the end of the event. -/
theorem State.railWentOff.published {target : Option (Bool × Nat)} (h : s.railWentOff target e t)
    (hwf : t.xmem.wf = true) : s.railWentOff target e (t.publishWatchdog e) := by
  obtain ⟨hrail, hclimate, hmon, hstate, hpending, _⟩ := h
  have hkept := ((State.publishWatchdog_writes e t) hwf).kept
  exact ⟨hrail, hclimate, hmon, (hkept 0x19 (by decide) (by decide)).trans hstate,
    (hkept 0x0AD (by decide) (by decide)).trans hpending, State.publishWatchdog_shown e hwf⟩

/-- The action's record is in place after the action is carried out (R118, R119). -/
theorem State.carryOut_recorded (now : SlotCount) (a : LadderAction) :
    (s.carryOut now p a).mon.ladderIndex = s.mon.ladderIndex ∧
      (s.carryOut now p a).mon.lastRefusal = s.mon.lastRefusal ∧
      (s.carryOut now p a).mon.recordCounter = s.mon.recordCounter ∧
      (s.carryOut now p a).mon.records = s.mon.records := by
  cases a with
  | warm =>
    obtain ⟨f, _, heq⟩ := State.enterResetting_after (s := s) now p
    have hmon : (s.carryOut now p .warm).mon = (s.setRail now .resetting).monitorCleared p now := by
      show (s.enterResetting now p).mon = _
      rw [heq, State.mapRail_mon, State.hostRestartClearing_mon_eq]
    rw [hmon]
    simp [State.monitorCleared, State.armedAs, State.setRail_mon, Monitor.railChanged_eq]
  | cold => simp [State.carryOut, State.enterCooldown_mon, Monitor.railChanged_eq]
  | lockout => simp [State.carryOut, State.enterLockout_mon, Monitor.railChanged_eq]

/-- COLD and LOCKOUT leave the other blocks. -/
theorem State.carryOut_off_frame (now : SlotCount) {a : LadderAction} (ha : a ≠ .warm) :
    (s.carryOut now p a).air = s.air ∧ (s.carryOut now p a).keypad = s.keypad ∧ (s.carryOut now p a).engine = s.engine := by
  cases a with
  | warm => exact absurd rfl ha
  | cold => simp [State.carryOut]
  | lockout => simp [State.carryOut]

/-- An EXPIRED watchdog of a RUNNING rail stays EXPIRED, its record pending, but for LOCKOUT (R104). -/
theorem State.carryOut_expired (hs : s.rail.state = .running) (hw : s.mon.watchdog = .expired) (now : SlotCount)
    (a : LadderAction) :
    (s.carryOut now p a).mon.stageEnd = s.mon.stageEnd ∧ (s.carryOut now p a).mon.stableEnd = none ∧
      (s.carryOut now p a).mon.watchdog = (if a = .lockout then .dormant else .expired) ∧
      (s.carryOut now p a).mon.pendingRecord = (if a = .lockout then none else s.mon.pendingRecord) := by
  cases a with
  | warm => simp [State.carryOut, State.enterResetting_mon now p hs, hw]
  | cold => simp [State.carryOut, State.enterCooldown_mon, Monitor.railChanged_eq, hs, hw, leavesRunning, restsAt]
  | lockout => simp [State.carryOut, State.enterLockout_mon, Monitor.railChanged_eq, hs, hw, leavesRunning, restsAt]

theorem State.carryOut_shown (hwf : s.xmem.wf = true) (now : SlotCount) (a : LadderAction) {c : Copy}
    (hc : c = .refusal ∨ c = .records ∨ c = .ladder) (hs : s.shown c) : (s.carryOut now p a).shown c := by
  obtain ⟨hladder, hrefusal, _, hrecords⟩ := State.carryOut_recorded (s := s) p now a
  have hbytes : c.bytes (s.carryOut now p a) = c.bytes s := by
    obtain rfl | rfl | rfl := hc
    · simp only [Copy.bytes, hrefusal]
    · simp only [Copy.bytes, hrecords]
    · simp only [Copy.bytes, hladder]
  cases a with
  | warm => exact State.enterResetting_shown now p hwf (.inr ⟨hc, hs⟩)
  | cold => exact State.enterCooldown_shown_copy hwf hs _ _ (by obtain rfl | rfl | rfl := hc <;> decide) hbytes
  | lockout => exact State.enterLockout_shown_copy hwf hs (by obtain rfl | rfl | rfl := hc <;> decide) hbytes

theorem State.hostCleared.published {causes : BitVec 12} (h : s.hostCleared p causes t) (hwf : t.xmem.wf = true) :
    s.hostCleared p causes (t.publishWatchdog e) := by
  refine h.of_ended p hwf (State.publishWatchdog_writes e t) (fun a ha => ?_) (State.publishWatchdog_flags e t) (by simp)
    (by simp) (by simp) (by simp) (by simp) (by simp) (by simp) (by simp)
  simp only [watchdogBytes, outside, List.all_cons, List.all_nil, Bool.and_true, Bool.and_eq_true, Bool.or_eq_true,
    decide_eq_true_eq]
  omega

end expiry

section expired
variable {s : State} (cause : RestartCause) (p : Image) (e : SlotCount)

/-- What the expiry leaves of the monitor's fields beside the action (R111). -/
theorem State.expire_recorded (hs : s.rail.state = .running) :
    let a := ladderAction p s.mon.ladderIndex
    let t := s.expire cause p e
    (t.mon.ladderIndex = ladderNext p s.mon.ladderIndex ∧ t.mon.lastRefusal = .noRefusal ∧
      t.mon.recordCounter = nextRecordNumber s.mon.recordCounter ∧
      t.mon.records = (s.newRecord e cause a.recorded s.mon.ladderIndex .running :: s.mon.records).take 8) ∧
    t.mon.stageEnd = none ∧ t.mon.stableEnd = none ∧ t.mon.watchdog = (if a = .lockout then .dormant else .expired) ∧
      t.mon.pendingRecord = (if a = .lockout then none else some (nextRecordNumber s.mon.recordCounter)) := by
  have hmon : (s.expire cause p e).mon =
      ((s.expired cause p e).carryOut e p (ladderAction p s.mon.ladderIndex)).mon := by rw [State.expire_eq]; simp
  have hvmon := State.expired_mon (s := s) cause p e
  have hvs : (s.expired cause p e).rail.state = .running := by simpa [State.expired] using hs
  have hvw : (s.expired cause p e).mon.watchdog = .expired := by rw [hvmon]
  have hrecorded := State.carryOut_recorded (s := s.expired cause p e) p e (ladderAction p s.mon.ladderIndex)
  have hexpired := State.carryOut_expired p hvs hvw e (ladderAction p s.mon.ladderIndex)
  dsimp only
  rw [hmon]
  rw [hvmon] at hrecorded hexpired
  exact ⟨hrecorded, hexpired⟩

theorem State.expire_wf (hwf : s.xmem.wf = true) :
    ((s.expired cause p e).carryOut e p (ladderAction p s.mon.ladderIndex)).xmem.wf = true :=
  ((State.carryOut_writes e p _ _) ((State.expired_writes p e s cause) hwf).wf).wf

theorem State.expire_shown (hwf : s.xmem.wf = true) {c : Copy} (hc : c = .refusal ∨ c = .records ∨ c = .ladder) :
    (s.expire cause p e).shown c := by
  rw [State.expire_eq]
  exact State.publishWatchdog_shown_copy (State.expire_wf cause p e hwf) e fun _ =>
    State.carryOut_shown p ((State.expired_writes p e s cause) hwf).wf e _ hc (State.expired_shown cause p e hwf hc)

theorem State.expire_watched (hwf : s.xmem.wf = true) : (s.expire cause p e).watchdogShown e := by
  rw [State.expire_eq]
  exact State.publishWatchdog_shown e (State.expire_wf cause p e hwf)

/-- The monitor as the expiry leaves it before its action: EXPIRED, with the record of number `number` pending. -/
def State.expiring (number : Nat) (s : State) : State :=
  { s with mon := { s.mon with watchdog := .expired, stageEnd := none, pendingRecord := some number } }

theorem State.expired_recordsAside :
    (s.expiring (nextRecordNumber s.mon.recordCounter)).mon.recordsAside (s.expired cause p e).mon := by
  rw [State.expired_mon]
  rfl

/-- An expiry with another action than WARM is a rail that goes off (R111). -/
theorem State.expire_wentOff (hwf : s.xmem.wf = true) (hs : s.rail.state = .running)
    (ha : ladderAction p s.mon.ladderIndex ≠ .warm) :
    (s.expiring (nextRecordNumber s.mon.recordCounter)).railWentOff
      (if ladderAction p s.mon.ladderIndex = .cold then some (true, Profile.minimumOff p * 64) else none) e
      (s.expire cause p e) := by
  have hwfv := ((State.expired_writes p e s cause) hwf).wf
  have hwfc := State.expire_wf cause p e hwf
  have hrail : (s.expired cause p e).rail = s.rail := by simp [State.expired]
  have hclimate : (s.expired cause p e).climate = s.climate := by simp [State.expired]
  have hmon := State.expired_recordsAside (s := s) cause p e
  have hw : (s.expired cause p e).rail.state ≠ .warming := by simp [hrail, hs]
  rw [State.expire_eq]
  generalize s.expired cause p e = v at *
  cases haction : ladderAction p s.mon.ladderIndex with
  | warm => exact absurd haction ha
  | cold =>
    rw [haction] at hwfc
    have hoff := (State.enterCooldown_wentOff (now := e) hwfv hw true (minimumOffSlots p)).published e hwfc
    exact hoff.of_recorded hrail hclimate hmon
  | lockout =>
    rw [haction] at hwfc
    have hoff := (State.enterLockout_wentOff (now := e) hwfv hw).published e hwfc
    exact hoff.of_recorded hrail hclimate hmon

/-- What such an expiry writes. -/
theorem State.expire_partWrote (hwf : s.xmem.wf = true) (hs : s.rail.state = .running)
    (ha : ladderAction p s.mon.ladderIndex ≠ .warm) :
    s.xmem.partWrote cutBytes Cause.restartNote.bit (s.expire cause p e).xmem ∧
      s.expire cause p e =
        { s with
          rail := (s.expire cause p e).rail, mon := (s.expire cause p e).mon, climate := (s.expire cause p e).climate
          xmem := (s.expire cause p e).xmem } := by
  have hwrote := State.expired_writes p e s cause
  have hw : (s.expired cause p e).rail.state ≠ .warming := by simp [State.expired, hs]
  have hflags := State.expired_flags (s := s) cause p e
  have hcarried : (s.expired cause p e).xmem.writes cutBytes
        ((s.expired cause p e).carryOut e p (ladderAction p s.mon.ladderIndex)).xmem := by
    cases haction : ladderAction p s.mon.ladderIndex with
    | warm => exact absurd haction ha
    | cold => exact State.enterCooldown_writes_of e _ _ _ (by decide) fun h => absurd h hw
    | lockout => exact State.enterLockout_writes_of e _ (by decide) fun h => absurd h hw
  have hcarriedFlags :
      ((s.expired cause p e).carryOut e p (ladderAction p s.mon.ladderIndex)).xmem.summary = (s.expired cause p e).xmem.summary ∧
        ((s.expired cause p e).carryOut e p (ladderAction p s.mon.ladderIndex)).xmem.enable =
          (s.expired cause p e).xmem.enable := by
    cases haction : ladderAction p s.mon.ladderIndex with
    | warm => exact absurd haction ha
    | cold => exact State.enterCooldown_flags e _ _ _
    | lockout => exact State.enterLockout_flags e _
  have hall : s.xmem.writes cutBytes (s.expire cause p e).xmem := by
    rw [State.expire_eq]
    exact ((hwrote.mono (by decide)).trans hcarried).trans ((State.publishWatchdog_writes e _).mono (by decide))
  refine ⟨hall.partWrote hwf ?_, ?_⟩
  · rw [Exchange.raised, State.expire_eq, (State.publishWatchdog_flags e _).1, (State.publishWatchdog_flags e _).2,
      hcarriedFlags.1, hcarriedFlags.2]
    exact hflags
  · obtain ⟨hair, hkeypad, hengine⟩ := State.carryOut_off_frame (s := s.expired cause p e) p e ha
    have hother : (s.expired cause p e).air = s.air ∧ (s.expired cause p e).keypad = s.keypad ∧
        (s.expired cause p e).engine = s.engine ∧ (s.expired cause p e).time = s.time ∧
        (s.expired cause p e).sense = s.sense ∧ (s.expired cause p e).store = s.store ∧
        (s.expired cause p e).supplyLow = s.supplyLow ∧ (s.expired cause p e).fresh = s.fresh ∧
        (s.expired cause p e).pending = s.pending := by simp [State.expired]
    apply State.ext_blocks <;> simp [State.expire_eq, hair, hkeypad, hengine, hother]

/-- An expiry with WARM is the entry into RESETTING, with the watchdog published once more (R83, R86, R111). -/
theorem State.expire_warm_eq (ha : ladderAction p s.mon.ladderIndex = .warm) :
    s.expire cause p e = ((s.expired cause p e).enterResetting e p).publishWatchdog e := by
  rw [State.expire_eq, ha]
  rfl

theorem State.enterResetting_wf (hwf : s.xmem.wf = true) : (s.enterResetting e p).xmem.wf = true :=
  ((State.enterResetting_writes_of (rs := railBytes ++ clearingBytes) e p s (by decide) fun _ => by decide) hwf).wf

theorem State.expire_warm_cleared (hwf : s.xmem.wf = true) (ha : ladderAction p s.mon.ladderIndex = .warm) :
    s.hostCleared p Cause.restartNote.bit (s.expire cause p e) := by
  have hwfv := ((State.expired_writes p e s cause) hwf).wf
  have hvmon := State.expired_mon (s := s) cause p e
  have hcleared := (State.enterResetting_cleared e p hwfv).of_begun (s := s) (causes := Cause.restartNote.bit) p
    (by simp [State.expired]) (by simp [State.expired]) (by simp [State.expired]) (by rw [hvmon]) (by rw [hvmon])
    (by simp [State.expired]) (by simp [State.expired]) (by simp [State.expired]) (by simp [State.expired])
    (State.expired_flags cause p e).1
  rw [State.expire_warm_eq cause p e ha]
  exact hcleared.published p e (State.enterResetting_wf p e hwfv)

theorem State.expire_warm_rail (hwf : s.xmem.wf = true) (ha : ladderAction p s.mon.ladderIndex = .warm) :
    (s.expire cause p e).rail = ((s.expired cause p e).enterResetting e p).rail ∧
      (s.expire cause p e).xmem.peek 0x19 = 5 := by
  have hwfv := ((State.expired_writes p e s cause) hwf).wf
  have hstate := State.enterResetting_shown (c := .rail) e p hwfv (.inl rfl)
  have hresetting : ((s.expired cause p e).enterResetting e p).rail.state = .resetting := by
    rw [State.enterResetting_rail]
  have hwfu := State.enterResetting_wf p e hwfv
  rw [State.expire_warm_eq cause p e ha]
  generalize (s.expired cause p e).enterResetting e p = u at *
  have hshown := State.publishWatchdog_shown_copy (c := .rail) hwfu e fun _ => hstate
  have hfive := hshown.byte rfl
  have hrail : (u.publishWatchdog e).rail = u.rail := by simp
  rw [hrail, hresetting] at hfive
  exact ⟨hrail, hfive⟩

theorem State.expire_warm_reset (hs : s.rail.state = .running) (ha : ladderAction p s.mon.ladderIndex = .warm) :
    (s.expiring (nextRecordNumber s.mon.recordCounter)).monitorReset p (s.expire cause p e) := by
  have hvs : (s.expired cause p e).rail.state = .running := by simpa [State.expired] using hs
  have hmon := State.enterResetting_mon e p hvs
  rw [State.expired_mon] at hmon
  have hsame : (s.expire cause p e).mon = ((s.expired cause p e).enterResetting e p).mon := by
    rw [State.expire_warm_eq cause p e ha]
    simp
  rw [State.monitorReset, hsame, hmon]
  simp [State.expiring]

end expired

end Sys2Proof.Machine

namespace Sys2Proof.Proofs

open Sys2Proof.Machine

/-- Settles O26: the expiry is recorded first; then WARM is the entry into RESETTING, and any other action a rail that goes
off. -/
theorem watchdogExpiryIsAFailure : Obligations.WatchdogExpiryIsAFailure := by
  intro s p e c cause hp hwf hs hdue hc
  have hexec : exec c s = .next (s.expire cause p e) := by
    obtain ⟨rfl, hw, rfl⟩ | ⟨rfl, hw, rfl⟩ := hc
    · show execGraceExpiry s = _
      rw [execGraceExpiry, State.atEnd_of_due hp hdue, if_pos hw]
    · show execStage2Expiry s = _
      rw [execStage2Expiry, State.atEnd_of_due hp hdue, if_pos hw]
  obtain ⟨⟨hladder, hrefusal, hcounter, hrecords⟩, hstage, hstable, hdog, hpending⟩ :=
    State.expire_recorded (s := s) cause p e hs
  have hshown {c : Copy} (hc : c = .refusal ∨ c = .records ∨ c = .ladder) := State.expire_shown cause p e hwf hc
  have hadded := State.recordAdded_of hcounter hrefusal hrecords (hshown (.inl rfl)) (hshown (.inr (.inl rfl)))
  have haction (a : LadderAction) :
      (if a = .warm then RecordAction.warm else if a = .cold then .cold else .lockout) = a.recorded := by cases a <;> rfl
  refine ⟨_, hexec, hladder, ?_, hstage, hstable, hdog, ?_, (hshown (.inr (.inr rfl))).byte rfl,
    State.expire_watched cause p e hwf, fun hwarm => ?_, fun hother => ?_⟩
  · exact (haction (ladderAction p s.mon.ladderIndex)).symm ▸ hadded
  · rw [hcounter]
    exact hpending
  · obtain ⟨hrail, hfive⟩ := State.expire_warm_rail cause p e hwf hwarm
    rw [hcounter]
    refine ⟨?_, hfive, State.expire_warm_reset cause p e hs hwarm, State.expire_warm_cleared cause p e hwf hwarm⟩
    rw [hrail, State.enterResetting_rail]
    simp [State.expired, hs]
  · rw [hcounter]
    exact ⟨State.expire_wentOff cause p e hwf hs hother, State.expire_partWrote cause p e hwf hs hother⟩

end Sys2Proof.Proofs
end

