-- ==== Sys2Proof/Proofs/SensorEnds.lean ====
section
/-!
The statements on the conversion ends: the faults of a channel, the fog, the module temperature, and the rail's values and
current.
-/

namespace Sys2Proof.Machine

theorem causes_masked (x c b : BitVec 12) : (x ||| c) &&& b = (x &&& b) ||| (c &&& b) := by
  ext i hi
  simp [Bool.and_or_distrib_right]

theorem causes_held (x b : BitVec 12) : (x ||| b) &&& b = b := by
  ext i hi
  simpa using Or.inr

/-- Causes raised one after another. -/
theorem Exchange.raised.trans {c d : BitVec 12} {x y z : Exchange} (hxy : x.raised c y) (hyz : y.raised d z) :
    x.raised (c ||| d) z := by
  obtain ⟨hs, he⟩ := hxy
  obtain ⟨hs', he'⟩ := hyz
  exact ⟨by rw [hs', hs, BitVec.or_assoc], he'.trans he⟩

/-! ### A channel's code (R2 to R7, R14) -/

section take
variable {r : Channel} {c : BitVec 12} (v : Int)

theorem faultCode_iff (n : Nat) : faultCode n = true ↔ ¬(16 ≤ n ∧ n ≤ 4079) := by
  simp only [faultCode, Bool.or_eq_true, decide_eq_true_eq]
  omega

/-- R4: a fault code. -/
theorem Channel.take_of_fault_code (hc : ¬(16 ≤ c.toNat ∧ c.toNat ≤ 4079)) :
    r.take c v =
      { r with
        lastCode := some c, fault := true, pendingValue := if r.fault then r.pendingValue else none } := by
  have hcode := (faultCode_iff c.toNat).mpr hc
  cases hf : r.fault <;> simp [Channel.take, hcode, hf]

/-- R5: an in-range code on a faulted channel. -/
theorem Channel.take_of_fault (hc : 16 ≤ c.toNat ∧ c.toNat ≤ 4079) (hf : r.fault = true) :
    r.take c v = { r with lastCode := some c, fault := false, accepted := some v } := by
  simp [Channel.take, faultCode_of_in_range hc, hf]

theorem Channel.take_lastCode : (r.take c v).lastCode = some c := by
  unfold Channel.take
  dsimp only
  split
  · split <;> rfl
  · split
    · rfl
    · split <;> rfl

end take

/-- The cause that a conversion end raises by itself: CLIMATE_FAULT at an entry into fault (R4). -/
def Channel.faultCause (old new : Channel) : BitVec 12 :=
  if new.fault && !old.fault then Cause.climateFault.bit else 0

section code
variable (p : Image) (k : Fin 6) (c : BitVec 12) (s : State)

theorem State.takeCode_channel :
    (s.takeCode p k c).sense.channels[k] = s.sense.channels[k].take c (convert p k c.toNat) := by
  simp [State.takeCode_sense]

theorem State.takeCode_others {j : Fin 6} (hj : j ≠ k) :
    (s.takeCode p k c).sense.channels[j] = s.sense.channels[j] := by
  have hne : k.val ≠ j.val := fun e => hj (Fin.ext e.symm)
  simp [State.takeCode_sense, Vector.getElem_set_ne, hne]

theorem State.takeCode_raised :
    s.xmem.raised (Channel.faultCause s.sense.channels[k] (s.takeCode p k c).sense.channels[k]) (s.takeCode p k c).xmem := by
  rw [State.takeCode_channel]
  unfold State.takeCode Channel.faultCause
  dsimp only
  split <;> simp [Exchange.raised]

theorem State.takeCode_holdsEntry (hwf : s.xmem.wf = true) :
    (s.takeCode p k c).xmem.holdsEntry k (s.takeCode p k c).sense.channels[k].entry := by
  rw [State.takeCode_channel]
  have hentry := Exchange.holdsEntry_partWrite_entry hwf k
    (Channel.entry_length (s.sense.channels[k].take c (convert p k c.toNat)))
  unfold State.takeCode
  dsimp only
  split
  · exact Exchange.holdsEntry_raise hentry _
  · exact hentry

theorem State.takeCode_eq : s.takeCode p k c = { s with sense := (s.takeCode p k c).sense, xmem := (s.takeCode p k c).xmem } := by
  apply State.ext_blocks <;> simp

/-- What every conversion end leaves of the sensing unit and of the channel's entry (R2, R14). -/
theorem State.deliverTemp_sense (now : SlotCount) :
    ((s.takeCode p k c).deliverTemp now p k).sense = (s.takeCode p k c).sense := by
  simp

end code

/-! ### Fog (R135, R23) -/

/-- The setpoint that fog asks of Z2 (R23). -/
def State.fogTarget (p : Image) (s : State) : Int := min 600 ((s.temp 0).getD 0 + Profile.fogLift p)

/-- The notice of fog raises Z2. -/
def State.fogRaises (p : Image) (s : State) : Bool :=
  (s.temp 0).isSome && decide (s.climate.zones[(2 : Fin 3)].effective < s.fogTarget p)

/-- The zones with Z2's effective setpoint `e`. -/
def Climate.withZ2 (e : Int) (c : Climate) : Climate :=
  { c with zones := c.zones.set 2 { c.zones[(2 : Fin 3)] with effective := e } }

theorem Climate.withZ2_self (c : Climate) : c.withZ2 c.zones[(2 : Fin 3)].effective = c := by
  have hset : c.zones.set 2 c.zones[2] = c.zones := Vector.set_getElem_self _
  unfold Climate.withZ2
  show { c with zones := c.zones.set 2 c.zones[2] } = c
  rw [hset]

section fog
variable (p : Image) (s : State)

/-- The notice is a raise of Z2 with its part write, or nothing. -/
theorem State.fogNotice_eq :
    s.fogNotice p =
      if s.fogRaises p then
        (s.mapClimate (Climate.withZ2 (s.fogTarget p))).mapX (Exchange.partWrite 0x080 (sle16 (s.fogTarget p)))
      else s := by
  unfold State.fogNotice State.fogRaises State.fogTarget
  cases s.temp 0 with
  | none => rfl
  | some t =>
    simp only [Option.getD_some, Option.isSome_some, Bool.true_and, decide_eq_true_eq, min_comm (600 : Int)]
    rfl

theorem State.fogNotice_climate :
    (s.fogNotice p).climate =
      s.climate.withZ2 (if s.fogRaises p then s.fogTarget p else s.climate.zones[(2 : Fin 3)].effective) := by
  rw [State.fogNotice_eq]
  split
  · rfl
  · exact (Climate.withZ2_self _).symm

/-- The fog state of a judgement (R135). -/
def State.fogJudged (p : Image) (s : State) : Bool := fogNext p (s.temp 0) (s.temp 4) s.keypad.fog

/-- In the words of the statements. -/
theorem fogNext_eq (inlet glass : Option Int) (fog : Bool) :
    fogNext p inlet glass fog =
      if inlet.isSome ∧ glass.isSome then
        if (Profile.fogMargin p : Int) ≤ inlet.getD 0 - glass.getD 0 then true
        else if (Profile.fogMargin p : Int) - 10 ≤ inlet.getD 0 - glass.getD 0 then fog
        else false
      else true := by
  cases inlet <;> cases glass <;> rfl

/-- The fog state and FOG before the notice to the climate controller. -/
def State.fogTaken (p : Image) (s : State) : State :=
  let u := (s.mapKeypad fun k => { k with fog := s.fogJudged p }).publishFog
  if s.fogJudged p && !s.keypad.fog then u.raise .fog else u

theorem State.judgeFog_eq : s.judgeFog p = if s.fogJudged p then (s.fogTaken p).fogNotice p else s.fogTaken p := rfl

theorem State.fogTaken_blocks :
    (s.fogTaken p).climate = s.climate ∧ (s.fogTaken p).sense = s.sense ∧
      (s.fogTaken p).keypad = { s.keypad with fog := s.fogJudged p } := by
  unfold State.fogTaken
  dsimp only
  split <;> simp [State.publishFog]

theorem State.fogTaken_raises : (s.fogTaken p).fogRaises p = s.fogRaises p ∧ (s.fogTaken p).fogTarget p = s.fogTarget p := by
  obtain ⟨hclimate, hsense, _⟩ := State.fogTaken_blocks p s
  unfold State.fogRaises State.fogTarget State.temp
  rw [hclimate, hsense]
  exact ⟨rfl, rfl⟩

/-- Z2 is raised by this judgement. -/
def State.fogLifts (p : Image) (s : State) : Bool := s.fogJudged p && s.fogRaises p

theorem State.judgeFog_keypad : (s.judgeFog p).keypad = { s.keypad with fog := s.fogJudged p } := by
  rw [State.judgeFog_eq]
  split <;> simp [(State.fogTaken_blocks p s).2.2]

theorem State.judgeFog_climate :
    (s.judgeFog p).climate =
      s.climate.withZ2 (if s.fogLifts p then s.fogTarget p else s.climate.zones[(2 : Fin 3)].effective) := by
  obtain ⟨hclimate, _, _⟩ := State.fogTaken_blocks p s
  obtain ⟨hraises, htarget⟩ := State.fogTaken_raises p s
  rw [State.judgeFog_eq, State.fogLifts]
  cases s.fogJudged p
  · simp only [Bool.false_and, Bool.false_eq_true, if_false, hclimate]
    exact (Climate.withZ2_self _).symm
  · simp [State.fogNotice_climate, hclimate, hraises, htarget]

theorem State.judgeFog_raised :
    s.xmem.raised (if s.fogJudged p && !s.keypad.fog then Cause.fog.bit else 0) (s.judgeFog p).xmem := by
  have htaken : s.xmem.raised (if s.fogJudged p && !s.keypad.fog then Cause.fog.bit else 0) (s.fogTaken p).xmem := by
    unfold State.fogTaken
    dsimp only
    split <;> simp [Exchange.raised, State.publishFog]
  have hnotice : ((s.fogTaken p).fogNotice p).xmem.summary = (s.fogTaken p).xmem.summary ∧
      ((s.fogTaken p).fogNotice p).xmem.enable = (s.fogTaken p).xmem.enable := by
    rw [State.fogNotice_eq]
    split <;> simp
  rw [State.judgeFog_eq]
  by_cases hjudged : s.fogJudged p = true
  · rw [if_pos hjudged]
    exact ⟨hnotice.1.trans htaken.1, hnotice.2.trans htaken.2⟩
  · rw [if_neg hjudged]
    exact htaken

theorem State.fogTaken_writes : s.xmem.writes [(0x0C, 2), (0x0B2, 1)] (s.fogTaken p).xmem := by
  have hfog := State.publishFog_writes (s.mapKeypad fun k => { k with fog := s.fogJudged p })
  unfold State.fogTaken
  dsimp only
  split
  · exact hfog.andThen (State.raise_writes .fog _) (by decide) (by decide)
  · exact hfog.mono (by decide)

theorem State.judgeFog_writes_exactly :
    s.xmem.writes [(0x0C, 2), (0x080, if s.fogLifts p then 2 else 0), (0x0B2, 1)] (s.judgeFog p).xmem := by
  have htaken := State.fogTaken_writes p s
  obtain ⟨hraises, _⟩ := State.fogTaken_raises p s
  rw [State.judgeFog_eq, State.fogLifts]
  cases s.fogJudged p
  · simp only [Bool.false_and, Bool.false_eq_true, if_false]
    exact htaken.mono (by decide)
  · cases hlift : s.fogRaises p
    · have hnone : (s.fogTaken p).fogNotice p = s.fogTaken p := by
        rw [State.fogNotice_eq, hraises, hlift]
        rfl
      simp only [if_true, hnone]
      exact htaken.mono (by decide)
    · exact htaken.andThen (State.fogNotice_writes p _) (by decide) (by decide)

/-- In the words of the statements. -/
theorem State.fogLifts_eq :
    s.fogLifts p =
      decide (s.fogJudged p = true ∧ (s.temp 0).isSome = true ∧
        s.climate.zones[(2 : Fin 3)].effective < min 600 ((s.temp 0).getD 0 + Profile.fogLift p)) := by
  simp [State.fogLifts, State.fogRaises, State.fogTarget, Bool.decide_and]

theorem State.judgeFog_shown {s : State} (hwf : s.xmem.wf = true) :
    (s.judgeFog p).xmem.peek 0x0B2 = flagByte (s.fogJudged p) ∧
      (s.fogLifts p = true → (s.judgeFog p).xmem.shows 0x080 (sle16 (s.fogTarget p))) := by
  have hwf1 := ((State.fogTaken_writes p s) hwf).wf
  have htaken : (s.fogTaken p).xmem.peek 0x0B2 = flagByte (s.fogJudged p) := by
    set u := s.mapKeypad fun k => { k with fog := s.fogJudged p } with hu
    have hwfu : u.xmem.wf = true := hwf
    have hshown : u.publishFog.xmem.peek 0x0B2 = flagByte (s.fogJudged p) :=
      (Exchange.shows_single _).mp (Exchange.shows_partWrite hwfu 0x0B2 [flagByte (s.fogJudged p)] (by simp [memorySize]))
    have heq : s.fogTaken p = if s.fogJudged p && !s.keypad.fog then u.publishFog.raise .fog else u.publishFog := rfl
    rw [heq]
    split
    · exact (Exchange.peek_raise_of_not_mem ((State.publishFog_writes u) hwfu).wf .fog (.inr (by decide))).trans hshown
    · exact hshown
  obtain ⟨hraises, htarget⟩ := State.fogTaken_raises p s
  refine ⟨?_, fun hlift => ?_⟩
  · rw [State.judgeFog_eq]
    split
    · exact ((State.fogNotice_writes p (s.fogTaken p) hwf1).kept 0x0B2 (by decide) (by decide)).trans htaken
    · exact htaken
  · obtain ⟨hjudged, hr⟩ := (Bool.and_eq_true _ _).mp hlift
    rw [State.judgeFog_eq, if_pos hjudged, State.fogNotice_eq, if_pos (hraises.trans hr), htarget]
    exact Exchange.shows_partWrite hwf1 _ _ (by simp [sle16, memorySize])

end fog

/-! ### The module temperature (R82) -/

section overtemp
variable (now : SlotCount) (p : Image) (s : State)

/-- The module temperature is critical. -/
def State.critical (p : Image) (s : State) : Bool := ((s.temp 2).or (s.temp 1)).any fun x => Profile.criticalTemp p ≤ x

theorem State.judgeOvertemp_eq :
    s.judgeOvertemp now p =
      if s.rail.state.isOn = true ∧ s.critical p = true then s.cutWithNotice now p .overtemp (Profile.autostart p) else s := by
  unfold State.judgeOvertemp State.critical State.moduleTemp
  cases s.temp 2 <;> cases s.temp 1 <;> simp

/-- The cut raises RESTART_NOTE alone, and fog FOG alone (R118, R135). -/
theorem State.deliverTemp_keeps_climateFault (k : Fin 6) :
    (s.deliverTemp now p k).xmem.summary &&& Cause.climateFault.bit = s.xmem.summary &&& Cause.climateFault.bit := by
  have hother (c : BitVec 12) (hc : c &&& Cause.climateFault.bit = 0) (x : BitVec 12) :
      (x ||| c) &&& Cause.climateFault.bit = x &&& Cause.climateFault.bit := by
    rw [causes_masked, hc]
    exact BitVec.or_zero
  unfold State.deliverTemp
  split
  · rw [(State.judgeFog_raised p s).1]
    split
    · exact hother _ (by decide) _
    · exact congrArg (· &&& Cause.climateFault.bit) BitVec.or_zero
  · split
    · rw [State.judgeOvertemp_eq]
      split
      · rw [(State.cutWithNotice_flags now s p _ _).1]
        exact hother _ (by decide) _
      · rfl
    · rfl

end overtemp

/-! ### The rail's values (R11 to R14) and the current (R80) -/

section rail
variable (mV mA : Nat) (s : State)

theorem State.takeRailCodes_sense :
    (s.takeRailCodes mV mA).sense =
      { s.sense with
        railVoltage := mV, railCurrent := mA, windowSum := s.sense.windowSum + mV * mA / 100000
        railAverage :=
          if s.time.slotCount.toNat % 64 = 63 then (s.sense.windowSum + mV * mA / 100000) / 64 else s.sense.railAverage
        railConverted := true } := by
  unfold State.takeRailCodes State.slotNumber
  dsimp only
  rw [State.mapX_time, State.mapSense_time]
  split <;> simp [State.formAverage, Sensing.takeRail, slotPower]

theorem State.takeRailCodes_flags : s.xmem.raised 0 (s.takeRailCodes mV mA).xmem := by
  unfold State.takeRailCodes
  dsimp only
  split <;> simp [Exchange.raised, State.formAverage]

theorem State.takeRailCodes_values {s : State} (hwf : s.xmem.wf = true) :
    (s.takeRailCodes mV mA).xmem.shows 0x08C (le16 mV ++ le16 mA) := by
  have hvalues : (s.xmem.partWrite 0x08C (le16 mV ++ le16 mA)).shows 0x08C (le16 mV ++ le16 mA) :=
    Exchange.shows_partWrite hwf _ _ (by simp [le16, memorySize])
  have hwf1 := Exchange.wf_partWrite hwf 0x08C (le16 mV ++ le16 mA)
  unfold State.takeRailCodes
  dsimp only
  split
  · intro i hi
    have hi4 : i < 4 := hi
    refine Eq.trans ?_ (hvalues i hi)
    exact Exchange.peek_partWrite_of_not_mem hwf1 0x090 _ (.inl (by omega))
  · exact hvalues

theorem State.takeRailCodes_average {s : State} (hwf : s.xmem.wf = true) (hlast : s.time.slotCount.toNat % 64 = 63) :
    (s.takeRailCodes mV mA).xmem.shows 0x090 (le16 ((s.sense.windowSum + mV * mA / 100000) / 64)) := by
  have hslot : ((s.mapSense (Sensing.takeRail mV mA)).mapX (Exchange.partWrite 0x08C (le16 mV ++ le16 mA))).slotNumber = 63 :=
    hlast
  unfold State.takeRailCodes
  dsimp only
  rw [if_pos hslot]
  exact Exchange.shows_partWrite (Exchange.wf_partWrite hwf _ _) _ _ (by simp [le16, memorySize])

/-- The current is over the limit of a rail that is on (R80). -/
def State.overcurrent (p : Image) (s : State) : Bool := s.rail.state.isOn ∧ Profile.overcurrentLimit p < mA

theorem State.testCurrent_eq (now : SlotCount) (p : Image) :
    s.testCurrent now p mA =
      if s.overcurrent mA p = true then
        if s.rail.overcurrentCount = 0 then s.mapRail fun r => { r with overcurrentCount := 1 }
        else s.failure now p .overcurrent
      else s.mapRail fun r => { r with overcurrentCount := 0 } := by
  simp only [State.testCurrent, State.overcurrent, decide_eq_true_eq]

end rail

/-- A record's place in an event does not depend on the blocks that it does not read (R119). -/
theorem State.recordAdded.of_base {s u t : State} {e : SlotCount} {cause : RestartCause} {action : RecordAction} {i : Nat}
    {before : RailState} (h : u.recordAdded e cause action i before t) (hmon : u.mon = s.mon) (hsense : u.sense = s.sense) :
    s.recordAdded e cause action i before t := by
  unfold State.recordAdded State.temp at h ⊢
  rwa [hmon, hsense] at h

end Sys2Proof.Machine

namespace Sys2Proof.Proofs

open Sys2Proof.Machine

/-- Settles O13: the record is R4's or R5's, and no delivery touches CLIMATE_FAULT, the channels or the entry. -/
theorem conversionFaults : Obligations.ConversionFaults := by
  intro s p k c hp hwf hstart hslot hconv hcase
  have hexec := exec_conversionEnd_of_due hp (State.conversionDue_of_slot hstart hslot hconv) c
  have hchannel := State.takeCode_channel p k c s
  have hdelivered := State.deliverTemp_sense p k c s s.time.slotCount
  have hlast : ((s.takeCode p k c).sense.channels[k]).lastCode = some c := by
    rw [hchannel]
    exact Channel.take_lastCode _
  have hnew : (s.takeCode p k c).sense.channels[k] =
      if 16 ≤ c.toNat ∧ c.toNat ≤ 4079 then
        { s.sense.channels[k] with lastCode := some c, fault := false, accepted := some (convert p k c.toNat) }
      else
        { s.sense.channels[k] with
          lastCode := some c, fault := true
          pendingValue := if s.sense.channels[k].fault then s.sense.channels[k].pendingValue else none } := by
    rw [hchannel]
    split
    · rename_i hrange
      exact Channel.take_of_fault _ hrange (hcase.resolve_left (not_not_intro hrange))
    · exact Channel.take_of_fault_code _ ‹_›
  have hcause : Channel.faultCause s.sense.channels[k] (s.takeCode p k c).sense.channels[k] =
      if s.sense.channels[k].fault then 0 else Cause.climateFault.bit := by
    unfold Channel.faultCause
    rw [hnew]
    split
    · rename_i hrange
      have hfault := hcase.resolve_left (not_not_intro hrange)
      rw [if_pos hfault]
      rfl
    · cases s.sense.channels[k].fault <;> rfl
  have hraised := State.takeCode_raised p k c s
  rw [hcause] at hraised
  have hentry := State.deliverTemp_holdsEntry (State.takeCode_holdsEntry p k c s hwf) s.time.slotCount p k
  refine ⟨_, hexec, ?_⟩
  rw [hdelivered]
  refine ⟨hnew, fun j hj => State.takeCode_others p k c s hj, by rw [State.takeCode_sense], ?_, ?_, fun hk => ?_⟩
  · have hshows := hentry.2.2
    unfold Channel.entry at hshows
    rwa [hlast] at hshows
  · rw [State.deliverTemp_keeps_climateFault, hraised.1]
    split
    · exact congrArg (· &&& Cause.climateFault.bit) BitVec.or_zero
    · exact causes_held _ _
  · rw [State.deliverTemp_of_unheard hk]
    exact ⟨State.takeCode_eq p k c s, (State.takeCode_writes p k c s).partWrote hwf hraised⟩

/-- Settles O16: the conversion, then the judgement of fog on the values as they now stand. -/
theorem fogIsJudged : Obligations.FogIsJudged := by
  intro s p k c hp hwf hstart hslot hconv hk
  set u := s.takeCode p k c with hu
  have hexec : exec (.conversionEnd k c) s = .next (u.judgeFog p) := by
    rw [exec_conversionEnd_of_due hp (State.conversionDue_of_slot hstart hslot hconv) c, State.deliverTemp, if_pos hk]
  have hwrote := State.takeCode_writes p k c s
  have hwfu : u.xmem.wf = true := (hwrote hwf).wf
  have hsense : (u.judgeFog p).sense = u.sense := by simp
  have htemp (j : Fin 6) : (u.judgeFog p).temp j = u.temp j := by simp only [State.temp, hsense]
  have hkeypad := State.judgeFog_keypad p u
  have hfog : s.keypad.fog = u.keypad.fog := by simp [hu]
  have hclimate : s.climate = u.climate := by simp [hu]
  have hsame : s.keypad = u.keypad := by simp [hu]
  obtain ⟨hshown, hlifted⟩ := State.judgeFog_shown p hwfu
  have hraised := (State.takeCode_raised p k c s).trans (State.judgeFog_raised p u)
  refine ⟨_, hexec, ?_, ?_, ?_, fun j hj => ?_⟩
  · dsimp only
    rw [htemp, htemp, hfog, hclimate, hsame, hsense, hkeypad, ← fogNext_eq]
    have hjudged : fogNext p (u.temp 0) (u.temp 4) u.keypad.fog = u.fogJudged p := rfl
    have hlifts := State.fogLifts_eq p u
    rw [hjudged, ← hlifts]
    refine ⟨rfl, hshown, fun hnow hbefore => ?_, ?_, hlifted, ?_⟩
    · rw [(State.judgeFog_raised p u).1, hnow, hbefore]
      exact causes_held _ _
    · rw [State.judgeFog_climate, hlifts]
      simp only [decide_eq_true_eq]
      rfl
    · have hboth := (hwrote.mono (rangesCover_of_subset (by simp))).trans
        ((State.judgeFog_writes_exactly p u).mono
          (rs := [(0x0C, 2), (0x040 + 8 * k.val, 5), (0x080, if u.fogLifts p then 2 else 0), (0x0B2, 1)])
          (rangesCover_of_subset (by simp)))
      exact hboth.partWrote hwf hraised
  · apply State.ext_blocks <;> simp [hu]
  · rw [hsense, hu, State.takeCode_sense]
  · rw [hsense]
    exact State.takeCode_others p k c s hj

/-- Settles O17: the conversion, then the cut of a rail that is on and too hot. -/
theorem overtemperatureCutsTheRail : Obligations.OvertemperatureCutsTheRail := by
  intro s p k c hp hwf hstart hslot hconv hk
  set u := s.takeCode p k c with hu
  have hexec : exec (.conversionEnd k c) s = .next (u.judgeOvertemp s.time.slotCount p) := by
    rw [exec_conversionEnd_of_due hp (State.conversionDue_of_slot hstart hslot hconv) c, State.deliverTemp,
      if_neg (by rintro (rfl | rfl) <;> simp at hk), if_pos hk]
  have hwrote := State.takeCode_writes p k c s
  have hwfu : u.xmem.wf = true := (hwrote hwf).wf
  have hraised := State.takeCode_raised p k c s
  have hrail : u.rail = s.rail := by simp [hu]
  have hmon : u.mon = s.mon := by simp [hu]
  have hsense : (u.judgeOvertemp s.time.slotCount p).sense = u.sense := by simp
  have hothers : ∀ j : Fin 6, j ≠ k → u.sense.channels[j] = s.sense.channels[j] := fun j hj =>
    State.takeCode_others p k c s hj
  refine ⟨_, hexec, ?_, by rw [hsense, hu, State.takeCode_sense], by rw [hsense]; exact hothers⟩
  have hcritical : (((u.judgeOvertemp s.time.slotCount p).temp 2).or ((u.judgeOvertemp s.time.slotCount p).temp 1)).any
      (fun x => Profile.criticalTemp p ≤ x) = u.critical p := by simp only [State.critical, State.temp, hsense]
  dsimp only
  rw [hcritical, hsense]
  rw [State.judgeOvertemp_eq, hrail]
  split
  · rename_i hhot
    have hw : u.rail.state ≠ .warming := fun hw => by simp [← hrail, hw, RailState.isOn] at hhot
    obtain ⟨hladder, hadded, hoff, _, _⟩ :=
      State.cutWithNotice_noticed s.time.slotCount p hwfu hw .overtemp (Profile.autostart p)
    rw [hmon, hrail] at hadded
    rw [hmon] at hladder
    refine ⟨hladder, hadded.of_base hmon rfl, hoff.of_recorded hrail (by simp [hu]) (by rw [hmon]; rfl), ?_, ?_⟩
    · have hboth := (hwrote.mono (rangesCover_of_subset (by simp [cutBytes]))).trans
        ((State.cutWithNotice_writes_of (rs := (0x040 + 8 * k.val, 5) :: cutBytes) s.time.slotCount p .overtemp
          (Profile.autostart p) u (rangesCover_of_subset (by simp)) fun h => absurd h hw))
      exact hboth.partWrote hwf (hraised.trans (State.cutWithNotice_flags _ _ _ _ _))
    · apply State.ext_blocks <;> simp [hu]
  · exact ⟨State.takeCode_eq p k c s, hwrote.partWrote hwf hraised⟩

/-- Settles O18: the rail's values, then the test of the current (R80). -/
theorem railConversionAndOvercurrent : Obligations.RailConversionAndOvercurrent := by
  intro s p vsns isns hp hwf hstart hconv hcount
  set u := s.takeRailCodes (vsns.toNat * 8) (isns.toNat * 4) with hu
  have hexec : exec (.railConversionEnd vsns isns) s =
      .next (u.testCurrent s.time.slotCount p (isns.toNat * 4)) := by
    have hdue : s.railConversionDue = true := by simp [State.railConversionDue, hstart, hconv]
    show execRailConversionEnd vsns isns s = _
    simp only [execRailConversionEnd, hp, hdue, if_true]
    rfl
  have hwrote := State.takeRailCodes_writes (vsns.toNat * 8) (isns.toNat * 4) s
  have hwfu : u.xmem.wf = true := (hwrote hwf).wf
  have hflags := State.takeRailCodes_flags (vsns.toNat * 8) (isns.toNat * 4) s
  have hsense := State.takeRailCodes_sense (vsns.toNat * 8) (isns.toNat * 4) s
  have hrail : u.rail = s.rail := by simp [hu]
  have hmon : u.mon = s.mon := by simp [hu]
  have htested := State.testCurrent_writes s.time.slotCount p (isns.toNat * 4) u
  have hframe : (u.testCurrent s.time.slotCount p (isns.toNat * 4)).sense = u.sense := by simp
  have hkept (a : Nat) (ha : a < 0x0A0) (hlow : 0x08C ≤ a) :
      (u.testCurrent s.time.slotCount p (isns.toNat * 4)).xmem.peek a = u.xmem.peek a := by
    refine (htested hwfu).kept a (by unfold memorySize; omega) ?_
    simp only [cutBytes, outside, List.all_cons, List.all_nil, Bool.and_true, Bool.and_eq_true, Bool.or_eq_true,
      decide_eq_true_eq]
    omega
  refine ⟨_, hexec, ⟨?_, fun i hi => ?_, fun hlast i hi => ?_⟩, fun a ha hout => ?_, by simp [hu], by simp [hu], by simp [hu],
    by simp [hu], by simp [hu], ?_⟩
  · rw [hframe, hu, hsense]
    simp
  · have hi4 : i < 4 := hi
    rw [hkept _ (by omega) (by omega)]
    exact State.takeRailCodes_values _ _ hwf i hi
  · have hi2 : i < 2 := hi
    rw [hkept _ (by omega) (by omega)]
    exact State.takeRailCodes_average _ _ hwf (of_decide_eq_true hlast) i hi
  · refine ((htested hwfu).kept a ha (outside_of_cover (rangesCover_of_subset (by simp)) hout)).trans ?_
    exact (hwrote hwf).kept a ha (outside_of_cover (rangesCover_of_subset (List.subset_append_left _ _)) hout)
  · have hhigh : u.overcurrent (isns.toNat * 4) p =
        decide (s.rail.state.isOn = true ∧ Profile.overcurrentLimit p < isns.toNat * 4) := by rw [State.overcurrent, hrail]
    dsimp only
    rw [← hhigh, hframe]
    rw [State.testCurrent_eq, hrail]
    cases hover : u.overcurrent (isns.toNat * 4) p
    · simp only [Bool.false_eq_true, if_false, false_and]
      refine ⟨?_, hflags.1.trans BitVec.or_zero⟩
      apply State.ext_blocks <;> simp [hu]
    · obtain hzero | hone : s.rail.overcurrentCount = 0 ∨ s.rail.overcurrentCount = 1 := by omega
      · simp only [if_true, hzero, zero_ne_one, and_false, if_false]
        refine ⟨?_, hflags.1.trans BitVec.or_zero⟩
        apply State.ext_blocks <;> simp [hu]
      · simp only [if_true, hone, one_ne_zero, and_self, if_false]
        have hw : u.rail.state ≠ .warming := fun hw => by
          simp [State.overcurrent, hw, RailState.isOn] at hover
        obtain ⟨hladder, _, hadded, hoff, _, heq⟩ := State.failure_failed s.time.slotCount p hwfu hw .overcurrent
        rw [hmon] at hladder hadded hoff
        rw [hrail] at hadded
        refine ⟨hladder, hadded.of_base hmon rfl, hoff.of_recorded hrail (by simp [hu]) (by rw [hmon]; rfl), ?_, ?_⟩
        · rw [(State.failure_flags _ _ _ _).1, hflags.1]
          exact congrArg (· ||| Cause.restartNote.bit) BitVec.or_zero
        · apply State.ext_blocks <;> simp [hu]

end Sys2Proof.Proofs
end

