-- ==== Sys2Proof/Proofs/HostFrames.lean ====
section
/-!
SUPPORT. The WRITE frames of the rows: what the landing of accepted bytes leaves (`HostWrote`), and which words a frame that
writes one place delivers (R155, R157). Statements on the attention words.
-/

namespace Sys2Proof.Machine

/-! ### The landing of a frame (R154, R155) -/

/-- From `x` on a frame of the host has landed the bytes `data` from address `start` on, and no READ frame is open. -/
structure Exchange.HostWrote (start : Nat) (data : List Byte) (x y : Exchange) : Prop where
  wf : y.wf = true
  held : y.frame.held = []
  covered : y.frame.covered = none
  phase : y.frame.phase = .idle
  ready : y.ready = x.ready
  refused : y.refused = x.refused
  range : y.range = x.range
  summary : y.summary = x.summary
  enable : y.enable = x.enable
  peek : ∀ a < memorySize,
    y.peek a = if start ≤ a ∧ a < start + data.length then data.getD (a - start) 0 else x.peek a

section hostWrote
variable {start : Nat} {data : List Byte} {x y z : Exchange}

theorem Exchange.HostWrote.shows (h : Exchange.HostWrote start data x y) (hin : start + data.length ≤ memorySize) :
    y.shows start data := by
  intro i hi
  rw [h.peek _ (by omega), if_pos (by omega), Nat.add_sub_cancel_left]

theorem Exchange.HostWrote.kept (h : Exchange.HostWrote start data x y) {a : Nat} (ha : a < memorySize)
    (hout : a < start ∨ start + data.length ≤ a) : y.peek a = x.peek a := by
  rw [h.peek a ha, if_neg (by omega)]

/-- The landing and the part's own writes after it are one frame's work. -/
theorem Exchange.HostWrote.frameWrote (h : Exchange.HostWrote start data x y) {rs : List (Nat × Nat)} {causes : BitVec 12}
    (hw : y.writes rs z) (hr : y.raised causes z) (hin : rangeWithin rs (start, data.length) = true) :
    x.frameWrote rs causes z := by
  have hz := hw h.wf
  refine ⟨hz.ready.trans h.ready, hz.refused.trans h.refused, hz.range.trans h.range, hr.2.trans h.enable, ?_, ?_,
    hz.covered.trans h.covered, hz.holdsNone h.covered h.held, fun a ha ho => ?_⟩
  · rw [hr.1, h.summary]
  · rw [hz.frame]
    exact h.phase
  · rw [hz.kept a ha ho, h.kept ha (not_mem_of_outside hin ho)]

end hostWrote

/-- The state in which the bytes `data` of a WRITE frame have landed from its address on. -/
def State.landed (high low : Byte) (data : List Byte) (s : State) : State :=
  s.mapX fun x => (x.takeWrite (high :: low :: data)).landHost (cellsAt (startAddress high low) data)

@[simp] theorem State.landed_frame (high low : Byte) (data : List Byte) (s : State) :
    (s.landed high low data).time = s.time ∧ (s.landed high low data).sense = s.sense ∧
      (s.landed high low data).climate = s.climate ∧ (s.landed high low data).air = s.air ∧
      (s.landed high low data).rail = s.rail ∧ (s.landed high low data).mon = s.mon ∧
      (s.landed high low data).keypad = s.keypad ∧ (s.landed high low data).engine = s.engine ∧
      (s.landed high low data).store = s.store ∧ (s.landed high low data).supplyLow = s.supplyLow ∧
      (s.landed high low data).fresh = s.fresh ∧ (s.landed high low data).pending = s.pending := by
  simp [State.landed]

section frames
variable {s : State} {p : Image} {high low : Byte} {data : List Byte}

theorem State.landed_wrote {start : Nat} (hstart : startAddress high low = start) (hwf : s.xmem.wf = true)
    (hin : start + data.length ≤ memorySize) :
    Exchange.HostWrote start data s.xmem (s.landed high low data).xmem := by
  subst hstart
  have hx := Exchange.takeWrite_reframed hwf (high :: low :: data)
  have hrange : overruns (startAddress high low) data.length = false := by simp [overruns]; omega
  refine ⟨?_, hx.held, rfl, rfl, rfl, rfl, ?_, rfl, rfl, fun a ha => ?_⟩
  · obtain ⟨hmem, hheld⟩ := (Bool.and_eq_true _ _).mp hx.wf
    exact (Bool.and_eq_true _ _).mpr ⟨Memory.wf_writeAll hmem _, hheld⟩
  · show (s.xmem.range || overruns (startAddress high low) data.length) = s.xmem.range
    rw [hrange, Bool.or_false]
  · have hpeek : (s.landed high low data).xmem.peek a =
        (Held.get (cellsAt (startAddress high low) data) a).getD (s.xmem.peek a) :=
      (Exchange.peek_landHost hx.wf hx.held _ ha).trans (by rw [hx.peek a ha])
    rw [hpeek, Held.get_cellsAt]
    by_cases hlow : startAddress high low ≤ a
    · rw [if_pos hlow]
      by_cases hhigh : a < startAddress high low + data.length
      · rw [if_pos ⟨hlow, hhigh⟩, List.getD_eq_getElem?_getD, List.getElem?_eq_getElem (by omega)]
        rfl
      · rw [if_neg (by omega), List.getElem?_eq_none (by omega)]
        rfl
    · rw [if_neg hlow, if_neg (by omega)]
      rfl

theorem cellsAt_mem {a : Nat} {bs : List Byte} {c : Host.Cell} (h : c ∈ cellsAt a bs) :
    a ≤ c.1 ∧ c.1 < a + bs.length ∧ c.2 = bs.getD (c.1 - a) 0 := by
  induction bs generalizing a with
  | nil => cases h
  | cons b bs ih =>
    obtain rfl | h := List.mem_cons.mp h
    · simp
    · obtain ⟨hlow, hhigh, hbyte⟩ := ih h
      refine ⟨by omega, by simp; omega, ?_⟩
      rw [hbyte, show c.1 - a = (c.1 - (a + 1)) + 1 by omega, List.getD_cons_succ]

/-- What the guard says of a byte depends on the bytes of the memory alone (R156). -/
theorem Exchange.guard_congr {x y : Exchange} {held : Bool} (h : ∀ a < memorySize, y.peek a = x.peek a) (c : Host.Cell) :
    y.guard held c = x.guard held c := by
  unfold Exchange.guard
  split
  · rfl
  · split
    · rename_i htable
      have howner (o : Owner) : y.ownerIs ((c.1 - 0x100) / 64) o = x.ownerIs ((c.1 - 0x100) / 64) o := by
        unfold Exchange.ownerIs
        rw [h _ (by unfold slotAddr memorySize; omega)]
      simp only [howner, h c.1 (by unfold memorySize; omega)]
    · rfl

/-- The write buffer of a frame that lies inside the memory holds each of its bytes (R154). -/
theorem Exchange.takeWrite_buffer (x : Exchange) (hin : startAddress high low + data.length ≤ memorySize) :
    (x.takeWrite (high :: low :: data)).frame.buffer = cellsAt (startAddress high low) data :=
  List.filter_eq_self.mpr fun c hc => by
    have := (cellsAt_mem hc).2.1
    simp
    omega

/-- A frame whose every byte the guard accepts lands them and delivers the words they touch (R155). -/
theorem State.writeFrame_accepted (hwf : s.xmem.wf = true) (hp : s.store.active = some p) (hready : s.xmem.ready = true)
    (hin : startAddress high low + data.length ≤ memorySize) (hne : data ≠ [])
    (hguard : ∀ c ∈ cellsAt (startAddress high low) data, s.xmem.guard s.store.stagingHeld c = true) :
    s.writeFrame (high :: low :: data) =
      (s.landed high low data).deliverAll s.time.slotCount p (cellsAt (startAddress high low) data) := by
  have hx := Exchange.takeWrite_reframed hwf (high :: low :: data)
  have hall : ∀ c ∈ cellsAt (startAddress high low) data,
      (s.xmem.takeWrite (high :: low :: data)).guard s.store.stagingHeld c = true :=
    fun c hc => (Exchange.guard_congr hx.peek c).trans (hguard c hc)
  have hcells : cellsAt (startAddress high low) data ≠ [] := by
    cases data with
    | nil => exact absurd rfl hne
    | cons b bs => simp [cellsAt]
  unfold State.writeFrame
  dsimp only
  rw [State.mapX_xmem, Exchange.takeWrite_buffer _ hin]
  unfold State.endWrite
  rw [if_neg hcells]
  simp only [State.mapX_xmem, hx.ready, hready, State.mapX_store, hp, List.filter_eq_self.mpr hall,
    List.all_eq_true.mpr hall, if_true]
  rfl

/-! ### Which words a frame touches (R157) -/

theorem touched_cellsAt {a lo hi : Nat} {bs : List Byte} :
    touched (cellsAt a bs) lo hi = true ↔ ∃ k, a ≤ k ∧ k < a + bs.length ∧ lo ≤ k ∧ k ≤ hi := by
  induction bs generalizing a with
  | nil =>
    simp only [touched, cellsAt, List.any_nil, List.length_nil, Bool.false_eq_true, false_iff]
    rintro ⟨k, h1, h2, _⟩
    omega
  | cons b bs ih =>
    have hcons : touched (cellsAt a (b :: bs)) lo hi =
        (decide (lo ≤ a) && decide (a ≤ hi) || touched (cellsAt (a + 1) bs) lo hi) := rfl
    rw [hcons, Bool.or_eq_true, ih, Bool.and_eq_true, decide_eq_true_eq, decide_eq_true_eq, List.length_cons]
    constructor
    · rintro (⟨hlow, hhigh⟩ | ⟨k, h1, h2, h3, h4⟩)
      · exact ⟨a, by omega, by omega, hlow, hhigh⟩
      · exact ⟨k, by omega, by omega, h3, h4⟩
    · rintro ⟨k, h1, h2, h3, h4⟩
      by_cases hk : k = a
      · exact .inl (by omega)
      · exact .inr ⟨k, by omega, by omega, h3, h4⟩

theorem untouched_cellsAt {a lo hi : Nat} {bs : List Byte} (h : hi < a ∨ a + bs.length ≤ lo) :
    touched (cellsAt a bs) lo hi = false := by
  rw [← Bool.not_eq_true, touched_cellsAt]
  rintro ⟨k, h1, h2, h3, h4⟩
  omega

theorem foldl_of_unmoved {α β : Type} {f : β → α → β} {b : β} {l : List α} (h : ∀ a ∈ l, f b a = b) :
    l.foldl f b = b := by
  induction l with
  | nil => rfl
  | cons a l ih =>
    rw [List.foldl_cons, h a List.mem_cons_self]
    exact ih fun c hc => h c (List.mem_cons_of_mem _ hc)

/-- A frame below the slip table delivers header words alone. -/
theorem State.deliverAll_words (now : SlotCount) {cs : List Host.Cell}
    (hcs : ∀ n : Fin 16, touched cs (slotAddr n.val) (slotAddr n.val) = false) :
    s.deliverAll now p cs = s.deliverWords now cs := by
  rw [State.deliverAll_eq]
  exact foldl_of_unmoved fun n _ => by rw [State.deliverTouched, hcs n]; rfl

/-- The bytes of the header's action words are the host's (R156). -/
theorem Exchange.guard_headerAction {x : Exchange} {held : Bool} {c : Host.Cell} (h : headerAction c.1 = true) :
    x.guard held c = true := by
  rw [Exchange.guard, if_pos h]

/-- A frame that writes one header word lands it and delivers the words (R155, R157). -/
theorem State.writeFrame_word {start : Nat} (hstart : startAddress high low = start) (hwf : s.xmem.wf = true)
    (hp : s.store.active = some p) (hready : s.xmem.ready = true) (hne : data ≠ []) (hin : start + data.length ≤ 0x100)
    (haction : ∀ a, start ≤ a → a < start + data.length → headerAction a = true) :
    s.writeFrame (high :: low :: data) =
      (s.landed high low data).deliverWords s.time.slotCount (cellsAt start data) := by
  subst hstart
  rw [State.writeFrame_accepted hwf hp hready (by unfold memorySize; omega) hne fun c hc => ?_]
  · exact State.deliverAll_words _ fun n => untouched_cellsAt (.inr (by unfold slotAddr; omega))
  · obtain ⟨hlow, hhigh, _⟩ := cellsAt_mem hc
    exact Exchange.guard_headerAction (haction _ hlow hhigh)

end frames

/-! ### The attention words (R161) -/

section attention
variable {s : State} {p : Image}

/-- The acknowledge word lands and is delivered alone. -/
theorem State.acknowledge_frame (hwf : s.xmem.wf = true) (hp : s.store.active = some p) (hready : s.xmem.ready = true)
    (w : Half) :
    s.writeFrame (0x00 :: 0x0E :: le16 w.toNat) = (s.landed 0x00 0x0E (le16 w.toNat)).mapX Exchange.deliverAcknowledge := by
  rw [State.writeFrame_word (start := 0x0E) rfl hwf hp hready (by simp [le16]) (by simp [le16]) fun a hlow hhigh => ?_]
  · simp [State.deliverWords, touched, cellsAt, le16]
  · simp only [le16, List.length_cons, List.length_nil] at hhigh
    simp [headerAction]
    omega

theorem State.enable_frame (hwf : s.xmem.wf = true) (hp : s.store.active = some p) (hready : s.xmem.ready = true)
    (w : Half) :
    s.writeFrame (0x00 :: 0x10 :: le16 w.toNat) = (s.landed 0x00 0x10 (le16 w.toNat)).mapX Exchange.deliverEnable := by
  rw [State.writeFrame_word (start := 0x10) rfl hwf hp hready (by simp [le16]) (by simp [le16]) fun a hlow hhigh => ?_]
  · simp [State.deliverWords, touched, cellsAt, le16]
  · simp only [le16, List.length_cons, List.length_nil] at hhigh
    simp [headerAction]
    omega

theorem Exchange.attn_eq (x : Exchange) : x.attn = decide (x.summary &&& x.enable ≠ 0) :=
  Bool.eq_iff_iff.mpr (by simp [Exchange.attn])

/-- A summary set is a summary shown (R160). -/
theorem Exchange.setSummary_shows {x : Exchange} (hwf : x.wf = true) (v : BitVec 12) : (x.setSummary v).summaryShown := by
  rw [Exchange.summaryShown, Exchange.setSummary_summary]
  exact Exchange.shows_partWrite (x := { x with summary := v }) hwf 0x0C (le16 v.toNat) (by simp [le16, memorySize])

/-- The delivery of the acknowledge word: the causes it names are cleared, and the word is 0 (R161). -/
theorem Exchange.deliverAcknowledge_sets {x : Exchange} (hwf : x.wf = true) :
    x.deliverAcknowledge.summary = x.summary &&& ~~~BitVec.ofNat 12 (x.peek16 0x0E) ∧
      x.deliverAcknowledge.enable = x.enable ∧
      x.deliverAcknowledge.shows 0x0C (le16 x.deliverAcknowledge.summary.toNat ++ [0, 0]) := by
  have hword := Exchange.wf_partWrite hwf 0x0E [0, 0]
  refine ⟨by simp [Exchange.deliverAcknowledge], by simp [Exchange.deliverAcknowledge],
    Exchange.shows_append.mpr ⟨Exchange.setSummary_shows hword _, fun i hi => ?_⟩⟩
  have hi2 : i < 2 := hi
  have hkept := ((Exchange.setSummary_writes ((x.partWrite 0x0E [0, 0]).summary &&& ~~~BitVec.ofNat 12 (x.peek16 0x0E))
    (x.partWrite 0x0E [0, 0])) hword).kept (0x0E + i) (by unfold memorySize; omega) (by simp [outside])
  exact hkept.trans (Exchange.shows_partWrite hwf 0x0E [0, 0] (by simp [memorySize]) i hi)

/-- The delivery of the enable word: its twelve low positions are the enable, and the others are written back as 0 (R161). -/
theorem Exchange.deliverEnable_sets (x : Exchange) :
    x.deliverEnable.enable = BitVec.ofNat 12 (x.peek16 0x10) ∧ x.deliverEnable.summary = x.summary :=
  ⟨by simp [Exchange.deliverEnable], by simp [Exchange.deliverEnable]⟩

/-- The word that has landed, as the part reads it. -/
theorem Exchange.HostWrote.peek16 {a : Nat} {w : Half} {x y : Exchange} (h : Exchange.HostWrote a (le16 w.toNat) x y)
    (ha : a + 2 ≤ memorySize) : y.peek16 a = w.toNat := by
  have hshows := Exchange.shows_le16.mp (h.shows ha)
  rw [hshows]
  exact Nat.mod_eq_of_lt w.isLt

end attention

end Sys2Proof.Machine

namespace Sys2Proof.Proofs

open Sys2Proof.Machine

/-- Settles O41: each word's frame lands it and delivers it alone. -/
theorem attentionWordsAreDelivered : Obligations.AttentionWordsAreDelivered := by
  intro s p w hp hwf hready
  have hack : Exchange.HostWrote 0x0E (le16 w.toNat) s.xmem (s.landed 0x00 0x0E (le16 w.toNat)).xmem :=
    State.landed_wrote rfl hwf (by simp [le16, memorySize])
  have hen : Exchange.HostWrote 0x10 (le16 w.toNat) s.xmem (s.landed 0x00 0x10 (le16 w.toNat)).xmem :=
    State.landed_wrote rfl hwf (by simp [le16, memorySize])
  obtain ⟨hsummary, henable, hshown⟩ := Exchange.deliverAcknowledge_sets hack.wf
  obtain ⟨henable', hsummary'⟩ := Exchange.deliverEnable_sets (s.landed 0x00 0x10 (le16 w.toNat)).xmem
  have hshown' := Exchange.deliverEnable_shows hen.wf
  have hw := (Exchange.deliverAcknowledge_writes (s.landed 0x00 0x0E (le16 w.toNat)).xmem) hack.wf
  have hw' := (Exchange.deliverEnable_writes (s.landed 0x00 0x10 (le16 w.toNat)).xmem) hen.wf
  rw [hack.peek16 (by simp [memorySize]), hack.summary] at hsummary
  rw [hack.enable] at henable
  rw [hen.peek16 (by simp [memorySize])] at henable'
  rw [Exchange.enableShown, henable'] at hshown'
  rw [hen.summary] at hsummary'
  refine ⟨_, congrArg Host.Outcome.next (State.acknowledge_frame hwf hp hready w), ?_, hsummary, henable, ?_, hshown,
    hw.refused.trans hack.refused,
    hw.range.trans hack.range, hw.ready.trans (hack.ready.trans hready), fun a ha ho => ?_, _,
    congrArg Host.Outcome.next (State.enable_frame hwf hp hready w), ?_, henable', hsummary', ?_, hshown',
      hw'.refused.trans hen.refused,
    hw'.range.trans hen.range, hw'.ready.trans (hen.ready.trans hready), fun a ha ho => ?_⟩
  · apply State.ext_blocks <;> simp
  · rw [State.mapX_xmem, Exchange.attn_eq, hsummary, henable]
  · exact (hw.kept a ha ho).trans (hack.kept ha (by simp [outside] at ho; simp [le16]; omega))
  · apply State.ext_blocks <;> simp
  · rw [State.mapX_xmem, Exchange.attn_eq, hsummary', henable']
  · exact (hw'.kept a ha ho).trans (hen.kept ha (by simp [outside] at ho; simp [le16]; omega))

end Sys2Proof.Proofs
end

