-- ==== Sys2Proof/Proofs/Kicks.lean ====
section
/-!
The statements on the kick word (R105 to R108): the frame lands it, and the watchdog's state says what the kick does.
-/

namespace Sys2Proof.Machine

section kick
variable {s : State} {p : Image}

/-- The kick word lands and is delivered alone. -/
theorem State.kick_frame_eq (hwf : s.xmem.wf = true) (hp : s.store.active = some p) (hready : s.xmem.ready = true)
    (v : Byte) : s.writeFrame [0x00, 0x12, v] = (s.landed 0x00 0x12 [v]).kick s.time.slotCount v := by
  have hwrote : Exchange.HostWrote 0x12 [v] s.xmem (s.landed 0x00 0x12 [v]).xmem :=
    State.landed_wrote rfl hwf (by simp [memorySize])
  have hv : (s.landed 0x00 0x12 [v]).xmem.peek 0x12 = v := hwrote.shows (by simp [memorySize]) 0 (by simp)
  rw [State.writeFrame_word (start := 0x12) rfl hwf hp hready (by simp) (by simp) fun a hlow hhigh => ?_]
  · simp [State.deliverWords, touched, cellsAt]
    exact congrArg (fun b => State.kick s.time.slotCount b _) hv
  · simp only [List.length_cons, List.length_nil] at hhigh
    simp [headerAction]
    omega

/-- The effects of an accepted kick (R107). -/
def State.kickAccepted (now : SlotCount) (v : Byte) (s : State) : State :=
  (s.mapMon fun m =>
    { m with
      inForce := m.runtimeSet, expected := some (v + 1), lastKick := some now
      stageEnd := some (after now (seconds m.runtimeSet.s1)), watchdog := .watching }).publishWatchdog now

/-- Why a kick in WATCHING or WARNED is refused, if it is: the value is tested first, the early window after it (R106). -/
def Monitor.kickFails (now : SlotCount) (v : Byte) (m : Monitor) : Option KickRefusal :=
  if m.expected.any fun x => x != v then some .badValue
  else if 0 < m.inForce.early ∧ m.lastKick.any fun k => (now - k).toNat < m.inForce.early * 64 then some .early
  else none

theorem State.kick_of_grace (h : s.mon.watchdog = .grace) (now : SlotCount) (v : Byte) :
    s.kick now v = s.kickAccepted now v := by
  unfold State.kick
  simp only [h]
  rfl

theorem State.kick_of_judged (h : s.mon.watchdog = .watching ∨ s.mon.watchdog = .warned) (now : SlotCount) (v : Byte) :
    s.kick now v =
      match s.mon.kickFails now v with
      | some r => s.setRefusal r
      | none => s.kickAccepted now v := by
  have hjudged : s.kick now v =
      if s.mon.expected ≠ none ∧ s.mon.expected ≠ some v then s.setRefusal .badValue
      else
        match s.mon.lastKick with
        | some t =>
          if 0 < s.mon.inForce.early ∧ (now - t).toNat < seconds s.mon.inForce.early then s.setRefusal .early
          else s.kickAccepted now v
        | none => s.kickAccepted now v := by
    unfold State.kick
    obtain h | h := h <;> simp only [h] <;> rfl
  have hvalue : (s.mon.expected ≠ none ∧ s.mon.expected ≠ some v) ↔ (s.mon.expected.any fun x => x != v) = true := by
    cases s.mon.expected <;> simp
  rw [hjudged, Monitor.kickFails]
  simp only [hvalue]
  split
  · rfl
  · cases s.mon.lastKick with
    | none => simp
    | some t =>
      simp only [Option.any_some, decide_eq_true_eq, seconds]
      by_cases hearly : 0 < s.mon.inForce.early ∧ (now - t).toNat < s.mon.inForce.early * 64
      · simp only [if_pos hearly]
        exact if_pos hearly
      · simp only [if_neg hearly]
        exact if_neg hearly

/-- The record that an expired watchdog left is still held (R108). -/
def Monitor.lateKickHeld (m : Monitor) : Bool :=
  m.watchdog == .expired && m.pendingRecord.any fun n => m.records.any fun r => r.number == n

/-- The records with the pending one marked. -/
def Monitor.recordsLate (m : Monitor) : List RestartRecord :=
  m.records.map fun r => if some r.number = m.pendingRecord then { r with lateKick := true } else r

theorem State.kick_of_late
    (h : s.mon.watchdog = .expired ∨ s.mon.watchdog = .dormant ∨ s.mon.watchdog = .paused) (now : SlotCount) (v : Byte) :
    s.kick now v =
      if s.mon.lateKickHeld then (s.mapMon fun m => { m with records := s.mon.recordsLate }).publishRecords else s := by
  unfold State.kick Monitor.lateKickHeld
  obtain h | h | h := h
  · simp only [h]
    cases hn : s.mon.pendingRecord with
    | none => simp
    | some n =>
      have hmark : s.mon.recordsLate = markLate n s.mon.records := by simp [Monitor.recordsLate, markLate, hn]
      simp only [hmark, Option.any_some, beq_self_eq_true, Bool.true_and]
      rfl
  · simp [h]
  · simp [h]

theorem State.kickAccepted_mon (now : SlotCount) (v : Byte) :
    (s.kickAccepted now v).mon =
      { s.mon with
        inForce := s.mon.runtimeSet, expected := some (v + 1), lastKick := some now
        stageEnd := some (after now (s.mon.runtimeSet.s1 * 64)), watchdog := .watching } := by
  simp [State.kickAccepted, seconds]

theorem State.kickAccepted_writes (now : SlotCount) (v : Byte) (s : State) :
    s.xmem.writes watchdogBytes (s.kickAccepted now v).xmem :=
  State.publishWatchdog_writes now (s.mapMon _)

theorem State.kickAccepted_shown (now : SlotCount) (v : Byte) (hwf : s.xmem.wf = true) :
    (s.kickAccepted now v).watchdogShown now :=
  State.publishWatchdog_shown now hwf

end kick

/-- The accepted kick as its frame leaves it (R107). -/
def State.kickTaken (v : Byte) (s t : State) : Prop :=
  t =
      { s with
        mon :=
          { s.mon with
            inForce := s.mon.runtimeSet, expected := some (v + 1), lastKick := some s.time.slotCount
            stageEnd := some (after s.time.slotCount (s.mon.runtimeSet.s1 * 64)), watchdog := .watching }
        xmem := t.xmem } ∧
    t.xmem.peek 0x12 = v ∧ t.xmem.peek 0x1A = 2 ∧ t.watchdogShown s.time.slotCount ∧
    s.xmem.frameWrote [(0x12, 1), (0x1A, 1), (0x0B0, 2)] 0 t.xmem

section frames
variable {s : State} {v : Byte}

/-- What follows the landing of the kick word leaves it, where it does not write it. -/
theorem Exchange.HostWrote.kickWord {rs : List (Nat × Nat)} {y z : Exchange} (h : Exchange.HostWrote 0x12 [v] s.xmem y)
    (hw : y.writes rs z) (hout : outside rs 0x12 = true) : z.peek 0x12 = v :=
  ((hw h.wf).kept 0x12 (by decide) hout).trans (h.shows (by simp [memorySize]) 0 (by simp))

theorem State.landed_kickWrote (hwf : s.xmem.wf = true) (v : Byte) :
    Exchange.HostWrote 0x12 [v] s.xmem (s.landed 0x00 0x12 [v]).xmem :=
  State.landed_wrote rfl hwf (by simp [memorySize])

theorem State.kickAccepted_taken (hwf : s.xmem.wf = true) (v : Byte) :
    s.kickTaken v ((s.landed 0x00 0x12 [v]).kickAccepted s.time.slotCount v) := by
  have hwrote := State.landed_kickWrote hwf v
  have hwrites := State.kickAccepted_writes s.time.slotCount v (s.landed 0x00 0x12 [v])
  have hshown := State.kickAccepted_shown s.time.slotCount v hwrote.wf
  refine ⟨?_, hwrote.kickWord hwrites (by decide), ?_, hshown, ?_⟩
  · apply State.ext_blocks <;> simp [State.kickAccepted, seconds]
  · rw [hshown.1, State.kickAccepted_mon]
    rfl
  · exact hwrote.frameWrote (hwrites.mono (by decide)) (by simp [Exchange.raised, State.kickAccepted]) (by simp [rangeWithin])

theorem State.kickRefused_frame (hwf : s.xmem.wf = true) (v : Byte) (r : KickRefusal) :
    let t := (s.landed 0x00 0x12 [v]).setRefusal r
    t = { s with mon := { s.mon with lastRefusal := r }, xmem := t.xmem } ∧
      t.xmem.peek 0x12 = v ∧ t.xmem.peek 0x13 = r.code ∧ s.xmem.frameWrote [(0x12, 2)] 0 t.xmem := by
  intro t
  have hwrote := State.landed_kickWrote hwf v
  have hwrites : (s.landed 0x00 0x12 [v]).xmem.writes [(0x13, 1)] t.xmem := State.setRefusal_writes r _
  refine ⟨?_, hwrote.kickWord hwrites (by decide), ?_, ?_⟩
  · apply State.ext_blocks <;> simp [t, State.setRefusal]
  · exact (Exchange.shows_single _).mp (Exchange.shows_partWrite hwrote.wf 0x13 [r.code] (by simp [memorySize]))
  · exact hwrote.frameWrote (hwrites.mono (by decide)) (by simp [Exchange.raised, t, State.setRefusal]) (by simp [rangeWithin])

end frames

end Sys2Proof.Machine

namespace Sys2Proof.Proofs

open Sys2Proof.Machine

/-- Settles O28: in GRACE no test comes before the acceptance. -/
theorem kickInGraceIsAccepted : Obligations.KickInGraceIsAccepted := by
  intro s p v hp hwf hready hgrace
  have hkick : exec (.kick v) s = .next ((s.landed 0x00 0x12 [v]).kickAccepted s.time.slotCount v) :=
    congrArg Host.Outcome.next ((State.kick_frame_eq hwf hp hready v).trans (State.kick_of_grace (by simpa using hgrace) _ v))
  exact ⟨_, hkick, State.kickAccepted_taken hwf v⟩

/-- Settles O29: the kick's two tests decide. -/
theorem kickIsJudged : Obligations.KickIsJudged := by
  intro s p v hp hwf hready hstate
  have hkick := (State.kick_frame_eq hwf hp hready v).trans (State.kick_of_judged (by simpa using hstate) s.time.slotCount v)
  rw [(State.landed_frame _ _ _ _).2.2.2.2.2.1] at hkick
  refine ⟨_, congrArg Host.Outcome.next hkick, ?_⟩
  dsimp only
  unfold Monitor.kickFails
  by_cases hvalue : (s.mon.expected.any fun x => x != v) = true
  · simp only [hvalue, if_true, true_or]
    exact State.kickRefused_frame hwf v .badValue
  · by_cases hearly : 0 < s.mon.inForce.early ∧
        (s.mon.lastKick.any fun k => (s.time.slotCount - k).toNat < s.mon.inForce.early * 64) = true
    · simp only [hvalue, hearly, Bool.false_eq_true, if_true, if_false, false_or, and_self, decide_true]
      exact State.kickRefused_frame hwf v .early
    · simp only [hvalue, hearly, Bool.false_eq_true, if_false, false_or, decide_false]
      exact State.kickAccepted_taken hwf v

/-- Settles O30: an expired watchdog's record is marked where it stands, and nothing else takes the kick. -/
theorem lateKickMarksTheRecord : Obligations.LateKickMarksTheRecord := by
  intro s p v hp hwf hready hstate
  have hwrote := State.landed_kickWrote hwf v
  have hkick := (State.kick_frame_eq hwf hp hready v).trans (State.kick_of_late (by simpa using hstate) s.time.slotCount v)
  rw [(State.landed_frame _ _ _ _).2.2.2.2.2.1] at hkick
  have hheld : s.mon.lateKickHeld = decide (s.mon.watchdog = .expired ∧
      (s.mon.pendingRecord.any fun n => s.mon.records.any fun r => r.number == n) = true) :=
    Bool.eq_iff_iff.mpr (by simp [Monitor.lateKickHeld])
  refine ⟨_, congrArg Host.Outcome.next hkick, ?_⟩
  dsimp only
  rw [← hheld]
  cases s.mon.lateKickHeld
  · refine ⟨?_, hwrote.kickWord (Exchange.writes_refl [] _) rfl, fun h => (by simp at h), ?_⟩
    · apply State.ext_blocks <;> simp
    · exact hwrote.frameWrote (Exchange.writes_refl _ _) (by simp [Exchange.raised]) (by simp [rangeWithin])
  · have hwrites := State.publishRecords_writes ((s.landed 0x00 0x12 [v]).mapMon fun m => { m with records := s.mon.recordsLate })
    refine ⟨?_, hwrote.kickWord hwrites (by decide), fun _ => State.publishRecords_shown hwrote.wf, ?_⟩
    · apply State.ext_blocks <;> simp [State.publishRecords, Monitor.recordsLate]
    · exact hwrote.frameWrote (hwrites.mono (by decide)) (by simp [Exchange.raised, State.publishRecords]) (by simp [rangeWithin])

end Sys2Proof.Proofs
end

