-- ==== Sys2Proof/Proofs/KeyQueue.lean ====
section
/-!
The statements on the key queue (R137 to R143): what an entry and a GAP entry leave, and from these the HOLD event, the CHORD
event and the delivery of the key read counter.
-/

namespace Sys2Proof.Machine

/-- Bytes shown stay shown where they are not written. -/
theorem Exchange.shows.of_writes {rs : List (Nat × Nat)} {x y : Exchange} {a : Nat} {bs : List Byte} (h : x.shows a bs)
    (hwf : x.wf = true) (hw : x.writes rs y) (ha : a + bs.length ≤ memorySize)
    (hout : ∀ i < bs.length, outside rs (a + i) = true) : y.shows a bs :=
  fun i hi => ((hw hwf).kept _ (by omega) (hout i hi)).trans (h i hi)

theorem outside_cons {r : Nat × Nat} {rs : List (Nat × Nat)} {a : Nat} :
    outside (r :: rs) a = true ↔ (a < r.1 ∨ r.1 + r.2 ≤ a) ∧ outside rs a = true := by
  simp [outside]

theorem outside_nil {a : Nat} : outside [] a = true ↔ True := by simp [outside]

theorem RailState.takesKeys_eq (r : RailState) : r.takesKeys = decide (r = .running ∨ r = .stopping) := by
  cases r <;> rfl

/-! ### Entries (R141) -/

/-- The address of the entry with sequence number `q`. -/
def entryAddr (q : Half) : Nat := 0x500 + 8 * (q.toNat % 32)

theorem entryAddr_within (q : Half) : 0x500 ≤ entryAddr q ∧ entryAddr q + 8 ≤ 0x600 := by
  unfold entryAddr
  omega

/-- The eight bytes of an entry (section 10.5). -/
def entryBytes (q : Half) (kind : EntryKind) (subject : Byte) (now : SlotCount) : List Byte :=
  le16 q.toNat ++ [kind.code, subject] ++ le32 now.toNat

section entries
variable {s : State} (now : SlotCount) (kind : EntryKind) (subject : Byte)

theorem State.writeEntry_eq (s : State) :
    (s.writeEntry now kind subject).xmem =
      ((s.xmem.partWrite (entryAddr s.keypad.writeCounter) (entryBytes s.keypad.writeCounter kind subject now)).partWrite 0x14
        (le16 (s.keypad.writeCounter + 1).toNat)).raise .key := rfl

/-- An entry's own bytes, the write counter and the summary are written. -/
theorem State.writeEntry_wrote (s : State) :
    s.xmem.writes [(0x0C, 2), (0x14, 2), (entryAddr s.keypad.writeCounter, 8)] (s.writeEntry now kind subject).xmem := by
  refine Exchange.writes.trans (Exchange.writes_partWrite ?_ s.xmem)
    ((Exchange.writes_partWrite (rs := [(0x0C, 2), (0x14, 2), (entryAddr s.keypad.writeCounter, 8)]) ?_ _).trans
      ((Exchange.raise_writes .key _).mono ?_))
  · exact rangeWithin_of_mem (r := (entryAddr s.keypad.writeCounter, 8)) (by simp)
  · exact rangeWithin_of_mem (r := (0x14, 2)) (by simp)
  · exact rangesCover_of_subset (by simp)

theorem State.writeEntry_flags :
    (s.writeEntry now kind subject).xmem.summary = s.xmem.summary ||| Cause.key.bit ∧
      (s.writeEntry now kind subject).xmem.enable = s.xmem.enable := by
  rw [State.writeEntry_eq]
  simp

theorem State.writeEntry_shows (hwf : s.xmem.wf = true) :
    (s.writeEntry now kind subject).xmem.shows (entryAddr s.keypad.writeCounter)
        (entryBytes s.keypad.writeCounter kind subject now) ∧
      (s.writeEntry now kind subject).xmem.shows 0x14 (le16 (s.keypad.writeCounter + 1).toNat) := by
  have hwithin := entryAddr_within s.keypad.writeCounter
  have hwf1 := Exchange.wf_partWrite hwf (entryAddr s.keypad.writeCounter) (entryBytes s.keypad.writeCounter kind subject now)
  have hwf2 := Exchange.wf_partWrite hwf1 0x14 (le16 (s.keypad.writeCounter + 1).toNat)
  have hlength : (entryBytes s.keypad.writeCounter kind subject now).length = 8 := by simp [entryBytes, le16, le32]
  rw [State.writeEntry_eq]
  constructor
  · refine Exchange.shows.of_writes (Exchange.shows.of_writes
      (Exchange.shows_partWrite hwf _ _ (by unfold memorySize; omega)) hwf1
      (Exchange.writes_partWrite (rs := [(0x14, 2)]) (by simp [rangeWithin, le16]) _) (by unfold memorySize; omega) ?_) hwf2
      (Exchange.raise_writes .key _) (by unfold memorySize; omega) ?_
    · intro i _
      simp [outside]
      omega
    · intro i _
      simp [outside]
      omega
  · refine Exchange.shows.of_writes (Exchange.shows_partWrite hwf1 _ _ (by simp [le16, memorySize])) hwf2
      (Exchange.raise_writes .key _) (by simp [le16, memorySize]) fun i hi => ?_
    simp [outside]
    omega

/-! ### The GAP entry and the gap count (R142) -/

theorem State.setGap_shows (hwf : s.xmem.wf = true) (g : Nat) : (s.setGap g).xmem.peek 0x18 = BitVec.ofNat 8 g :=
  (Exchange.shows_single _).mp (Exchange.shows_partWrite hwf 0x18 [BitVec.ofNat 8 g] (by simp [memorySize]))

theorem State.setGap_flags (g : Nat) :
    (s.setGap g).xmem.summary = s.xmem.summary ∧ (s.setGap g).xmem.enable = s.xmem.enable := by
  simp [State.setGap]

/-- What follows the writing of an entry and leaves it and the write counter leaves both shown. -/
theorem State.entry_stays {q : Half} {bs cs : List Byte} {rs : List (Nat × Nat)} {x y : Exchange} (hwf : x.wf = true)
    (h : x.shows (entryAddr q) bs ∧ x.shows 0x14 cs) (hb : bs.length ≤ 8) (hc : cs.length ≤ 2) (hw : x.writes rs y)
    (hrs : ∀ a, (entryAddr q ≤ a ∧ a < entryAddr q + 8) ∨ (0x14 ≤ a ∧ a < 0x16) → outside rs a = true) :
    y.shows (entryAddr q) bs ∧ y.shows 0x14 cs := by
  have hwithin := entryAddr_within q
  exact ⟨h.1.of_writes hwf hw (by unfold memorySize; omega) fun i hi => hrs _ (.inl (by omega)),
    h.2.of_writes hwf hw (by unfold memorySize; omega) fun i hi => hrs _ (.inr (by omega))⟩

/-- The gap count's byte is apart from the entries and from the write counter. -/
theorem gap_apart {q : Half} {a : Nat} (h : (entryAddr q ≤ a ∧ a < entryAddr q + 8) ∨ (0x14 ≤ a ∧ a < 0x16)) :
    outside [(0x18, 1)] a = true := by
  have hwithin := entryAddr_within q
  simp [outside]
  omega

theorem entryBytes_length (q : Half) : (entryBytes q kind subject now).length = 8 := by simp [entryBytes, le16, le32]

/-- The bytes that a GAP entry writes. -/
def gapEntryBytes (q : Half) : List (Nat × Nat) := [(0x0C, 2), (0x14, 2), (0x18, 1), (entryAddr q, 8)]

theorem State.writeGap_wrote (s : State) :
    s.xmem.writes (gapEntryBytes s.keypad.writeCounter) (s.writeGap now).xmem :=
  (State.writeEntry_wrote now .gap _ s).andThen (State.setGap_writes 0 _)
    (rangesCover_of_subset (by simp [gapEntryBytes])) (rangesCover_of_subset (by simp [gapEntryBytes]))

theorem State.writeGap_flags :
    (s.writeGap now).xmem.summary = s.xmem.summary ||| Cause.key.bit ∧ (s.writeGap now).xmem.enable = s.xmem.enable := by
  unfold State.writeGap
  rw [(State.setGap_flags 0).1, (State.setGap_flags 0).2]
  exact State.writeEntry_flags now .gap _

theorem State.writeGap_shows (hwf : s.xmem.wf = true) :
    ((s.writeGap now).xmem.shows (entryAddr s.keypad.writeCounter)
        (entryBytes s.keypad.writeCounter .gap (BitVec.ofNat 8 s.keypad.gap) now) ∧
      (s.writeGap now).xmem.shows 0x14 (le16 (s.keypad.writeCounter + 1).toNat)) ∧
      (s.writeGap now).xmem.peek 0x18 = 0 := by
  have hwf1 := ((State.writeEntry_wrote now .gap (BitVec.ofNat 8 s.keypad.gap) s) hwf).wf
  exact ⟨State.entry_stays hwf1 (State.writeEntry_shows now .gap _ hwf) (entryBytes_length now .gap _ _).le (by simp [le16])
    (State.setGap_writes 0 _) fun _ => gap_apart, State.setGap_shows hwf1 0⟩

end entries

/-! ### An event offered to the queue (R142) -/

section offer
variable {s : State} (now : SlotCount) (kind : EntryKind) (subject : Byte)

theorem State.offer_of_not_taking (h : s.rail.state.takesKeys = false) : s.offer now kind subject = s := by
  simp [State.offer, h]

theorem State.offer_of_full (h : s.rail.state.takesKeys = true) (hfull : 32 ≤ s.keypad.count) :
    s.offer now kind subject = s.setGap (min 255 (s.keypad.gap + 1)) := by
  simp [State.offer, h, hfull]

theorem State.offer_of_room (h : s.rail.state.takesKeys = true) (hroom : s.keypad.count < 32) (hgap : s.keypad.gap = 0) :
    s.offer now kind subject = s.writeEntry now kind subject := by
  simp [State.offer, h, hgap, Nat.not_le.mpr hroom]

theorem State.offer_of_last (h : s.rail.state.takesKeys = true) (hlast : s.keypad.count = 31) (hgap : 0 < s.keypad.gap) :
    s.offer now kind subject = (s.writeGap now).setGap 1 := by
  simp [State.offer, h, hgap, hlast]

theorem State.offer_of_gap (h : s.rail.state.takesKeys = true) (hroom : s.keypad.count < 31) (hgap : 0 < s.keypad.gap) :
    s.offer now kind subject = (s.writeGap now).writeEntry now kind subject := by
  have hne : s.keypad.count ≠ 31 := by omega
  simp [State.offer, h, hgap, hne]
  omega

/-- Entries with successive numbers have different places in the queue. -/
theorem entryAddr_succ_apart (q : Half) : entryAddr q + 8 ≤ entryAddr (q + 1) ∨ entryAddr (q + 1) + 8 ≤ entryAddr q := by
  have hq := q.isLt
  simp only [entryAddr, BitVec.toNat_add]
  simp
  omega

/-- A GAP entry and the event after it (R142). -/
theorem State.gapAndEntry_shows (hwf : s.xmem.wf = true) :
    ((s.writeGap now).writeEntry now kind subject).xmem.shows (entryAddr s.keypad.writeCounter)
        (entryBytes s.keypad.writeCounter .gap (BitVec.ofNat 8 s.keypad.gap) now) ∧
      ((s.writeGap now).writeEntry now kind subject).xmem.shows (entryAddr (s.keypad.writeCounter + 1))
        (entryBytes (s.keypad.writeCounter + 1) kind subject now) ∧
      ((s.writeGap now).writeEntry now kind subject).xmem.shows 0x14 (le16 (s.keypad.writeCounter + 2).toNat) ∧
      ((s.writeGap now).writeEntry now kind subject).xmem.peek 0x18 = 0 := by
  have hwithin := entryAddr_within s.keypad.writeCounter
  have hapart := entryAddr_succ_apart s.keypad.writeCounter
  have hwf1 := ((State.writeGap_wrote now s) hwf).wf
  have hcounter : (s.writeGap now).keypad.writeCounter = s.keypad.writeCounter + 1 := rfl
  have hwrote := State.writeEntry_wrote now kind subject (s.writeGap now)
  obtain ⟨⟨hgap, _⟩, hbyte⟩ := State.writeGap_shows now hwf
  obtain ⟨hentry, hword⟩ := State.writeEntry_shows now kind subject hwf1
  rw [hcounter] at hwrote hentry hword
  have htwo : s.keypad.writeCounter + 1 + 1 = s.keypad.writeCounter + 2 := by rw [BitVec.add_assoc]; rfl
  rw [htwo] at hword
  refine ⟨hgap.of_writes hwf1 hwrote (by rw [entryBytes_length]; unfold memorySize; omega) fun i hi => ?_, hentry, hword, ?_⟩
  · rw [entryBytes_length] at hi
    simp only [outside_cons, outside_nil, and_true]
    omega
  · refine ((hwrote hwf1).kept 0x18 (by decide) ?_).trans hbyte
    have := entryAddr_within (s.keypad.writeCounter + 1)
    simp only [outside_cons, outside_nil, and_true]
    omega

theorem State.gapAndEntry_wrote (s : State) :
    s.xmem.writes
      [(0x0C, 2), (0x14, 2), (0x18, 1), (entryAddr s.keypad.writeCounter, 8), (entryAddr (s.keypad.writeCounter + 1), 8)]
      ((s.writeGap now).writeEntry now kind subject).xmem :=
  (State.writeGap_wrote now s).andThen (State.writeEntry_wrote now kind subject (s.writeGap now))
    (rangesCover_of_subset (by simp [gapEntryBytes])) (rangesCover_of_subset (by simp [State.writeGap_keypad]))

theorem State.gapAndEntry_raised (s : State) :
    s.xmem.raised Cause.key.bit ((s.writeGap now).writeEntry now kind subject).xmem := by
  obtain ⟨hs, he⟩ := State.writeEntry_flags (s := s.writeGap now) now kind subject
  obtain ⟨hs', he'⟩ := State.writeGap_flags (s := s) now
  exact ⟨by rw [hs, hs', BitVec.or_assoc, BitVec.or_self], he.trans he'⟩

theorem State.gapEntry_keypad :
    ((s.writeGap now).writeEntry now kind subject).keypad =
      { s.keypad with writeCounter := s.keypad.writeCounter + 2, gap := 0 } := by
  have htwo : s.keypad.writeCounter + 1 + 1 = s.keypad.writeCounter + 2 := by rw [BitVec.add_assoc]; rfl
  rw [State.writeEntry_keypad, State.writeGap_keypad, ← htwo]

/-- A GAP entry that fills the queue, with the event after it dropped (R142). -/
theorem State.gapFills (hwf : s.xmem.wf = true) :
    (((s.writeGap now).setGap 1).xmem.shows (entryAddr s.keypad.writeCounter)
        (entryBytes s.keypad.writeCounter .gap (BitVec.ofNat 8 s.keypad.gap) now) ∧
      ((s.writeGap now).setGap 1).xmem.shows 0x14 (le16 (s.keypad.writeCounter + 1).toNat)) ∧
      ((s.writeGap now).setGap 1).xmem.peek 0x18 = 1 ∧
      s.xmem.partWrote (gapEntryBytes s.keypad.writeCounter) Cause.key.bit ((s.writeGap now).setGap 1).xmem := by
  have hwf1 := ((State.writeGap_wrote now s) hwf).wf
  refine ⟨State.entry_stays hwf1 (State.writeGap_shows now hwf).1 (entryBytes_length now .gap _ _).le (by simp [le16])
    (State.setGap_writes 1 _) fun _ => gap_apart, State.setGap_shows hwf1 1, Exchange.writes.partWrote ?_ hwf ?_⟩
  · exact (State.writeGap_wrote now s).trans
      ((State.setGap_writes 1 _).mono (rangesCover_of_subset (by simp [gapEntryBytes])))
  · exact ⟨(State.setGap_flags 1).1.trans (State.writeGap_flags now).1, (State.setGap_flags 1).2.trans
      (State.writeGap_flags now).2⟩

end offer

/-! ### The read counter (R143) -/

section readCounter
variable {s : State}

/-- The read counter after the delivery of the value `v`: `v` where it lies within the queue, and the write counter
otherwise. -/
def Keypad.readTaken (v : Half) (k : Keypad) : Half :=
  if (v - k.readCounter).toNat ≤ (k.writeCounter - k.readCounter).toNat then v else k.writeCounter

/-- The taken read counter stands in its word. -/
theorem State.takeReadCounter_takes {v : Half} (hwf : s.xmem.wf = true) (hv : s.xmem.shows 0x16 (le16 v.toNat)) :
    s.takeReadCounter.keypad = { s.keypad with readCounter := s.keypad.readTaken v } ∧
      s.takeReadCounter.xmem.shows 0x16 (le16 (s.keypad.readTaken v).toNat) ∧
      s.xmem.writes [(0x16, 2)] s.takeReadCounter.xmem ∧ s.xmem.raised 0 s.takeReadCounter.xmem := by
  have hword : BitVec.ofNat 16 (s.xmem.peek16 0x16) = v := by
    rw [Exchange.shows_le16.mp hv, Nat.mod_eq_of_lt v.isLt, BitVec.ofNat_toNat, BitVec.setWidth_eq]
  unfold State.takeReadCounter Keypad.readTaken
  dsimp only
  rw [hword]
  split
  · exact ⟨rfl, hv, Exchange.writes_refl _ _, by simp [Exchange.raised]⟩
  · exact ⟨rfl, Exchange.shows_partWrite (x := s.xmem) hwf 0x16 _ (by simp [le16, memorySize]),
      State.setReadCounter_writes _ s, by simp [Exchange.raised, State.setReadCounter]⟩

@[simp] theorem State.takeReadCounter_frame (s : State) :
    s.takeReadCounter.time = s.time ∧ s.takeReadCounter.sense = s.sense ∧ s.takeReadCounter.climate = s.climate ∧
      s.takeReadCounter.air = s.air ∧ s.takeReadCounter.rail = s.rail ∧ s.takeReadCounter.mon = s.mon ∧
      s.takeReadCounter.engine = s.engine ∧ s.takeReadCounter.store = s.store ∧
      s.takeReadCounter.supplyLow = s.supplyLow ∧ s.takeReadCounter.fresh = s.fresh ∧
      s.takeReadCounter.pending = s.pending := by
  unfold State.takeReadCounter
  dsimp only
  split <;> simp [State.setReadCounter]

/-- The read counter's word lands and is delivered alone. -/
theorem State.readCounter_frame {p : Image} (hwf : s.xmem.wf = true) (hp : s.store.active = some p)
    (hready : s.xmem.ready = true) (v : Half) :
    s.writeFrame (0x00 :: 0x16 :: le16 v.toNat) =
      (s.landed 0x00 0x16 (le16 v.toNat)).deliverReadCounter s.time.slotCount := by
  rw [State.writeFrame_word (start := 0x16) rfl hwf hp hready (by simp [le16]) (by simp [le16]) fun a hlow hhigh => ?_]
  · simp [State.deliverWords, touched, cellsAt, le16]
  · simp only [le16, List.length_cons, List.length_nil] at hhigh
    simp [headerAction]
    omega

end readCounter

/-! ### The service chord (R88, R117) -/

section serviceChord
variable {s : State} (now : SlotCount) (p : Image)

theorem State.serviceChord_of_lockout (h : s.rail.state = .lockout) :
    s.serviceChord now p = (s.setLadderIndex 0).enterWarming now p := by
  rw [State.serviceChord, if_pos h]

/-- In LOCKOUT the service chord clears the ladder and starts a warm-up, and both are shown. -/
theorem State.serviceChord_serves (hwf : s.xmem.wf = true) (h : s.rail.state = .lockout) :
    (s.serviceChord now p).mon = { s.mon with ladderIndex := 0 } ∧ (s.serviceChord now p).watchdogShown now ∧
      (s.serviceChord now p).xmem.peek 0x19 = 1 ∧ (s.serviceChord now p).xmem.peek 0x0AF = 0 ∧
      s.xmem.partWrote [(0x19, 2), (0x0AC, 2), (0x0AF, 3)] 0 (s.serviceChord now p).xmem := by
  have hwf1 := ((State.setLadderIndex_writes 0 s) hwf).wf
  have hwarming := State.enterWarming_writes now p (s.setLadderIndex 0)
  rw [State.serviceChord_of_lockout now p h]
  refine ⟨?_, State.enterWarming_watched now p hwf1, ?_, ?_, Exchange.writes.partWrote ?_ hwf ?_⟩
  · rw [State.enterWarming_mon]
    exact Monitor.railChanged_of_steady (by simp [h, leavesRunning]) rfl _
  · have hrail := State.enterWarming_shown (c := .rail) now p hwf1 (.inl rfl)
    obtain ⟨_, _, _, heq⟩ := State.enterWarming_rail now p (s.setLadderIndex 0)
    refine (hrail.byte rfl).trans ?_
    rw [heq]
    rfl
  · exact ((hwarming hwf1).kept 0x0AF (by decide) (by decide)).trans
      ((Exchange.shows_single _).mp (Exchange.shows_partWrite hwf 0x0AF [BitVec.ofNat 8 0] (by simp [memorySize])))
  · exact (State.setLadderIndex_writes 0 s).andThen hwarming (by decide) (by decide)
  · simp [Exchange.raised]

end serviceChord

end Sys2Proof.Machine

namespace Sys2Proof.Proofs

open Sys2Proof.Machine

/-- Settles O33: the next hold is set first, and the event is offered to the queue as it then stands. -/
theorem holdEventIsOffered : Obligations.HoldEventIsOffered := by
  intro s p k e hp hwf hdue
  set u := s.mapKeypad fun kp => kp.setKey k { kp.keys[k] with nextHold := some (after e (Profile.repeatPeriod p)) } with hu
  have hexec : exec (.hold k) s = .next (u.offer e .hold (BitVec.ofNat 8 k.val)) := by
    show execHold k s = _
    rw [execHold, State.atEnd_of_due hp hdue]
    rfl
  have htaking : u.rail.state.takesKeys = decide (s.rail.state = .running ∨ s.rail.state = .stopping) :=
    RailState.takesKeys_eq _
  have hwfu : u.xmem.wf = true := hwf
  refine ⟨_, hexec, ?_⟩
  dsimp only
  rw [← htaking]
  refine ⟨?_, fun hnot => ?_, fun htake hfull => ?_, fun htake hroom hgap => ?_, fun htake hroom hgap => ?_,
    fun htake hlast hgap => ?_⟩
  · apply State.ext_blocks <;> simp [hu]
  · rw [State.offer_of_not_taking e _ _ hnot]
    exact ⟨rfl, rfl⟩
  · rw [State.offer_of_full e _ _ htake hfull]
    exact ⟨rfl, State.setGap_shows hwfu _,
      (State.setGap_writes _ u).partWrote hwfu (by simp [Exchange.raised, State.setGap_flags, hu])⟩
  · rw [State.offer_of_room e _ _ htake hroom hgap]
    obtain ⟨hentry, hword⟩ := State.writeEntry_shows e .hold (BitVec.ofNat 8 k.val) hwfu
    exact ⟨rfl, hentry, hword,
      (State.writeEntry_wrote e .hold _ u).partWrote hwfu (State.writeEntry_flags e .hold _)⟩
  · rw [State.offer_of_gap e _ _ htake hroom hgap]
    obtain ⟨hfirst, hsecond, hword, hbyte⟩ := State.gapAndEntry_shows e .hold (BitVec.ofNat 8 k.val) hwfu
    exact ⟨State.gapEntry_keypad e .hold _, hfirst, hsecond, hword, hbyte,
      (State.gapAndEntry_wrote e .hold _ u).partWrote hwfu (State.gapAndEntry_raised e .hold _ u)⟩
  · rw [State.offer_of_last e _ _ htake hlast hgap]
    obtain ⟨⟨hentry, hword⟩, hbyte, hwrote⟩ := State.gapFills e hwfu
    exact ⟨rfl, hentry, hword, hbyte, hwrote⟩

/-- Settles O35: the counter is taken or clamped, and the room it makes takes a GAP entry. -/
theorem readCounterIsTakenOrClamped : Obligations.ReadCounterIsTakenOrClamped := by
  intro s p v hp hwf hready
  have hwrote : Exchange.HostWrote 0x16 (le16 v.toNat) s.xmem (s.landed 0x00 0x16 (le16 v.toNat)).xmem :=
    State.landed_wrote rfl hwf (by simp [le16, memorySize])
  set u := s.landed 0x00 0x16 (le16 v.toNat) with hu
  obtain ⟨hkeypad, hword, hwrites, hraised⟩ :=
    State.takeReadCounter_takes hwrote.wf (hwrote.shows (by simp [le16, memorySize]))
  have hwf1 := (hwrites hwrote.wf).wf
  rw [show u.keypad = s.keypad by simp [hu]] at hkeypad hword
  refine ⟨_, congrArg Host.Outcome.next (State.readCounter_frame hwf hp hready v), ?_⟩
  rw [← hu, State.deliverReadCounter_eq]
  have hgoes : (0 < u.takeReadCounter.keypad.gap ∧ u.takeReadCounter.keypad.count < 32 ∧
      u.takeReadCounter.rail.state.takesKeys = true) ↔
      0 < s.keypad.gap ∧ (s.keypad.writeCounter - s.keypad.readTaken v).toNat < 32 ∧
        (s.rail.state = .running ∨ s.rail.state = .stopping) := by
    rw [hkeypad, RailState.takesKeys_eq, decide_eq_true_eq]
    simp [Keypad.count, hu]
  by_cases h : 0 < s.keypad.gap ∧ (s.keypad.writeCounter - s.keypad.readTaken v).toNat < 32 ∧
      (s.rail.state = .running ∨ s.rail.state = .stopping)
  · rw [if_pos (hgoes.mpr h)]
    obtain ⟨⟨hentry, hcounter⟩, hbyte⟩ := State.writeGap_shows s.time.slotCount hwf1
    have hgap := State.writeGap_wrote s.time.slotCount u.takeReadCounter
    rw [hkeypad] at hentry hcounter hgap
    have hwithin := entryAddr_within s.keypad.writeCounter
    refine ⟨hword.of_writes hwf1 hgap (by simp [le16, memorySize]) fun i hi => ?_, ?_, fun hnot => ?_, fun _ =>
      ⟨?_, hentry, hcounter, hbyte, ?_⟩⟩
    · have hi2 : i < 2 := hi
      simp only [gapEntryBytes, outside_cons, outside_nil, and_true]
      omega
    · apply State.ext_blocks <;> simp [hu]
    · exact absurd h (by simpa [Keypad.readTaken] using hnot)
    · rw [State.writeGap_keypad, hkeypad]
      rfl
    · refine hwrote.frameWrote ((hwrites.mono ?_).trans (hgap.mono ?_)) ?_ ?_
      · simp [rangesCover, rangeWithin]
      · simp [rangesCover, rangeWithin, gapEntryBytes, entryAddr]
      · have hall := hraised.trans (State.writeGap_flags (s := u.takeReadCounter) s.time.slotCount)
        have hnone : (0 : BitVec 12) ||| Cause.key.bit = Cause.key.bit := BitVec.zero_or
        rwa [hnone] at hall
      · simp [rangeWithin, le16]
  · rw [if_neg fun hmet => h (hgoes.mp hmet)]
    refine ⟨hword, ?_, fun _ => ⟨hkeypad, hwrote.frameWrote hwrites hraised (by simp [rangeWithin, le16])⟩, fun hyes => ?_⟩
    · apply State.ext_blocks <;> simp [hu]
    · exact absurd (by simpa [Keypad.readTaken] using hyes) h

/-- Settles O34: the chord fires, the notice of chord 0 acts in LOCKOUT alone, and a rail in WARMING takes no entry. -/
theorem chordFires : Obligations.ChordFires := by
  intro s p c e hp hwf hdue hfired
  set u := s.mapKeypad fun kp => { kp with chords := kp.chords.set c { fired := true, holdEnd := none } } with hu
  have hwfu : u.xmem.wf = true := hwf
  have hexec : exec (.chord c) s = .next (s.giveChord e p c) := by
    show execChord c s = _
    rw [execChord, State.atEnd_of_due hp hdue, hfired]
    rfl
  have hgiven : s.giveChord e p c =
      (if c = 0 then u.serviceChord e p else u).offer e .chord (BitVec.ofNat 8 c.val) := rfl
  have hother (h : ¬(c = 0 ∧ s.rail.state = .lockout)) :
      s.giveChord e p c = u.offer e .chord (BitVec.ofNat 8 c.val) := by
    rw [hgiven]
    split
    · rename_i hc
      rw [State.serviceChord, if_neg (show ¬u.rail.state = .lockout from fun hl => h ⟨hc, hl⟩)]
    · rfl
  refine ⟨_, hexec, ?_, ?_, fun hc hlock => ?_, fun h => ?_, fun htakes hgap hroom => ?_, by simp, by simp, by simp, by simp,
    by simp⟩
  · obtain ⟨w, g, hqueued⟩ := State.offer_queued e .chord (BitVec.ofNat 8 c.val) (if c = 0 then u.serviceChord e p else u)
    rw [hgiven, hqueued]
    split <;> simp [hu]
  · obtain ⟨w, g, hqueued⟩ := State.offer_queued e .chord (BitVec.ofNat 8 c.val) (if c = 0 then u.serviceChord e p else u)
    rw [hgiven, hqueued]
    split <;> simp [hu]
  · have hwarming := State.serviceChord_of_lockout (s := u) e p hlock
    have hstate : (u.serviceChord e p).rail.state = .warming := by
      rw [hwarming]
      obtain ⟨_, _, _, hrail⟩ := State.enterWarming_rail e p (u.setLadderIndex 0)
      rw [hrail]
    rw [hgiven, if_pos hc, State.offer_of_not_taking e _ _ (by rw [hstate]; rfl)]
    obtain ⟨hmon, hshown, hrail, hladder, hwrote⟩ := State.serviceChord_serves (s := u) e p hwfu hlock
    exact ⟨hstate, hmon, hshown, by simp [hu], by simp [hu], hrail, hladder, hwrote⟩
  · rw [hother h]
    apply State.ext_blocks <;> simp [hu]
  · have htaking : u.rail.state.takesKeys = true := by
      rw [RailState.takesKeys_eq]
      simpa [hu] using htakes
    rw [hother fun h => by simp [h.2] at htakes, State.offer_of_room e _ _ htaking hroom hgap]
    exact ⟨rfl, (State.writeEntry_shows e .chord (BitVec.ofNat 8 c.val) hwfu).1,
      (State.writeEntry_wrote e .chord _ u).partWrote hwfu (State.writeEntry_flags e .chord _)⟩

end Sys2Proof.Proofs
end

