-- ==== Sys2Proof/Proofs/FrameStatements.lean ====
section
/-!
The statements on the frames of the link (R150 to R156, R158): READ, WRITE, STATUS, unknown commands, and what READY guards.
-/

namespace Sys2Proof.Machine

section frames
variable {s : State} {x : Exchange}

theorem Exchange.statusFrame_reframed (hwf : x.wf = true) (n : Nat) : x.Reframed (x.statusFrame n) :=
  Exchange.reframed_of_land hwf rfl rfl rfl rfl rfl

theorem Exchange.ignoreFrame_reframed (hwf : x.wf = true) (c : Option FrameCommand) (n : Nat) :
    x.Reframed (x.ignoreFrame c n) :=
  Exchange.reframed_of_land hwf rfl rfl rfl rfl rfl

/-- The status byte latched by a frame is that of the memory before it (R151). -/
theorem Exchange.statusByte_beginFrame (x : Exchange) : x.beginFrame.statusByte = x.statusByte := rfl

/-- Where nothing is held, the memory reads as the blocks see it. -/
theorem Exchange.read_of_holdsNone {y : Exchange} (h : y.frame.held = []) (a : Nat) : Memory.read y.mem a = y.peek a := by
  simp [Exchange.peek, h, Held.get]

theorem Exchange.openRead_reframed (hwf : x.wf = true) (high low : Byte) : x.Reframed (x.openRead high low) :=
  Exchange.reframed_of_land hwf rfl rfl rfl rfl rfl

theorem Exchange.closeRead_reframed (hwf : x.wf = true) (start n : Nat) : x.Reframed (x.closeRead start n) :=
  Exchange.reframed_of_land hwf rfl rfl rfl rfl rfl

theorem Exchange.cutAddress_reframed (hwf : x.wf = true) (c : FrameCommand) (n : Nat) : x.Reframed (x.cutAddress c n) :=
  Exchange.reframed_of_land hwf rfl rfl rfl rfl rfl

/-- Before READY a WRITE frame with a byte inside the memory sets REFUSED and lands nothing (R158). -/
theorem State.writeFrame_unready {high low b : Byte} {data : List Byte} (hready : s.xmem.ready = false)
    (hin : startAddress high low < memorySize) :
    s.writeFrame (high :: low :: b :: data) = (s.mapX (Exchange.takeWrite (high :: low :: b :: data))).setRefused := by
  have hbuffer : (s.xmem.takeWrite (high :: low :: b :: data)).frame.buffer ≠ [] := by
    show ((cellsAt (startAddress high low) (b :: data)).filter fun c => decide (c.1 < memorySize)) ≠ []
    simp [cellsAt, hin]
  have hunready : (s.xmem.takeWrite (high :: low :: b :: data)).ready = false := hready
  unfold State.writeFrame
  dsimp only
  unfold State.endWrite
  rw [State.mapX_xmem, if_neg hbuffer]
  simp [hunready]

/-- Before READY a CLEAR frame sets REFUSED (R158). -/
theorem execClear_unready (hready : s.xmem.ready = false) (n : Nat) :
    exec (.clear n) s = .next (s.mapX (Exchange.ignoreFrame (some .clear) n)).setRefused := by
  have hunready : (s.xmem.ignoreFrame (some .clear) n).ready = false := hready
  show execClear n s = _
  unfold execClear
  dsimp only
  rw [State.mapX_xmem, hunready]

theorem State.setFanSpeed_xmem_of_inactive (h : s.store.active = none) (f : Fin 2) (r : FanRec) :
    (s.setFanSpeed f r).xmem = s.xmem := by
  simp [State.setFanSpeed, h]

end frames

end Sys2Proof.Machine

namespace Sys2Proof.Proofs

open Sys2Proof.Machine

/-- Settles O39: both frames land what was held and change the frame record and the two flags alone. -/
theorem statusAndUnknownFrames : Obligations.StatusAndUnknownFrames := by
  intro s n b hwf hunknown
  have hstatus := Exchange.statusFrame_reframed hwf n
  have hignored := Exchange.ignoreFrame_reframed hwf none n
  have hnone : [0x3A, 0x5C, 0x71, 0xC3].contains b = false := by
    simpa [Instr.wellFormed, commandBytes] using hunknown
  have hexec : exec (.unknownCommand b n) s = .next (s.mapX (Exchange.ignoreFrame none n)).setRefused := by
    show execUnknownCommand b n s = _
    rw [execUnknownCommand, hnone]
    rfl
  exact ⟨_, rfl, rfl, ⟨rfl, rfl⟩, rfl, rfl, rfl, rfl, rfl, hstatus.peek, _, hexec, rfl, rfl, rfl, rfl, rfl, rfl, rfl,
    hignored.peek⟩

/-- Settles O36: the frame opens on the landed memory, and its end lands what was held since. -/
theorem readFrameReturnsTheSnapshot : Obligations.ReadFrameReturnsTheSnapshot := by
  intro s high low n hwf
  have hopen := Exchange.openRead_reframed hwf high low
  refine ⟨_, rfl, rfl, rfl, rfl, rfl, fun a ha => ?_, rfl, rfl, rfl, rfl, rfl, fun start hcovered => ?_, rfl,
    fun hnone hn => ?_⟩
  · exact (Exchange.read_of_holdsNone hopen.held a).trans (hopen.peek a ha)
  · have hclose := Exchange.closeRead_reframed hwf start n
    have hexec : exec (.read n) s = .next (s.mapX (Exchange.closeRead start n)) := by
      show execRead n s = _
      rw [execRead, hcovered]
    exact ⟨_, hexec, rfl, rfl, rfl, rfl, rfl, rfl, rfl, rfl, rfl, rfl, fun a ha =>
      (Exchange.read_of_holdsNone hclose.held a).trans (hclose.peek a ha)⟩
  · have hexec : exec (.read n) s = .next (s.mapX (Exchange.cutAddress .read n)) := by
      show execRead n s = _
      rw [execRead, hnone]
      simp [hn]
    exact ⟨_, hexec, rfl, rfl, rfl, rfl, rfl, rfl, rfl, rfl, (Exchange.cutAddress_reframed hwf .read n).peek⟩

/-- Settles O38: before READY a frame only sets REFUSED, and before a profile a tachometer event only its record. -/
theorem beforeReadyEverythingIsRefused : Obligations.BeforeReadyEverythingIsRefused := by
  intro s high low b data n f us hwf hready hin
  have hwrite := Exchange.takeWrite_reframed hwf (high :: low :: b :: data)
  have hclear := Exchange.ignoreFrame_reframed hwf (some .clear) n
  refine ⟨_, congrArg Host.Outcome.next (State.writeFrame_unready hready hin), rfl, rfl, hwrite.peek,
    hwrite.ready.trans hready, rfl, rfl, ⟨_, execClear_unready hready n, rfl, rfl, rfl, rfl, rfl, hclear.peek⟩, fun hnone => ?_⟩
  exact ⟨_, rfl, State.setFanSpeed_xmem_of_inactive hnone _ _, _, rfl, State.setFanSpeed_xmem_of_inactive hnone _ _⟩

end Sys2Proof.Proofs
end

