-- ==== Sys2Proof/Proofs/WriteFrame.lean ====
section
/-!
The statement on the WRITE frame (R154 to R156): the guard is the table of R156, and the accepted bytes land.
-/

namespace Sys2Proof.Machine

/-! ### The guard is the table (R156) -/

theorem hostTransition_eq (cur new : Byte) : hostTransition cur new = ownerMoves.contains (cur, new) := by
  refine Bool.eq_iff_iff.mpr ?_
  simp only [hostTransition, ownerMoves, Owner.code, List.contains_cons, List.contains_nil, Bool.or_eq_true, Bool.and_eq_true,
    beq_iff_eq, Prod.mk.injEq, Bool.or_false]
  tauto

section guard
variable {s : State} {p : Image} {high low : Byte} {data : List Byte}

theorem State.guard_eq_accepts (c : Host.Cell) : s.xmem.guard s.store.stagingHeld c = s.accepts c.1 c.2 := by
  unfold Exchange.guard State.accepts
  have haction : headerAction c.1 = actionByte c.1 := rfl
  rw [haction]
  split
  · rfl
  · split
    · dsimp only
      split
      · rename_i htable hzero
        have haddr : 0x100 + 64 * ((c.1 - 0x100) / 64) = c.1 := by omega
        rw [hostTransition_eq, haddr]
      · rfl
    · rfl

/-- The cells of a frame that lie inside the memory (R154). -/
def frameCells (high low : Byte) (data : List Byte) : List Host.Cell :=
  (cellsAt (startAddress high low) data).filter fun c => c.1 < memorySize

/-- The cells of a frame that the guard accepts (R155, R156). -/
def State.acceptedCells (high low : Byte) (data : List Byte) (s : State) : List Host.Cell :=
  (frameCells high low data).filter (s.xmem.guard s.store.stagingHeld)

/-- The state in which a WRITE frame has been judged and its accepted bytes have landed (R155, stages 1 and 2). -/
def State.judged (high low : Byte) (data : List Byte) (s : State) : State :=
  s.mapX fun x =>
    { (x.takeWrite (high :: low :: data)).landHost (s.acceptedCells high low data) with
      refused := x.refused || !(frameCells high low data).all (s.xmem.guard s.store.stagingHeld) }

@[simp] theorem State.judged_frame (s : State) :
    (s.judged high low data).time = s.time ∧ (s.judged high low data).sense = s.sense ∧
      (s.judged high low data).climate = s.climate ∧ (s.judged high low data).air = s.air ∧
      (s.judged high low data).rail = s.rail ∧ (s.judged high low data).mon = s.mon ∧
      (s.judged high low data).keypad = s.keypad ∧ (s.judged high low data).engine = s.engine ∧
      (s.judged high low data).store = s.store ∧ (s.judged high low data).supplyLow = s.supplyLow ∧
      (s.judged high low data).fresh = s.fresh ∧ (s.judged high low data).pending = s.pending := by
  simp [State.judged]

theorem State.deliverAll_of_untouched (now : SlotCount) {cs : List Host.Cell}
    (hwords : touched cs 0x0E 0x0F = false ∧ touched cs 0x10 0x11 = false ∧ touched cs 0x12 0x12 = false ∧
      touched cs 0x16 0x17 = false)
    (howners : ∀ n : Fin 16, touched cs (slotAddr n.val) (slotAddr n.val) = false) : s.deliverAll now p cs = s := by
  obtain ⟨hack, hen, hkick, hread⟩ := hwords
  rw [State.deliverAll_words now howners]
  simp [State.deliverWords, hack, hen, hkick, hread]

/-- A WRITE frame after READY: judged, landed and delivered (R155). -/
theorem State.writeFrame_eq (hwf : s.xmem.wf = true) (hp : s.store.active = some p) (hready : s.xmem.ready = true) :
    s.writeFrame (high :: low :: data) =
      (s.judged high low data).deliverAll s.time.slotCount p (s.acceptedCells high low data) := by
  have hx := Exchange.takeWrite_reframed hwf (high :: low :: data)
  have hguard : (s.xmem.takeWrite (high :: low :: data)).guard s.store.stagingHeld = s.xmem.guard s.store.stagingHeld :=
    funext (Exchange.guard_congr hx.peek)
  have hbuffer : (s.xmem.takeWrite (high :: low :: data)).frame.buffer = frameCells high low data := rfl
  unfold State.writeFrame State.endWrite
  dsimp only
  rw [State.mapX_xmem, hbuffer]
  by_cases hnone : frameCells high low data = []
  · have hcells : s.acceptedCells high low data = [] := by rw [State.acceptedCells, hnone]; rfl
    have hjudged : s.judged high low data = s.mapX (Exchange.takeWrite (high :: low :: data)) := by
      unfold State.judged
      rw [hcells, hnone]
      simp only [List.all_nil, Bool.not_true, Bool.or_false]
      rfl
    rw [if_pos hnone, hcells, hjudged]
    exact (State.deliverAll_of_untouched _ ⟨rfl, rfl, rfl, rfl⟩ fun _ => rfl).symm
  · rw [if_neg hnone]
    simp only [hx.ready, hready, State.mapX_store, hp, hguard]
    unfold State.judged
    cases hall : (frameCells high low data).all (s.xmem.guard s.store.stagingHeld)
    · simp only [Bool.false_eq_true, if_false, Bool.not_false, Bool.or_true]
      rfl
    · simp only [if_true, Bool.not_true, Bool.or_false]
      rfl

/-! ### The landing -/

theorem Held.get_filter_cellsAt (P : Host.Cell → Bool) (bs : List Byte) (a x : Nat) :
    Held.get ((cellsAt a bs).filter P) x = (Held.get (cellsAt a bs) x).filter fun b => P (x, b) := by
  induction bs generalizing a with
  | nil => rfl
  | cons b bs ih =>
    have hcons : cellsAt a (b :: bs) = (a, b) :: cellsAt (a + 1) bs := rfl
    have hlater : Held.get (cellsAt (a + 1) bs) a = none := Held.get_eq_none fun c hc => by
      have := (cellsAt_mem hc).1
      dsimp only at this
      omega
    rw [hcons]
    by_cases hx : x = a
    · subst hx
      cases hP : P (x, b)
      · rw [List.filter_cons_of_neg (by simp [hP]), ih, hlater]
        simp [Held.get, Option.filter, hP]
      · rw [List.filter_cons_of_pos (by simp [hP])]
        simp [Held.get, Option.filter, hP]
    · cases hP : P (a, b)
      · rw [List.filter_cons_of_neg (by simp [hP]), ih]
        simp [Held.get, hx]
      · rw [List.filter_cons_of_pos (by simp [hP])]
        simp [Held.get, hx, ih]

/-- The byte that the frame sends to address `a`. -/
def sentByte (high low : Byte) (data : List Byte) (a : Nat) : Byte := data.getD (a - startAddress high low) 0

/-- Whether the frame sends a byte to address `a`. -/
def sentTo (high low : Byte) (data : List Byte) (a : Nat) : Bool :=
  startAddress high low ≤ a && decide (a < startAddress high low + data.length)

theorem Held.get_cellsAt_sent (a : Nat) :
    Held.get (cellsAt (startAddress high low) data) a =
      if sentTo high low data a then some (sentByte high low data a) else none := by
  rw [Held.get_cellsAt]
  unfold sentTo sentByte
  by_cases hlow : startAddress high low ≤ a
  · by_cases hhigh : a < startAddress high low + data.length
    · simp only [if_pos hlow, decide_eq_true hlow, decide_eq_true hhigh, Bool.and_self, if_true, List.getD_eq_getElem?_getD]
      rw [List.getElem?_eq_getElem (by omega)]
      rfl
    · simp only [if_pos hlow, decide_eq_false hhigh, Bool.and_false, Bool.false_eq_true, if_false]
      exact List.getElem?_eq_none (by omega)
  · simp [hlow]

theorem mem_frameCells {c : Host.Cell} :
    c ∈ frameCells high low data ↔
      c.1 < memorySize ∧ sentTo high low data c.1 = true ∧ c.2 = sentByte high low data c.1 := by
  unfold frameCells
  rw [List.mem_filter, decide_eq_true_eq]
  constructor
  · rintro ⟨hmem, hin⟩
    obtain ⟨hlow, hhigh, hbyte⟩ := cellsAt_mem hmem
    exact ⟨hin, by simp [sentTo, hlow, hhigh], hbyte⟩
  · rintro ⟨hin, hsent, hbyte⟩
    refine ⟨Held.get_eq_some ?_, hin⟩
    rw [Held.get_cellsAt_sent, if_pos hsent, hbyte]

/-- Whether the byte that the frame sends to address `a` is accepted (R156). -/
def State.acceptsAt (high low : Byte) (data : List Byte) (a : Nat) (s : State) : Bool :=
  sentTo high low data a && s.accepts a (sentByte high low data a)

theorem State.mem_acceptedCells {c : Host.Cell} (h : c ∈ s.acceptedCells high low data) :
    c.1 < memorySize ∧ s.acceptsAt high low data c.1 = true := by
  obtain ⟨hmem, hguard⟩ := List.mem_filter.mp h
  obtain ⟨hin, hsent, hbyte⟩ := mem_frameCells.mp hmem
  rw [State.guard_eq_accepts, hbyte] at hguard
  exact ⟨hin, by rw [State.acceptsAt, hsent, hguard]; rfl⟩

/-- An accepted byte is the one that landed, and every other byte stands. -/
theorem State.judged_peek (hwf : s.xmem.wf = true) {a : Nat} (ha : a < memorySize) :
    (s.judged high low data).xmem.peek a =
      if s.acceptsAt high low data a then sentByte high low data a else s.xmem.peek a := by
  have hx := Exchange.takeWrite_reframed hwf (high :: low :: data)
  have hpeek : (s.judged high low data).xmem.peek a =
      (Held.get (s.acceptedCells high low data) a).getD (s.xmem.peek a) :=
    (Exchange.peek_landHost hx.wf hx.held _ ha).trans (by rw [hx.peek a ha])
  have hget : Held.get (s.acceptedCells high low data) a =
      if s.acceptsAt high low data a then some (sentByte high low data a) else none := by
    unfold State.acceptedCells frameCells State.acceptsAt
    rw [List.filter_filter, Held.get_filter_cellsAt, Held.get_cellsAt_sent]
    cases sentTo high low data a
    · rfl
    · rw [← State.guard_eq_accepts (a, sentByte high low data a)]
      simp [Option.filter, ha]
  rw [hpeek, hget]
  split <;> rfl

theorem State.judged_wf (hwf : s.xmem.wf = true) : (s.judged high low data).xmem.wf = true := by
  have hx := Exchange.takeWrite_reframed hwf (high :: low :: data)
  obtain ⟨hmem, hheld⟩ := (Bool.and_eq_true _ _).mp hx.wf
  exact (Bool.and_eq_true _ _).mpr ⟨Memory.wf_writeAll hmem _, hheld⟩

/-- REFUSED is set exactly if some byte inside the memory is not accepted (R155). -/
theorem State.judged_refused :
    (s.judged high low data).xmem.refused = true ↔
      s.xmem.refused = true ∨ ∃ a < memorySize, sentTo high low data a = true ∧ s.acceptsAt high low data a = false := by
  have hrefused : (s.judged high low data).xmem.refused =
      (s.xmem.refused || !(frameCells high low data).all (s.xmem.guard s.store.stagingHeld)) := rfl
  rw [hrefused, Bool.or_eq_true]
  refine or_congr_right ?_
  rw [Bool.not_eq_true', List.all_eq_false]
  constructor
  · rintro ⟨c, hc, hguard⟩
    obtain ⟨hin, hsent, hbyte⟩ := mem_frameCells.mp hc
    refine ⟨c.1, hin, hsent, ?_⟩
    rw [State.guard_eq_accepts, hbyte] at hguard
    simp [State.acceptsAt, hguard]
  · rintro ⟨a, ha, hsent, haccepts⟩
    refine ⟨(a, sentByte high low data a), mem_frameCells.mpr ⟨ha, hsent, rfl⟩, ?_⟩
    rw [State.guard_eq_accepts]
    simpa [State.acceptsAt, hsent] using haccepts

/-- A frame that touches no action word leaves only its landing. -/
theorem State.untouched_of_quiet {lo hi : Nat}
    (hquiet : ∀ a < memorySize, s.acceptsAt high low data a = true → ¬(lo ≤ a ∧ a ≤ hi)) :
    touched (s.acceptedCells high low data) lo hi = false := by
  refine List.any_eq_false.mpr fun c hc => ?_
  obtain ⟨hin, haccepts⟩ := State.mem_acceptedCells hc
  have := hquiet c.1 hin haccepts
  simp only [Bool.and_eq_true, decide_eq_true_eq]
  exact this

end guard

end Sys2Proof.Machine

namespace Sys2Proof.Proofs

open Sys2Proof.Machine

/-- Settles O37: the frame is judged and landed in one, and what the delivery adds is the part's own. -/
theorem writeFrameIsJudgedThenLanded : Obligations.WriteFrameIsJudgedThenLanded := by
  intro s p high low data hp hwf hready
  have hframe := State.writeFrame_eq (high := high) (low := low) (data := data) hwf hp hready
  have hwfj := State.judged_wf (high := high) (low := low) (data := data) hwf
  have hdelivered := (State.deliverAll_writes s.time.slotCount p (s.acceptedCells high low data)
    (s.judged high low data)) hwfj
  refine ⟨_, congrArg Host.Outcome.next hframe, ⟨?_, ?_, fun hquiet => ?_⟩, ?_, ?_, ?_, fun cut hcut => ?_⟩
  · rw [hdelivered.refused]
    exact State.judged_refused
  · rw [hdelivered.range]
    rfl
  · have hsilent (a : Nat) (ha : a < memorySize) (haccepts : s.acceptsAt high low data a = true) :
        actionByte a = false ∧ ¬(0x100 ≤ a ∧ a < 0x500 ∧ (a - 0x100) % 64 = 0) := by
      have hnot : (s.acceptsAt high low data a &&
          (actionByte a || (decide (0x100 ≤ a) && decide (a < 0x500) && (a - 0x100) % 64 == 0))) = false := hquiet a ha
      rw [haccepts, Bool.true_and, Bool.or_eq_false_iff] at hnot
      refine ⟨hnot.1, fun h => ?_⟩
      simp [h] at hnot
    have hdone : (s.judged high low data).deliverAll s.time.slotCount p (s.acceptedCells high low data) =
        s.judged high low data := by
      refine State.deliverAll_of_untouched _ ⟨?_, ?_, ?_, ?_⟩ fun n => ?_
      all_goals
        refine State.untouched_of_quiet fun a ha haccepts hrange => ?_
        obtain ⟨haction, howner⟩ := hsilent a ha haccepts
      · simp [actionByte] at haction
        omega
      · simp [actionByte] at haction
        omega
      · simp [actionByte] at haction
        omega
      · simp [actionByte] at haction
        omega
      · unfold slotAddr at hrange
        exact howner (by omega)
    rw [hdone]
    exact ⟨fun a ha => State.judged_peek hwf ha, by apply State.ext_blocks <;> simp, rfl, rfl⟩
  · exact hdelivered.ready
  · exact hdelivered.covered
  · exact hdelivered.holdsNone rfl (Exchange.takeWrite_reframed hwf _).held
  · have hshort (bytes : List Byte) (hbuffer : (s.xmem.takeWrite bytes).frame.buffer = [])
        (hcut : s.xmem.takeWrite bytes = s.xmem.cutAddress .write bytes.length) :
        ∃ u, exec (.write bytes) s = .next u ∧ u = { s with xmem := u.xmem } ∧ s.xmem.frameWrote [] 0 u.xmem := by
      have hexec : exec (.write bytes) s = .next (s.mapX (Exchange.cutAddress .write bytes.length)) := by
        show Host.Outcome.next (s.writeFrame bytes) = _
        unfold State.writeFrame State.endWrite
        dsimp only
        rw [State.mapX_xmem, if_pos hbuffer]
        simp only [State.mapX, hcut]
      exact ⟨_, hexec, rfl, rfl, rfl, rfl, rfl, BitVec.or_zero.symm, rfl, rfl, rfl, fun a ha _ =>
        (Exchange.cutAddress_reframed hwf .write bytes.length).peek a ha⟩
    simp only [List.mem_cons, List.not_mem_nil, or_false] at hcut
    obtain rfl | rfl := hcut
    · exact hshort [] rfl rfl
    · exact hshort [high] rfl rfl

end Sys2Proof.Proofs
end

