-- ==== Sys2Proof/Proofs/Completion.lean ====
section
/-!
SUPPORT. What a completion leaves of the slip table (R170 to R172): the bytes of a written result, the link of a slip that
ended with OK, the break of a chain, and from these the picture `slotCompleted` of the statements.
-/

namespace Sys2Proof.Machine

/-! ### The bytes of a slot -/

theorem Held.get_append (cs ds : List Host.Cell) (a : Nat) : Held.get (cs ++ ds) a = (Held.get cs a).or (Held.get ds a) := by
  induction cs with
  | nil => rfl
  | cons c cs ih =>
    rw [List.cons_append]
    simp only [Held.get]
    split
    · rfl
    · exact ih

theorem slotByte_lt {k i : Nat} (hk : k < 16) (hi : i < 64) : slotAddr k + i < memorySize := by
  unfold slotAddr memorySize
  omega

theorem slotByte_inj {k m i j : Nat} (hi : i < 64) (hj : j < 64) : slotAddr k + i = slotAddr m + j ↔ k = m ∧ i = j := by
  unfold slotAddr
  omega

/-- Byte `i` of a slot with a result written into it (R170). -/
def resultByte (o : Owner) (code detail : Byte) (payload : List Byte) (old : Byte) (i : Nat) : Byte :=
  if i = 0 then o.code else if i = 6 then code else if i = 7 then detail
  else if 0x20 ≤ i then (payloadBytes payload).getD (i - 0x20) 0 else old

/-- The payload replaces whatever a slot held from byte 32 on. -/
theorem resultByte_congr {o : Owner} {code detail old old' : Byte} {payload : List Byte} {i : Nat}
    (h : i < 32 → old = old') : resultByte o code detail payload old i = resultByte o code detail payload old' i := by
  unfold resultByte
  by_cases hlow : i < 32
  · rw [h hlow]
  · have h0 : i ≠ 0 := by omega
    have h6 : i ≠ 6 := by omega
    have h7 : i ≠ 7 := by omega
    have hp : 0x20 ≤ i := by omega
    simp only [h0, h6, h7, hp, if_false, if_true]

section result
variable {x : Exchange} {n : Nat} (o : Owner) (code detail : Byte) (payload : List Byte)

theorem Exchange.peek_writeResult (hx : x.wf = true) (hn : n < 16) {i : Nat} (hi : i < 64) :
    (x.writeResult n o code detail payload).peek (slotAddr n + i) =
      resultByte o code detail payload (x.peek (slotAddr n + i)) i := by
  have hlength := payloadBytes_length payload
  rw [Exchange.writeResult, Exchange.peek_partWriteCells hx _ (slotByte_lt hn hi)]
  unfold resultByte
  by_cases h0 : i = 0
  · simp [h0, Held.get]
  · have hne : slotAddr n + i ≠ slotAddr n := by omega
    simp only [Held.get, if_neg hne, if_neg h0, Held.get_append, Held.get_cellsAt]
    by_cases h6 : i = 6
    · simp [h6]
    · by_cases h7 : i = 7
      · simp [h7]
      · have hnot : (if slotAddr n + 6 ≤ slotAddr n + i then
            ([code, detail] : List Byte)[slotAddr n + i - (slotAddr n + 6)]? else none) = none := by
          split
          · exact List.getElem?_eq_none (by simp; omega)
          · rfl
        rw [hnot, Option.none_or, if_neg h6, if_neg h7]
        by_cases hp : 0x20 ≤ i
        · rw [if_pos (by omega), if_pos hp, List.getD_eq_getElem?_getD, Nat.add_sub_add_left,
            List.getElem?_eq_getElem (by omega)]
          rfl
        · rw [if_neg (by omega), if_neg hp]
          rfl

theorem Exchange.peek_writeResult_other (hx : x.wf = true) {k : Nat} (hk : k < 16) (hne : k ≠ n) {i : Nat}
    (hi : i < 64) : (x.writeResult n o code detail payload).peek (slotAddr k + i) = x.peek (slotAddr k + i) := by
  refine ((Exchange.writeResult_writes o code detail payload x) hx).kept _ (slotByte_lt hk hi) ?_
  simp only [outside_cons, outside_nil, and_true]
  unfold slotAddr
  omega

/-- Raising a cause leaves the slots. -/
theorem Exchange.peek_raise_slot (hx : x.wf = true) (c : Cause) {k i : Nat} (hk : k < 16) (hi : i < 64) :
    (x.raise c).peek (slotAddr k + i) = x.peek (slotAddr k + i) := by
  refine ((Exchange.raise_writes c x) hx).kept _ (slotByte_lt hk hi) ?_
  simp only [outside_cons, outside_nil, and_true]
  unfold slotAddr
  omega

theorem Exchange.writeResult_flags (n : Nat) (x : Exchange) :
    (x.writeResult n o code detail payload).summary = x.summary ∧
      (x.writeResult n o code detail payload).enable = x.enable := by
  simp [Exchange.writeResult]

end result

/-! ### The break of a chain (R172) -/

/-- The bytes of slot `k` after its break by slot `first`: DONE, CHAIN_BROKEN and the slot that began it (R172). -/
def brokenByte (first : Nat) (old : Byte) (i : Nat) : Byte :=
  resultByte .done ResultCode.chainBroken.code 0 [BitVec.ofNat 8 first] old i

/-- From `x` the slots of `broken` are completed with CHAIN_BROKEN, and the other slots stand. -/
def Exchange.broke (first : Nat) (broken : List Nat) (x y : Exchange) : Prop :=
  ∀ k < 16, ∀ i < 64, y.peek (slotAddr k + i) =
    if k ∈ broken then brokenByte first (x.peek (slotAddr k + i)) i else x.peek (slotAddr k + i)

/-- Which slots are CHAINED. -/
def Exchange.chainedSlots (x : Exchange) (k : Nat) : Bool := decide (k < 16) && x.ownerIs k .chained

/-- The slot that slot `k` names. -/
def Exchange.named (x : Exchange) (k : Nat) : Nat := (x.peek (slotAddr k + 3)).toNat

/-- A chain that runs into slots which lead into each other stays among them. -/
theorem Exchange.chainFrom_closed {x : Exchange} {chained : Nat → Bool} {broken : List Nat}
    (hclosed : ∀ b ∈ broken, x.named b ∈ broken) : ∀ (rounds m : Nat), m ∈ broken →
    ∀ k ∈ x.chainFrom chained rounds m, k ∈ broken
  | 0, _, _, _, hk => absurd hk (by simp [Exchange.chainFrom])
  | rounds + 1, m, hm, k, hk => by
    unfold Exchange.chainFrom at hk
    split at hk
    · obtain rfl | hk := List.mem_cons.mp hk
      · exact hm
      · exact Exchange.chainFrom_closed hclosed rounds _ (hclosed m hm) k hk
    · cases hk

theorem Exchange.chainFrom_chained {x : Exchange} (chained : Nat → Bool) : ∀ (rounds m k : Nat),
    k ∈ x.chainFrom chained rounds m → chained k = true
  | 0, _, _, hk => absurd hk (by simp [Exchange.chainFrom])
  | rounds + 1, m, k, hk => by
    unfold Exchange.chainFrom at hk
    split at hk
    · obtain rfl | hk := List.mem_cons.mp hk
      · assumption
      · exact Exchange.chainFrom_chained chained rounds _ k hk
    · cases hk

section broke
variable {x y : Exchange} {first : Nat} {broken : List Nat}

theorem Exchange.broke.owner_done (h : x.broke first broken y) {k : Nat} (hk : k < 16) (hmem : k ∈ broken) :
    y.ownerIs k .chained = false := by
  have howner := h k hk 0 (by omega)
  rw [if_pos hmem] at howner
  unfold Exchange.ownerIs
  rw [show y.peek (slotAddr k) = Owner.done.code from howner]
  decide

theorem Exchange.broke.owner_stands (h : x.broke first broken y) {k : Nat} (hk : k < 16) (hmem : k ∉ broken) :
    y.ownerIs k .chained = x.ownerIs k .chained := by
  have howner := h k hk 0 (by omega)
  rw [if_neg hmem] at howner
  unfold Exchange.ownerIs
  rw [show y.peek (slotAddr k) = x.peek (slotAddr k) from howner]

theorem Exchange.broke.named (h : x.broke first broken y) {k : Nat} (hk : k < 16) : y.named k = x.named k := by
  have hnext := h k hk 3 (by omega)
  unfold Exchange.named
  rw [hnext]
  split <;> rfl

/-- One more slot is broken. -/
theorem Exchange.broke.more (hy : y.wf = true) (h : x.broke first broken y) {m : Nat} (hm : m < 16) (hmem : m ∉ broken) :
    x.broke first (m :: broken)
      ((y.writeResult m .done ResultCode.chainBroken.code 0 [BitVec.ofNat 8 first]).raise .slipDone) := by
  intro k hk i hi
  have hwf := ((Exchange.writeResult_writes (n := m) .done ResultCode.chainBroken.code 0 [BitVec.ofNat 8 first] y) hy).wf
  rw [Exchange.peek_raise_slot hwf .slipDone hk hi]
  by_cases hkm : k = m
  · subst hkm
    rw [Exchange.peek_writeResult _ _ _ _ hy hk hi, h k hk i hi, if_neg hmem, if_pos List.mem_cons_self]
    rfl
  · rw [Exchange.peek_writeResult_other _ _ _ _ hy hk hkm hi, h k hk i hi]
    simp only [List.mem_cons, hkm, false_or]

/-- The break goes on from slot `c`, with `broken` behind it, along the chain that `x` shows. -/
theorem Exchange.breakChain_broke :
    ∀ (fuel c : Nat) (y : Exchange) (broken : List Nat), y.wf = true → c < 16 → x.broke first broken y →
      (∀ b ∈ broken, b ≠ c → x.named b ∈ broken) →
      ∃ all, x.broke first all (Exchange.breakChain first fuel c y) ∧
        ∀ k, k ∈ all ↔ k ∈ broken ∨ k ∈ x.chainFrom x.chainedSlots fuel (x.named c)
  | 0, _, _, broken, _, _, h, _ => ⟨broken, h, fun k => by simp [Exchange.chainFrom]⟩
  | fuel + 1, c, y, broken, hy, hc, h, hchain => by
    have hnext : y.nextSlot c = if x.named c < 16 then some (x.named c) else none := by
      unfold Exchange.nextSlot
      rw [← h.named hc]
      rfl
    have hstop (hnone : y.nextSlot c = none ∨ ∃ m, y.nextSlot c = some m ∧ y.ownerIs m .chained = false) :
        Exchange.breakChain first (fuel + 1) c y = y := by
      unfold Exchange.breakChain
      obtain hnone | ⟨m, hm, howner⟩ := hnone
      · rw [hnone]
      · rw [hm]
        simp [howner]
    have hdone (hb : Exchange.breakChain first (fuel + 1) c y = y)
        (hall : ∀ k ∈ x.chainFrom x.chainedSlots (fuel + 1) (x.named c), k ∈ broken) :
        ∃ all, x.broke first all (Exchange.breakChain first (fuel + 1) c y) ∧
          ∀ k, k ∈ all ↔ k ∈ broken ∨ k ∈ x.chainFrom x.chainedSlots (fuel + 1) (x.named c) :=
      ⟨broken, by rwa [hb], fun k => ⟨.inl, fun hk => hk.elim id (hall k)⟩⟩
    by_cases hm : x.named c < 16
    · rw [if_pos hm] at hnext
      by_cases hmem : x.named c ∈ broken
      · refine hdone (hstop (.inr ⟨_, hnext, h.owner_done hm hmem⟩)) ?_
        have hclosed : ∀ b ∈ broken, x.named b ∈ broken := fun b hb => by
          by_cases hbc : b = c
          · rw [hbc]
            exact hmem
          · exact hchain b hb hbc
        exact Exchange.chainFrom_closed hclosed (fuel + 1) _ hmem
      · have howner := h.owner_stands hm hmem
        by_cases hchained : x.ownerIs (x.named c) .chained = true
        · have hbreak : Exchange.breakChain first (fuel + 1) c y =
              Exchange.breakChain first fuel (x.named c)
                ((y.writeResult (x.named c) .done ResultCode.chainBroken.code 0 [BitVec.ofNat 8 first]).raise .slipDone) := by
            conv_lhs => unfold Exchange.breakChain
            rw [hnext]
            simp [howner, hchained]
          have hwf := ((Exchange.raise_writes .slipDone _)
            ((Exchange.writeResult_writes (n := x.named c) .done ResultCode.chainBroken.code 0 [BitVec.ofNat 8 first] y) hy).wf).wf
          have hahead : ∀ b ∈ x.named c :: broken, b ≠ x.named c → x.named b ∈ x.named c :: broken := by
            intro b hb hne
            have hbehind' : b ∈ broken := (List.mem_cons.mp hb).resolve_left hne
            by_cases hbc : b = c
            · rw [hbc]
              exact List.mem_cons_self
            · exact List.mem_cons_of_mem _ (hchain b hbehind' hbc)
          obtain ⟨all, hbroke, hall⟩ := Exchange.breakChain_broke fuel (x.named c) _ (x.named c :: broken) hwf hm
            (h.more hy hm hmem) hahead
          refine ⟨all, hbreak ▸ hbroke, fun k => ?_⟩
          have hstep : x.chainFrom x.chainedSlots (fuel + 1) (x.named c) =
              x.named c :: x.chainFrom x.chainedSlots fuel (x.named (x.named c)) := by
            rw [Exchange.chainFrom]
            simp [Exchange.chainedSlots, hm, hchained]
            rfl
          rw [hall, hstep, List.mem_cons, List.mem_cons]
          tauto
        · have hnot : x.ownerIs (x.named c) .chained = false := by simpa using hchained
          refine hdone (hstop (.inr ⟨_, hnext, howner.trans hnot⟩)) fun k hk => ?_
          rw [Exchange.chainFrom] at hk
          simp [Exchange.chainedSlots, hnot] at hk
    · rw [if_neg hm] at hnext
      refine hdone (hstop (.inl hnext)) fun k hk => ?_
      rw [Exchange.chainFrom] at hk
      simp [Exchange.chainedSlots, hm] at hk

end broke

/-! ### The completion (R170, R171) -/

/-- A chain is the same in a memory in which the slots it can run through name the same slots. -/
theorem Exchange.chainFrom_congr {x y : Exchange} {chained : Nat → Bool}
    (h : ∀ k, chained k = true → y.named k = x.named k) : ∀ rounds m,
    y.chainFrom chained rounds m = x.chainFrom chained rounds m
  | 0, _ => rfl
  | rounds + 1, m => by
    have hy : (y.peek (slotAddr m + 3)).toNat = y.named m := rfl
    have hx : (x.peek (slotAddr m + 3)).toNat = x.named m := rfl
    unfold Exchange.chainFrom
    split
    · rename_i hm
      rw [hy, hx, h m hm, Exchange.chainFrom_congr h rounds]
    · rfl

/-- Which slots beside slot `n` are CHAINED. -/
def Exchange.chainedBeside (n : Fin 16) (x : Exchange) (k : Nat) : Bool :=
  decide (k < 16) && k != n.val && x.ownerIs k .chained

/-- The slots that a completion of slot `n` with `r` breaks (R172). -/
def Exchange.brokenBy (n : Fin 16) (body : List Byte) (r : SlipResult) (x : Exchange) : List Nat :=
  if r.code = .ok then [] else x.chainFrom (x.chainedBeside n) 16 (body.getD 3 0).toNat

/-- Whether a completion of slot `n` with `r` sets LINK_IDLE, where `chained` says which slots are CHAINED (R171). -/
def linksIdle (chained : Nat → Bool) (body : List Byte) (r : SlipResult) : Bool :=
  r.code == .ok && decide ((body.getD 3 0).toNat < 16) && !chained (body.getD 3 0).toNat

/-- What a completion of slot `n` with `r` leaves of the other slots, where `chained` says which are CHAINED and `broken`
which it breaks. -/
def Exchange.othersLeft (n : Fin 16) (next : Nat) (r : SlipResult) (chained : Nat → Bool) (broken : List Nat)
    (x y : Exchange) : Prop :=
  ∀ k : Fin 16, k ≠ n →
    (k.val ∈ broken →
      y.peek (slotAddr k.val) = Owner.done.code ∧ y.shows (slotAddr k.val + 6) [ResultCode.chainBroken.code, 0] ∧
        y.shows (slotAddr k.val + 0x20) (payloadBytes [BitVec.ofNat 8 n.val]) ∧
        ∀ i < 32, 0 < i → i ≠ 6 → i ≠ 7 → y.peek (slotAddr k.val + i) = x.peek (slotAddr k.val + i)) ∧
    (k.val ∉ broken →
      y.peek (slotAddr k.val) =
          (if r.code = .ok ∧ k.val = next ∧ chained k.val = true then Owner.posted.code
           else x.peek (slotAddr k.val)) ∧
        ∀ i < 64, 0 < i → y.peek (slotAddr k.val + i) = x.peek (slotAddr k.val + i))

theorem Exchange.slotCompleted_iff {x y : Exchange} {n : Fin 16} {body : List Byte} {r : SlipResult} :
    x.slotCompleted n body r y ↔
      y.shows (slotAddr n.val)
          (Owner.done.code :: (body.drop 1).take 5 ++
            [r.code.code, r.detail ||| (if linksIdle (x.chainedBeside n) body r then 0x80 else 0)] ++ body.drop 8) ∧
        y.shows (slotAddr n.val + 0x20) (payloadBytes r.payload) ∧
        x.othersLeft n (body.getD 3 0).toNat r (x.chainedBeside n) (x.brokenBy n body r) y := Iff.rfl

/-- What a completion of slot `n` leaves depends on the other slots alone. -/
theorem Exchange.slotCompleted_congr {x x' y : Exchange} {n : Fin 16} {body : List Byte} {r : SlipResult}
    (h : ∀ k < 16, k ≠ n.val → ∀ i < 64, x'.peek (slotAddr k + i) = x.peek (slotAddr k + i))
    (hcompleted : x'.slotCompleted n body r y) : x.slotCompleted n body r y := by
  have hchained : x'.chainedBeside n = x.chainedBeside n := by
    funext k
    unfold Exchange.chainedBeside Exchange.ownerIs
    by_cases hk : k < 16
    · by_cases hne : k = n.val
      · simp [hne]
      · rw [show x'.peek (slotAddr k) = x.peek (slotAddr k) from h k hk hne 0 (by omega)]
    · simp [hk]
  have hbroken : x'.brokenBy n body r = x.brokenBy n body r := by
    unfold Exchange.brokenBy
    rw [hchained, Exchange.chainFrom_congr fun k hk => ?_]
    simp only [Exchange.chainedBeside, Bool.and_eq_true, decide_eq_true_eq, bne_iff_ne] at hk
    unfold Exchange.named
    rw [h k hk.1.1 hk.1.2 3 (by omega)]
  rw [Exchange.slotCompleted_iff] at hcompleted ⊢
  rw [hchained, hbroken] at hcompleted
  obtain ⟨hslot, hpayload, hothers⟩ := hcompleted
  refine ⟨hslot, hpayload, fun k hk => ?_⟩
  have hstands (i : Nat) (hi : i < 64) : x'.peek (slotAddr k.val + i) = x.peek (slotAddr k.val + i) :=
    h k.val k.isLt (fun heq => hk (Fin.ext heq)) i hi
  obtain ⟨hbreaks, hkeeps⟩ := hothers k hk
  refine ⟨fun hmem => ?_, fun hmem => ?_⟩
  · obtain ⟨howner, hcode, hpay, hrest⟩ := hbreaks hmem
    exact ⟨howner, hcode, hpay, fun i hi h0 h6 h7 => (hrest i hi h0 h6 h7).trans (hstands i (by omega))⟩
  · obtain ⟨howner, hrest⟩ := hkeeps hmem
    refine ⟨?_, fun i hi h0 => (hrest i hi h0).trans (hstands i hi)⟩
    rw [howner, show x'.peek (slotAddr k.val) = x.peek (slotAddr k.val) from hstands 0 (by omega)]

theorem getD_drop (bs : List Byte) (k i : Nat) : (bs.drop k).getD i 0 = bs.getD (k + i) 0 := by
  rw [List.getD_eq_getElem?_getD, List.getD_eq_getElem?_getD, List.getElem?_drop]

/-- The bytes of a slot with its result, as the statements list them. -/
theorem Exchange.shows_result {y : Exchange} {n : Nat} {body payload : List Byte} {o : Owner} {code detail : Byte}
    (hlength : body.length = 32)
    (h : ∀ i < 64, y.peek (slotAddr n + i) = resultByte o code detail payload (body.getD i 0) i) :
    y.shows (slotAddr n) (o.code :: (body.drop 1).take 5 ++ [code, detail] ++ body.drop 8) ∧
      y.shows (slotAddr n + 0x20) (payloadBytes payload) := by
  have htake : ((body.drop 1).take 5).length = 5 := by simp [hlength]
  refine ⟨?_, fun i hi => ?_⟩
  · have hsplit : o.code :: (body.drop 1).take 5 ++ [code, detail] ++ body.drop 8 =
        [o.code] ++ ((body.drop 1).take 5 ++ ([code, detail] ++ body.drop 8)) := by simp
    rw [hsplit, Exchange.shows_append, Exchange.shows_append, Exchange.shows_append, htake]
    refine ⟨(Exchange.shows_single _).mpr (h 0 (by omega)), fun i hi => ?_, fun i hi => ?_, fun i hi => ?_⟩
    · rw [htake] at hi
      have hbyte := h (1 + i) (by omega)
      rw [← Nat.add_assoc] at hbyte
      have hget : ((body.drop 1).take 5).getD i 0 = body.getD (1 + i) 0 := by
        rw [← getD_drop, List.getD_eq_getElem?_getD, List.getElem?_take_of_lt hi, ← List.getD_eq_getElem?_getD]
      refine hbyte.trans ?_
      rw [hget]
      unfold resultByte
      rw [if_neg (by omega), if_neg (by omega), if_neg (by omega), if_neg (by omega)]
    · have hi2 : i < 2 := hi
      obtain rfl | rfl : i = 0 ∨ i = 1 := by omega
      · exact h 6 (by omega)
      · exact h 7 (by omega)
    · have hi24 : i < 24 := by simpa [hlength] using hi
      have hbyte := h (8 + i) (by omega)
      rw [getD_drop]
      refine Eq.trans ?_ (hbyte.trans ?_)
      · congr 1
        simp only [List.length_cons, List.length_nil]
        omega
      · unfold resultByte
        rw [if_neg (by omega), if_neg (by omega), if_neg (by omega), if_neg (by omega)]
  · rw [payloadBytes_length] at hi
    rw [Nat.add_assoc, h _ (by omega)]
    unfold resultByte
    rw [if_neg (by omega), if_neg (by omega), if_neg (by omega), if_pos (by omega), Nat.add_sub_cancel_left]

section complete
variable {x : Exchange} {n : Fin 16} {body : List Byte} {r : SlipResult}

/-- The memory in which a completion has written its result, its link not followed yet (R170). -/
def Exchange.resulted (n : Nat) (r : SlipResult) (x : Exchange) : Exchange :=
  x.writeResult n .done r.code.code r.detail r.payload

theorem Exchange.complete_eq (n : Nat) (r : SlipResult) (x : Exchange) :
    x.complete n r =
      (if r.code = .ok then (x.resulted n r).followLink n else Exchange.breakChain n 16 n (x.resulted n r)).raise .slipDone :=
  rfl

theorem Exchange.resulted_peek (hx : x.wf = true) (hbody : x.shows (slotAddr n.val) body) (hlength : body.length = 32)
    {i : Nat} (hi : i < 64) :
    (x.resulted n.val r).peek (slotAddr n.val + i) = resultByte .done r.code.code r.detail r.payload (body.getD i 0) i := by
  rw [Exchange.resulted, Exchange.peek_writeResult _ _ _ _ hx n.isLt hi]
  exact resultByte_congr fun hlow => hbody i (by omega)

theorem Exchange.resulted_wf (hx : x.wf = true) (n : Nat) (r : SlipResult) : (x.resulted n r).wf = true :=
  ((Exchange.writeResult_writes _ _ _ _ x) hx).wf

/-- The completed slot is DONE, so the chain passes it by. -/
theorem Exchange.resulted_chained (hx : x.wf = true) :
    (x.resulted n.val r).chainedSlots = (x.resulted n.val r).chainedBeside n := by
  have hdone : (x.resulted n.val r).ownerIs n.val .chained = false := by
    unfold Exchange.ownerIs Exchange.resulted
    rw [Exchange.peek_writeResult_owner hx n.isLt n.isLt, if_pos rfl]
    decide
  funext k
  unfold Exchange.chainedSlots Exchange.chainedBeside
  by_cases hk : k = n.val
  · simp [hk, hdone]
  · have hbne : (k != n.val) = true := by simp [hk]
    rw [hbne, Bool.and_true]

/-- The bytes of the completed slot and of the others, with what the link made of them (R171, R172). -/
theorem Exchange.slotCompleted_of_bytes {y z : Exchange} (hlength : body.length = 32)
    (hslot : ∀ i < 64, y.peek (slotAddr n.val + i) =
      resultByte .done r.code.code (r.detail ||| (if linksIdle (z.chainedBeside n) body r then 0x80 else 0)) r.payload
        (body.getD i 0) i)
    (hothers : z.othersLeft n (body.getD 3 0).toNat r (z.chainedBeside n) (z.brokenBy n body r) y) :
    z.slotCompleted n body r y :=
  have hshows := Exchange.shows_result hlength hslot
  Exchange.slotCompleted_iff.mpr ⟨hshows.1, hshows.2, hothers⟩

theorem Exchange.resulted_named (hx : x.wf = true) (hbody : x.shows (slotAddr n.val) body) (hlength : body.length = 32) :
    (x.resulted n.val r).named n.val = (body.getD 3 0).toNat := by
  unfold Exchange.named
  rw [Exchange.resulted_peek hx hbody hlength (by omega)]
  rfl

/-- Where the completion breaks a chain, the other slots stand but for the broken ones (R172). -/
theorem Exchange.broke.othersLeft {y z : Exchange} {all : List Nat} (h : z.broke n.val all y) (hcode : r.code ≠ .ok)
    (hall : ∀ k, k ∈ all ↔ k ∈ z.brokenBy n body r) :
    z.othersLeft n (body.getD 3 0).toNat r (z.chainedBeside n) (z.brokenBy n body r) y := by
  intro k _
  refine ⟨fun hmem => ?_, fun hmem => ?_⟩
  · have hbyte (i : Nat) (hi : i < 64) :
        y.peek (slotAddr k.val + i) = brokenByte n.val (z.peek (slotAddr k.val + i)) i := by
      rw [h k.val k.isLt i hi, if_pos ((hall k.val).mpr hmem)]
    refine ⟨hbyte 0 (by omega), fun i hi => ?_, fun i hi => ?_, fun i hi h0 h6 h7 => ?_⟩
    · have hi2 : i < 2 := hi
      obtain rfl | rfl : i = 0 ∨ i = 1 := by omega
      · exact hbyte 6 (by omega)
      · exact hbyte 7 (by omega)
    · rw [payloadBytes_length] at hi
      rw [Nat.add_assoc, hbyte _ (by omega), brokenByte, resultByte]
      rw [if_neg (by omega), if_neg (by omega), if_neg (by omega), if_pos (by omega), Nat.add_sub_cancel_left]
    · rw [hbyte i (by omega), brokenByte, resultByte, if_neg (by omega), if_neg h6, if_neg h7, if_neg (by omega)]
  · have hbyte (i : Nat) (hi : i < 64) : y.peek (slotAddr k.val + i) = z.peek (slotAddr k.val + i) := by
      rw [h k.val k.isLt i hi, if_neg fun hin => hmem ((hall k.val).mp hin)]
    refine ⟨?_, fun i hi _ => hbyte i hi⟩
    rw [if_neg fun hc => hcode hc.1]
    exact hbyte 0 (by omega)

theorem Exchange.broke_refl (first : Nat) (x : Exchange) : x.broke first [] x := fun _ _ _ _ => by simp

/-- A completion with another code than OK (R170, R172). -/
theorem Exchange.complete_of_not_ok (hx : x.wf = true) (hbody : x.shows (slotAddr n.val) body) (hlength : body.length = 32)
    (hcode : r.code ≠ .ok) : (x.resulted n.val r).slotCompleted n body r (x.complete n.val r) := by
  set z := x.resulted n.val r with hz
  have hwf := Exchange.resulted_wf hx n.val r
  have hchained := Exchange.resulted_chained (n := n) (r := r) hx
  have hnamed := Exchange.resulted_named (r := r) hx hbody hlength
  obtain ⟨all, hbroke, hall⟩ := Exchange.breakChain_broke (x := z) (first := n.val) 16 n.val z [] hwf n.isLt
    (Exchange.broke_refl _ _) (by simp)
  have hwf' := ((Exchange.breakChain_writes n.val 16 n.val z) hwf).wf
  have hcomplete : x.complete n.val r = (Exchange.breakChain n.val 16 n.val z).raise .slipDone := by
    rw [Exchange.complete_eq, if_neg hcode]
  have hraised : z.broke n.val all (x.complete n.val r) := fun k hk i hi => by
    rw [hcomplete, Exchange.peek_raise_slot hwf' .slipDone hk hi]
    exact hbroke k hk i hi
  have hbroken (k : Nat) : k ∈ all ↔ k ∈ z.brokenBy n body r := by
    rw [hall, Exchange.brokenBy, if_neg hcode, ← hchained, ← hnamed]
    simp
    rfl
  have hout : n.val ∉ all := fun hmem => by
    have hin := (hbroken n.val).mp hmem
    rw [Exchange.brokenBy, if_neg hcode] at hin
    have := Exchange.chainFrom_chained _ _ _ _ hin
    simp [Exchange.chainedBeside] at this
  refine Exchange.slotCompleted_of_bytes hlength (fun i hi => ?_) (hraised.othersLeft hcode hbroken)
  rw [hraised n.val n.isLt i hi, if_neg hout, Exchange.resulted_peek hx hbody hlength hi]
  have hidle : linksIdle (z.chainedBeside n) body r = false := by simp [linksIdle, hcode]
  rw [hidle]
  simp

theorem Exchange.peek_partWrite_single (hx : x.wf = true) (a : Nat) (b : Byte) {c : Nat} (hc : c < memorySize) :
    (x.partWrite a [b]).peek c = if c = a then b else x.peek c := by
  rw [Exchange.peek_partWrite hx _ _ hc]
  by_cases hlow : a ≤ c
  · by_cases heq : c = a
    · simp [heq]
    · rw [if_pos hlow, List.getElem?_eq_none (by simp; omega), if_neg heq]
      rfl
  · rw [if_neg hlow, if_neg (by omega)]

/-- The link of slot `n` (R171): its CHAINED next slot is POSTED, any other sets LINK_IDLE. -/
theorem Exchange.followLink_peek (hx : x.wf = true) {k i : Nat} (hk : k < 16) (hi : i < 64) :
    (x.followLink n.val).peek (slotAddr k + i) =
      if x.named n.val < 16 then
        if x.ownerIs (x.named n.val) .chained then
          if k = x.named n.val ∧ i = 0 then Owner.posted.code else x.peek (slotAddr k + i)
        else if k = n.val ∧ i = 7 then x.peek (slotAddr k + i) ||| 0x80 else x.peek (slotAddr k + i)
      else x.peek (slotAddr k + i) := by
  have hnext : x.nextSlot n.val = if x.named n.val < 16 then some (x.named n.val) else none := rfl
  unfold Exchange.followLink
  rw [hnext]
  split
  · rename_i m hm
    split at hm
    · cases hm
    · rename_i hge
      rw [if_neg hge]
  · rename_i m hm
    split at hm
    · rename_i hlt
      obtain rfl := Option.some.inj hm
      rw [if_pos hlt]
      split
      · rw [Exchange.peek_partWrite_single hx _ _ (slotByte_lt hk hi)]
        have hiff := slotByte_inj (k := k) (m := x.named n.val) (i := i) (j := 0) hi (by omega)
        rw [Nat.add_zero] at hiff
        simp only [hiff]
      · rw [Exchange.peek_partWrite_single hx _ _ (slotByte_lt hk hi)]
        have hiff := slotByte_inj (k := k) (m := n.val) (i := i) (j := 7) hi (by omega)
        simp only [hiff]
        split
        · rename_i heq
          rw [heq.1, heq.2]
        · rfl
    · cases hm

/-- The completed slot after its link: LINK_IDLE goes into the detail byte (R171). -/
theorem resultByte_linkIdle (o : Owner) (code detail : Byte) (payload : List Byte) (old : Byte) (i : Nat) (idle : Bool) :
    resultByte o code (detail ||| (if idle then 0x80 else 0)) payload old i =
      if idle = true ∧ i = 7 then resultByte o code detail payload old i ||| 0x80
      else resultByte o code detail payload old i := by
  cases idle
  · simp
  · by_cases h7 : i = 7
    · simp [h7, resultByte]
    · simp [h7, resultByte]

/-- A completion with OK (R170, R171). -/
theorem Exchange.complete_of_ok (hx : x.wf = true) (hbody : x.shows (slotAddr n.val) body) (hlength : body.length = 32)
    (hcode : r.code = .ok) : (x.resulted n.val r).slotCompleted n body r (x.complete n.val r) := by
  have hwf := Exchange.resulted_wf hx n.val r
  have hchained := Exchange.resulted_chained (n := n) (r := r) hx
  have hnamed := Exchange.resulted_named (r := r) hx hbody hlength
  have hbytes (i : Nat) (hi : i < 64) := Exchange.resulted_peek (r := r) hx hbody hlength hi
  have hwf' := ((Exchange.followLink_writes n.isLt (x.resulted n.val r)) hwf).wf
  have hpeek (k i : Nat) (hk : k < 16) (hi : i < 64) : (x.complete n.val r).peek (slotAddr k + i) =
      ((x.resulted n.val r).followLink n.val).peek (slotAddr k + i) := by
    rw [Exchange.complete_eq, if_pos hcode]
    exact Exchange.peek_raise_slot hwf' .slipDone hk hi
  generalize x.complete n.val r = y at hpeek ⊢
  generalize x.resulted n.val r = z at hwf hchained hnamed hbytes hpeek ⊢
  have howner (h : z.named n.val < 16) : z.ownerIs (z.named n.val) .chained = z.chainedBeside n (z.named n.val) := by
    rw [← hchained, Exchange.chainedSlots]
    simp [h]
  have hself : z.chainedBeside n n.val = false := by simp [Exchange.chainedBeside]
  have hidle : linksIdle (z.chainedBeside n) body r =
      (decide (z.named n.val < 16) && !z.chainedBeside n (z.named n.val)) := by
    rw [linksIdle, hcode, hnamed]
    simp
  refine Exchange.slotCompleted_of_bytes hlength (fun i hi => ?_) fun k hk => ⟨fun hmem => ?_, fun _ => ?_⟩
  · rw [resultByte_linkIdle, hidle, ← hbytes i hi, hpeek n.val i n.isLt hi, Exchange.followLink_peek hwf n.isLt hi]
    by_cases hlt : z.named n.val < 16
    · rw [if_pos hlt, howner hlt]
      cases hc : z.chainedBeside n (z.named n.val)
      · simp [hlt]
      · have hne : n.val ≠ z.named n.val := fun heq => by
          rw [← heq, hself] at hc
          cases hc
        simp [hne]
    · simp [hlt]
  · rw [Exchange.brokenBy, if_pos hcode] at hmem
    cases hmem
  · have hne : k.val ≠ n.val := fun heq => hk (Fin.ext heq)
    have hother (i : Nat) (hi : i < 64) : y.peek (slotAddr k.val + i) =
        if i = 0 ∧ k.val = z.named n.val ∧ z.chainedBeside n k.val = true then Owner.posted.code
        else z.peek (slotAddr k.val + i) := by
      rw [hpeek k.val i k.isLt hi, Exchange.followLink_peek hwf k.isLt hi]
      by_cases hlt : z.named n.val < 16
      · rw [if_pos hlt, howner hlt]
        by_cases heq : k.val = z.named n.val
        · rw [← heq]
          cases z.chainedBeside n k.val <;> simp [hne]
        · simp [heq, hne]
      · have hge : k.val ≠ z.named n.val := by omega
        simp [hlt, hge]
    refine ⟨?_, fun i hi h0 => ?_⟩
    · have hzero := hother 0 (by omega)
      rw [← hnamed]
      simpa [hcode] using hzero
    · rw [hother i hi, if_neg (by omega)]

/-- A completion as the statements picture it (R170 to R172). -/
theorem Exchange.complete_completed (hx : x.wf = true) (hbody : x.shows (slotAddr n.val) body) (hlength : body.length = 32)
    (r : SlipResult) : x.slotCompleted n body r (x.complete n.val r) := by
  have hcompleted : (x.resulted n.val r).slotCompleted n body r (x.complete n.val r) := by
    by_cases hcode : r.code = .ok
    · exact Exchange.complete_of_ok hx hbody hlength hcode
    · exact Exchange.complete_of_not_ok hx hbody hlength hcode
  exact Exchange.slotCompleted_congr (fun k hk hne i hi => Exchange.peek_writeResult_other _ _ _ _ hx hk hne hi) hcompleted

/-! ### The causes raised -/

theorem Exchange.followLink_flags (n : Nat) (x : Exchange) :
    (x.followLink n).summary = x.summary ∧ (x.followLink n).enable = x.enable := by
  unfold Exchange.followLink
  split
  · exact ⟨rfl, rfl⟩
  · split <;> simp

theorem Exchange.breakChain_flags (first : Nat) : ∀ (fuel n : Nat) (x : Exchange),
    (Exchange.breakChain first fuel n x).summary ||| Cause.slipDone.bit = x.summary ||| Cause.slipDone.bit ∧
      (Exchange.breakChain first fuel n x).enable = x.enable
  | 0, _, _ => ⟨rfl, rfl⟩
  | fuel + 1, n, x => by
    unfold Exchange.breakChain
    split
    · exact ⟨rfl, rfl⟩
    · split
      · obtain ⟨hs, he⟩ := Exchange.breakChain_flags first fuel _ ((x.writeResult _ .done ResultCode.chainBroken.code 0
          [BitVec.ofNat 8 first]).raise .slipDone)
        obtain ⟨hs', he'⟩ := Exchange.writeResult_flags .done ResultCode.chainBroken.code 0 [BitVec.ofNat 8 first] _ x
        refine ⟨hs.trans ?_, he.trans ((Exchange.raise_enable _ _).trans he')⟩
        rw [Exchange.raise_summary, hs', BitVec.or_assoc, BitVec.or_self]
      · exact ⟨rfl, rfl⟩

/-- A completion raises SLIP_DONE (R170). -/
theorem Exchange.complete_raised (n : Nat) (r : SlipResult) (x : Exchange) :
    x.raised Cause.slipDone.bit (x.complete n r) := by
  obtain ⟨hs, he⟩ := Exchange.writeResult_flags .done r.code.code r.detail r.payload n x
  rw [Exchange.complete_eq]
  unfold Exchange.raised
  rw [Exchange.raise_summary, Exchange.raise_enable]
  split
  · obtain ⟨hs', he'⟩ := Exchange.followLink_flags n (x.resulted n r)
    exact ⟨by rw [hs']; exact congrArg (· ||| _) hs, he'.trans he⟩
  · obtain ⟨hs', he'⟩ := Exchange.breakChain_flags n 16 n (x.resulted n r)
    exact ⟨hs'.trans (congrArg (· ||| _) hs), he'.trans he⟩

end complete

end Sys2Proof.Machine
end

