-- ==== Sys2Proof/Proofs/SlipTaken.lean ====
section
/-!
SUPPORT. The take of a slip (R164, R167, R168): the arbiter's choice, the frame that posts a slip to an idle engine, and the
pictures `slipDone` and `slipTaken` that the statements on the slip kinds share.
-/

namespace Sys2Proof.Machine

/-! ### The arbiter's choice (R167) -/

/-- One round of the arbiter: a candidate of a higher rank is better. -/
def betterOf (rank : Fin 16 → Nat) (best : Option (Fin 16)) (n : Fin 16) : Option (Fin 16) :=
  match best with
  | none => some n
  | some b => if rank b < rank n then some n else some b

/-- The first of the highest rank stands at the end. -/
theorem foldl_betterOf {rank : Fin 16 → Nat} {n : Fin 16} {before behind : List (Fin 16)}
    (hbefore : ∀ k ∈ before, rank k < rank n) (hbehind : ∀ k ∈ behind, rank k ≤ rank n) :
    (before ++ n :: behind).foldl (betterOf rank) none = some n := by
  have hbelow : ∀ (l : List (Fin 16)) (best : Option (Fin 16)), (∀ k ∈ l, rank k < rank n) →
      (∀ b, best = some b → rank b < rank n) → ∀ b, l.foldl (betterOf rank) best = some b → rank b < rank n := by
    intro l
    induction l with
    | nil => exact fun best _ hbest => hbest
    | cons a l ih =>
      intro best hl hbest
      rw [List.foldl_cons]
      refine ih _ (fun k hk => hl k (List.mem_cons_of_mem _ hk)) fun b hb => ?_
      have ha := hl a List.mem_cons_self
      unfold betterOf at hb
      split at hb
      · exact Option.some.inj hb ▸ ha
      · split at hb
        · exact Option.some.inj hb ▸ ha
        · exact Option.some.inj hb ▸ hbest _ rfl
  have hstays : ∀ l : List (Fin 16), (∀ k ∈ l, rank k ≤ rank n) → l.foldl (betterOf rank) (some n) = some n := by
    intro l
    induction l with
    | nil => exact fun _ => rfl
    | cons a l ih =>
      intro hl
      have ha := hl a List.mem_cons_self
      have hstep : betterOf rank (some n) a = some n := if_neg (by omega)
      rw [List.foldl_cons, hstep]
      exact ih fun k hk => hl k (List.mem_cons_of_mem _ hk)
  rw [List.foldl_append, List.foldl_cons]
  have hn : betterOf rank (before.foldl (betterOf rank) none) n = some n := by
    cases hbest : before.foldl (betterOf rank) none with
    | none => rfl
    | some b => exact if_pos (hbelow before none hbefore (by simp) b hbest)
  rw [hn]
  exact hstays behind hbehind

/-- The place of slot `k` in the order in which the arbiter meets the slots (R167). -/
def Engine.place (e : Engine) (k : Fin 16) : Nat := (k.val + 15 - e.lastServed.val) % 16

theorem Engine.searchOrder_sorted (e : Engine) : e.searchOrder.Pairwise fun a b => e.place a < e.place b := by
  have hall : ∀ last : Fin 16, ((List.finRange 16).map fun i => last + 1 + i).Pairwise
      fun a b => (a.val + 15 - last.val) % 16 < (b.val + 15 - last.val) % 16 := by decide +kernel
  exact hall e.lastServed

theorem Engine.mem_searchOrder (e : Engine) (n : Fin 16) : n ∈ e.searchOrder := by
  have hall : ∀ last n : Fin 16, n ∈ (List.finRange 16).map fun i => last + 1 + i := by decide +kernel
  exact hall e.lastServed n

/-- The arbiter takes a slot that comes first among those delivered (R167). -/
theorem State.choose_of_first {s : State} {undelivered : List (Fin 16)} {n : Fin 16}
    (hn : s.xmem.ownerIs n.val .posted = true) (hdelivered : n ∉ undelivered)
    (hfirst : ∀ k : Fin 16, s.xmem.ownerIs k.val .posted = true → k ∉ undelivered →
      s.xmem.priority k.val < s.xmem.priority n.val ∨
        (s.xmem.priority k.val = s.xmem.priority n.val ∧ s.engine.place n ≤ s.engine.place k)) :
    s.choose undelivered = some n := by
  have hchoose : s.choose undelivered =
      (s.engine.searchOrder.filter fun n => s.xmem.ownerIs n.val .posted && !undelivered.contains n).foldl
        (betterOf fun k => s.xmem.priority k.val) none := rfl
  have hmem : n ∈ s.engine.searchOrder.filter fun n => s.xmem.ownerIs n.val .posted && !undelivered.contains n := by
    rw [List.mem_filter]
    exact ⟨s.engine.mem_searchOrder n, by simp [hn, hdelivered]⟩
  have hposted (k : Fin 16)
      (hk : k ∈ s.engine.searchOrder.filter fun n => s.xmem.ownerIs n.val .posted && !undelivered.contains n) :
      s.xmem.ownerIs k.val .posted = true ∧ k ∉ undelivered := by
    have := (List.mem_filter.mp hk).2
    simpa using this
  have hsorted := s.engine.searchOrder_sorted.filter fun n => s.xmem.ownerIs n.val .posted && !undelivered.contains n
  rw [hchoose]
  obtain ⟨before, behind, hsplit⟩ := List.append_of_mem hmem
  rw [hsplit] at hposted hsorted ⊢
  refine foldl_betterOf (fun k hk => ?_) fun k hk => ?_
  · obtain ⟨hp, hd⟩ := hposted k (by simp [hk])
    have hlt : s.engine.place k < s.engine.place n := (List.pairwise_append.mp hsorted).2.2 k hk n List.mem_cons_self
    exact (hfirst k hp hd).resolve_right fun h => by omega
  · obtain ⟨hp, hd⟩ := hposted k (by simp [hk])
    obtain h | h := hfirst k hp hd <;> omega

/-! ### The frame that posts a slip (R155, R164) -/

theorem startAddress_slot : ∀ n : Fin 16,
    startAddress (BitVec.ofNat 8 (slotAddr n.val / 256)) (BitVec.ofNat 8 (slotAddr n.val)) = slotAddr n.val := by decide

/-- The state in which a frame of the host has landed `data` from the owner byte of slot `n` on. -/
def State.slotLanded (n : Fin 16) (data : List Byte) (s : State) : State :=
  s.landed (BitVec.ofNat 8 (slotAddr n.val / 256)) (BitVec.ofNat 8 (slotAddr n.val)) data

@[simp] theorem State.slotLanded_frame (n : Fin 16) (data : List Byte) (s : State) :
    (s.slotLanded n data).time = s.time ∧ (s.slotLanded n data).sense = s.sense ∧
      (s.slotLanded n data).climate = s.climate ∧ (s.slotLanded n data).air = s.air ∧
      (s.slotLanded n data).rail = s.rail ∧ (s.slotLanded n data).mon = s.mon ∧
      (s.slotLanded n data).keypad = s.keypad ∧ (s.slotLanded n data).engine = s.engine ∧
      (s.slotLanded n data).store = s.store ∧ (s.slotLanded n data).supplyLow = s.supplyLow ∧
      (s.slotLanded n data).fresh = s.fresh ∧ (s.slotLanded n data).pending = s.pending :=
  State.landed_frame _ _ _ _

section post
variable {s : State} {p : Image} {n : Fin 16} {data : List Byte}

theorem State.slotLanded_wrote (hwf : s.xmem.wf = true) (hlength : data.length ≤ 64) :
    Exchange.HostWrote (slotAddr n.val) data s.xmem (s.slotLanded n data).xmem :=
  State.landed_wrote (startAddress_slot n) hwf (by have := n.isLt; unfold slotAddr memorySize; omega)

/-- The bytes of other slots stand. -/
theorem Exchange.HostWrote.otherSlot {x y : Exchange} (h : Exchange.HostWrote (slotAddr n.val) data x y)
    (hlength : data.length ≤ 64) {k i : Nat} (hk : k < 16) (hne : k ≠ n.val) (hi : i < 64) :
    y.peek (slotAddr k + i) = x.peek (slotAddr k + i) :=
  h.kept (slotByte_lt hk hi) (by unfold slotAddr; omega)

theorem State.takesNow_iff : s.takesNow n = true ↔
    s.store.active.isSome = true ∧ s.xmem.ready = true ∧ s.engine.served = false ∧
      (s.xmem.ownerIs n.val .free = true ∨ s.xmem.ownerIs n.val .done = true) ∧
      ∀ m : Fin 16, m ≠ n → s.xmem.ownerIs m.val .posted = false := by
  simp only [State.takesNow, Bool.and_eq_true, Bool.not_eq_true', Bool.or_eq_true, List.all_eq_true, List.mem_finRange,
    true_imp_iff, beq_iff_eq, and_assoc]
  refine and_congr_right fun _ => and_congr_right fun _ => and_congr_right fun _ => and_congr_right fun _ =>
    forall_congr' fun m => ?_
  by_cases hm : m = n <;> simp [hm]

/-- The bytes of a slot that the host offers are its own while the slot is FREE or DONE (R156). -/
theorem State.slot_guard (hfree : s.xmem.ownerIs n.val .free = true ∨ s.xmem.ownerIs n.val .done = true)
    (hhead : data.getD 0 0 = 1) (hlength : data.length ≤ 64) {held : Bool} {c : Host.Cell}
    (hc : c ∈ cellsAt (slotAddr n.val) data) : s.xmem.guard held c = true := by
  obtain ⟨hlow, hhigh, hbyte⟩ := cellsAt_mem hc
  have hn := n.isLt
  have hlow' : 0x100 + 64 * n.val ≤ c.1 := hlow
  have hhigh' : c.1 < 0x100 + 64 * n.val + 64 := Nat.lt_of_lt_of_le hhigh (by unfold slotAddr; omega)
  have haction : headerAction c.1 = false := by
    simp [headerAction]
    omega
  have hslot : (c.1 - 0x100) / 64 = n.val := by omega
  unfold Exchange.guard
  rw [haction, if_neg (by simp), if_pos ⟨by omega, by omega⟩]
  dsimp only
  split
  · rename_i hzero
    have haddr : c.1 = slotAddr n.val := by unfold slotAddr; omega
    have hone : c.2 = 1 := by rw [hbyte, haddr, Nat.sub_self, hhead]
    rw [haddr, hone]
    unfold Exchange.ownerIs at hfree
    obtain h | h := hfree
    · rw [beq_iff_eq.mp h]
      decide
    · rw [beq_iff_eq.mp h]
      decide
  · rw [hslot]
    obtain h | h := hfree <;> simp [h]

/-- A frame that lies in one slot touches its owner byte at most. -/
theorem touched_slot (hlength : data.length ≤ 64) (hne : data ≠ []) (m : Fin 16) :
    touched (cellsAt (slotAddr n.val) data) (slotAddr m.val) (slotAddr m.val) = decide (m = n) := by
  have hpos : 0 < data.length := List.length_pos_iff.mpr hne
  rw [Bool.eq_iff_iff, touched_cellsAt, decide_eq_true_eq]
  constructor
  · rintro ⟨k, h1, h2, h3, h4⟩
    refine Fin.ext ?_
    unfold slotAddr at h1 h2 h3 h4
    omega
  · rintro rfl
    exact ⟨slotAddr m.val, by omega, by omega, by omega, by omega⟩

theorem foldl_of_one {α β : Type} {f : β → α → β} {b : β} {a : α} {l : List α} (hl : l.Nodup) (ha : a ∈ l)
    (h : ∀ c ∈ l, c ≠ a → ∀ d, f d c = d) : l.foldl f b = f b a := by
  obtain ⟨before, behind, rfl⟩ := List.append_of_mem ha
  have hnodup := List.nodup_middle.mp hl
  have hnot := (List.nodup_cons.mp hnodup).1
  have hbefore (d : β) : before.foldl f d = d :=
    foldl_of_unmoved fun c hc => h c (by simp [hc]) (fun heq => hnot (by simp [← heq, hc])) d
  have hbehind (d : β) : behind.foldl f d = d :=
    foldl_of_unmoved fun c hc => h c (by simp [hc]) (fun heq => hnot (by simp [← heq, hc])) d
  rw [List.foldl_append, List.foldl_cons, hbefore, hbehind]

/-- A frame that lies in one slot delivers that slot's owner byte alone. -/
theorem State.deliverAll_slot (now : SlotCount) (hlength : data.length ≤ 64) (hne : data ≠ []) (u : State) :
    u.deliverAll now p (cellsAt (slotAddr n.val) data) = u.deliverOwner [] now p n := by
  have hbelow (lo hi : Nat) (h : hi < 0x100) : touched (cellsAt (slotAddr n.val) data) lo hi = false :=
    untouched_cellsAt (.inl (by unfold slotAddr; omega))
  have hwords : u.deliverWords now (cellsAt (slotAddr n.val) data) = u := by
    simp [State.deliverWords, hbelow]
  have hafter : ownersAfter (cellsAt (slotAddr n.val) data) n = [] := by
    refine List.filter_eq_nil_iff.mpr fun m _ => ?_
    rw [touched_slot hlength hne]
    simp only [Bool.and_eq_true, decide_eq_true_eq, not_and]
    exact fun hlt heq => absurd heq (Fin.ne_of_gt hlt)
  rw [State.deliverAll_eq, hwords, foldl_of_one (a := n) (List.nodup_finRange 16) (List.mem_finRange n)]
  · rw [State.deliverTouched, touched_slot hlength hne, hafter]
    simp
  · intro m _ hm d
    rw [State.deliverTouched, touched_slot hlength hne]
    simp [hm]

/-- A slip that is posted to an idle engine is taken in its own frame (R167). -/
theorem State.writeSlot_taken (hwf : s.xmem.wf = true) (hp : s.store.active = some p) (htakes : s.takesNow n = true)
    (hhead : data.getD 0 0 = 1) (hlength : data.length ≤ 64) :
    s.writeFrame (BitVec.ofNat 8 (slotAddr n.val / 256) :: BitVec.ofNat 8 (slotAddr n.val) :: data) =
      (s.slotLanded n data).takeSlip s.time.slotCount p n := by
  obtain ⟨_, hready, hserved, hfree, hothers⟩ := State.takesNow_iff.mp htakes
  have hne : data ≠ [] := fun h => by rw [h] at hhead; exact absurd hhead (by decide)
  have hpos : 0 < data.length := List.length_pos_iff.mpr hne
  have hwrote := State.slotLanded_wrote (n := n) hwf hlength
  have hstart := startAddress_slot n
  have hin : startAddress (BitVec.ofNat 8 (slotAddr n.val / 256)) (BitVec.ofNat 8 (slotAddr n.val)) + data.length ≤
      memorySize := by
    rw [hstart]
    have := n.isLt
    unfold slotAddr memorySize
    omega
  rw [State.writeFrame_accepted hwf hp hready hin hne fun c hc => by
    rw [hstart] at hc
    exact State.slot_guard hfree hhead hlength hc, hstart, State.deliverAll_slot _ hlength hne]
  show (s.slotLanded n data).deliverOwner [] s.time.slotCount p n = _
  have hposted : (s.slotLanded n data).xmem.ownerIs n.val .posted = true := by
    have hzero := hwrote.peek (slotAddr n.val) (slotAddr_lt n.isLt)
    rw [if_pos ⟨le_refl _, by omega⟩, Nat.sub_self, hhead] at hzero
    unfold Exchange.ownerIs
    rw [hzero]
    decide
  have honly (k : Fin 16) (hk : (s.slotLanded n data).xmem.ownerIs k.val .posted = true) : k = n := by
    by_contra hkn
    have hstands := hwrote.otherSlot hlength k.isLt (fun h => hkn (Fin.ext h)) (i := 0) (by omega)
    have hnot := hothers k hkn
    unfold Exchange.ownerIs at hk hnot
    rw [show (s.slotLanded n data).xmem.peek (slotAddr k.val) = s.xmem.peek (slotAddr k.val) from hstands, hnot] at hk
    cases hk
  have hchoose : (s.slotLanded n data).choose [] = some n :=
    State.choose_of_first hposted (by simp) fun k hk _ => by rw [honly k hk]; exact .inr ⟨rfl, le_refl _⟩
  have hserved' : (s.slotLanded n data).engine.served = false := by simpa using hserved
  unfold State.deliverOwner State.arbitrateAmong
  rw [if_pos hposted, hserved', if_neg (by simp), hchoose]

/-! ### The pictures of a taken slip -/

/-- A completion at the end of the frame that posted the slip (R168, R170). -/
theorem Exchange.slipDone_of {x y z : Exchange} {rs : List (Nat × Nat)} {causes : BitVec 12}
    (hwrote : Exchange.HostWrote (slotAddr n.val) data x y) (hlength : data.length = 32) (hw : y.writes rs z)
    (hraised : y.raised causes z) (hrs : ∀ a, 0x100 ≤ a → a < 0x500 → outside rs a = true) (r : SlipResult) :
    x.slipDone n data r rs causes (z.complete n.val r) := by
  have hz := hw hwrote.wf
  have hn := n.isLt
  have hslot (k i : Nat) (hk : k < 16) (hi : i < 64) : z.peek (slotAddr k + i) = y.peek (slotAddr k + i) :=
    hz.kept _ (slotByte_lt hk hi) (hrs _ (by unfold slotAddr; omega) (by unfold slotAddr; omega))
  have hbody : z.shows (slotAddr n.val) data := fun i hi =>
    (hslot n.val i hn (by omega)).trans (hwrote.shows (by unfold slotAddr memorySize; omega) i hi)
  have hcompleted := Exchange.complete_completed hz.wf hbody hlength r
  have hc := (Exchange.complete_writes hn r z) hz.wf
  obtain ⟨hsummary, henable⟩ := Exchange.complete_raised n.val r z
  refine ⟨Exchange.slotCompleted_congr (fun k hk hne i hi => ?_) hcompleted, ?_, ?_, ?_, ?_, ?_, ?_, ?_, fun a ha ho => ?_⟩
  · exact (hslot k i hk hi).trans (hwrote.otherSlot (by omega) hk hne hi)
  · rw [hc.ready, hz.ready, hwrote.ready]
  · rw [hc.refused, hz.refused, hwrote.refused]
  · rw [hc.range, hz.range, hwrote.range]
  · rw [henable, hraised.2, hwrote.enable]
  · rw [hsummary, hraised.1, hwrote.summary, BitVec.or_assoc, BitVec.or_assoc, BitVec.or_comm causes]
  · rw [hc.covered, hz.covered, hwrote.covered]
  · exact hc.holdsNone (hz.covered.trans hwrote.covered) (hz.holdsNone hwrote.covered hwrote.held)
  · obtain ⟨hlow, ho⟩ := outside_cons.mp ho
    obtain ⟨htable, ho⟩ := outside_cons.mp ho
    have htable' : outside slipTableBytes a = true := by
      simp only [slipTableBytes, outside_cons, outside_nil, and_true]
      exact ⟨hlow, htable⟩
    rw [hc.kept a ha htable', hz.kept a ha ho, hwrote.kept ha (by unfold slotAddr; omega)]

/-- A slip accepted at the end of the frame that posted it (R169). -/
theorem Exchange.slipTaken_of {x y : Exchange} (hwrote : Exchange.HostWrote (slotAddr n.val) data x y)
    (hlength : data.length = 32) : x.slipTaken n data (y.writeResult n.val .taken 0 0 []) := by
  have hn := n.isLt
  have hbody : y.shows (slotAddr n.val) data := hwrote.shows (by unfold slotAddr memorySize; omega)
  have hbytes : ∀ i < 64, (y.writeResult n.val .taken 0 0 []).peek (slotAddr n.val + i) =
      resultByte .taken 0 0 [] (data.getD i 0) i := fun i hi => by
    rw [Exchange.peek_writeResult _ _ _ _ hwrote.wf hn hi]
    exact resultByte_congr fun hlow => hbody i (by omega)
  obtain ⟨hslot, hpayload⟩ := Exchange.shows_result hlength hbytes
  refine ⟨hslot, hpayload, hwrote.frameWrote (Exchange.writeResult_writes _ _ _ _ y) ?_ ?_⟩
  · obtain ⟨hs, he⟩ := Exchange.writeResult_flags .taken 0 0 [] n.val y
    exact ⟨hs.trans BitVec.or_zero.symm, he⟩
  · simp [rangeWithin, hlength]

end post

end Sys2Proof.Machine
end

