-- ==== Sys2Proof/Proofs/SlipKinds.lean ====
section
/-!
The statements on the slips that complete in their take: SET ZONE TARGET, SET FAN FLOOR, REQUEST STOP, SET WATCHDOG and READ
PROFILE (R168), and on those that a block accepts: PROBE AIRFLOW, RESET FILTER REFERENCE and COMMIT PROFILE (R169).
-/

namespace Sys2Proof.Machine

/-! ### The slip as the host posts it (section 10.4) -/

/-- The state in which the engine has taken the slip that a frame has posted, its work not done yet (R167). -/
def State.slipOffered (h : SlipHead) (kind : Byte) (params : List Byte) (s : State) : State :=
  (s.slotLanded h.slot (slipBody h kind params)).mapEngine (Engine.afterTake h.slot)

theorem slipBody_length (h : SlipHead) (kind : Byte) (params : List Byte) : (slipBody h kind params).length = 32 := by
  simp [slipBody, paramBytes, le16]

section offered
variable {s : State} {p : Image} {h : SlipHead} {kind : Byte} {params : List Byte}

@[simp] theorem State.slipOffered_frame :
    (s.slipOffered h kind params).time = s.time ∧ (s.slipOffered h kind params).sense = s.sense ∧
      (s.slipOffered h kind params).climate = s.climate ∧ (s.slipOffered h kind params).air = s.air ∧
      (s.slipOffered h kind params).rail = s.rail ∧ (s.slipOffered h kind params).mon = s.mon ∧
      (s.slipOffered h kind params).keypad = s.keypad ∧
      (s.slipOffered h kind params).engine = s.engine.afterTake h.slot ∧
      (s.slipOffered h kind params).store = s.store ∧ (s.slipOffered h kind params).supplyLow = s.supplyLow ∧
      (s.slipOffered h kind params).fresh = s.fresh ∧ (s.slipOffered h kind params).pending = s.pending := by
  simp [State.slipOffered]

/-- A slip that the engine takes at once is that slip's work (R155, R164, R167). -/
theorem State.post_taken (hwf : s.xmem.wf = true) (htakes : s.takesNow h.slot = true) (hp : s.store.active = some p) :
    s.post h kind params = (s.slipOffered h kind params).runSlip s.time.slotCount p h.slot :=
  State.writeSlot_taken hwf hp htakes rfl (by rw [slipBody_length]; omega)

theorem State.slipOffered_wrote (hwf : s.xmem.wf = true) :
    Exchange.HostWrote (slotAddr h.slot.val) (slipBody h kind params) s.xmem (s.slipOffered h kind params).xmem :=
  State.slotLanded_wrote hwf (by rw [slipBody_length]; omega)

/-- Byte `i` of the posted slot, as the part reads it. -/
theorem State.slipOffered_peek (hwf : s.xmem.wf = true) {i : Nat} (hi : i < 32) :
    (s.slipOffered h kind params).xmem.peek (slotAddr h.slot.val + i) = (slipBody h kind params).getD i 0 := by
  have hn := h.slot.isLt
  exact (State.slipOffered_wrote hwf).shows (by rw [slipBody_length]; unfold slotAddr memorySize; omega) i
    (by rw [slipBody_length]; exact hi)

theorem State.slipOffered_kind (hwf : s.xmem.wf = true) :
    (s.slipOffered h kind params).xmem.peek (slotAddr h.slot.val + 1) = kind :=
  State.slipOffered_peek hwf (by omega)

theorem State.slipOffered_param (hwf : s.xmem.wf = true) {i : Nat} (hi : i < 24) :
    (s.slipOffered h kind params).xmem.param h.slot.val i = ((paramBytes params).getD i 0).toNat := by
  unfold Exchange.param
  rw [Nat.add_assoc, State.slipOffered_peek hwf (by omega)]
  have hsplit : slipBody h kind params =
      ([Owner.posted.code, kind, h.priority, h.next] ++ le16 h.tag.toNat ++ [0, 0]) ++ paramBytes params := rfl
  rw [hsplit, List.getD_append_right _ _ _ _ (by simp [le16])]
  congr 2
  simp [le16]

theorem le16_value (n : Nat) : (BitVec.ofNat 8 n).toNat + 256 * (BitVec.ofNat 8 (n / 256)).toNat = n % 65536 := by
  simp only [BitVec.toNat_ofNat]
  omega

theorem signed16_toNat (v : Half) : signed16 v.toNat = v.toInt := by
  have hv := v.isLt
  unfold signed16
  rw [BitVec.toInt_eq_toNat_cond]
  split <;> split <;> omega

end offered

/-! ### The work by kind (R168) -/

section kinds
variable {u : State} {n : Fin 16} (now : SlotCount) (p : Image)

theorem State.runSlip_zoneTarget (h : u.xmem.peek (slotAddr n.val + 1) = 1) :
    u.runSlip now p n =
      State.immediate n (u.zoneTargetSlip (u.xmem.param n 0) (u.xmem.param n 1) (signed16 (u.xmem.param16 n 2))) := by
  simp only [State.runSlip, h]
  rfl

theorem State.runSlip_fanFloor (h : u.xmem.peek (slotAddr n.val + 1) = 2) :
    u.runSlip now p n = State.immediate n (u.fanFloorSlip (u.xmem.param n 0) (u.xmem.param n 1)) := by
  simp only [State.runSlip, h]
  rfl

theorem State.runSlip_probeAirflow (h : u.xmem.peek (slotAddr n.val + 1) = 3) :
    u.runSlip now p n = State.lasting .air n (u.probeSlip .probeAirflow) := by
  simp only [State.runSlip, h]
  rfl

theorem State.runSlip_resetReference (h : u.xmem.peek (slotAddr n.val + 1) = 4) :
    u.runSlip now p n = State.lasting .air n (u.probeSlip .resetFilterReference) := by
  simp only [State.runSlip, h]
  rfl

theorem State.runSlip_stop (h : u.xmem.peek (slotAddr n.val + 1) = 5) :
    u.runSlip now p n =
      State.immediate n (u.stopSlip now p (u.xmem.param16 n 0 + 65536 * u.xmem.param16 n 2)) := by
  simp only [State.runSlip, h]
  rfl

theorem State.runSlip_restart (h : u.xmem.peek (slotAddr n.val + 1) = 6) :
    u.runSlip now p n =
      (u.mapX (Exchange.complete n.val (restartResult u.rail.state (u.xmem.param n 0)))).restartHost now p
        (u.xmem.param n 0) := by
  simp only [State.runSlip, h]
  rfl

theorem State.runSlip_watchdog (h : u.xmem.peek (slotAddr n.val + 1) = 7) :
    u.runSlip now p n =
      State.immediate n (u.watchdogSlip now p (u.xmem.param n 0)
        { s1 := u.xmem.param16 n 2, s2 := u.xmem.param16 n 4, early := u.xmem.param16 n 6 }) := by
  simp only [State.runSlip, h]
  rfl

theorem State.runSlip_rebaseline (h : u.xmem.peek (slotAddr n.val + 1) = 8) :
    u.runSlip now p n =
      State.lasting .keypad n
        (u.rebaselineSlip now p (BitVec.ofNat 24 (u.xmem.param16 n 0 + 65536 * u.xmem.param n 2))) := by
  simp only [State.runSlip, h]
  rfl

theorem State.runSlip_readProfile (h : u.xmem.peek (slotAddr n.val + 1) = 9) :
    u.runSlip now p n = State.immediate n (u.readProfileSlip p) := by
  simp only [State.runSlip, h]
  rfl

theorem State.runSlip_commit (h : u.xmem.peek (slotAddr n.val + 1) = 10) :
    u.runSlip now p n = State.lasting .store n (u.commitSlip now) := by
  simp only [State.runSlip, h]
  rfl

theorem State.runSlip_unknown (h : (u.xmem.peek (slotAddr n.val + 1)).toNat = 0 ∨
    10 < (u.xmem.peek (slotAddr n.val + 1)).toNat) :
    u.runSlip now p n = State.immediate n (u, SlipResult.only .unknownKind) := by
  unfold State.runSlip
  dsimp only
  split
  any_goals omega
  rfl

theorem State.immediate_xmem (a : State × SlipResult) :
    (State.immediate n a).xmem = a.1.xmem.complete n.val a.2 := rfl

end kinds

/-! ### SET ZONE TARGET and SET FAN FLOOR (R20, R51) -/

section host
variable {u : State}

theorem tab_self {α : Type} {n : Nat} (v : Vector α n) : (tab n fun i => v[i]) = v := by
  apply Vector.ext
  intro i hi
  rw [tab_getElem]
  rfl

/-- SET ZONE TARGET sets the override of the zone named, or removes it. -/
theorem State.zoneTargetSlip_climate (zone action : Nat) (sp : Int) :
    (u.zoneTargetSlip zone action sp).1.climate =
      { u.climate with
        zones := tab 3 fun z =>
          if z.val = zone ∧ (action = 1 ∨ action = 2) then
            { u.climate.zones[z] with override := if action = 1 then some (clampInt (-400) 600 sp) else none }
          else u.climate.zones[z] } := by
  have hset (z : Fin 3) (o : Option Int) : (u.setOverride z o).climate =
      { u.climate with
        zones := tab 3 fun y => if y.val = z.val then { u.climate.zones[y] with override := o } else u.climate.zones[y] } := by
    unfold State.setOverride
    rw [State.mapClimate_climate]
    congr 1
    apply Vector.ext
    intro i hi
    rw [Vector.getElem_set, tab_getElem]
    by_cases hz : z.val = i
    · subst hz
      simp
    · simp [hz, Ne.symm hz]
  have hsame : u.climate = { u.climate with zones := tab 3 fun z => u.climate.zones[z] } := by
    rw [tab_self]
  unfold State.zoneTargetSlip
  by_cases hz : zone < 3
  · rw [dif_pos hz]
    by_cases h1 : action = 1
    · simp only [h1, if_true, hset, true_or, and_true]
    · by_cases h2 : action = 2
      · simp only [h2, if_true, hset, or_true, and_true, show ¬(2 : Nat) = 1 by decide, if_false]
      · simp only [h1, h2, if_false, or_self, and_false]
        exact hsame
  · rw [dif_neg hz]
    have hne (z : Fin 3) : ¬(z.val = zone ∧ (action = 1 ∨ action = 2)) := fun h => hz (h.1 ▸ z.isLt)
    simp only [hne, if_false]
    exact hsame

/-- What SET ZONE TARGET answers. -/
theorem State.zoneTargetSlip_result (zone action : Nat) (sp : Int) :
    (u.zoneTargetSlip zone action sp).2 =
      if zone < 3 ∧ action = 1 then
        { code := .ok, detail := clampedDetail (clampInt (-400) 600 sp != sp), payload := [] }
      else if zone < 3 ∧ action = 2 then SlipResult.ok else SlipResult.only .badParam := by
  unfold State.zoneTargetSlip
  by_cases hz : zone < 3
  · by_cases h1 : action = 1
    · simp [hz, h1, SlipResult.ok]
    · by_cases h2 : action = 2 <;> simp [hz, h1, h2]
  · simp [hz]

theorem clampInt_eq (sp : Int) : clampInt (-400) 600 sp = max (-400) (min 600 sp) := by
  unfold clampInt
  split <;> [skip; split] <;> omega

theorem clamped_iff (sp : Int) : clampedDetail (clampInt (-400) 600 sp != sp) = if -400 ≤ sp ∧ sp ≤ 600 then 0 else 1 := by
  have hiff : (clampInt (-400) 600 sp != sp) = !decide (-400 ≤ sp ∧ sp ≤ 600) := by
    rw [Bool.eq_iff_iff]
    simp only [bne_iff_ne, Bool.not_eq_true', decide_eq_false_iff_not, clampInt_eq]
    omega
  rw [hiff, clampedDetail]
  by_cases h : -400 ≤ sp ∧ sp ≤ 600 <;> simp [h]

/-- SET FAN FLOOR sets the floor of the fan named, or removes it. -/
theorem State.fanFloorSlip_air (fan floor : Nat) :
    (u.fanFloorSlip fan floor).1.air =
      { u.air with
        fans := tab 2 fun f =>
          if f.val = fan then { u.air.fans[f] with floor := if floor = 0 then none else some (min 100 floor) }
          else u.air.fans[f] } := by
  unfold State.fanFloorSlip
  by_cases hf : fan < 2
  · rw [dif_pos hf]
    dsimp only
    rw [State.mapAir_air]
    congr 1
    apply Vector.ext
    intro i hi
    rw [Vector.getElem_set, tab_getElem]
    by_cases heq : fan = i
    · subst heq
      simp
    · simp [heq, Ne.symm heq]
  · rw [dif_neg hf]
    have hne (f : Fin 2) : ¬f.val = fan := fun h => hf (h ▸ f.isLt)
    simp only [hne, if_false, tab_self]

/-- What SET FAN FLOOR answers. -/
theorem State.fanFloorSlip_result (fan floor : Nat) :
    (u.fanFloorSlip fan floor).2 =
      if fan < 2 then { code := .ok, detail := if floor ≤ 100 then 0 else 1, payload := [] }
      else SlipResult.only .badParam := by
  unfold State.fanFloorSlip
  by_cases hf : fan < 2
  · by_cases h : floor ≤ 100
    · simp [hf, h, SlipResult.ok, clampedDetail]
    · simp [hf, h, SlipResult.ok, clampedDetail, Nat.lt_of_not_le h]
  · simp [hf]

end host

end Sys2Proof.Machine

namespace Sys2Proof.Proofs

open Sys2Proof.Machine

theorem byte_eq_iff {b c : Byte} : b.toNat = c.toNat ↔ b = c := BitVec.toNat_inj

/-- SET ZONE TARGET taken at once (R20). -/
theorem setZoneTarget_taken {s : State} {p : Image} {h : SlipHead} (zone action : Byte) (setpoint : Half)
    (hwf : s.xmem.wf = true) (htakes : s.takesNow h.slot = true) (hp : s.store.active = some p) :
    let v := s.slipOffered h 1 (zone :: action :: le16 setpoint.toNat)
    exec (.setZoneTarget h zone action setpoint) s =
      .next (State.immediate h.slot (v.zoneTargetSlip zone.toNat action.toNat setpoint.toInt)) := by
  intro v
  refine congrArg Host.Outcome.next ((State.post_taken hwf htakes hp).trans ?_)
  rw [State.runSlip_zoneTarget _ _ (State.slipOffered_kind hwf)]
  have hz : v.xmem.param h.slot.val 0 = zone.toNat := State.slipOffered_param hwf (by omega)
  have ha : v.xmem.param h.slot.val 1 = action.toNat := State.slipOffered_param hwf (by omega)
  have hsp : v.xmem.param16 h.slot.val 2 = setpoint.toNat := by
    unfold Exchange.param16
    rw [State.slipOffered_param hwf (by omega), State.slipOffered_param hwf (by omega)]
    exact (le16_value _).trans (Nat.mod_eq_of_lt setpoint.isLt)
  rw [hz, ha, hsp, signed16_toNat]

/-- SET FAN FLOOR taken at once (R51). -/
theorem setFanFloor_taken {s : State} {p : Image} {h : SlipHead} (fan floor : Byte)
    (hwf : s.xmem.wf = true) (htakes : s.takesNow h.slot = true) (hp : s.store.active = some p) :
    let v := s.slipOffered h 2 [fan, floor]
    exec (.setFanFloor h fan floor) s =
      .next (State.immediate h.slot (v.fanFloorSlip fan.toNat floor.toNat)) := by
  intro v
  refine congrArg Host.Outcome.next ((State.post_taken hwf htakes hp).trans ?_)
  rw [State.runSlip_fanFloor _ _ (State.slipOffered_kind hwf)]
  have hf : v.xmem.param h.slot.val 0 = fan.toNat := State.slipOffered_param hwf (by omega)
  have hl : v.xmem.param h.slot.val 1 = floor.toNat := State.slipOffered_param hwf (by omega)
  rw [hf, hl]

/-- A slip whose block leaves the exchange memory to the engine (R168). -/
theorem slipDone_of_unmoved {s : State} {h : SlipHead} {kind : Byte} {params : List Byte} {x : Exchange}
    (hwf : s.xmem.wf = true) (hx : x = (s.slipOffered h kind params).xmem) (r : SlipResult) :
    s.xmem.slipDone h.slot (slipBody h kind params) r [] 0 (x.complete h.slot.val r) := by
  subst hx
  exact Exchange.slipDone_of (State.slipOffered_wrote hwf) (slipBody_length h kind params) (Exchange.writes_refl _ _)
    ⟨BitVec.or_zero.symm, rfl⟩ (fun _ _ _ => rfl) r

/-- Settles O44: each slip's parameters reach its block, which answers at once. -/
theorem zoneTargetAndFanFloorSlips : Obligations.ZoneTargetAndFanFloorSlips := by
  intro s p h zone action setpoint fan floor hwf htakes hp
  have h1 : action.toNat = 1 ↔ action = 1 := byte_eq_iff (c := 1)
  have h2 : action.toNat = 2 ↔ action = 2 := byte_eq_iff (c := 2)
  have h0 : floor.toNat = 0 ↔ floor = 0 := byte_eq_iff (c := 0)
  refine ⟨_, setZoneTarget_taken zone action setpoint hwf htakes hp, ⟨?_, ?_⟩, _, setFanFloor_taken fan floor hwf htakes hp,
    ?_, ?_⟩
  · have hzone (z : Fin 3) :
        (if z.val = zone.toNat ∧ (action.toNat = 1 ∨ action.toNat = 2) then
            { s.climate.zones[z] with
              override := if action.toNat = 1 then some (clampInt (-400) 600 setpoint.toInt) else none }
          else s.climate.zones[z]) =
          if z.val = zone.toNat ∧ (decide (zone.toNat < 3 ∧ action = 1) = true ∨ decide (zone.toNat < 3 ∧ action = 2) = true) then
            { s.climate.zones[z] with
              override := if decide (zone.toNat < 3 ∧ action = 1) = true then some (max (-400) (min 600 setpoint.toInt))
                else none }
          else s.climate.zones[z] := by
      have hlt := z.isLt
      simp only [h1, h2, clampInt_eq, decide_eq_true_eq]
      by_cases hz : z.val = zone.toNat
      · simp only [hz, show zone.toNat < 3 by omega, true_and]
      · simp only [hz, false_and]
        rfl
    refine State.ext_blocks ?_ ?_ ?_ ?_ ?_ ?_ ?_ ?_ ?_ ?_ ?_ ?_ ?_
    case refine_3 =>
      have hclimate := State.zoneTargetSlip_climate (u := s.slipOffered h 1 (zone :: action :: le16 setpoint.toNat))
        zone.toNat action.toNat setpoint.toInt
      rw [(State.slipOffered_frame).2.2.1] at hclimate
      refine hclimate.trans ?_
      rw [show (fun z : Fin 3 => _) = _ from funext hzone]
    all_goals simp [State.immediate]
  · have hxmem : (State.immediate h.slot ((s.slipOffered h 1 (zone :: action :: le16 setpoint.toNat)).zoneTargetSlip
        zone.toNat action.toNat setpoint.toInt)).xmem =
        (s.slipOffered h 1 (zone :: action :: le16 setpoint.toNat)).xmem.complete h.slot.val
          ((s.slipOffered h 1 (zone :: action :: le16 setpoint.toNat)).zoneTargetSlip zone.toNat action.toNat
            setpoint.toInt).2 := by
      rw [State.immediate_xmem]
      simp
    rw [hxmem, State.zoneTargetSlip_result]
    simp only [h1, h2, clamped_iff, decide_eq_true_eq]
    exact slipDone_of_unmoved hwf rfl _
  · apply State.ext_blocks <;> simp [State.immediate, State.fanFloorSlip_air, h0]
  · have hxmem : (State.immediate h.slot ((s.slipOffered h 2 [fan, floor]).fanFloorSlip fan.toNat floor.toNat)).xmem =
        (s.slipOffered h 2 [fan, floor]).xmem.complete h.slot.val
          ((s.slipOffered h 2 [fan, floor]).fanFloorSlip fan.toNat floor.toNat).2 := by
      rw [State.immediate_xmem]
      simp
    rw [hxmem, State.fanFloorSlip_result]
    exact slipDone_of_unmoved hwf rfl _

end Sys2Proof.Proofs
end

