-- ==== Sys2Proof/Proofs/SlipsOfRail.lean ====
section
/-!
SUPPORT. The slips of the rail controller and of the liveness monitor that are taken at once: REQUEST STOP (R96) and SET
WATCHDOG (R120).
-/

namespace Sys2Proof.Machine

theorem le32_value (d : BitVec 32) :
    (BitVec.ofNat 8 d.toNat).toNat + 256 * (BitVec.ofNat 8 (d.toNat / 256)).toNat +
        65536 * ((BitVec.ofNat 8 (d.toNat / 65536)).toNat + 256 * (BitVec.ofNat 8 (d.toNat / 16777216)).toNat) =
      d.toNat := by
  have hd := d.isLt
  simp only [BitVec.toNat_ofNat]
  omega

section slips
variable {u v : State} (now : SlotCount) (p : Image)

/-- The remaining seconds shown stand through a completion. -/
theorem State.watchdogShown_completed (hwf : v.xmem.wf = true) (h : v.watchdogShown now) (n : Fin 16) (r : SlipResult) :
    (State.immediate n (v, r)).watchdogShown now :=
  State.watchdogShown_of_writes hwf h (Exchange.complete_writes n.isLt r v.xmem) (by decide) rfl rfl

theorem State.enterStopping_shown (delay : Nat) (hwf : u.xmem.wf = true) :
    (u.enterStopping now p delay).watchdogShown now := by
  have hset := State.setRail_shown now .stopping u hwf
  unfold State.watchdogShown at hset ⊢
  simpa [State.enterStopping] using hset

theorem State.enterStopping_wf (delay : Nat) (hwf : u.xmem.wf = true) : (u.enterStopping now p delay).xmem.wf = true :=
  ((State.setRail_writes now .stopping u) hwf).wf

@[simp] theorem State.enterStopping_flags (delay : Nat) :
    (u.enterStopping now p delay).xmem.summary = u.xmem.summary ∧
      (u.enterStopping now p delay).xmem.enable = u.xmem.enable := by
  simp [State.enterStopping]

/-- The header shows STOPPING. -/
theorem State.enterStopping_header (delay : Nat) (hwf : u.xmem.wf = true) :
    (u.enterStopping now p delay).xmem.peek 0x19 = 4 := by
  have hshown := State.setRail_shown_copy (c := .rail) hwf now .stopping fun h => absurd rfl h
  have hpeek := hshown.byte rfl
  rw [State.setRail_rail] at hpeek
  exact hpeek

@[simp] theorem State.setArmed_enable (b : Bool) : (u.setArmed now p b).xmem.enable = u.xmem.enable := by
  unfold State.setArmed
  dsimp only
  split
  · simp
  · split <;> simp [State.enterDormant]

theorem State.setArmed_shown (b : Bool) (hwf : u.xmem.wf = true) : (u.setArmed now p b).watchdogShown now := by
  unfold State.setArmed
  refine State.publishWatchdog_shown now ?_
  split
  · simpa using hwf
  · split <;> exact hwf

end slips

end Sys2Proof.Machine

namespace Sys2Proof.Proofs

open Sys2Proof.Machine

section taken
variable {s : State} {p : Image} {h : SlipHead}

/-- A slip whose block writes the bytes `rs` before it completes (R168). -/
theorem slipDone_of_block {kind : Byte} {params : List Byte} {v : State} {rs : List (Nat × Nat)} (hwf : s.xmem.wf = true)
    (hw : (s.slipOffered h kind params).xmem.writes rs v.xmem)
    (hflags : v.xmem.summary = (s.slipOffered h kind params).xmem.summary ∧
      v.xmem.enable = (s.slipOffered h kind params).xmem.enable)
    (hrs : ∀ a, 0x100 ≤ a → a < 0x500 → outside rs a = true) (r : SlipResult) :
    s.xmem.slipDone h.slot (slipBody h kind params) r rs 0 (State.immediate h.slot (v, r)).xmem :=
  Exchange.slipDone_of (State.slipOffered_wrote hwf) (slipBody_length h kind params) hw
    ⟨hflags.1.trans BitVec.or_zero.symm, hflags.2⟩ hrs r

/-- REQUEST STOP taken at once (R96). -/
theorem requestStop_taken (delay : BitVec 32) (hwf : s.xmem.wf = true) (htakes : s.takesNow h.slot = true)
    (hp : s.store.active = some p) :
    exec (.requestStop h delay) s =
      .next (State.immediate h.slot
        ((s.slipOffered h 5 (le32 delay.toNat)).stopSlip s.time.slotCount p delay.toNat)) := by
  refine congrArg Host.Outcome.next ((State.post_taken hwf htakes hp).trans ?_)
  rw [State.runSlip_stop _ _ (State.slipOffered_kind hwf)]
  congr 2
  unfold Exchange.param16
  rw [State.slipOffered_param hwf (by omega), State.slipOffered_param hwf (by omega),
    State.slipOffered_param hwf (by omega), State.slipOffered_param hwf (by omega)]
  exact le32_value delay

end taken

/-- Settles O45: in RUNNING the stop begins before the slip completes; elsewhere the answer is NOT_NOW. -/
theorem requestStopBeginsAnOrderlyStop : Obligations.RequestStopBeginsAnOrderlyStop := by
  intro s p h delay hwf htakes hp
  have htaken := requestStop_taken delay hwf htakes hp
  have hframe := State.slipOffered_frame (s := s) (h := h) (kind := 5) (params := le32 delay.toNat)
  have hwfv : (s.slipOffered h 5 (le32 delay.toNat)).xmem.wf = true := (State.slipOffered_wrote hwf).wf
  have hdone (w : State) := slipDone_of_block (h := h) (kind := 5) (params := le32 delay.toNat) (v := w)
    (rs := [(0x19, 2), (0x0B0, 2)]) hwf
  have hidle := slipDone_of_unmoved (h := h) (kind := 5) (params := le32 delay.toNat) hwf rfl (SlipResult.only .notNow)
  generalize s.slipOffered h 5 (le32 delay.toNat) = v at *
  obtain ⟨htime, hsense, hclimate, hair, hrail, hmon, hkeypad, hengine, hstore, hlow, hfresh, hpending⟩ := hframe
  refine ⟨_, htaken, fun hrunning => ?_, fun hrunning => ?_⟩
  · have hslip : v.stopSlip s.time.slotCount p delay.toNat =
        (v.enterStopping s.time.slotCount p (min 86400 delay.toNat),
          { SlipResult.ok with detail := clampedDetail (86400 < delay.toNat) }) := if_pos (by rwa [hrail])
    have hr := State.enterStopping_rail s.time.slotCount p (s := v) (min 86400 delay.toNat)
    have hm := State.enterStopping_mon s.time.slotCount p (s := v) (min 86400 delay.toNat)
    have hwfe := State.enterStopping_wf s.time.slotCount p (min 86400 delay.toNat) hwfv
    have hheader := State.enterStopping_header s.time.slotCount p (min 86400 delay.toNat) hwfv
    have hshown := State.enterStopping_shown s.time.slotCount p (min 86400 delay.toNat) hwfv
    have hflags := State.enterStopping_flags (u := v) s.time.slotCount p (min 86400 delay.toNat)
    have hw := State.enterStopping_writes_of (rs := [(0x19, 2), (0x0B0, 2)]) s.time.slotCount p (min 86400 delay.toNat) v
      (by decide) (by simp [hrail, hrunning])
    have hf := State.enterStopping_frame s.time.slotCount p (min 86400 delay.toNat) v
    have hc : (v.enterStopping s.time.slotCount p (min 86400 delay.toNat)).climate = s.climate := by
      simp [State.enterStopping, State.setRail_climate, hclimate, RailState.removesOverrides]
    rw [hslip]
    generalize v.enterStopping s.time.slotCount p (min 86400 delay.toNat) = w at *
    refine ⟨?_, ?_, ?_, ?_⟩
    · apply State.ext_blocks <;>
        simp [State.immediate, hr, hm, hc, hf, hrail, hmon, htime, hsense, hair, hkeypad, hengine, hstore, hlow, hfresh,
          hpending, hrunning, Monitor.railChanged_eq, leavesRunning, restsAt, seconds]
    · exact ((Exchange.complete_writes h.slot.isLt _ w.xmem hwfe).kept 0x19 (by decide) (by decide)).trans hheader
    · exact State.watchdogShown_completed s.time.slotCount hwfe hshown h.slot _
    · have hdetail : clampedDetail (decide (86400 < delay.toNat)) = if delay.toNat ≤ 86400 then 0 else 1 := by
        by_cases hle : delay.toNat ≤ 86400 <;> simp [clampedDetail, hle, Nat.lt_of_not_le]
      rw [hdetail]
      refine hdone w hw hflags (fun a hlow hhigh => ?_) _
      simp only [outside_cons, outside_nil, and_true]
      omega
  · have hslip : v.stopSlip s.time.slotCount p delay.toNat = (v, SlipResult.only .notNow) := if_neg (by rwa [hrail])
    rw [hslip]
    exact ⟨by apply State.ext_blocks <;> simp [State.immediate, *], hidle⟩

/-- SET WATCHDOG taken at once (R120). -/
theorem setWatchdog_taken {s : State} {p : Image} {h : SlipHead} (mode : Byte) (s1 s2 early : Half)
    (hwf : s.xmem.wf = true) (htakes : s.takesNow h.slot = true) (hp : s.store.active = some p) :
    exec (.setWatchdog h mode s1 s2 early) s =
      .next (State.immediate h.slot
        ((s.slipOffered h 7 (mode :: 0 :: le16 s1.toNat ++ le16 s2.toNat ++ le16 early.toNat)).watchdogSlip
          s.time.slotCount p mode.toNat { s1 := s1.toNat, s2 := s2.toNat, early := early.toNat })) := by
  refine congrArg Host.Outcome.next ((State.post_taken hwf htakes hp).trans ?_)
  rw [State.runSlip_watchdog _ _ (State.slipOffered_kind hwf)]
  have hhalf (v : Half) : (BitVec.ofNat 8 v.toNat).toNat + 256 * (BitVec.ofNat 8 (v.toNat / 256)).toNat = v.toNat :=
    (le16_value _).trans (Nat.mod_eq_of_lt v.isLt)
  have hmode : (s.slipOffered h 7 (mode :: 0 :: le16 s1.toNat ++ le16 s2.toNat ++ le16 early.toNat)).xmem.param h.slot.val 0 =
      mode.toNat := State.slipOffered_param hwf (by omega)
  unfold Exchange.param16
  rw [hmode, State.slipOffered_param hwf (by omega), State.slipOffered_param hwf (by omega),
    State.slipOffered_param hwf (by omega), State.slipOffered_param hwf (by omega),
    State.slipOffered_param hwf (by omega), State.slipOffered_param hwf (by omega)]
  congr 4
  · exact hhalf s1
  · exact hhalf s2
  · exact hhalf early

/-- Settles O47: the mode is judged first; a taken slip clamps the stages and moves the armed flag. -/
theorem watchdogSlipArmsAndDisarms : Obligations.WatchdogSlipArmsAndDisarms := by
  intro s p h mode s1 s2 early hwf htakes hp
  have htaken := setWatchdog_taken mode s1 s2 early hwf htakes hp
  have hframe := State.slipOffered_frame (s := s) (h := h) (kind := 7)
    (params := mode :: 0 :: le16 s1.toNat ++ le16 s2.toNat ++ le16 early.toNat)
  have hwfv := (State.slipOffered_wrote (s := s) (h := h) (kind := 7)
    (params := mode :: 0 :: le16 s1.toNat ++ le16 s2.toNat ++ le16 early.toNat) hwf).wf
  have hdone (w : State) := slipDone_of_block (h := h) (kind := 7)
    (params := mode :: 0 :: le16 s1.toNat ++ le16 s2.toNat ++ le16 early.toNat) (v := w)
    (rs := [(0x1A, 1), (0x0B0, 2)]) hwf
  have hidle := slipDone_of_unmoved (h := h) (kind := 7)
    (params := mode :: 0 :: le16 s1.toNat ++ le16 s2.toNat ++ le16 early.toNat) hwf rfl
  generalize s.slipOffered h 7 (mode :: 0 :: le16 s1.toNat ++ le16 s2.toNat ++ le16 early.toNat) = v at *
  obtain ⟨htime, hsense, hclimate, hair, hrail, hmon, hkeypad, hengine, hstore, hlow, hfresh, hpending⟩ := hframe
  have h1 : mode.toNat = 1 ↔ mode = 1 := byte_eq_iff (c := 1)
  have h2 : mode.toNat = 2 ↔ mode = 2 := byte_eq_iff (c := 2)
  refine ⟨_, htaken, fun htaken => ?_, fun htaken => ?_⟩
  · have hslip : v.watchdogSlip s.time.slotCount p mode.toNat
        { s1 := s1.toNat, s2 := s2.toNat, early := early.toNat } =
        (v, SlipResult.only (if mode = 2 then .locked else .badParam)) := by
      simp only [decide_eq_false_iff_not, not_or, not_and] at htaken
      obtain ⟨hnot, hlocked⟩ := htaken
      unfold State.watchdogSlip
      simp only [ne_eq, h1, h2]
      by_cases hm : mode = 2
      · rw [if_neg fun h => h.2 hm, if_pos ⟨hm, by simp [hlocked hm]⟩, if_pos hm]
      · rw [if_pos ⟨hnot, hm⟩, if_neg hm]
    rw [hslip]
    exact ⟨by apply State.ext_blocks <;> simp [State.immediate, *], hidle _⟩
  · have hvalid : mode = 1 ∨ (mode = 2 ∧ Profile.disarmPermitted p = true) := by simpa using htaken
    have hslip : v.watchdogSlip s.time.slotCount p mode.toNat
        { s1 := s1.toNat, s2 := s2.toNat, early := early.toNat } =
        ((v.mapMon fun m => { m with
            runtimeSet := clampStages { s1 := s1.toNat, s2 := s2.toNat, early := early.toNat } }).setArmed
          s.time.slotCount p (decide (mode = 1)),
        { SlipResult.ok with
          detail := clampedDetail (clampStages { s1 := s1.toNat, s2 := s2.toNat, early := early.toNat } !=
            { s1 := s1.toNat, s2 := s2.toNat, early := early.toNat }) }) := by
      unfold State.watchdogSlip
      simp only [ne_eq, h1, h2]
      rw [if_neg (by tauto), if_neg]
      rintro ⟨hm, hnot⟩
      obtain hone | ⟨_, hperm⟩ := hvalid
      · rw [hm] at hone
        exact absurd hone (by decide)
      · simp [hperm] at hnot
    set v' := v.mapMon fun m => { m with
      runtimeSet := clampStages { s1 := s1.toNat, s2 := s2.toNat, early := early.toNat } } with hv'
    have hm := State.setArmed_mon_eq s.time.slotCount p (decide (mode = 1)) v'
    have harmed : v'.armedAs p (decide (mode = 1)) s.time.slotCount =
        { s.armedAs p (decide (mode = 1)) s.time.slotCount with
          runtimeSet := clampStages { s1 := s1.toNat, s2 := s2.toNat, early := early.toNat } } := by
      unfold State.armedAs
      simp [hv', hmon, hrail, hsense, State.graceNow, State.temp]
    have hframe := State.setArmed_frame s.time.slotCount p (decide (mode = 1)) v'
    have hshown := State.setArmed_shown (u := v') s.time.slotCount p (decide (mode = 1)) hwfv
    have hw := State.setArmed_writes s.time.slotCount p (decide (mode = 1)) v'
    have hflags := (State.setArmed_flags (s := v') s.time.slotCount p (decide (mode = 1)))
    have henable := (State.setArmed_enable (u := v') s.time.slotCount p (decide (mode = 1)))
    rw [hslip]
    generalize v'.setArmed s.time.slotCount p (decide (mode = 1)) = w at *
    have hclamped : clampedDetail (clampStages { s1 := s1.toNat, s2 := s2.toNat, early := early.toNat } !=
          { s1 := s1.toNat, s2 := s2.toNat, early := early.toNat }) =
        if max 1 (min 3600 s1.toNat) = s1.toNat ∧ max 1 (min 600 s2.toNat) = s2.toNat ∧
          min (max 1 (min 3600 s1.toNat) - 1) early.toNat = early.toNat then 0 else 1 := by
      rw [clampedDetail]
      simp only [bne_iff_ne, ne_eq, ite_not, clampStages, StageSet.mk.injEq]
    refine ⟨?_, ?_, State.watchdogShown_completed s.time.slotCount ((hw hwfv).wf) hshown h.slot _⟩
    · rw [harmed] at hm
      apply State.ext_blocks <;> simp [State.immediate, hframe, hm, hv', htime, hsense, hclimate, hair, hrail, hkeypad,
        hengine, hstore, hlow, hfresh, hpending, clampStages]
    · rw [hclamped]
      refine hdone w hw ⟨hflags, henable⟩ (fun a hlow hhigh => ?_) _
      simp only [outside_cons, outside_nil, and_true]
      omega

end Sys2Proof.Proofs
end

