-- ==== Sys2Proof/Proofs/SlipsOfStore.lean ====
section
/-!
SUPPORT. The slips of the air controller that wait for a boundary (R61, R62) and of the store (R178, R179).
-/

namespace Sys2Proof.Machine

theorem State.lasting_atOnce (b : LastingBlock) (n : Fin 16) (v : State) (r : SlipResult) :
    State.lasting b n (v, .atOnce r) = State.immediate n (v, r) := rfl

theorem State.lasting_accepted (b : LastingBlock) (n : Fin 16) (v : State) :
    State.lasting b n (v, .accepted) = v.accept b n := rfl

end Sys2Proof.Machine

namespace Sys2Proof.Proofs

open Sys2Proof.Machine

section offered
variable {s : State} {p : Image} {h : SlipHead} {kind : Byte}

/-- A slip without parameters taken at once. -/
theorem bareSlip_taken (hwf : s.xmem.wf = true) (htakes : s.takesNow h.slot = true) (hp : s.store.active = some p) :
    s.post h kind [] = (s.slipOffered h kind []).runSlip s.time.slotCount p h.slot ∧
      (s.slipOffered h kind []).xmem.peek (slotAddr h.slot.val + 1) = kind :=
  ⟨State.post_taken hwf htakes hp, State.slipOffered_kind hwf⟩

/-- A slip that is answered without an effect: its bytes and the frame of the state. -/
theorem slipAnswered (params : List Byte) (hwf : s.xmem.wf = true) (r : SlipResult) :
    let t := State.immediate h.slot (s.slipOffered h kind params, r)
    t = { s with engine := s.engine.afterTake h.slot, xmem := t.xmem } ∧
      s.xmem.slipDone h.slot (slipBody h kind params) r [] 0 t.xmem :=
  ⟨by apply State.ext_blocks <;> simp [State.immediate], slipDone_of_unmoved hwf rfl r⟩

/-- A slip accepted at the end of the frame that posted it, whose block has left the exchange memory (R169). -/
theorem slipTaken_of_accept {params : List Byte} {v : State} (hwf : s.xmem.wf = true)
    (hx : v.xmem = (s.slipOffered h kind params).xmem) (b : LastingBlock) :
    s.xmem.slipTaken h.slot (slipBody h kind params) (v.accept b h.slot).xmem := by
  have hxmem : (v.accept b h.slot).xmem = v.xmem.writeResult h.slot.val .taken 0 0 [] := rfl
  rw [hxmem, hx]
  exact Exchange.slipTaken_of (State.slipOffered_wrote hwf) (slipBody_length h kind params)

/-- The staged image of a state in which a slip has just been offered. -/
theorem slipOffered_staged {params : List Byte} (hwf : s.xmem.wf = true) :
    (s.slipOffered h kind params).xmem.staged = s.xmem.staged := by
  have hslot := h.slot.isLt
  refine Exchange.staged_congr fun i hi => (State.slipOffered_wrote hwf).kept (by unfold memorySize; omega) ?_
  rw [slipBody_length]
  unfold slotAddr
  omega

/-- A kind that no other row has is a kind the engine does not know (R168). -/
theorem unknown_of_wellFormed (hkind : (Instr.unknownKind h kind).wellFormed = true) : kind.toNat = 0 ∨ 10 < kind.toNat := by
  have hknown : knownKind kind = false := by simpa [Instr.wellFormed] using hkind
  simp [knownKind] at hknown
  omega

end offered

/-- Settles O48: READ PROFILE copies the image before the slip completes. -/
theorem readProfileCopiesTheImageOut : Obligations.ReadProfileCopiesTheImageOut := by
  intro s p h kind hwf htakes hp hlength hkind
  obtain ⟨hread, hreadKind⟩ := bareSlip_taken (h := h) (kind := 9) hwf htakes hp
  obtain ⟨hunknown, hunknownKind⟩ := bareSlip_taken (h := h) (kind := kind) hwf htakes hp
  rw [State.runSlip_readProfile _ _ hreadKind] at hread
  rw [State.runSlip_unknown _ _ (by rw [hunknownKind]; exact unknown_of_wellFormed hkind)] at hunknown
  have hwfv := (State.slipOffered_wrote (h := h) (kind := 9) (params := []) hwf).wf
  refine ⟨_, congrArg Host.Outcome.next hread, ?_, fun hidle => ?_, fun hbusy => ?_, _,
    congrArg Host.Outcome.next hunknown, slipAnswered [] hwf _⟩
  · apply State.ext_blocks <;> simp [State.immediate]
  · have hslip : (s.slipOffered h 9 []).readProfileSlip p =
        ((s.slipOffered h 9 []).mapX (Exchange.partWrite 0x800 p),
          { SlipResult.ok with payload := le16 (u16 p 1022) ++ [flagByte (s.slipOffered h 9 []).store.factoryActive] }) :=
      if_pos (by simpa using hidle)
    have hfactory : (s.slipOffered h 9 []).store.factoryActive = s.store.factoryActive := by simp
    rw [hslip, hfactory]
    have hw : (s.slipOffered h 9 []).xmem.writes [(0x800, 1024)]
        ((s.slipOffered h 9 []).mapX (Exchange.partWrite 0x800 p)).xmem :=
      Exchange.writes_partWrite (by simp [rangeWithin, hlength]) _
    refine ⟨fun i hi => ?_, slipDone_of_block hwf hw ⟨by simp, by simp⟩ (fun a hlow hhigh => ?_) _⟩
    · refine ((Exchange.complete_writes h.slot.isLt _ _ (hw hwfv).wf).kept (0x800 + i) (by unfold memorySize; omega) ?_).trans
        (Exchange.shows_partWrite hwfv 0x800 p (by rw [hlength]; decide) i (by rwa [hlength]))
      simp only [slipTableBytes, outside_cons, outside_nil, and_true]
      omega
    · simp only [outside_cons, outside_nil, and_true]
      omega
  · have hslip : (s.slipOffered h 9 []).readProfileSlip p = (s.slipOffered h 9 [], SlipResult.only .busy) :=
      if_neg (by simpa using hbusy)
    rw [hslip]
    exact (slipAnswered [] hwf _).2

/-- Settles O49: the slip waits for a boundary in the probe's WAITING phase. -/
theorem probeSlipsWaitForABoundary : Obligations.ProbeSlipsWaitForABoundary := by
  have hall (s : State) (p : Image) (h : SlipHead) (c : Instr) (o : ProbeOrigin) (kind : Byte) (hwf : s.xmem.wf = true)
      (htakes : s.takesNow h.slot = true) (hp : s.store.active = some p) (hpost : exec c s = .next (s.post h kind []))
      (hrun : ∀ v : State, v.xmem.peek (slotAddr h.slot.val + 1) = kind →
        v.runSlip s.time.slotCount p h.slot = State.lasting .air h.slot (v.probeSlip o)) :
      ∃ t, exec c s = .next t ∧
        (s.air.probe.phase = .idle →
          t =
              { s with
                air := { s.air with probe := { s.air.probe with phase := .waiting, origin := some o } }
                engine := { s.engine.afterTake h.slot with airSlot := some h.slot }
                xmem := t.xmem } ∧
            s.xmem.slipTaken h.slot (slipBody h kind []) t.xmem) ∧
        (s.air.probe.phase ≠ .idle →
          t = { s with engine := s.engine.afterTake h.slot, xmem := t.xmem } ∧
            s.xmem.slipDone h.slot (slipBody h kind []) (SlipResult.only .busy) [] 0 t.xmem) := by
    obtain ⟨htaken, hkind⟩ := bareSlip_taken (kind := kind) hwf htakes hp
    rw [hrun _ hkind] at htaken
    refine ⟨_, hpost.trans (congrArg Host.Outcome.next htaken), fun hidle => ?_, fun hbusy => ?_⟩
    · have hslip : (s.slipOffered h kind []).probeSlip o =
          ((s.slipOffered h kind []).mapAir fun a =>
            { a with probe := { a.probe with phase := .waiting, origin := some o } }, .accepted) :=
        if_pos (by simpa using hidle)
      rw [hslip, State.lasting_accepted]
      exact ⟨by apply State.ext_blocks <;> simp [State.accept, Engine.bind],
        slipTaken_of_accept hwf rfl .air⟩
    · have hslip : (s.slipOffered h kind []).probeSlip o = (s.slipOffered h kind [], .atOnce (SlipResult.only .busy)) :=
        if_neg (by simpa using hbusy)
      rw [hslip, State.lasting_atOnce]
      exact slipAnswered [] hwf _
  intro s p h c o kind hwf htakes hp hmem
  simp only [List.mem_cons, Prod.mk.injEq, List.mem_nil_iff, or_false] at hmem
  obtain ⟨rfl, rfl, rfl⟩ | ⟨rfl, rfl, rfl⟩ := hmem
  · exact hall _ _ _ _ _ _ hwf htakes hp rfl fun v hv => State.runSlip_probeAirflow _ _ hv
  · exact hall _ _ _ _ _ _ hwf htakes hp rfl fun v hv => State.runSlip_resetReference _ _ hv

/-- Settles O51: BUSY, INVALID or the begun programming, by the phase and the first check that fails. -/
theorem commitSlipValidatesTheStagedImage : Obligations.CommitSlipValidatesTheStagedImage := by
  intro s p h hwf htakes hp
  have hcrc : crc16 [0x31, 0x32, 0x33, 0x34, 0x35, 0x36, 0x37, 0x38, 0x39] = 0x29B1 := by decide +kernel
  obtain ⟨htaken, hkind⟩ := bareSlip_taken (h := h) (kind := 10) hwf htakes hp
  rw [State.runSlip_commit _ _ hkind] at htaken
  have hstaged := slipOffered_staged (h := h) (kind := 10) (params := []) hwf
  have hcommit : (s.slipOffered h 10 []).store.commit = s.store.commit := by simp
  refine ⟨_, congrArg Host.Outcome.next htaken, ⟨fun hbusy => ?_, fun r hr hidle => ?_, fun hidle hvalid => ?_⟩,
    ⟨rfl, validImage_iff _, fun k check => imageFailure_iff _ k check⟩, hcrc⟩
  · have hslip : (s.slipOffered h 10 []).commitSlip s.time.slotCount =
        (s.slipOffered h 10 [], .atOnce (SlipResult.only .busy)) := if_pos (by rwa [hcommit])
    rw [hslip, State.lasting_atOnce]
    exact slipAnswered [] hwf _
  · have hslip : (s.slipOffered h 10 []).commitSlip s.time.slotCount =
        (s.slipOffered h 10 [],
          .atOnce { SlipResult.only .invalid with payload := le16 r.1 ++ [BitVec.ofNat 8 r.2] }) := by
      unfold State.commitSlip
      rw [if_neg (by simp [hidle]), hstaged, hr]
    rw [hslip, State.lasting_atOnce]
    exact slipAnswered [] hwf _
  · have hnone : imageFailure s.xmem.staged = none := by simpa [validImage] using hvalid
    have hslip : (s.slipOffered h 10 []).commitSlip s.time.slotCount =
        ((s.slipOffered h 10 []).mapStore fun t =>
          { t with
            commit := .programming, stagingHeld := true
            programmingBegan :=
              if t.service = .writing then none else some ((s.slipOffered h 10 []).countsFrom s.time.slotCount) },
          .accepted) := by
      unfold State.commitSlip
      rw [if_neg (by simp [hidle]), hstaged, hnone]
    rw [hslip, State.lasting_accepted]
    exact ⟨by apply State.ext_blocks <;> simp [State.accept, Engine.bind, State.countsFrom],
      slipTaken_of_accept hwf rfl .store⟩

end Sys2Proof.Proofs
end

