-- ==== Sys2Proof/Proofs/RestartSlip.lean ====
section
/-!
SUPPORT. REQUEST RESTART (R97): its slip is completed first, and the rail's cut or reset works on the completed state.
-/

namespace Sys2Proof.Machine

/-! ### Work after a completion -/

/-- The block's work that follows a completion in the same event leaves the slots. -/
theorem Exchange.slipDone.after {x y z : Exchange} {n : Fin 16} {body : List Byte} {r : SlipResult} {rs : List (Nat × Nat)}
    {causes : BitVec 12} (h : x.slipDone n body r [] 0 y) (hwf : y.wf = true) (hlength : body.length = 32) (hw : y.writes rs z)
    (hraised : y.raised causes z) (hrs : ∀ a, 0x100 ≤ a → a < 0x500 → outside rs a = true) :
    x.slipDone n body r rs causes z := by
  obtain ⟨hslot, hready, hrefused, hrange, henable, hsummary, hcovered, hheld, hrest⟩ := h
  have hz := hw hwf
  have hstands (k i : Nat) (hk : k < 16) (hi : i < 64) : z.peek (slotAddr k + i) = y.peek (slotAddr k + i) :=
    hz.kept _ (slotByte_lt hk hi) (hrs _ (by unfold slotAddr; omega) (by unfold slotAddr; omega))
  have hshows {k b : Nat} {bs : List Byte} (hk : k < 16) (hb : slotAddr k ≤ b) (hhigh : b + bs.length ≤ slotAddr k + 64)
      (hs : y.shows b bs) : z.shows b bs := fun i hi => by
    have := hstands k (b + i - slotAddr k) hk (by omega)
    rw [show slotAddr k + (b + i - slotAddr k) = b + i by omega] at this
    exact this.trans (hs i hi)
  refine ⟨?_, hz.ready.trans hready, hz.refused.trans hrefused, hz.range.trans hrange, hraised.2.trans henable, ?_,
    hz.covered.trans hcovered, hz.holdsNone hcovered hheld, fun a ha ho => ?_⟩
  · rw [Exchange.slotCompleted_iff] at hslot ⊢
    obtain ⟨hbytes, hpayload, hothers⟩ := hslot
    refine ⟨hshows n.isLt (le_refl _) (by simp; omega) hbytes,
      hshows n.isLt (by omega) (by rw [payloadBytes_length]) hpayload, fun k hk => ?_⟩
    obtain ⟨hbroken, hkept⟩ := hothers k hk
    have hk0 := hstands k.val 0 k.isLt (by omega)
    refine ⟨fun hmem => ?_, fun hmem => ?_⟩
    · obtain ⟨howner, hcode, hpay, hbody⟩ := hbroken hmem
      exact ⟨hk0.trans howner, hshows k.isLt (by omega) (by simp) hcode,
        hshows k.isLt (by omega) (by rw [payloadBytes_length]) hpay, fun i hi h0 h6 h7 =>
          (hstands k.val i k.isLt (by omega)).trans (hbody i hi h0 h6 h7)⟩
    · obtain ⟨howner, hbody⟩ := hkept hmem
      exact ⟨hk0.trans howner, fun i hi h0 => (hstands k.val i k.isLt hi).trans (hbody i hi h0)⟩
  · have hzero : x.summary ||| Cause.slipDone.bit ||| 0 = x.summary ||| Cause.slipDone.bit := BitVec.or_zero
    rw [hraised.1, hsummary, hzero]
  · obtain ⟨hlow, ho⟩ := outside_cons.mp ho
    obtain ⟨htable, ho⟩ := outside_cons.mp ho
    refine (hz.kept a ha ho).trans (hrest a ha ?_)
    simp only [outside_cons, outside_nil, and_true]
    exact ⟨hlow, htable⟩

/-- The clearing keeps two causes alone, so the others raised before it do not matter. -/
theorem State.hostCleared.of_causes {s t : State} {p : Image} {c d : BitVec 12} (h : s.hostCleared p c t)
    (hcd : c &&& 0x180 = d &&& 0x180) : s.hostCleared p d t := by
  have hsummary : (s.xmem.summary ||| c) &&& 0x180 = (s.xmem.summary ||| d) &&& 0x180 := by
    refine BitVec.eq_of_getLsbD_eq fun i hi => ?_
    have hbit := congrArg (BitVec.getLsbD · i) hcd
    simp only [BitVec.getLsbD_and] at hbit
    simp only [BitVec.getLsbD_and, BitVec.getLsbD_or, Bool.and_or_distrib_right, hbit]
  unfold State.hostCleared at h ⊢
  rwa [hsummary] at h

/-- A record is the same from a state with the same monitor and the same sensors. -/
theorem State.recordAdded.of_same {s u t : State} {e : SlotCount} {cause : RestartCause} {action : RecordAction} {i : Nat}
    {before : RailState} (h : u.recordAdded e cause action i before t) (hmon : u.mon = s.mon) (hsense : u.sense = s.sense) :
    s.recordAdded e cause action i before t := by
  unfold State.recordAdded State.temp at h ⊢
  rwa [hmon, hsense] at h

/-! ### WARM (R86, R97) -/

section warm
variable {s : State} (now : SlotCount) (p : Image)

theorem State.enterResetting_watched (hwf : s.xmem.wf = true) : (s.enterResetting now p).watchdogShown now := by
  obtain ⟨f, _, heq⟩ := State.enterResetting_after (s := s) now p
  have hwf1 := ((State.setRail_writes now .resetting s) hwf).wf
  have hshown := State.hostRestartClearing_watched now p hwf1
  have hwf2 := ((State.hostRestartClearing_writes now p _) hwf1).wf
  rw [heq]
  generalize (s.setRail now .resetting).hostRestartClearing now p = u at *
  exact State.watchdogShown_of_writes (rs := []) hwf2 hshown (Exchange.writes_refl _ _) rfl rfl rfl

theorem State.enterResetting_served : (s.enterResetting now p).engine.served = s.engine.served := by
  obtain ⟨f, _, heq⟩ := State.enterResetting_after (s := s) now p
  rw [heq, State.mapRail_engine, State.hostRestartClearing_engine]
  simp

theorem State.enterResetting_recorded (hs : s.rail.state = .running) :
    (s.enterResetting now p).mon.ladderIndex = s.mon.ladderIndex ∧
      (s.enterResetting now p).mon.recordCounter = s.mon.recordCounter ∧
      (s.enterResetting now p).mon.lastRefusal = s.mon.lastRefusal ∧
      (s.enterResetting now p).mon.records = s.mon.records := by
  rw [State.enterResetting_mon now p hs]
  exact ⟨rfl, rfl, rfl, rfl⟩

end warm

end Sys2Proof.Machine

namespace Sys2Proof.Proofs

open Sys2Proof.Machine

section restart
variable {s : State} {p : Image} {h : SlipHead}

/-- REQUEST RESTART taken at once: its answer, and then its work (R97). -/
theorem requestRestart_taken (mode : Byte) (hwf : s.xmem.wf = true) (htakes : s.takesNow h.slot = true)
    (hp : s.store.active = some p) :
    exec (.requestRestart h mode) s =
      .next ((State.immediate h.slot (s.slipOffered h 6 [mode], restartResult s.rail.state mode.toNat)).restartHost
        s.time.slotCount p mode.toNat) := by
  refine congrArg Host.Outcome.next ((State.post_taken hwf htakes hp).trans ?_)
  rw [State.runSlip_restart _ _ (State.slipOffered_kind hwf)]
  have hmode : (s.slipOffered h 6 [mode]).xmem.param h.slot.val 0 = mode.toNat := State.slipOffered_param hwf (by omega)
  have hrail : (s.slipOffered h 6 [mode]).rail = s.rail := by simp
  rw [hmode, hrail]
  rfl

/-- REQUEST RESTART without effect. -/
theorem restart_answered {mode : Byte}
    (hnone : s.rail.state = .running → mode.toNat ≠ 1 ∧ mode.toNat ≠ 2) :
    (State.immediate h.slot (s.slipOffered h 6 [mode], restartResult s.rail.state mode.toNat)).restartHost
        s.time.slotCount p mode.toNat =
      State.immediate h.slot (s.slipOffered h 6 [mode], restartResult s.rail.state mode.toNat) := by
  have hrail : (State.immediate h.slot (s.slipOffered h 6 [mode], restartResult s.rail.state mode.toNat)).rail = s.rail := by
    simp [State.immediate]
  unfold State.restartHost
  rw [hrail]
  by_cases hr : s.rail.state = .running
  · obtain ⟨h1, h2⟩ := hnone hr
    rw [if_pos hr, if_neg h1, if_neg h2]
  · rw [if_neg hr]

/-- COLD cuts the rail after the completion. -/
theorem restart_cold {u : State} {mode : Byte} (hu : u = { s with engine := s.engine.afterTake h.slot, xmem := u.xmem })
    (hdone : s.xmem.slipDone h.slot (slipBody h 6 [mode]) SlipResult.ok [] 0 u.xmem) (hwf : u.xmem.wf = true)
    (hr : s.rail.state = .running) :
    let t := u.cutWithNotice s.time.slotCount p .hostRequest true
    t.mon.ladderIndex = s.mon.ladderIndex ∧
      s.recordAdded s.time.slotCount .hostRequest .cold s.mon.ladderIndex .running t ∧
      s.railWentOff (some (true, Profile.minimumOff p * 64)) s.time.slotCount t ∧
      t =
          { s with
            rail := t.rail, mon := t.mon, climate := t.climate
            engine := s.engine.afterTake h.slot, xmem := t.xmem } ∧
      s.xmem.slipDone h.slot (slipBody h 6 [mode]) SlipResult.ok cutBytes Cause.restartNote.bit t.xmem := by
  have hrail : u.rail = s.rail := (congrArg State.rail hu :)
  have hmon : u.mon = s.mon := (congrArg State.mon hu :)
  have hsense : u.sense = s.sense := (congrArg State.sense hu :)
  have hclimate : u.climate = s.climate := (congrArg State.climate hu :)
  have hw : u.rail.state ≠ .warming := by simp [hrail, hr]
  have hwrites := State.cutWithNotice_writes_of (rs := cutBytes) s.time.slotCount p .hostRequest true u (by decide)
    fun h => absurd h hw
  have hflags := State.cutWithNotice_flags (s := u) s.time.slotCount p .hostRequest true
  obtain ⟨hladder, hrecord, hoff, _, hframe⟩ := State.cutWithNotice_noticed s.time.slotCount p hwf hw .hostRequest true
  rw [hmon, hrail, hr] at hrecord
  refine ⟨by rw [hladder, hmon], hrecord.of_same hmon hsense, hoff.of_recorded hrail hclimate ?_, ?_,
    hdone.after hwf (slipBody_length h 6 [mode]) hwrites hflags fun a hlow hhigh => ?_⟩
  · rw [hmon]
    rfl
  · rw [hframe, hu]
  · simp only [cutBytes, outside_cons, outside_nil, and_true]
    omega

/-- WARM clears the host's side after the record (R86, R94). -/
theorem restart_warm {u : State} (hu : u = { s with engine := s.engine.afterTake h.slot, xmem := u.xmem })
    (hsummary : u.xmem.summary = s.xmem.summary ||| Cause.slipDone.bit) (hwf : u.xmem.wf = true)
    (hr : s.rail.state = .running) :
    let t := (u.addRecord s.time.slotCount .hostRequest .warm s.mon.ladderIndex .running).enterResetting s.time.slotCount p
    t.rail =
        { s.rail with
          state := .resetting
          hrst := if Profile.resetDelay p = 0 then true else s.rail.hrst
          resetDelay :=
            if Profile.resetDelay p = 0 then none
            else some (after s.time.slotCount (Profile.resetDelay p))
          resetWidth :=
            if Profile.resetDelay p = 0 then some (after s.time.slotCount (Profile.resetWidth p))
            else s.rail.resetWidth } ∧
      t.mon.ladderIndex = s.mon.ladderIndex ∧
      s.recordAdded s.time.slotCount .hostRequest .warm s.mon.ladderIndex .running t ∧
      s.monitorReset p t ∧ t.watchdogShown s.time.slotCount ∧ s.hostCleared p Cause.restartNote.bit t ∧
      t.engine.served = true ∧ t.xmem.peek 0x19 = 5 := by
  have hrail : u.rail = s.rail := (congrArg State.rail hu :)
  have hmon : u.mon = s.mon := (congrArg State.mon hu :)
  have hengine : u.engine = s.engine.afterTake h.slot := (congrArg State.engine hu :)
  have hsense : u.sense = s.sense := (congrArg State.sense hu :)
  have hclimate : u.climate = s.climate := (congrArg State.climate hu :)
  have hair : u.air = s.air := (congrArg State.air hu :)
  have hkeypad : u.keypad = s.keypad := (congrArg State.keypad hu :)
  have hstore : u.store = s.store := (congrArg State.store hu :)
  have htime : u.time = s.time := (congrArg State.time hu :)
  set now := s.time.slotCount with hnow
  intro t
  set v := u.addRecord now .hostRequest .warm s.mon.ladderIndex .running with hv
  have hwfv : v.xmem.wf = true := ((State.addRecord_writes now .hostRequest .warm s.mon.ladderIndex .running u) hwf).wf
  have hvmon := State.addRecord_mon now .hostRequest .warm s.mon.ladderIndex .running u
  have hvrail : v.rail = s.rail := by simp [hv, hrail]
  have hvs : v.rail.state = .running := by rw [hvrail, hr]
  have hvsummary : v.xmem.summary = s.xmem.summary ||| (Cause.slipDone.bit ||| Cause.restartNote.bit) := by
    simp [hv, hsummary, BitVec.or_assoc]
  have hcopies {c : Copy} (hc : c = .refusal ∨ c = .records) : t.shown c := by
    have hrecorded : v.shown c := State.addRecord_shown_copy hwf now .hostRequest .warm _ _ fun hrefusal hrecords => by
      obtain rfl | rfl := hc
      · exact absurd rfl hrefusal
      · exact absurd rfl hrecords
    refine State.enterResetting_shown now p hwfv (.inr ⟨?_, hrecorded⟩)
    tauto
  have hstate := State.enterResetting_shown (c := .rail) now p hwfv (.inl rfl)
  obtain ⟨hladder, hcounter, hrefusal, hrecords⟩ := State.enterResetting_recorded now p hvs
  have htrail := State.enterResetting_rail now p (s := v)
  have htmon := State.enterResetting_mon now p hvs
  have hcleared := (State.enterResetting_cleared now p hwfv).of_begun (s := s)
    (causes := Cause.slipDone.bit ||| Cause.restartNote.bit) p (by simp [hv, hclimate]) (by simp [hv, hclimate])
    (by simp [hv, hair]) (by rw [hv, hvmon, hmon]) (by rw [hv, hvmon, hmon]) (by simp [hv, hkeypad]) (by simp [hv, hstore])
    (by simp [hv, hsense]) (by simp [hv, htime]) hvsummary
  have hserved := State.enterResetting_served now p (s := v)
  have hwatched := State.enterResetting_watched now p hwfv
  rw [← hv] at hvmon
  rw [hvmon] at hladder hcounter hrefusal hrecords htmon
  have hrecorded := (State.recordAdded_of (s := u) hcounter hrefusal hrecords (hcopies (.inl rfl)) (hcopies (.inr rfl))).of_same
    hmon hsense
  rw [hmon] at hladder htmon
  have hvserved : v.engine.served = true := by simp [hv, hengine, Engine.afterTake]
  rw [hvrail, hr] at htrail
  refine ⟨?_, hladder, ?_, ?_, hwatched, hcleared.of_causes (by decide), hserved.trans hvserved, ?_⟩
  · rw [htrail]
    rfl
  · exact hrecorded
  · unfold State.monitorReset
    rw [htmon]
  · have := hstate.byte rfl
    rwa [htrail] at this

end restart

/-- Settles O46: the answer comes first, and the rail's cut or reset after it. -/
theorem requestRestartResetsOrCuts : Obligations.RequestRestartResetsOrCuts := by
  intro s p h mode hwf htakes hp
  have h1 : mode.toNat = 1 ↔ mode = 1 := byte_eq_iff (c := 1)
  have h2 : mode.toNat = 2 ↔ mode = 2 := byte_eq_iff (c := 2)
  have hanswered := slipAnswered (h := h) (kind := 6) [mode] hwf (restartResult s.rail.state mode.toNat)
  have hcompleted (r : SlipResult) : (State.immediate h.slot (s.slipOffered h 6 [mode], r)).xmem.wf = true :=
    (Exchange.complete_writes h.slot.isLt r _ (State.slipOffered_wrote hwf).wf).wf
  refine ⟨_, requestRestart_taken mode hwf htakes hp, ⟨fun hvalid => ?_, fun hvalid hr => ?_⟩, fun hmode hr => ?_,
    fun hmode hr => ?_⟩
  · have hnot : mode ≠ 1 ∧ mode ≠ 2 := by simpa using hvalid
    have hnot' : mode.toNat ≠ 1 ∧ mode.toNat ≠ 2 := ⟨fun h => hnot.1 (h1.mp h), fun h => hnot.2 (h2.mp h)⟩
    have hresult : restartResult s.rail.state mode.toNat = SlipResult.only .badParam := if_pos hnot'
    rw [restart_answered fun _ => hnot']
    rw [hresult] at hanswered ⊢
    exact hanswered
  · have hin : mode = 1 ∨ mode = 2 := by simpa using hvalid
    have hresult : restartResult s.rail.state mode.toNat = SlipResult.only .notNow := by
      unfold restartResult
      rw [if_neg fun h => hin.elim (fun hm => h.1 (h1.mpr hm)) fun hm => h.2 (h2.mpr hm), if_neg hr]
    rw [restart_answered fun h => absurd h hr]
    rw [hresult] at hanswered ⊢
    exact hanswered
  · have hresult : restartResult s.rail.state mode.toNat = SlipResult.ok := by
      unfold restartResult
      rw [if_neg fun h => h.2 (h2.mpr hmode), if_pos hr]
    rw [hresult] at hanswered ⊢
    obtain ⟨hframe, hdone⟩ := hanswered
    have hwfu := hcompleted SlipResult.ok
    generalize State.immediate h.slot (s.slipOffered h 6 [mode], SlipResult.ok) = u at *
    have hrail : u.rail = s.rail := (congrArg State.rail hframe :)
    have hwork : u.restartHost s.time.slotCount p mode.toNat = u.cutWithNotice s.time.slotCount p .hostRequest true := by
      have hone : ¬mode.toNat = 1 := fun h => by
        rw [hmode] at h
        exact absurd h (by decide)
      unfold State.restartHost
      rw [if_pos (by rw [hrail, hr]), if_neg hone, if_pos (h2.mpr hmode)]
    rw [hwork]
    exact restart_cold hframe hdone hwfu hr
  · have hresult : restartResult s.rail.state mode.toNat = SlipResult.ok := by
      unfold restartResult
      rw [if_neg fun h => h.1 (h1.mpr hmode), if_pos hr]
    rw [hresult] at hanswered ⊢
    obtain ⟨hframe, hdone⟩ := hanswered
    have hsummary : (State.immediate h.slot (s.slipOffered h 6 [mode], SlipResult.ok)).xmem.summary =
        s.xmem.summary ||| Cause.slipDone.bit := by
      obtain ⟨_, _, _, _, _, hsummary, _⟩ := hdone
      exact hsummary.trans BitVec.or_zero
    have hwfu := hcompleted SlipResult.ok
    generalize State.immediate h.slot (s.slipOffered h 6 [mode], SlipResult.ok) = u at *
    have hrail : u.rail = s.rail := (congrArg State.rail hframe :)
    have hmon : u.mon = s.mon := (congrArg State.mon hframe :)
    have hwork : u.restartHost s.time.slotCount p mode.toNat =
        (u.addRecord s.time.slotCount .hostRequest .warm s.mon.ladderIndex .running).enterResetting s.time.slotCount p := by
      unfold State.restartHost
      rw [if_pos (by rw [hrail, hr]), if_pos (h1.mpr hmode), hmon]
    rw [hwork]
    exact restart_warm hframe hsummary hwfu hr

end Sys2Proof.Proofs
end

