-- ==== Sys2Proof/Proofs/OwnerBytes.lean ====
section
/-!
SUPPORT. The host's writes of owner bytes (R164, R173): a byte that the table lets through lands and is delivered, and any
other sets REFUSED alone.
-/

namespace Sys2Proof.Machine

/-! ### The frame that writes an owner byte (R164) -/

section owner
variable {s : State} {p : Image} {n : Fin 16} {o : Owner}

theorem State.writeOwner_guard {held : Bool} :
    s.xmem.guard held (slotAddr n.val, o.code) = ownerMoves.contains (s.xmem.peek (slotAddr n.val), o.code) := by
  have hn := n.isLt
  have hlow : 0x100 ≤ slotAddr n.val := by unfold slotAddr; omega
  have haction : headerAction (slotAddr n.val) = false := by
    simp [headerAction]
    omega
  unfold Exchange.guard
  dsimp only
  rw [haction, if_neg (by simp), if_pos (by unfold slotAddr; omega), if_pos (by unfold slotAddr; omega), hostTransition_eq]

/-- An owner value that the host may write is delivered (R155, R156). -/
theorem State.writeOwner_accepted (hwf : s.xmem.wf = true) (hp : s.store.active = some p) (hready : s.xmem.ready = true)
    (hmove : ownerMoves.contains (s.xmem.peek (slotAddr n.val), o.code) = true) :
    s.writeOwner n o = (s.slotLanded n [o.code]).deliverOwner [] s.time.slotCount p n := by
  have hn := n.isLt
  have hstart := startAddress_slot n
  unfold State.writeOwner
  rw [State.writeFrame_accepted hwf hp hready (by rw [hstart]; unfold slotAddr memorySize; simp; omega) (by simp) fun c hc => ?_,
    hstart, State.deliverAll_slot _ (by simp) (by simp)]
  · rfl
  · rw [hstart] at hc
    obtain rfl : c = (slotAddr n.val, o.code) := by simpa [cellsAt] using hc
    rw [State.writeOwner_guard, hmove]

/-- An owner value that the host may not write sets REFUSED and nothing else (R155, R156). -/
theorem State.writeOwner_refused (hwf : s.xmem.wf = true) (hp : s.store.active = some p) (hready : s.xmem.ready = true)
    (hmove : ownerMoves.contains (s.xmem.peek (slotAddr n.val), o.code) = false) :
    let t := s.writeOwner n o
    t = { s with xmem := t.xmem } ∧ t.xmem.refused = true ∧ t.xmem.range = s.xmem.range ∧ t.xmem.summary = s.xmem.summary ∧
      t.xmem.enable = s.xmem.enable ∧ ∀ a < memorySize, t.xmem.peek a = s.xmem.peek a := by
  have hn := n.isLt
  have hstart := startAddress_slot n
  have hcells : frameCells (BitVec.ofNat 8 (slotAddr n.val / 256)) (BitVec.ofNat 8 (slotAddr n.val)) [o.code] =
      [(slotAddr n.val, o.code)] := by
    unfold frameCells
    rw [hstart]
    have hin : slotAddr n.val < memorySize := by unfold slotAddr memorySize; omega
    simp [cellsAt, hin]
  have hnone : s.acceptedCells (BitVec.ofNat 8 (slotAddr n.val / 256)) (BitVec.ofNat 8 (slotAddr n.val)) [o.code] = [] := by
    unfold State.acceptedCells
    rw [hcells, List.filter_cons_of_neg (by rw [State.writeOwner_guard, hmove]; decide)]
    rfl
  have hframe := State.writeFrame_eq (high := BitVec.ofNat 8 (slotAddr n.val / 256)) (low := BitVec.ofNat 8 (slotAddr n.val))
    (data := [o.code]) hwf hp hready
  rw [hnone, State.deliverAll_of_untouched _ ⟨rfl, rfl, rfl, rfl⟩ fun _ => rfl] at hframe
  have haccepts (a : Nat) (ha : a < memorySize) : s.acceptsAt (BitVec.ofNat 8 (slotAddr n.val / 256))
      (BitVec.ofNat 8 (slotAddr n.val)) [o.code] a = false := by
    unfold State.acceptsAt
    by_cases hsent : sentTo (BitVec.ofNat 8 (slotAddr n.val / 256)) (BitVec.ofNat 8 (slotAddr n.val)) [o.code] a = true
    · have hmem := (mem_frameCells (c := (a, sentByte (BitVec.ofNat 8 (slotAddr n.val / 256))
        (BitVec.ofNat 8 (slotAddr n.val)) [o.code] a))).mpr ⟨ha, hsent, rfl⟩
      rw [hcells, List.mem_singleton, Prod.mk.injEq] at hmem
      obtain ⟨rfl, hbyte⟩ := hmem
      rw [hbyte, ← State.guard_eq_accepts (slotAddr n.val, o.code), State.writeOwner_guard, hmove, Bool.and_false]
    · rw [Bool.not_eq_true] at hsent
      rw [hsent, Bool.false_and]
  have hx := Exchange.takeWrite_reframed hwf
    [BitVec.ofNat 8 (slotAddr n.val / 256), BitVec.ofNat 8 (slotAddr n.val), o.code]
  intro t
  have ht : t = _ := hframe
  rw [ht]
  refine ⟨by apply State.ext_blocks <;> simp, ?_, ?_, hx.summary, hx.enable, fun a ha => ?_⟩
  · refine State.judged_refused.mpr (.inr ⟨slotAddr n.val, slotAddr_lt hn, ?_, haccepts _ (slotAddr_lt hn)⟩)
    simp [sentTo, hstart]
  · have hrange : (s.judged (BitVec.ofNat 8 (slotAddr n.val / 256)) (BitVec.ofNat 8 (slotAddr n.val)) [o.code]).xmem.range =
        (s.xmem.range || overruns (startAddress (BitVec.ofNat 8 (slotAddr n.val / 256)) (BitVec.ofNat 8 (slotAddr n.val))) 1) :=
      rfl
    have hover : overruns (slotAddr n.val) 1 = false := by
      simp [overruns, slotAddr, memorySize]
      omega
    rw [hrange, hstart, hover, Bool.or_false]
  · rw [State.judged_peek hwf ha, haccepts a ha]
    rfl

end owner

end Sys2Proof.Machine

namespace Sys2Proof.Proofs

open Sys2Proof.Machine

/-- The rows of an owner byte are that byte's frame, and the moves they may make are the ones the guard lets through. -/
theorem ownerRow_allowed {n : Fin 16} {c : Instr} {o : Byte}
    (hrow : (c, o) ∈ [(Instr.slipChain n, (2 : Byte)), (.slipWithdraw n, 0), (.slipFree n, 0), (.slipStopreq n, 4)])
      (cur : Byte) :
    ∃ owner : Owner, owner.code = o ∧ owner ≠ .posted ∧
      (∀ s : State, exec c s = .next (s.writeOwner n owner)) ∧
      ownerMoves.contains (cur, o) =
        (if o = 2 then decide (cur = 0) else if o = 4 then decide (cur = 3) else decide (cur = 1 ∨ cur = 2 ∨ cur = 5)) := by
  have hzero : ownerMoves.contains (cur, 0) = decide (cur = 1 ∨ cur = 2 ∨ cur = 5) :=
    Bool.eq_iff_iff.mpr (by simp [ownerMoves])
  simp only [List.mem_cons, Prod.mk.injEq, List.not_mem_nil, or_false] at hrow
  obtain ⟨rfl, rfl⟩ | ⟨rfl, rfl⟩ | ⟨rfl, rfl⟩ | ⟨rfl, rfl⟩ := hrow
  · exact ⟨.chained, rfl, by decide, fun _ => rfl, Bool.eq_iff_iff.mpr (by simp [ownerMoves])⟩
  · exact ⟨.free, rfl, by decide, fun _ => rfl, hzero⟩
  · exact ⟨.free, rfl, by decide, fun _ => rfl, hzero⟩
  · exact ⟨.stopreq, rfl, by decide, fun _ => rfl, Bool.eq_iff_iff.mpr (by simp [ownerMoves])⟩

/-- Settles O42: an allowed byte lands, and STOPREQ alone reaches a block. -/
theorem ownerBytesFollowTheTransitions : Obligations.OwnerBytesFollowTheTransitions := by
  intro s p n c o hp hwf hready hrow
  obtain ⟨owner, rfl, hposted, hexec, hallowed⟩ := ownerRow_allowed hrow (s.xmem.peek (slotAddr n.val))
  refine ⟨_, hexec s, ?_⟩
  cases hmove : ownerMoves.contains (s.xmem.peek (slotAddr n.val), owner.code)
  · obtain ⟨hframe, hrefused, hrange, hsummary, henable, hpeek⟩ := State.writeOwner_refused hwf hp hready hmove
    dsimp only
    rw [← hallowed, hmove]
    refine ⟨fun h => absurd h (by simp), fun _ => ⟨hrefused, hrange, hsummary, henable, hpeek⟩, ?_⟩
    simpa using hframe
  · dsimp only
    rw [← hallowed, hmove]
    have hwrote := State.slotLanded_wrote (n := n) (data := [owner.code]) hwf (by simp)
    have hbyte : (s.slotLanded n [owner.code]).xmem.peek (slotAddr n.val) = owner.code := by
      rw [hwrote.peek _ (slotAddr_lt n.isLt), if_pos (by simp)]
      simp
    have hnot : (s.slotLanded n [owner.code]).xmem.ownerIs n.val .posted = false := by
      unfold Exchange.ownerIs
      rw [hbyte]
      cases owner <;> simp_all [Owner.code]
    have hreq : (s.slotLanded n [owner.code]).xmem.ownerIs n.val .stopreq = decide (owner.code = 4) := by
      unfold Exchange.ownerIs
      rw [hbyte]
      rfl
    have hdelivered : s.writeOwner n owner =
        if owner.code = 4 then (s.slotLanded n [owner.code]).stopRequest n else s.slotLanded n [owner.code] := by
      rw [State.writeOwner_accepted hwf hp hready hmove, State.deliverOwner, hnot, hreq]
      simp
    have hxmem : (s.writeOwner n owner).xmem = (s.slotLanded n [owner.code]).xmem := by
      rw [hdelivered]
      split <;> simp
    refine ⟨fun _ => ⟨by rw [hxmem, hbyte], ?_⟩, fun h => absurd h (by simp), ?_⟩
    · rw [hxmem]
      exact hwrote.frameWrote (Exchange.writes_refl _ _) ⟨BitVec.or_zero.symm, rfl⟩ (by simp [rangeWithin])
    · rw [hxmem, hdelivered]
      by_cases h4 : owner.code = 4
      · unfold State.stopRequest
        by_cases hair : s.engine.airSlot = some n
        · apply State.ext_blocks <;> simp [h4, hair, Probe.requestStop_eq]
        · by_cases hkey : s.engine.keypadSlot = some n
          · apply State.ext_blocks <;> simp [h4, hair, hkey]
          · apply State.ext_blocks <;> simp [h4, hair, hkey]
      · simp only [h4, false_and, if_false]
        apply State.ext_blocks <;> simp

end Sys2Proof.Proofs
end

