-- ==== Sys2Proof/Proofs/SlotsInTurn.lean ====
section
/-!
SUPPORT. What the take of a slip leaves of the slots and of the engine, whatever the slip's kind (R167 to R172), for the
slot that a frame posts and for the one that a slot start takes.
-/

namespace Sys2Proof.Machine

/-- The exchange memory beside the slip table. -/
def besideSlots : List (Nat × Nat) := [(0, 0x100), (0x500, 0x700)]

theorem besideSlots_outside {a : Nat} (hlow : 0x100 ≤ a) (hhigh : a < 0x500) : outside besideSlots a = true := by
  simp only [besideSlots, outside_cons, outside_nil, and_true]
  omega

/-- Every byte of the slip table is the same. -/
def Exchange.sameSlots (x y : Exchange) : Prop := ∀ k < 16, ∀ i < 64, y.peek (slotAddr k + i) = x.peek (slotAddr k + i)

theorem Exchange.writes.sameSlots {x y : Exchange} (h : x.writes besideSlots y) (hwf : x.wf = true) : x.sameSlots y :=
  fun k hk i hi => (h hwf).kept _ (slotByte_lt hk hi)
    (besideSlots_outside (by unfold slotAddr; omega) (by unfold slotAddr; omega))

theorem Exchange.sameSlots.owner {x y : Exchange} (h : x.sameSlots y) (k : Fin 16) (o : Owner) :
    y.ownerIs k.val o = x.ownerIs k.val o := by
  have howner := h k.val k.isLt 0 (by omega)
  unfold Exchange.ownerIs
  rw [show y.peek (slotAddr k.val) = x.peek (slotAddr k.val) from howner]

section takes
variable {u v : State} {n : Fin 16} (now : SlotCount) (p : Image)

/-- A block's work on a slip leaves the engine and the slots, and the slip is then completed or accepted (R168, R169). -/
def State.servedBy (n : Fin 16) (u t : State) : Prop :=
  ∃ v : State, v.engine = u.engine ∧ u.xmem.writes besideSlots v.xmem ∧
    ((∃ r, t = State.immediate n (v, r)) ∨ ∃ b, t = v.accept b n)

theorem State.immediate_servedBy {a : State × SlipResult} (he : a.1.engine = u.engine)
    (hw : u.xmem.writes besideSlots a.1.xmem) : u.servedBy n (State.immediate n a) :=
  ⟨a.1, he, hw, .inl ⟨a.2, rfl⟩⟩

theorem State.lasting_servedBy {a : State × LastingAnswer} (b : LastingBlock) (he : a.1.engine = u.engine)
    (hw : u.xmem.writes besideSlots a.1.xmem) : u.servedBy n (State.lasting b n a) := by
  obtain ⟨v, answer⟩ := a
  cases answer with
  | accepted => exact ⟨v, he, hw, .inr ⟨b, rfl⟩⟩
  | atOnce r => exact ⟨v, he, hw, .inl ⟨r, rfl⟩⟩

/-- Every kind but REQUEST RESTART is served so. -/
theorem State.runSlip_servedBy (hkind : u.xmem.peek (slotAddr n.val + 1) ≠ 6) : u.servedBy n (u.runSlip now p n) := by
  have hsix : (u.xmem.peek (slotAddr n.val + 1)).toNat ≠ 6 := fun h => hkind (BitVec.eq_of_toNat_eq h)
  unfold State.runSlip
  dsimp only
  split
  · exact State.immediate_servedBy (by simp) (by simpa using Exchange.writes_refl _ _)
  · exact State.immediate_servedBy (by simp) (by simpa using Exchange.writes_refl _ _)
  · exact State.lasting_servedBy _ (by simp) (by simpa using Exchange.writes_refl _ _)
  · exact State.lasting_servedBy _ (by simp) (by simpa using Exchange.writes_refl _ _)
  · exact State.immediate_servedBy (by simp) ((State.stopSlip_writes now p u _).mono (by decide))
  · exact absurd ‹_› hsix
  · exact State.immediate_servedBy (by simp) ((State.watchdogSlip_writes now p u _ _).mono (by decide))
  · exact State.lasting_servedBy _ (by simp) ((State.rebaselineSlip_writes now p _ u).mono (by decide))
  · exact State.immediate_servedBy (by simp) ((State.readProfileSlip_writes p u).mono (by decide))
  · exact State.lasting_servedBy _ (by simp) (by simpa using Exchange.writes_refl _ _)
  · exact State.immediate_servedBy rfl (Exchange.writes_refl _ _)

theorem Exchange.shows_slotBody (x : Exchange) (n : Fin 16) : x.shows (slotAddr n.val) (x.slotBody n) := by
  intro i hi
  have hi' : i < 32 := by simpa [Exchange.slotBody] using hi
  simp [Exchange.slotBody, List.getD_eq_getElem?_getD, hi']

/-- A completed slot is DONE, and a slot that was POSTED beside it still is (R171, R172). -/
theorem Exchange.complete_posted {x : Exchange} (hx : x.wf = true) (r : SlipResult) :
    (x.complete n.val r).ownerIs n.val .posted = false ∧
      ∀ m : Fin 16, m ≠ n → x.ownerIs m.val .posted = true → (x.complete n.val r).ownerIs m.val .posted = true := by
  have hcompleted := Exchange.complete_completed hx (x.shows_slotBody n) (by simp [Exchange.slotBody]) r
  rw [Exchange.slotCompleted_iff] at hcompleted
  obtain ⟨hslot, _, hothers⟩ := hcompleted
  have hdone : (x.complete n.val r).peek (slotAddr n.val) = Owner.done.code := hslot 0 (by simp)
  refine ⟨by unfold Exchange.ownerIs; rw [hdone]; rfl, fun m hm hposted => ?_⟩
  have hnot : x.chainedBeside n m.val = false := by
    unfold Exchange.chainedBeside
    unfold Exchange.ownerIs at hposted ⊢
    rw [beq_iff_eq.mp hposted]
    simp [Owner.code]
  have hbroken : m.val ∉ x.brokenBy n (x.slotBody n) r := by
    unfold Exchange.brokenBy
    split
    · simp
    · intro hmem
      rw [Exchange.chainFrom_chained _ _ _ _ hmem] at hnot
      cases hnot
  have howner := ((hothers m hm).2 hbroken).1
  rw [hnot, if_neg (by simp)] at howner
  unfold Exchange.ownerIs at hposted ⊢
  rw [howner, hposted]

theorem Exchange.accept_posted {x : Exchange} (hx : x.wf = true) :
    (x.writeResult n.val .taken 0 0 []).ownerIs n.val .posted = false ∧
      ∀ m : Fin 16, m ≠ n → x.ownerIs m.val .posted = true →
        (x.writeResult n.val .taken 0 0 []).ownerIs m.val .posted = true := by
  have howner (m : Fin 16) := Exchange.peek_writeResult_owner (o := .taken) (code := 0) (detail := 0)
    (payload := []) hx n.isLt m.isLt
  refine ⟨?_, fun m hm hposted => ?_⟩
  · unfold Exchange.ownerIs
    rw [howner n, if_pos rfl]
    rfl
  · unfold Exchange.ownerIs at hposted ⊢
    rw [howner m, if_neg fun h => hm (Fin.ext h), hposted]

/-- After the take of a slip: the slot is no longer POSTED, and, but for a restart, the other POSTED slots and the
engine's turn stand. -/
def State.tookSlot (n : Fin 16) (kind : Byte) (u t : State) : Prop :=
  t.engine.served = u.engine.served ∧ t.xmem.ownerIs n.val .posted = false ∧
    (kind ≠ 6 → t.engine.lastServed = u.engine.lastServed ∧
      ∀ m : Fin 16, m ≠ n → u.xmem.ownerIs m.val .posted = true → t.xmem.ownerIs m.val .posted = true)

theorem State.servedBy.tookSlot {t : State} (h : u.servedBy n t) (hwf : u.xmem.wf = true) (kind : Byte) :
    u.tookSlot n kind t := by
  obtain ⟨v, he, hw, ht⟩ := h
  have hwfv := (hw hwf).wf
  have hsame := hw.sameSlots hwf
  have hposted (m : Fin 16) : v.xmem.ownerIs m.val .posted = u.xmem.ownerIs m.val .posted := hsame.owner m .posted
  obtain ⟨r, rfl⟩ | ⟨b, rfl⟩ := ht
  · obtain ⟨hdone, hothers⟩ := Exchange.complete_posted (n := n) hwfv r
    exact ⟨by rw [← he]; rfl, hdone, fun _ => ⟨by rw [← he]; rfl, fun m hm hu => hothers m hm ((hposted m).trans hu)⟩⟩
  · obtain ⟨htaken, hothers⟩ := Exchange.accept_posted (n := n) hwfv
    have hengine : (v.accept b n).engine.served = v.engine.served ∧ (v.accept b n).engine.lastServed = v.engine.lastServed := by
      cases b <;> exact ⟨rfl, rfl⟩
    exact ⟨by rw [← he]; exact hengine.1, htaken, fun _ =>
      ⟨by rw [← he]; exact hengine.2, fun m hm hu => hothers m hm ((hposted m).trans hu)⟩⟩

/-- REQUEST RESTART keeps the served flag, and its slot is DONE or cleared (R94, R97). -/
theorem State.restartHost_tookSlot (hwf : v.xmem.wf = true) (hdone : v.xmem.ownerIs n.val .posted = false) (mode : Nat) :
    (v.restartHost now p mode).engine.served = v.engine.served ∧
      (v.restartHost now p mode).xmem.ownerIs n.val .posted = false := by
  unfold State.restartHost
  split
  · split
    · set w := v.addRecord now .hostRequest .warm v.mon.ladderIndex .running with hw
      have hwfw : w.xmem.wf = true := ((State.addRecord_writes now .hostRequest .warm v.mon.ladderIndex .running v) hwf).wf
      refine ⟨(State.enterResetting_served now p).trans (by simp [hw]), ?_⟩
      have hcleared := State.enterResetting_cleared now p hwfw
      obtain ⟨_, _, _, _, _, _, _, _, _, _, _, _, _, _, _, _, _, _, _, hzero, _⟩ := hcleared
      have hn := n.isLt
      unfold Exchange.ownerIs
      rw [hzero (slotAddr n.val) (by unfold slotAddr; omega) (by unfold slotAddr; omega)]
      rfl
    · split
      · have hwrites := State.cutWithNotice_writes_of (rs := railBytes) now p .hostRequest true v (by decide)
          fun _ => by decide
        exact ⟨by simp, ((hwrites.mono (by decide)).sameSlots hwf).owner n .posted |>.trans hdone⟩
      · exact ⟨rfl, hdone⟩
  · exact ⟨rfl, hdone⟩

theorem State.runSlip_tookSlot (hwf : u.xmem.wf = true) :
    u.tookSlot n (u.xmem.peek (slotAddr n.val + 1)) (u.runSlip now p n) := by
  by_cases hkind : u.xmem.peek (slotAddr n.val + 1) = 6
  · rw [State.runSlip_restart now p hkind]
    have hdone := (Exchange.complete_posted (n := n) hwf (restartResult u.rail.state (u.xmem.param n 0))).1
    have hwf1 := ((Exchange.complete_writes n.isLt (restartResult u.rail.state (u.xmem.param n 0)) u.xmem) hwf).wf
    obtain ⟨hserved, howner⟩ := State.restartHost_tookSlot (n := n) now p
      (v := u.mapX (Exchange.complete n.val (restartResult u.rail.state (u.xmem.param n 0)))) hwf1 hdone (u.xmem.param n 0)
    exact ⟨hserved, howner, fun h => absurd hkind h⟩
  · exact (State.runSlip_servedBy now p hkind).tookSlot hwf _

theorem State.takeSlip_tookSlot (hwf : u.xmem.wf = true) :
    let t := u.takeSlip now p n
    t.engine.served = true ∧ t.xmem.ownerIs n.val .posted = false ∧
      (u.xmem.peek (slotAddr n.val + 1) ≠ 6 → t.engine.lastServed = n ∧
        ∀ m : Fin 16, m ≠ n → u.xmem.ownerIs m.val .posted = true → t.xmem.ownerIs m.val .posted = true) :=
  State.runSlip_tookSlot now p (u := u.mapEngine fun e => { e with served := true, lastServed := n }) hwf

end takes

/-! ### A slot start takes the first (R167) -/

section start
variable {s : State} {n : Fin 16} (now : SlotCount) (p : Image)

theorem State.firstPosted_choose {v : State} (h : s.firstPosted n) (hslots : s.xmem.sameSlots v.xmem)
    (hlast : v.engine.lastServed = s.engine.lastServed) : v.choose [] = some n := by
  obtain ⟨hposted, hfirst⟩ := h
  have hrank (k : Fin 16) : v.xmem.priority k.val = min 3 (s.xmem.peek (slotAddr k.val + 2)).toNat := by
    unfold Exchange.priority
    rw [hslots k.val k.isLt 2 (by omega)]
  refine State.choose_of_first ((hslots.owner n .posted).trans hposted) (by simp) fun k hk _ => ?_
  rw [hslots.owner] at hk
  rw [hrank, hrank]
  unfold Engine.place
  rw [hlast]
  exact hfirst k hk

@[simp] theorem State.slotWorked_engine (pgood hsleep : Bool) (levels : BitVec 4) :
    ((s.slotWorked now p pgood hsleep levels).slotDecided now p).engine = s.engine := by
  unfold State.slotDecided State.slotWorked
  split <;> simp

end start

/-! ### A frame that posts several slips (R157, R167) -/

/-- What the host writes over bytes that it leaves as they are is the same frame. -/
theorem Exchange.HostWrote.widen {start : Nat} {b : Byte} {rest : List Byte} {x y : Exchange}
    (h : Exchange.HostWrote start [b] x y) (hrest : ∀ i < rest.length, x.peek (start + 1 + i) = rest.getD i 0) :
    Exchange.HostWrote start (b :: rest) x y := by
  refine { h with peek := fun a ha => (h.peek a ha).trans ?_ }
  by_cases hstart : a = start
  · subst hstart
    rw [if_pos (by simp), if_pos (by simp)]
    simp
  · rw [if_neg (by simp; omega)]
    by_cases hin : start ≤ a ∧ a < start + (b :: rest).length
    · rw [if_pos hin]
      have hlength : (b :: rest).length = rest.length + 1 := rfl
      have hbyte := hrest (a - start - 1) (by omega)
      rw [show start + 1 + (a - start - 1) = a by omega] at hbyte
      rw [hbyte, show a - start = (a - start - 1) + 1 by omega]
      rfl
    · rw [if_neg hin]

/-- A completion does not depend on the owner byte that the slip was posted with. -/
theorem Exchange.slipDone.of_owner {x y : Exchange} {n : Fin 16} {b b' : Byte} {rest : List Byte} {r : SlipResult}
    {rs : List (Nat × Nat)} {causes : BitVec 12} (h : x.slipDone n (b :: rest) r rs causes y) :
    x.slipDone n (b' :: rest) r rs causes y := h

section several
variable {s : State} {p : Image} {n : Fin 16} {high low : Byte} {data : List Byte}

/-- A frame that begins at the owner byte of slot `n`. -/
theorem sentTo_slot {a : Nat} :
    sentTo (BitVec.ofNat 8 (slotAddr n.val / 256)) (BitVec.ofNat 8 (slotAddr n.val)) data a = true ↔
      slotAddr n.val ≤ a ∧ a < slotAddr n.val + data.length := by
  simp [sentTo, startAddress_slot n]

theorem sentByte_slot (a : Nat) :
    sentByte (BitVec.ofNat 8 (slotAddr n.val / 256)) (BitVec.ofNat 8 (slotAddr n.val)) data a =
      data.getD (a - slotAddr n.val) 0 := by
  rw [sentByte, startAddress_slot n]

/-- What the guard lets through of such a frame lies in slot `n` or behind it. -/
theorem State.le_of_acceptsAt {k : Fin 16} (h : s.acceptsAt (BitVec.ofNat 8 (slotAddr n.val / 256))
    (BitVec.ofNat 8 (slotAddr n.val)) data (slotAddr k.val) = true) : n ≤ k := by
  have hlow := (sentTo_slot.mp ((Bool.and_eq_true _ _).mp h).1).1
  show n.val ≤ k.val
  unfold slotAddr at hlow
  omega

/-- POSTED is accepted in a slot that is FREE or DONE (R156). -/
theorem State.acceptsAt_post {m : Fin 16} (hm : n ≤ m) (hin : slotAddr m.val - slotAddr n.val < data.length)
    (hone : data.getD (slotAddr m.val - slotAddr n.val) 0 = 1)
    (howner : s.xmem.ownerIs m.val .free = true ∨ s.xmem.ownerIs m.val .done = true) :
    s.acceptsAt (BitVec.ofNat 8 (slotAddr n.val / 256)) (BitVec.ofNat 8 (slotAddr n.val)) data (slotAddr m.val) = true := by
  have hle : slotAddr n.val ≤ slotAddr m.val := by
    have : n.val ≤ m.val := hm
    unfold slotAddr
    omega
  have hmove : ownerMoves.contains (s.xmem.peek (slotAddr m.val), Owner.posted.code) = true := by
    unfold Exchange.ownerIs at howner
    obtain h | h := howner <;> rw [beq_iff_eq.mp h] <;> decide
  unfold State.acceptsAt
  rw [sentTo_slot.mpr ⟨hle, by omega⟩, sentByte_slot, hone, Bool.true_and, ← State.guard_eq_accepts (slotAddr m.val, 1)]
  exact (State.writeOwner_guard (o := .posted)).trans hmove

theorem State.judged_posted {m : Fin 16} (hwf : s.xmem.wf = true)
    (h : s.acceptsAt (BitVec.ofNat 8 (slotAddr n.val / 256)) (BitVec.ofNat 8 (slotAddr n.val)) data (slotAddr m.val) = true)
    (hone : data.getD (slotAddr m.val - slotAddr n.val) 0 = 1) :
    (s.judged (BitVec.ofNat 8 (slotAddr n.val / 256)) (BitVec.ofNat 8 (slotAddr n.val)) data).xmem.ownerIs m.val .posted =
      true := by
  unfold Exchange.ownerIs
  rw [State.judged_peek hwf (slotAddr_lt m.isLt), if_pos h, sentByte_slot, hone]
  rfl

/-- A slot that the frame leaves POSTED without having sent to it was POSTED before. -/
theorem State.acceptsAt_of_posted {k : Fin 16} (hwf : s.xmem.wf = true) (hs : s.xmem.ownerIs k.val .posted = false)
    (hj : (s.judged high low data).xmem.ownerIs k.val .posted = true) :
    s.acceptsAt high low data (slotAddr k.val) = true := by
  by_contra hnot
  unfold Exchange.ownerIs at hs hj
  rw [State.judged_peek hwf (slotAddr_lt k.isLt), if_neg hnot, hs] at hj
  cases hj

/-- The kind of the posted slip is the byte sent behind the owner byte, or the one that stands there. -/
theorem State.judged_kind (hwf : s.xmem.wf = true)
    (hfree : s.xmem.ownerIs n.val .free = true ∨ s.xmem.ownerIs n.val .done = true) :
    (s.judged (BitVec.ofNat 8 (slotAddr n.val / 256)) (BitVec.ofNat 8 (slotAddr n.val)) (1 :: data)).xmem.peek
        (slotAddr n.val + 1) = data.getD 0 (s.xmem.peek (slotAddr n.val + 1)) := by
  rw [State.judged_peek hwf (slotByte_lt n.isLt (by omega))]
  unfold State.acceptsAt
  cases data with
  | nil =>
    have hnot : sentTo (BitVec.ofNat 8 (slotAddr n.val / 256)) (BitVec.ofNat 8 (slotAddr n.val)) [1]
        (slotAddr n.val + 1) = false := by
      rw [Bool.eq_false_iff]
      intro h
      have := (sentTo_slot.mp h).2
      simp at this
    rw [hnot]
    simp
  | cons b rest =>
    have hguard := State.slot_guard (s := s) (n := n) (data := [1, b]) hfree rfl (by simp)
      (held := s.store.stagingHeld) (c := (slotAddr n.val + 1, b)) (by simp [cellsAt])
    rw [State.guard_eq_accepts] at hguard
    rw [sentTo_slot.mpr ⟨by omega, by simp⟩, sentByte_slot, Nat.add_sub_cancel_left]
    show (if (true && s.accepts (slotAddr n.val + 1) b) = true then b else _) = b
    rw [hguard]
    rfl

/-- Such a frame touches no header word. -/
theorem State.deliverWords_slot (now : SlotCount) (u : State) :
    u.deliverWords now (s.acceptedCells (BitVec.ofNat 8 (slotAddr n.val / 256)) (BitVec.ofNat 8 (slotAddr n.val)) data) = u := by
  have hquiet {lo hi : Nat} (hhi : hi < 0x100) :
      touched (s.acceptedCells (BitVec.ofNat 8 (slotAddr n.val / 256)) (BitVec.ofNat 8 (slotAddr n.val)) data) lo hi = false :=
    State.untouched_of_quiet fun a _ haccepts hrange => by
      have := (sentTo_slot.mp ((Bool.and_eq_true _ _).mp haccepts).1).1
      unfold slotAddr at this
      omega
  unfold State.deliverWords
  simp only [hquiet (lo := 0x0E) (hi := 0x0F) (by decide), hquiet (lo := 0x10) (hi := 0x11) (by decide),
    hquiet (lo := 0x12) (hi := 0x12) (by decide), hquiet (lo := 0x16) (hi := 0x17) (by decide), Bool.false_eq_true, if_false]

theorem State.touched_accepted {a : Nat} (ha : a < memorySize) :
    touched (s.acceptedCells high low data) a a = s.acceptsAt high low data a := by
  rw [Bool.eq_iff_iff]
  constructor
  · intro h
    obtain ⟨c, hc, hat⟩ := List.any_eq_true.mp h
    obtain ⟨_, haccepts⟩ := State.mem_acceptedCells hc
    simp only [Bool.and_eq_true, decide_eq_true_eq] at hat
    rwa [show c.1 = a by omega] at haccepts
  · intro h
    obtain ⟨hsent, haccepts⟩ := (Bool.and_eq_true _ _).mp h
    refine List.any_eq_true.mpr ⟨(a, sentByte high low data a), List.mem_filter.mpr ⟨mem_frameCells.mpr ⟨ha, hsent, rfl⟩, ?_⟩,
      by simp⟩
    rw [State.guard_eq_accepts]
    exact haccepts

/-- The delivery of an owner byte while the engine has served the slot leaves the engine and the memory. -/
theorem State.deliverTouched_served {u : State} (now : SlotCount) (cs : List Host.Cell) (k : Fin 16)
    (h : u.engine.served = true) :
    (u.deliverTouched now p cs k).engine = u.engine ∧ (u.deliverTouched now p cs k).xmem = u.xmem := by
  unfold State.deliverTouched State.deliverOwner State.arbitrateAmong
  rw [if_pos h]
  split
  · split
    · exact ⟨rfl, rfl⟩
    · split <;> simp
  · exact ⟨rfl, rfl⟩

theorem State.foldl_served {u : State} (now : SlotCount) (cs : List Host.Cell) (h : u.engine.served = true) :
    ∀ l : List (Fin 16), (l.foldl (State.deliverTouched now p cs) u).engine = u.engine ∧
      (l.foldl (State.deliverTouched now p cs) u).xmem = u.xmem := fun l =>
  List.foldlRecOn (motive := fun v : State => v.engine = u.engine ∧ v.xmem = u.xmem) l _ ⟨rfl, rfl⟩
    fun v ⟨he, hx⟩ k _ => by
      obtain ⟨he', hx'⟩ := State.deliverTouched_served (p := p) now cs k (u := v) (by rw [he, h])
      exact ⟨he'.trans he, hx'.trans hx⟩

end several

end Sys2Proof.Machine

namespace Sys2Proof.Proofs

open Sys2Proof.Machine

section turn
variable {s : State} {p : Image} {n : Fin 16}

/-- The slot start takes the slot that comes first (R167). -/
theorem slotStart_takes (hp : s.store.active = some p) (hwf : s.xmem.wf = true) (pgood hsleep : Bool) (levels : BitVec 4)
    (hfirst : s.firstPosted n) :
    ∃ u, exec (.slotStart pgood hsleep levels) s = .next u ∧ u.engine.served = true ∧
      u.xmem.ownerIs n.val .posted = false ∧
      (s.xmem.peek (slotAddr n.val + 1) ≠ 6 →
        u.engine.lastServed = n ∧
          ∀ m : Fin 16, m ≠ n → s.xmem.ownerIs m.val .posted = true → u.xmem.ownerIs m.val .posted = true) := by
  have hexec : exec (.slotStart pgood hsleep levels) s = .next (s.slotWork s.upcoming p pgood hsleep levels) := by
    show execSlotStart pgood hsleep levels s = _
    rw [execSlotStart, hp]
  refine ⟨_, hexec, ?_⟩
  rw [State.slotWork_eq]
  have hworked := State.slotWorked_writes s.upcoming p pgood hsleep levels s
  have hengine := State.slotWorked_engine (s := s) s.upcoming p pgood hsleep levels
  have hxmem := State.slotDecided_xmem s.upcoming p (s.slotWorked s.upcoming p pgood hsleep levels)
  rw [← hxmem] at hworked
  generalize (s.slotWorked s.upcoming p pgood hsleep levels).slotDecided s.upcoming p = w at *
  have hslots : s.xmem.sameSlots w.clearServed.xmem := (hworked.mono (by decide)).sameSlots hwf
  have hchoose := State.firstPosted_choose hfirst hslots (v := w.clearServed) (by rw [← hengine]; rfl)
  have htake : w.clearServed.arbitrate s.upcoming p = w.clearServed.takeSlip s.upcoming p n := by
    unfold State.arbitrate State.arbitrateAmong
    rw [if_neg (by simp [State.clearServed]), hchoose]
  obtain ⟨hserved, hdone, hothers⟩ := State.takeSlip_tookSlot (n := n) s.upcoming p (u := w.clearServed) (hworked hwf).wf
  rw [htake]
  refine ⟨hserved, hdone, fun hkind => ?_⟩
  obtain ⟨hlast, hposted⟩ := hothers (by rw [hslots n.val n.isLt 1 (by omega)]; exact hkind)
  exact ⟨hlast, fun m hm hu => hposted m hm ((hslots.owner m .posted).trans hu)⟩

/-- A frame that begins at slot `n`, posts it to an idle engine, and may post later ones (R157, R167). -/
theorem write_takes (hp : s.store.active = some p) (hwf : s.xmem.wf = true) (htakes : s.takesNow n = true)
    (data : List Byte) :
    ∃ u, exec (.write (BitVec.ofNat 8 (slotAddr n.val / 256) :: BitVec.ofNat 8 (slotAddr n.val) :: 1 :: data)) s =
        .next u ∧
      u.engine.served = true ∧ u.xmem.ownerIs n.val .posted = false ∧
      (data.getD 0 (s.xmem.peek (slotAddr n.val + 1)) ≠ 6 →
        u.engine.lastServed = n ∧
          ∀ m : Fin 16, n < m → slotAddr m.val - slotAddr n.val ≤ data.length →
            data.getD (slotAddr m.val - slotAddr n.val - 1) 0 = 1 →
            (s.xmem.ownerIs m.val .free = true ∨ s.xmem.ownerIs m.val .done = true) →
              u.xmem.ownerIs m.val .posted = true) := by
  obtain ⟨_, hready, hserved, hfree, hothers⟩ := State.takesNow_iff.mp htakes
  have hframe := State.writeFrame_eq (high := BitVec.ofNat 8 (slotAddr n.val / 256)) (low := BitVec.ofNat 8 (slotAddr n.val))
    (data := 1 :: data) hwf hp hready
  refine ⟨_, congrArg Host.Outcome.next hframe, ?_⟩
  rw [State.deliverAll_eq, State.deliverWords_slot]
  have hwfj := State.judged_wf (high := BitVec.ofNat 8 (slotAddr n.val / 256)) (low := BitVec.ofNat 8 (slotAddr n.val))
    (data := 1 :: data) hwf
  have hkind := State.judged_kind (data := data) hwf hfree
  have hposts {m : Fin 16} (hm : n ≤ m) (hin : slotAddr m.val - slotAddr n.val ≤ data.length)
      (hone : (1 :: data).getD (slotAddr m.val - slotAddr n.val) 0 = 1)
      (howner : s.xmem.ownerIs m.val .free = true ∨ s.xmem.ownerIs m.val .done = true) :=
    State.acceptsAt_post (data := 1 :: data) hm (Nat.lt_succ_of_le hin) hone howner
  have hn0 := hposts (le_refl n) (by simp) (by simp) hfree
  have hjposted {m : Fin 16} := State.judged_posted (n := n) (data := 1 :: data) (m := m) hwf
  have hjothers (k : Fin 16) (hkn : k ≠ n) := State.acceptsAt_of_posted (high := BitVec.ofNat 8 (slotAddr n.val / 256))
    (low := BitVec.ofNat 8 (slotAddr n.val)) (data := 1 :: data) hwf (hothers k hkn)
  have htouched (k : Fin 16) := State.touched_accepted (s := s) (high := BitVec.ofNat 8 (slotAddr n.val / 256))
    (low := BitVec.ofNat 8 (slotAddr n.val)) (data := 1 :: data) (slotAddr_lt k.isLt)
  have hbelow {k : Fin 16} := State.le_of_acceptsAt (s := s) (n := n) (data := 1 :: data) (k := k)
  have hjserved : (s.judged (BitVec.ofNat 8 (slotAddr n.val / 256)) (BitVec.ofNat 8 (slotAddr n.val)) (1 :: data)).engine.served =
      false := by simpa using hserved
  generalize s.judged (BitVec.ofNat 8 (slotAddr n.val / 256)) (BitVec.ofNat 8 (slotAddr n.val)) (1 :: data) = j at *
  generalize s.acceptedCells (BitVec.ofNat 8 (slotAddr n.val / 256)) (BitVec.ofNat 8 (slotAddr n.val)) (1 :: data) = cs at *
  have hchoose : j.choose (ownersAfter cs n) = some n := by
    refine State.choose_of_first (hjposted hn0 (by simp)) (by simp [ownersAfter]) fun k hk hout => ?_
    by_cases hkn : k = n
    · rw [hkn]
      exact .inr ⟨rfl, le_refl _⟩
    · have haccepts := hjothers k hkn hk
      have hlt := lt_of_le_of_ne (hbelow haccepts) (Ne.symm hkn)
      refine absurd ?_ hout
      unfold ownersAfter
      rw [List.mem_filter, htouched, haccepts]
      simp [hlt]
  have htake : j.deliverTouched s.time.slotCount p cs n = j.takeSlip s.time.slotCount p n := by
    unfold State.deliverTouched State.deliverOwner State.arbitrateAmong
    rw [htouched, if_pos hn0, if_pos (hjposted hn0 (by simp)), if_neg (by simp [hjserved]), hchoose]
  obtain ⟨before, behind, hsplit⟩ := List.append_of_mem (List.mem_finRange n)
  have hsorted := List.pairwise_lt_finRange 16
  rw [hsplit] at hsorted
  have hbefore : before.foldl (State.deliverTouched s.time.slotCount p cs) j = j :=
    foldl_of_unmoved fun k hk => by
      have hlt : k < n := (List.pairwise_append.mp hsorted).2.2 k hk n List.mem_cons_self
      have hnot : touched cs (slotAddr k.val) (slotAddr k.val) = false := by
        rw [htouched, Bool.eq_false_iff]
        exact fun h => absurd (hbelow h) (not_le.mpr hlt)
      unfold State.deliverTouched
      rw [hnot, if_neg (by simp)]
  rw [hsplit, List.foldl_append, List.foldl_cons, hbefore, htake]
  obtain ⟨hs, hd, hk⟩ := State.takeSlip_tookSlot (n := n) s.time.slotCount p hwfj
  obtain ⟨he, hx⟩ := State.foldl_served (p := p) s.time.slotCount cs hs behind
  rw [he, hx]
  refine ⟨hs, hd, fun hsix => ?_⟩
  rw [hkind] at hk
  obtain ⟨hlast, hposted⟩ := hk hsix
  refine ⟨hlast, fun m hm hin hone howner => hposted m (ne_of_gt hm) ?_⟩
  have hlt : slotAddr n.val < slotAddr m.val := by
    have : n.val < m.val := hm
    unfold slotAddr
    omega
  have hone' : (1 :: data).getD (slotAddr m.val - slotAddr n.val) 0 = 1 := by
    rw [show slotAddr m.val - slotAddr n.val = (slotAddr m.val - slotAddr n.val - 1) + 1 by omega]
    exact hone
  exact hjposted (hposts (le_of_lt hm) hin hone' howner) hone'

/-- POSTED written while the engine has served the slot stands (R167). -/
theorem slipPost_waits (hp : s.store.active = some p) (hwf : s.xmem.wf = true) (hready : s.xmem.ready = true)
    (hmove : ownerMoves.contains (s.xmem.peek (slotAddr n.val), Owner.posted.code) = true) (hserved : s.engine.served = true) :
    s.writeOwner n .posted = { s with xmem := (s.writeOwner n .posted).xmem } ∧
      (s.writeOwner n .posted).xmem.peek (slotAddr n.val) = 1 ∧
      s.xmem.frameWrote [(slotAddr n.val, 1)] 0 (s.writeOwner n .posted).xmem := by
  have hwrote := State.slotLanded_wrote (n := n) (data := [Owner.posted.code]) hwf (by simp)
  have hbyte : (s.slotLanded n [Owner.posted.code]).xmem.peek (slotAddr n.val) = Owner.posted.code := by
    rw [hwrote.peek _ (slotAddr_lt n.isLt), if_pos (by simp)]
    simp
  have hstands : s.writeOwner n .posted = s.slotLanded n [Owner.posted.code] := by
    have hlanded : (s.slotLanded n [Owner.posted.code]).engine.served = true := by simpa using hserved
    rw [State.writeOwner_accepted hwf hp hready hmove, State.deliverOwner, State.arbitrateAmong, if_pos hlanded]
    unfold Exchange.ownerIs
    rw [hbyte]
    rfl
  rw [hstands]
  exact ⟨by apply State.ext_blocks <;> simp, hbyte,
    hwrote.frameWrote (Exchange.writes_refl _ _) ⟨BitVec.or_zero.symm, rfl⟩ (by simp [rangeWithin])⟩

/-- POSTED written to an idle engine is the take of its slip (R167, R168). -/
theorem slipPost_takes (hp : s.store.active = some p) (hwf : s.xmem.wf = true) (htakes : s.takesNow n = true) :
    let t := s.writeOwner n .posted
    t.engine.served = true ∧ ((s.xmem.peek (slotAddr n.val + 1)).toNat ≠ 6 → t.engine.lastServed = n) ∧
      t.xmem.peek (slotAddr n.val) ≠ 1 ∧
      ((s.xmem.peek (slotAddr n.val + 1)).toNat = 0 ∨ 10 < (s.xmem.peek (slotAddr n.val + 1)).toNat →
        t = { s with engine := s.engine.afterTake n, xmem := t.xmem } ∧
          s.xmem.slipDone n (s.xmem.slotBody n) (SlipResult.only .unknownKind) [] 0 t.xmem) := by
  have htaken : s.writeOwner n .posted = (s.slotLanded n [1]).takeSlip s.time.slotCount p n :=
    State.writeSlot_taken hwf hp htakes rfl (by simp)
  have hwrote := State.slotLanded_wrote (n := n) (data := [1]) hwf (by simp)
  have hkind : (s.slotLanded n [1]).xmem.peek (slotAddr n.val + 1) = s.xmem.peek (slotAddr n.val + 1) :=
    hwrote.kept (slotByte_lt n.isLt (by omega)) (.inr (by simp))
  obtain ⟨hserved, howner, hlast⟩ := State.takeSlip_tookSlot (n := n) s.time.slotCount p hwrote.wf
  dsimp only
  rw [htaken]
  refine ⟨hserved, fun hne => (hlast ?_).1, fun h => ?_, fun hunknown => ?_⟩
  · rw [hkind]
    exact fun h => hne (by rw [h]; rfl)
  · unfold Exchange.ownerIs at howner
    rw [h] at howner
    exact absurd howner (by decide)
  · have hrun : (s.slotLanded n [1]).takeSlip s.time.slotCount p n =
        State.immediate n ((s.slotLanded n [1]).mapEngine (Engine.afterTake n), SlipResult.only .unknownKind) :=
      State.runSlip_unknown s.time.slotCount p (u := (s.slotLanded n [1]).mapEngine (Engine.afterTake n))
        (by rw [← hkind] at hunknown; exact hunknown)
    have hrest (i : Nat) (hi : i < ((s.xmem.slotBody n).drop 1).length) :
        s.xmem.peek (slotAddr n.val + 1 + i) = ((s.xmem.slotBody n).drop 1).getD i 0 := by
      rw [getD_drop, Nat.add_assoc]
      exact s.xmem.shows_slotBody n (1 + i) (by simp [Exchange.slotBody] at hi ⊢; omega)
    have hdone := Exchange.slipDone_of (hwrote.widen hrest) (by simp [Exchange.slotBody]) (Exchange.writes_refl [] _)
      ⟨BitVec.or_zero.symm, rfl⟩ (fun _ _ _ => rfl) (SlipResult.only .unknownKind)
    have hbody : s.xmem.slotBody n = s.xmem.peek (slotAddr n.val) :: (s.xmem.slotBody n).drop 1 := by
      simp [Exchange.slotBody, List.range_succ_eq_map]
    rw [hrun, State.immediate_xmem, State.mapEngine_xmem, hbody]
    exact ⟨by apply State.ext_blocks <;> simp [State.immediate], hdone.of_owner⟩

end turn

/-- Settles O43: the frame's own delivery or the slot start takes the slot, by the arbiter's choice. -/
theorem postedSlotIsTakenInTurn : Obligations.PostedSlotIsTakenInTurn := by
  intro s p n pgood hsleep levels data hp hwf hready
  have hmove : ownerMoves.contains (s.xmem.peek (slotAddr n.val), Owner.posted.code) =
      decide (s.xmem.peek (slotAddr n.val) = 0 ∨ s.xmem.peek (slotAddr n.val) = 5) :=
    Bool.eq_iff_iff.mpr (by simp [ownerMoves, Owner.code])
  refine ⟨s.writeOwner n .posted, rfl, ⟨fun hcur hserved => ?_, fun htakes => ?_, fun htakes hunknown => ?_, fun hcur => ?_⟩,
    slotStart_takes hp hwf pgood hsleep levels, fun htakes => write_takes hp hwf htakes data⟩
  · exact slipPost_waits hp hwf hready (by rw [hmove]; simpa using hcur) hserved
  · obtain ⟨hserved, hlast, howner, _⟩ := slipPost_takes hp hwf htakes
    exact ⟨hserved, hlast, howner⟩
  · obtain ⟨_, _, _, hdone⟩ := slipPost_takes hp hwf htakes
    exact hdone hunknown
  · obtain ⟨hframe, hrefused, _, _, _, hpeek⟩ := State.writeOwner_refused (o := .posted) hwf hp hready
      (hmove.trans (decide_eq_false hcur))
    exact ⟨hframe, hrefused, hpeek⟩

end Sys2Proof.Proofs
end

