-- ==== Sys2Proof/Proofs/ServiceWriteEnd.lean ====
section
/-!
SUPPORT. The end of a service record write (R181, R62): the slip that the record's write completes, the slot that its link
promotes, and what a slip taken in the same event leaves of the reference.
-/

namespace Sys2Proof.Machine

/-! ### No slip changes the reference (R62, R181) -/

/-- The service record, and the reference and clog figures made from it, are the same. -/
def State.sameReference (u t : State) : Prop :=
  t.store.serviceRecord = u.store.serviceRecord ∧ t.store.service = u.store.service ∧
    t.air.filterReference = u.air.filterReference ∧ t.air.clogIndex = u.air.clogIndex ∧ t.air.clogLimit = u.air.clogLimit

section reference
variable {u t : State} {n : Fin 16} (now : SlotCount) (p : Image)

theorem State.sameReference.of_blocks (hstore : t.store = u.store) (hair : t.air = u.air) : u.sameReference t := by
  unfold State.sameReference
  rw [hstore, hair]
  exact ⟨rfl, rfl, rfl, rfl, rfl⟩

theorem State.immediate_sameReference {a : State × SlipResult} (h : u.sameReference a.1) :
    u.sameReference (State.immediate n a) := h

theorem State.lasting_sameReference (b : LastingBlock) {a : State × LastingAnswer} (h : u.sameReference a.1) :
    u.sameReference (State.lasting b n a) := by
  obtain ⟨v, answer⟩ := a
  cases answer <;> exact h

theorem State.fanFloorSlip_sameReference (fan floor : Nat) : u.sameReference (u.fanFloorSlip fan floor).1 := by
  unfold State.fanFloorSlip
  split <;> exact ⟨rfl, rfl, rfl, rfl, rfl⟩

theorem State.probeSlip_sameReference (o : ProbeOrigin) : u.sameReference (u.probeSlip o).1 := by
  unfold State.probeSlip
  split <;> exact ⟨rfl, rfl, rfl, rfl, rfl⟩

theorem State.commitSlip_sameReference : u.sameReference (u.commitSlip now).1 := by
  unfold State.commitSlip
  split
  · exact ⟨rfl, rfl, rfl, rfl, rfl⟩
  · split <;> exact ⟨rfl, rfl, rfl, rfl, rfl⟩

theorem State.restartHost_sameReference (mode : Nat) : u.sameReference (u.restartHost now p mode) := by
  unfold State.restartHost
  split
  · split
    · obtain ⟨f, _, heq⟩ := State.enterResetting_after
        (s := u.addRecord now .hostRequest .warm u.mon.ladderIndex .running) now p
      have hair := State.hostRestartClearing_air
        (s := (u.addRecord now .hostRequest .warm u.mon.ladderIndex .running).setRail now .resetting) now p
      rw [heq]
      refine ⟨?_, ?_, ?_, ?_, ?_⟩ <;> simp [hair, State.clearAir]
    · split
      · exact .of_blocks (by simp) (by simp)
      · exact ⟨rfl, rfl, rfl, rfl, rfl⟩
  · exact ⟨rfl, rfl, rfl, rfl, rfl⟩

theorem State.runSlip_sameReference : u.sameReference (u.runSlip now p n) := by
  unfold State.runSlip
  dsimp only
  split
  · exact State.immediate_sameReference (.of_blocks (by simp) (by simp))
  · exact State.immediate_sameReference (State.fanFloorSlip_sameReference _ _)
  · exact State.lasting_sameReference _ (State.probeSlip_sameReference _)
  · exact State.lasting_sameReference _ (State.probeSlip_sameReference _)
  · exact State.immediate_sameReference (.of_blocks (by simp) (by simp))
  · exact State.restartHost_sameReference (u := u.mapX _) now p _
  · exact State.immediate_sameReference (.of_blocks (by simp) (by simp))
  · exact State.lasting_sameReference _ (.of_blocks (by simp) (by simp))
  · exact State.immediate_sameReference (.of_blocks (by simp) (by simp))
  · exact State.lasting_sameReference _ (State.commitSlip_sameReference now)
  · exact State.immediate_sameReference ⟨rfl, rfl, rfl, rfl, rfl⟩

theorem State.arbitrate_sameReference : u.sameReference (u.arbitrate now p) := by
  unfold State.arbitrate State.arbitrateAmong
  split
  · exact ⟨rfl, rfl, rfl, rfl, rfl⟩
  · split
    · exact ⟨rfl, rfl, rfl, rfl, rfl⟩
    · exact State.runSlip_sameReference (u := u.mapEngine fun e => { e with served := true, lastServed := _ }) now p

end reference

/-! ### What a completion with OK leaves POSTED (R171) -/

section link
variable {x : Exchange} {n : Fin 16} {r : SlipResult}

theorem State.arbitrate_of_nonePosted {u : State} (now : SlotCount) (p : Image) (h : u.nonePosted) : u.arbitrate now p = u := by
  have hnone : u.choose [] = none := by
    have hfilter : (u.engine.searchOrder.filter fun n => u.xmem.ownerIs n.val .posted && !([] : List (Fin 16)).contains n) = [] :=
      List.filter_eq_nil_iff.mpr fun n _ => by simp [h n]
    unfold State.choose
    rw [hfilter]
    rfl
  unfold State.arbitrate State.arbitrateAmong
  rw [hnone]
  split <;> rfl

theorem Exchange.slotBody_length (x : Exchange) (n : Fin 16) : (x.slotBody n).length = 32 := by simp [Exchange.slotBody]

theorem Exchange.slotBody_next (x : Exchange) (n : Fin 16) : (x.slotBody n).getD 3 0 = x.peek (slotAddr n.val + 3) :=
  (x.shows_slotBody n 3 (by rw [Exchange.slotBody_length]; omega)).symm

theorem Exchange.complete_slotBody (hx : x.wf = true) (r : SlipResult) :
    x.slotCompleted n (x.slotBody n) r (x.complete n.val r) :=
  Exchange.complete_completed hx (x.shows_slotBody n) (x.slotBody_length n) r

/-- Beside the completed slot, an OK makes at most the CHAINED slot that it names POSTED. -/
theorem Exchange.complete_others (hx : x.wf = true) (hr : r.code = .ok) {m : Fin 16} (hm : m ≠ n) :
    (x.complete n.val r).peek (slotAddr m.val) =
        (if m.val = (x.peek (slotAddr n.val + 3)).toNat ∧ x.ownerIs m.val .chained = true then Owner.posted.code
          else x.peek (slotAddr m.val)) ∧
      ∀ i < 64, 0 < i → (x.complete n.val r).peek (slotAddr m.val + i) = x.peek (slotAddr m.val + i) := by
  have hcompleted := Exchange.complete_slotBody (n := n) hx r
  rw [Exchange.slotCompleted_iff] at hcompleted
  obtain ⟨_, _, hothers⟩ := hcompleted
  have hbroken : m.val ∉ x.brokenBy n (x.slotBody n) r := by
    unfold Exchange.brokenBy
    rw [if_pos hr]
    simp
  obtain ⟨howner, hrest⟩ := (hothers m hm).2 hbroken
  refine ⟨?_, hrest⟩
  have hchained : x.chainedBeside n m.val = x.ownerIs m.val .chained := by
    have hne : m.val ≠ n.val := fun h => hm (Fin.ext h)
    simp [Exchange.chainedBeside, hne]
  rw [howner, hchained, Exchange.slotBody_next]
  simp only [hr, true_and]

/-- A completion that promotes no slot leaves none POSTED where none was (R171, R172). -/
theorem Exchange.complete_nonePosted (hx : x.wf = true) (hnone : ∀ m : Fin 16, x.ownerIs m.val .posted = false)
    (hchain : r.code = .ok → ∀ m : Fin 16, m ≠ n → (x.peek (slotAddr n.val + 3)).toNat = m.val → x.ownerIs m.val .chained = false)
    (m : Fin 16) : (x.complete n.val r).ownerIs m.val .posted = false := by
  by_cases hm : m = n
  · rw [hm]
    exact (Exchange.complete_posted hx r).1
  have hcompleted := Exchange.complete_slotBody (n := n) hx r
  rw [Exchange.slotCompleted_iff] at hcompleted
  obtain ⟨_, _, hothers⟩ := hcompleted
  obtain ⟨hbroken, hstands⟩ := hothers m hm
  unfold Exchange.ownerIs
  by_cases hmem : m.val ∈ x.brokenBy n (x.slotBody n) r
  · rw [(hbroken hmem).1]
    rfl
  · rw [(hstands hmem).1, if_neg]
    · exact hnone m
    · rintro ⟨hok, hnext, hchained⟩
      rw [Exchange.slotBody_next] at hnext
      have hnot := hchain hok m hm hnext.symm
      simp [Exchange.chainedBeside, hnot] at hchained

end link

/-! ### The end of the write (R181) -/

section ended
variable {s : State} {e : SlotCount}

theorem State.report_of_none {b : LastingBlock} {r : SlipResult} (h : s.engine.binding b = none) : s.report b r = s := by
  unfold State.report
  rw [h]

theorem State.report_of_some {b : LastingBlock} {r : SlipResult} {n : Fin 16} (h : s.engine.binding b = some n) :
    s.report b r = (s.mapEngine (Engine.bind b none)).mapX (Exchange.complete n.val r) := by
  unfold State.report
  rw [h]

/-- What the end of the write answers to the slip that asked for the reference (R62). -/
def State.referenceResult (s : State) : SlipResult :=
  { code := .ok, detail := 0
    payload :=
      le16 s.air.probe.figures.rf ++ le16 (if s.store.serviceRf = 0 then 0xFFFF else 100) ++
        sle16 s.air.probe.figures.averageRise ++ le16 s.air.probe.figures.averageDraw }

theorem State.endServiceWrite_store (e : SlotCount) (s : State) :
    (s.endServiceWrite e).store =
      { s.store with
        serviceRecord := serviceBytes s.store.serviceRf, service := .idle, writeBegan := none
        programmingBegan := if s.store.commit = .programming then some e else s.store.programmingBegan } := by
  simp [State.endServiceWrite, State.referenceWritten]

theorem State.endServiceWrite_air (e : SlotCount) (s : State) :
    (s.endServiceWrite e).air =
      { s.air with
        filterReference := s.store.serviceRf, clogIndex := if s.store.serviceRf = 0 then 0xFFFF else 100, clogLimit := false
        probe := { s.air.probe with phase := .idle } } := by
  simp [State.endServiceWrite, State.referenceWritten]

/-- The reference is in the record and in the air controller, and its slip does not know yet. -/
def State.referenceTaken (e : SlotCount) (s : State) : State :=
  (s.mapStore fun t =>
    { t with
      serviceRecord := serviceBytes s.store.serviceRf, service := .idle, writeBegan := none
      programmingBegan := if t.commit = .programming then some e else t.programmingBegan }).mapAir fun a =>
    { a with
      filterReference := s.store.serviceRf, clogIndex := if s.store.serviceRf = 0 then 0xFFFF else 100, clogLimit := false
      probe := { a.probe with phase := .idle } }

/-- The rest of the end of the write is the report to the slip. -/
theorem State.endServiceWrite_report (e : SlotCount) (s : State) :
    (s.endServiceWrite e).engine = { s.engine with airSlot := none } ∧
      (s.endServiceWrite e).xmem = (match s.engine.airSlot with
        | none => s.xmem
        | some n => s.xmem.complete n.val s.referenceResult) := by
  have hreport : s.endServiceWrite e = (s.referenceTaken e).report .air s.referenceResult := rfl
  have hengine : (s.referenceTaken e).engine = s.engine := rfl
  have hxmem : (s.referenceTaken e).xmem = s.xmem := rfl
  generalize s.referenceTaken e = v at *
  rw [hreport]
  cases hslot : s.engine.airSlot with
  | none =>
    have hbinding : v.engine.binding .air = none := by rw [hengine]; exact hslot
    rw [State.report_of_none hbinding, hengine, ← hslot]
    exact ⟨rfl, by rw [hslot]; exact hxmem⟩
  | some n =>
    have hbinding : v.engine.binding .air = some n := by rw [hengine]; exact hslot
    rw [State.report_of_some hbinding, State.mapX_engine, State.mapX_xmem, State.mapEngine_engine, State.mapEngine_xmem, hengine,
      hxmem]
    exact ⟨rfl, rfl⟩

/-- Without a slip that the completion promotes, no slot is POSTED at the end of the write. -/
theorem State.endServiceWrite_nonePosted (hwf : s.xmem.wf = true) (hnone : s.nonePosted) (hchain : s.unchained s.engine.airSlot) :
    (s.endServiceWrite e).nonePosted := by
  obtain ⟨_, hx⟩ := State.endServiceWrite_report e s
  intro m
  rw [hx]
  split
  · exact hnone m
  · rename_i n hslot
    exact Exchange.complete_nonePosted hwf hnone (fun _ k hk hnext => hchain n hslot k hk hnext) m

end ended

end Sys2Proof.Machine

namespace Sys2Proof.Proofs

open Sys2Proof.Machine

/-- Where the completion promotes a slot, the engine takes that one (R167, R171). -/
theorem promoted_taken {s : State} {p : Image} {e : SlotCount} {n m : Fin 16} (hwf : s.xmem.wf = true)
    (hserved : s.engine.served = false) (hnone : s.nonePosted) (hslot : s.engine.airSlot = some n) (hm : m ≠ n)
    (hnext : (s.xmem.peek (slotAddr n.val + 3)).toNat = m.val) (hchained : s.xmem.ownerIs m.val .chained = true) :
    let t := (s.endServiceWrite e).arbitrate e p
    t.engine.served = true ∧ t.xmem.ownerIs m.val .posted = false ∧
      (s.xmem.peek (slotAddr m.val + 1) ≠ 6 → t.engine.lastServed = m) := by
  obtain ⟨hengine, hx⟩ := State.endServiceWrite_report e s
  rw [hslot] at hx
  have hwfv : (s.endServiceWrite e).xmem.wf = true := (State.endServiceWrite_writes e s hwf).wf
  have hother {k : Fin 16} (hk : k ≠ n) := Exchange.complete_others (n := n) hwf (r := s.referenceResult) rfl hk
  have hposted : (s.endServiceWrite e).xmem.ownerIs m.val .posted = true := by
    unfold Exchange.ownerIs
    rw [hx, (hother hm).1, if_pos ⟨hnext.symm, hchained⟩]
    rfl
  have honly (k : Fin 16) (hk : (s.endServiceWrite e).xmem.ownerIs k.val .posted = true) : k = m := by
    by_contra hkm
    by_cases hkn : k = n
    · rw [hx, hkn, (Exchange.complete_posted hwf s.referenceResult).1] at hk
      cases hk
    · have hnot := hnone k
      unfold Exchange.ownerIs at hk hnot
      rw [hx, (hother hkn).1, if_neg fun h => hkm (Fin.ext (h.1.trans hnext)), hnot] at hk
      cases hk
  have hkind : (s.endServiceWrite e).xmem.peek (slotAddr m.val + 1) = s.xmem.peek (slotAddr m.val + 1) := by
    rw [hx]
    exact (hother hm).2 1 (by omega) (by omega)
  have hserved' : (s.endServiceWrite e).engine.served = false := by rw [hengine]; exact hserved
  generalize s.endServiceWrite e = v at *
  have hchoose : v.choose [] = some m :=
    State.choose_of_first hposted (by simp) fun k hk _ => by rw [honly k hk]; exact .inr ⟨rfl, le_refl _⟩
  have htake : v.arbitrate e p = v.takeSlip e p m := by
    unfold State.arbitrate State.arbitrateAmong
    rw [if_neg (by simp [hserved']), hchoose]
  obtain ⟨ht, hd, hl⟩ := State.takeSlip_tookSlot (n := m) e p hwfv
  dsimp only
  rw [htake]
  exact ⟨ht, hd, fun h => (hl (by rwa [hkind])).1⟩

/-- Settles O52: the record's end reports to the slip, and the engine may take the slot that the report promotes. -/
theorem serviceWriteEndTakesTheReference : Obligations.ServiceWriteEndTakesTheReference := by
  intro s p e hp hwf hdue
  obtain ⟨hwriting, hends⟩ := State.writeDue_eq_some hdue
  obtain ⟨b, hbegan, hlow, hhigh, hwhen⟩ := State.endsWithin_eq_some hends
  have hexec : exec .serviceWriteEnd s = .next ((s.endServiceWrite e).arbitrate e p) := by
    show execServiceWriteEnd s = _
    rw [execServiceWriteEnd, hp, hdue]
  have hstore := State.endServiceWrite_store e s
  have hair := State.endServiceWrite_air e s
  obtain ⟨hengine, hx⟩ := State.endServiceWrite_report e s
  obtain ⟨hrecord, hservice, hreference, hindex, hlimit⟩ := State.arbitrate_sameReference (u := s.endServiceWrite e) e p
  refine ⟨_, hexec, ⟨?_, ?_, ?_, ?_, ?_, fun hquiet => ?_⟩, fun hserved hnone n hslot m hm hnext hchained =>
    promoted_taken hwf hserved hnone hslot hm hnext hchained, hwriting, b, hbegan, hlow, hhigh, hwhen⟩
  · rw [hrecord, hstore]
    rfl
  · rw [hservice, hstore]
  · rw [hreference, hair]
  · rw [hindex, hair]
  · rw [hlimit, hair]
  · have hstands : (s.endServiceWrite e).arbitrate e p = s.endServiceWrite e := by
      obtain hserved | ⟨hnone, hchain⟩ := hquiet
      · have hserved' : (s.endServiceWrite e).engine.served = true := by rw [hengine]; exact hserved
        unfold State.arbitrate State.arbitrateAmong
        rw [if_pos hserved']
      · exact State.arbitrate_of_nonePosted e p (State.endServiceWrite_nonePosted hwf hnone hchain)
    rw [hstands]
    refine ⟨hstore, hair, hengine, ?_, fun hslot => ?_, fun n hslot => ?_⟩
    · apply State.ext_blocks <;> simp
    · rw [hx, hslot]
    · rw [hslot] at hx
      rw [hx]
      refine ⟨Exchange.complete_slotBody hwf _, (Exchange.complete_writes n.isLt _ _).partWrote hwf ?_⟩
      exact Exchange.complete_raised n.val _ s.xmem

end Sys2Proof.Proofs
end

