-- ==== Sys2Proof/Proofs/QueueOffers.lean ====
section
/-!
SUPPORT. The key queue depends on few things (R141, R142): two states that agree on these go on agreeing while the same
events are offered, whatever the power key makes of the rail in between.
-/

namespace Sys2Proof.Machine

/-- The addresses of the write counter, the read counter, the gap count and the entries. -/
def queueAddr (x : Nat) : Bool := decide (x < 0x600) && (decide (0x14 ≤ x ∧ x ≤ 0x18) || decide (0x500 ≤ x))

/-- Two states that the key queue cannot tell apart. -/
structure State.sameQueue (a b : State) : Prop where
  wfLeft : a.xmem.wf = true
  wf : b.xmem.wf = true
  takes : b.rail.state.takesKeys = a.rail.state.takesKeys
  writeCounter : b.keypad.writeCounter = a.keypad.writeCounter
  readCounter : b.keypad.readCounter = a.keypad.readCounter
  gap : b.keypad.gap = a.keypad.gap
  summary : b.xmem.summary = a.xmem.summary
  peek : ∀ x, queueAddr x = true → b.xmem.peek x = a.xmem.peek x

theorem queueAddr_lt {x : Nat} (h : queueAddr x = true) : x < memorySize := by
  simp only [queueAddr, Bool.and_eq_true, decide_eq_true_eq] at h
  unfold memorySize
  omega

section same
variable {a b : State} (now : SlotCount) (p : Image)

/-- The same bytes are written into both. -/
theorem Exchange.peek_partWrite_same {x y : Exchange} (hx : x.wf = true) (hy : y.wf = true)
    (h : ∀ c, queueAddr c = true → y.peek c = x.peek c) (k : Nat) (bs : List Byte) :
    ∀ c, queueAddr c = true → (y.partWrite k bs).peek c = (x.partWrite k bs).peek c := fun c hc => by
  rw [Exchange.peek_partWrite hy _ _ (queueAddr_lt hc), Exchange.peek_partWrite hx _ _ (queueAddr_lt hc), h c hc]

theorem State.sameQueue.setGap (h : a.sameQueue b) (g : Nat) : (a.setGap g).sameQueue (b.setGap g) where
  wfLeft := Exchange.wf_partWrite h.wfLeft _ _
  wf := Exchange.wf_partWrite h.wf _ _
  takes := h.takes
  writeCounter := h.writeCounter
  readCounter := h.readCounter
  gap := rfl
  summary := by rw [(State.setGap_flags g).1, (State.setGap_flags g).1, h.summary]
  peek := Exchange.peek_partWrite_same h.wfLeft h.wf h.peek _ _

theorem State.sameQueue.writeEntry (h : a.sameQueue b) (kind : EntryKind) (subject : Byte) :
    (a.writeEntry now kind subject).sameQueue (b.writeEntry now kind subject) where
  wfLeft := ((State.writeEntry_wrote now kind subject a) h.wfLeft).wf
  wf := ((State.writeEntry_wrote now kind subject b) h.wf).wf
  takes := h.takes
  writeCounter := by rw [State.writeEntry_keypad, State.writeEntry_keypad, h.writeCounter]
  readCounter := by rw [State.writeEntry_keypad, State.writeEntry_keypad, h.readCounter]
  gap := by rw [State.writeEntry_keypad, State.writeEntry_keypad, h.gap]
  summary := by rw [(State.writeEntry_flags now kind subject).1, (State.writeEntry_flags now kind subject).1, h.summary]
  peek := fun c hc => by
    rw [State.writeEntry_eq, State.writeEntry_eq, h.writeCounter]
    have hraise {x : Exchange} (hx : x.wf = true) : (x.raise .key).peek c = x.peek c := by
      refine ((Exchange.raise_writes .key x) hx).kept c (queueAddr_lt hc) ?_
      simp only [queueAddr, Bool.and_eq_true, decide_eq_true_eq, Bool.or_eq_true] at hc
      simp only [outside_cons, outside_nil, and_true]
      omega
    have hwfa := Exchange.wf_partWrite h.wfLeft (entryAddr a.keypad.writeCounter)
      (entryBytes a.keypad.writeCounter kind subject now)
    have hwfb := Exchange.wf_partWrite h.wf (entryAddr a.keypad.writeCounter) (entryBytes a.keypad.writeCounter kind subject now)
    rw [hraise (Exchange.wf_partWrite hwfa _ _), hraise (Exchange.wf_partWrite hwfb _ _)]
    exact Exchange.peek_partWrite_same hwfa hwfb (Exchange.peek_partWrite_same h.wfLeft h.wf h.peek _ _) _ _ c hc

theorem State.sameQueue.writeGap (h : a.sameQueue b) : (a.writeGap now).sameQueue (b.writeGap now) := by
  unfold State.writeGap
  rw [h.gap]
  exact (h.writeEntry now .gap _).setGap 0

theorem State.sameQueue.offer (h : a.sameQueue b) (kind : EntryKind) (subject : Byte) :
    (a.offer now kind subject).sameQueue (b.offer now kind subject) := by
  have hcount : b.keypad.count = a.keypad.count := by
    unfold Keypad.count
    rw [h.writeCounter, h.readCounter]
  unfold State.offer
  rw [h.takes, hcount, h.gap]
  split
  · split
    · exact h.setGap _
    · split
      · split
        · exact (h.writeGap now).setGap 1
        · exact (h.writeGap now).writeEntry now kind subject
      · exact h.writeEntry now kind subject
  · exact h

/-- What the queue cannot tell from `b`. -/
theorem State.sameQueue.of_writes {c : State} {rs : List (Nat × Nat)} (h : a.sameQueue b) (hw : b.xmem.writes rs c.xmem)
    (hrs : ∀ x, queueAddr x = true → outside rs x = true) (hsummary : c.xmem.summary = b.xmem.summary)
    (htakes : c.rail.state.takesKeys = b.rail.state.takesKeys) (hwrite : c.keypad.writeCounter = b.keypad.writeCounter)
    (hread : c.keypad.readCounter = b.keypad.readCounter) (hgap : c.keypad.gap = b.keypad.gap) : a.sameQueue c where
  wfLeft := h.wfLeft
  wf := (hw h.wf).wf
  takes := htakes.trans h.takes
  writeCounter := hwrite.trans h.writeCounter
  readCounter := hread.trans h.readCounter
  gap := hgap.trans h.gap
  summary := hsummary.trans h.summary
  peek := fun x hx => ((hw h.wf).kept x (queueAddr_lt hx) (hrs x hx)).trans (h.peek x hx)

theorem State.powerKeyPress_takes : (b.powerKeyPress now p).rail.state.takesKeys = b.rail.state.takesKeys := by
  unfold State.powerKeyPress
  dsimp only
  split
  · rename_i hoff
    have hb : b.rail.state = .off := hoff
    obtain ⟨_, _, _, heq⟩ := State.enterWarming_rail now p
      (b.mapRail fun r => { r with override := some (after now (seconds (Profile.overrideTime p))) })
    rw [heq, hb]
    rfl
  · rw [State.startPulse_rail]
    split <;> rfl
  · rfl

theorem State.powerKeyPress_summary : (b.powerKeyPress now p).xmem.summary = b.xmem.summary := by
  unfold State.powerKeyPress
  dsimp only
  split <;> simp

/-- What the power key makes of the rail leaves the queue. -/
theorem State.sameQueue.press (h : a.sameQueue b) : a.sameQueue (b.powerKeyPress now p) := by
  refine h.of_writes (State.powerKeyPress_writes now p b) (fun x hx => ?_) (State.powerKeyPress_summary now p)
    (State.powerKeyPress_takes now p) (by simp) (by simp) (by simp)
  simp only [queueAddr, Bool.and_eq_true, decide_eq_true_eq, Bool.or_eq_true] at hx
  simp only [warmingBytes, outside_cons, outside_nil, and_true]
  omega

/-- The events of a scan offered one by one, the power key aside. -/
def State.offerAll (now : SlotCount) (es : List KeyEvent) (s : State) : State :=
  es.foldl (fun x e => x.offer now e.kind e.subject) s

theorem State.sameQueue.give (h : a.sameQueue b) (e : KeyEvent) : (a.offer now e.kind e.subject).sameQueue (b.give now p e) := by
  have hoffered := h.offer now e.kind e.subject
  unfold State.give
  dsimp only
  split
  · exact hoffered
  · exact hoffered.press now p
  · exact hoffered.of_writes (rs := []) (Exchange.writes_refl _ _) (fun _ _ => rfl) rfl rfl rfl rfl rfl

theorem State.sameQueue.giveAll (h : a.sameQueue b) (es : List KeyEvent) :
    (a.offerAll now es).sameQueue (es.foldl (State.give now p) b) := by
  induction es generalizing a b with
  | nil => exact h
  | cons e es ih => exact ih (h.give now p e)

end same

end Sys2Proof.Machine
end

