-- ==== Sys2Proof/Proofs/RebaselineSlip.lean ====
section
/-!
SUPPORT. REBASELINE KEYS (R144, R145): the keys that enter calibration in ascending number, the touches that this ends, and
their RELEASE_FORCED events.
-/

namespace Sys2Proof.Machine

/-! ### Events that are no press (R140) -/

/-- Causes are only raised from `x` to `y`, and the enable stands. -/
def Exchange.grown (x y : Exchange) : Prop := x.summary ||| y.summary = y.summary ∧ y.enable = x.enable

theorem Exchange.grown.trans {x y z : Exchange} (h : x.grown y) (h' : y.grown z) : x.grown z :=
  ⟨by rw [← h'.1, ← BitVec.or_assoc, h.1], h'.2.trans h.2⟩

theorem Exchange.grown_refl (x : Exchange) : x.grown x := ⟨BitVec.or_self, rfl⟩

theorem Exchange.grown_of {x y : Exchange} {c : BitVec 12} (h : x.raised c y) : x.grown y :=
  ⟨by rw [h.1, ← BitVec.or_assoc, BitVec.or_self], h.2⟩

section give
variable {s v : State} (now : SlotCount) (p : Image)

theorem State.setGap_grown (g : Nat) : s.xmem.grown (s.setGap g).xmem := by
  obtain ⟨hs, he⟩ := State.setGap_flags (s := s) g
  exact ⟨by rw [hs, BitVec.or_self], he⟩

theorem State.offer_grown (kind : EntryKind) (subject : Byte) : s.xmem.grown (s.offer now kind subject).xmem := by
  have hentry (u : State) : u.xmem.grown (u.writeEntry now kind subject).xmem :=
    Exchange.grown_of (State.writeEntry_flags now kind subject)
  have hgap : s.xmem.grown (s.writeGap now).xmem := Exchange.grown_of (State.writeGap_flags now)
  unfold State.offer
  split
  · split
    · exact State.setGap_grown _
    · split
      · split
        · exact hgap.trans (State.setGap_grown 1)
        · exact hgap.trans (hentry _)
      · exact hentry _
  · exact Exchange.grown_refl _

/-- An event that is no press of the power key leaves the rail but for the override time. -/
theorem State.give_release {e : KeyEvent} (h : e.power ≠ some true) :
    (s.give now p e).rail = { s.rail with override := if e.power = some false then none else s.rail.override } ∧
      (s.give now p e).climate = s.climate ∧ (s.give now p e).mon = s.mon ∧
      s.xmem.writes queueBytes (s.give now p e).xmem ∧ s.xmem.grown (s.give now p e).xmem := by
  have hw := State.offer_writes now e.kind e.subject s
  have hg := State.offer_grown (s := s) now e.kind e.subject
  unfold State.give
  dsimp only
  split
  · rename_i hpower
    rw [hpower]
    exact ⟨by simp, by simp, by simp, hw, hg⟩
  · exact absurd ‹_› h
  · rename_i hpower
    rw [hpower]
    exact ⟨by simp [State.powerKeyRelease], by simp [State.powerKeyRelease], by simp [State.powerKeyRelease], hw, hg⟩

theorem State.giveAll_release (es : List KeyEvent) (h : ∀ e ∈ es, e.power ≠ some true) :
    let t := es.foldl (State.give now p) s
    t.rail = { s.rail with override := if es.any (fun e => e.power == some false) then none else s.rail.override } ∧
      t.climate = s.climate ∧ t.mon = s.mon ∧ s.xmem.writes queueBytes t.xmem ∧ s.xmem.grown t.xmem := by
  induction es generalizing s with
  | nil => exact ⟨rfl, rfl, rfl, Exchange.writes_refl _ _, Exchange.grown_refl _⟩
  | cons e es ih =>
    obtain ⟨hrail, hclimate, hmon, hw, hg⟩ := State.give_release (s := s) now p (h e List.mem_cons_self)
    obtain ⟨hrail', hclimate', hmon', hw', hg'⟩ := ih (s := s.give now p e) fun e' he' => h e' (List.mem_cons_of_mem _ he')
    refine ⟨?_, hclimate'.trans hclimate, hmon'.trans hmon, hw.trans hw', hg.trans hg'⟩
    rw [List.foldl_cons, hrail', hrail, List.any_cons]
    by_cases hpower : e.power = some false
    · simp [hpower]
    · have hne : (e.power == some false) = false := by simpa using hpower
      simp [hpower, hne]

end give

/-! ### Keys that enter calibration (R144) -/

/-- The RELEASE_FORCED of key `k`. -/
def forcedEvent (p : Image) (k : Fin 24) : KeyEvent :=
  { kind := .releaseForced, subject := keySubject k, power := powerNotice p k false }

/-- A key record that has entered calibration (R133, R144). -/
def KeyRec.calibrating (r : KeyRec) : KeyRec :=
  { r with
    state := .calibrating, calSum := 0, calCount := 0
    touchTime := if r.state.isTouched then none else r.touchTime
    nextHold := if r.state.isTouched then none else r.nextHold }

/-- The keypad controller once the keys of `l` have entered calibration. -/
def Keypad.calibrated (p : Image) (l : List (Fin 24)) (kp : Keypad) : Keypad :=
  { kp with
    keys := tab 24 fun k => if k ∈ l then kp.keys[k].calibrating else kp.keys[k]
    chords := tab 4 fun c =>
      if (Profile.chordMembers p c).any fun k => decide (k ∈ l) && kp.keys[k].state.isTouched then
        { fired := false, holdEnd := none }
      else kp.chords[c] }

section calibrated
variable {p : Image} {kp : Keypad}

theorem Keypad.calibrated_key (l : List (Fin 24)) (k : Fin 24) :
    (kp.calibrated p l).keys[k] = if k ∈ l then kp.keys[k].calibrating else kp.keys[k] := by
  simp [Keypad.calibrated]

theorem Keypad.calibrated_chord (l : List (Fin 24)) (c : Fin 4) :
    (kp.calibrated p l).chords[c] =
      if (Profile.chordMembers p c).any fun k => decide (k ∈ l) && kp.keys[k].state.isTouched then
        { fired := false, holdEnd := none }
      else kp.chords[c] := by
  simp [Keypad.calibrated]

/-- Two keypad controllers that differ in keys and chords at most. -/
theorem Keypad.ext_keys {a b : Keypad} (hrest : b = { a with keys := b.keys, chords := b.chords })
    (hkeys : ∀ k : Fin 24, a.keys[k] = b.keys[k]) (hchords : ∀ c : Fin 4, a.chords[c] = b.chords[c]) : a = b := by
  have hk : a.keys = b.keys := Vector.ext fun i hi => hkeys ⟨i, hi⟩
  have hc : a.chords = b.chords := Vector.ext fun i hi => hchords ⟨i, hi⟩
  rw [hrest, ← hk, ← hc]

theorem Keypad.setKey_key (k j : Fin 24) (r : KeyRec) : (kp.setKey k r).keys[j] = if j = k then r else kp.keys[j] := by
  have hset : (kp.keys.set k.val r)[j.val] = if k.val = j.val then r else kp.keys[j.val] := Vector.getElem_set ..
  refine hset.trans ?_
  by_cases h : j = k
  · simp [h]
  · have hne : k.val ≠ j.val := fun h' => h (Fin.ext h'.symm)
    simp [h, hne]

theorem Keypad.enterCalibration_eq (p : Image) (k : Fin 24) (kp : Keypad) :
    kp.enterCalibration p k =
      (kp.calibrated p [k], if kp.keys[k].state.isTouched then [forcedEvent p k] else []) := by
  unfold Keypad.enterCalibration
  dsimp only
  cases htouched : kp.keys[k].state.isTouched
  · rw [if_neg (by simp), if_neg (by simp)]
    refine Prod.ext (Keypad.ext_keys rfl (fun j => ?_) fun c => ?_) rfl
    · rw [Keypad.setKey_key, Keypad.calibrated_key]
      by_cases hj : j = k
      · subst hj
        rw [if_pos rfl, if_pos (List.mem_singleton.mpr rfl), KeyRec.calibrating, htouched]
        rfl
      · simp [hj]
    · rw [Keypad.calibrated_chord, if_neg]
      · rfl
      · simp only [List.mem_singleton, List.any_eq_true, Bool.and_eq_true, decide_eq_true_eq]
        rintro ⟨m, _, rfl, hm⟩
        rw [htouched] at hm
        cases hm
  · rw [if_pos rfl, if_pos rfl]
    refine Prod.ext (Keypad.ext_keys rfl (fun j => ?_) fun c => ?_) rfl
    · have hrearm (u : Keypad) : (u.rearm p k).keys[j] = u.keys[j] := rfl
      rw [hrearm, Keypad.setKey_key, Keypad.calibrated_key]
      by_cases hj : j = k
      · subst hj
        rw [if_pos rfl, if_pos (List.mem_singleton.mpr rfl), KeyRec.calibrating, htouched]
        rfl
      · simp [hj]
    · rw [Keypad.calibrated_chord]
      have hany : ((Profile.chordMembers p c).any fun m => decide (m ∈ [k]) && kp.keys[m].state.isTouched) =
          (Profile.chordMembers p c).contains k := by
        rw [Bool.eq_iff_iff]
        simp only [List.mem_singleton, List.any_eq_true, Bool.and_eq_true, decide_eq_true_eq, List.contains_iff_mem]
        exact ⟨fun ⟨m, hm, hk, _⟩ => hk ▸ hm, fun h => ⟨k, h, rfl, htouched⟩⟩
      rw [hany]
      simp [Keypad.rearm, Keypad.setKey]

theorem Keypad.calibrated_cons {k : Fin 24} {l : List (Fin 24)} (hk : k ∉ l) :
    (kp.calibrated p [k]).calibrated p l = kp.calibrated p (k :: l) := by
  have hother {j : Fin 24} (hj : j ∈ l) : (kp.calibrated p [k]).keys[j] = kp.keys[j] := by
    rw [Keypad.calibrated_key, if_neg]
    rintro hjk
    exact hk (List.mem_singleton.mp hjk ▸ hj)
  refine Keypad.ext_keys rfl (fun j => ?_) fun c => ?_
  · rw [Keypad.calibrated_key, Keypad.calibrated_key (l := k :: l)]
    by_cases hj : j ∈ l
    · rw [if_pos hj, if_pos (List.mem_cons_of_mem _ hj), hother hj]
    · rw [if_neg hj, Keypad.calibrated_key]
      by_cases hjk : j = k <;> simp [hjk, hj]
  · rw [Keypad.calibrated_chord, Keypad.calibrated_chord (l := k :: l), Keypad.calibrated_chord]
    have hrest : ((Profile.chordMembers p c).any fun m => decide (m ∈ l) && (kp.calibrated p [k]).keys[m].state.isTouched) =
        (Profile.chordMembers p c).any fun m => decide (m ∈ l) && kp.keys[m].state.isTouched := by
      refine congrArg _ (funext fun m => ?_)
      by_cases hm : m ∈ l
      · rw [hother hm]
      · simp [hm]
    have hsplit : ((Profile.chordMembers p c).any fun m => decide (m ∈ k :: l) && kp.keys[m].state.isTouched) =
        (((Profile.chordMembers p c).any fun m => decide (m ∈ l) && kp.keys[m].state.isTouched) ||
          (Profile.chordMembers p c).any fun m => decide (m ∈ [k]) && kp.keys[m].state.isTouched) := by
      rw [Bool.eq_iff_iff]
      simp only [List.any_eq_true, Bool.or_eq_true, Bool.and_eq_true, decide_eq_true_eq, List.mem_cons]
      constructor
      · rintro ⟨m, hm, rfl | hml, ht⟩
        · exact .inr ⟨m, hm, .inl rfl, ht⟩
        · exact .inl ⟨m, hm, hml, ht⟩
      · rintro (⟨m, hm, hml, ht⟩ | ⟨m, hm, hmk, ht⟩)
        · exact ⟨m, hm, .inr hml, ht⟩
        · exact ⟨m, hm, .inl (by simpa using hmk), ht⟩
    rw [hrest, hsplit]
    cases (Profile.chordMembers p c).any fun m => decide (m ∈ l) && kp.keys[m].state.isTouched <;> simp

/-- The keys of a list enter calibration one after another. -/
theorem Keypad.enterCalibration_foldl (p : Image) (l : List (Fin 24)) (hl : l.Nodup) (kp : Keypad) (es : List KeyEvent) :
    l.foldl (fun (acc : Keypad × List KeyEvent) k =>
        let (kp, es) := acc.1.enterCalibration p k
        (kp, acc.2 ++ es)) (kp, es) =
      (kp.calibrated p l, es ++ (l.filter fun k => kp.keys[k].state.isTouched).map (forcedEvent p)) := by
  induction l generalizing kp es with
  | nil =>
    refine Prod.ext (Keypad.ext_keys rfl (fun j => ?_) fun c => ?_) (by simp)
    · rw [Keypad.calibrated_key, if_neg (List.not_mem_nil)]
      rfl
    · rw [Keypad.calibrated_chord, if_neg (by simp)]
      rfl
  | cons k l ih =>
    obtain ⟨hk, hl'⟩ := List.nodup_cons.mp hl
    rw [List.foldl_cons, Keypad.enterCalibration_eq, ih hl', Keypad.calibrated_cons hk]
    have hother : (l.filter fun j => (kp.calibrated p [k]).keys[j].state.isTouched) =
        l.filter fun j => kp.keys[j].state.isTouched :=
      List.filter_congr fun j hj => by
        rw [Keypad.calibrated_key, if_neg]
        exact fun hjk => hk (List.mem_singleton.mp hjk ▸ hj)
    rw [hother, List.filter_cons]
    split <;> simp

end calibrated

/-! ### The slip (R145) -/

/-- The keys that a mask names among the enabled ones. -/
def namedKeys (p : Image) (mask : BitVec 24) : List (Fin 24) :=
  (List.finRange 24).filter fun k => mask.getLsbD k.val && Profile.keyEnabled p k

theorem mem_namedKeys {p : Image} {mask : BitVec 24} {k : Fin 24} :
    k ∈ namedKeys p mask ↔ (mask.getLsbD k.val && Profile.keyEnabled p k) = true := by
  simp [namedKeys]

/-- The set of the keys of a list. -/
def keySet (l : List (Fin 24)) : BitVec 24 := l.foldl (fun m k => m ||| (1#24 <<< k.val)) 0

theorem getLsbD_keyBit (k j : Fin 24) : (1#24 <<< k.val).getLsbD j.val = decide (j = k) := by
  have hj := j.isLt
  rw [BitVec.getLsbD_shiftLeft, BitVec.getLsbD_one, Bool.eq_iff_iff]
  simp only [Bool.and_eq_true, Bool.not_eq_true', decide_eq_true_eq, decide_eq_false_iff_not, Fin.ext_iff]
  omega

theorem getLsbD_foldl_keyBit (l : List (Fin 24)) (m : BitVec 24) (j : Fin 24) :
    (l.foldl (fun m k => m ||| (1#24 <<< k.val)) m).getLsbD j.val = (m.getLsbD j.val || decide (j ∈ l)) := by
  induction l generalizing m with
  | nil => simp
  | cons k l ih =>
    rw [List.foldl_cons, ih, BitVec.getLsbD_or, getLsbD_keyBit, Bool.or_assoc]
    congr 1
    simp [List.mem_cons]

theorem getLsbD_keySet (l : List (Fin 24)) (j : Fin 24) : (keySet l).getLsbD j.val = decide (j ∈ l) := by
  rw [keySet, getLsbD_foldl_keyBit]
  simp

section slip
variable {s v : State} (now : SlotCount) (p : Image) (mask : BitVec 24)

/-- The keypad controller that has taken the slip. -/
def Keypad.rebaselined (p : Image) (mask : BitVec 24) (kp : Keypad) : Keypad :=
  { kp.calibrated p (namedKeys p mask) with rebaseline := some (keySet (namedKeys p mask)), stopPending := false }

/-- The events of the touches that the slip ends. -/
def Keypad.forcedEvents (p : Image) (mask : BitVec 24) (kp : Keypad) : List KeyEvent :=
  ((namedKeys p mask).filter fun k => kp.keys[k].state.isTouched).map (forcedEvent p)

theorem State.rebaselineSlip_answered
    (h : v.keypad.rebaseline.isSome = true ∨ namedKeys p mask = []) :
    v.rebaselineSlip now p mask = (v, .atOnce (if v.keypad.rebaseline.isSome then SlipResult.only .busy
      else if mask = 0 then SlipResult.only .badParam else { SlipResult.ok with payload := maskPayload 0 })) := by
  have hnamed : (List.finRange 24).filter (fun k => mask.getLsbD k.val && Profile.keyEnabled p k) = namedKeys p mask := rfl
  unfold State.rebaselineSlip
  rw [hnamed]
  dsimp only
  by_cases hbusy : v.keypad.rebaseline.isSome = true
  · rw [if_pos hbusy, if_pos hbusy]
  · rw [if_neg hbusy, if_neg hbusy]
    by_cases hmask : mask = 0
    · rw [if_pos hmask, if_pos hmask]
    · rw [if_neg hmask, if_neg hmask, if_pos (h.resolve_left hbusy)]

theorem State.rebaselineSlip_taken (hnone : v.keypad.rebaseline = none) (hnamed : namedKeys p mask ≠ []) :
    v.rebaselineSlip now p mask =
      ((v.keypad.forcedEvents p mask).foldl (State.give now p) (v.mapKeypad (Keypad.rebaselined p mask)), .accepted) := by
  have heq : (List.finRange 24).filter (fun k => mask.getLsbD k.val && Profile.keyEnabled p k) = namedKeys p mask := rfl
  have hmask : mask ≠ 0 := by
    rintro rfl
    exact hnamed (List.filter_eq_nil_iff.mpr fun k _ => by simp)
  have hnodup : (namedKeys p mask).Nodup := (List.nodup_finRange 24).filter _
  unfold State.rebaselineSlip
  rw [heq, if_neg (by simp [hnone]), if_neg hmask, if_neg hnamed]
  dsimp only
  rw [Keypad.enterCalibration_foldl p _ hnodup]
  rfl

theorem Keypad.forcedEvents_release (kp : Keypad) : ∀ e ∈ kp.forcedEvents p mask, e.power ≠ some true := by
  intro e he
  obtain ⟨k, _, rfl⟩ := List.mem_map.mp he
  unfold forcedEvent powerNotice
  split <;> simp

/-- A RELEASE_FORCED of the power key stops the override time. -/
theorem Keypad.forcedEvents_power (kp : Keypad) :
    (kp.forcedEvents p mask).any (fun e => e.power == some false) =
      (Profile.powerKey p).any fun k => (mask.getLsbD k.val && Profile.keyEnabled p k) && kp.keys[k].state.isTouched := by
  have hpower (k : Fin 24) : ((forcedEvent p k).power == some false) = decide (Profile.powerKey p = some k) := by
    unfold forcedEvent powerNotice
    by_cases hk : Profile.powerKey p = some k <;> simp [hk]
  rw [Bool.eq_iff_iff]
  unfold Keypad.forcedEvents
  rw [List.any_map]
  simp only [List.any_eq_true, List.mem_filter, mem_namedKeys, Function.comp_apply, hpower, decide_eq_true_eq,
    Option.any_eq_true, Bool.and_eq_true]
  constructor
  · rintro ⟨k, ⟨hk, ht⟩, hp⟩
    exact ⟨k, hp, hk, ht⟩
  · rintro ⟨k, hp, hk, ht⟩
    exact ⟨k, ⟨hk, ht⟩, hp⟩

/-- The events offered one after another, as the statements write it. -/
theorem State.offerAll_forced (kp : Keypad) :
    s.offerAll now (kp.forcedEvents p mask) =
      (List.finRange 24).foldl
        (fun (x : State) k =>
          if (mask.getLsbD k.val && Profile.keyEnabled p k) && kp.keys[k].state.isTouched then
            x.offer now .releaseForced (BitVec.ofNat 8 k.val)
          else x) s := by
  unfold State.offerAll Keypad.forcedEvents namedKeys
  rw [List.foldl_map, List.filter_filter, List.foldl_filter]
  congr 1
  funext x k
  rw [Bool.and_comm]
  rfl

end slip

end Sys2Proof.Machine

namespace Sys2Proof.Proofs

open Sys2Proof.Machine

section rebaseline
variable {s : State} {p : Image} {h : SlipHead}

/-- REBASELINE KEYS taken at once (R145). -/
theorem rebaselineKeys_taken (mask : BitVec 24) (hwf : s.xmem.wf = true) (htakes : s.takesNow h.slot = true)
    (hp : s.store.active = some p) :
    exec (.rebaselineKeys h mask) s =
      .next (State.lasting .keypad h.slot
        ((s.slipOffered h 8 (maskPayload mask)).rebaselineSlip s.time.slotCount p mask)) := by
  refine congrArg Host.Outcome.next ((State.post_taken hwf htakes hp).trans ?_)
  rw [State.runSlip_rebaseline _ _ (State.slipOffered_kind hwf)]
  have hmask : BitVec.ofNat 24 ((s.slipOffered h 8 (maskPayload mask)).xmem.param16 h.slot.val 0 +
      65536 * (s.slipOffered h 8 (maskPayload mask)).xmem.param h.slot.val 2) = mask := by
    unfold Exchange.param16
    rw [State.slipOffered_param hwf (by omega), State.slipOffered_param hwf (by omega), State.slipOffered_param hwf (by omega)]
    show BitVec.ofNat 24 ((BitVec.ofNat 8 mask.toNat).toNat + 256 * (BitVec.ofNat 8 (mask.toNat / 256)).toNat +
      65536 * (BitVec.ofNat 8 (mask.toNat / 65536)).toNat) = mask
    have hlt := mask.isLt
    apply BitVec.eq_of_toNat_eq
    simp only [BitVec.toNat_ofNat]
    omega
  rw [hmask]

/-- The key queue cannot tell the state in which the slip has been handed over from the one before its frame. -/
theorem rebaselined_sameQueue (mask : BitVec 24) (hwf : s.xmem.wf = true) :
    s.sameQueue ((s.slipOffered h 8 (maskPayload mask)).mapKeypad (Keypad.rebaselined p mask)) := by
  have hwrote := State.slipOffered_wrote (h := h) (kind := 8) (params := maskPayload mask) hwf
  have hkeypad : (s.slipOffered h 8 (maskPayload mask)).keypad = s.keypad := by simp
  have hrail : (s.slipOffered h 8 (maskPayload mask)).rail = s.rail := by simp
  generalize s.slipOffered h 8 (maskPayload mask) = v at *
  have hrebaselined : (v.mapKeypad (Keypad.rebaselined p mask)).keypad = s.keypad.rebaselined p mask := by
    rw [State.mapKeypad_keypad, hkeypad]
  refine ⟨hwf, hwrote.wf, ?_, ?_, ?_, ?_, hwrote.summary, fun x hx => hwrote.kept (queueAddr_lt hx) ?_⟩
  · rw [State.mapKeypad_rail, hrail]
  · exact (congrArg Keypad.writeCounter hrebaselined :)
  · exact (congrArg Keypad.readCounter hrebaselined :)
  · exact (congrArg Keypad.gap hrebaselined :)
  · have hn := h.slot.isLt
    rw [slipBody_length]
    simp only [queueAddr, Bool.and_eq_true, decide_eq_true_eq, Bool.or_eq_true] at hx
    unfold slotAddr
    omega

/-- The state in which the keypad controller has taken the slip and given the RELEASE_FORCED events. -/
def rebaselineGiven (s : State) (p : Image) (h : SlipHead) (mask : BitVec 24) : State :=
  (s.keypad.forcedEvents p mask).foldl (State.give s.time.slotCount p)
    ((s.slipOffered h 8 (maskPayload mask)).mapKeypad (Keypad.rebaselined p mask))

/-- What it leaves of every block (R133, R140, R144). -/
theorem rebaselineGiven_blocks (mask : BitVec 24) (hwf : s.xmem.wf = true) :
    let g := rebaselineGiven s p h mask
    g.rail =
        { s.rail with
          override :=
            if (Profile.powerKey p).any fun k => (mask.getLsbD k.val && Profile.keyEnabled p k) && s.keypad.keys[k].state.isTouched
            then none else s.rail.override } ∧
      g.climate = s.climate ∧ g.mon = s.mon ∧ g.engine = s.engine.afterTake h.slot ∧
      (∃ w q, g.keypad = { s.keypad.rebaselined p mask with writeCounter := w, gap := q }) ∧
      (s.slipOffered h 8 (maskPayload mask)).xmem.writes queueBytes g.xmem ∧ s.xmem.grown g.xmem ∧
      (s.offerAll s.time.slotCount (s.keypad.forcedEvents p mask)).sameQueue g := by
  have hframe := State.slipOffered_frame (s := s) (h := h) (kind := 8) (params := maskPayload mask)
  have hwrote := State.slipOffered_wrote (h := h) (kind := 8) (params := maskPayload mask) hwf
  have hqueue := (rebaselined_sameQueue (p := p) (h := h) mask hwf).giveAll s.time.slotCount p (s.keypad.forcedEvents p mask)
  have hpower := s.keypad.forcedEvents_power p mask
  unfold rebaselineGiven
  generalize s.slipOffered h 8 (maskPayload mask) = v at *
  obtain ⟨_, _, hclimate, _, hrail, hmon, hkeypad, hengine, _⟩ := hframe
  obtain ⟨hrail', hclimate', hmon', hw, hg⟩ := State.giveAll_release (s := v.mapKeypad (Keypad.rebaselined p mask))
    s.time.slotCount p (s.keypad.forcedEvents p mask) (s.keypad.forcedEvents_release p mask)
  obtain ⟨w, q, hqueued⟩ := State.give_foldl_queued s.time.slotCount p (s.keypad.forcedEvents p mask)
    (v.mapKeypad (Keypad.rebaselined p mask))
  have hframe' := State.give_foldl_frame s.time.slotCount p (s.keypad.forcedEvents p mask)
    (v.mapKeypad (Keypad.rebaselined p mask))
  refine ⟨?_, ?_, ?_, ?_, ⟨w, q, ?_⟩, hw, ?_, hqueue⟩
  · rw [hrail', hpower, State.mapKeypad_rail, hrail]
  · rw [hclimate', State.mapKeypad_climate, hclimate]
  · rw [hmon', State.mapKeypad_mon, hmon]
  · rw [hframe'.2.2.2.1, State.mapKeypad_engine, hengine]
  · rw [hqueued, State.mapKeypad_keypad, hkeypad]
  · exact (show s.xmem.grown v.xmem from ⟨by rw [hwrote.summary, BitVec.or_self], hwrote.enable⟩).trans hg

theorem rebaselineGiven_frame (mask : BitVec 24) :
    let g := rebaselineGiven s p h mask
    g.time = s.time ∧ g.sense = s.sense ∧ g.air = s.air ∧ g.store = s.store ∧ g.supplyLow = s.supplyLow ∧
      g.fresh = s.fresh ∧ g.pending = s.pending := by
  obtain ⟨htime, hsense, hair, _, hstore, hsupply, hfresh, hpending⟩ := State.give_foldl_frame s.time.slotCount p
    (s.keypad.forcedEvents p mask) ((s.slipOffered h 8 (maskPayload mask)).mapKeypad (Keypad.rebaselined p mask))
  refine ⟨htime.trans ?_, hsense.trans ?_, hair.trans ?_, hstore.trans ?_, hsupply.trans ?_, hfresh.trans ?_,
    hpending.trans ?_⟩ <;> simp

/-- What REBASELINE KEYS leaves of the touches (R133, R142, R144). -/
theorem rebaseline_touchesForced (mask : BitVec 24) (hwf : s.xmem.wf = true) :
    s.touchesForced p
      (fun k => (mask.getLsbD k.val && Profile.keyEnabled p k) && s.keypad.keys[k].state.isTouched) [(slotAddr h.slot.val, 64)]
      ((rebaselineGiven s p h mask).accept .keypad h.slot) := by
  obtain ⟨hrail, hclimate, hmon, hengine, ⟨w, q, hkeypad⟩, hw, hgrown, hqueue⟩ :=
    rebaselineGiven_blocks (p := p) (h := h) mask hwf
  have hframe := rebaselineGiven_frame (s := s) (p := p) (h := h) mask
  have hwrote := State.slipOffered_wrote (h := h) (kind := 8) (params := maskPayload mask) hwf
  have hn := h.slot.isLt
  have hslot (u : State) : u.xmem.writes [(slotAddr h.slot.val, 64)] (u.accept .keypad h.slot).xmem :=
    Exchange.writeResult_writes _ _ _ _ u.xmem
  have hflags (u : State) : (u.accept .keypad h.slot).xmem.summary = u.xmem.summary ∧
      (u.accept .keypad h.slot).xmem.enable = u.xmem.enable := Exchange.writeResult_flags _ _ _ _ _ u.xmem
  unfold State.touchesForced
  dsimp only
  rw [← State.offerAll_forced]
  generalize hu : s.offerAll s.time.slotCount (s.keypad.forcedEvents p mask) = u at *
  generalize rebaselineGiven s p h mask = g at *
  have hwrites := hw hwrote.wf
  refine ⟨?_, hrail, ?_, fun a ha hin => ?_, ?_⟩
  · have hchords : (s.keypad.rebaselined p mask).chords = tab 4 fun c =>
        if (Profile.chordMembers p c).any
            (fun k => (mask.getLsbD k.val && Profile.keyEnabled p k) && s.keypad.keys[k].state.isTouched) then
          { fired := false, holdEnd := none }
        else s.keypad.chords[c] := by
      refine congrArg (tab 4) (funext fun c => ?_)
      simp only [mem_namedKeys, Bool.decide_eq_true]
    rw [show ((g.accept .keypad h.slot).keypad = g.keypad) from rfl, ← hqueue.writeCounter, ← hqueue.gap, hkeypad, ← hchords]
    rfl
  · apply State.ext_blocks <;> simp [hclimate, hmon, hframe, State.accept]
  · have hqueueAddr : queueAddr a = true := by
      simp only [queueAddr, Bool.and_eq_true, decide_eq_true_eq, Bool.or_eq_true]
      exact ⟨ha, hin⟩
    refine ((hslot g hqueue.wf).kept a (queueAddr_lt hqueueAddr) ?_).trans (hqueue.peek a hqueueAddr)
    simp only [outside_cons, outside_nil, and_true]
    unfold slotAddr
    omega
  · refine hwrote.frameWrote (hw.andThen (hslot g) (rangesCover_of_subset (by simp [queueBytes]))
      (rangesCover_of_subset (by simp))) ⟨?_, (hflags g).2.trans (hgrown.2.trans hwrote.enable.symm)⟩ ?_
    · rw [(hflags g).1, hwrote.summary, ← hqueue.summary, hgrown.1]
    · rw [slipBody_length]
      simp [rangeWithin]

/-- The slot of the slip stays TAKEN with its result fields 0 (R169). -/
theorem rebaseline_slot (mask : BitVec 24) (hwf : s.xmem.wf = true) :
    ((rebaselineGiven s p h mask).accept .keypad h.slot).xmem.shows (slotAddr h.slot.val)
      (Owner.taken.code :: ((slipBody h 8 (maskPayload mask)).drop 1).take 5 ++ [0, 0] ++
        (slipBody h 8 (maskPayload mask)).drop 8) := by
  obtain ⟨_, _, _, _, _, hw, _, _⟩ := rebaselineGiven_blocks (p := p) (h := h) mask hwf
  have hwrote := State.slipOffered_wrote (h := h) (kind := 8) (params := maskPayload mask) hwf
  have hn := h.slot.isLt
  have hlength := slipBody_length h 8 (maskPayload mask)
  have hg := hw hwrote.wf
  refine (Exchange.shows_result (o := .taken) (code := 0) (detail := 0) (payload := []) hlength fun i hi => ?_).1
  refine (Exchange.peek_writeResult _ _ _ _ hg.wf hn hi).trans (resultByte_congr fun hlow => ?_)
  refine (hg.kept _ (slotByte_lt hn hi) ?_).trans
    (hwrote.shows (by rw [hlength]; unfold slotAddr memorySize; omega) i (by rw [hlength]; omega))
  simp only [queueBytes, outside_cons, outside_nil, and_true]
  unfold slotAddr
  omega

/-- Where no key named is touched, the slip leaves every block but the keypad controller and the engine. -/
theorem rebaseline_untouched (mask : BitVec 24) (hwf : s.xmem.wf = true)
    (huntouched : ∀ k : Fin 24, (mask.getLsbD k.val && Profile.keyEnabled p k) = true →
      s.keypad.keys[k].state.isTouched = false) :
    let t := (rebaselineGiven s p h mask).accept .keypad h.slot
    t = { s with keypad := t.keypad, engine := t.engine, xmem := t.xmem } ∧
      s.xmem.slipTaken h.slot (slipBody h 8 (maskPayload mask)) t.xmem := by
  have hevents : s.keypad.forcedEvents p mask = [] := by
    refine List.map_eq_nil_iff.mpr (List.filter_eq_nil_iff.mpr fun k hk => ?_)
    rw [huntouched k (mem_namedKeys.mp hk)]
    simp
  have hgiven : rebaselineGiven s p h mask =
      (s.slipOffered h 8 (maskPayload mask)).mapKeypad (Keypad.rebaselined p mask) := by
    unfold rebaselineGiven
    rw [hevents]
    rfl
  rw [hgiven]
  exact ⟨by apply State.ext_blocks <;> simp [State.accept], slipTaken_of_accept hwf rfl .keypad⟩

end rebaseline

/-- Settles O50: the frame posts the slip, the keys named enter calibration in turn, their RELEASE_FORCED events are offered,
and the slot is left TAKEN. -/
theorem rebaselineSlipCalibratesTheKeys : Obligations.RebaselineSlipCalibratesTheKeys := by
  intro s p h mask hwf htakes hp
  refine ⟨_, rebaselineKeys_taken mask hwf htakes hp, fun hanswered => ?_, fun hnone hsome => ?_⟩
  · have hslip := State.rebaselineSlip_answered (v := s.slipOffered h 8 (maskPayload mask)) s.time.slotCount p mask (by
      simp only [State.slipOffered_frame]
      refine hanswered.imp id fun hnone => List.filter_eq_nil_iff.mpr fun k hk => ?_
      have := List.any_eq_false.mp hnone k hk
      simpa using this)
    simp only [State.slipOffered_frame] at hslip
    rw [hslip, State.lasting_atOnce]
    exact slipAnswered (maskPayload mask) hwf _
  · have hkeypad : (s.slipOffered h 8 (maskPayload mask)).keypad = s.keypad := by simp
    have hnamed : namedKeys p mask ≠ [] := by
      obtain ⟨k, _, hk⟩ := List.any_eq_true.mp hsome
      exact List.ne_nil_of_mem (mem_namedKeys.mpr hk)
    rw [State.rebaselineSlip_taken _ _ _ (hkeypad ▸ hnone) hnamed, State.lasting_accepted, hkeypad]
    have hfold : (s.keypad.forcedEvents p mask).foldl (State.give s.time.slotCount p)
        ((s.slipOffered h 8 (maskPayload mask)).mapKeypad (Keypad.rebaselined p mask)) = rebaselineGiven s p h mask := rfl
    rw [hfold]
    clear hfold
    have htouches := rebaseline_touchesForced (p := p) (h := h) mask hwf
    obtain ⟨_, _, _, hengine, ⟨w, q, hgiven⟩, hw, _, _⟩ := rebaselineGiven_blocks (p := p) (h := h) mask hwf
    have hslot := rebaseline_slot (p := p) (h := h) mask hwf
    have hquiet := rebaseline_untouched (p := p) (h := h) mask hwf
    generalize rebaselineGiven s p h mask = g at *
    have hkeypad' : (g.accept .keypad h.slot).keypad = g.keypad := rfl
    refine ⟨?_, hslot, ?_, fun k => ?_, fun k => ?_, htouches, hquiet⟩
    · show Engine.bind .keypad (some h.slot) g.engine = _
      rw [hengine]
      rfl
    · rw [hkeypad', hgiven]
      rfl
    · rw [hkeypad', hgiven]
      show (keySet (namedKeys p mask)).getLsbD k.val = _
      rw [getLsbD_keySet]
      simp only [mem_namedKeys, Bool.decide_eq_true]
    · rw [hkeypad', hgiven]
      refine (Keypad.calibrated_key (p := p) (namedKeys p mask) k).trans ?_
      simp only [mem_namedKeys]
      rfl

end Sys2Proof.Proofs
end

