-- ==== Sys2Proof/Proofs/RebaselineEnds.lean ====
section
/-!
SUPPORT. A rebaseline at a scan end (R145, R146): whether it ends, with what result, and what its slip's completion leaves.
-/

namespace Sys2Proof.Machine

/-! ### The keys that still calibrate -/

section calibrating
variable {kp : Keypad} {set : BitVec 24}

/-- The keys of a rebaseline set that are in CALIBRATING. -/
def Keypad.stillCalibrates (kp : Keypad) (set : BitVec 24) (k : Fin 24) : Bool :=
  set.getLsbD k.val && kp.keys[k].state == .calibrating

/-- A fold that adds the keys of a condition is the set of these keys. -/
theorem foldl_keyBit_if (c : Fin 24 → Bool) :
    (List.finRange 24).foldl (fun (m : BitVec 24) k => if c k then m ||| (1#24 <<< k.val) else m) 0 =
      keySet ((List.finRange 24).filter c) := by
  rw [keySet, List.foldl_filter]

theorem getLsbD_keySet_filter (c : Fin 24 → Bool) (k : Fin 24) :
    (keySet ((List.finRange 24).filter c)).getLsbD k.val = c k := by
  rw [getLsbD_keySet]
  simp

theorem keyMask_ext {m m' : BitVec 24} (h : ∀ k : Fin 24, m.getLsbD k.val = m'.getLsbD k.val) : m = m' :=
  BitVec.eq_of_getLsbD_eq fun i hi => h ⟨i, hi⟩

theorem Keypad.getLsbD_calibrating (kp : Keypad) (set : BitVec 24) (k : Fin 24) :
    (kp.calibrating set).getLsbD k.val = kp.stillCalibrates set k := by
  unfold Keypad.calibrating
  rw [foldl_keyBit_if, getLsbD_keySet_filter]
  rfl

theorem Keypad.calibrating_eq_zero : kp.calibrating set = 0 ↔ ∀ k, kp.stillCalibrates set k = false := by
  constructor
  · intro h k
    rw [← Keypad.getLsbD_calibrating, h]
    exact BitVec.getLsbD_zero
  · intro h
    refine keyMask_ext fun k => ?_
    rw [Keypad.getLsbD_calibrating, h k]
    exact BitVec.getLsbD_zero.symm

end calibrating

/-! ### The end -/

section ends
variable {v : State}

/-- The keypad controller of a rebaseline that has ended with a stop: the keys of its set that still calibrated are IDLE. -/
def Keypad.calibrationStopped (stops : Fin 24 → Bool) (kp : Keypad) : Keypad :=
  { kp with
    keys := tab 24 fun k =>
      if stops k then { kp.keys[k] with state := .idle, calSum := 0, calCount := 0 } else kp.keys[k] }

theorem Keypad.calibrationStopped_key (stops : Fin 24 → Bool) (kp : Keypad) (k : Fin 24) :
    (kp.calibrationStopped stops).keys[k] =
      if stops k then { kp.keys[k] with state := .idle, calSum := 0, calCount := 0 } else kp.keys[k] := by
  simp [Keypad.calibrationStopped]

theorem Keypad.calibrationStopped_none (kp : Keypad) : kp.calibrationStopped (fun _ => false) = kp :=
  Keypad.ext_keys rfl (fun k => by rw [Keypad.calibrationStopped_key]; rfl) fun _ => rfl

/-- What the end of a scan makes of a rebaseline. -/
def State.rebaselineSettled (v : State) : State := v.finishRebaseline.stopRebaseline

/-- Without a rebaseline, and in one that goes on, nothing happens; else it ends with a stop or with OK. -/
theorem State.rebaselineSettled_cases (v : State) :
    (v.keypad.rebaseline = none ∧ v.rebaselineSettled = v) ∨
      ∃ set, v.keypad.rebaseline = some set ∧
        ((((List.finRange 24).any fun k => v.stopsKey k) = true ∧
            v.rebaselineSettled =
              (v.mapKeypad (Keypad.calibrationStopped fun k => v.stopsKey k)).endRebaseline .stopped
                ((List.finRange 24).foldl
                  (fun m k => if set.getLsbD k.val && !v.stopsKey k then m ||| (1#24 <<< k.val) else m) 0)) ∨
          (((List.finRange 24).any fun k => v.stopsKey k) = false ∧ (∀ k, v.keypad.stillCalibrates set k = false) ∧
            v.rebaselineSettled = v.endRebaseline .ok set) ∨
          (((List.finRange 24).any fun k => v.stopsKey k) = false ∧ (∃ k, v.keypad.stillCalibrates set k = true) ∧
            v.rebaselineSettled = v)) := by
  unfold State.rebaselineSettled State.finishRebaseline
  cases hset : v.keypad.rebaseline with
  | none =>
    refine .inl ⟨rfl, ?_⟩
    unfold State.stopRebaseline
    rw [hset]
  | some set =>
    refine .inr ⟨set, rfl, ?_⟩
    have hstops (k : Fin 24) : v.stopsKey k = (v.keypad.stopPending && v.keypad.stillCalibrates set k) := by
      unfold State.stopsKey Keypad.stillCalibrates
      rw [hset, Bool.and_assoc]
      rfl
    dsimp only
    by_cases hall : ∀ k, v.keypad.stillCalibrates set k = false
    · refine .inr (.inl ⟨?_, hall, ?_⟩)
      · simp [hstops, hall]
      · have hended : (v.endRebaseline .ok set).keypad.rebaseline = none := by simp [State.endRebaseline]
        rw [if_pos (Keypad.calibrating_eq_zero.mpr hall)]
        unfold State.stopRebaseline
        rw [hended]
    · rw [if_neg fun h => hall (Keypad.calibrating_eq_zero.mp h)]
      obtain ⟨j, hj⟩ := not_forall.mp hall
      have hj' : v.keypad.stillCalibrates set j = true := by simpa using hj
      unfold State.stopRebaseline
      rw [hset]
      dsimp only
      cases hpending : v.keypad.stopPending
      · refine .inr (.inr ⟨?_, ⟨j, hj'⟩, if_neg (by simp)⟩)
        simp [hstops, hpending]
      · refine .inl ⟨List.any_eq_true.mpr ⟨j, List.mem_finRange j, by rw [hstops, hpending, hj']; rfl⟩, ?_⟩
        have hstops' (k : Fin 24) : v.stopsKey k = (v.keypad.calibrating set).getLsbD k.val := by
          rw [hstops, hpending, Keypad.getLsbD_calibrating, Bool.true_and]
        rw [if_pos rfl]
        have hmask : set &&& ~~~(v.keypad.calibrating set) = (List.finRange 24).foldl
            (fun m k => if set.getLsbD k.val && !v.stopsKey k then m ||| (1#24 <<< k.val) else m) 0 := by
          rw [foldl_keyBit_if]
          refine keyMask_ext fun k => ?_
          rw [getLsbD_keySet_filter, BitVec.getLsbD_and, BitVec.getLsbD_not, hstops']
          simp
        rw [hmask]
        simp only [hstops']
        rfl

theorem State.endRebaseline_keypad (code : ResultCode) (mask : BitVec 24) (v : State) :
    (v.endRebaseline code mask).keypad = { v.keypad with rebaseline := none, stopPending := false } := by
  simp [State.endRebaseline]

/-- The end of a rebaseline frees the binding and completes the slot it named (R170). -/
theorem State.endRebaseline_report (code : ResultCode) (mask : BitVec 24) (v : State) :
    (v.endRebaseline code mask).engine = { v.engine with keypadSlot := none } ∧
      (v.endRebaseline code mask).xmem = (match v.engine.keypadSlot with
        | none => v.xmem
        | some n => v.xmem.complete n.val { code := code, detail := 0, payload := maskPayload mask }) := by
  unfold State.endRebaseline
  have hengine : (v.mapKeypad fun k => { k with rebaseline := none, stopPending := false }).engine = v.engine := rfl
  have hxmem : (v.mapKeypad fun k => { k with rebaseline := none, stopPending := false }).xmem = v.xmem := rfl
  generalize (v.mapKeypad fun k => { k with rebaseline := none, stopPending := false }) = u at *
  cases hslot : v.engine.keypadSlot with
  | none =>
    have hbinding : u.engine.binding .keypad = none := by rw [hengine]; exact hslot
    rw [State.report_of_none hbinding, hengine, ← hslot]
    exact ⟨rfl, by rw [hslot]; exact hxmem⟩
  | some n =>
    have hbinding : u.engine.binding .keypad = some n := by rw [hengine]; exact hslot
    rw [State.report_of_some hbinding, State.mapX_engine, State.mapX_xmem, State.mapEngine_engine, State.mapEngine_xmem, hengine,
      hxmem]
    exact ⟨rfl, rfl⟩

/-- The bytes of the slip table that a scan end writes where it raises `cause`. -/
def settledBytes (cause : BitVec 12) : List (Nat × Nat) := if cause = 0 then [] else [(0x0C, 2), (0x100, 0x400)]

/-- What the end of a rebaseline leaves of exchange memory. -/
theorem State.endRebaseline_memory {code : ResultCode} {mask : BitVec 24} {u : State} (hsome : v.keypad.rebaseline.isSome = true)
    (hengine : u.engine = v.engine) (hxmem : u.xmem = v.xmem) :
    let t := u.endRebaseline code mask
    v.xmem.writes (settledBytes (v.rebaselineCause t)) t.xmem ∧ v.xmem.raised (v.rebaselineCause t) t.xmem := by
  obtain ⟨_, hx⟩ := State.endRebaseline_report code mask u
  have hcause : v.rebaselineCause (u.endRebaseline code mask) =
      if v.engine.keypadSlot.isSome = true then Cause.slipDone.bit else 0 := by
    unfold State.rebaselineCause
    rw [hsome, State.endRebaseline_keypad]
    simp
  dsimp only
  rw [hcause, hx, hengine, hxmem]
  cases v.engine.keypadSlot with
  | none => exact ⟨Exchange.writes_refl _ _, BitVec.or_zero.symm, rfl⟩
  | some n => exact ⟨Exchange.complete_writes n.isLt _ _, Exchange.complete_raised n.val _ v.xmem⟩

/-- Where no rebaseline is in flight, or it goes on, nothing is raised. -/
theorem State.rebaselineCause_of_same {t : State} (h : t.keypad.rebaseline = v.keypad.rebaseline) : v.rebaselineCause t = 0 := by
  unfold State.rebaselineCause
  rw [h]
  cases v.keypad.rebaseline <;> simp

theorem State.rebaselineSettled_memory (v : State) :
    let t := v.rebaselineSettled
    v.xmem.writes (settledBytes (v.rebaselineCause t)) t.xmem ∧ v.xmem.raised (v.rebaselineCause t) t.xmem := by
  have hsame (h : v.rebaselineSettled = v) : let t := v.rebaselineSettled
      v.xmem.writes (settledBytes (v.rebaselineCause t)) t.xmem ∧ v.xmem.raised (v.rebaselineCause t) t.xmem := by
    dsimp only
    rw [h, State.rebaselineCause_of_same rfl]
    exact ⟨Exchange.writes_refl _ _, BitVec.or_zero.symm, rfl⟩
  obtain ⟨_, h⟩ | ⟨set, hset, ⟨_, h⟩ | ⟨_, _, h⟩ | ⟨_, _, h⟩⟩ := v.rebaselineSettled_cases
  · exact hsame h
  · rw [h]
    exact State.endRebaseline_memory (by rw [hset]; rfl) rfl rfl
  · rw [h]
    exact State.endRebaseline_memory (by rw [hset]; rfl) rfl rfl
  · exact hsame h

theorem State.rebaselineSettled_keypad (v : State) :
    let t := v.rebaselineSettled
    t.keypad =
      { v.keypad.calibrationStopped (fun k => v.stopsKey k) with
        rebaseline := t.keypad.rebaseline, stopPending := t.keypad.stopPending } := by
  have hnone (h : ((List.finRange 24).any fun k => v.stopsKey k) = false) :
      v.keypad.calibrationStopped (fun k => v.stopsKey k) = v.keypad := by
    have hall : (fun k => v.stopsKey k) = fun _ => false :=
      funext fun k => by simpa using List.any_eq_false.mp h k (List.mem_finRange k)
    rw [hall, Keypad.calibrationStopped_none]
  dsimp only
  obtain ⟨hset, h⟩ | ⟨set, hset, ⟨_, h⟩ | ⟨hstops, _, h⟩ | ⟨hstops, _, h⟩⟩ := v.rebaselineSettled_cases
  · rw [h, hnone]
    refine List.any_eq_false.mpr fun k _ => ?_
    simp [State.stopsKey, hset]
  · rw [h, State.endRebaseline_keypad]
    rfl
  · rw [h, hnone hstops, State.endRebaseline_keypad]
  · rw [h, hnone hstops]

/-- How the rebaseline stands after it (R145, R146). -/
theorem State.rebaselineSettled_scanned (hwf : v.xmem.wf = true) : v.rebaselineScanned v.rebaselineSettled := by
  have hkeys (k : Fin 24) : v.rebaselineSettled.keypad.keys[k].state =
      if v.stopsKey k then .idle else v.keypad.keys[k].state := by
    have hkeypad := v.rebaselineSettled_keypad
    have hkey := Keypad.calibrationStopped_key (fun k => v.stopsKey k) v.keypad k
    rw [hkeypad]
    refine (congrArg KeyRec.state hkey).trans ?_
    split <;> rfl
  have hended (code : ResultCode) (mask : BitVec 24) {u : State} (hengine : u.engine = v.engine) (hxmem : u.xmem = v.xmem) :
      let t := u.endRebaseline code mask
      t.keypad.rebaseline = none ∧ t.keypad.stopPending = false ∧ t.engine = { v.engine with keypadSlot := none } ∧
        ∀ n, v.engine.keypadSlot = some n →
          v.xmem.slotCompleted n (v.xmem.slotBody n) { code := code, detail := 0, payload := maskPayload mask } t.xmem := by
    obtain ⟨he, hx⟩ := State.endRebaseline_report code mask u
    refine ⟨by rw [State.endRebaseline_keypad], by rw [State.endRebaseline_keypad], he.trans (by rw [hengine]), fun n hn => ?_⟩
    rw [hx, hengine, hn, hxmem]
    exact Exchange.complete_slotBody hwf _
  have hleft {set : BitVec 24} (hstops : ((List.finRange 24).any fun k => v.stopsKey k) = false) :
      ((List.finRange 24).any fun k => set.getLsbD k.val && v.rebaselineSettled.keypad.keys[k].state == .calibrating) =
        (List.finRange 24).any fun k => v.keypad.stillCalibrates set k := by
    refine congrArg _ (funext fun k => ?_)
    rw [hkeys, if_neg (List.any_eq_false.mp hstops k (List.mem_finRange k))]
    rfl
  unfold State.rebaselineScanned
  dsimp only
  obtain ⟨hnone, h⟩ | ⟨set', hset', hcases⟩ := v.rebaselineSettled_cases
  · refine ⟨fun _ => by rw [h]; exact ⟨rfl, rfl, rfl⟩, fun set hset => ?_⟩
    rw [hnone] at hset
    cases hset
  · have hsome : v.keypad.rebaseline ≠ none := by rw [hset']; simp
    refine ⟨fun hnone => absurd hnone hsome, fun set hset => ?_⟩
    obtain rfl : set' = set := Option.some.inj (hset'.symm.trans hset)
    obtain ⟨hstops, h⟩ | ⟨hstops, hall, h⟩ | ⟨hstops, ⟨j, hj⟩, h⟩ := hcases
    · refine ⟨fun _ => ?_, fun hnot => ?_, fun hnot => ?_⟩
      · rw [h]
        exact hended _ _ rfl rfl
      · rw [hstops] at hnot
        cases hnot
      · rw [hstops] at hnot
        cases hnot
    · have hgone : ((List.finRange 24).any fun k => v.keypad.stillCalibrates set' k) = false := by simp [hall]
      refine ⟨fun hyes => ?_, fun _ _ => ?_, fun _ hyes => ?_⟩
      · rw [hstops] at hyes
        cases hyes
      · rw [h]
        exact hended _ _ rfl rfl
      · rw [hleft hstops, hgone] at hyes
        cases hyes
    · have hstays : ((List.finRange 24).any fun k => v.keypad.stillCalibrates set' k) = true :=
        List.any_eq_true.mpr ⟨j, List.mem_finRange j, hj⟩
      refine ⟨fun hyes => ?_, fun _ hnot => ?_, fun _ _ => by rw [h]; exact ⟨rfl, rfl, rfl⟩⟩
      · rw [hstops] at hyes
        cases hyes
      · rw [hleft hstops, hstays] at hnot
        cases hnot

/-- No slot is POSTED after it, where the rebaseline promotes none (R171). -/
theorem State.rebaselineSettled_nonePosted (hwf : v.xmem.wf = true) (hnone : v.nonePosted)
    (hchain : v.rebaselinePromotesNone fun _ => false) : v.rebaselineSettled.nonePosted := by
  have hended (code : ResultCode) (mask : BitVec 24) {u : State} (hengine : u.engine = v.engine) (hxmem : u.xmem = v.xmem)
      (hok : code = .ok → v.unchained v.engine.keypadSlot) : (u.endRebaseline code mask).nonePosted := by
    obtain ⟨_, hx⟩ := State.endRebaseline_report code mask u
    intro m
    rw [hx, hengine, hxmem]
    split
    · exact hnone m
    · rename_i n hslot
      exact Exchange.complete_nonePosted hwf hnone (fun hcode k hk hnext => hok hcode n hslot k hk hnext) m
  obtain ⟨_, h⟩ | ⟨set, hset, ⟨_, h⟩ | ⟨_, hall, h⟩ | ⟨_, _, h⟩⟩ := v.rebaselineSettled_cases
  · rw [h]
    exact hnone
  · rw [h]
    exact hended _ _ rfl rfl fun hcode => by cases hcode
  · rw [h]
    refine hended _ _ rfl rfl fun _ => ?_
    obtain hnot | hstays | hchain := hchain
    · rw [hset] at hnot
      cases hnot
    · rw [hset] at hstays
      obtain ⟨k, _, hk⟩ := List.any_eq_true.mp (show _ = true from hstays)
      have hgone : (set.getLsbD k.val && v.keypad.keys[k].state == .calibrating) = false := hall k
      rw [hgone] at hk
      cases hk
    · exact hchain
  · rw [h]
    exact hnone

end ends

end Sys2Proof.Machine
end

