-- ==== Sys2Proof/Proofs/ScanEnd.lean ====
section
/-!
SUPPORT. The end of a scan (R128): the stages that an accepted and a rejected scan share, from the keys' moves on.
-/

namespace Sys2Proof.Machine

/-! ### The slip table told through other memories -/

section slots
variable {x x' y y' : Exchange} {n : Fin 16}

theorem Exchange.sameSlots.shows (h : y'.sameSlots y) {k i : Nat} (hk : k < 16) {bs : List Byte} (hi : i + bs.length ≤ 64)
    (hshows : y'.shows (slotAddr k + i) bs) : y.shows (slotAddr k + i) bs := fun j hj => by
  rw [Nat.add_assoc, h k hk (i + j) (by omega), ← Nat.add_assoc]
  exact hshows j hj

theorem Exchange.sameSlots.slotBody (h : x'.sameSlots x) (n : Fin 16) : x.slotBody n = x'.slotBody n := by
  unfold Exchange.slotBody
  exact List.map_congr_left fun i hi => h n.val n.isLt i (by have := List.mem_range.mp hi; omega)

/-- What a completion leaves, told of a memory with the same slots after it. -/
theorem Exchange.slotCompleted.of_sameSlots {body : List Byte} {r : SlipResult} (h : x.slotCompleted n body r y')
    (hy : y'.sameSlots y) (hlength : body.length = 32) : x.slotCompleted n body r y := by
  rw [Exchange.slotCompleted_iff] at h ⊢
  obtain ⟨hslot, hpayload, hothers⟩ := h
  have hpeek (k : Fin 16) (i : Nat) (hi : i < 64) : y.peek (slotAddr k.val + i) = y'.peek (slotAddr k.val + i) :=
    hy k.val k.isLt i hi
  refine ⟨?_, ?_, fun k hk => ⟨fun hbroken => ?_, fun hstands => ?_⟩⟩
  · exact hy.shows (i := 0) n.isLt (by simp [hlength]) hslot
  · exact hy.shows n.isLt (by simp [payloadBytes_length]) hpayload
  · obtain ⟨howner, hcode, hfirst, hrest⟩ := (hothers k hk).1 hbroken
    exact ⟨(hpeek k 0 (by omega)).trans howner, hy.shows k.isLt (by simp) hcode,
      hy.shows k.isLt (by simp [payloadBytes_length]) hfirst,
      fun i hi h0 h6 h7 => (hpeek k i (by omega)).trans (hrest i hi h0 h6 h7)⟩
  · obtain ⟨howner, hrest⟩ := (hothers k hk).2 hstands
    exact ⟨(hpeek k 0 (by omega)).trans howner, fun i hi h0 => (hpeek k i hi).trans (hrest i hi h0)⟩

end slots

/-! ### The key detail page (R128, R147) -/

section detail
variable {s : State} {p : Image}

theorem detailBytes_length (r : KeyRec) (delta : Int) : (detailBytes r delta).length = 7 := rfl

/-- Of pages of 7 bytes that stand 8 apart, one is found at its place. -/
theorem Held.get_flatMap_detail (bytes : Fin 24 → List Byte) (hlength : ∀ k, (bytes k).length = 7) (l : List (Fin 24))
    {k : Fin 24} (hk : k ∈ l) {i : Nat} (hi : i < 7) :
    Held.get (l.flatMap fun j => cellsAt (0x700 + 8 * j.val) (bytes j)) (0x700 + 8 * k.val + i) = some ((bytes k).getD i 0) := by
  induction l with
  | nil => cases hk
  | cons j l ih =>
    rw [List.flatMap_cons, Held.get_append, Held.get_cellsAt]
    by_cases hjk : j = k
    · rw [hjk, if_pos (by omega), Nat.add_sub_cancel_left, List.getD_eq_getElem?_getD,
        List.getElem?_eq_getElem (by rw [hlength]; omega)]
      rfl
    · have hne : j.val ≠ k.val := fun h => hjk (Fin.ext h)
      have hnone : (if 0x700 + 8 * j.val ≤ 0x700 + 8 * k.val + i then
          (bytes j)[0x700 + 8 * k.val + i - (0x700 + 8 * j.val)]? else none) = none := by
        split
        · exact List.getElem?_eq_none (by rw [hlength]; omega)
        · rfl
      rw [hnone, Option.none_or]
      exact ih ((List.mem_cons.mp hk).resolve_left fun h => hjk h.symm)

theorem State.publishDetail_shows (hwf : s.xmem.wf = true) (deltas : Vector Int 24) {k : Fin 24}
    (hk : Profile.keyEnabled p k = true) :
    (s.publishDetail p deltas).xmem.shows (0x700 + 8 * k.val) (detailBytes s.keypad.keys[k] deltas[k]) := by
  intro i hi
  rw [detailBytes_length] at hi
  have hget := Held.get_flatMap_detail (fun k => detailBytes s.keypad.keys[k] deltas[k]) (fun k => detailBytes_length _ _)
    ((List.finRange 24).filter fun k => Profile.keyEnabled p k) (k := k) (by simp [hk]) hi
  have hk' := k.isLt
  unfold State.publishDetail
  dsimp only
  rw [State.mapX_xmem, Exchange.peek_partWriteCells hwf _ (by unfold memorySize; omega), hget]
  rfl

theorem State.publishDetail_flags (p : Image) (deltas : Vector Int 24) (s : State) :
    (s.publishDetail p deltas).xmem.summary = s.xmem.summary ∧ (s.publishDetail p deltas).xmem.enable = s.xmem.enable := by
  unfold State.publishDetail
  simp

end detail

/-! ### From the moved keys to the end (R128, R145, R146) -/

/-- The state in which the keys of a scan have moved and their events are given. -/
def State.scanGiven (now : SlotCount) (p : Image) (counts : Vector (BitVec 12) 24) (s : State) : State :=
  ((s.scanTaken p counts).keypad.scanned now p).2.foldl (State.give now p)
    ((s.scanTaken p counts).mapKeypad fun _ => ((s.scanTaken p counts).keypad.scanned now p).1)

/-- The deltas of a scan (R128). -/
def State.scanDeltas (p : Image) (counts : Vector (BitVec 12) 24) (s : State) : Vector Int 24 :=
  tab 24 fun k => (s.scanTaken p counts).keypad.delta k

/-- The end of the scan once the keys have moved. -/
def State.scanSettled (p : Image) (deltas : Vector Int 24) (g : State) : State := g.rebaselineSettled.publishDetail p deltas

/-- What the moves of the keys leave of the rebaseline of `s` and of its slip. -/
structure State.scanMoved (s g : State) : Prop where
  wf : g.xmem.wf = true
  engine : g.engine = s.engine
  rebaseline : g.keypad.rebaseline = s.keypad.rebaseline
  stopPending : g.keypad.stopPending = s.keypad.stopPending
  stops : ∀ k, g.stopsKey k = s.stopsKey k
  slots : s.xmem.sameSlots g.xmem

section settled
variable {s g : State} {p : Image} {deltas : Vector Int 24}

theorem State.rebaselineSettled_engine (v : State) : ∃ b, v.rebaselineSettled.engine = { v.engine with keypadSlot := b } := by
  obtain ⟨_, h⟩ | ⟨set, _, ⟨_, h⟩ | ⟨_, _, h⟩ | ⟨_, _, h⟩⟩ := v.rebaselineSettled_cases
  · exact ⟨v.engine.keypadSlot, by rw [h]⟩
  · exact ⟨none, by rw [h, (State.endRebaseline_report _ _ _).1]; rfl⟩
  · exact ⟨none, by rw [h, (State.endRebaseline_report _ _ _).1]⟩
  · exact ⟨v.engine.keypadSlot, by rw [h]⟩

theorem State.rebaselineSettled_frame (v : State) :
    let t := v.rebaselineSettled
    t.time = v.time ∧ t.sense = v.sense ∧ t.climate = v.climate ∧ t.air = v.air ∧ t.rail = v.rail ∧ t.mon = v.mon ∧
      t.store = v.store ∧ t.supplyLow = v.supplyLow ∧ t.fresh = v.fresh ∧ t.pending = v.pending := by
  simp [State.rebaselineSettled]

/-- The blocks after it. -/
theorem State.scanSettled_blocks (g : State) :
    let t := g.scanSettled p deltas
    t = { g with keypad := t.keypad, engine := t.engine, xmem := t.xmem } ∧
      t.keypad =
        { g.keypad.calibrationStopped (fun k => g.stopsKey k) with
          rebaseline := t.keypad.rebaseline, stopPending := t.keypad.stopPending } ∧
      t.engine.served = g.engine.served := by
  have hkeypad := g.rebaselineSettled_keypad
  obtain ⟨b, hengine⟩ := g.rebaselineSettled_engine
  have hframe := g.rebaselineSettled_frame
  unfold State.scanSettled
  generalize g.rebaselineSettled = u at *
  dsimp only at hkeypad hframe
  refine ⟨?_, ?_, ?_⟩
  · apply State.ext_blocks <;> simp [hframe]
  · simpa using hkeypad
  · simp [hengine]

/-- The cause raised, the bytes written, and the page shown. -/
theorem State.scanSettled_memory (hwf : g.xmem.wf = true) :
    let t := g.scanSettled p deltas
    g.xmem.writes (settledBytes (g.rebaselineCause t) ++ [(0x700, 0xC0)]) t.xmem ∧
      g.xmem.raised (g.rebaselineCause t) t.xmem ∧
      ∀ k : Fin 24, Profile.keyEnabled p k = true →
        t.xmem.shows (0x700 + 8 * k.val) (detailBytes t.keypad.keys[k] deltas[k]) := by
  obtain ⟨hw, hsummary, henable⟩ := g.rebaselineSettled_memory
  have hwfu := (hw hwf).wf
  have hpublish := g.rebaselineSettled.publishDetail_writes p deltas
  have hkeypad : (g.rebaselineSettled.publishDetail p deltas).keypad = g.rebaselineSettled.keypad := by simp
  have hcause : g.rebaselineCause (g.rebaselineSettled.publishDetail p deltas) = g.rebaselineCause g.rebaselineSettled := by
    unfold State.rebaselineCause
    rw [hkeypad]
  obtain ⟨hs, he⟩ := State.publishDetail_flags p deltas g.rebaselineSettled
  have hshows (k : Fin 24) (hk : Profile.keyEnabled p k = true) := State.publishDetail_shows hwfu deltas hk
  unfold State.scanSettled
  dsimp only
  rw [hcause, hkeypad]
  exact ⟨hw.andThen hpublish (rangesCover_of_subset (List.subset_append_left _ _))
    (rangesCover_of_subset (List.subset_append_right _ _)), ⟨hs.trans hsummary, he.trans henable⟩, hshows⟩

/-- The rebaseline of `s` at the end of its scan. -/
theorem State.scanMoved.scanned (h : s.scanMoved g) : s.rebaselineScanned (g.scanSettled p deltas) := by
  have hscanned := State.rebaselineSettled_scanned h.wf
  have hpublish := (g.rebaselineSettled.publishDetail_writes p deltas).mono (rs := besideSlots) (by decide)
  have hslots := hpublish.sameSlots (g.rebaselineSettled_memory.1 h.wf).wf
  have hkeypad : (g.scanSettled p deltas).keypad = g.rebaselineSettled.keypad := by simp [State.scanSettled]
  have hengine : (g.scanSettled p deltas).engine = g.rebaselineSettled.engine := by simp [State.scanSettled]
  have hcompleted (n : Fin 16) (r : SlipResult)
      (hc : g.xmem.slotCompleted n (g.xmem.slotBody n) r g.rebaselineSettled.xmem) :
      s.xmem.slotCompleted n (s.xmem.slotBody n) r (g.scanSettled p deltas).xmem := by
    rw [h.slots.slotBody n] at hc
    exact (Exchange.slotCompleted_congr (fun k hk _ i hi => h.slots k hk i hi) hc).of_sameSlots hslots
      (Exchange.slotBody_length _ n)
  unfold State.rebaselineScanned at hscanned ⊢
  simp only [h.rebaseline, h.stopPending, h.stops, h.engine] at hscanned
  dsimp only
  rw [hkeypad, hengine]
  obtain ⟨hnone, hsome⟩ := hscanned
  refine ⟨hnone, fun set hset => ?_⟩
  obtain ⟨hstopped, hdone, hgoes⟩ := hsome set hset
  refine ⟨fun hs => ?_, fun hs hl => ?_, hgoes⟩
  · obtain ⟨h1, h2, h3, h4⟩ := hstopped hs
    exact ⟨h1, h2, h3, fun n hn => hcompleted n _ (h4 n hn)⟩
  · obtain ⟨h1, h2, h3, h4⟩ := hdone hs hl
    exact ⟨h1, h2, h3, fun n hn => hcompleted n _ (h4 n hn)⟩

theorem State.scanMoved.cause (h : s.scanMoved g) (t : State) : s.rebaselineCause t = g.rebaselineCause t := by
  unfold State.rebaselineCause
  rw [h.rebaseline, h.engine]

/-- No slip is taken at the end of the scan. -/
theorem State.scanMoved.arbitrate (h : s.scanMoved g) {leaves : Fin 24 → Bool} (htakes : s.scanTakesNone leaves)
    (hstays : ∀ set, s.keypad.rebaseline = some set → ∀ k,
      (set.getLsbD k.val && s.keypad.keys[k].state == .calibrating && !leaves k) = true →
      g.keypad.keys[k].state = .calibrating) (now : SlotCount) :
    (g.scanSettled p deltas).arbitrate now p = g.scanSettled p deltas := by
  obtain hserved | ⟨hnone, hchain⟩ := htakes
  · have hserved' : (g.scanSettled p deltas).engine.served = true := by
      rw [(State.scanSettled_blocks g).2.2, h.engine, hserved]
    unfold State.arbitrate State.arbitrateAmong
    rw [if_pos hserved']
  · refine State.arbitrate_of_nonePosted now p fun n => ?_
    have hg : g.nonePosted := fun n => (h.slots.owner n .posted).trans (hnone n)
    have hpromotes : g.rebaselinePromotesNone fun _ => false := by
      obtain hnot | hstay | hun := hchain
      · exact .inl (h.rebaseline.trans hnot)
      · refine .inr (.inl ?_)
        cases hset : s.keypad.rebaseline with
        | none =>
          rw [hset] at hstay
          cases hstay
        | some set =>
          rw [hset] at hstay
          obtain ⟨k, hk, hleft⟩ := List.any_eq_true.mp (show _ = true from hstay)
          rw [h.rebaseline, hset]
          refine List.any_eq_true.mpr ⟨k, hk, ?_⟩
          rw [hstays set hset k hleft]
          simp only [Bool.and_eq_true] at hleft
          simp [hleft.1.1]
      · refine .inr (.inr ?_)
        rw [h.engine]
        intro b hb m hm hnext
        rw [h.slots b.val b.isLt 3 (by omega)] at hnext
        exact (h.slots.owner m .chained).trans (hun b hb m hm hnext)
    have hsettled := State.rebaselineSettled_nonePosted h.wf hg hpromotes
    have hpublish := (g.rebaselineSettled.publishDetail_writes p deltas).mono (rs := besideSlots) (by decide)
    have hslots := hpublish.sameSlots (g.rebaselineSettled_memory.1 h.wf).wf
    exact (hslots.owner n .posted).trans (hsettled n)

end settled

/-- The end of a scan that is due. -/
theorem scanEnd_exec {s : State} {p : Image} {n : SlotCount} (counts : Vector (BitVec 12) 24) (hp : s.store.active = some p)
    (hdue : s.scanDue = some n) :
    exec (.scanEnd counts) s =
      .next (((s.scanGiven n p counts).scanSettled p (s.scanDeltas p counts)).arbitrate s.time.slotCount p) := by
  show execScanEnd counts s = _
  rw [execScanEnd, hp, hdue]
  rfl

end Sys2Proof.Machine
end

