-- ==== Sys2Proof/Proofs/WaterFilm.lean ====
section
/-!
SUPPORT. The rejected scan (R129).
-/

namespace Sys2Proof.Machine

section film
variable {s : State} {p : Image} {counts : Vector (BitVec 12) 24}

/-- The keypad controller with the raw counts of a scan. -/
theorem State.scanTaken_key (k : Fin 24) :
    (s.scanTaken p counts).keypad.keys[k] =
      { s.keypad.keys[k] with raw := if Profile.keyEnabled p k then counts[k].toNat else s.keypad.keys[k].raw } := by
  have hkey : (s.scanTaken p counts).keypad.keys[k] =
      if Profile.keyEnabled p k then { s.keypad.keys[k] with raw := counts[k].toNat } else s.keypad.keys[k] := by
    simp [State.scanTaken, Keypad.takeRaw]
  rw [hkey]
  split <;> rfl

/-- The delta of an enabled key in a scan (R128). -/
theorem State.scanTaken_delta {k : Fin 24} (hk : Profile.keyEnabled p k = true) :
    (s.scanTaken p counts).keypad.delta k = (counts[k].toNat : Int) - (s.keypad.keys[k].baseline : Int) := by
  unfold Keypad.delta
  rw [State.scanTaken_key, if_pos hk]

theorem State.scanDeltas_key {k : Fin 24} (hk : Profile.keyEnabled p k = true) :
    (s.scanDeltas p counts)[k] = (counts[k].toNat : Int) - (s.keypad.keys[k].baseline : Int) := by
  rw [← State.scanTaken_delta hk]
  simp [State.scanDeltas]

/-- The keys that count toward water film, as the statements count them (R129). -/
theorem State.scanTaken_film :
    (s.scanTaken p counts).keypad.filmCount p (touchThreshold p (s.scanTaken p counts).keypad.fog) =
      ((List.finRange 24).filter fun k =>
        Profile.keyEnabled p k && s.keypad.keys[k].state != .calibrating &&
          decide (((Profile.touchThreshold p + if s.keypad.fog then Profile.fogAdd p else 0 : Nat) : Int) ≤
            (counts[k].toNat : Int) - (s.keypad.keys[k].baseline : Int))).length := by
  unfold Keypad.filmCount
  refine congrArg List.length (List.filter_congr fun k _ => ?_)
  cases hk : Profile.keyEnabled p k
  · rfl
  · rw [State.scanTaken_delta hk, State.scanTaken_key]
    rfl

theorem Keypad.rejectScan_key (kp : Keypad) (k : Fin 24) :
    kp.rejectScan.keys[k] =
      { kp.keys[k] with
        state := if kp.keys[k].state = .pressing1 ∨ kp.keys[k].state = .pressing2 then .idle else kp.keys[k].state } := by
  refine (tab_get _ k).trans ?_
  generalize kp.keys[k] = r
  obtain ⟨state⟩ := r
  cases state <;> rfl

/-- The state after a rejected scan, before its rebaseline. -/
def State.scanRejected (p : Image) (counts : Vector (BitVec 12) 24) (s : State) : State :=
  (s.scanTaken p counts).mapKeypad Keypad.rejectScan

theorem State.scanRejected_key (k : Fin 24) :
    (s.scanRejected p counts).keypad.keys[k] =
      { s.keypad.keys[k] with
        raw := if Profile.keyEnabled p k then counts[k].toNat else s.keypad.keys[k].raw
        state :=
          if s.keypad.keys[k].state = .pressing1 ∨ s.keypad.keys[k].state = .pressing2 then .idle
          else s.keypad.keys[k].state } := by
  refine (Keypad.rejectScan_key (s.scanTaken p counts).keypad k).trans ?_
  rw [State.scanTaken_key]

theorem State.scanRejected_calibrating (k : Fin 24) :
    ((s.scanRejected p counts).keypad.keys[k].state == .calibrating) = (s.keypad.keys[k].state == .calibrating) := by
  rw [State.scanRejected_key]
  generalize s.keypad.keys[k].state = state
  cases state <;> rfl

theorem State.scanRejected_moved (hwf : s.xmem.wf = true) : s.scanMoved (s.scanRejected p counts) where
  wf := hwf
  engine := rfl
  rebaseline := rfl
  stopPending := rfl
  stops := fun k => by
    have hcalibrating := State.scanRejected_calibrating (s := s) (p := p) (counts := counts) k
    unfold State.stopsKey
    rw [hcalibrating]
    rfl
  slots := fun _ _ _ _ => rfl

theorem State.scanGiven_rejected {n : SlotCount}
    (hfilm : Profile.maxSimultaneous p <
      (s.scanTaken p counts).keypad.filmCount p (touchThreshold p (s.scanTaken p counts).keypad.fog)) :
    s.scanGiven n p counts = s.scanRejected p counts := by
  unfold State.scanGiven Keypad.scanned
  rw [if_pos hfilm]
  rfl

end film

end Sys2Proof.Machine

namespace Sys2Proof.Proofs

open Sys2Proof.Machine

/-- Settles O31: the keys fall back, and what follows is the rebaseline's end alone. -/
theorem waterFilmRejectsTheScan : Obligations.WaterFilmRejectsTheScan := by
  intro s p n counts hp hwf hdue htakes hfilm
  rw [← State.scanTaken_film] at hfilm
  have hmoved := State.scanRejected_moved (p := p) (counts := counts) hwf
  have hstands := hmoved.arbitrate (p := p) (deltas := s.scanDeltas p counts) htakes (fun set _ k hk => by
    have hcalibrating := State.scanRejected_calibrating (s := s) (p := p) (counts := counts) k
    simp only [Bool.and_eq_true] at hk
    rw [hk.1.2] at hcalibrating
    exact beq_iff_eq.mp hcalibrating) s.time.slotCount
  have hexec := scanEnd_exec counts hp hdue
  rw [State.scanGiven_rejected hfilm, hstands] at hexec
  obtain ⟨hblocks, hkeypad, _⟩ := State.scanSettled_blocks (p := p) (deltas := s.scanDeltas p counts) (s.scanRejected p counts)
  obtain ⟨hw, hraised, hshows⟩ := State.scanSettled_memory (p := p) (deltas := s.scanDeltas p counts) hmoved.wf
  have hscanned := hmoved.scanned (p := p) (deltas := s.scanDeltas p counts)
  have hcause := hmoved.cause ((s.scanRejected p counts).scanSettled p (s.scanDeltas p counts))
  refine ⟨_, hexec, ?_, fun k hk => ?_, ?_, hscanned⟩
  · refine hblocks.trans ?_
    have hstops : (fun k => (s.scanRejected p counts).stopsKey k) = fun k => s.stopsKey k := funext hmoved.stops
    rw [hstops] at hkeypad
    generalize (s.scanRejected p counts).scanSettled p (s.scanDeltas p counts) = t at *
    apply State.ext_blocks <;> try rfl
    refine hkeypad.trans (Keypad.ext_keys rfl (fun k => ?_) fun _ => rfl)
    refine (Keypad.calibrationStopped_key _ _ k).trans ?_
    have hold := State.scanRejected_key (s := s) (p := p) (counts := counts) k
    refine Eq.trans ?_ (tab_get _ k).symm
    rw [hold]
    by_cases hstop : s.stopsKey k = true
    · simp [hstop]
    · simp [hstop]
  · have hpage := hshows k hk
    rw [State.scanDeltas_key hk] at hpage
    have hraw : ((s.scanRejected p counts).scanSettled p (s.scanDeltas p counts)).keypad.keys[k].raw = counts[k].toNat := by
      rw [hkeypad]
      refine (congrArg KeyRec.raw (Keypad.calibrationStopped_key _ _ k)).trans ?_
      rw [State.scanRejected_key, if_pos hk]
      split <;> rfl
    unfold detailBytes at hpage
    rwa [hraw] at hpage
  · rw [hcause]
    exact hw.partWrote hwf hraised

end Sys2Proof.Proofs
end

