-- ==== Sys2Proof/Proofs/ScanKeys.lean ====
section
/-!
SUPPORT. The keys of an accepted scan (R128, R130 to R134, R144): what one key becomes, the event it gives, and the chords.
-/

namespace Sys2Proof.Machine

/-! ### One key -/

/-- The touch that an event ends (R133). -/
def endsTouch (e : Option EntryKind) : Bool := e == some .release || e == some .releaseForced

section key
variable (now : SlotCount) (p : Image)

/-- The event of a key with the record `r` at an accepted scan end (R131, R132, R134). -/
def scanEvent (tt delta : Int) (r : KeyRec) : Option EntryKind :=
  if r.state = .pressing2 then (if tt ≤ delta then some .press else none)
  else if r.state.isTouched then
    if touchedNext p delta r.state = .idle then some .release else if stuck now p r then some .releaseForced else none
  else none

theorem scanEvent_of_untouched (tt delta : Int) {r : KeyRec} (h : r.state ≠ .pressing2) (ht : r.state.isTouched = false) :
    scanEvent now p tt delta r = none := by
  rw [scanEvent, if_neg h, if_neg (by simp [ht])]

/-- Its record afterwards (R130 to R134, R144); `stops` says that a stop will take it out of calibration (R146). -/
def scanRec (stops : Bool) (k : Fin 24) (tt delta : Int) (r : KeyRec) : KeyRec :=
  match r.state with
  | .calibrating => if stops then r else r.calibrate
  | .idle => r.idleScan p tt delta
  | .pressing1 => { r with state := if tt ≤ delta then .pressing2 else .idle }
  | .pressing2 =>
    if tt ≤ delta then
      { r with
        state := .touched, touchTime := some now
        nextHold := if Profile.repeating p k then some (after now (Profile.holdDelay p)) else none }
    else { r with state := .idle }
  | _ =>
    if touchedNext p delta r.state = .idle then { r with state := .idle, drift := 0, touchTime := none, nextHold := none }
    else if stuck now p r then { r with state := .idle, drift := 0, baseline := r.raw, touchTime := none, nextHold := none }
    else { r with state := touchedNext p delta r.state }

/-- The event as it is given (R128, R140). -/
def keyEventOf (k : Fin 24) (e : EntryKind) : KeyEvent :=
  { kind := e, subject := keySubject k, power := powerNotice p k (e == .press) }

/-- The keypad controller after key `k` has become `r` and given the event `e`. -/
def Keypad.keyMoved (k : Fin 24) (r : KeyRec) (e : Option EntryKind) (kp : Keypad) : Keypad :=
  if e = some .press then (kp.setKey k r).timeChords now p k
  else if endsTouch e then (kp.setKey k r).rearm p k
  else kp.setKey k r

theorem Keypad.setKey_self (k : Fin 24) (kp : Keypad) : kp.setKey k kp.keys[k] = kp :=
  Keypad.ext_keys rfl (fun j => by
    rw [Keypad.setKey_key]
    split
    · rename_i h
      rw [h]
    · rfl) fun _ => rfl

theorem Keypad.touchedScan_eq (k : Fin 24) (delta : Int) (kp : Keypad) :
    kp.touchedScan now p k delta =
      if touchedNext p delta kp.keys[k].state = .idle then
        ((kp.setKey k { kp.keys[k] with state := .idle, drift := 0, touchTime := none, nextHold := none }).rearm p k,
          [keyEventOf p k .release])
      else if stuck now p kp.keys[k] then
        ((kp.setKey k
            { kp.keys[k] with state := .idle, drift := 0, baseline := kp.keys[k].raw, touchTime := none, nextHold := none }
          ).rearm p k, [keyEventOf p k .releaseForced])
      else (kp.setKey k { kp.keys[k] with state := touchedNext p delta kp.keys[k].state }, []) := by
  unfold Keypad.touchedScan
  dsimp only
  split
  · rename_i h
    rw [if_pos h]
    rfl
  · rename_i h
    rw [if_neg h]
    rfl

/-- One key of an accepted scan. -/
theorem Keypad.scanKey_eq (tt : Int) (kp : Keypad) (k : Fin 24) :
    kp.scanKey now p tt k =
      (kp.keyMoved now p k (scanRec now p (kp.stopPending && kp.inSet k) k tt (kp.delta k) kp.keys[k])
          (scanEvent now p tt (kp.delta k) kp.keys[k]),
        ((scanEvent now p tt (kp.delta k) kp.keys[k]).map (keyEventOf p k)).toList) := by
  have htouched (ht : kp.keys[k].state.isTouched = true) (hrec : scanRec now p (kp.stopPending && kp.inSet k) k tt (kp.delta k)
        kp.keys[k] = (if touchedNext p (kp.delta k) kp.keys[k].state = .idle then
          { kp.keys[k] with state := .idle, drift := 0, touchTime := none, nextHold := none }
        else if stuck now p kp.keys[k] then
          { kp.keys[k] with state := .idle, drift := 0, baseline := kp.keys[k].raw, touchTime := none, nextHold := none }
        else { kp.keys[k] with state := touchedNext p (kp.delta k) kp.keys[k].state })) :
      kp.touchedScan now p k (kp.delta k) =
        (kp.keyMoved now p k (scanRec now p (kp.stopPending && kp.inSet k) k tt (kp.delta k) kp.keys[k])
            (scanEvent now p tt (kp.delta k) kp.keys[k]),
          ((scanEvent now p tt (kp.delta k) kp.keys[k]).map (keyEventOf p k)).toList) := by
    have hnot : kp.keys[k].state ≠ .pressing2 := fun h => by rw [h] at ht; cases ht
    rw [Keypad.touchedScan_eq, hrec, scanEvent, if_neg hnot, if_pos ht]
    split
    · rfl
    · split <;> rfl
  unfold Keypad.scanKey
  dsimp only
  cases hstate : kp.keys[k].state with
  | calibrating =>
    rw [scanEvent_of_untouched now p tt (kp.delta k) (by rw [hstate]; decide) (by rw [hstate]; rfl)]
    unfold scanRec
    rw [hstate]
    dsimp only
    split
    · exact Prod.ext (Keypad.setKey_self k kp).symm rfl
    · rfl
  | idle =>
    rw [scanEvent_of_untouched now p tt (kp.delta k) (by rw [hstate]; decide) (by rw [hstate]; rfl)]
    unfold scanRec
    rw [hstate]
    rfl
  | pressing1 =>
    rw [scanEvent_of_untouched now p tt (kp.delta k) (by rw [hstate]; decide) (by rw [hstate]; rfl)]
    unfold scanRec
    rw [hstate]
    rfl
  | pressing2 =>
    unfold scanRec scanEvent
    rw [hstate, if_pos rfl]
    dsimp only
    split <;> rfl
  | touched =>
    refine htouched (by rw [hstate]; rfl) ?_
    unfold scanRec
    rw [hstate]
  | releasing1 =>
    refine htouched (by rw [hstate]; rfl) ?_
    unfold scanRec
    rw [hstate]
  | releasing2 =>
    refine htouched (by rw [hstate]; rfl) ?_
    unfold scanRec
    rw [hstate]

/-- A touched key stays touched where `touchedNext` is not IDLE. -/
theorem touchedNext_touched {delta : Int} {st : KeyState} (h : touchedNext p delta st ≠ .idle) :
    (touchedNext p delta st).isTouched = true := by
  unfold touchedNext at h ⊢
  split
  · rfl
  · rename_i hlow
    rw [if_neg hlow] at h
    cases st <;> simp_all [KeyState.isTouched]

theorem KeyRec.idleScan_untouched {tt delta : Int} {r : KeyRec} (h : r.state = .idle) :
    (r.idleScan p tt delta).state.isTouched = false := by
  unfold KeyRec.idleScan
  split
  · rfl
  all_goals split
  · simp [h, KeyState.isTouched]
  · split
    · split <;> simp [h, KeyState.isTouched]
    · simp [h, KeyState.isTouched]

theorem KeyRec.calibrate_untouched {r : KeyRec} (h : r.state = .calibrating) : r.calibrate.state.isTouched = false := by
  unfold KeyRec.calibrate
  split
  · rfl
  · simp [h, KeyState.isTouched]

/-- An event and the touch after it (R131 to R134). -/
theorem scanRec_touched (stops : Bool) (k : Fin 24) (tt delta : Int) (r : KeyRec) :
    (scanRec now p stops k tt delta r).state.isTouched =
      if scanEvent now p tt delta r = some .press then true
      else if endsTouch (scanEvent now p tt delta r) then false else r.state.isTouched := by
  have hquiet (h : r.state ≠ .pressing2) (ht : r.state.isTouched = false)
      (hrec : (scanRec now p stops k tt delta r).state.isTouched = false) :
      (scanRec now p stops k tt delta r).state.isTouched =
        if scanEvent now p tt delta r = some .press then true
        else if endsTouch (scanEvent now p tt delta r) then false else r.state.isTouched := by
    rw [scanEvent_of_untouched now p tt delta h ht, hrec, ht]
    rfl
  have htouched (ht : r.state.isTouched = true) (hrec : scanRec now p stops k tt delta r =
      (if touchedNext p delta r.state = .idle then { r with state := .idle, drift := 0, touchTime := none, nextHold := none }
      else if stuck now p r then { r with state := .idle, drift := 0, baseline := r.raw, touchTime := none, nextHold := none }
      else { r with state := touchedNext p delta r.state })) :
      (scanRec now p stops k tt delta r).state.isTouched =
        if scanEvent now p tt delta r = some .press then true
        else if endsTouch (scanEvent now p tt delta r) then false else r.state.isTouched := by
    have hnot : r.state ≠ .pressing2 := fun h => by rw [h] at ht; cases ht
    rw [hrec, scanEvent, if_neg hnot, if_pos ht]
    by_cases hidle : touchedNext p delta r.state = .idle
    · rw [if_pos hidle, if_pos hidle]
      rfl
    · rw [if_neg hidle, if_neg hidle]
      split
      · rfl
      · exact (touchedNext_touched p hidle).trans ht.symm
  cases hstate : r.state with
  | calibrating =>
    rw [← hstate]
    refine hquiet (by rw [hstate]; decide) (by rw [hstate]; rfl) ?_
    unfold scanRec
    rw [hstate]
    dsimp only
    split
    · rw [hstate]
      rfl
    · exact KeyRec.calibrate_untouched hstate
  | idle =>
    rw [← hstate]
    refine hquiet (by rw [hstate]; decide) (by rw [hstate]; rfl) ?_
    unfold scanRec
    rw [hstate]
    exact KeyRec.idleScan_untouched p hstate
  | pressing1 =>
    rw [← hstate]
    refine hquiet (by rw [hstate]; decide) (by rw [hstate]; rfl) ?_
    unfold scanRec
    rw [hstate]
    dsimp only
    split <;> rfl
  | pressing2 =>
    unfold scanRec scanEvent
    rw [hstate, if_pos rfl]
    dsimp only
    split <;> rfl
  | touched =>
    rw [← hstate]
    refine htouched (by rw [hstate]; rfl) ?_
    unfold scanRec
    rw [hstate]
  | releasing1 =>
    rw [← hstate]
    refine htouched (by rw [hstate]; rfl) ?_
    unfold scanRec
    rw [hstate]
  | releasing2 =>
    rw [← hstate]
    refine htouched (by rw [hstate]; rfl) ?_
    unfold scanRec
    rw [hstate]

theorem scanEvent_press {tt delta : Int} {r : KeyRec} (h : scanEvent now p tt delta r = some .press) :
    r.state.isTouched = false := by
  unfold scanEvent at h
  split at h
  · rename_i hstate
    rw [hstate]
    rfl
  · split at h
    · split at h
      · cases h
      · split at h <;> cases h
    · cases h

end key

/-! ### All keys -/

section keys
variable (now : SlotCount) (p : Image) (tt : Int)

/-- The event of key `k`, enabled or not. -/
def Keypad.scanEventOf (kp : Keypad) (k : Fin 24) : Option EntryKind :=
  if Profile.keyEnabled p k then scanEvent now p tt (kp.delta k) kp.keys[k] else none

/-- The record of key `k` after the scan. -/
def Keypad.scanRecOf (kp : Keypad) (k : Fin 24) : KeyRec :=
  if Profile.keyEnabled p k then scanRec now p (kp.stopPending && kp.inSet k) k tt (kp.delta k) kp.keys[k] else kp.keys[k]

/-- The record of key `k` once the keys of `l` have moved. -/
def Keypad.movedKey (l : List (Fin 24)) (kp : Keypad) (k : Fin 24) : KeyRec :=
  if k ∈ l then kp.scanRecOf now p tt k else kp.keys[k]

/-- A key of `l` that is a member of chord `c` gives an event of which `f` holds. -/
def Keypad.memberGives (l : List (Fin 24)) (f : Option EntryKind → Bool) (c : Fin 4) (kp : Keypad) : Bool :=
  (Profile.chordMembers p c).any fun k => decide (k ∈ l) && f (kp.scanEventOf now p tt k)

/-- Chord `c` once the keys of `l` have moved (R133, R138). -/
def Keypad.movedChord (l : List (Fin 24)) (kp : Keypad) (c : Fin 4) : ChordRec :=
  if kp.memberGives now p tt l endsTouch c then { fired := false, holdEnd := none }
  else if kp.memberGives now p tt l (· == some .press) c && Profile.chordDefined p c && !kp.chords[c].fired &&
      (Profile.chordMembers p c).all fun k => (kp.movedKey now p tt l k).state.isTouched then
    { kp.chords[c] with holdEnd := some (after now (Profile.chordHold p)) }
  else kp.chords[c]

/-- The keypad controller once the keys of `l` have moved. -/
def Keypad.movedKeys (l : List (Fin 24)) (kp : Keypad) : Keypad :=
  { kp with keys := tab 24 (kp.movedKey now p tt l), chords := tab 4 (kp.movedChord now p tt l) }

variable {kp : Keypad} {l : List (Fin 24)} {k : Fin 24} {c : Fin 4}

theorem Keypad.movedKeys_key : (kp.movedKeys now p tt l).keys[k] = kp.movedKey now p tt l k := tab_get _ _

theorem Keypad.movedKeys_chord : (kp.movedKeys now p tt l).chords[c] = kp.movedChord now p tt l c := tab_get _ _

theorem Keypad.movedKeys_nil : kp.movedKeys now p tt [] = kp := by
  refine Keypad.ext_keys rfl (fun k => ?_) fun c => ?_
  · rw [Keypad.movedKeys_key, Keypad.movedKey, if_neg List.not_mem_nil]
  · rw [Keypad.movedKeys_chord, Keypad.movedChord]
    simp [Keypad.memberGives]

theorem Keypad.keyMoved_key {r : KeyRec} {e : Option EntryKind} {j : Fin 24} :
    (kp.keyMoved now p k r e).keys[j] = if j = k then r else kp.keys[j] := by
  rw [← Keypad.setKey_key]
  unfold Keypad.keyMoved
  split
  · rfl
  · split <;> rfl

/-- A touch that has ended in `l` leaves its key untouched. -/
theorem Keypad.movedKey_ended (hk : k ∈ l) (hends : endsTouch (kp.scanEventOf now p tt k) = true) :
    (kp.movedKey now p tt l k).state.isTouched = false := by
  unfold Keypad.movedKey Keypad.scanRecOf
  unfold Keypad.scanEventOf at hends
  rw [if_pos hk]
  split at hends
  · rename_i henabled
    rw [if_pos henabled, scanRec_touched, if_neg, if_pos hends]
    intro hpress
    rw [hpress] at hends
    cases hends
  · cases hends

/-- A key whose touch no event begins or ends is touched as before. -/
theorem Keypad.scanRecOf_quiet (hpress : kp.scanEventOf now p tt k ≠ some .press)
    (hends : endsTouch (kp.scanEventOf now p tt k) = false) :
    (kp.scanRecOf now p tt k).state.isTouched = kp.keys[k].state.isTouched := by
  unfold Keypad.scanRecOf
  unfold Keypad.scanEventOf at hpress hends
  split
  · rename_i henabled
    rw [if_pos henabled] at hpress hends
    rw [scanRec_touched, if_neg hpress, if_neg (Bool.eq_false_iff.mp hends)]
  · rfl

theorem Keypad.untouched_of_press (hpress : kp.scanEventOf now p tt k = some .press) : kp.keys[k].state.isTouched = false := by
  unfold Keypad.scanEventOf at hpress
  split at hpress
  · exact scanEvent_press now p hpress
  · cases hpress

theorem Keypad.movedKey_append {m : Fin 24} (hm : m ≠ k) :
    kp.movedKey now p tt (l ++ [k]) m = kp.movedKey now p tt l m := by
  simp [Keypad.movedKey, hm]

theorem Keypad.memberGives_append (f : Option EntryKind → Bool) :
    kp.memberGives now p tt (l ++ [k]) f c =
      (kp.memberGives now p tt l f c || ((Profile.chordMembers p c).contains k && f (kp.scanEventOf now p tt k))) := by
  unfold Keypad.memberGives
  rw [Bool.eq_iff_iff]
  simp only [List.any_eq_true, Bool.or_eq_true, Bool.and_eq_true, decide_eq_true_eq, List.mem_append, List.mem_singleton,
    List.contains_iff_mem]
  constructor
  · rintro ⟨m, hm, hml | rfl, hf⟩
    · exact .inl ⟨m, hm, hml, hf⟩
    · exact .inr ⟨hm, hf⟩
  · rintro (⟨m, hm, hml, hf⟩ | ⟨hm, hf⟩)
    · exact ⟨m, hm, .inl hml, hf⟩
    · exact ⟨k, hm, .inr rfl, hf⟩

/-- One more key moves. -/
theorem Keypad.movedKeys_step (hk : k ∉ l) :
    (kp.movedKeys now p tt l).keyMoved now p k (kp.scanRecOf now p tt k) (kp.scanEventOf now p tt k) =
      kp.movedKeys now p tt (l ++ [k]) := by
  have hself : kp.movedKey now p tt (l ++ [k]) k = kp.scanRecOf now p tt k := by simp [Keypad.movedKey]
  have hbefore : kp.movedKey now p tt l k = kp.keys[k] := if_neg hk
  refine Keypad.ext_keys ?_ (fun j => ?_) fun c => ?_
  · unfold Keypad.keyMoved
    split
    · rfl
    · split <;> rfl
  · rw [Keypad.keyMoved_key, Keypad.movedKeys_key, Keypad.movedKeys_key]
    split
    · rename_i hj
      rw [hj, hself]
    · rename_i hj
      exact (Keypad.movedKey_append now p tt hj).symm
  · have hmoved (u : Keypad) (e : Option EntryKind) (r : KeyRec) : (u.keyMoved now p k r e).chords[c] =
        if e = some .press then
          if (Profile.chordMembers p c).contains k && Profile.chordDefined p c && !u.chords[c].fired &&
              (Profile.chordMembers p c).all (fun m => (if m = k then r else u.keys[m]).state.isTouched) then
            { u.chords[c] with holdEnd := some (after now (Profile.chordHold p)) }
          else u.chords[c]
        else if endsTouch e then
          if (Profile.chordMembers p c).contains k then { fired := false, holdEnd := none } else u.chords[c]
        else u.chords[c] := by
      unfold Keypad.keyMoved
      split
      · refine (tab_get _ c).trans ?_
        simp only [Keypad.setKey_key]
        rfl
      · split
        · exact tab_get _ c
        · rfl
    have hrecs : (fun m => (if m = k then kp.scanRecOf now p tt k else (kp.movedKeys now p tt l).keys[m]).state.isTouched) =
        fun m => (kp.movedKey now p tt (l ++ [k]) m).state.isTouched := by
      funext m
      split
      · rename_i hm
        rw [hm, hself]
      · rename_i hm
        rw [Keypad.movedKeys_key, Keypad.movedKey_append now p tt hm]
    rw [hmoved, hrecs, Keypad.movedKeys_chord, Keypad.movedKeys_chord]
    conv_rhs => rw [Keypad.movedChord, Keypad.memberGives_append, Keypad.memberGives_append]
    by_cases hmember : (Profile.chordMembers p c).contains k = true
    · have hmem : k ∈ Profile.chordMembers p c := List.contains_iff_mem.mp hmember
      simp only [hmember, Bool.true_and]
      by_cases hpress : kp.scanEventOf now p tt k = some .press
      · have huntouched : ((Profile.chordMembers p c).all fun m => (kp.movedKey now p tt l m).state.isTouched) = false := by
          refine List.all_eq_false.mpr ⟨k, hmem, ?_⟩
          rw [hbefore, Keypad.untouched_of_press now p tt hpress]
          simp
        have hnotEnds : endsTouch (kp.scanEventOf now p tt k) = false := by rw [hpress]; rfl
        have hisPress : (kp.scanEventOf now p tt k == some .press) = true := by rw [hpress]; rfl
        rw [if_pos hpress, hnotEnds, hisPress, Bool.or_false, Bool.or_true, Bool.true_and]
        by_cases hends : kp.memberGives now p tt l endsTouch c = true
        · obtain ⟨m, hm, hml⟩ := List.any_eq_true.mp hends
          simp only [Bool.and_eq_true, decide_eq_true_eq] at hml
          have hmk : m ≠ k := fun h => hk (h ▸ hml.1)
          have hgone : ((Profile.chordMembers p c).all fun m => (kp.movedKey now p tt (l ++ [k]) m).state.isTouched) = false := by
            refine List.all_eq_false.mpr ⟨m, hm, ?_⟩
            rw [Keypad.movedKey_append now p tt hmk, Keypad.movedKey_ended now p tt hml.1 hml.2]
            simp
          rw [hgone, if_pos hends, Keypad.movedChord, if_pos hends]
          simp
        · rw [if_neg hends, Keypad.movedChord, if_neg hends, huntouched]
          simp
      · have hisPress : (kp.scanEventOf now p tt k == some .press) = false := by simpa using hpress
        rw [if_neg hpress, hisPress, Bool.or_false]
        by_cases hends : endsTouch (kp.scanEventOf now p tt k) = true
        · rw [if_pos hends, hends, Bool.or_true]
          rfl
        · have hnotEnds : endsTouch (kp.scanEventOf now p tt k) = false := by simpa using hends
          have hall : ((Profile.chordMembers p c).all fun m => (kp.movedKey now p tt (l ++ [k]) m).state.isTouched) =
              (Profile.chordMembers p c).all fun m => (kp.movedKey now p tt l m).state.isTouched := by
            refine congrArg _ (funext fun m => ?_)
            by_cases hm : m = k
            · rw [hm, hself, hbefore, Keypad.scanRecOf_quiet now p tt hpress hnotEnds]
            · rw [Keypad.movedKey_append now p tt hm]
          rw [if_neg hends, hnotEnds, Bool.or_false, hall]
          rfl
    · have hnot : (Profile.chordMembers p c).contains k = false := by simpa using hmember
      have hall : ((Profile.chordMembers p c).all fun m => (kp.movedKey now p tt (l ++ [k]) m).state.isTouched) =
          (Profile.chordMembers p c).all fun m => (kp.movedKey now p tt l m).state.isTouched := by
        rw [Bool.eq_iff_iff, List.all_eq_true, List.all_eq_true]
        refine forall_congr' fun m => forall_congr' fun hm => ?_
        have hmk : m ≠ k := fun h => hmember (List.contains_iff_mem.mpr (h ▸ hm))
        rw [Keypad.movedKey_append now p tt hmk]
      simp only [hnot, hall, Bool.false_and, Bool.or_false]
      rw [← Keypad.movedChord]
      simp

/-- The keys of `l` move one after another (R128). -/
theorem Keypad.scanKeys_foldl (pre : List (Fin 24)) (hnodup : (pre ++ l).Nodup) (es : List KeyEvent) :
    l.foldl
        (fun (acc : Keypad × List KeyEvent) k =>
          if Profile.keyEnabled p k then
            let (kp, es) := acc.1.scanKey now p tt k
            (kp, acc.2 ++ es)
          else acc)
        (kp.movedKeys now p tt pre, es) =
      (kp.movedKeys now p tt (pre ++ l), es ++ l.filterMap fun k => (kp.scanEventOf now p tt k).map (keyEventOf p k)) := by
  induction l generalizing pre es with
  | nil => simp
  | cons k l ih =>
    have hassoc : pre ++ k :: l = (pre ++ [k]) ++ l := by simp
    have hk : k ∉ pre := fun hmem => (List.nodup_append.mp hnodup).2.2 k hmem k List.mem_cons_self rfl
    have hstep := Keypad.movedKeys_step now p tt (kp := kp) hk
    have hbefore : (kp.movedKeys now p tt pre).keys[k] = kp.keys[k] := by
      rw [Keypad.movedKeys_key, Keypad.movedKey, if_neg hk]
    have hdelta : (kp.movedKeys now p tt pre).delta k = kp.delta k := by
      unfold Keypad.delta
      rw [hbefore]
    rw [List.foldl_cons, hassoc, List.filterMap_cons]
    by_cases henabled : Profile.keyEnabled p k = true
    · have hscan : (kp.movedKeys now p tt pre).scanKey now p tt k =
          (kp.movedKeys now p tt (pre ++ [k]), ((kp.scanEventOf now p tt k).map (keyEventOf p k)).toList) := by
        rw [Keypad.scanKey_eq, hbefore, hdelta, ← hstep, Keypad.scanEventOf, Keypad.scanRecOf, if_pos henabled, if_pos henabled]
        rfl
      rw [if_pos henabled, hscan]
      dsimp only
      rw [ih (pre ++ [k]) (by rwa [← hassoc])]
      cases (kp.scanEventOf now p tt k) <;> simp
    · have hnone : kp.scanEventOf now p tt k = none := if_neg henabled
      have hsame : kp.movedKeys now p tt (pre ++ [k]) = kp.movedKeys now p tt pre := by
        rw [← hstep, hnone, Keypad.scanRecOf, if_neg henabled, ← hbefore]
        exact Keypad.setKey_self k _
      rw [if_neg henabled, ← hsame, ih (pre ++ [k]) (by rwa [← hassoc]), hnone]
      simp

/-- The moves of an accepted scan (R128). -/
theorem Keypad.scanKeys_eq :
    kp.scanKeys now p tt =
      (kp.movedKeys now p tt (List.finRange 24),
        (List.finRange 24).filterMap fun k => (kp.scanEventOf now p tt k).map (keyEventOf p k)) := by
  have hfold := Keypad.scanKeys_foldl now p tt (kp := kp) [] (l := List.finRange 24) (List.nodup_finRange 24) []
  rw [Keypad.movedKeys_nil] at hfold
  exact hfold

end keys

end Sys2Proof.Machine
end

