-- ==== Sys2Proof/Proofs/AcceptedScan.lean ====
section
/-!
SUPPORT. The accepted scan (R128): what one enabled key is after it, the events that are offered, and what the power key told.
-/

namespace Sys2Proof.Machine

/-! ### What a key is after the scan -/

section left
variable (now : SlotCount) (p : Image) (stops : Bool) (k : Fin 24) (tt delta : Int) {r : KeyRec}

/-- A key's record after the scan and after a stop that takes it out of calibration (R146). -/
def scanLeft (r : KeyRec) : KeyRec :=
  if stops && r.state == .calibrating then
    { scanRec now p stops k tt delta r with state := .idle, calSum := 0, calCount := 0 }
  else scanRec now p stops k tt delta r

theorem scanLeft_of_calibrating (h : r.state = .calibrating) :
    scanLeft now p stops k tt delta r =
      if stops then { r with state := .idle, calSum := 0, calCount := 0 } else r.calibrate := by
  have hyes : (r.state == .calibrating) = true := by rw [h]; rfl
  have hrec : scanRec now p stops k tt delta r = if stops then r else r.calibrate := by
    unfold scanRec
    rw [h]
  rw [scanLeft, hyes, Bool.and_true, hrec]
  cases stops <;> rfl

theorem scanLeft_of_not_calibrating (h : r.state ≠ .calibrating) :
    scanLeft now p stops k tt delta r = scanRec now p stops k tt delta r := by
  have hnot : (r.state == .calibrating) = false := by simpa using h
  rw [scanLeft, hnot, Bool.and_false]
  rfl

theorem scanLeft_of_idle (h : r.state = .idle) : scanLeft now p stops k tt delta r = r.idleScan p tt delta := by
  rw [scanLeft_of_not_calibrating now p stops k tt delta (by rw [h]; decide)]
  unfold scanRec
  rw [h]

theorem scanLeft_of_pressing1 (h : r.state = .pressing1) :
    scanLeft now p stops k tt delta r = { r with state := if tt ≤ delta then .pressing2 else .idle } := by
  rw [scanLeft_of_not_calibrating now p stops k tt delta (by rw [h]; decide)]
  unfold scanRec
  rw [h]

theorem scanLeft_of_pressing2 (h : r.state = .pressing2) :
    scanLeft now p stops k tt delta r =
      if tt ≤ delta then
        { r with
          state := .touched, touchTime := some now
          nextHold := if Profile.repeating p k then some (after now (Profile.holdDelay p)) else none }
      else { r with state := .idle } := by
  rw [scanLeft_of_not_calibrating now p stops k tt delta (by rw [h]; decide)]
  unfold scanRec
  rw [h]

/-- A touched key after the scan (R132 to R134). -/
theorem scanLeft_of_touched (h : r.state.isTouched = true) :
    scanLeft now p stops k tt delta r =
      if touchedNext p delta r.state = .idle then { r with state := .idle, drift := 0, touchTime := none, nextHold := none }
      else if stuck now p r then { r with state := .idle, drift := 0, baseline := r.raw, touchTime := none, nextHold := none }
      else { r with state := touchedNext p delta r.state } := by
  have hnot : r.state ≠ .calibrating := fun hc => by rw [hc] at h; cases h
  rw [scanLeft_of_not_calibrating now p stops k tt delta hnot]
  unfold scanRec
  cases hstate : r.state with
  | touched => rfl
  | releasing1 => rfl
  | releasing2 => rfl
  | idle => rw [hstate] at h; cases h
  | pressing1 => rw [hstate] at h; cases h
  | pressing2 => rw [hstate] at h; cases h
  | calibrating => exact absurd hstate hnot

/-- The event of a touched key (R132, R134). -/
theorem scanEvent_of_touched (h : r.state.isTouched = true) :
    scanEvent now p tt delta r =
      if touchedNext p delta r.state = .idle then some .release else if stuck now p r then some .releaseForced else none := by
  have hnot : r.state ≠ .pressing2 := fun hc => by rw [hc] at h; cases h
  rw [scanEvent, if_neg hnot, if_pos h]

theorem scanEvent_of_pressing2 (h : r.state = .pressing2) :
    scanEvent now p tt delta r = if tt ≤ delta then some .press else none := by
  rw [scanEvent, if_pos h]

/-- The raw count, the state and the baseline of a key after an accepted scan (R130 to R132, R134, R144). -/
theorem scanLeft_state (old : KeyRec) (raw : Nat) :
    let new := scanLeft now p stops k tt delta { old with raw := raw }
    let pressed : Bool := tt ≤ delta
    let kept : Bool := (Profile.releaseThreshold p : Int) ≤ delta
    let stuck : Bool := stuck now p old
    let eighth : Bool := old.calCount + 1 = 8
    new.raw = raw ∧
      new.state =
        (match old.state with
         | .idle => if pressed then .pressing1 else .idle
         | .pressing1 => if pressed then .pressing2 else .idle
         | .pressing2 => if pressed then .touched else .idle
         | .touched => if stuck then .idle else if kept then .touched else .releasing1
         | .releasing1 => if stuck then .idle else if kept then .touched else .releasing2
         | .releasing2 => if kept then (if stuck then .idle else .touched) else .idle
         | .calibrating => if (stops && old.state == .calibrating) = true ∨ eighth then .idle else .calibrating) ∧
      new.baseline =
        (match old.state with
         | .idle =>
           if pressed then old.baseline
           else if delta ≤ -(Profile.releaseThreshold p : Int) then raw
           else if delta.natAbs < Profile.noiseBand p ∧ Profile.driftPeriod p ≤ old.drift + 1 then
             if old.baseline < raw then old.baseline + 1
             else if raw < old.baseline then old.baseline - 1 else old.baseline
           else old.baseline
         | .pressing1 => old.baseline
         | .pressing2 => old.baseline
         | .touched => if stuck then raw else old.baseline
         | .releasing1 => if stuck then raw else old.baseline
         | .releasing2 => if kept ∧ stuck then raw else old.baseline
         | .calibrating =>
           if (stops && old.state == .calibrating) = false ∧ eighth then (old.calSum + raw) / 8 else old.baseline) := by
  intro new pressed kept stuck' eighth
  have hstuck : stuck now p { old with raw := raw } = stuck' := rfl
  have hnew : new = scanLeft now p stops k tt delta { old with raw := raw } := rfl
  clear_value new stuck'
  obtain ⟨state, baseline, before, drift, touchTime, nextHold, calSum, calCount⟩ := old
  have htouched (ht : state.isTouched = true) : new = _ := hnew.trans (scanLeft_of_touched now p stops k tt delta ht)
  rw [hstuck] at htouched
  have hkept : kept = decide ((Profile.releaseThreshold p : Int) ≤ delta) := rfl
  cases state with
  | idle =>
    rw [hnew, scanLeft_of_idle now p stops k tt delta rfl]
    unfold KeyRec.idleScan
    by_cases hpressed : tt ≤ delta
    · simp [pressed, hpressed]
    · by_cases hlow : delta ≤ -(Profile.releaseThreshold p : Int)
      · simp [pressed, hpressed, hlow]
      · by_cases hnoise : delta.natAbs < Profile.noiseBand p
        · by_cases hdrift : Profile.driftPeriod p ≤ drift + 1 <;> simp [pressed, hpressed, hlow, hnoise, hdrift]
        · simp [pressed, hpressed, hlow, hnoise]
  | calibrating =>
    rw [hnew, scanLeft_of_calibrating now p stops k tt delta rfl]
    unfold KeyRec.calibrate
    cases stops
    · by_cases heighth : calCount + 1 = 8 <;> simp [heighth, eighth]
    · simp
  | pressing1 =>
    rw [hnew, scanLeft_of_pressing1 now p stops k tt delta rfl]
    simp [pressed]
  | pressing2 =>
    rw [hnew, scanLeft_of_pressing2 now p stops k tt delta rfl]
    by_cases hpressed : tt ≤ delta <;> simp [pressed, hpressed]
  | touched =>
    rw [htouched rfl]
    unfold touchedNext
    cases stuck' <;> by_cases hrelease : (Profile.releaseThreshold p : Int) ≤ delta <;> simp [hkept, hrelease]
  | releasing1 =>
    rw [htouched rfl]
    unfold touchedNext
    cases stuck' <;> by_cases hrelease : (Profile.releaseThreshold p : Int) ≤ delta <;> simp [hkept, hrelease]
  | releasing2 =>
    rw [htouched rfl]
    unfold touchedNext
    cases stuck' <;> by_cases hrelease : (Profile.releaseThreshold p : Int) ≤ delta <;> simp [hkept, hrelease]

/-- The drift count, the times and the calibration of a key after an accepted scan (R130 to R134, R144, R146). -/
theorem scanLeft_times (old : KeyRec) (raw : Nat) :
    let new := scanLeft now p stops k tt delta { old with raw := raw }
    let event := scanEvent now p tt delta { old with raw := raw }
    let stopped : Bool := stops && old.state == .calibrating
    let calibrating : Bool := old.state == .calibrating && !stopped
    let done : Bool := calibrating && old.calCount + 1 == 8
    new.drift =
        (if old.state = .idle then
          if decide (tt ≤ delta) = false ∧ -(Profile.releaseThreshold p : Int) < delta ∧ delta.natAbs < Profile.noiseBand p ∧
              old.drift + 1 < Profile.driftPeriod p then old.drift + 1
          else 0
        else if old.state = .calibrating then (if stopped = false ∧ old.calCount + 1 = 8 then 0 else old.drift)
        else if old.state.isTouched ∧ event.isSome then 0
        else old.drift) ∧
      new.touchTime = (if event = some .press then some now else if endsTouch event then none else old.touchTime) ∧
      new.nextHold =
        (if event = some .press then (if Profile.repeating p k then some (after now (Profile.holdDelay p)) else none)
         else if endsTouch event then none else old.nextHold) ∧
      new.calSum = (if done || stopped then 0 else if calibrating then old.calSum + raw else old.calSum) ∧
      new.calCount = (if done || stopped then 0 else if calibrating then old.calCount + 1 else old.calCount) := by
  intro new event stopped calibrating done
  have hnew : new = scanLeft now p stops k tt delta { old with raw := raw } := rfl
  have hevent : event = scanEvent now p tt delta { old with raw := raw } := rfl
  clear_value new event
  obtain ⟨state, baseline, before, drift, touchTime, nextHold, calSum, calCount⟩ := old
  have hquiet (h : state ≠ .pressing2) (ht : state.isTouched = false) : event = none :=
    hevent.trans (scanEvent_of_untouched now p tt delta h ht)
  have htouched (ht : state.isTouched = true) : new = _ := hnew.trans (scanLeft_of_touched now p stops k tt delta ht)
  have hends (ht : state.isTouched = true) : event = _ := hevent.trans (scanEvent_of_touched now p tt delta ht)
  generalize stuck now p _ = held at htouched hends
  cases state with
  | idle =>
    rw [hquiet (by decide) rfl, hnew, scanLeft_of_idle now p stops k tt delta rfl]
    unfold KeyRec.idleScan
    by_cases hpressed : tt ≤ delta
    · simp [hpressed, done, stopped, calibrating, endsTouch]
    · by_cases hlow : delta ≤ -(Profile.releaseThreshold p : Int)
      · simp [hpressed, hlow, done, stopped, calibrating, endsTouch]
      · by_cases hnoise : delta.natAbs < Profile.noiseBand p
        · by_cases hdrift : Profile.driftPeriod p ≤ drift + 1 <;> simp [hpressed, hlow, hnoise, hdrift, done, stopped,
            calibrating,
            endsTouch]
        · simp [hpressed, hlow, hnoise, done, stopped, calibrating, endsTouch]
  | calibrating =>
    rw [hquiet (by decide) rfl, hnew, scanLeft_of_calibrating now p stops k tt delta rfl]
    unfold KeyRec.calibrate
    cases stops
    · by_cases heighth : calCount = 7 <;> simp [heighth, done, stopped, calibrating, endsTouch]
    · simp [done, stopped, calibrating, endsTouch]
  | pressing1 =>
    rw [hquiet (by decide) rfl, hnew, scanLeft_of_pressing1 now p stops k tt delta rfl]
    simp [done, stopped, calibrating, endsTouch, KeyState.isTouched]
  | pressing2 =>
    rw [hevent, scanEvent_of_pressing2 now p tt delta rfl, hnew, scanLeft_of_pressing2 now p stops k tt delta rfl]
    by_cases hpressed : tt ≤ delta <;> simp [hpressed, done, stopped, calibrating, endsTouch, KeyState.isTouched]
  | touched =>
    rw [htouched rfl, hends rfl]
    by_cases hidle : touchedNext p delta .touched = .idle <;> cases held <;>
      simp [hidle, done, stopped, calibrating, endsTouch, KeyState.isTouched]
  | releasing1 =>
    rw [htouched rfl, hends rfl]
    by_cases hidle : touchedNext p delta .releasing1 = .idle <;> cases held <;>
      simp [hidle, done, stopped, calibrating, endsTouch, KeyState.isTouched]
  | releasing2 =>
    rw [htouched rfl, hends rfl]
    by_cases hidle : touchedNext p delta .releasing2 = .idle <;> cases held <;>
      simp [hidle, done, stopped, calibrating, endsTouch, KeyState.isTouched]

end left

/-! ### The records of the statements -/

section statement
variable {s : State} {p : Image} {n : SlotCount} {counts : Vector (BitVec 12) 24} {k : Fin 24}

/-- The record of key `k` with the raw count of the scan. -/
def State.countedKey (counts : Vector (BitVec 12) 24) (k : Fin 24) (s : State) : KeyRec :=
  { s.keypad.keys[k] with raw := counts[k].toNat }

/-- A stop will take the members of the set out of calibration (R146). -/
def State.stopsMember (k : Fin 24) (s : State) : Bool :=
  s.keypad.stopPending && s.keypad.rebaseline.any fun m => m.getLsbD k.val

/-- Key `k` after an accepted scan and its stop. -/
def State.keyLeft (n : SlotCount) (p : Image) (counts : Vector (BitVec 12) 24) (k : Fin 24) (s : State) : KeyRec :=
  scanLeft n p (s.stopsMember k) k (touchThreshold p s.keypad.fog)
    ((counts[k].toNat : Int) - (s.keypad.keys[k].baseline : Int)) (s.countedKey counts k)

theorem State.stopsKey_eq : s.stopsKey k = (s.stopsMember k && s.keypad.keys[k].state == .calibrating) := rfl

theorem stuck_eq {r : KeyRec} : stuck n p r = r.touchTime.any fun m => decide (Profile.stuckLimit p * 64 ≤ (n - m).toNat) := by
  unfold stuck
  cases r.touchTime <;> rfl

/-- The event of an enabled key, as the statements write it (R131, R132, R134). -/
theorem State.keyEvent_eq (hk : Profile.keyEnabled p k = true) :
    s.keyEvent p n k counts[k].toNat =
      scanEvent n p (touchThreshold p s.keypad.fog) ((counts[k].toNat : Int) - (s.keypad.keys[k].baseline : Int))
        (s.countedKey counts k) := by
  have hstuck : stuck n p (s.countedKey counts k) =
      s.keypad.keys[k].touchTime.any fun m => decide (Profile.stuckLimit p * 64 ≤ (n - m).toNat) := stuck_eq
  have hquiet (h : s.keypad.keys[k].state ≠ .pressing2) (ht : s.keypad.keys[k].state.isTouched = false) :=
    scanEvent_of_untouched (r := s.countedKey counts k) n p (touchThreshold p s.keypad.fog)
      ((counts[k].toNat : Int) - (s.keypad.keys[k].baseline : Int)) h ht
  have htouched (ht : s.keypad.keys[k].state.isTouched = true) :=
    scanEvent_of_touched (r := s.countedKey counts k) n p (touchThreshold p s.keypad.fog)
      ((counts[k].toNat : Int) - (s.keypad.keys[k].baseline : Int)) ht
  have hstate' : (s.countedKey counts k).state = s.keypad.keys[k].state := rfl
  unfold State.keyEvent
  dsimp only
  rw [if_pos hk]
  generalize (counts[k].toNat : Int) - (s.keypad.keys[k].baseline : Int) = delta at *
  cases hstate : s.keypad.keys[k].state with
  | idle => rw [hquiet (by rw [hstate]; decide) (by rw [hstate]; rfl)]
  | pressing1 => rw [hquiet (by rw [hstate]; decide) (by rw [hstate]; rfl)]
  | calibrating => rw [hquiet (by rw [hstate]; decide) (by rw [hstate]; rfl)]
  | pressing2 =>
    rw [scanEvent_of_pressing2 n p _ _ (hstate'.trans hstate)]
    simp [touchThreshold]
  | touched =>
    rw [htouched (by rw [hstate]; rfl), hstuck, hstate', hstate]
    by_cases hkept : (Profile.releaseThreshold p : Int) ≤ delta <;> simp [touchedNext, hkept]
  | releasing1 =>
    rw [htouched (by rw [hstate]; rfl), hstuck, hstate', hstate]
    by_cases hkept : (Profile.releaseThreshold p : Int) ≤ delta <;> simp [touchedNext, hkept]
  | releasing2 =>
    rw [htouched (by rw [hstate]; rfl), hstuck, hstate', hstate]
    by_cases hkept : (Profile.releaseThreshold p : Int) ≤ delta <;> simp [touchedNext, hkept]

end statement

end Sys2Proof.Machine
end

