-- ==== Sys2Proof/Proofs/ScanEvents.lean ====
section
/-!
SUPPORT. The events of an accepted scan (R128, R140 to R142), and the scan as the statements tell it.
-/

namespace Sys2Proof.Machine

/-! ### The power key (R92, R93, R140) -/

section power
variable {s v : State} (now : SlotCount) (p : Image)

/-- The rail once a press has begun the override time. -/
def State.overrideBegun (s : State) : State :=
  s.mapRail fun r => { r with override := some (after now (seconds (Profile.overrideTime p))) }

theorem State.powerKeyPress_eq :
    s.powerKeyPress now p =
      (match s.rail.state with
       | .off => (s.overrideBegun now p).enterWarming now p
       | .running => (s.overrideBegun now p).startPulse now p
       | _ => s.overrideBegun now p) := rfl

/-- What a press of the power key leaves of the rail and the monitor (R92). -/
theorem State.powerKeyPress_told :
    let t := s.powerKeyPress now p
    let pulses : Bool := s.rail.state == .running && s.rail.pulse.isNone
    t.rail.override = some (after now (Profile.overrideTime p * 64)) ∧
      t.rail.state = (if s.rail.state = .off then .warming else s.rail.state) ∧
      t.rail.hpwrbtn = (s.rail.hpwrbtn || pulses) ∧
      t.rail.pulse = (if pulses then some (after now (Profile.pulseWidth p)) else s.rail.pulse) ∧ t.mon = s.mon ∧
      (s.rail.state ≠ .off →
        t.rail = { s.rail with override := t.rail.override, hpwrbtn := t.rail.hpwrbtn, pulse := t.rail.pulse }) := by
  have hbegun : (s.overrideBegun now p).rail = { s.rail with override := some (after now (Profile.overrideTime p * 64)) } := rfl
  have hmonBegun : (s.overrideBegun now p).mon = s.mon := rfl
  have hpress := State.powerKeyPress_eq (s := s) now p
  by_cases hoff : s.rail.state = .off
  · rw [hoff] at hpress
    obtain ⟨counts, isOpen, wait, hrail⟩ := State.enterWarming_rail now p (s.overrideBegun now p)
    have hmon : ((s.overrideBegun now p).enterWarming now p).mon = s.mon := by
      rw [State.enterWarming_mon, hbegun, hmonBegun]
      exact Monitor.railChanged_of_steady (by simp [leavesRunning, hoff]) (by decide) _
    dsimp only at hpress ⊢
    rw [hpress, hmon, hrail, hbegun]
    simp [hoff]
  · by_cases hrunning : s.rail.state = .running
    · rw [hrunning] at hpress
      have hmon : ((s.overrideBegun now p).startPulse now p).mon = s.mon := by
        rw [(State.startPulse_frame now p _).2.2.2.2.1, hmonBegun]
      dsimp only at hpress ⊢
      rw [hpress, hmon, State.startPulse_rail, hbegun]
      cases hpulse : s.rail.pulse <;> simp [hrunning, hpulse]
    · have hbegins : s.powerKeyPress now p = s.overrideBegun now p := by
        rw [hpress]
        split
        · rename_i h
          exact absurd h hoff
        · rename_i h
          exact absurd h hrunning
        · rfl
      dsimp only
      rw [hbegins, hbegun, hmonBegun]
      simp [hoff, hrunning]

/-- Events without a power notice leave the rail and the monitor. -/
theorem State.giveAll_untold {es : List KeyEvent} (h : ∀ e ∈ es, e.power = none) :
    (es.foldl (State.give now p) s).rail = s.rail ∧ (es.foldl (State.give now p) s).mon = s.mon := by
  obtain ⟨hrail, _, hmon, _⟩ := State.giveAll_release (s := s) now p es fun e he => by rw [h e he]; simp
  have hnone : (es.any fun e => e.power == some false) = false :=
    List.any_eq_false.mpr fun e he => by rw [h e he]; simp
  rw [hnone] at hrail
  exact ⟨hrail, hmon⟩

/-- What the power key's event leaves of the rail and the monitor (R92, R93, R140). -/
def State.railTold (event : Option EntryKind) (s t : State) : Prop :=
  let pulses : Bool := s.rail.state == .running && s.rail.pulse.isNone
  (event = none → t.rail = s.rail ∧ t.mon = s.mon) ∧
    (event = some .press →
      t.rail.override = some (after now (Profile.overrideTime p * 64)) ∧
        t.rail.state = (if s.rail.state = .off then .warming else s.rail.state) ∧
        t.rail.hpwrbtn = (s.rail.hpwrbtn || pulses) ∧
        t.rail.pulse = (if pulses then some (after now (Profile.pulseWidth p)) else s.rail.pulse) ∧ t.mon = s.mon ∧
        (s.rail.state ≠ .off →
          t.rail = { s.rail with override := t.rail.override, hpwrbtn := t.rail.hpwrbtn, pulse := t.rail.pulse })) ∧
    (event = some .release ∨ event = some .releaseForced →
      t.rail = { s.rail with override := none } ∧ t.mon = s.mon)

/-- One event of the power key. -/
theorem State.give_railTold {k : Fin 24} (hk : Profile.powerKey p = some k) (e : EntryKind) :
    State.railTold now p (some e) s (s.give now p (keyEventOf p k e)) := by
  have hpower : (keyEventOf p k e).power = some (e == .press) := if_pos hk
  have hoffer := State.offer_frame now (keyEventOf p k e).kind (keyEventOf p k e).subject s
  obtain ⟨_, _, _, _, hrail, hmon, _⟩ := hoffer
  refine ⟨fun h => (by cases h), fun hpress => ?_, fun hrelease => ?_⟩
  · obtain rfl : e = .press := Option.some.inj hpress
    have hgive : s.give now p (keyEventOf p k .press) =
        (s.offer now (keyEventOf p k .press).kind (keyEventOf p k .press).subject).powerKeyPress now p := by
      unfold State.give
      rw [hpower]
      rfl
    have htold := State.powerKeyPress_told
      (s := s.offer now (keyEventOf p k .press).kind (keyEventOf p k .press).subject) now p
    rw [← hgive, hrail, hmon] at htold
    exact htold
  · have hnot : (e == .press) = false := by
      obtain h | h := hrelease
      · rw [Option.some.inj h]; rfl
      · rw [Option.some.inj h]; rfl
    have htold := State.give_release (s := s) now p (e := keyEventOf p k e) (by rw [hpower, hnot]; simp)
    obtain ⟨hrail', _, hmon', _⟩ := htold
    rw [hpower, hnot, if_pos rfl] at hrail'
    exact ⟨hrail', hmon'⟩

/-- The events of a scan tell the rail of the power key's alone. -/
theorem State.giveAll_railTold (event : Fin 24 → Option EntryKind) :
    State.railTold now p ((Profile.powerKey p).bind event) s
      (((List.finRange 24).filterMap fun k => (event k).map (keyEventOf p k)).foldl (State.give now p) s) := by
  have huntold (l : List (Fin 24)) (hl : ∀ k ∈ l, Profile.powerKey p = some k → event k = none) :
      ∀ e ∈ l.filterMap fun k => (event k).map (keyEventOf p k), e.power = none := by
    intro e he
    obtain ⟨k, hk, hmap⟩ := List.mem_filterMap.mp he
    obtain ⟨kind, hkind, rfl⟩ := Option.map_eq_some_iff.mp hmap
    refine if_neg fun hp => ?_
    rw [hl k hk hp] at hkind
    cases hkind
  cases hbind : (Profile.powerKey p).bind event with
  | none =>
    have hnone := State.giveAll_untold (s := s) now p (huntold (List.finRange 24) fun k _ hk => by
      rw [hk] at hbind
      exact hbind)
    exact ⟨fun _ => hnone, fun h => (by cases h), fun h => h.elim (by rintro ⟨⟩) (by rintro ⟨⟩)⟩
  | some e =>
    obtain ⟨k, hk, hevent⟩ := Option.bind_eq_some_iff.mp hbind
    obtain ⟨before, behind, hsplit⟩ := List.append_of_mem (List.mem_finRange k)
    have hnodup := List.nodup_middle.mp (hsplit ▸ List.nodup_finRange 24)
    have hnot := (List.nodup_cons.mp hnodup).1
    have hother (l : List (Fin 24)) (hl : k ∉ l) : ∀ j ∈ l, Profile.powerKey p = some j → event j = none := fun j hj hp => by
      rw [hk] at hp
      exact absurd (Option.some.inj hp ▸ hj) hl
    have hbefore := huntold before (hother before fun h => hnot (List.mem_append_left _ h))
    have hbehind := huntold behind (hother behind fun h => hnot (List.mem_append_right _ h))
    rw [hsplit, List.filterMap_append, List.filterMap_cons, hevent]
    dsimp only [Option.map_some]
    rw [List.foldl_append, List.foldl_cons]
    obtain ⟨hrail, hmon⟩ := State.giveAll_untold (s := s) now p hbefore
    generalize (before.filterMap fun k => (event k).map (keyEventOf p k)).foldl (State.give now p) s = u at *
    have htold := State.give_railTold (s := u) now p hk e
    generalize u.give now p (keyEventOf p k e) = w at *
    obtain ⟨hrail', hmon'⟩ := State.giveAll_untold (s := w) now p hbehind
    unfold State.railTold at htold ⊢
    rw [hrail', hmon']
    rw [hrail, hmon] at htold
    exact htold

end power

/-! ### The keypad controller of the scan -/

section scan
variable {s : State} {p : Image} {n : SlotCount} {counts : Vector (BitVec 12) 24}

/-- The keys' moves, from the keypad controller that has taken the counts. -/
theorem State.scanTaken_event (k : Fin 24) :
    (s.scanTaken p counts).keypad.scanEventOf n p (touchThreshold p (s.scanTaken p counts).keypad.fog) k =
      s.keyEvent p n k counts[k].toNat := by
  unfold Keypad.scanEventOf
  split
  · rename_i hk
    rw [State.scanTaken_delta hk, State.scanTaken_key, State.keyEvent_eq hk, if_pos hk]
    rfl
  · rename_i hk
    unfold State.keyEvent
    dsimp only
    rw [if_neg hk]

/-- The state after an accepted scan, before its rebaseline. -/
def State.scanAccepted (n : SlotCount) (p : Image) (counts : Vector (BitVec 12) 24) (s : State) : State :=
  ((List.finRange 24).filterMap fun k => (s.keyEvent p n k counts[k].toNat).map (keyEventOf p k)).foldl (State.give n p)
    ((s.scanTaken p counts).mapKeypad fun kp =>
      kp.movedKeys n p (touchThreshold p s.keypad.fog) (List.finRange 24))

theorem State.scanGiven_accepted
    (hfilm : ¬Profile.maxSimultaneous p <
      (s.scanTaken p counts).keypad.filmCount p (touchThreshold p (s.scanTaken p counts).keypad.fog)) :
    s.scanGiven n p counts = s.scanAccepted n p counts := by
  have hscanned : (s.scanTaken p counts).keypad.scanned n p =
      (s.scanTaken p counts).keypad.scanKeys n p (touchThreshold p (s.scanTaken p counts).keypad.fog) := if_neg hfilm
  have hevents : ((List.finRange 24).filterMap fun k =>
      ((s.scanTaken p counts).keypad.scanEventOf n p (touchThreshold p (s.scanTaken p counts).keypad.fog) k).map
        (keyEventOf p k)) =
      (List.finRange 24).filterMap fun k => (s.keyEvent p n k counts[k].toNat).map (keyEventOf p k) :=
    congrArg (fun f : Fin 24 → Option KeyEvent => (List.finRange 24).filterMap f)
      (funext fun k => by rw [State.scanTaken_event])
  unfold State.scanGiven State.scanAccepted
  rw [hscanned, Keypad.scanKeys_eq, hevents]
  rfl

end scan

end Sys2Proof.Machine
end

