-- ==== Sys2Proof/Proofs/ScanMovesKeys.lean ====
section
/-!
SUPPORT. The accepted scan put together (R128): every part of its picture, from the moves of the keys and their events.
-/

namespace Sys2Proof.Machine

section moved
variable (now : SlotCount) (p : Image) (k : Fin 24) (tt delta : Int) (r : KeyRec)

/-- A key that a stop will take out of calibration is in CALIBRATING after the scan exactly if it was before (R144, R146). -/
theorem scanRec_calibrating :
    ((scanRec now p true k tt delta r).state == .calibrating) = (r.state == .calibrating) := by
  by_cases h : r.state = .calibrating
  · have hrec : scanRec now p true k tt delta r = r := by
      unfold scanRec
      rw [h]
      rfl
    rw [hrec]
  · have hleft := scanLeft_of_not_calibrating now p true k tt delta h
    obtain ⟨_, hstate, _⟩ := scanLeft_state now p true k tt delta r r.raw
    have hnot : (r.state == .calibrating) = false := by simpa using h
    rw [hnot, ← hleft]
    refine Eq.trans (congrArg (· == KeyState.calibrating) hstate) ?_
    cases hr : r.state with
    | calibrating => exact absurd hr h
    | idle => dsimp only; split <;> rfl
    | pressing1 => dsimp only; split <;> rfl
    | pressing2 => dsimp only; split <;> rfl
    | touched => dsimp only; (repeat' split) <;> rfl
    | releasing1 => dsimp only; (repeat' split) <;> rfl
    | releasing2 => dsimp only; (repeat' split) <;> rfl

end moved

section accepted
variable {s : State} {p : Image} {n : SlotCount} {counts : Vector (BitVec 12) 24}

/-- The moved keys of the accepted scan. -/
def State.keysMoved (n : SlotCount) (p : Image) (counts : Vector (BitVec 12) 24) (s : State) : Keypad :=
  (s.scanTaken p counts).keypad.movedKeys n p (touchThreshold p s.keypad.fog) (List.finRange 24)

/-- Key `k` before a stop acts. -/
theorem State.keysMoved_key (k : Fin 24) :
    (s.keysMoved n p counts).keys[k] =
      if Profile.keyEnabled p k then
        scanRec n p (s.stopsMember k) k (touchThreshold p s.keypad.fog)
          ((counts[k].toNat : Int) - (s.keypad.keys[k].baseline : Int)) (s.countedKey counts k)
      else s.keypad.keys[k] := by
  have hmoved := Keypad.movedKeys_key n p (touchThreshold p s.keypad.fog) (kp := (s.scanTaken p counts).keypad)
    (l := List.finRange 24) (k := k)
  refine hmoved.trans ?_
  rw [Keypad.movedKey, if_pos (List.mem_finRange k), Keypad.scanRecOf]
  split
  · rename_i hk
    have hstops : ((s.scanTaken p counts).keypad.stopPending && (s.scanTaken p counts).keypad.inSet k) = s.stopsMember k := by
      have hset : (s.scanTaken p counts).keypad.rebaseline = s.keypad.rebaseline := rfl
      have hpending : (s.scanTaken p counts).keypad.stopPending = s.keypad.stopPending := rfl
      unfold Keypad.inSet State.stopsMember
      rw [hset, hpending]
      cases s.keypad.rebaseline <;> rfl
    rw [hstops, State.scanTaken_delta hk, State.scanTaken_key, if_pos hk]
    rfl
  · rename_i hk
    rw [State.scanTaken_key, if_neg hk]

theorem State.keysMoved_calibrating {k : Fin 24} (h : s.stopsMember k = true) :
    ((s.keysMoved n p counts).keys[k].state == .calibrating) = (s.keypad.keys[k].state == .calibrating) := by
  rw [State.keysMoved_key]
  split
  · rw [h, scanRec_calibrating]
    rfl
  · rfl

/-- What the accepted scan leaves of the blocks. -/
theorem State.scanAccepted_blocks (hwf : s.xmem.wf = true) :
    let g := s.scanAccepted n p counts
    g.time = s.time ∧ g.sense = s.sense ∧ g.air = s.air ∧ g.engine = s.engine ∧ g.store = s.store ∧
      (∃ w q, g.keypad = { s.keysMoved n p counts with writeCounter := w, gap := q }) ∧
      s.xmem.writes (queueBytes ++ warmingBytes) g.xmem ∧
      State.railTold n p ((Profile.powerKey p).bind fun k => s.keyEvent p n k counts[k].toNat) s g ∧
      (s.offerAll n ((List.finRange 24).filterMap fun k => (s.keyEvent p n k counts[k].toNat).map (keyEventOf p k))).sameQueue
        g := by
  have hstart : s.sameQueue ((s.scanTaken p counts).mapKeypad fun kp =>
      kp.movedKeys n p (touchThreshold p s.keypad.fog) (List.finRange 24)) :=
    ⟨hwf, hwf, rfl, rfl, rfl, rfl, rfl, fun _ _ => rfl⟩
  have hqueue := hstart.giveAll n p
    ((List.finRange 24).filterMap fun k => (s.keyEvent p n k counts[k].toNat).map (keyEventOf p k))
  have hqueued := State.give_foldl_queued n p
    ((List.finRange 24).filterMap fun k => (s.keyEvent p n k counts[k].toNat).map (keyEventOf p k))
    ((s.scanTaken p counts).mapKeypad fun kp => kp.movedKeys n p (touchThreshold p s.keypad.fog) (List.finRange 24))
  obtain ⟨htime, hsense, hair, hengine, hstore, _⟩ := State.give_foldl_frame n p
    ((List.finRange 24).filterMap fun k => (s.keyEvent p n k counts[k].toNat).map (keyEventOf p k))
    ((s.scanTaken p counts).mapKeypad fun kp => kp.movedKeys n p (touchThreshold p s.keypad.fog) (List.finRange 24))
  have hwrites := Exchange.writes_foldl (State.give_writes n p)
    ((List.finRange 24).filterMap fun k => (s.keyEvent p n k counts[k].toNat).map (keyEventOf p k))
    ((s.scanTaken p counts).mapKeypad fun kp => kp.movedKeys n p (touchThreshold p s.keypad.fog) (List.finRange 24))
  have htold := State.giveAll_railTold n p (fun k => s.keyEvent p n k counts[k].toNat)
    (s := (s.scanTaken p counts).mapKeypad fun kp => kp.movedKeys n p (touchThreshold p s.keypad.fog) (List.finRange 24))
  exact ⟨htime, hsense, hair, hengine, hstore, hqueued, hwrites, htold, hqueue⟩

theorem State.scanAccepted_key (hwf : s.xmem.wf = true) (k : Fin 24) :
    (s.scanAccepted n p counts).keypad.keys[k] = (s.keysMoved n p counts).keys[k] := by
  obtain ⟨_, _, _, _, _, ⟨w, q, hkeypad⟩, _⟩ := State.scanAccepted_blocks (n := n) (p := p) (counts := counts) hwf
  rw [hkeypad]

theorem State.scanAccepted_moved (hwf : s.xmem.wf = true) : s.scanMoved (s.scanAccepted n p counts) := by
  have hkey := State.scanAccepted_key (n := n) (p := p) (counts := counts) hwf
  obtain ⟨_, _, _, hengine, _, ⟨w, q, hkeypad⟩, hw, _⟩ := State.scanAccepted_blocks (n := n) (p := p) (counts := counts) hwf
  generalize s.scanAccepted n p counts = g at *
  have hrebaseline : g.keypad.rebaseline = s.keypad.rebaseline := by rw [hkeypad]; rfl
  have hpending : g.keypad.stopPending = s.keypad.stopPending := by rw [hkeypad]; rfl
  refine ⟨(hw hwf).wf, hengine, hrebaseline, hpending, fun k => ?_, (hw.mono (by decide)).sameSlots hwf⟩
  have hmember : g.stopsMember k = s.stopsMember k := by
    unfold State.stopsMember
    rw [hrebaseline, hpending]
  rw [State.stopsKey_eq, State.stopsKey_eq, hmember, hkey]
  cases h : s.stopsMember k
  · rfl
  · rw [State.keysMoved_calibrating h]

/-- A key that does not finish its calibration goes on in it. -/
theorem State.scanAccepted_stays (hwf : s.xmem.wf = true) {k : Fin 24} (hstate : s.keypad.keys[k].state = .calibrating)
    (hfinish : s.finishesKey p k = false) : (s.scanAccepted n p counts).keypad.keys[k].state = .calibrating := by
  rw [State.scanAccepted_key hwf, State.keysMoved_key]
  split
  · rename_i hk
    have hyes : (s.keypad.keys[k].state == .calibrating) = true := by rw [hstate]; rfl
    have hcounted : (s.countedKey counts k).state = .calibrating := hstate
    unfold State.finishesKey at hfinish
    rw [hk, State.stopsKey_eq, hyes, Bool.and_true, Bool.true_and] at hfinish
    unfold scanRec
    rw [hcounted]
    dsimp only
    split
    · exact hcounted
    · rename_i hstops
      have hstops' : s.stopsMember k = false := by simpa using hstops
      rw [hstops', Bool.not_false, Bool.true_and] at hfinish
      have hcount : (s.countedKey counts k).calCount + 1 ≠ 8 := beq_eq_false_iff_ne.mp hfinish
      unfold KeyRec.calibrate
      rw [if_neg hcount]
      exact hcounted
  · exact hstate

/-- The state at the end of the accepted scan. -/
def State.scanDone (n : SlotCount) (p : Image) (counts : Vector (BitVec 12) 24) (s : State) : State :=
  (s.scanAccepted n p counts).scanSettled p (s.scanDeltas p counts)

theorem State.scanDone_keypad (hwf : s.xmem.wf = true) :
    let t := s.scanDone n p counts
    t.keypad =
      { (s.scanAccepted n p counts).keypad.calibrationStopped (fun k => s.stopsKey k) with
        rebaseline := t.keypad.rebaseline, stopPending := t.keypad.stopPending } := by
  obtain ⟨_, hkeypad, _⟩ := State.scanSettled_blocks (p := p) (deltas := s.scanDeltas p counts) (s.scanAccepted n p counts)
  have hstops : (fun k => (s.scanAccepted n p counts).stopsKey k) = fun k => s.stopsKey k :=
    funext (State.scanAccepted_moved hwf).stops
  rw [hstops] at hkeypad
  exact hkeypad

theorem State.scanDone_key (hwf : s.xmem.wf = true) (k : Fin 24) :
    (s.scanDone n p counts).keypad.keys[k] =
      if s.stopsKey k then { (s.keysMoved n p counts).keys[k] with state := .idle, calSum := 0, calCount := 0 }
      else (s.keysMoved n p counts).keys[k] := by
  rw [State.scanDone_keypad hwf]
  refine (Keypad.calibrationStopped_key _ _ k).trans ?_
  rw [State.scanAccepted_key hwf]

/-- An enabled key at the end of the accepted scan. -/
theorem State.scanDone_enabled (hwf : s.xmem.wf = true) {k : Fin 24} (hk : Profile.keyEnabled p k = true) :
    (s.scanDone n p counts).keypad.keys[k] = s.keyLeft n p counts k := by
  rw [State.scanDone_key hwf, State.keysMoved_key, if_pos hk, State.stopsKey_eq]
  rfl

/-- A key that is not enabled. -/
theorem State.scanDone_disabled (hwf : s.xmem.wf = true) {k : Fin 24} (hk : Profile.keyEnabled p k = false) :
    (s.scanDone n p counts).keypad.keys[k] =
      if s.stopsKey k then { s.keypad.keys[k] with state := .idle, calSum := 0, calCount := 0 } else s.keypad.keys[k] := by
  have hmoved := State.keysMoved_key (s := s) (n := n) (p := p) (counts := counts) k
  rw [if_neg (Bool.eq_false_iff.mp hk)] at hmoved
  rw [State.scanDone_key hwf, hmoved]

/-- The times of the keys and the chords (R131 to R134, R138, R144, R146). -/
theorem State.scanDone_touches (hwf : s.xmem.wf = true) : s.touchesMoved p n counts (s.scanDone n p counts) := by
  refine ⟨fun k hk => ?_, fun c => ?_⟩
  · have htimes := scanLeft_times n p (s.stopsMember k) k (touchThreshold p s.keypad.fog)
      ((counts[k].toNat : Int) - (s.keypad.keys[k].baseline : Int)) s.keypad.keys[k] counts[k].toNat
    have hleft : s.keyLeft n p counts k = scanLeft n p (s.stopsMember k) k (touchThreshold p s.keypad.fog)
      ((counts[k].toNat : Int) - (s.keypad.keys[k].baseline : Int)) { s.keypad.keys[k] with raw := counts[k].toNat } := rfl
    have hevent := State.keyEvent_eq (s := s) (n := n) (counts := counts) hk
    unfold State.driftAfter
    simp only [State.scanDone_enabled hwf hk, hevent, State.stopsKey_eq]
    exact htimes
  · have htouched (k : Fin 24) : (s.scanDone n p counts).keypad.keys[k].state.isTouched =
        ((s.scanTaken p counts).keypad.movedKey n p (touchThreshold p s.keypad.fog) (List.finRange 24) k).state.isTouched := by
      have hmoved : (s.keysMoved n p counts).keys[k] = _ :=
        Keypad.movedKeys_key n p (touchThreshold p s.keypad.fog) (kp := (s.scanTaken p counts).keypad)
          (l := List.finRange 24) (k := k)
      rw [← hmoved, State.scanDone_key hwf]
      split
      · rename_i hstops
        rw [State.stopsKey_eq, Bool.and_eq_true] at hstops
        have hcalibrating := State.keysMoved_calibrating (n := n) (p := p) (counts := counts) hstops.1
        rw [hstops.2, beq_iff_eq] at hcalibrating
        rw [hcalibrating]
        rfl
      · rfl
    have hgives (f : Option EntryKind → Bool) :
        (s.scanTaken p counts).keypad.memberGives n p (touchThreshold p s.keypad.fog) (List.finRange 24) f c =
          (Profile.chordMembers p c).any fun k => f (s.keyEvent p n k counts[k].toNat) := by
      unfold Keypad.memberGives
      refine congrArg _ (funext fun k => ?_)
      rw [decide_eq_true (List.mem_finRange k), Bool.true_and]
      exact congrArg f (State.scanTaken_event k)
    have hchord : (s.scanDone n p counts).keypad.chords[c] =
        (s.scanTaken p counts).keypad.movedChord n p (touchThreshold p s.keypad.fog) (List.finRange 24) c := by
      obtain ⟨_, _, _, _, _, ⟨w, q, hqueued⟩, _⟩ := State.scanAccepted_blocks (n := n) (p := p) (counts := counts) hwf
      rw [State.scanDone_keypad hwf]
      refine (show (s.scanAccepted n p counts).keypad.chords[c] = _ from ?_)
      rw [hqueued]
      exact Keypad.movedKeys_chord n p (touchThreshold p s.keypad.fog)
    rw [hchord, Keypad.movedChord, hgives, hgives]
    simp only [htouched]
    rfl

/-- The events and the copies of the queue (R141, R142). -/
theorem State.scanDone_offered (hwf : s.xmem.wf = true) : s.eventsOffered p n counts (s.scanDone n p counts) := by
  obtain ⟨_, _, _, _, _, ⟨w, q, hkeypad⟩, _, _, hqueue⟩ :=
    State.scanAccepted_blocks (n := n) (p := p) (counts := counts) hwf
  have hmoved := State.scanAccepted_moved (n := n) (p := p) (counts := counts) hwf
  have hdone := State.scanDone_keypad (n := n) (p := p) (counts := counts) hwf
  obtain ⟨hw, ⟨hsummary, _⟩, _⟩ := State.scanSettled_memory (p := p) (deltas := s.scanDeltas p counts) hmoved.wf
  have hcause := hmoved.cause (s.scanDone n p counts)
  have hfold : s.offerAll n ((List.finRange 24).filterMap fun k => (s.keyEvent p n k counts[k].toNat).map (keyEventOf p k)) =
      (List.finRange 24).foldl
        (fun (x : State) k =>
          match s.keyEvent p n k counts[k].toNat with
          | some e => x.offer n e (BitVec.ofNat 8 k.val)
          | none => x) s := by
    unfold State.offerAll
    rw [List.foldl_filterMap]
    congr 1
    funext x k
    cases s.keyEvent p n k counts[k].toNat <;> rfl
  unfold State.eventsOffered
  dsimp only
  rw [hcause]
  rw [hfold] at hqueue
  generalize List.foldl _ s (List.finRange 24) = u at *
  have hkept (a : Nat) (ha : a < 0x600) (hin : (0x14 ≤ a ∧ a ≤ 0x18) ∨ 0x500 ≤ a) :
      (s.scanDone n p counts).xmem.peek a = (s.scanAccepted n p counts).xmem.peek a := by
    refine (hw hmoved.wf).kept a (by unfold memorySize; omega) ?_
    unfold settledBytes
    split <;> (simp only [List.nil_append, List.cons_append, outside_cons, outside_nil, and_true]; omega)
  refine ⟨?_, ?_, ?_, ?_, fun a ha hin => (hkept a ha hin).trans (hqueue.peek a ?_)⟩
  · rw [hdone]
    exact hqueue.writeCounter
  · rw [hdone]
    refine (show (s.scanAccepted n p counts).keypad.readCounter = _ from ?_)
    rw [hkeypad]
    rfl
  · rw [hdone]
    exact hqueue.gap
  · rw [← hqueue.summary]
    exact hsummary
  · simp only [queueAddr, Bool.and_eq_true, decide_eq_true_eq, Bool.or_eq_true]
    exact ⟨ha, hin⟩

end accepted

end Sys2Proof.Machine

namespace Sys2Proof.Proofs

open Sys2Proof.Machine

/-- Settles O32: the keys move one after another, their events are offered and told, and the rebaseline ends or goes on. -/
theorem acceptedScanMovesTheKeys : Obligations.AcceptedScanMovesTheKeys := by
  intro s p n counts hp hwf hdue htakes hfilm
  rw [← State.scanTaken_film] at hfilm
  have hmoved := State.scanAccepted_moved (n := n) (p := p) (counts := counts) hwf
  have hstands := hmoved.arbitrate (p := p) (deltas := s.scanDeltas p counts) htakes (fun set _ k hk => by
    simp only [Bool.and_eq_true, Bool.not_eq_true'] at hk
    exact State.scanAccepted_stays hwf (beq_iff_eq.mp hk.1.2) hk.2) s.time.slotCount
  have hexec := scanEnd_exec counts hp hdue
  rw [State.scanGiven_accepted hfilm, hstands] at hexec
  obtain ⟨htime, hsense, hair, _, hstore, ⟨w, q, hqueued⟩, _, htold, _⟩ :=
    State.scanAccepted_blocks (n := n) (p := p) (counts := counts) hwf
  obtain ⟨hblocks, hkeypad, _⟩ := State.scanSettled_blocks (p := p) (deltas := s.scanDeltas p counts)
    (s.scanAccepted n p counts)
  obtain ⟨_, _, hshows⟩ := State.scanSettled_memory (p := p) (deltas := s.scanDeltas p counts) hmoved.wf
  refine ⟨s.scanDone n p counts, hexec, fun k hk => ?_, fun k hk => ?_, ?_, fun k hk => ?_, ?_, ?_, ?_, ?_,
    State.scanDone_touches hwf, State.scanDone_offered hwf, ?_, hmoved.scanned⟩
  · have hstate := scanLeft_state n p (s.stopsMember k) k (touchThreshold p s.keypad.fog)
      ((counts[k].toNat : Int) - (s.keypad.keys[k].baseline : Int)) s.keypad.keys[k] counts[k].toNat
    simp only [stuck_eq] at hstate
    simp only [State.scanDone_enabled hwf hk, State.stopsKey_eq]
    exact hstate
  · exact State.scanDone_disabled hwf hk
  · have hscan := congrArg Keypad.scan (State.scanDone_keypad (n := n) (p := p) (counts := counts) hwf)
    refine hscan.trans (show (s.scanAccepted n p counts).keypad.scan = none from ?_)
    rw [hqueued]
    rfl
  · have hpage := hshows k hk
    have hraw : (s.scanDone n p counts).keypad.keys[k].raw = counts[k].toNat := by
      rw [State.scanDone_enabled hwf hk]
      exact (scanLeft_state n p _ k _ _ s.keypad.keys[k] counts[k].toNat).1
    rw [State.scanDeltas_key hk] at hpage
    unfold detailBytes at hpage
    rwa [show ((s.scanAccepted n p counts).scanSettled p (s.scanDeltas p counts)).keypad.keys[k].raw = counts[k].toNat
      from hraw] at hpage
  · exact (congrArg State.sense hblocks).trans hsense
  · exact (congrArg State.air hblocks).trans hair
  · exact (congrArg State.store hblocks).trans hstore
  · exact (congrArg State.time hblocks).trans htime
  · have hrail : (s.scanDone n p counts).rail = (s.scanAccepted n p counts).rail := (congrArg State.rail hblocks :)
    have hmon : (s.scanDone n p counts).mon = (s.scanAccepted n p counts).mon := (congrArg State.mon hblocks :)
    unfold State.powerKeyTold
    rw [hrail, hmon]
    exact htold

end Sys2Proof.Proofs
end

