-- ==== Sys2Proof/Proofs/SlipsBeside.lean ====
section
/-!
SUPPORT. What a slip leaves that is taken at the end of another event (R167): whatever its kind, the samples, the grants and
the scan decision stand and the remaining seconds are shown; outside RUNNING the rail, the ladder and the records stand too.
-/

namespace Sys2Proof.Machine

/-! ### What a slip leaves of each block -/

/-- The zones' overrides are all that a slip moves of the climate controller (R20, R41). -/
structure Climate.slipKept (a b : Climate) : Prop where
  figures : b = { a with zones := b.zones }
  zones : ∀ z : Fin 3, b.zones[z] = { a.zones[z] with override := b.zones[z].override }

/-- A slip leaves the keypad controller's scan decision. -/
structure Keypad.slipKept (a b : Keypad) : Prop where
  deferred : b.deferred = a.deferred
  scan : b.scan = a.scan
  edgeSet : b.edgeSet = a.edgeSet

/-- Of the air controller a slip moves a floor, the stop of a probe in flight, and an idle probe to WAITING (R51, R61, R64). -/
structure Air.slipKept (a b : Air) : Prop where
  rest : b = { a with fans := b.fans, probe := b.probe }
  fans : ∀ f : Fin 2, b.fans[f] = { a.fans[f] with floor := b.fans[f].floor }
  inFlight : a.probe.phase ≠ .idle → b.probe = { a.probe with stopPending := b.probe.stopPending }
  idle : a.probe.phase = .idle → b.probe.phase = .idle ∨ b.probe.phase = .waiting

/-- Of the store a slip moves a commit that begins (R179). -/
structure Store.slipKept (a b : Store) : Prop where
  rest : b =
    { a with commit := b.commit, stagingHeld := b.stagingHeld, programmingBegan := b.programmingBegan }
  commit : (b.commit = a.commit ∧ b.stagingHeld = a.stagingHeld) ∨
    (a.commit = .idle ∧ b.commit = .programming ∧ b.stagingHeld = true)

section blocks

theorem Climate.slipKept.of_eq {a b : Climate} (h : b = a) : a.slipKept b := by
  subst h
  exact ⟨rfl, fun _ => rfl⟩

theorem Climate.slipKept.trans {a b c : Climate} (h : a.slipKept b) (h' : b.slipKept c) : a.slipKept c :=
  ⟨by rw [h'.figures, h.figures], fun z => by rw [h'.zones z, h.zones z]⟩

theorem Climate.withoutOverrides_slipKept (a : Climate) : a.slipKept a.withoutOverrides := by
  refine ⟨rfl, fun z => ?_⟩
  have hz : a.withoutOverrides.zones[z] = { a.zones[z] with override := none } := tab_get _ z
  rw [hz]

theorem Keypad.slipKept.of_eq {a b : Keypad} (h : b = a) : a.slipKept b := by
  subst h
  exact ⟨rfl, rfl, rfl⟩

theorem Keypad.slipKept.trans {a b c : Keypad} (h : a.slipKept b) (h' : b.slipKept c) : a.slipKept c :=
  ⟨h'.deferred.trans h.deferred, h'.scan.trans h.scan, h'.edgeSet.trans h.edgeSet⟩

theorem Air.slipKept.of_eq {a b : Air} (h : b = a) : a.slipKept b := by
  subst h
  exact ⟨rfl, fun _ => rfl, fun _ => rfl, fun h => .inl h⟩

theorem Air.slipKept.trans {a b c : Air} (h : a.slipKept b) (h' : b.slipKept c) : a.slipKept c where
  rest := by rw [h'.rest, h.rest]
  fans := fun f => by rw [h'.fans f, h.fans f]
  inFlight := fun hnot => by
    have hb := h.inFlight hnot
    rw [h'.inFlight (by rw [hb]; exact hnot), hb]
  idle := fun hidle => by
    obtain hb | hb := h.idle hidle
    · exact h'.idle hb
    · right
      rw [h'.inFlight (by rw [hb]; decide)]
      exact hb

theorem Store.slipKept.of_eq {a b : Store} (h : b = a) : a.slipKept b := by
  subst h
  exact ⟨rfl, .inl ⟨rfl, rfl⟩⟩

theorem Store.slipKept.trans {a b c : Store} (h : a.slipKept b) (h' : b.slipKept c) : a.slipKept c where
  rest := by rw [h'.rest, h.rest]
  commit := by
    obtain ⟨hcommit, hheld⟩ | ⟨hidle, hcommit, hheld⟩ := h.commit
    · rw [← hcommit, ← hheld]
      exact h'.commit
    · obtain ⟨hcommit', hheld'⟩ | ⟨hidle', _⟩ := h'.commit
      · exact .inr ⟨hidle, hcommit'.trans hcommit, hheld'.trans hheld⟩
      · rw [hcommit] at hidle'
        cases hidle'

end blocks

/-- The bytes that a slip writes outside RUNNING. -/
def besideBytes : List (Nat × Nat) := slipTableBytes ++ watchdogBytes ++ queueBytes ++ [(0x800, 0x400)]

/-- No slip writes the slot count or a byte before it, nor the figures of the live page that the boundary writes. -/
def aboveCount : List (Nat × Nat) := [(0x0C, 0x34), (0x0AC, 0xB54)]

/-- What every slip leaves, taken at slot count `now`. -/
structure State.slipKeeps (now : SlotCount) (u t : State) : Prop where
  inputs : t.rail.inputs = u.rail.inputs
  pgood : t.rail.pgood = u.rail.pgood
  hsleep : t.rail.hsleep = u.rail.hsleep
  climate : u.climate.slipKept t.climate
  keypad : u.keypad.slipKept t.keypad
  air : u.air.slipKept t.air
  store : u.store.slipKept t.store
  ladder : t.mon.ladderIndex = u.mon.ladderIndex
  above : u.xmem.writes aboveCount t.xmem
  watched : u.xmem.wf = true → u.watchdogShown now → t.watchdogShown now
  beside : u.rail.state ≠ .running →
    t.rail = { u.rail with override := t.rail.override } ∧ t.mon.ladderIndex = u.mon.ladderIndex ∧
      t.mon.records = u.mon.records ∧ u.xmem.writes besideBytes t.xmem

section keeps
variable {u v t : State} {n : Fin 16} (now : SlotCount) (p : Image)

theorem State.slipKeeps.heaters {now : SlotCount} (h : u.slipKeeps now t) : t.climate.heaters = u.climate.heaters := by
  rw [h.climate.figures]

theorem State.slipKeeps.zones {now : SlotCount} (h : u.slipKeeps now t) (z : Fin 3) :
    t.climate.zones[z] = { u.climate.zones[z] with override := t.climate.zones[z].override } := h.climate.zones z

theorem State.slipKeeps.deferred {now : SlotCount} (h : u.slipKeeps now t) : t.keypad.deferred = u.keypad.deferred :=
    h.keypad.deferred

theorem State.slipKeeps.scan {now : SlotCount} (h : u.slipKeeps now t) : t.keypad.scan = u.keypad.scan := h.keypad.scan

/-- A slip that leaves the monitor, and the rail but for the override time. -/
theorem State.slipKeeps.of_calm (hrail : t.rail = { u.rail with override := t.rail.override }) (hmon : t.mon = u.mon)
    (hclimate : u.climate.slipKept t.climate) (hkeypad : u.keypad.slipKept t.keypad) (hair : u.air.slipKept t.air)
    (hstore : u.store.slipKept t.store) (hw : u.xmem.writes (slipTableBytes ++ queueBytes ++ [(0x800, 0x400)]) t.xmem) :
    u.slipKeeps now t where
  inputs := by rw [hrail]
  pgood := by rw [hrail]
  hsleep := by rw [hrail]
  climate := hclimate
  keypad := hkeypad
  air := hair
  store := hstore
  ladder := by rw [hmon]
  above := hw.mono (by decide)
  watched := fun hwf h => State.watchdogShown_of_writes hwf h hw (by decide) (by rw [hmon]) (by rw [hmon])
  beside := fun _ => by
    refine ⟨hrail, ?_, ?_, hw.mono (by decide)⟩ <;> rw [hmon]

/-- A slip that leaves every block but the engine and the exchange memory. -/
theorem State.slipKeeps.of_blocks (hrail : t.rail = u.rail) (hclimate : t.climate = u.climate) (hmon : t.mon = u.mon)
    (hkeypad : t.keypad = u.keypad) (hair : t.air = u.air) (hstore : t.store = u.store)
    (hw : u.xmem.writes (slipTableBytes ++ [(0x800, 0x400)]) t.xmem) : u.slipKeeps now t :=
  .of_calm now (by rw [hrail]) hmon (.of_eq hclimate) (.of_eq hkeypad) (.of_eq hair) (.of_eq hstore) (hw.mono (by decide))

theorem State.slipKeeps.trans (h : u.slipKeeps now v) (h' : v.slipKeeps now t) : u.slipKeeps now t where
  inputs := h'.inputs.trans h.inputs
  pgood := h'.pgood.trans h.pgood
  hsleep := h'.hsleep.trans h.hsleep
  climate := h.climate.trans h'.climate
  keypad := h.keypad.trans h'.keypad
  air := h.air.trans h'.air
  store := h.store.trans h'.store
  ladder := h'.ladder.trans h.ladder
  above := h.above.trans h'.above
  watched := fun hwf hu => h'.watched (h.above hwf).wf (h.watched hwf hu)
  beside := fun hnot => by
    obtain ⟨hrail, hladder, hrecords, hwrites⟩ := h.beside hnot
    obtain ⟨hrail', hladder', hrecords', hwrites'⟩ := h'.beside (by rw [hrail]; exact hnot)
    exact ⟨by rw [hrail', hrail], hladder'.trans hladder, hrecords'.trans hrecords, hwrites.trans hwrites'⟩

theorem State.immediate_slipKeeps {a : State × SlipResult} (h : u.slipKeeps now a.1) :
    u.slipKeeps now (State.immediate n a) :=
  h.trans now (.of_blocks now rfl rfl rfl rfl rfl rfl ((Exchange.complete_writes n.isLt _ _).mono (by decide)))

theorem State.lasting_slipKeeps (b : LastingBlock) {a : State × LastingAnswer} (h : u.slipKeeps now a.1) :
    u.slipKeeps now (State.lasting b n a) := by
  obtain ⟨w, answer⟩ := a
  cases answer with
  | accepted =>
    refine h.trans now (.of_blocks now rfl rfl rfl rfl rfl rfl ?_)
    refine (Exchange.writeResult_writes (n := n.val) .taken 0 0 [] w.xmem).of_outside fun a ha => ?_
    simp only [slipTableBytes, List.cons_append, List.nil_append, outside_cons, outside_nil, and_true] at ha ⊢
    unfold slotAddr
    omega
  | atOnce r =>
    exact h.trans now (.of_blocks now rfl rfl rfl rfl rfl rfl ((Exchange.complete_writes n.isLt _ _).mono (by decide)))

/-- A slip that begins a stop or a restart does so in RUNNING. -/
theorem State.slipKeeps.of_running (hrunning : u.rail.state = .running) (hinputs : t.rail.inputs = u.rail.inputs)
    (hpgood : t.rail.pgood = u.rail.pgood) (hhsleep : t.rail.hsleep = u.rail.hsleep)
    (hclimate : u.climate.slipKept t.climate) (hkeypad : u.keypad.slipKept t.keypad) (hair : u.air.slipKept t.air)
    (hstore : t.store = u.store) (hladder : t.mon.ladderIndex = u.mon.ladderIndex)
    (habove : u.xmem.writes aboveCount t.xmem) (hwatched : u.xmem.wf = true → t.watchdogShown now) : u.slipKeeps now t :=
  ⟨hinputs, hpgood, hhsleep, hclimate, hkeypad, hair, .of_eq hstore, hladder, habove, fun hwf _ => hwatched hwf,
    fun hnot => absurd hrunning hnot⟩

theorem State.slipKeeps_refl (u : State) : u.slipKeeps now u :=
  .of_blocks now rfl rfl rfl rfl rfl rfl (Exchange.writes_refl _ _)

theorem State.setOverride_slipKeeps (z : Fin 3) (v : Option Int) : u.slipKeeps now (u.setOverride z v) := by
  refine .of_calm now rfl rfl ⟨rfl, fun j => ?_⟩ (.of_eq rfl) (.of_eq rfl) (.of_eq rfl) (Exchange.writes_refl _ _)
  have hz : (u.setOverride z v).climate.zones[j] =
      if z.val = j.val then { u.climate.zones[z] with override := v } else u.climate.zones[j] :=
    Vector.getElem_set (hi := z.isLt) (hj := j.isLt)
  rw [hz]
  split
  · rename_i h
    rw [Fin.ext h]
  · rfl

theorem State.fanFloorSlip_slipKeeps (fan floor : Nat) : u.slipKeeps now (u.fanFloorSlip fan floor).1 := by
  unfold State.fanFloorSlip
  split
  · rename_i hfan
    refine .of_calm now rfl rfl (.of_eq rfl) (.of_eq rfl) ⟨rfl, fun f => ?_, fun _ => rfl, fun h => .inl h⟩ (.of_eq rfl)
      (Exchange.writes_refl _ _)
    generalize (if floor = 0 then none else some (min 100 floor) : Option Nat) = o
    have hf : (u.air.fans.set fan { u.air.fans[fan] with floor := o })[f] =
        if fan = f.val then { u.air.fans[fan] with floor := o } else u.air.fans[f] :=
      Vector.getElem_set (hi := hfan) (hj := f.isLt)
    dsimp only [State.mapAir]
    rw [hf]
    split
    · rename_i h
      subst h
      rfl
    · rfl
  · exact State.slipKeeps_refl now u

theorem State.probeSlip_slipKeeps (origin : ProbeOrigin) : u.slipKeeps now (u.probeSlip origin).1 := by
  unfold State.probeSlip
  split
  · rename_i hidle
    exact .of_calm now rfl rfl (.of_eq rfl) (.of_eq rfl)
      ⟨rfl, fun _ => rfl, fun hnot => absurd hidle hnot, fun _ => .inr rfl⟩ (.of_eq rfl) (Exchange.writes_refl _ _)
  · exact State.slipKeeps_refl now u

theorem State.commitSlip_slipKeeps : u.slipKeeps now (u.commitSlip now).1 := by
  unfold State.commitSlip
  split
  · exact State.slipKeeps_refl now u
  · rename_i hidle
    split
    · exact State.slipKeeps_refl now u
    · exact .of_calm now rfl rfl (.of_eq rfl) (.of_eq rfl) (.of_eq rfl) ⟨rfl, .inr ⟨not_not.mp hidle, rfl, rfl⟩⟩
        (Exchange.writes_refl _ _)

/-- A stop asked of a probe (R163). -/
theorem Air.slipKept.requestStop {a b : Air} (hrest : b = { a with fans := b.fans, probe := b.probe })
    (hfans : ∀ f : Fin 2, b.fans[f] = { a.fans[f] with floor := b.fans[f].floor }) (hprobe : b.probe = a.probe.requestStop) :
    a.slipKept b := by
  refine ⟨hrest, hfans, fun _ => ?_, fun hidle => .inl ?_⟩
  · rw [hprobe]
    unfold Probe.requestStop
    split <;> rfl
  · rw [hprobe]
    unfold Probe.requestStop
    rw [hidle]
    exact hidle

/-- Host restart clearing, as the air controller sees it (R64). -/
theorem State.clearAir_slipKept : u.air.slipKept u.clearAir.air := by
  refine .requestStop rfl (fun f => ?_) rfl
  have hf : u.clearAir.air.fans[f] = { u.air.fans[f] with floor := none } := tab_get _ f
  rw [hf]

theorem State.zoneTargetSlip_slipKeeps (zone action : Nat) (target : Int) :
    u.slipKeeps now (u.zoneTargetSlip zone action target).1 := by
  unfold State.zoneTargetSlip
  split
  · split
    · exact State.setOverride_slipKeeps now _ _
    · split
      · exact State.setOverride_slipKeeps now _ _
      · exact State.slipKeeps_refl now u
  · exact State.slipKeeps_refl now u

theorem State.stopSlip_slipKeeps (delay : Nat) : u.slipKeeps now (u.stopSlip now p delay).1 := by
  unfold State.stopSlip
  split
  · rename_i hrunning
    have hrail := State.enterStopping_rail now p (s := u) (min 86400 delay)
    have hclimate : (u.enterStopping now p (min 86400 delay)).climate = u.climate := by
      simp [State.enterStopping, State.setRail_climate, RailState.removesOverrides]
    have hmon := State.enterStopping_mon now p (s := u) (min 86400 delay)
    rw [Monitor.railChanged_eq] at hmon
    refine .of_running now hrunning ?_ ?_ ?_ (.of_eq hclimate) (.of_eq (by simp)) (.of_eq (by simp)) (by simp) (by rw [hmon])
      (State.enterStopping_writes_of now p _ u (by decide) fun _ => by decide) (State.enterStopping_shown now p _)
    · rw [hrail]
    · rw [hrail]
    · rw [hrail]
  · exact State.slipKeeps_refl now u

theorem State.watchdogSlip_slipKeeps (mode : Nat) (stages : StageSet) :
    u.slipKeeps now (u.watchdogSlip now p mode stages).1 := by
  unfold State.watchdogSlip
  split
  · exact State.slipKeeps_refl now u
  · split
    · exact State.slipKeeps_refl now u
    · have hframe := State.setArmed_frame now p (mode = 1) (u.mapMon fun m => { m with runtimeSet := clampStages stages })
      have hmon := State.setArmed_mon_eq now p (mode = 1) (u.mapMon fun m => { m with runtimeSet := clampStages stages })
      have hw := State.setArmed_writes now p (mode = 1) (u.mapMon fun m => { m with runtimeSet := clampStages stages })
      have hshown := State.setArmed_shown (u := u.mapMon fun m => { m with runtimeSet := clampStages stages }) now p (mode = 1)
      dsimp only
      generalize (u.mapMon fun m => { m with runtimeSet := clampStages stages }).setArmed now p (mode = 1) = w at *
      obtain ⟨_, _, hclimate, hair, hrail, hkeypad, _, hstore, _⟩ := hframe
      exact {
        inputs := by rw [hrail]; rfl
        pgood := by rw [hrail]; rfl
        hsleep := by rw [hrail]; rfl
        climate := .of_eq hclimate
        keypad := .of_eq hkeypad
        air := .of_eq hair
        store := .of_eq hstore
        ladder := by rw [hmon]; rfl
        above := hw.mono (by decide)
        watched := fun hwf _ => hshown hwf
        beside := fun _ => ⟨by rw [hrail]; rfl, by rw [hmon]; rfl, by rw [hmon]; rfl, hw.mono (by decide)⟩ }

theorem State.rebaselineSlip_slipKeeps (mask : BitVec 24) : u.slipKeeps now (u.rebaselineSlip now p mask).1 := by
  by_cases hbusy : u.keypad.rebaseline.isSome = true ∨ namedKeys p mask = []
  · rw [State.rebaselineSlip_answered now p mask hbusy]
    exact State.slipKeeps_refl now u
  · obtain ⟨hnone, hnamed⟩ := not_or.mp hbusy
    rw [State.rebaselineSlip_taken now p mask (by simpa using hnone) hnamed]
    obtain ⟨hrail, hclimate, hmon, hw, _⟩ := State.giveAll_release (s := u.mapKeypad (Keypad.rebaselined p mask)) now p
      (u.keypad.forcedEvents p mask) (u.keypad.forcedEvents_release p mask)
    obtain ⟨w, q, hqueued⟩ := State.give_foldl_queued now p (u.keypad.forcedEvents p mask)
      (u.mapKeypad (Keypad.rebaselined p mask))
    obtain ⟨_, _, hair, _, hstore, _⟩ := State.give_foldl_frame now p (u.keypad.forcedEvents p mask)
      (u.mapKeypad (Keypad.rebaselined p mask))
    dsimp only
    generalize (u.keypad.forcedEvents p mask).foldl (State.give now p) (u.mapKeypad (Keypad.rebaselined p mask)) = v at *
    refine .of_calm now (by rw [hrail]; rfl) hmon (.of_eq hclimate) ?_ (.of_eq hair) (.of_eq hstore) (hw.mono (by decide))
    rw [hqueued]
    exact ⟨rfl, rfl, rfl⟩

theorem State.enterResetting_slipKeeps (hrunning : u.rail.state = .running) : u.slipKeeps now (u.enterResetting now p) := by
  have hrail := State.enterResetting_rail (s := u) now p
  obtain ⟨f, _, heq⟩ := State.enterResetting_after (s := u) now p
  have hkeypad : (u.enterResetting now p).keypad = _ :=
    (congrArg State.keypad heq).trans (State.hostRestartClearing_keypad now p (u.setRail now .resetting))
  have hclimate : (u.enterResetting now p).climate = _ :=
    (congrArg State.climate heq).trans (State.hostRestartClearing_climate (s := u.setRail now .resetting) now p)
  have hset : (u.setRail now .resetting).keypad = u.keypad := by simp
  have hset' : (u.setRail now .resetting).climate = u.climate := by
    rw [State.setRail_climate]
    rfl
  have hair : (u.enterResetting now p).air = (u.setRail now .resetting).clearAir.air :=
    (congrArg State.air heq).trans (State.hostRestartClearing_air (s := u.setRail now .resetting) now p)
  have hsetair : (u.setRail now .resetting).air = u.air := by simp
  have hkept := State.clearAir_slipKept (u := u.setRail now .resetting)
  have hmon := State.enterResetting_mon now p hrunning
  rw [hset] at hkeypad
  rw [hset'] at hclimate
  rw [← hair, hsetair] at hkept
  refine .of_running now hrunning (by rw [hrail]) (by rw [hrail]) (by rw [hrail]) ?_ ?_ hkept (by simp) (by rw [hmon])
    (State.enterResetting_writes_of now p u (by decide) fun _ => by decide) (State.enterResetting_watched now p)
  · rw [hclimate]
    exact Climate.withoutOverrides_slipKept _
  · rw [hkeypad]
    exact ⟨rfl, rfl, rfl⟩

theorem State.cutWithNotice_slipKeeps (hrunning : u.rail.state = .running) (cause : RestartCause) (restart : Bool) :
    u.slipKeeps now (u.cutWithNotice now p cause restart) := by
  have hwarming : u.rail.state ≠ .warming := by rw [hrunning]; decide
  have hnotice : u.cutWithNotice now p cause restart =
      (u.addRecord now cause (if restart then .cold else .off) u.mon.ladderIndex u.rail.state).enterCooldown now restart
        (minimumOffSlots p) := rfl
  have hframe := State.addRecord_frame now cause (if restart then .cold else .off) u.mon.ladderIndex u.rail.state u
  have hwatched (hwf : u.xmem.wf = true) : (u.cutWithNotice now p cause restart).watchdogShown now := by
    obtain ⟨_, _, ⟨_, _, _, _, _, hshown⟩, _⟩ := State.cutWithNotice_noticed now p hwf hwarming cause restart
    exact hshown
  have habove := State.cutWithNotice_writes_of (rs := aboveCount) now p cause restart u (by decide) fun _ => by decide
  have hrecord := State.addRecord_mon now cause (if restart then .cold else .off) u.mon.ladderIndex u.rail.state u
  rw [hnotice] at hwatched habove ⊢
  generalize u.addRecord now cause (if restart then .cold else .off) u.mon.ladderIndex u.rail.state = w at *
  obtain ⟨_, _, hclimate, hair, hrail, hkeypad, _, hstore, _⟩ := hframe
  have hcut := State.enterCooldown_rail now restart (minimumOffSlots p) w
  have hgone := State.enterCooldown_climate now restart (minimumOffSlots p) w
  have hmon := State.enterCooldown_mon now restart (minimumOffSlots p) w
  rw [hclimate] at hgone
  rw [Monitor.railChanged_eq, hrecord] at hmon
  refine .of_running now hrunning ?_ ?_ ?_ ?_ (.of_eq (by simp [hkeypad])) (.of_eq (by simp [hair])) (by simp [hstore])
    (by rw [hmon]) habove hwatched
  · rw [hcut, hrail]
    rfl
  · rw [hcut, hrail]
    rfl
  · rw [hcut, hrail]
    rfl
  · rw [hgone]
    exact Climate.withoutOverrides_slipKept _

theorem State.addRecord_slipKeeps (hrunning : u.rail.state = .running) (cause : RestartCause) (action : RecordAction) (i : Nat)
    (before : RailState) (h : (u.addRecord now cause action i before).slipKeeps now t)
    (hwatched : u.xmem.wf = true → t.watchdogShown now) : u.slipKeeps now t := by
  obtain ⟨_, _, hclimate, hair, hrail, hkeypad, _, hstore, _⟩ := State.addRecord_frame now cause action i before u
  have hrecord := (State.addRecord_writes now cause action i before u).mono (rs := aboveCount) (by decide)
  have hmon := State.addRecord_mon now cause action i before u
  generalize u.addRecord now cause action i before = w at *
  exact {
    inputs := h.inputs.trans (by rw [hrail])
    pgood := h.pgood.trans (by rw [hrail])
    hsleep := h.hsleep.trans (by rw [hrail])
    climate := by rw [← hclimate]; exact h.climate
    keypad := by rw [← hkeypad]; exact h.keypad
    air := by rw [← hair]; exact h.air
    store := by rw [← hstore]; exact h.store
    ladder := h.ladder.trans (by rw [hmon])
    above := hrecord.trans h.above
    watched := fun hwf _ => hwatched hwf
    beside := fun hnot => absurd hrunning hnot }

theorem State.restartHost_slipKeeps (mode : Nat) : u.slipKeeps now (u.restartHost now p mode) := by
  unfold State.restartHost
  split
  · rename_i hrunning
    split
    · have hrail : (u.addRecord now .hostRequest .warm u.mon.ladderIndex .running).rail = u.rail := by simp
      exact State.addRecord_slipKeeps now hrunning .hostRequest .warm u.mon.ladderIndex .running
        (State.enterResetting_slipKeeps now p (by rw [hrail]; exact hrunning)) fun hwf =>
          State.enterResetting_watched now p ((State.addRecord_writes now _ _ _ _ u) hwf).wf
    · split
      · exact State.cutWithNotice_slipKeeps now p hrunning _ _
      · exact State.slipKeeps_refl now u
  · exact State.slipKeeps_refl now u

theorem State.runSlip_slipKeeps : u.slipKeeps now (u.runSlip now p n) := by
  unfold State.runSlip
  dsimp only
  split
  · exact State.immediate_slipKeeps now (State.zoneTargetSlip_slipKeeps now _ _ _)
  · exact State.immediate_slipKeeps now (State.fanFloorSlip_slipKeeps now _ _)
  · exact State.lasting_slipKeeps now _ (State.probeSlip_slipKeeps now _)
  · exact State.lasting_slipKeeps now _ (State.probeSlip_slipKeeps now _)
  · exact State.immediate_slipKeeps now (State.stopSlip_slipKeeps now p _)
  · have hcomplete := Exchange.complete_writes n.isLt (restartResult u.rail.state (u.xmem.param n 0)) u.xmem
    exact (State.slipKeeps.of_blocks now (u := u)
      (t := u.mapX (Exchange.complete n.val (restartResult u.rail.state (u.xmem.param n 0)))) rfl rfl rfl rfl rfl rfl
      (hcomplete.mono (by decide))).trans now (State.restartHost_slipKeeps now p _)
  · exact State.immediate_slipKeeps now (State.watchdogSlip_slipKeeps now p _ _)
  · exact State.lasting_slipKeeps now _ (State.rebaselineSlip_slipKeeps now p _)
  · exact State.immediate_slipKeeps now (.of_blocks now (by simp) (by simp) (by simp) (by simp) (by simp) (by simp)
      ((State.readProfileSlip_writes p u).mono (by decide)))
  · exact State.lasting_slipKeeps now _ (State.commitSlip_slipKeeps now)
  · exact State.immediate_slipKeeps now (.of_blocks now rfl rfl rfl rfl rfl rfl (Exchange.writes_refl _ _))

theorem State.arbitrate_slipKeeps : u.slipKeeps now (u.arbitrate now p) := by
  unfold State.arbitrate State.arbitrateAmong
  split
  · exact State.slipKeeps_refl now u
  · split
    · exact State.slipKeeps_refl now u
    · rename_i n _
      exact (State.slipKeeps.of_blocks now (u := u) (t := u.mapEngine fun e => { e with served := true, lastServed := n })
        rfl rfl rfl rfl rfl rfl (Exchange.writes_refl _ _)).trans now (State.runSlip_slipKeeps now p)

end keeps

end Sys2Proof.Machine
end

