-- ==== Sys2Proof/Proofs/SlotSamples.lean ====
section
/-!
SUPPORT. The samples of a slot start (R69, R89 to R91): what every reaction to a sample leaves, and the cabinet inputs sampled
one after another.
-/

namespace Sys2Proof.Machine

/-! ### What a reaction leaves -/

/-- Of the climate controller at most the overrides have gone (R21). -/
def Climate.keptOrFreed (c d : Climate) : Prop := d = c ∨ d = c.withoutOverrides

/-- A reaction to a sample leaves the samples, and of the climate controller at most the overrides go. -/
structure State.reacts (a b : State) : Prop where
  inputs : b.rail.inputs = a.rail.inputs
  pgood : b.rail.pgood = a.rail.pgood
  hsleep : b.rail.hsleep = a.rail.hsleep
  climate : a.climate.keptOrFreed b.climate

section reacts
variable {a b c : State} (now : SlotCount) (p : Image)

theorem Climate.withoutOverrides_twice (c : Climate) : c.withoutOverrides.withoutOverrides = c.withoutOverrides := by
  unfold Climate.withoutOverrides
  congr 1

theorem Climate.keptOrFreed.trans {c d e : Climate} (h : c.keptOrFreed d) (h' : d.keptOrFreed e) : c.keptOrFreed e := by
  obtain rfl | rfl := h
  · exact h'
  · obtain rfl | rfl := h'
    · exact .inr rfl
    · exact .inr (Climate.withoutOverrides_twice c)

theorem State.reacts_refl (a : State) : a.reacts a := ⟨rfl, rfl, rfl, .inl rfl⟩

theorem State.reacts.trans (h : a.reacts b) (h' : b.reacts c) : a.reacts c where
  inputs := h'.inputs.trans h.inputs
  pgood := h'.pgood.trans h.pgood
  hsleep := h'.hsleep.trans h.hsleep
  climate := h.climate.trans h'.climate

theorem State.reacts.of_blocks (hrail : b.rail = a.rail) (hclimate : b.climate = a.climate) : a.reacts b := by
  refine ⟨?_, ?_, ?_, .inl hclimate⟩ <;> rw [hrail]

theorem State.setRail_reacts (new : RailState) : a.reacts (a.setRail now new) := by
  refine ⟨?_, ?_, ?_, ?_⟩
  · rw [State.setRail_rail]
  · rw [State.setRail_rail]
  · rw [State.setRail_rail]
  · rw [State.setRail_climate]
    split
    · exact .inr rfl
    · exact .inl rfl

theorem State.enterWarming_reacts : a.reacts (a.enterWarming now p) := by
  obtain ⟨counts, isOpen, wait, hrail⟩ := State.enterWarming_rail now p a
  refine ⟨by rw [hrail], by rw [hrail], by rw [hrail], .inr (State.enterWarming_climate now p a)⟩

theorem State.enterCooldown_reacts (restart : Bool) (off : Nat) : a.reacts (a.enterCooldown now restart off) := by
  have hrail := State.enterCooldown_rail now restart off a
  exact ⟨by rw [hrail]; rfl, by rw [hrail]; rfl, by rw [hrail]; rfl, .inr (State.enterCooldown_climate now restart off a)⟩

theorem State.enterLockout_reacts : a.reacts (a.enterLockout now) := by
  have hrail := State.enterLockout_rail now a
  exact ⟨by rw [hrail]; rfl, by rw [hrail]; rfl, by rw [hrail]; rfl, .inr (State.enterLockout_climate now a)⟩

theorem State.cutWithNotice_reacts (cause : RestartCause) (restart : Bool) : a.reacts (a.cutWithNotice now p cause restart) :=
  (State.reacts.of_blocks (b := a.addRecord now cause (if restart then .cold else .off) a.mon.ladderIndex a.rail.state)
    (by simp) (by simp)).trans (State.enterCooldown_reacts now restart (minimumOffSlots p))

theorem State.failure_reacts (cause : RestartCause) : a.reacts (a.failure now p cause) := by
  have hrecorded : a.reacts (a.failureRecorded now p cause) := .of_blocks (by simp) (by simp)
  rw [State.failure_eq]
  split
  · exact hrecorded.trans (State.enterLockout_reacts now)
  · exact hrecorded.trans (State.enterCooldown_reacts now true _)

theorem State.startPulse_reacts : a.reacts (a.startPulse now p) := by
  refine ⟨?_, ?_, ?_, .inl (by simp)⟩
  · rw [State.startPulse_rail]
    split <;> rfl
  · rw [State.startPulse_rail]
    split <;> rfl
  · rw [State.startPulse_rail]
    split <;> rfl

theorem State.enterStopping_reacts (delay : Nat) : a.reacts (a.enterStopping now p delay) :=
  (State.setRail_reacts now .stopping).trans ⟨rfl, rfl, rfl, .inl rfl⟩

theorem State.inputRises_reacts (k : Fin 4) : a.reacts (a.inputRises now p k) := by
  unfold State.inputRises
  split
  · exact State.reacts_refl a
  · exact .of_blocks rfl rfl
  · exact State.reacts_refl a
  · split
    · exact State.enterWarming_reacts now p
    · exact ⟨rfl, rfl, rfl, .inl rfl⟩
    · exact State.reacts_refl a
  · split
    · exact ((State.enterStopping_reacts now p 0).trans (State.startPulse_reacts now p)).trans (.of_blocks rfl rfl)
    · exact State.reacts_refl a
  · unfold State.cutInput
    split
    · exact State.cutWithNotice_reacts now p _ _
    · split
      · exact State.reacts.trans (b := a.mapRail fun r => { r with startRequest := false }) ⟨rfl, rfl, rfl, .inl rfl⟩
          (State.setRail_reacts now .off)
      · exact ⟨rfl, rfl, rfl, .inl rfl⟩
      · exact State.reacts_refl a

theorem State.inputFalls_reacts (k : Fin 4) : a.reacts (a.inputFalls p k) := by
  unfold State.inputFalls
  split
  · exact .of_blocks rfl rfl
  · exact State.reacts_refl a

end reacts

/-! ### The inputs, one after another (R89) -/

/-- The part with the input records `v`. -/
def State.withInputs (v : Vector InputRec 4) (s : State) : State := s.mapRail fun r => { r with inputs := v }

/-- The records of the inputs once those of `l` have been sampled. -/
def sampledInputs (levels : BitVec 4) (l : List (Fin 4)) (v : Vector InputRec 4) : Vector InputRec 4 :=
  tab 4 fun k => if k ∈ l then v[k].sample (levels.getLsbD k.val) else v[k]

/-- An input is active (R89). -/
def InputRec.active (p : Image) (k : Fin 4) (i : InputRec) : Bool := i.taken == some (Profile.activeLevel p k)

section inputs
variable {s u : State} (now : SlotCount) (p : Image) (levels : BitVec 4) {v : Vector InputRec 4} {l : List (Fin 4)} {k : Fin 4}

theorem sampledInputs_get (j : Fin 4) :
    (sampledInputs levels l v)[j] = if j ∈ l then v[j].sample (levels.getLsbD j.val) else v[j] := tab_get _ j

theorem inputRecs_ext {v w : Vector InputRec 4} (h : ∀ j : Fin 4, v[j] = w[j]) : v = w :=
  Vector.ext fun i hi => h ⟨i, hi⟩

theorem sampledInputs_nil : sampledInputs levels [] v = v :=
  inputRecs_ext fun j => by rw [sampledInputs_get, if_neg List.not_mem_nil]

/-- One more input is sampled. -/
theorem sampledInputs_step (hk : k ∉ l) :
    (sampledInputs levels l v).set k ((sampledInputs levels l v)[k].sample (levels.getLsbD k.val)) =
      sampledInputs levels (l ++ [k]) v := by
  refine inputRecs_ext fun j => ?_
  have hset (w : Vector InputRec 4) (i : InputRec) : (w.set k i)[j] = if k.val = j.val then i else w[j] :=
    Vector.getElem_set (hi := k.isLt) (hj := j.isLt)
  rw [hset, sampledInputs_get, sampledInputs_get, sampledInputs_get, if_neg hk]
  by_cases hj : k.val = j.val
  · obtain rfl : k = j := Fin.ext hj
    simp
  · have hne : j ≠ k := fun h => hj (congrArg Fin.val h.symm)
    simp [hj, hne]

/-- What input `k` does once it is sampled (R90). -/
def State.inputActs (now : SlotCount) (p : Image) (k : Fin 4) (was : Bool) (u : State) : State :=
  if u.inputActive p k && !was then (u.publishInputs p).inputRises now p k
  else if was && !u.inputActive p k then (u.publishInputs p).inputFalls p k
  else u

theorem State.sampleInput_acts (s : State) (k : Fin 4) :
    s.sampleInput now p levels k =
      (s.withInputs (s.rail.inputs.set k (s.rail.inputs[k].sample (levels.getLsbD k.val)))).inputActs now p k
        (s.inputActive p k) := rfl

theorem State.inputActive_withInputs : (u.withInputs v).inputActive p k = v[k].active p k := rfl

theorem State.inputActive_eq : u.inputActive p k = u.rail.inputs[k].active p k := rfl

theorem State.withInputs_twice (w : Vector InputRec 4) : (u.withInputs v).withInputs w = u.withInputs w := rfl

theorem State.withInputs_same (h : u.rail.inputs = v) : u.withInputs v = u := by
  rw [← h]
  rfl

theorem State.inputActs_steady {was : Bool} (h : u.inputActive p k = was) : u.inputActs now p k was = u := by
  unfold State.inputActs
  rw [h]
  cases was <;> rfl

theorem State.inputActs_reacts (was : Bool) : u.reacts (u.inputActs now p k was) := by
  have hpublish : u.reacts (u.publishInputs p) := .of_blocks rfl rfl
  unfold State.inputActs
  split
  · exact hpublish.trans (State.inputRises_reacts now p k)
  · split
    · exact hpublish.trans (State.inputFalls_reacts p k)
    · exact State.reacts_refl u

/-- The sample of an input that none of those before it is. -/
theorem State.sampleInput_next {pre : List (Fin 4)} (hk : k ∉ pre) (hu : u.rail.inputs = sampledInputs levels pre v) :
    u.sampleInput now p levels k =
      (u.withInputs (sampledInputs levels (pre ++ [k]) v)).inputActs now p k (u.inputActive p k) := by
  rw [State.sampleInput_acts, hu, sampledInputs_step levels hk]

/-- The records after the samples of `l`, whatever the inputs do. -/
theorem State.sampleInputs_reacts (pre : List (Fin 4)) (hnodup : (pre ++ l).Nodup)
    (hu : u.rail.inputs = sampledInputs levels pre v) :
    (u.withInputs (sampledInputs levels (pre ++ l) v)).reacts (l.foldl (State.sampleInput now p levels) u) := by
  induction l generalizing pre u with
  | nil =>
    rw [List.append_nil, State.withInputs_same hu]
    exact State.reacts_refl u
  | cons k l ih =>
    have hassoc : pre ++ k :: l = (pre ++ [k]) ++ l := by simp
    have hk : k ∉ pre := fun hmem => (List.nodup_append.mp hnodup).2.2 k hmem k List.mem_cons_self rfl
    have hstep : (u.withInputs (sampledInputs levels (pre ++ [k]) v)).reacts (u.sampleInput now p levels k) := by
      rw [State.sampleInput_next now p levels hk hu]
      exact State.inputActs_reacts now p _
    have hrest := ih (pre ++ [k]) (by rwa [← hassoc]) hstep.inputs
    rw [List.foldl_cons, hassoc]
    exact ⟨hrest.inputs, hrest.pgood.trans hstep.pgood, hrest.hsleep.trans hstep.hsleep,
      Climate.keptOrFreed.trans hstep.climate hrest.climate⟩

/-- Samples that change no input: the records alone move. -/
theorem State.sampleInputs_of_steady (pre : List (Fin 4)) (hnodup : (pre ++ l).Nodup)
    (hu : u.rail.inputs = sampledInputs levels pre v)
    (hsteady : ∀ k ∈ l, (v[k].sample (levels.getLsbD k.val)).active p k = v[k].active p k) :
    l.foldl (State.sampleInput now p levels) u = u.withInputs (sampledInputs levels (pre ++ l) v) := by
  induction l generalizing pre u with
  | nil => rw [List.append_nil, State.withInputs_same hu, List.foldl_nil]
  | cons k l ih =>
    have hassoc : pre ++ k :: l = (pre ++ [k]) ++ l := by simp
    have hk : k ∉ pre := fun hmem => (List.nodup_append.mp hnodup).2.2 k hmem k List.mem_cons_self rfl
    have hkept : (u.withInputs (sampledInputs levels (pre ++ [k]) v)).inputActive p k = u.inputActive p k := by
      rw [State.inputActive_withInputs, State.inputActive_eq, hu, sampledInputs_get, sampledInputs_get, if_pos (by simp),
        if_neg hk]
      exact hsteady k List.mem_cons_self
    rw [List.foldl_cons, State.sampleInput_next now p levels hk hu, State.inputActs_steady now p hkept,
      ih (u := u.withInputs (sampledInputs levels (pre ++ [k]) v)) (pre ++ [k]) (by rwa [← hassoc]) rfl
        fun j hj => hsteady j (List.mem_cons_of_mem _ hj),
      State.withInputs_twice, hassoc]

/-- The samples of all four inputs, none of which changes. -/
theorem State.sampleInputs_steady
    (hsteady : ∀ j : Fin 4, (u.rail.inputs[j].sample (levels.getLsbD j.val)).active p j = u.inputActive p j) :
    u.sampleInputs now p levels = u.withInputs (sampledInputs levels (List.finRange 4) u.rail.inputs) :=
  State.sampleInputs_of_steady now p levels [] (List.nodup_finRange 4) (sampledInputs_nil levels).symm fun j _ => hsteady j

/-- The samples of all four inputs, of which `k` alone may change: the record of `k` is taken among records that are as active as
those after the slot. -/
theorem State.sampleInputs_single
    (hsteady : ∀ j : Fin 4, j ≠ k →
      (u.rail.inputs[j].sample (levels.getLsbD j.val)).active p j = u.inputActive p j) :
    ∃ w : Vector InputRec 4,
      (∀ j : Fin 4, w[j].active p j = (sampledInputs levels (List.finRange 4) u.rail.inputs)[j].active p j) ∧
        u.sampleInputs now p levels =
          ((u.withInputs w).inputActs now p k (u.inputActive p k)).withInputs
            (sampledInputs levels (List.finRange 4) u.rail.inputs) := by
  obtain ⟨pre, post, hall⟩ := List.append_of_mem (List.mem_finRange k)
  have hassoc : pre ++ k :: post = (pre ++ [k]) ++ post := by simp
  have hnodup : (pre ++ k :: post).Nodup := hall ▸ List.nodup_finRange 4
  have hpre : k ∉ pre := fun hmem => (List.nodup_append.mp hnodup).2.2 k hmem k List.mem_cons_self rfl
  have hpost : k ∉ post := (List.nodup_cons.mp (List.nodup_append.mp hnodup).2.1).1
  have hothers (l : List (Fin 4)) (hk : k ∉ l) (j : Fin 4) (hj : j ∈ l) :
      (u.rail.inputs[j].sample (levels.getLsbD j.val)).active p j = u.rail.inputs[j].active p j :=
    hsteady j fun h => hk (h ▸ hj)
  refine ⟨sampledInputs levels (pre ++ [k]) u.rail.inputs, fun j => ?_, ?_⟩
  · rw [sampledInputs_get, sampledInputs_get, if_pos (List.mem_finRange j)]
    split
    · rfl
    · rename_i hj
      exact (hsteady j fun h => hj (by simp [h])).symm
  · have hbefore := State.sampleInputs_of_steady (l := pre) now p levels [] (List.nodup_append.mp hnodup).1
      (sampledInputs_nil levels (v := u.rail.inputs)).symm (hothers pre hpre)
    have hreacts := State.inputActs_reacts (u := u.withInputs (sampledInputs levels (pre ++ [k]) u.rail.inputs)) now p (k := k)
      (u.inputActive p k)
    have hafter := State.sampleInputs_of_steady (v := u.rail.inputs) (l := post) now p levels (pre ++ [k]) (by rwa [← hassoc])
      hreacts.inputs (hothers post hpost)
    have hnext := State.sampleInput_next (u := u.withInputs (sampledInputs levels pre u.rail.inputs)) now p levels hpre rfl
    have hwas : (u.withInputs (sampledInputs levels pre u.rail.inputs)).inputActive p k = u.inputActive p k := by
      rw [State.inputActive_withInputs, sampledInputs_get, if_neg hpre]
      rfl
    rw [State.withInputs_twice, hwas] at hnext
    unfold State.sampleInputs
    rw [hall, List.foldl_append, List.foldl_cons, hbefore, List.nil_append, hnext, hafter, ← hassoc]

end inputs

end Sys2Proof.Machine
end

