-- ==== Sys2Proof/Proofs/SlotStages.lean ====
section
/-!
SUPPORT. The stages of a slot start (R15): the count and the outputs, the samples, the judgement of the gate, and what the stages
after them leave.
-/

namespace Sys2Proof.Machine

section stages
variable (n : SlotCount) (p : Image) (pgood hsleep : Bool) (levels : BitVec 4) (s : State)

/-- The slot is counted and the outputs follow its number (R15, R33). -/
def State.slotCounted : State := (s.countSlot n).startOutputs (n.toNat % 64)

/-- The power inputs have been sampled (R69). -/
def State.slotPowered : State := (s.slotCounted n).samplePower n p pgood hsleep

/-- The cabinet inputs have been sampled (R89). -/
def State.slotSampled : State := (s.slotPowered n p pgood hsleep).sampleInputs n p levels

/-- The gate has been judged (R71). -/
def State.slotJudged : State := (s.slotSampled n p pgood hsleep levels).judgeAtSlot n p

/-- The state in which the engine chooses a slip (R167). -/
def State.slotOffered : State := ((s.slotWorked n p pgood hsleep levels).slotDecided n p).clearServed

theorem State.slotWork_offered :
    s.slotWork n p pgood hsleep levels = (s.slotOffered n p pgood hsleep levels).arbitrate n p := rfl

theorem State.slotWorked_judged :
    s.slotWorked n p pgood hsleep levels = (s.slotJudged n p pgood hsleep levels).publishWatchdog n := rfl

/-! ### The count and the outputs -/

theorem State.slotCounted_frame :
    (s.slotCounted n).air = s.air ∧ (s.slotCounted n).rail = s.rail ∧ (s.slotCounted n).mon = s.mon ∧
      (s.slotCounted n).keypad = s.keypad ∧ (s.slotCounted n).engine = s.engine ∧ (s.slotCounted n).store = s.store ∧
      (s.slotCounted n).supplyLow = s.supplyLow ∧ (s.slotCounted n).fresh = s.fresh ∧
      (s.slotCounted n).pending = s.pending := by
  simp [State.slotCounted]

theorem State.slotCounted_time : (s.slotCounted n).time.slotCount = n ∧ (s.slotCounted n).time.started = true := by
  simp [State.slotCounted, State.countSlot]

theorem State.slotCounted_sense :
    (s.slotCounted n).sense =
      { s.sense with
        windowSum := if n.toNat % 64 = 0 then 0 else s.sense.windowSum
        converted := false, railConverted := false } := by
  unfold State.slotCounted State.startOutputs
  split <;> simp [State.beginConversions, *]

theorem State.slotCounted_climate :
    (s.slotCounted n).climate =
      { s.climate with
        heaters :=
          if n.toNat % 64 = 0 then s.climate.heaters
          else tab 3 fun z => n.toNat % 64 < s.climate.zones[z].grant } := by
  unfold State.slotCounted State.startOutputs
  split <;> simp [State.beginConversions, State.driveHeaters, *]

theorem State.slotCounted_xmem : (s.slotCounted n).xmem = s.xmem.partWrite 0x08 (le32 n.toNat) := by
  simp [State.slotCounted, State.countSlot]

/-! ### The samples -/

/-- The part with the power inputs sampled, before the rail acts on them. -/
def State.powerSampled (pgood hsleep : Bool) (s : State) : State :=
  s.mapRail fun r => { r with pgood := pgood, hsleep := hsleep }

theorem State.powerSampled_rail {c : State} (h : c.rail = s.rail) :
    (c.powerSampled pgood hsleep).rail = { s.rail with pgood := pgood, hsleep := hsleep } := by
  rw [← h]
  rfl

theorem State.samplePower_reacts : (s.powerSampled pgood hsleep).reacts (s.samplePower n p pgood hsleep) := by
  unfold State.samplePower
  dsimp only
  rw [← State.powerSampled]
  generalize s.powerSampled pgood hsleep = u
  split
  · split
    · split
      · exact State.reacts_refl u
      · exact ⟨rfl, rfl, rfl, .inl rfl⟩
    · split
      · split
        · exact ⟨rfl, rfl, rfl, .inl rfl⟩
        · exact State.failure_reacts n p _
      · exact State.reacts_refl u
  · split
    · exact State.failure_reacts n p _
    · split
      · exact .of_blocks (by simp) (by simp)
      · exact State.reacts_refl u
  · split
    · exact State.failure_reacts n p _
    · exact State.reacts_refl u
  · split
    · exact State.reacts.trans (b := u.mapRail _) ⟨rfl, rfl, rfl, .inl rfl⟩ (State.enterCooldown_reacts n _ _)
    · exact ⟨rfl, rfl, rfl, .inl rfl⟩
  all_goals exact State.reacts_refl u

/-- The sample of the power inputs, and what the reaction to it leaves. -/
theorem State.samplePower_samples :
    let v := s.samplePower n p pgood hsleep
    v.rail.inputs = s.rail.inputs ∧ v.rail.pgood = pgood ∧ v.rail.hsleep = hsleep ∧ s.climate.keptOrFreed v.climate :=
  have h := State.samplePower_reacts n p pgood hsleep s
  ⟨h.inputs, h.pgood, h.hsleep, h.climate⟩

/-- The samples of the cabinet inputs, and what the reactions to them leave. -/
theorem State.sampleInputs_samples :
    let v := s.sampleInputs n p levels
    v.rail.inputs = sampledInputs levels (List.finRange 4) s.rail.inputs ∧ v.rail.pgood = s.rail.pgood ∧
      v.rail.hsleep = s.rail.hsleep ∧ s.climate.keptOrFreed v.climate :=
  have h := State.sampleInputs_reacts (u := s) (v := s.rail.inputs) (l := List.finRange 4) n p levels []
    (List.nodup_finRange 4) (sampledInputs_nil levels).symm
  ⟨h.inputs, h.pgood, h.hsleep, h.climate⟩

theorem State.slotPowered_inputs : (s.slotPowered n p pgood hsleep).rail.inputs = s.rail.inputs := by
  obtain ⟨hinputs, _⟩ := State.samplePower_samples n p pgood hsleep (s.slotCounted n)
  rw [State.slotPowered, hinputs, (State.slotCounted_frame n s).2.1]

/-- The samples of the slot, and what the reactions to them leave of the climate controller. -/
theorem State.slotSampled_samples :
    let v := s.slotSampled n p pgood hsleep levels
    v.rail.inputs = sampledInputs levels (List.finRange 4) s.rail.inputs ∧ v.rail.pgood = pgood ∧ v.rail.hsleep = hsleep ∧
      (s.slotCounted n).climate.keptOrFreed v.climate := by
  have hcounted := State.slotPowered_inputs n p pgood hsleep s
  obtain ⟨_, hpgood, hhsleep, hclimate⟩ := State.samplePower_samples n p pgood hsleep (s.slotCounted n)
  rw [← State.slotPowered] at hpgood hhsleep hclimate
  generalize hu : s.slotPowered n p pgood hsleep = u at *
  obtain ⟨hinputs, hpgood', hhsleep', hclimate'⟩ := State.sampleInputs_samples n p levels u
  dsimp only
  rw [State.slotSampled, hu]
  exact ⟨by rw [hinputs, hcounted], hpgood'.trans hpgood, hhsleep'.trans hhsleep, hclimate.trans hclimate'⟩

theorem State.slotSampled_frame :
    let v := s.slotSampled n p pgood hsleep levels
    v.time = (s.slotCounted n).time ∧ v.sense = (s.slotCounted n).sense ∧ v.air = s.air ∧ v.keypad = s.keypad ∧
      v.engine = s.engine ∧ v.store = s.store ∧ v.supplyLow = s.supplyLow ∧ v.fresh = s.fresh ∧ v.pending = s.pending := by
  simp [State.slotSampled, State.slotPowered, State.slotCounted_frame]

/-! ### The judgement -/

/-- Outside WARMING nothing is judged. -/
theorem State.judgeAtSlot_of_not (h : s.rail.state ≠ .warming) : s.judgeAtSlot n p = s := by
  unfold State.judgeAtSlot
  rw [if_neg h]

/-- In WARMING a slot start but the entry's own judges once more (R71). -/
theorem State.judgeAtSlot_judges (h : s.rail.state = .warming) (hentry : s.rail.judgedAt ≠ some n) :
    s.judgeAtSlot n p =
      (s.mapRail fun r => { r with judgedAt := none }).judgeGate p (min 460800 (s.rail.warmingAge + 1)) := by
  unfold State.judgeAtSlot
  rw [if_pos h]
  exact if_neg hentry

/-- The slot start of the entry has judged already. -/
theorem State.judgeAtSlot_entered (h : s.rail.state = .warming) (hentry : s.rail.judgedAt = some n) :
    s.judgeAtSlot n p = s.mapRail fun r => { r with judgedAt := none } := by
  unfold State.judgeAtSlot
  rw [if_pos h]
  exact if_pos hentry

/-- A judgement moves the fields of the gate alone. -/
theorem State.judgeAtSlot_rail :
    ∃ counts isOpen refused wait age judged,
      (s.judgeAtSlot n p).rail =
        { s.rail with
          warmingAge := age, warmCount := counts, startRequest := isOpen, budgetRefused := refused, waitReason := wait
          judgedAt := judged } := by
  by_cases hw : s.rail.state = .warming
  · by_cases hentry : s.rail.judgedAt = some n
    · rw [State.judgeAtSlot_entered n p s hw hentry]
      exact ⟨_, _, _, _, _, _, rfl⟩
    · rw [State.judgeAtSlot_judges n p s hw hentry]
      exact ⟨_, _, _, _, _, _, rfl⟩
  · rw [State.judgeAtSlot_of_not n p s hw]
    exact ⟨_, _, _, _, _, _, rfl⟩

/-! ### The stages after the judgement -/

theorem State.slotOffered_frame :
    let u := s.slotOffered n p pgood hsleep levels
    let v := s.slotJudged n p pgood hsleep levels
    u.time = v.time ∧ u.sense = v.sense ∧ u.climate = v.climate ∧ u.air = v.air ∧ u.rail = v.rail ∧ u.mon = v.mon ∧
      u.store = v.store ∧ u.supplyLow = v.supplyLow ∧ u.fresh = v.fresh ∧ u.pending = v.pending ∧
      u.xmem = (v.publishWatchdog n).xmem := by
  dsimp only
  unfold State.slotOffered State.slotDecided
  rw [State.slotWorked_judged]
  generalize s.slotJudged n p pgood hsleep levels = v
  split <;> simp

theorem State.slotJudged_frame :
    let v := s.slotJudged n p pgood hsleep levels
    let w := s.slotSampled n p pgood hsleep levels
    v.time = (s.slotCounted n).time ∧ v.sense = (s.slotCounted n).sense ∧ v.climate = w.climate ∧ v.air = s.air ∧
      v.mon = w.mon ∧ v.keypad = s.keypad ∧ v.engine = s.engine ∧ v.store = s.store ∧ v.supplyLow = s.supplyLow ∧
      v.fresh = s.fresh ∧ v.pending = s.pending := by
  dsimp only
  obtain ⟨htime, hsense, hair, hkeypad, hengine, hstore, hsupply, hfresh, hpending⟩ :=
    State.slotSampled_frame n p pgood hsleep levels s
  unfold State.slotJudged
  generalize s.slotSampled n p pgood hsleep levels = w at *
  simp [htime, hsense, hair, hkeypad, hengine, hstore, hsupply, hfresh, hpending]

theorem State.slotOffered_engine : (s.slotOffered n p pgood hsleep levels).engine = { s.engine with served := false } :=
  congrArg (fun e : Engine => { e with served := false }) (State.slotWorked_engine n p pgood hsleep levels)

/-- The judgement leaves the samples. -/
theorem State.judgeAtSlot_samples :
    (s.judgeAtSlot n p).rail.inputs = s.rail.inputs ∧ (s.judgeAtSlot n p).rail.pgood = s.rail.pgood ∧
      (s.judgeAtSlot n p).rail.hsleep = s.rail.hsleep ∧ (s.judgeAtSlot n p).rail.state = s.rail.state := by
  obtain ⟨counts, isOpen, refused, wait, age, judged, hrail⟩ := State.judgeAtSlot_rail n p s
  rw [hrail]
  exact ⟨rfl, rfl, rfl, rfl⟩

theorem State.slotJudged_samples :
    let v := s.slotJudged n p pgood hsleep levels
    v.rail.inputs = sampledInputs levels (List.finRange 4) s.rail.inputs ∧ v.rail.pgood = pgood ∧ v.rail.hsleep = hsleep := by
  obtain ⟨hinputs, hpgood, hhsleep, _⟩ := State.slotSampled_samples n p pgood hsleep levels s
  obtain ⟨hinputs', hpgood', hhsleep', _⟩ := State.judgeAtSlot_samples n p (s.slotSampled n p pgood hsleep levels)
  rw [← State.slotJudged] at hinputs' hpgood' hhsleep'
  exact ⟨hinputs'.trans hinputs, hpgood'.trans hpgood, hhsleep'.trans hhsleep⟩

end stages

/-! ### The work of a slot start -/

section work
variable {s : State} {n : SlotCount} {p : Image} {pgood hsleep : Bool} {levels : BitVec 4}

theorem State.slotOffered_writes (s : State) (n : SlotCount) (p : Image) (pgood hsleep : Bool) (levels : BitVec 4) :
    s.xmem.writes slotBytes (s.slotOffered n p pgood hsleep levels).xmem := by
  have h := State.slotWorked_writes n p pgood hsleep levels s
  rwa [← State.slotDecided_xmem n p (s.slotWorked n p pgood hsleep levels)] at h

/-- No slot is POSTED by the slot start's own work. -/
theorem State.slotOffered_nonePosted (hwf : s.xmem.wf = true) (hnone : s.nonePosted) :
    (s.slotOffered n p pgood hsleep levels).nonePosted := fun k =>
  ((((State.slotOffered_writes s n p pgood hsleep levels).mono (by decide)).sameSlots hwf).owner k .posted).trans (hnone k)

/-- The work of a slot start that takes no slip. -/
theorem State.slotWork_untaken (hwf : s.xmem.wf = true) (hnone : s.nonePosted) :
    s.slotWork n p pgood hsleep levels = s.slotOffered n p pgood hsleep levels :=
  State.arbitrate_of_nonePosted n p (State.slotOffered_nonePosted hwf hnone)

/-- What the choice of a slip leaves of the slot start's own work. -/
theorem State.slotWork_slipKeeps (s : State) (n : SlotCount) (p : Image) (pgood hsleep : Bool) (levels : BitVec 4) :
    (s.slotOffered n p pgood hsleep levels).slipKeeps n (s.slotWork n p pgood hsleep levels) :=
  State.arbitrate_slipKeeps n p

/-- The samples stand at the end of the slot start. -/
theorem State.slotWork_samples :
    let t := s.slotWork n p pgood hsleep levels
    t.rail.inputs = sampledInputs levels (List.finRange 4) s.rail.inputs ∧ t.rail.pgood = pgood ∧ t.rail.hsleep = hsleep := by
  have hkeeps := State.slotWork_slipKeeps s n p pgood hsleep levels
  obtain ⟨hinputs, hpgood, hhsleep⟩ := State.slotJudged_samples n p pgood hsleep levels s
  have hrail : (s.slotOffered n p pgood hsleep levels).rail = _ := (State.slotOffered_frame n p pgood hsleep levels s).2.2.2.2.1
  exact ⟨(hkeeps.inputs.trans (congrArg Rail.inputs hrail)).trans hinputs,
    (hkeeps.pgood.trans (congrArg Rail.pgood hrail)).trans hpgood,
    (hkeeps.hsleep.trans (congrArg Rail.hsleep hrail)).trans hhsleep⟩

/-- An input is active after the slot start exactly if its sample leaves it active. -/
theorem State.slotWork_active (k : Fin 4) :
    (s.slotWork n p pgood hsleep levels).inputActive p k =
      (s.rail.inputs[k].sample (levels.getLsbD k.val)).active p k := by
  have hinputs := (State.slotWork_samples (s := s) (n := n) (p := p) (pgood := pgood) (hsleep := hsleep) (levels := levels)).1
  rw [State.inputActive_eq, hinputs, sampledInputs_get, if_pos (List.mem_finRange k)]

/-- With no input changed, the samples move the records alone. -/
theorem State.slotSampled_steady (hsteady : s.inputsSteady p (s.slotWork n p pgood hsleep levels)) :
    s.slotSampled n p pgood hsleep levels =
      (s.slotPowered n p pgood hsleep).withInputs (sampledInputs levels (List.finRange 4) s.rail.inputs) := by
  have hinputs := State.slotPowered_inputs n p pgood hsleep s
  have hkept (j : Fin 4) : ((s.slotPowered n p pgood hsleep).rail.inputs[j].sample (levels.getLsbD j.val)).active p j =
      (s.slotPowered n p pgood hsleep).inputActive p j := by
    rw [State.inputActive_eq, hinputs, ← State.slotWork_active (n := n) (pgood := pgood) (hsleep := hsleep)]
    exact hsteady j
  unfold State.slotSampled
  rw [State.sampleInputs_steady n p levels hkept, hinputs]

/-- With input `k` alone changed, its reaction comes among records that are as active as those at the end. -/
theorem State.slotSampled_single {k : Fin 4}
    (hsteady : ∀ j : Fin 4, j ≠ k → (s.slotWork n p pgood hsleep levels).inputActive p j = s.inputActive p j) :
    ∃ w : Vector InputRec 4,
      (∀ j : Fin 4, w[j].active p j = (s.slotWork n p pgood hsleep levels).inputActive p j) ∧
        s.slotSampled n p pgood hsleep levels =
          (((s.slotPowered n p pgood hsleep).withInputs w).inputActs n p k (s.inputActive p k)).withInputs
            (sampledInputs levels (List.finRange 4) s.rail.inputs) := by
  have hinputs := State.slotPowered_inputs n p pgood hsleep s
  have hactive (j : Fin 4) : (s.slotPowered n p pgood hsleep).inputActive p j = s.inputActive p j := by
    rw [State.inputActive_eq, hinputs]
    rfl
  have hkept (j : Fin 4) (hj : j ≠ k) :
      ((s.slotPowered n p pgood hsleep).rail.inputs[j].sample (levels.getLsbD j.val)).active p j =
      (s.slotPowered n p pgood hsleep).inputActive p j := by
    rw [hactive, hinputs, ← State.slotWork_active (n := n) (pgood := pgood) (hsleep := hsleep)]
    exact hsteady j hj
  obtain ⟨w, hw, hsampled⟩ := State.sampleInputs_single n p levels hkept
  rw [hinputs, hactive] at hsampled
  refine ⟨w, fun j => ?_, hsampled⟩
  rw [hw, hinputs, sampledInputs_get, if_pos (List.mem_finRange j), State.slotWork_active]

/-- A rail that the judgement leaves outside RUNNING keeps it through a slip, but for the override time. -/
theorem State.slotWork_beside (h : (s.slotJudged n p pgood hsleep levels).rail.state ≠ .running) :
    let t := s.slotWork n p pgood hsleep levels
    let v := s.slotJudged n p pgood hsleep levels
    t.rail = { v.rail with override := t.rail.override } ∧ t.mon.ladderIndex = v.mon.ladderIndex ∧
      t.mon.records = v.mon.records ∧ v.xmem.writes (watchdogBytes ++ besideBytes) t.xmem := by
  obtain ⟨_, _, _, _, hrail, hmon, _, _, _, _, hxmem⟩ := State.slotOffered_frame n p pgood hsleep levels s
  have hpublish := State.publishWatchdog_writes n (s.slotJudged n p pgood hsleep levels)
  have hbeside := (State.slotWork_slipKeeps s n p pgood hsleep levels).beside (by rw [hrail]; exact h)
  rw [hrail, hmon, hxmem] at hbeside
  obtain ⟨hrail', hladder, hrecords, hwrites⟩ := hbeside
  exact ⟨hrail', hladder, hrecords, hpublish.andThen hwrites (by decide) (by decide)⟩

end work

end Sys2Proof.Machine
end

