-- ==== Sys2Proof/Proofs/StopEnds.lean ====
section
/-!
The statement on the three ends of an orderly stop (R85): the sleep hold, PGOOD released, and the stop limit.
-/

namespace Sys2Proof.Machine

section untaken
variable {s : State} {n : SlotCount} {p : Image} {pgood hsleep : Bool} {levels : BitVec 4}

/-- A slot start that takes no slip leaves what the judgement left, and shows the watchdog. -/
theorem State.slotWork_of_nonePosted (hwf : s.xmem.wf = true) (hnone : s.nonePosted) :
    let t := s.slotWork n p pgood hsleep levels
    let v := s.slotJudged n p pgood hsleep levels
    t.time = v.time ∧ t.sense = v.sense ∧ t.climate = v.climate ∧ t.air = v.air ∧ t.rail = v.rail ∧ t.mon = v.mon ∧
      t.store = v.store ∧ t.supplyLow = v.supplyLow ∧ t.fresh = v.fresh ∧ t.pending = v.pending ∧
      t.engine = { s.engine with served := false } ∧ t.xmem = (v.publishWatchdog n).xmem := by
  have huntaken := State.slotWork_untaken (n := n) (p := p) (pgood := pgood) (hsleep := hsleep) (levels := levels) hwf hnone
  obtain ⟨htime, hsense, hclimate, hair, hrail, hmon, hstore, hsupply, hfresh, hpending, hxmem⟩ :=
    State.slotOffered_frame n p pgood hsleep levels s
  have hengine := State.slotOffered_engine n p pgood hsleep levels s
  dsimp only
  rw [huntaken]
  exact ⟨htime, hsense, hclimate, hair, hrail, hmon, hstore, hsupply, hfresh, hpending, hengine, hxmem⟩

/-- The same where no input changes and the gate is not judged: the power inputs alone have acted. -/
theorem State.slotWork_of_steady (hwf : s.xmem.wf = true) (hnone : s.nonePosted)
    (hsteady : s.inputsSteady p (s.slotWork n p pgood hsleep levels))
    (hstate : (s.slotPowered n p pgood hsleep).rail.state ≠ .warming) :
    let t := s.slotWork n p pgood hsleep levels
    let v := s.slotPowered n p pgood hsleep
    t.rail = { v.rail with inputs := t.rail.inputs } ∧ t.mon = v.mon ∧ t.climate = v.climate ∧
      t.xmem = (v.publishWatchdog n).xmem := by
  have hsampled := State.slotSampled_steady hsteady
  obtain ⟨_, _, hclimate, _, hrail, hmon, _, _, _, _, _, hxmem⟩ :=
    State.slotWork_of_nonePosted (n := n) (p := p) (pgood := pgood) (hsleep := hsleep) (levels := levels) hwf hnone
  generalize s.slotWork n p pgood hsleep levels = t at *
  have hjudged : s.slotJudged n p pgood hsleep levels = (s.slotPowered n p pgood hsleep).withInputs
      (sampledInputs levels (List.finRange 4) s.rail.inputs) := by
    rw [State.slotJudged, hsampled]
    exact State.judgeAtSlot_of_not n p _ hstate
  rw [hjudged] at hclimate hrail hmon hxmem
  generalize s.slotPowered n p pgood hsleep = v at *
  generalize sampledInputs levels (List.finRange 4) s.rail.inputs = w at *
  dsimp only
  exact ⟨by rw [hrail]; rfl, hmon, hclimate, hxmem⟩

theorem State.slotPowered_writes (s : State) (n : SlotCount) (p : Image) (pgood hsleep : Bool) :
    s.xmem.writes ((0x08, 4) :: railBytes) (s.slotPowered n p pgood hsleep).xmem := by
  have hcount : s.xmem.writes [(0x08, 4)] (s.slotCounted n).xmem := by
    rw [State.slotCounted_xmem]
    exact Exchange.writes_partWrite (by simp [rangeWithin, le32]) _
  exact hcount.andThen (State.samplePower_writes n p pgood hsleep (s.slotCounted n)) (by decide) (by decide)

end untaken

section stopping
variable {s : State} (n : SlotCount) (p : Image) (hsleep : Bool)

/-- The part with the power inputs of a sample in STOPPING (R69, R85). -/
def State.stopSampled (p : Image) (pgood hsleep : Bool) (s : State) : State :=
  s.mapRail fun r =>
    { r with
      pgood := pgood, hsleep := hsleep
      sleepCount := if hsleep then min (seconds (Profile.sleepHold p)) (r.sleepCount + 1) else 0 }

theorem State.stopSampled_rail {c : State} (pgood : Bool) (h : c.rail = s.rail) :
    (c.stopSampled p pgood hsleep).rail =
      { s.rail with
        pgood := pgood, hsleep := hsleep
        sleepCount := if hsleep then min (seconds (Profile.sleepHold p)) (s.rail.sleepCount + 1) else 0 } := by
  rw [← h]
  rfl

theorem State.samplePower_stopping (pgood : Bool) (h : s.rail.state = .stopping) :
    s.samplePower n p pgood hsleep =
      if pgood then s.stopSampled p pgood hsleep else (s.stopSampled p pgood hsleep).completeStop n p := by
  have hstate : (s.mapRail fun r => { r with pgood := pgood, hsleep := hsleep }).rail.state = .stopping := h
  unfold State.samplePower
  dsimp only
  rw [hstate]
  cases pgood <;> rfl

/-- The completion of a stop, with what the monitor keeps and the bytes it writes. -/
theorem State.completeStop_completes (hwf : s.xmem.wf = true) (h : s.rail.state = .stopping) :
    s.railWentOff
        (some (decide (0 < s.rail.stopRestart), max (Profile.minimumOff p * 64) (s.rail.stopRestart * 64))) n
        (s.completeStop n p) ∧
      (s.completeStop n p).mon.records = s.mon.records ∧ (s.completeStop n p).mon.ladderIndex = s.mon.ladderIndex ∧
      (s.completeStop n p).mon.lastRefusal = s.mon.lastRefusal ∧
      s.xmem.writes [(0x19, 2), (0x0AD, 1), (0x0B0, 2)] (s.completeStop n p).xmem ∧
      s.xmem.raised 0 (s.completeStop n p).xmem ∧
      s.completeStop n p =
        { s with
          rail := (s.completeStop n p).rail, mon := (s.completeStop n p).mon, climate := (s.completeStop n p).climate
          xmem := (s.completeStop n p).xmem } := by
  have hw : s.rail.state ≠ .warming := by rw [h]; decide
  have hmon : (s.completeStop n p).mon = s.mon.railChanged s.rail.state .cooldown := State.enterCooldown_mon n _ _ s
  rw [Monitor.railChanged_eq] at hmon
  refine ⟨State.enterCooldown_wentOff hwf hw _ _, by rw [hmon], by rw [hmon], by rw [hmon],
    State.enterCooldown_writes_of n _ _ s (by decide) fun hwarm => absurd hwarm hw, ?_, ?_⟩
  · simp [State.completeStop, Exchange.raised]
  · unfold State.completeStop
    apply State.ext_blocks <;> simp

/-- The rail goes off from a state that differs in the fields that the cut resets, in the samples, and in the heaters. -/
theorem State.railWentOff.resampled {u t v : State} {target : Option (Bool × Nat)} (h : u.railWentOff target n v)
    {count : Nat} {pgood : Bool} {inputs : Vector InputRec 4}
    (hrail : u.rail = { s.rail with pgood := pgood, hsleep := hsleep, sleepCount := count })
    (hzones : u.climate = { s.climate with heaters := t.climate.heaters }) (hmon : u.mon = s.mon)
    (hrail' : t.rail = { v.rail with inputs := inputs }) (hclimate' : t.climate = v.climate) (hmon' : t.mon = v.mon)
    (hx : t.xmem = (v.publishWatchdog n).xmem) (hwf : v.xmem.wf = true) :
    State.railWentOff target n
      { s with
        rail := { s.rail with pgood := pgood, hsleep := hsleep, inputs := t.rail.inputs }
        climate := { s.climate with heaters := t.climate.heaters } } t := by
  obtain ⟨hr, hc, hm, hstate, hrestart, hwatched⟩ := h
  have hkept := (State.publishWatchdog_writes n v hwf).kept
  have hshown := State.publishWatchdog_shown n hwf
  have hpub := State.publishWatchdog_frame n v
  rw [← hx] at hkept
  refine ⟨?_, ?_, ?_, ?_, ?_, ?_⟩
  · rw [hrail', hr, hrail]
  · rw [hclimate', hc, hzones, hclimate']
  · rw [hmon', hm, hmon, hrail]
  · rw [hkept _ (by decide) (by decide), hstate, hrail']
  · rw [hkept _ (by decide) (by decide), hrestart, hrail']
  · unfold State.watchdogShown at hshown ⊢
    rwa [hmon', hx, ← hpub.2.2.2.2.2.1]

end stopping

end Sys2Proof.Machine

namespace Sys2Proof.Proofs

open Sys2Proof.Machine

theorem exec_slotStart {s : State} {p : Image} (hp : s.store.active = some p) (pgood hsleep : Bool) (levels : BitVec 4) :
    exec (.slotStart pgood hsleep levels) s = .next (s.slotWork s.upcoming p pgood hsleep levels) := by
  show execSlotStart pgood hsleep levels s = _
  rw [execSlotStart, hp]

/-- PGOOD released in STOPPING completes the stop at the slot start. -/
theorem slotStart_completesStop {s : State} {p : Image} {hsleep : Bool} {levels : BitVec 4} (n : SlotCount)
    (hwf : s.xmem.wf = true) (hstopping : s.rail.state = .stopping) (hnone : s.nonePosted)
    (hsteady : s.inputsSteady p (s.slotWork n p false hsleep levels)) :
    let t := s.slotWork n p false hsleep levels
    State.railWentOff
        (some (decide (0 < s.rail.stopRestart), max (Profile.minimumOff p * 64) (s.rail.stopRestart * 64))) n
        { s with
          rail := { s.rail with pgood := false, hsleep := hsleep, inputs := t.rail.inputs }
          climate := { s.climate with heaters := t.climate.heaters } } t ∧
      t.mon.records = s.mon.records ∧ t.mon.ladderIndex = s.mon.ladderIndex ∧ t.mon.lastRefusal = s.mon.lastRefusal ∧
      s.xmem.partWrote [(0x08, 4), (0x19, 2), (0x0AD, 1), (0x0B0, 2)] 0 t.xmem := by
  obtain ⟨_, hrail0, hmon0, _⟩ := State.slotCounted_frame n s
  have hclimate0 := State.slotCounted_climate n s
  have hxmem0 := State.slotCounted_xmem n s
  have hcount : s.xmem.writes [(0x08, 4)] (s.slotCounted n).xmem := by
    rw [hxmem0]
    exact Exchange.writes_partWrite (by simp [rangeWithin, le32]) _
  have hflags0 : s.xmem.raised 0 (s.slotCounted n).xmem := by
    rw [hxmem0]
    simp [Exchange.raised]
  have hpowered : s.slotPowered n p false hsleep = ((s.slotCounted n).stopSampled p false hsleep).completeStop n p :=
    State.samplePower_stopping n p hsleep false (by rw [hrail0]; exact hstopping)
  have hwf0 := (hcount hwf).wf
  generalize s.slotCounted n = c at *
  have hsampled := State.stopSampled_rail p hsleep false hrail0
  obtain ⟨hoff, hrecords, hladder, hrefusal, hwrites, hflags, _⟩ := State.completeStop_completes
    (s := c.stopSampled p false hsleep)
    n p hwf0 (by rw [hsampled]; exact hstopping)
  have hrestart : (c.stopSampled p false hsleep).rail.stopRestart = s.rail.stopRestart := by rw [hsampled]
  have hmon1 : (c.stopSampled p false hsleep).mon = s.mon := hmon0
  have hclimate1 : (c.stopSampled p false hsleep).climate = c.climate := rfl
  rw [hrestart] at hoff
  rw [hmon1] at hrecords hladder hrefusal
  have hstate : (s.slotPowered n p false hsleep).rail.state ≠ .warming := by
    rw [hpowered, hoff.1]
    exact fun h => (by cases h)
  obtain ⟨hrail, hmon, hclimate, hx⟩ := State.slotWork_of_steady hwf hnone hsteady hstate
  rw [hpowered] at hrail hmon hclimate hx
  have hwf1 := (hwrites hwf0).wf
  have hheaters : (c.stopSampled p false hsleep).climate =
      { s.climate with heaters := (s.slotWork n p false hsleep levels).climate.heaters } := by
    rw [hclimate, hoff.2.1, hclimate1, hclimate0]
  have hpublish := State.publishWatchdog_writes n ((c.stopSampled p false hsleep).completeStop n p)
  have hflags' := State.publishWatchdog_flags n ((c.stopSampled p false hsleep).completeStop n p)
  refine ⟨hoff.resampled (s := s) n hsleep hsampled hheaters hmon1 hrail hclimate hmon hx hwf1, by rw [hmon, hrecords],
    by rw [hmon, hladder], by rw [hmon, hrefusal], ?_⟩
  · rw [hx]
    have hall : s.xmem.writes [(0x08, 4), (0x19, 2), (0x0AD, 1), (0x0B0, 2)]
        (((c.stopSampled p false hsleep).completeStop n p).publishWatchdog n).xmem :=
      (hcount.mono (by decide)).trans ((hwrites.mono (by decide)).trans (hpublish.mono (by decide)))
    refine hall.partWrote hwf ?_
    obtain ⟨hsummary, henable⟩ := hflags
    exact ⟨hflags'.1.trans (hsummary.trans (by rw [← hflags0.1]; exact BitVec.or_zero)),
      hflags'.2.trans (henable.trans hflags0.2)⟩

/-- Settles O22: the sleep hold and the sample of PGOOD complete the stop; the stop limit cuts the rail with a record. -/
theorem stopEnds : Obligations.StopEnds := by
  refine ⟨fun s p hp hwf hstopping hcount => ?_, fun s p e hp hwf hstopping hdue => ?_,
    fun s p hsleep levels hp hwf hstopping hnone => ⟨_, exec_slotStart hp false hsleep levels, fun hsteady =>
      slotStart_completesStop s.upcoming hwf hstopping hnone hsteady⟩⟩
  · obtain ⟨hoff, hrecords, hladder, hrefusal, hwrites, hflags, heq⟩ :=
      State.completeStop_completes s.time.slotCount p hwf hstopping
    have hexec : exec .sleepHoldEnd s = .next (s.completeStop s.time.slotCount p) := by
      show execSleepHoldEnd s = _
      rw [execSleepHoldEnd, hp]
      exact congrArg Host.Outcome.next (if_pos ⟨hstopping, hcount⟩)
    exact ⟨_, hexec, hoff, hrecords, hladder, hrefusal, hwrites.partWrote hwf hflags, heq⟩
  · have hw : s.rail.state ≠ .warming := by rw [hstopping]; decide
    refine ⟨_, congrArg Host.Outcome.next (State.atEnd_of_due hp hdue State.endStopLimit), ?_⟩
    have hnoticed := State.recordedCut_noticed e hwf hw .stopTimeout (decide (0 < s.rail.stopRestart)) (s.stopOffSlots p)
    unfold State.endStopLimit
    rw [if_pos hstopping]
    rw [hstopping] at hnoticed
    exact hnoticed

end Sys2Proof.Proofs
end

