-- ==== Sys2Proof/Proofs/PowergoodLoss.lean ====
section
/-!
The statement on PGOOD released in RUNNING and RESETTING (R81): the failure at the slot start, and what the samples and a slip of
the same slot leave of it.
-/

namespace Sys2Proof.Machine

/-! ### What the inputs leave of a rail that has gone off (R90, R91) -/

/-- In COOLDOWN and LOCKOUT an input moves restart pending at most. -/
structure State.restKeeps (u v : State) : Prop where
  rail : v.rail = { u.rail with inputs := v.rail.inputs, restartPending := v.rail.restartPending }
  mon : v.mon = u.mon
  writes : u.xmem.writes [(0x0C, 2), (0x0AD, 2)] v.xmem

section rest
variable {u v w : State} (now : SlotCount) (p : Image)

theorem State.restKeeps_refl (u : State) : u.restKeeps u := ⟨rfl, rfl, Exchange.writes_refl _ _⟩

theorem State.restKeeps.trans (h : u.restKeeps v) (h' : v.restKeeps w) : u.restKeeps w where
  rail := by rw [h'.rail, h.rail]
  mon := h'.mon.trans h.mon
  writes := h.writes.trans h'.writes

theorem State.setRestartPending_restKeeps (b : Bool) : u.restKeeps (u.setRestartPending b) :=
  ⟨rfl, rfl, (State.setRestartPending_writes b u).mono (by decide)⟩

theorem State.raise_restKeeps (c : Cause) : u.restKeeps (u.raise c) :=
  ⟨rfl, rfl, (State.raise_writes c u).mono (by decide)⟩

theorem State.inputRises_restKeeps (k : Fin 4) (h : u.rail.state = .cooldown ∨ u.rail.state = .lockout) :
    u.restKeeps (u.inputRises now p k) := by
  have hoff : u.rail.state.isOn = false := by
    obtain h | h := h <;> rw [h] <;> rfl
  unfold State.inputRises
  split
  · exact State.restKeeps_refl u
  · exact State.raise_restKeeps _
  · exact State.restKeeps_refl u
  · obtain h | h := h <;> rw [h]
    · exact State.setRestartPending_restKeeps true
    · exact State.restKeeps_refl u
  · rw [if_neg (by obtain h | h := h <;> rw [h] <;> decide)]
    exact State.restKeeps_refl u
  · unfold State.cutInput
    rw [if_neg (by rw [hoff]; exact Bool.false_ne_true)]
    obtain h | h := h <;> rw [h]
    · exact State.setRestartPending_restKeeps false
    · exact State.restKeeps_refl u

theorem State.inputActs_restKeeps (k : Fin 4) (was : Bool) (h : u.rail.state = .cooldown ∨ u.rail.state = .lockout) :
    u.restKeeps (u.inputActs now p k was) := by
  have hpublish : u.restKeeps (u.publishInputs p) :=
    ⟨rfl, rfl, Exchange.writes_partWrite (by simp [rangeWithin]) _⟩
  unfold State.inputActs
  split
  · exact hpublish.trans (State.inputRises_restKeeps now p k h)
  · split
    · refine hpublish.trans ?_
      unfold State.inputFalls
      split
      · exact State.raise_restKeeps _
      · exact State.restKeeps_refl _
    · exact State.restKeeps_refl u

theorem State.sampleInput_restKeeps (levels : BitVec 4) (k : Fin 4) (h : u.rail.state = .cooldown ∨ u.rail.state = .lockout) :
    u.restKeeps (u.sampleInput now p levels k) := by
  rw [State.sampleInput_acts]
  exact State.restKeeps.trans (v := u.withInputs (u.rail.inputs.set k (u.rail.inputs[k].sample (levels.getLsbD k.val))))
    ⟨rfl, rfl, Exchange.writes_refl _ _⟩ (State.inputActs_restKeeps now p k _ h)

theorem State.sampleInputs_restKeeps (levels : BitVec 4) (h : u.rail.state = .cooldown ∨ u.rail.state = .lockout) :
    u.restKeeps (u.sampleInputs now p levels) := by
  unfold State.sampleInputs
  refine foldl_induction (P := u.restKeeps) (fun v k hv => hv.trans ?_) _ u (State.restKeeps_refl u)
  exact State.sampleInput_restKeeps now p levels k (by rw [hv.rail]; exact h)

end rest

/-! ### The failure of a slot start (R79, R81) -/

section failure
variable {s : State} (now : SlotCount) (p : Image)

/-- A failure takes the rail into LOCKOUT or COOLDOWN. -/
theorem State.failure_state (cause : RestartCause) :
    (s.failure now p cause).rail.state = if ladderLocks p s.mon.ladderIndex then .lockout else .cooldown := by
  rw [State.failure_eq]
  split
  · rw [State.enterLockout_rail]
  · rw [State.enterCooldown_rail]

theorem State.failure_rests (cause : RestartCause) :
    (s.failure now p cause).rail.state = .cooldown ∨ (s.failure now p cause).rail.state = .lockout := by
  rw [State.failure_state]
  split
  · exact .inr rfl
  · exact .inl rfl

/-- The off time of a failure without a lockout. -/
theorem State.failure_offTime (cause : RestartCause) (h : ladderLocks p s.mon.ladderIndex = false) :
    (s.failure now p cause).rail.restartPending = true ∧ (s.failure now p cause).rail.offTime = Profile.minimumOff p * 64 ∧
      (s.failure now p cause).rail.offTimer = some (after now (Profile.minimumOff p * 64)) := by
  rw [State.failure_eq, h, if_neg Bool.false_ne_true, State.enterCooldown_rail]
  exact ⟨rfl, rfl, rfl⟩

/-- The lines of a failure are released. -/
theorem State.failure_lines (cause : RestartCause) :
    (s.failure now p cause).rail.railEn = false ∧ (s.failure now p cause).rail.hrst = false ∧
      (s.failure now p cause).rail.hpwrbtn = false := by
  rw [State.failure_eq]
  split
  · rw [State.enterLockout_rail]
    exact ⟨rfl, rfl, rfl⟩
  · rw [State.enterCooldown_rail]
    exact ⟨rfl, rfl, rfl⟩

/-- The ladder and the newest record of a failure. -/
theorem State.failure_ladder (cause : RestartCause) :
    (s.failure now p cause).mon.ladderIndex = ladderNext p s.mon.ladderIndex ∧
      (s.failure now p cause).mon.records.head? =
        some (s.newRecord now cause (failureAction p s.mon.ladderIndex) s.mon.ladderIndex s.rail.state) := by
  obtain ⟨hladder, _, _, hrecords⟩ := State.failure_recorded (s := s) now p cause
  rw [hladder, hrecords, State.failureRecorded_mon]
  exact ⟨rfl, rfl⟩

end failure

/-! ### A rail that goes off at a slot start -/

section slot
variable {s u : State} {n : SlotCount} {p : Image} {pgood hsleep : Bool} {levels : BitVec 4} {cause : RestartCause}

/-- The bytes that a slot start writes after the rail has gone off. -/
def restBytes : List (Nat × Nat) := [(0x0C, 2), (0x0AD, 2)] ++ watchdogBytes ++ besideBytes

/-- What the inputs and a slip leave of a rail that the power inputs have taken off. -/
theorem State.slotWork_rests
    (h : (s.slotPowered n p pgood hsleep).rail.state = .cooldown ∨ (s.slotPowered n p pgood hsleep).rail.state = .lockout) :
    let t := s.slotWork n p pgood hsleep levels
    let v := s.slotPowered n p pgood hsleep
    t.rail =
        { v.rail with
          inputs := t.rail.inputs, restartPending := t.rail.restartPending, override := t.rail.override } ∧
      t.mon.ladderIndex = v.mon.ladderIndex ∧ t.mon.records = v.mon.records ∧ v.xmem.writes restBytes t.xmem := by
  obtain ⟨hrail, hmon, hwrites⟩ := State.sampleInputs_restKeeps n p levels h
  rw [← State.slotSampled] at hrail hmon hwrites
  have hstate : (s.slotSampled n p pgood hsleep levels).rail.state = (s.slotPowered n p pgood hsleep).rail.state := by
    rw [hrail]
  have hjudged : s.slotJudged n p pgood hsleep levels = s.slotSampled n p pgood hsleep levels :=
    State.judgeAtSlot_of_not n p _ (by rw [hstate]; obtain h | h := h <;> rw [h] <;> decide)
  obtain ⟨hrail', hladder, hrecords, hwrites'⟩ := State.slotWork_beside (s := s) (n := n) (p := p) (pgood := pgood)
    (hsleep := hsleep)
    (levels := levels) (by rw [hjudged, hstate]; obtain h | h := h <;> rw [h] <;> decide)
  rw [hjudged] at hrail' hladder hrecords hwrites'
  rw [hmon] at hladder hrecords
  exact ⟨by rw [hrail', hrail], hladder, hrecords, hwrites.andThen hwrites' (by decide) (by decide)⟩

/-- The rail, the ladder and the newest record after a slot start that answers a failure of the host. -/
theorem State.slotWork_failed (hpowered : s.slotPowered n p pgood hsleep = u.failure n p cause) (hmon : u.mon = s.mon)
    (hstate : u.rail.state = s.rail.state) :
    let t := s.slotWork n p pgood hsleep levels
    let i := s.mon.ladderIndex
    let lock : Bool := i < Profile.ladderLength p → Profile.ladderStep p i = .lockout
    t.rail.state = (if lock then .lockout else .cooldown) ∧ t.rail.railEn = false ∧ t.rail.hrst = false ∧
      t.rail.hpwrbtn = false ∧
      (lock = false → t.rail.offTime = Profile.minimumOff p * 64 ∧
        t.rail.offTimer = some (after n (Profile.minimumOff p * 64))) ∧
      t.mon.ladderIndex = (if i < Profile.ladderLength p then i + 1 else i) ∧
      (t.mon.records.head?.any fun r =>
        r.cause == cause && r.indexBefore == i && r.railBefore == s.rail.state &&
          r.action == (if lock then .lockout else .cold) && r.slot == n) = true := by
  dsimp only
  rw [← ladderLocks_eq]
  obtain ⟨hrail, hladder, hrecords, _⟩ := State.slotWork_rests (s := s) (n := n) (p := p) (pgood := pgood) (hsleep := hsleep)
    (levels := levels) (by rw [hpowered]; exact State.failure_rests n p cause)
  rw [hpowered] at hrail hladder hrecords
  have hrests := State.failure_state (s := u) n p cause
  obtain ⟨hen, hrst, hbutton⟩ := State.failure_lines (s := u) n p cause
  obtain ⟨hnext, hnewest⟩ := State.failure_ladder (s := u) n p cause
  have hoff := State.failure_offTime (s := u) n p cause
  rw [hmon] at hrests hnext hnewest hoff
  rw [hrail, hladder, hrecords, hnewest, hnext, hstate]
  refine ⟨hrests, hen, hrst, hbutton, fun hlock => (hoff hlock).2, rfl, ?_⟩
  simp [State.newRecord, failureAction]

/-- The restart record region shows the records of a failure at a slot start (R118, R119). -/
theorem State.slotWork_recordsShown (hpowered : s.slotPowered n p pgood hsleep = u.failure n p cause)
    (hwf : u.xmem.wf = true) : (s.slotWork n p pgood hsleep levels).recordsShown := by
  obtain ⟨_, _, hrecords, hwrites⟩ := State.slotWork_rests (s := s) (n := n) (p := p) (pgood := pgood) (hsleep := hsleep)
    (levels := levels) (by rw [hpowered]; exact State.failure_rests n p cause)
  have hshown := State.failure_shown n p hwf cause (.inr (.inl rfl))
  have hwf1 := (State.failure_writes_of (rs := railBytes) n p cause u (by decide) (fun _ => by decide) hwf).wf
  rw [hpowered] at hrecords hwrites
  exact (State.shown_of_writes hwf1 hshown hwrites (by decide) (by simp [Copy.bytes, hrecords])).records

/-- Every slot start shows the watchdog (R124). -/
theorem State.slotWork_watched (hwf : s.xmem.wf = true) : (s.slotWork n p pgood hsleep levels).watchdogShown n := by
  obtain ⟨_, _, _, _, _, hmon, _, _, _, _, hxmem⟩ := State.slotOffered_frame n p pgood hsleep levels s
  have hwritten := State.slotOffered_writes s n p pgood hsleep levels hwf
  have hworked := State.slotWorked_writes n p pgood hsleep levels s
  refine (State.slotWork_slipKeeps s n p pgood hsleep levels).watched hwritten.wf ?_
  have hwfj : (s.slotJudged n p pgood hsleep levels).xmem.wf = true := by
    have hsampled := ((State.slotPowered_writes s n p pgood hsleep) hwf).wf
    have hinputs := (State.sampleInputs_writes n p levels _ hsampled).wf
    exact (State.judgeAtSlot_writes n p _ hinputs).wf
  have hshown := State.publishWatchdog_shown n hwfj
  have hpublished := (State.publishWatchdog_frame n (s.slotJudged n p pgood hsleep levels)).2.2.2.2.2.1
  unfold State.watchdogShown at hshown ⊢
  rwa [hxmem, hmon, ← hpublished]

end slot

end Sys2Proof.Machine

namespace Sys2Proof.Proofs

open Sys2Proof.Machine

/-- A sample of PGOOD released in RUNNING or RESETTING is a failure, before the inputs are sampled. -/
theorem slotPowered_loses {s : State} {p : Image} {hsleep : Bool} (n : SlotCount)
    (h : s.rail.state = .running ∨ s.rail.state = .resetting) :
    s.slotPowered n p false hsleep =
      ((s.slotCounted n).powerSampled false hsleep).failure n p .powergoodLost := by
  have hrail := (State.slotCounted_frame n s).2.1
  unfold State.slotPowered
  generalize s.slotCounted n = c at *
  have hstate : (c.powerSampled false hsleep).rail.state = s.rail.state := by rw [State.powerSampled_rail _ _ _ hrail]
  unfold State.samplePower
  dsimp only
  rw [← State.powerSampled, hstate]
  obtain h | h := h <;> rw [h] <;> rfl

/-- Settles O6: the failure is answered before the inputs and the slip of the slot, which leave it. -/
theorem powergoodLossCutsTheRail : Obligations.PowergoodLossCutsTheRail := by
  intro s p hsleep levels hp hstate
  have hpowered := slotPowered_loses (p := p) (hsleep := hsleep) s.upcoming hstate
  obtain ⟨_, hrail, hmon, _⟩ := State.slotCounted_frame s.upcoming s
  have hcounted := State.slotCounted_xmem s.upcoming s
  refine ⟨_, exec_slotStart hp false hsleep levels, State.slotWork_failed hpowered hmon ?_, fun hwf =>
    ⟨State.slotWork_recordsShown hpowered ?_, State.slotWork_watched hwf⟩⟩
  · rw [State.powerSampled_rail _ _ _ hrail]
  · show (s.slotCounted s.upcoming).xmem.wf = true
    rw [hcounted]
    exact Exchange.wf_partWrite hwf _ _

end Sys2Proof.Proofs
end

