-- ==== Sys2Proof/Proofs/PowerSamples.lean ====
section
/-!
SUPPORT. The sample of the power inputs, state by state (R69): what a slot start does with PGOOD and HSLEEP where it does not take
the rail off.
-/

namespace Sys2Proof.Machine

section power
variable {s : State} (n : SlotCount) (p : Image) (pgood hsleep : Bool)

/-! ### The sample, state by state -/

/-- A rail that is off does not act on the power inputs. -/
theorem State.samplePower_off (h : s.rail.state.isOn = false) : s.samplePower n p pgood hsleep = s.powerSampled pgood hsleep := by
  have hstate : (s.powerSampled pgood hsleep).rail.state = s.rail.state := rfl
  unfold State.samplePower
  dsimp only
  rw [← State.powerSampled, hstate]
  cases hs : s.rail.state <;> rw [hs] at h <;> simp [RailState.isOn] at h

theorem State.samplePower_resetting (h : s.rail.state = .resetting) :
    s.samplePower n p true hsleep = s.powerSampled true hsleep := by
  have hstate : (s.powerSampled true hsleep).rail.state = .resetting := h
  unfold State.samplePower
  dsimp only
  rw [← State.powerSampled, hstate]
  rfl

theorem State.samplePower_running (h : s.rail.state = .running) :
    s.samplePower n p true hsleep =
      if s.rail.hsleep != hsleep then (s.powerSampled true hsleep).hsleepChanged n p hsleep else s.powerSampled true hsleep := by
  have hstate : (s.powerSampled true hsleep).rail.state = .running := h
  unfold State.samplePower
  dsimp only
  rw [← State.powerSampled, hstate]
  rfl

/-- The part in STARTING with the reset hold `hold`. -/
def State.withHold (hold : Option SlotCount) (s : State) : State := s.mapRail fun r => { r with resetHold := hold }

theorem State.samplePower_starting (h : s.rail.state = .starting) :
    s.samplePower n p pgood hsleep =
      if pgood then (s.powerSampled pgood hsleep).withHold (some (s.rail.resetHold.getD (after n (Profile.resetHold p))))
      else if s.rail.resetHold.isSome && s.rail.pgoodLimit.isNone then (s.powerSampled pgood hsleep).failure n p .noPowergood
      else (s.powerSampled pgood hsleep).withHold none := by
  have hstate : (s.powerSampled pgood hsleep).rail.state = .starting := h
  have hsame : (s.powerSampled pgood hsleep).withHold s.rail.resetHold = s.powerSampled pgood hsleep := rfl
  unfold State.samplePower
  dsimp only
  rw [← State.powerSampled, hstate]
  have hhold : (s.powerSampled pgood hsleep).rail.resetHold = s.rail.resetHold := rfl
  have hlimit : (s.powerSampled pgood hsleep).rail.pgoodLimit = s.rail.pgoodLimit := rfl
  dsimp only
  rw [hhold, hlimit]
  generalize s.powerSampled pgood hsleep = u at *
  cases pgood <;> cases hh : s.rail.resetHold <;> rw [hh] at hsame
  · exact hsame.symm
  · cases s.rail.pgoodLimit <;> rfl
  · rfl
  · exact hsame.symm

/-! ### HSLEEP in RUNNING (R113) -/

theorem State.hsleepChanged_mon (level : Bool) :
    let m := s.mon
    let stops : Bool := level && (m.watchdog == .grace || m.watchdog == .watching || m.watchdog == .warned)
    let resumes : Bool := !level && m.watchdog == .paused
    let intoGrace : Bool := resumes && m.pausedFrom == .grace
    (s.hsleepChanged n p level).mon =
      { m with
        hsleep := level
        watchdog := if stops then .paused else if intoGrace then .grace else if resumes then .watching else m.watchdog
        pausedFrom := if stops then (if m.watchdog = .grace then .grace else .watching) else m.pausedFrom
        expected := if intoGrace then none else m.expected
        stageEnd :=
          if stops then none
          else if resumes then some (after n ((if intoGrace then s.graceNow p else m.inForce.s1) * 64))
          else m.stageEnd } := by
  have hpublish := fun u => (State.publishWatchdog_frame n u).2.2.2.2.2.1
  unfold State.hsleepChanged
  dsimp only
  rw [hpublish]
  cases level
  · cases hw : s.mon.watchdog
    case paused =>
      cases hf : s.mon.pausedFrom <;>
        simp [hw, hf, State.enterGrace, State.graceNow, bootGrace, seconds, State.temp]
    all_goals simp [hw]
  · cases hw : s.mon.watchdog <;> simp [hw, State.enterPaused]

theorem State.hsleepChanged_flags (level : Bool) :
    (s.hsleepChanged n p level).xmem.summary = s.xmem.summary ∧ (s.hsleepChanged n p level).xmem.enable = s.xmem.enable := by
  have hpublish := fun u => State.publishWatchdog_flags n u
  unfold State.hsleepChanged
  dsimp only
  rw [(hpublish _).1, (hpublish _).2]
  cases level
  · cases hw : s.mon.watchdog
    case paused => cases hf : s.mon.pausedFrom <;> simp [hw, hf]
    all_goals simp [hw]
  · cases hw : s.mon.watchdog <;> simp [hw]

theorem State.hsleepTaken_of {c t : State} (hmon : c.mon = s.mon) (hsense : c.graceNow p = s.graceNow p)
    (ht : t.mon =
      (if s.rail.hsleep != hsleep then (c.powerSampled true hsleep).hsleepChanged n p hsleep
        else c.powerSampled true hsleep).mon) : s.hsleepTaken p hsleep n t := by
  unfold State.hsleepTaken
  dsimp only
  by_cases hsame : hsleep = s.rail.hsleep
  · rw [if_pos hsame]
    rw [if_neg (by simp [hsame])] at ht
    exact ht.trans hmon
  · rw [if_neg hsame]
    rw [if_pos (by simp [Ne.symm hsame]), State.hsleepChanged_mon] at ht
    have hmon' : (c.powerSampled true hsleep).mon = s.mon := hmon
    have hgrace : (c.powerSampled true hsleep).graceNow p = s.graceNow p := hsense
    rwa [hmon', hgrace] at ht

/-! ### A sample that does not take the rail off -/

/-- The power inputs have not taken the rail off: of the rail the samples, the reset hold and the sleep count move, of the monitor
the pause. -/
structure State.powerKeeps (s u : State) : Prop where
  rail : u.rail =
    { s.rail with
      pgood := u.rail.pgood, hsleep := u.rail.hsleep, resetHold := u.rail.resetHold, sleepCount := u.rail.sleepCount }
  records : u.mon.records = s.mon.records
  ladder : u.mon.ladderIndex = s.mon.ladderIndex
  expired : u.mon.watchdog = .expired ↔ s.mon.watchdog = .expired
  raised : s.xmem.raised 0 u.xmem
  writes : s.xmem.writes watchdogBytes u.xmem

theorem State.powerSampled_powerKeeps : s.powerKeeps (s.powerSampled pgood hsleep) :=
  ⟨rfl, rfl, rfl, Iff.rfl, by simp [State.powerSampled, Exchange.raised], Exchange.writes_refl _ _⟩

theorem State.hsleepChanged_powerKeeps : s.powerKeeps ((s.powerSampled true hsleep).hsleepChanged n p hsleep) := by
  have hmon := State.hsleepChanged_mon (s := s.powerSampled true hsleep) n p hsleep
  have hrail : ((s.powerSampled true hsleep).hsleepChanged n p hsleep).rail = (s.powerSampled true hsleep).rail := by simp
  have hwrites := State.hsleepChanged_writes n p hsleep (s.powerSampled true hsleep)
  have hraised : (s.powerSampled true hsleep).xmem.raised 0 ((s.powerSampled true hsleep).hsleepChanged n p hsleep).xmem := by
    simpa [Exchange.raised] using State.hsleepChanged_flags (s := s.powerSampled true hsleep) n p hsleep
  have hsampled : (s.powerSampled true hsleep).mon = s.mon := rfl
  rw [hsampled] at hmon
  refine ⟨by rw [hrail]; rfl, by rw [hmon], by rw [hmon], ?_, hraised, hwrites⟩
  rw [hmon]
  cases hw : s.mon.watchdog <;> cases hsleep <;> simp
  cases s.mon.pausedFrom <;> simp

/-- A sample of PGOOD asserted, and any sample of a rail that is off, leaves the rail where it is. -/
theorem State.samplePower_powerKeeps (h : pgood = true ∨ s.rail.state.isOn = false) :
    s.powerKeeps (s.samplePower n p pgood hsleep) := by
  by_cases hon : s.rail.state.isOn = false
  · rw [State.samplePower_off n p pgood hsleep hon]
    exact State.powerSampled_powerKeeps pgood hsleep
  · obtain rfl : pgood = true := h.resolve_right hon
    cases hs : s.rail.state
    case starting =>
      rw [State.samplePower_starting n p true hsleep hs]
      exact ⟨rfl, rfl, rfl, Iff.rfl, by simp [State.withHold, State.powerSampled, Exchange.raised], Exchange.writes_refl _ _⟩
    case running =>
      rw [State.samplePower_running n p hsleep hs]
      split
      · exact State.hsleepChanged_powerKeeps n p hsleep
      · exact State.powerSampled_powerKeeps true hsleep
    case resetting =>
      rw [State.samplePower_resetting n p hsleep hs]
      exact State.powerSampled_powerKeeps true hsleep
    case stopping =>
      rw [State.samplePower_stopping n p hsleep true hs]
      exact ⟨rfl, rfl, rfl, Iff.rfl, by simp [State.stopSampled, Exchange.raised], Exchange.writes_refl _ _⟩
    all_goals exact absurd (by rw [hs]; rfl) hon

end power

end Sys2Proof.Machine
end

