-- ==== Sys2Proof/Proofs/InputRoutes.lean ====
section
/-!
SUPPORT. One input that changes at a slot start acts by its route (R90, R91): the reaction, and what the rest of the slot leaves
of it.
-/

namespace Sys2Proof.Machine

/-! ### The reaction, route by route -/

/-- An active input of route `route` acts on a rail in state `st`. -/
def routeActs (route : InputRoute) (st : RailState) : Bool :=
  (route == .start && (st == .off || st == .cooldown)) || (route == .stop && st == .running) ||
    (route == .cut && (st.isOn || st == .warming || st == .cooldown))

/-- The bytes that an input writes beside its own. -/
def riseBytes : List (Nat × Nat) :=
  [(0x0C, 2), (0x13, 1), (0x19, 2), (0x0AC, 2), (0x0AF, 1), (0x0B0, 2), (0x600, 256)]

section routes
variable {c : State} (n : SlotCount) (p : Image) (k : Fin 4)

theorem State.cutInput_writes_of : c.xmem.writes riseBytes (c.cutInput n p).xmem := by
  unfold State.cutInput
  refine Exchange.writes_ite (fun _ => ?_) fun _ => ?_
  · exact State.cutWithNotice_writes_of n p _ _ c (by decide) fun _ => by decide
  · split
    · exact (State.setRail_writes n .off (c.mapRail _)).mono (by decide)
    · exact (State.setRestartPending_writes false c).mono (by decide)
    · exact Exchange.writes_refl _ _

theorem State.inputRises_writes_of : c.xmem.writes riseBytes (c.inputRises n p k).xmem := by
  unfold State.inputRises
  split
  · exact Exchange.writes_refl _ _
  · exact (State.raise_writes .inputNote c).mono (by decide)
  · exact Exchange.writes_refl _ _
  · split
    · exact (State.enterWarming_writes n p c).mono (by decide)
    · exact (State.setRestartPending_writes true c).mono (by decide)
    · exact Exchange.writes_refl _ _
  · refine Exchange.writes_ite (fun _ => ?_) fun _ => Exchange.writes_refl _ _
    have hstop := State.enterStopping_writes_of (rs := riseBytes) n p 0 c (by decide) fun _ => by decide
    rw [← State.startPulse_xmem n p (c.enterStopping n p 0)] at hstop
    exact hstop.trans ((State.raise_writes .stopAsked _).mono (by decide))
  · exact State.cutInput_writes_of n p

/-- The causes that an active input raises do not hold the note of a route other than NOTE. -/
theorem State.inputRises_summary :
    ∃ causes : BitVec 12, (c.inputRises n p k).xmem.summary = c.xmem.summary ||| causes ∧
      causes &&& Cause.inputNote.bit = (if Profile.inputRoute p k = .note then Cause.inputNote.bit else 0) := by
  have hnone : c.xmem.summary = c.xmem.summary ||| 0 := BitVec.or_zero.symm
  unfold State.inputRises
  split <;> rename_i hroute <;> rw [hroute]
  · exact ⟨0, hnone, by decide⟩
  · exact ⟨Cause.inputNote.bit, by simp, by decide⟩
  · exact ⟨0, hnone, by decide⟩
  · refine ⟨0, ?_, by decide⟩
    split
    · simp
    · simp
    · exact hnone
  · split
    · exact ⟨Cause.stopAsked.bit, by simp, by decide⟩
    · exact ⟨0, hnone, by decide⟩
  · unfold State.cutInput
    split
    · exact ⟨Cause.restartNote.bit, by simp, by decide⟩
    · refine ⟨0, ?_, by decide⟩
      split
      · simp
      · simp
      · exact hnone

/-- An input whose route does not act leaves the rail and the monitor. -/
theorem State.inputRises_idle (h : routeActs (Profile.inputRoute p k) c.rail.state = false) :
    (c.inputRises n p k).rail = c.rail ∧ (c.inputRises n p k).mon = c.mon := by
  unfold State.inputRises
  split <;> rename_i hroute <;> rw [hroute] at h
  · exact ⟨rfl, rfl⟩
  · exact ⟨rfl, rfl⟩
  · exact ⟨rfl, rfl⟩
  · cases hs : c.rail.state <;> rw [hs] at h <;> simp [routeActs] at h ⊢
  · cases hs : c.rail.state <;> rw [hs] at h <;> simp [routeActs] at h ⊢
  · unfold State.cutInput
    cases hs : c.rail.state <;> rw [hs] at h <;> simp [routeActs, RailState.isOn] at h ⊢

end routes

/-! ### What the rest of the slot leaves of the reaction -/

/-- From `b`, after the samples, to the end `t` of a slot start that takes no slip: the gate may be judged and the watchdog is
shown. -/
structure State.slotEnds (n : SlotCount) (b t : State) : Prop where
  rail : t.rail =
    { b.rail with
      inputs := t.rail.inputs, warmingAge := t.rail.warmingAge, warmCount := t.rail.warmCount,
      startRequest := t.rail.startRequest, budgetRefused := t.rail.budgetRefused, waitReason := t.rail.waitReason
      judgedAt := t.rail.judgedAt }
  unjudged : b.rail.state ≠ .warming ∨ b.rail.judgedAt = some n →
    t.rail = { b.rail with inputs := t.rail.inputs, judgedAt := t.rail.judgedAt }
  mon : t.mon = b.mon
  raised : b.xmem.raised 0 t.xmem
  writes : b.xmem.writes ((0x0AC, 1) :: watchdogBytes) t.xmem

section ends
variable {s b t : State} {n : SlotCount} {p : Image}

theorem State.judgeAtSlot_raised (v : State) : v.xmem.raised 0 (v.judgeAtSlot n p).xmem := by
  unfold State.judgeAtSlot
  dsimp only
  split
  · split
    · simp [Exchange.raised]
    · simp [Exchange.raised]
  · simp [Exchange.raised]

/-- The judgement and the watchdog after the samples. -/
theorem State.slotEnds_of (w : Vector InputRec 4) (hrail : t.rail = ((b.withInputs w).judgeAtSlot n p).rail)
    (hmon : t.mon = ((b.withInputs w).judgeAtSlot n p).mon)
    (hx : t.xmem = (((b.withInputs w).judgeAtSlot n p).publishWatchdog n).xmem) : b.slotEnds n t := by
  have hflags := State.publishWatchdog_flags n ((b.withInputs w).judgeAtSlot n p)
  obtain ⟨hsummary, henable⟩ := State.judgeAtSlot_raised (n := n) (p := p) (b.withInputs w)
  have hwrites := (State.judgeAtSlot_writes n p (b.withInputs w)).andThen (rs := (0x0AC, 1) :: watchdogBytes)
    (State.publishWatchdog_writes n _) (by decide) (by decide)
  obtain ⟨counts, isOpen, refused, wait, age, judged, hjudged⟩ := State.judgeAtSlot_rail n p (b.withInputs w)
  have hkept : ((b.withInputs w).judgeAtSlot n p).mon = b.mon := by simp [State.withInputs]
  rw [← hx] at hflags hwrites
  refine ⟨by rw [hrail, hjudged]; rfl, fun h => ?_, hmon.trans hkept, ⟨hflags.1.trans hsummary, hflags.2.trans henable⟩, hwrites⟩
  rw [hrail]
  by_cases hw : (b.withInputs w).rail.state = .warming
  · rw [State.judgeAtSlot_entered n p _ hw (h.resolve_left fun hnot => hnot hw)]
    rfl
  · rw [State.judgeAtSlot_of_not n p _ hw]
    rfl

end ends

/-! ### One input has changed (R90) -/

/-- The state `c` in which an input acts at a slot start of `s` that ends in `t`: the power inputs have been sampled, and the
active inputs are shown. -/
structure State.beforeRoute (p : Image) (s c t : State) : Prop where
  rail : c.rail =
    { s.rail with
      pgood := c.rail.pgood, hsleep := c.rail.hsleep, inputs := c.rail.inputs, resetHold := c.rail.resetHold
      sleepCount := c.rail.sleepCount }
  records : c.mon.records = s.mon.records
  ladder : c.mon.ladderIndex = s.mon.ladderIndex
  expired : c.mon.watchdog = .expired ↔ s.mon.watchdog = .expired
  summary : c.xmem.summary = s.xmem.summary
  wf : c.xmem.wf = true
  shown : c.xmem.peek 0x0AE = t.inputsByte p

section route
variable {s c t : State} {n : SlotCount} {p : Image} {k : Fin 4}

theorem State.beforeRoute.fields (h : s.beforeRoute p c t) :
    c.rail.state = s.rail.state ∧ c.rail.restartPending = s.rail.restartPending ∧ c.rail.pulse = s.rail.pulse ∧
      c.rail.hpwrbtn = s.rail.hpwrbtn := by
  rw [h.rail]
  exact ⟨rfl, rfl, rfl, rfl⟩

theorem note_held (x : BitVec 12) :
    x &&& Cause.inputNote.bit ||| Cause.inputNote.bit ||| 0 &&& Cause.inputNote.bit = Cause.inputNote.bit := by
  have hheld := causes_held x Cause.inputNote.bit
  rw [causes_masked, BitVec.and_self] at hheld
  simpa using hheld

/-- The copy of the active inputs and the note of the route, whatever the reaction raises. -/
theorem State.slotEnds.noted {b : State} (hends : b.slotEnds n t) (h : s.beforeRoute p c t)
    (hw : c.xmem.writes riseBytes b.xmem) {causes : BitVec 12} (hsummary : b.xmem.summary = c.xmem.summary ||| causes)
    (hcauses : causes &&& Cause.inputNote.bit = (if Profile.inputRoute p k = .note then Cause.inputNote.bit else 0)) :
    t.xmem.peek 0x0AE = t.inputsByte p ∧
      t.xmem.summary &&& Cause.inputNote.bit =
        (if Profile.inputRoute p k = .note then Cause.inputNote.bit else s.xmem.summary &&& Cause.inputNote.bit) := by
  have hb := hw h.wf
  have ht := hends.writes hb.wf
  refine ⟨?_, ?_⟩
  · rw [ht.kept _ (by decide) (by decide), hb.kept _ (by decide) (by decide), h.shown]
  · rw [hends.raised.1, hsummary, h.summary, causes_masked, causes_masked, hcauses]
    split
    · exact note_held _
    · simp

/-- START in OFF enters WARMING (R71). -/
theorem State.slotEnds.started (hends : (c.inputRises n p k).slotEnds n t) (hwf : c.xmem.wf = true)
    (hroute : Profile.inputRoute p k = .start) (hoff : c.rail.state = .off) :
    t.rail.state = .warming ∧ t.rail.warmingAge = 0 ∧ t.rail.restartPending = false ∧ t.xmem.peek 0x19 = 1 := by
  have hb : c.inputRises n p k = c.enterWarming n p := by
    unfold State.inputRises
    rw [hroute]
    dsimp only
    rw [hoff]
  rw [hb] at hends
  have hkept := (hends.writes (State.enterWarming_writes n p c hwf).wf).kept
  obtain ⟨counts, isOpen, wait, hrail⟩ := State.enterWarming_rail n p c
  have htrail := hends.unjudged (.inr (by rw [hrail]))
  have hpeek := (State.enterWarming_shown (s := c) n p hwf (c := .rail) (.inl rfl)).byte rfl
  rw [hrail] at htrail hpeek
  refine ⟨by rw [htrail], by rw [htrail], by rw [htrail], ?_⟩
  rw [hkept _ (by decide) (by decide)]
  exact hpeek

/-- START in COOLDOWN sets restart pending (R90). -/
theorem State.slotEnds.startAwaited (hends : (c.inputRises n p k).slotEnds n t)
    (hroute : Profile.inputRoute p k = .start) (hcool : c.rail.state = .cooldown) :
    t.rail.state = .cooldown ∧ t.rail.restartPending = true := by
  have hb : c.inputRises n p k = c.setRestartPending true := by
    unfold State.inputRises
    rw [hroute]
    dsimp only
    rw [hcool]
  rw [hb] at hends
  rw [hends.rail]
  exact ⟨hcool, rfl⟩

/-- A pulse in progress stands, and another begins one (R92). -/
theorem Rail.pulsed (r : Rail) (e : SlotCount) :
    (if r.pulse.isSome then r else { r with hpwrbtn := true, pulse := some e }) =
      { r with pulse := some (r.pulse.getD e), hpwrbtn := r.hpwrbtn || r.pulse.isNone } := by
  cases hp : r.pulse with
  | none => simp
  | some v =>
    cases r
    obtain rfl := hp
    simp

/-- The rail after the pulse of a stop, in one record (R84, R92). -/
theorem State.stopAsked_rail :
    (((c.enterStopping n p 0).startPulse n p).raise .stopAsked).rail =
      { c.rail with
        state := .stopping, waitReason := if c.rail.state = .warming then .noWait else c.rail.waitReason
        stopRestart := 0, sleepCount := 0, stopLimit := some (after n (seconds (Profile.stopLimit p)))
        pulse := some (c.rail.pulse.getD (after n (Profile.pulseWidth p)))
        hpwrbtn := c.rail.hpwrbtn || c.rail.pulse.isNone } := by
  have hrail : (((c.enterStopping n p 0).startPulse n p).raise .stopAsked).rail = _ :=
    State.startPulse_rail n p (c.enterStopping n p 0)
  rw [Rail.pulsed, State.enterStopping_rail] at hrail
  exact hrail

/-- STOP in RUNNING begins a stop with a pulse (R84, R90). -/
theorem State.slotEnds.stopBegun (hends : (c.inputRises n p k).slotEnds n t)
    (hroute : Profile.inputRoute p k = .stop) (hrun : c.rail.state = .running) :
    t.rail.state = .stopping ∧ t.rail.stopRestart = 0 ∧ t.rail.sleepCount = 0 ∧
      t.rail.stopLimit = some (after n (Profile.stopLimit p * 64)) ∧
      t.rail.pulse = some (c.rail.pulse.getD (after n (Profile.pulseWidth p))) ∧
      t.rail.hpwrbtn = (c.rail.hpwrbtn || c.rail.pulse.isNone) ∧
      t.mon.watchdog = (if c.mon.watchdog = .expired then .expired else .dormant) ∧
      t.xmem.summary &&& Cause.stopAsked.bit = Cause.stopAsked.bit := by
  have hb : c.inputRises n p k = ((c.enterStopping n p 0).startPulse n p).raise .stopAsked := by
    unfold State.inputRises
    rw [hroute]
    exact if_pos hrun
  rw [hb] at hends
  have hmon : (((c.enterStopping n p 0).startPulse n p).raise .stopAsked).mon = c.mon.railChanged c.rail.state .stopping := by
    simp [State.enterStopping_mon]
  have hraised : (((c.enterStopping n p 0).startPulse n p).raise .stopAsked).xmem.summary =
      c.xmem.summary ||| Cause.stopAsked.bit := by simp
  rw [hends.rail, State.stopAsked_rail, hends.mon, hmon, Monitor.railChanged_eq, hrun, hends.raised.1, hraised]
  refine ⟨rfl, rfl, rfl, rfl, rfl, rfl, ?_, ?_⟩
  · by_cases hex : c.mon.watchdog = .expired <;> simp [hex, restsAt, leavesRunning]
  · rw [causes_masked, causes_held]
    simp

/-- CUT takes a rail that is on off with a record (R91, R95). -/
theorem State.slotEnds.cut (hends : (c.inputRises n p k).slotEnds n t) (hwf : c.xmem.wf = true)
    (hroute : Profile.inputRoute p k = .cut) (hon : c.rail.state.isOn = true) :
    t.rail.state = .cooldown ∧ t.rail.railEn = false ∧ t.rail.hrst = false ∧ t.rail.hpwrbtn = false ∧
      t.rail.restartPending = false ∧ t.rail.offTime = Profile.minimumOff p * 64 ∧
      t.rail.offTimer = some (after n (Profile.minimumOff p * 64)) ∧ t.mon.ladderIndex = c.mon.ladderIndex ∧
      (t.mon.records.head?.any fun r =>
        r.cause == .inputCut && r.action == .off && r.railBefore == c.rail.state && r.slot == n) = true ∧
      t.recordsShown := by
  have hb : c.inputRises n p k = c.cutWithNotice n p .inputCut false := by
    unfold State.inputRises
    rw [hroute]
    exact if_pos hon
  rw [hb] at hends
  have hw : c.rail.state ≠ .warming := fun hwarm => by
    rw [hwarm] at hon
    exact absurd hon (by decide)
  have hwfb := (State.cutWithNotice_writes_of (rs := riseBytes) n p .inputCut false c (by decide) (fun _ => by decide) hwf).wf
  have hkept := (hends.writes hwfb).kept
  obtain ⟨hladder, ⟨_, _, _, hrecords, hregion⟩, ⟨hrail, _⟩, _⟩ := State.cutWithNotice_noticed n p hwf hw .inputCut false
  rw [hends.rail, hrail]
  refine ⟨rfl, rfl, rfl, rfl, rfl, rfl, rfl, by rw [hends.mon, hladder], by rw [hends.mon, hrecords]; simp, fun i hi j hj => ?_⟩
  rw [hends.mon] at hj ⊢
  rw [← hregion i hi j hj]
  have hj' : j < 32 := by rwa [recordAt_length] at hj
  refine hkept _ (by unfold memorySize; omega) ?_
  simp only [watchdogBytes, outside_cons, outside_nil, and_true]
  omega

/-- CUT in WARMING enters OFF (R91). -/
theorem State.slotEnds.cutWarming (hends : (c.inputRises n p k).slotEnds n t)
    (hroute : Profile.inputRoute p k = .cut) (hwarm : c.rail.state = .warming) :
    t.rail.state = .off ∧ t.rail.startRequest = false ∧ t.rail.waitReason = .noWait ∧ t.mon.records = c.mon.records := by
  have hb : c.inputRises n p k = (c.mapRail fun r => { r with startRequest := false }).setRail n .off := by
    unfold State.inputRises State.cutInput
    rw [hroute]
    dsimp only
    rw [hwarm]
    rfl
  rw [hb] at hends
  have hrail := State.setRail_rail n .off (c.mapRail fun r => { r with startRequest := false })
  have hmon := State.setRail_mon n .off (c.mapRail fun r => { r with startRequest := false })
  have htrail := hends.unjudged (.inl (by rw [hrail]; exact fun hc => (by cases hc)))
  have hwas : (c.mapRail fun r => { r with startRequest := false }).rail.state = .warming := hwarm
  refine ⟨by rw [htrail, hrail], by rw [htrail, hrail]; rfl, ?_, ?_⟩
  · rw [htrail, hrail, hwas]
    rfl
  · rw [hends.mon, hmon, Monitor.railChanged_eq]
    rfl

/-- CUT in COOLDOWN clears restart pending (R91). -/
theorem State.slotEnds.cutCooldown (hends : (c.inputRises n p k).slotEnds n t)
    (hroute : Profile.inputRoute p k = .cut) (hcool : c.rail.state = .cooldown) :
    t.rail.state = .cooldown ∧ t.rail.restartPending = false ∧ t.mon.records = c.mon.records := by
  have hb : c.inputRises n p k = c.setRestartPending false := by
    unfold State.inputRises State.cutInput
    rw [hroute]
    dsimp only
    rw [hcool]
    rfl
  rw [hb] at hends
  rw [hends.rail, hends.mon]
  exact ⟨hcool, rfl, rfl⟩

/-- An input that has become active. -/
theorem State.routeTaken_of_rise (h : s.beforeRoute p c t) (hends : (c.inputRises n p k).slotEnds n t)
    (hrises : t.inputActive p k = true) : s.routeTaken p k n t := by
  obtain ⟨hstate, hpending, hpulse, hbutton⟩ := h.fields
  obtain ⟨causes, hsummary, hcauses⟩ := State.inputRises_summary (c := c) n p k
  obtain ⟨hshown, hnote⟩ := hends.noted h (State.inputRises_writes_of n p k) hsummary hcauses
  have hdog : (if c.mon.watchdog = .expired then WatchdogState.expired else .dormant) =
      if s.mon.watchdog = .expired then .expired else .dormant := if_congr h.expired rfl rfl
  unfold State.routeTaken
  rw [← hstate, ← hpending, ← h.records, ← h.ladder, ← hpulse, ← hbutton, ← hdog]
  refine ⟨hshown, hnote, fun hacts => ?_, fun _ hroute hoff => hends.started h.wf hroute hoff,
    fun _ hroute hcool => hends.startAwaited hroute hcool, fun _ hroute hrun => hends.stopBegun hroute hrun,
    fun _ hroute hon => hends.cut h.wf hroute hon, fun _ hroute hwarm => hends.cutWarming hroute hwarm,
    fun _ hroute hcool => hends.cutCooldown hroute hcool⟩
  rw [hrises, Bool.true_and] at hacts
  obtain ⟨hrail, hmon⟩ := State.inputRises_idle (c := c) n p k hacts
  rw [hends.rail, hends.mon, hrail, hmon]
  exact ⟨rfl, rfl, rfl⟩

/-- An input that has become inactive: a note, or nothing. -/
theorem State.routeTaken_of_fall (h : s.beforeRoute p c t) (hends : (c.inputFalls p k).slotEnds n t)
    (hfalls : t.inputActive p k = false) : s.routeTaken p k n t := by
  obtain ⟨hstate, hpending, _, _⟩ := h.fields
  have hblocks : (c.inputFalls p k).rail = c.rail ∧ (c.inputFalls p k).mon = c.mon := by
    unfold State.inputFalls
    split <;> exact ⟨rfl, rfl⟩
  have hsummary : ∃ causes : BitVec 12, (c.inputFalls p k).xmem.summary = c.xmem.summary ||| causes ∧
      causes &&& Cause.inputNote.bit = (if Profile.inputRoute p k = .note then Cause.inputNote.bit else 0) := by
    unfold State.inputFalls
    split
    · exact ⟨Cause.inputNote.bit, by simp, by decide⟩
    · exact ⟨0, BitVec.or_zero.symm, by decide⟩
  obtain ⟨causes, hsummary, hcauses⟩ := hsummary
  obtain ⟨hshown, hnote⟩ := hends.noted h ((State.inputFalls_writes p k c).mono (by decide)) hsummary hcauses
  have hno {P : Prop} (hr : t.inputActive p k = true) : P := by
    rw [hfalls] at hr
    cases hr
  refine ⟨hshown, hnote, fun _ => ?_, fun hr => hno hr, fun hr => hno hr, fun hr => hno hr, fun hr => hno hr,
    fun hr => hno hr, fun hr => hno hr⟩
  rw [hends.rail, hends.mon, hblocks.1, hblocks.2]
  exact ⟨hstate, hpending, h.records⟩

end route

end Sys2Proof.Machine
end

