-- ==== Sys2Proof/Proofs/SlotStart.lean ====
section
/-!
SUPPORT. What a slot start leaves, a lemma for each part of its work (R15, R33, R69, R71 to R77, R85, R89 to R91, R127).
-/

namespace Sys2Proof.Machine

theorem Climate.keptOrFreed.heaters {c d : Climate} (h : c.keptOrFreed d) : d.heaters = c.heaters := by
  obtain rfl | rfl := h <;> rfl

theorem Climate.keptOrFreed.zone {c d : Climate} (h : c.keptOrFreed d) (z : Fin 3) :
    d.zones[z] = { c.zones[z] with override := d.zones[z].override } := by
  obtain rfl | rfl := h
  · rfl
  · have hz : c.withoutOverrides.zones[z] = { c.zones[z] with override := none } := tab_get _ z
    rw [hz]

/-- The decision about a scan moves two fields of the keypad controller, as R127 states. -/
theorem State.decideScan_decided {w u : State} {n : SlotCount} {p : Image} (hkeypad : w.keypad = u.keypad) :
    u.scanDecided p n u.keypad.edgeSet (w.decideScan n p (n.toNat % 64)) := by
  unfold State.scanDecided State.decideScan
  dsimp only
  rw [hkeypad, List.not_any_eq_all_not]
  by_cases hnone : ((List.finRange 24).all fun k => !Profile.keyEnabled p k) = true
  · rw [if_pos hnone, if_pos hnone]
    exact ⟨rfl, by rw [State.mapKeypad, hkeypad]⟩
  · rw [if_neg hnone, if_neg hnone]
    cases hedges : u.keypad.edgeSet with
    | none =>
      rw [if_neg (by simp)]
      exact ⟨by rw [hkeypad], by rw [hkeypad]⟩
    | some edges =>
      by_cases hasked : n.toNat % 64 % Profile.scanPeriod p = 0 ∨ u.keypad.deferred = true
      · rw [if_pos (by simpa using hasked)]
        dsimp only
        rw [if_pos hasked, Option.any_some]
        split <;> rename_i hbarred
        · exact ⟨hbarred.symm, by rw [State.mapKeypad, hkeypad]⟩
        · exact ⟨(Bool.eq_false_iff.mpr hbarred).symm, rfl⟩
      · rw [if_neg (by simpa using hasked)]
        dsimp only
        rw [if_neg hasked]
        exact ⟨by rw [hkeypad], by rw [hkeypad]⟩

/-- The decision leaves the rest of the keypad controller. -/
theorem State.decideScan_keypad (w : State) (n : SlotCount) (p : Image) (k : Nat) :
    (w.decideScan n p k).keypad =
      { w.keypad with deferred := (w.decideScan n p k).keypad.deferred, scan := (w.decideScan n p k).keypad.scan } := by
  unfold State.decideScan
  split
  · rfl
  · split
    · rfl
    · split
      · split <;> rfl
      · rfl

theorem State.judgeGate_waitShown {v : State} (hwf : v.xmem.wf = true) (p : Image) (age : Nat) :
    (v.judgeGate p age).shown .wait := by
  unfold State.judgeGate
  dsimp only
  refine State.setWait_shown ?_ _ fun h => absurd rfl h
  exact hwf

theorem State.withInputs_rail (v : State) (w : Vector InputRec 4) : (v.withInputs w).rail = { v.rail with inputs := w } := rfl

section slot
variable {s : State} {n : SlotCount} {p : Image} {pgood hsleep : Bool} {levels : BitVec 4}

/-! ### The count, the outputs and the scan decision -/

/-- Time and sensors are those of the count. -/
theorem State.slotWork_time :
    let t := s.slotWork n p pgood hsleep levels
    t.time = (s.slotCounted n).time ∧ t.sense = (s.slotCounted n).sense ∧ t.supplyLow = s.supplyLow := by
  obtain ⟨htime, hsense, _, _, _, _, _, hsupply, _⟩ := State.slotOffered_frame n p pgood hsleep levels s
  obtain ⟨htime', hsense', _, _, _, _, _, _, hsupply', _⟩ := State.slotJudged_frame n p pgood hsleep levels s
  obtain ⟨htaken, hsensed, hsupplied, _⟩ := State.arbitrate_frame n p (s.slotOffered n p pgood hsleep levels)
  rw [← State.slotWork_offered] at htaken hsensed hsupplied
  exact ⟨(htaken.trans htime).trans htime', (hsensed.trans hsense).trans hsense', (hsupplied.trans hsupply).trans hsupply'⟩

/-- The heaters follow the slot number, and the zones' figures stand. -/
theorem State.slotWork_climate (z : Fin 3) :
    let t := s.slotWork n p pgood hsleep levels
    t.climate.heaters[z] =
        (if n.toNat % 64 = 0 then s.climate.heaters[z] else decide (n.toNat % 64 < s.climate.zones[z].grant)) ∧
      t.climate.zones[z].grant = s.climate.zones[z].grant ∧ t.climate.zones[z].request = s.climate.zones[z].request ∧
      t.climate.zones[z].integrator = s.climate.zones[z].integrator := by
  have hkeeps := State.slotWork_slipKeeps s n p pgood hsleep levels
  obtain ⟨_, _, hclimate, _⟩ := State.slotOffered_frame n p pgood hsleep levels s
  obtain ⟨_, _, hclimate', _⟩ := State.slotJudged_frame n p pgood hsleep levels s
  obtain ⟨_, _, _, hfreed⟩ := State.slotSampled_samples n p pgood hsleep levels s
  have hcounted := State.slotCounted_climate n s
  have hheaters := hkeeps.heaters
  have hzones := hkeeps.zones z
  rw [hclimate.trans hclimate'] at hheaters hzones
  rw [hfreed.heaters, hcounted] at hheaters
  rw [hfreed.zone z, hcounted] at hzones
  refine ⟨?_, ?_, ?_, ?_⟩
  · rw [hheaters]
    dsimp only
    split
    · rfl
    · exact tab_get _ z
  · rw [hzones]
  · rw [hzones]
  · rw [hzones]

/-- The header shows the slot count. -/
theorem State.slotWork_header (hwf : s.xmem.wf = true) :
    (s.slotWork n p pgood hsleep levels).xmem.shows 0x08 (le32 n.toNat) := by
  have hcounted := State.slotCounted_xmem n s
  have hshows : (s.slotCounted n).xmem.shows 0x08 (le32 n.toNat) := by
    rw [hcounted]
    exact Exchange.shows_partWrite hwf _ _ (by simp [le32, memorySize])
  have hwf0 : (s.slotCounted n).xmem.wf = true := by
    rw [hcounted]
    exact Exchange.wf_partWrite hwf _ _
  obtain ⟨_, _, _, _, _, _, _, _, _, _, hxmem⟩ := State.slotOffered_frame n p pgood hsleep levels s
  have hpower := (State.samplePower_writes n p pgood hsleep (s.slotCounted n)).mono (rs := aboveCount) (by decide)
  have hinputs := (State.sampleInputs_writes n p levels (s.slotPowered n p pgood hsleep)).mono (rs := aboveCount) (by decide)
  have hjudged := (State.judgeAtSlot_writes n p (s.slotSampled n p pgood hsleep levels)).mono (rs := aboveCount) (by decide)
  have hshown := (State.publishWatchdog_writes n (s.slotJudged n p pgood hsleep levels)).mono (rs := aboveCount) (by decide)
  rw [← hxmem] at hshown
  have hall := (((hpower.trans hinputs).trans hjudged).trans hshown).trans
    (State.slotWork_slipKeeps s n p pgood hsleep levels).above
  refine hshows.of_writes hwf0 hall (by simp [le32, memorySize]) fun i hi => ?_
  have hi' : i < 4 := hi
  simp only [aboveCount, outside_cons, outside_nil, and_true]
  omega

/-- Each input record moves as R89 states. -/
theorem State.slotWork_record (k : Fin 4) :
    let old := s.rail.inputs[k]
    let level := levels.getLsbD k.val
    let new := (s.slotWork n p pgood hsleep levels).rail.inputs[k]
    new.lastSample = some level ∧
      new.agree = (if old.lastSample = some level then min 2 (old.agree + 1) else 0) ∧
      new.taken = (if new.agree = 2 then some level else old.taken) := by
  have hinputs := (State.slotWork_samples (s := s) (n := n) (p := p) (pgood := pgood) (hsleep := hsleep) (levels := levels)).1
  dsimp only
  rw [hinputs, sampledInputs_get, if_pos (List.mem_finRange k)]
  exact ⟨rfl, rfl, rfl⟩

/-- The keypad controller before a slip is chosen. -/
theorem State.slotOffered_keypad (s : State) (n : SlotCount) (p : Image) (pgood hsleep : Bool) (levels : BitVec 4) :
    let u := s.slotOffered n p pgood hsleep levels
    u.keypad = { s.keypad with deferred := u.keypad.deferred, scan := u.keypad.scan } ∧
      (n.toNat % 64 ≠ 0 → s.scanDecided p n s.keypad.edgeSet u) ∧
      (n.toNat % 64 = 0 → u.keypad.deferred = s.keypad.deferred ∧ u.keypad.scan = s.keypad.scan) := by
  have hworked : (s.slotWorked n p pgood hsleep levels).keypad = s.keypad := by
    obtain ⟨_, _, _, _, _, hkeypad, _⟩ := State.slotJudged_frame n p pgood hsleep levels s
    rw [State.slotWorked_judged, (State.publishWatchdog_frame n _).2.2.2.2.2.2.1, hkeypad]
  dsimp only
  unfold State.slotOffered State.slotDecided
  generalize s.slotWorked n p pgood hsleep levels = w at *
  by_cases hzero : n.toNat % 64 = 0
  · rw [if_pos hzero, (State.clearServed_frame w).2.2.2.2.2.2.1, hworked]
    exact ⟨rfl, fun h => absurd hzero h, fun _ => ⟨rfl, rfl⟩⟩
  · have hdecided := State.decideScan_decided (u := s) (n := n) (p := p) hworked
    have hkept := State.decideScan_keypad w n p (n.toNat % 64)
    have hclear : (w.decideScan n p (n.toNat % 64)).clearServed.keypad = (w.decideScan n p (n.toNat % 64)).keypad := rfl
    rw [if_neg hzero]
    refine ⟨?_, fun _ => ?_, fun h => absurd h hzero⟩
    · rw [hclear, hkept, hworked]
    · unfold State.scanDecided at hdecided ⊢
      rw [hclear]
      exact hdecided

/-- The scan decision stands through a slip. -/
theorem State.slotWork_scan :
    let t := s.slotWork n p pgood hsleep levels
    (n.toNat % 64 ≠ 0 → s.scanDecided p n s.keypad.edgeSet t) ∧
      (n.toNat % 64 = 0 → t.keypad.deferred = s.keypad.deferred ∧ t.keypad.scan = s.keypad.scan) := by
  obtain ⟨_, hdecided, hslot0⟩ := State.slotOffered_keypad s n p pgood hsleep levels
  have hkeeps := State.slotWork_slipKeeps s n p pgood hsleep levels
  dsimp only
  unfold State.scanDecided at hdecided ⊢
  rw [hkeeps.deferred, hkeeps.scan]
  exact ⟨hdecided, hslot0⟩

/-! ### A rail that is off -/

/-- With the rail off in a state that judges no gate, no input changed and nothing posted, the rest stands. -/
theorem State.slotWork_off (hwf : s.xmem.wf = true)
    (hoff : s.rail.state = .off ∨ s.rail.state = .cooldown ∨ s.rail.state = .lockout)
    (hnone : s.nonePosted) (hsteady : s.inputsSteady p (s.slotWork n p pgood hsleep levels)) :
    let t := s.slotWork n p pgood hsleep levels
    t =
        { s with
          time := t.time, sense := t.sense
          climate := { s.climate with heaters := t.climate.heaters }
          rail := { s.rail with pgood := pgood, hsleep := hsleep, inputs := t.rail.inputs }
          keypad := { s.keypad with deferred := t.keypad.deferred, scan := t.keypad.scan }
          engine := { s.engine with served := false }
          xmem := t.xmem } ∧
      s.xmem.partWrote [(0x08, 4), (0x1A, 1), (0x0B0, 2)] 0 t.xmem := by
  have hison : s.rail.state.isOn = false := by obtain h | h | h := hoff <;> rw [h] <;> rfl
  have hstate : s.rail.state ≠ .warming := by obtain h | h | h := hoff <;> rw [h] <;> decide
  obtain ⟨_, hrail0, hmon0, _⟩ := State.slotCounted_frame n s
  have hclimate0 := State.slotCounted_climate n s
  have hxmem0 := State.slotCounted_xmem n s
  have hpowered : s.slotPowered n p pgood hsleep = (s.slotCounted n).powerSampled pgood hsleep :=
    State.samplePower_off n p pgood hsleep (by rw [hrail0]; exact hison)
  have hrail1 := State.powerSampled_rail pgood hsleep s hrail0
  have hkept := State.slotWork_of_nonePosted (n := n) (p := p) (pgood := pgood) (hsleep := hsleep) (levels := levels) hwf hnone
  have hjudged := State.slotJudged_frame n p pgood hsleep levels s
  obtain ⟨hrail, hmon, hclimate, hxmem⟩ := State.slotWork_of_steady hwf hnone hsteady (by rw [hpowered, hrail1]; exact hstate)
  have huntaken := State.slotWork_untaken (n := n) (p := p) (pgood := pgood) (hsleep := hsleep) (levels := levels) hwf hnone
  have hkeypad := (State.slotOffered_keypad s n p pgood hsleep levels).1
  rw [← huntaken] at hkeypad
  obtain ⟨_, _, _, hair, _, _, hstore, hsupply, hfresh, hpending, hengine, _⟩ := hkept
  obtain ⟨_, _, _, hair', _, _, _, hstore', hsupply', hfresh', hpending'⟩ := hjudged
  rw [hpowered] at hrail hmon hclimate hxmem
  rw [hrail1] at hrail
  have hclimate1 : ((s.slotCounted n).powerSampled pgood hsleep).climate = (s.slotCounted n).climate := rfl
  have hmon1 : ((s.slotCounted n).powerSampled pgood hsleep).mon = (s.slotCounted n).mon := rfl
  have hxmem1 : ((s.slotCounted n).powerSampled pgood hsleep).xmem = (s.slotCounted n).xmem := rfl
  have hwrites := State.publishWatchdog_writes n ((s.slotCounted n).powerSampled pgood hsleep)
  have hflags := State.publishWatchdog_flags n ((s.slotCounted n).powerSampled pgood hsleep)
  rw [← hxmem, hxmem1, hxmem0] at hwrites hflags
  refine ⟨State.ext_blocks rfl rfl ?_ (hair.trans hair') hrail (hmon.trans (hmon1.trans hmon0)) hkeypad rfl hengine
    (hstore.trans hstore') (hsupply.trans hsupply') (hfresh.trans hfresh') (hpending.trans hpending'), ?_⟩
  · rw [hclimate, hclimate1, hclimate0]
  · have hcount : s.xmem.writes [(0x08, 4)] (s.xmem.partWrite 0x08 (le32 n.toNat)) :=
      Exchange.writes_partWrite (by simp [rangeWithin, le32]) _
    exact (hcount.andThen hwrites (by decide) (by decide)).partWrote hwf (by simpa [Exchange.raised] using hflags)

/-! ### The gate in WARMING -/

/-- With no input changed, a slot start in WARMING but the entry's own judges the gate (R71). -/
theorem State.slotWork_judged (hwf : s.xmem.wf = true) (hwarming : s.rail.state = .warming) (hentry : s.rail.judgedAt ≠ some n)
    (hsteady : s.inputsSteady p (s.slotWork n p pgood hsleep levels)) :
    s.gateJudged p (min 460800 (s.rail.warmingAge + 1)) (s.slotWork n p pgood hsleep levels) := by
  obtain ⟨_, hrail0, _⟩ := State.slotCounted_frame n s
  have hsense0 := State.slotCounted_sense n s
  have hpowered : s.slotPowered n p pgood hsleep = (s.slotCounted n).powerSampled pgood hsleep :=
    State.samplePower_off n p pgood hsleep (by rw [hrail0, hwarming]; rfl)
  have hrail1 := State.powerSampled_rail pgood hsleep s hrail0
  have htemp : ((s.slotCounted n).powerSampled pgood hsleep).temp = s.temp := by
    funext k
    have hsense1 : ((s.slotCounted n).powerSampled pgood hsleep).sense = (s.slotCounted n).sense := rfl
    simp only [State.temp, hsense1, hsense0]
  have hsampled := State.slotSampled_steady hsteady
  have hwfp := ((State.slotPowered_writes s n p pgood hsleep) hwf).wf
  have hinputs := (State.slotWork_samples (s := s) (n := n) (p := p) (pgood := pgood) (hsleep := hsleep) (levels := levels)).1
  have hbeside := State.slotWork_beside (s := s) (n := n) (p := p) (pgood := pgood) (hsleep := hsleep) (levels := levels)
  rw [hpowered] at hsampled hwfp
  unfold State.slotJudged at hbeside
  rw [hsampled] at hbeside
  generalize s.slotWork n p pgood hsleep levels = t at *
  generalize (s.slotCounted n).powerSampled pgood hsleep = v at *
  generalize hI : sampledInputs levels (List.finRange 4) s.rail.inputs = inputs at *
  have hrail2 := State.withInputs_rail v inputs
  rw [hrail1] at hrail2
  have hwf2 : (v.withInputs inputs).xmem.wf = true := hwfp
  have htemp2 : (v.withInputs inputs).temp = s.temp := htemp
  generalize v.withInputs inputs = w at *
  have hstate2 : w.rail.state = .warming := by rw [hrail2]; exact hwarming
  have hjudged := State.judgeAtSlot_judges n p w hstate2 (by rw [hrail2]; exact hentry)
  have hstays : (w.judgeAtSlot n p).rail.state ≠ .running := by
    rw [(State.judgeAtSlot_samples n p _).2.2.2, hstate2]
    decide
  obtain ⟨htrail, _, _, hwrites⟩ := hbeside hstays
  have hwfj := (State.judgeAtSlot_writes n p w hwf2).wf
  have hage : w.rail.warmingAge = s.rail.warmingAge := by rw [hrail2]
  rw [hage] at hjudged
  rw [hjudged] at htrail hwrites hwfj
  have hunjudged : (w.mapRail fun r => { r with judgedAt := none }).rail = { w.rail with judgedAt := none } := rfl
  have htemp3 : (w.mapRail fun r => { r with judgedAt := none }).temp = s.temp := htemp2
  have hwf3 : (w.mapRail fun r => { r with judgedAt := none }).xmem.wf = true := hwf2
  generalize (w.mapRail fun r => { r with judgedAt := none }) = u at *
  have hshown := State.judgeGate_waitShown hwf3 p (min 460800 (s.rail.warmingAge + 1))
  have hreason : t.rail.waitReason = (u.judgeGate p (min 460800 (s.rail.warmingAge + 1))).rail.waitReason := by rw [htrail]
  have hwait : t.shown .wait := State.shown_of_writes hwfj hshown hwrites (by decide)
    (congrArg (fun w : WaitReason => [w.code]) hreason)
  rw [hrail2] at hunjudged
  exact State.gateJudged_of_temps (u := u) htemp3 (by rw [hunjudged]) (by rw [hunjudged]) (by rw [hunjudged]; exact hwarming)
    (by rw [hinputs, hunjudged]) htrail hwait

end slot

end Sys2Proof.Machine
end

