-- ==== Sys2Proof/Proofs/SlotStartRail.lean ====
section
/-!
The statement on the slot start (R15): what the rail controller and the monitor do at it while the rail is on, the inputs that
change, and the assembly of all its parts.
-/

namespace Sys2Proof.Machine

section slot
variable {s : State} {n : SlotCount} {p : Image} {pgood hsleep : Bool} {levels : BitVec 4}

/-! ### STARTING (R76, R77) -/

/-- With no input changed, the reset hold is all that moves of a rail in STARTING whose PGOOD does not fail. -/
theorem State.slotWork_holds {hold : Option SlotCount} (hstarting : s.rail.state = .starting)
    (hpowered : s.slotPowered n p pgood hsleep = ((s.slotCounted n).powerSampled pgood hsleep).withHold hold)
    (hsteady : s.inputsSteady p (s.slotWork n p pgood hsleep levels)) :
    let t := s.slotWork n p pgood hsleep levels
    t.rail.state = .starting ∧ t.rail.resetHold = hold ∧ t.rail.pgoodLimit = s.rail.pgoodLimit ∧
      t.rail.railEn = s.rail.railEn ∧ t.rail.hrst = s.rail.hrst ∧ t.mon.records = s.mon.records := by
  obtain ⟨_, hrail0, hmon0, _⟩ := State.slotCounted_frame n s
  have hrail1 := State.powerSampled_rail pgood hsleep s hrail0
  have hmon1 : ((s.slotCounted n).powerSampled pgood hsleep).mon = s.mon := hmon0
  have hsampled := State.slotSampled_steady hsteady
  have hbeside := State.slotWork_beside (s := s) (n := n) (p := p) (pgood := pgood) (hsleep := hsleep) (levels := levels)
  unfold State.slotJudged at hbeside
  rw [hsampled, hpowered] at hbeside
  generalize s.slotWork n p pgood hsleep levels = t at *
  generalize (s.slotCounted n).powerSampled pgood hsleep = v at *
  generalize sampledInputs levels (List.finRange 4) s.rail.inputs = inputs at *
  have hrail2 : ((v.withHold hold).withInputs inputs).rail = { v.rail with resetHold := hold, inputs := inputs } := rfl
  have hmon2 : ((v.withHold hold).withInputs inputs).mon = s.mon := hmon1
  rw [hrail1] at hrail2
  have hstate2 : ((v.withHold hold).withInputs inputs).rail.state = .starting := by rw [hrail2]; exact hstarting
  rw [State.judgeAtSlot_of_not n p _ (by rw [hstate2]; decide)] at hbeside
  obtain ⟨htrail, _, hrecords, _⟩ := hbeside (by rw [hstate2]; decide)
  rw [hrail2] at htrail
  rw [hmon2] at hrecords
  dsimp only
  rw [htrail]
  exact ⟨hstarting, rfl, rfl, rfl, rfl, hrecords⟩

/-- STARTING watches PGOOD (R76, R77). -/
theorem State.slotWork_starting (hwf : s.xmem.wf = true) (hstarting : s.rail.state = .starting)
    (hsteady : s.inputsSteady p (s.slotWork n p pgood hsleep levels)) :
    s.startingWatched p pgood n (s.slotWork n p pgood hsleep levels) := by
  obtain ⟨_, hrail0, hmon0, _⟩ := State.slotCounted_frame n s
  have hcounted : (s.slotCounted n).xmem.wf = true := by
    rw [State.slotCounted_xmem]
    exact Exchange.wf_partWrite hwf _ _
  have hpowered : s.slotPowered n p pgood hsleep = _ :=
    State.samplePower_starting (s := s.slotCounted n) n p pgood hsleep (by rw [hrail0]; exact hstarting)
  rw [hrail0] at hpowered
  refine ⟨fun hgood => ?_, fun hgood hnot => ?_, fun hgood hhold hlimit => ?_⟩
  · rw [if_pos hgood] at hpowered
    exact State.slotWork_holds hstarting hpowered hsteady
  · have hfails : (s.rail.resetHold.isSome && s.rail.pgoodLimit.isNone) = false := by
      obtain hnone | hsome := hnot
      · rw [hnone]
        rfl
      · rw [← Option.not_isSome, hsome]
        exact Bool.and_false _
    rw [if_neg (by simp [hgood]), if_neg (by simp [hfails])] at hpowered
    exact State.slotWork_holds hstarting hpowered hsteady
  · rw [if_neg (by simp [hgood]), if_pos (by simp [hhold, hlimit])] at hpowered
    have hrail1 := State.powerSampled_rail pgood hsleep s hrail0
    have hmon1 : ((s.slotCounted n).powerSampled pgood hsleep).mon = s.mon := hmon0
    have hstate1 : ((s.slotCounted n).powerSampled pgood hsleep).rail.state = s.rail.state := by rw [hrail1]
    obtain ⟨hstate, hen, hrst, hbutton, hoff, hladder, hrecord⟩ :=
      State.slotWork_failed (levels := levels) hpowered hmon1 hstate1
    refine ⟨hstate, hen, hrst, hbutton, fun hlock => ⟨?_, hoff hlock⟩, hladder, hrecord,
      State.slotWork_recordsShown hpowered hcounted⟩
    have hsampled := State.slotSampled_steady hsteady
    have hrests := State.failure_rests (s := (s.slotCounted n).powerSampled pgood hsleep) n p .noPowergood
    rw [← hpowered] at hrests
    have hpending := (State.failure_offTime (s := (s.slotCounted n).powerSampled pgood hsleep) n p .noPowergood
      (by rw [hmon1, ladderLocks_eq]; exact hlock)).1
    rw [← hpowered] at hpending
    have hbeside := State.slotWork_beside (s := s) (n := n) (p := p) (pgood := pgood) (hsleep := hsleep) (levels := levels)
    unfold State.slotJudged at hbeside
    rw [hsampled] at hbeside
    generalize s.slotWork n p pgood hsleep levels = t at *
    generalize s.slotPowered n p pgood hsleep = v at *
    generalize sampledInputs levels (List.finRange 4) s.rail.inputs = inputs at *
    have hstate2 : (v.withInputs inputs).rail.state = .cooldown ∨ (v.withInputs inputs).rail.state = .lockout := hrests
    rw [State.judgeAtSlot_of_not n p _ (by obtain h | h := hstate2 <;> rw [h] <;> decide)] at hbeside
    obtain ⟨htrail, _⟩ := hbeside (by obtain h | h := hstate2 <;> rw [h] <;> decide)
    rw [htrail]
    exact hpending

/-! ### RUNNING, STOPPING and RESETTING with PGOOD asserted (R69, R85, R113) -/

theorem State.slotWork_running (hwf : s.xmem.wf = true) (hrunning : s.rail.state = .running) (hnone : s.nonePosted)
    (hsteady : s.inputsSteady p (s.slotWork n p true hsleep levels)) :
    let t := s.slotWork n p true hsleep levels
    t.rail = { s.rail with pgood := true, hsleep := hsleep, inputs := t.rail.inputs } ∧ s.hsleepTaken p hsleep n t := by
  obtain ⟨_, hrail0, hmon0, _⟩ := State.slotCounted_frame n s
  have hsense0 := State.slotCounted_sense n s
  have hrail1 := State.powerSampled_rail true hsleep s hrail0
  have hpowered : s.slotPowered n p true hsleep = _ :=
    State.samplePower_running (s := s.slotCounted n) n p hsleep (by rw [hrail0]; exact hrunning)
  rw [hrail0] at hpowered
  have hgrace : (s.slotCounted n).graceNow p = s.graceNow p := by simp only [State.graceNow, State.temp, hsense0]
  have hrail2 : (s.slotPowered n p true hsleep).rail = ((s.slotCounted n).powerSampled true hsleep).rail := by
    rw [hpowered]
    split
    · simp
    · rfl
  rw [hrail1] at hrail2
  obtain ⟨hrail, hmon, _⟩ := State.slotWork_of_steady hwf hnone hsteady (by rw [hrail2, hrunning]; decide)
  refine ⟨by rw [hrail, hrail2], State.hsleepTaken_of n p hsleep hmon0 hgrace ?_⟩
  rw [hmon, hpowered]

theorem State.slotWork_stopping (hwf : s.xmem.wf = true) (hstopping : s.rail.state = .stopping) (hnone : s.nonePosted)
    (hsteady : s.inputsSteady p (s.slotWork n p true hsleep levels)) :
    let t := s.slotWork n p true hsleep levels
    t.rail =
        { s.rail with
          pgood := true, hsleep := hsleep, inputs := t.rail.inputs
          sleepCount := if hsleep then min (Profile.sleepHold p * 64) (s.rail.sleepCount + 1) else 0 } ∧
      t.mon = s.mon := by
  obtain ⟨_, hrail0, hmon0, _⟩ := State.slotCounted_frame n s
  have hpowered : s.slotPowered n p true hsleep = (s.slotCounted n).stopSampled p true hsleep :=
    State.samplePower_stopping (s := s.slotCounted n) n p hsleep true (by rw [hrail0]; exact hstopping)
  have hrail1 := State.stopSampled_rail p hsleep true hrail0
  have hmon1 : ((s.slotCounted n).stopSampled p true hsleep).mon = s.mon := hmon0
  obtain ⟨hrail, hmon, _⟩ := State.slotWork_of_steady hwf hnone hsteady (by rw [hpowered, hrail1, hstopping]; decide)
  rw [hpowered, hrail1] at hrail
  rw [hpowered, hmon1] at hmon
  exact ⟨hrail, hmon⟩

theorem State.slotWork_resetting (hwf : s.xmem.wf = true) (hresetting : s.rail.state = .resetting) (hnone : s.nonePosted)
    (hsteady : s.inputsSteady p (s.slotWork n p true hsleep levels)) :
    let t := s.slotWork n p true hsleep levels
    t.rail = { s.rail with pgood := true, hsleep := hsleep, inputs := t.rail.inputs } ∧ t.mon = s.mon := by
  obtain ⟨_, hrail0, hmon0, _⟩ := State.slotCounted_frame n s
  have hpowered : s.slotPowered n p true hsleep = (s.slotCounted n).powerSampled true hsleep :=
    State.samplePower_resetting (s := s.slotCounted n) n p hsleep (by rw [hrail0]; exact hresetting)
  have hrail1 := State.powerSampled_rail true hsleep s hrail0
  have hmon1 : ((s.slotCounted n).powerSampled true hsleep).mon = s.mon := hmon0
  obtain ⟨hrail, hmon, _⟩ := State.slotWork_of_steady hwf hnone hsteady (by rw [hpowered, hrail1, hresetting]; decide)
  rw [hpowered, hrail1] at hrail
  rw [hpowered, hmon1] at hmon
  exact ⟨hrail, hmon⟩

/-! ### One input changes (R90, R91) -/

theorem State.inputsByte_congr {u t : State} (h : ∀ j : Fin 4, u.inputActive p j = t.inputActive p j) :
    u.inputsByte p = t.inputsByte p := by
  unfold State.inputsByte
  rw [h 0, h 1, h 2, h 3]

/-- The state in which the input acts, from the sample of the power inputs. -/
theorem State.beforeRoute_of {v t : State} {w : Vector InputRec 4} (hwf : s.xmem.wf = true) (hv : (s.slotCounted n).powerKeeps v)
    (hactive : ∀ j : Fin 4, w[j].active p j = t.inputActive p j) :
    s.beforeRoute p ((v.withInputs w).publishInputs p) t := by
  obtain ⟨_, hrail0, hmon0, _⟩ := State.slotCounted_frame n s
  have hxmem0 := State.slotCounted_xmem n s
  have hwf0 : (s.slotCounted n).xmem.wf = true := by
    rw [hxmem0]
    exact Exchange.wf_partWrite hwf _ _
  have hsummary0 : (s.slotCounted n).xmem.summary = s.xmem.summary := by
    rw [hxmem0]
    simp
  obtain ⟨hrail, hrecords, hladder, hexpired, ⟨hsummary, _⟩, hwrites⟩ := hv
  rw [hrail0] at hrail
  rw [hmon0] at hrecords hladder hexpired
  have hwfv := (hwrites hwf0).wf
  have hbyte : (v.withInputs w).inputsByte p = t.inputsByte p := State.inputsByte_congr hactive
  have hx : ((v.withInputs w).publishInputs p).xmem = v.xmem.partWrite 0x0AE [t.inputsByte p] := by
    rw [← hbyte]
    rfl
  have hr : ((v.withInputs w).publishInputs p).rail = { v.rail with inputs := w } := rfl
  have hshows : (v.xmem.partWrite 0x0AE [t.inputsByte p]).shows 0x0AE [t.inputsByte p] :=
    Exchange.shows_partWrite hwfv _ _ (by simp [memorySize])
  refine ⟨?_, hrecords, hladder, hexpired, ?_, ?_, ?_⟩
  · rw [hr, hrail]
  · rw [hx, Exchange.partWrite_summary, hsummary, hsummary0]
    exact BitVec.or_zero
  · rw [hx]
    exact Exchange.wf_partWrite hwfv _ _
  · rw [hx]
    exact hshows 0 Nat.one_pos

/-- Input `k` alone has changed, and its route has acted on it. -/
theorem State.slotWork_route {k : Fin 4} (hwf : s.xmem.wf = true) (hpower : pgood = true ∨ s.rail.state.isOn = false)
    (hnone : s.nonePosted) (hchanged : (s.slotWork n p pgood hsleep levels).inputActive p k ≠ s.inputActive p k)
    (hothers : ∀ j : Fin 4, j ≠ k → (s.slotWork n p pgood hsleep levels).inputActive p j = s.inputActive p j) :
    s.routeTaken p k n (s.slotWork n p pgood hsleep levels) := by
  have hrail0 := (State.slotCounted_frame n s).2.1
  have hkeeps : (s.slotCounted n).powerKeeps (s.slotPowered n p pgood hsleep) :=
    State.samplePower_powerKeeps n p pgood hsleep (by rw [hrail0]; exact hpower)
  obtain ⟨w, hactive, hsampled⟩ := State.slotSampled_single (n := n) (pgood := pgood) (hsleep := hsleep) hothers
  obtain ⟨_, _, _, _, hrail, hmon, _, _, _, _, _, hx⟩ :=
    State.slotWork_of_nonePosted (n := n) (p := p) (pgood := pgood) (hsleep := hsleep) (levels := levels) hwf hnone
  unfold State.slotJudged at hrail hmon hx
  rw [hsampled] at hrail hmon hx
  generalize s.slotWork n p pgood hsleep levels = t at *
  generalize s.slotPowered n p pgood hsleep = v at *
  have hbefore := State.beforeRoute_of hwf hkeeps hactive
  have hends := State.slotEnds_of _ hrail hmon hx
  have hnow : (v.withInputs w).inputActive p k = t.inputActive p k := hactive k
  unfold State.inputActs at hends
  rw [hnow] at hends
  cases hk : t.inputActive p k
  · have hwas : s.inputActive p k = true := by
      rw [hk] at hchanged
      simpa using hchanged.symm
    rw [hk, hwas] at hends
    exact State.routeTaken_of_fall hbefore hends hk
  · have hwas : s.inputActive p k = false := by
      rw [hk] at hchanged
      simpa using hchanged.symm
    rw [hk, hwas] at hends
    exact State.routeTaken_of_rise hbefore hends hk

end slot

end Sys2Proof.Machine

namespace Sys2Proof.Proofs

open Sys2Proof.Machine

/-- Settles O5: each part of the work of a slot start is a lemma of its own, and the slip of the slot leaves it. -/
theorem slotStartCountsAndSamples : Obligations.SlotStartCountsAndSamples := by
  intro s p pgood hsleep levels hp hwf
  obtain ⟨hcount, hstarted⟩ := State.slotCounted_time s.upcoming s
  obtain ⟨htime, hsense, hsupply⟩ :=
    State.slotWork_time (s := s) (n := s.upcoming) (p := p) (pgood := pgood) (hsleep := hsleep) (levels := levels)
  obtain ⟨_, hpgood, hhsleep⟩ :=
    State.slotWork_samples (s := s) (n := s.upcoming) (p := p) (pgood := pgood) (hsleep := hsleep) (levels := levels)
  obtain ⟨hdecided, hslot0⟩ :=
    State.slotWork_scan (s := s) (n := s.upcoming) (p := p) (pgood := pgood) (hsleep := hsleep) (levels := levels)
  refine ⟨_, exec_slotStart hp pgood hsleep levels, ?_, ?_, State.slotWork_header hwf, hpgood, hhsleep,
    State.slotWork_watched hwf, State.slotWork_record, State.slotWork_climate, ?_, hsupply,
    fun hoff hnone hsteady => State.slotWork_off hwf hoff hnone hsteady, hdecided, hslot0,
    fun hwarming hentry hsteady => State.slotWork_judged hwf hwarming hentry hsteady,
    fun hstarting hsteady => State.slotWork_starting hwf hstarting hsteady, fun hrunning hgood hsteady hnone => ?_,
    fun k hpower hnone hchanged hothers => State.slotWork_route hwf hpower hnone hchanged hothers,
    fun hstopping hgood hsteady hnone => ?_, fun hresetting hgood hsteady hnone => ?_⟩
  · rw [htime, hcount]
  · rw [htime, hstarted]
  · rw [hsense, State.slotCounted_sense]
  · subst hgood
    exact State.slotWork_running hwf hrunning hnone hsteady
  · subst hgood
    exact State.slotWork_stopping hwf hstopping hnone hsteady
  · subst hgood
    exact State.slotWork_resetting hwf hresetting hnone hsteady

end Sys2Proof.Proofs
end

