-- ==== Sys2Proof/Proofs/ProfileLoad.lean ====
section
/-!
The statement on the profile load (R176): what each block begins with, and the entry into WARMING with autostart.
-/

namespace Sys2Proof.Machine

section load
variable (s : State)

/-- The flags and the notice of the load touch the store, the supply and the exchange memory alone. -/
theorem State.loadNoticed_blocks :
    s.loadNoticed.air = s.air ∧ s.loadNoticed.keypad = s.keypad ∧
      s.loadNoticed.store.serviceRecord = s.store.serviceRecord := by
  unfold State.loadNoticed
  split <;> exact ⟨rfl, rfl, rfl⟩

theorem State.loaded_air :
    s.loaded.air =
      { s.air with
        filterReference := serviceReference s.store.serviceRecord
        clogIndex := if serviceReference s.store.serviceRecord = 0 then 0xFFFF else 100 } := by
  obtain ⟨hair, _, hrecord⟩ := State.loadNoticed_blocks s
  have hreference (rref : Nat) : (s.loadNoticed.loadReference rref).air =
      { s.loadNoticed.air with filterReference := rref, clogIndex := if rref = 0 then 0xFFFF else 100 } := rfl
  rw [State.loaded_eq, (State.beginKeypad_frame _ _).2.2.2.1, (State.beginMonitor_frame _ _).2.2.2.1, hreference, hair,
    hrecord]

/-- Keys that are not enabled become IDLE (R126). -/
theorem State.loaded_key (k : Fin 24) :
    s.loaded.keypad.keys[k] =
      if Profile.keyEnabled s.loadedImage k then s.keypad.keys[k] else { s.keypad.keys[k] with state := .idle } := by
  have hset (u : State) (f : Keypad → Keypad) : (u.mapKeypad f).publishFog.keypad = f u.keypad := by simp
  have hbefore : ((s.loadNoticed.loadReference (serviceReference s.loadNoticed.store.serviceRecord)).beginMonitor
      s.loadedImage).keypad = s.keypad := (State.loadNoticed_blocks s).2.1
  rw [State.loaded_eq]
  unfold State.beginKeypad
  rw [hset, hbefore]
  exact tab_get _ k

/-- The flags of the load, and the cause that it raises. -/
theorem State.loadNoticed_header (hwf : s.xmem.wf = true) :
    s.loadNoticed.xmem.wf = true ∧
      s.loadNoticed.xmem.peek 0x04 = (if validImage s.store.storedImage then 1 else 3) ∧
      s.loadNoticed.xmem.summary =
        (if validImage s.store.storedImage then s.xmem.summary else s.xmem.summary ||| Cause.profileDefaulted.bit) := by
  have hx : s.loadFlagged.xmem = s.xmem.partWrite 0x04 [headerFlags true (!validImage s.store.storedImage)] := rfl
  have hwfx : s.loadFlagged.xmem.wf = true := by
    rw [hx]
    exact Exchange.wf_partWrite hwf _ _
  have hpeek : s.loadFlagged.xmem.peek 0x04 = headerFlags true (!validImage s.store.storedImage) := by
    have hshows := Exchange.shows_partWrite hwf 0x04 [headerFlags true (!validImage s.store.storedImage)] (by simp [memorySize])
    rw [hx]
    exact hshows 0 Nat.one_pos
  unfold State.loadNoticed
  cases hvalid : validImage s.store.storedImage
  · rw [hvalid] at hpeek
    have hraise := (State.raise_writes .profileDefaulted s.loadFlagged) hwfx
    refine ⟨hraise.wf, ?_, ?_⟩
    · exact (hraise.kept _ (by decide) (by decide)).trans hpeek
    · simp [hx]
  · rw [hvalid] at hpeek
    exact ⟨hwfx, hpeek, by simp [hx]⟩

/-- The header after the load, before the rail begins. -/
theorem State.loaded_header (hwf : s.xmem.wf = true) :
    s.loaded.xmem.peek 0x04 = (if validImage s.store.storedImage then 1 else 3) ∧
      s.loaded.xmem.summary =
        (if validImage s.store.storedImage then s.xmem.summary else s.xmem.summary ||| Cause.profileDefaulted.bit) := by
  obtain ⟨hwfn, hpeek, hsummary⟩ := State.loadNoticed_header s hwf
  have hbefore : ((s.loadNoticed.loadReference (serviceReference s.loadNoticed.store.serviceRecord)).beginMonitor
      s.loadedImage).xmem = s.loadNoticed.xmem := rfl
  have hwrites := State.beginKeypad_writes s.loadedImage
    ((s.loadNoticed.loadReference (serviceReference s.loadNoticed.store.serviceRecord)).beginMonitor s.loadedImage)
  have hflags : s.loaded.xmem.summary = s.loadNoticed.xmem.summary := by
    rw [State.loaded_eq]
    simp [State.beginKeypad, State.publishFog]
  rw [← State.loaded_eq, hbefore] at hwrites
  exact ⟨((hwrites hwfn).kept _ (by decide) (by decide)).trans hpeek, hflags.trans hsummary⟩

end load

/-! ### The rail begins (R70, R71) -/

section rail
variable {u : State} {p : Image}

theorem State.beginRail_of_manual (h : Profile.autostart p = false) : u.beginRail p = u := by
  unfold State.beginRail
  rw [if_neg (by rw [h]; exact Bool.false_ne_true)]

theorem State.beginRail_of_autostart (h : Profile.autostart p = true) :
    u.beginRail p = (u.enterWarming u.time.slotCount p).mapRail fun r => { r with judgedAt := none } := by
  unfold State.beginRail
  rw [if_pos h]

theorem State.beginRail_state (hoff : u.rail.state = .off) :
    (u.beginRail p).rail.state = if Profile.autostart p then .warming else .off := by
  cases ha : Profile.autostart p
  · rw [State.beginRail_of_manual ha, hoff]
    rfl
  · obtain ⟨counts, isOpen, wait, hrail⟩ := State.enterWarming_rail u.time.slotCount p u
    rw [State.beginRail_of_autostart ha, State.mapRail_rail, hrail]
    rfl

/-- The entry into WARMING from OFF leaves the monitor and the causes. -/
theorem State.beginRail_mon (hoff : u.rail.state = .off) :
    (u.beginRail p).mon = u.mon ∧ (u.beginRail p).xmem.summary = u.xmem.summary := by
  cases ha : Profile.autostart p
  · rw [State.beginRail_of_manual ha]
    exact ⟨rfl, rfl⟩
  · rw [State.beginRail_of_autostart ha]
    refine ⟨?_, by simp⟩
    rw [State.mapRail_mon, State.enterWarming_mon, hoff]
    exact Monitor.railChanged_of_steady rfl rfl u.mon

theorem State.beginRail_header (hwf : u.xmem.wf = true) :
    (u.beginRail p).xmem.peek 0x19 = if Profile.autostart p then 1 else u.xmem.peek 0x19 := by
  cases ha : Profile.autostart p
  · rw [State.beginRail_of_manual ha]
    rfl
  · have hpeek := (State.enterWarming_shown (s := u) u.time.slotCount p hwf (c := .rail) (.inl rfl)).byte rfl
    obtain ⟨counts, isOpen, wait, hrail⟩ := State.enterWarming_rail u.time.slotCount p u
    rw [hrail] at hpeek
    rw [State.beginRail_of_autostart ha, State.mapRail_xmem]
    exact hpeek

end rail

end Sys2Proof.Machine

namespace Sys2Proof.Proofs

open Sys2Proof.Machine

/-- Settles O4: the flags, then what each block begins with, then the rail. -/
theorem profileLoadStartsThePart : Obligations.ProfileLoadStartsThePart := by
  intro s p valid hnone hwf hoff hvalid hp
  have himage : s.loadedImage = p := by rw [hp, hvalid]; rfl
  have hexec : exec .profileLoad s = .next s.loadProfile := by
    show execProfileLoad s = _
    rw [execProfileLoad, hnone]
    rfl
  have hstore := State.loaded_store s
  have hair := State.loaded_air s
  have hmon := State.loaded_mon s
  have hkeys := State.loaded_key s
  obtain ⟨hflags, hsummary⟩ := State.loaded_header s hwf
  obtain ⟨htime, hsense, _, hrail, hengine, _⟩ := State.loaded_frame s
  have hwrote := (State.loaded_writes s) hwf
  rw [himage] at hstore hmon hkeys
  rw [State.loadProfile_eq, himage] at hexec
  rw [← hvalid] at hstore hflags hsummary
  obtain ⟨htime', hsense', hair', hkeypad', hengine', hstore', _⟩ :=
    State.beginRail_frame p (s.loaded.mapX fun x => { x with ready := true })
  have hready : (s.loaded.mapX fun x => { x with ready := true }).xmem = { s.loaded.xmem with ready := true } := rfl
  have hpeek (a : Nat) : (s.loaded.mapX fun x => { x with ready := true }).xmem.peek a = s.loaded.xmem.peek a := rfl
  have hrail2 : (s.loaded.mapX fun x => { x with ready := true }).rail = s.rail := hrail
  have hmon2 : (s.loaded.mapX fun x => { x with ready := true }).mon = s.loaded.mon := rfl
  have hwf2 : (s.loaded.mapX fun x => { x with ready := true }).xmem.wf = true := hwrote.wf
  have htime2 : (s.loaded.mapX fun x => { x with ready := true }).time = s.loaded.time := rfl
  have hsense2 : (s.loaded.mapX fun x => { x with ready := true }).sense = s.loaded.sense := rfl
  have hair2 : (s.loaded.mapX fun x => { x with ready := true }).air = s.loaded.air := rfl
  have hkeypad2 : (s.loaded.mapX fun x => { x with ready := true }).keypad = s.loaded.keypad := rfl
  have hengine2 : (s.loaded.mapX fun x => { x with ready := true }).engine = s.loaded.engine := rfl
  have hstore2 : (s.loaded.mapX fun x => { x with ready := true }).store = s.loaded.store := rfl
  generalize (s.loaded.mapX fun x => { x with ready := true }) = u at *
  have hoff2 : u.rail.state = .off := by rw [hrail2]; exact hoff
  have hwrote2 := (State.beginRail_writes p u) hwf2
  obtain ⟨hmon', hsummary'⟩ := State.beginRail_mon (p := p) hoff2
  refine ⟨_, hexec, ?_, ?_, ?_, ?_, ?_, ?_, fun k => ?_, State.beginRail_state hoff2, fun ha => ?_, ?_, fun a ha hout => ?_,
    ?_, ?_, ?_, validImage_iff _⟩
  · rw [hstore', hstore2, hstore]
  · rw [hwrote2.ready, hready]
  · rw [hwrote2.kept _ (by decide) (by decide), hpeek, hflags]
  · rw [hsummary', hready]
    exact hsummary
  · rw [hair', hair2, hair]
    rfl
  · rw [hmon', hmon2, hmon]
  · rw [hkeypad', hkeypad2]
    exact hkeys k
  · rw [State.beginRail_of_manual ha, hrail2]
  · rw [State.beginRail_header hwf2, hpeek, hwrote.kept 0x19 (by decide) (by decide)]
  · simp only [outside_cons, outside_nil, and_true] at hout
    rw [hwrote2.kept a ha, hpeek, hwrote.kept a ha]
    · simp only [outside_cons, outside_nil, and_true]
      omega
    · simp only [warmingBytes, outside_cons, outside_nil, and_true]
      omega
  · rw [htime', htime2, htime]
  · rw [hsense', hsense2, hsense]
  · rw [hengine', hengine2, hengine]

end Sys2Proof.Proofs
end

