-- ==== Sys2Proof/Proofs/BoundaryClimate.lean ====
section
/-!
SUPPORT. The climate controller's work at a boundary (R31): zone control, the host allowance, the allotment and the edge slots in
the words of the statements, and its figures on the live page.
-/

namespace Sys2Proof.Machine

/-! ### Publications one after another -/

section publications
variable {α : Type} {op : State → α → State} {addr : α → Nat} {bytes : α → List Byte} {P : State → Prop}

/-- Two runs of bytes have no address in common. -/
def runsApart (a : Nat) (bs : List Byte) (b : Nat) (cs : List Byte) : Prop := a + bs.length ≤ b ∨ b + cs.length ≤ a

/-- Bytes shown stay shown through part writes apart from them. -/
theorem shows_foldl_of_apart (hop : ∀ u x, P u → P (op u x) ∧ (op u x).xmem = u.xmem.partWrite (addr x) (bytes x))
    {a : Nat} {bs : List Byte} (hin : a + bs.length ≤ memorySize) (l : List α)
    (hapart : ∀ x ∈ l, runsApart a bs (addr x) (bytes x)) {u : State} (hu : P u) (hwf : u.xmem.wf = true)
    (h : u.xmem.shows a bs) : (l.foldl op u).xmem.shows a bs := by
  induction l generalizing u with
  | nil => exact h
  | cons x l ih =>
    obtain ⟨hP, hx⟩ := hop u x hu
    have hstep : (op u x).xmem.shows a bs := by
      rw [hx]
      refine h.of_writes hwf (rs := [(addr x, (bytes x).length)])
        (Exchange.writes_partWrite (by simp [rangeWithin]) _) hin fun i hi => ?_
      have happart := hapart x List.mem_cons_self
      unfold runsApart at happart
      simp only [outside_cons, outside_nil, and_true]
      omega
    refine ih (fun y hy => hapart y (List.mem_cons_of_mem _ hy)) hP ?_ hstep
    rw [hx]
    exact Exchange.wf_partWrite hwf _ _

/-- Each of several publications apart from one another is shown at the end. -/
theorem shows_foldl (hop : ∀ u x, P u → P (op u x) ∧ (op u x).xmem = u.xmem.partWrite (addr x) (bytes x))
    (hin : ∀ x, addr x + (bytes x).length ≤ memorySize) (l : List α)
    (hapart : l.Pairwise fun x y => runsApart (addr x) (bytes x) (addr y) (bytes y)) {u : State} (hu : P u)
    (hwf : u.xmem.wf = true) {x : α} (hx : x ∈ l) : (l.foldl op u).xmem.shows (addr x) (bytes x) := by
  induction l generalizing u with
  | nil => exact absurd hx List.not_mem_nil
  | cons y l ih =>
    obtain ⟨hP, hy⟩ := hop u y hu
    obtain ⟨hhead, htail⟩ := List.pairwise_cons.mp hapart
    have hwf' : (op u y).xmem.wf = true := by
      rw [hy]
      exact Exchange.wf_partWrite hwf _ _
    obtain rfl | hmem := List.mem_cons.mp hx
    · refine shows_foldl_of_apart hop (hin x) l (fun z hz => hhead z hz) hP hwf' ?_
      rw [hy]
      exact Exchange.shows_partWrite hwf _ _ (hin x)
    · exact ih htail hP hwf' hmem

end publications

/-! ### Zone control (R18, R19, R22, R24 to R26) -/

theorem selectedSetpoint_eq (p : Image) (r : RailState) (z : Fin 3) (override : Option Int) :
    selectedSetpoint p r z override =
      if r = .off ∨ r = .cooldown ∨ r = .lockout then Profile.keepSetpoint p z
      else if r = .warming then Profile.warmSetpoint p z
      else override.getD (Profile.runSetpoint p z) := by
  cases r <;> simp [selectedSetpoint]

theorem effectiveSetpoint_eq (p : Image) (z : Fin 3) (fog : Bool) (inlet : Option Int) (selected : Int) :
    effectiveSetpoint p z fog inlet selected =
      max (-400) (min 600
        (if z = 2 ∧ fog = true ∧ inlet.isSome then max selected (inlet.getD 0 + Profile.fogLift p) else selected)) := by
  unfold effectiveSetpoint
  dsimp only
  rw [clampInt_eq_max_min (by decide)]
  cases inlet with
  | none => simp
  | some t => by_cases h : z = 2 ∧ fog = true <;> simp [h]

theorem zoneError_eq (effective t : Int) : zoneError effective t = max (-1000) (min 1000 (effective - t)) :=
  clampInt_eq_max_min (by decide) _

theorem nextIntegrator_eq (p : Image) (z : Fin 3) (heldHigh : Bool) (e : Int) (i : Nat) :
    nextIntegrator p z heldHigh e i =
      if heldHigh ∧ 0 < e then i else (max 0 (min 16384 ((i : Int) + Profile.integralGain p z * e))).toNat := by
  rw [nextIntegrator, clampInt_eq_max_min (by decide)]

theorem zoneRequest_eq (p : Image) (z : Fin 3) (e : Int) (i : Nat) :
    zoneRequest p z e i =
      (max 0 (min (Profile.dutyCap p z : Int) ((Profile.proportionalGain p z * e * 16 + i) / 256))).toNat := by
  rw [zoneRequest, clampInt_eq_max_min (Int.natCast_nonneg _)]

/-- A zone record after zone control, field by field. -/
theorem ZoneRec.control_eq (p : Image) (z : Fin 3) (effective : Int) (temp : Option Int) (r : ZoneRec) :
    let valid := temp.isSome
    let e : Int := max (-1000) (min 1000 (effective - temp.getD 0))
    let integrator : Nat :=
      if Profile.zoneFitted p z ∧ valid then
        if r.heldHigh ∧ 0 < e then r.integrator
        else (max 0 (min 16384 ((r.integrator : Int) + Profile.integralGain p z * e))).toNat
      else 0
    let request : Nat :=
      if Profile.zoneFitted p z then
        if valid then
          (max 0 (min (Profile.dutyCap p z : Int) ((Profile.proportionalGain p z * e * 16 + integrator) / 256))).toNat
        else min (Profile.fallbackDuty p z) (Profile.dutyCap p z)
      else 0
    r.control p z effective temp = { r with effective := effective, integrator := integrator, request := request } := by
  unfold ZoneRec.control
  cases hfitted : Profile.zoneFitted p z
  · simp
  · cases temp with
    | none => simp
    | some t =>
      simp only [zoneError_eq, nextIntegrator_eq, zoneRequest_eq, Option.isSome_some, Option.getD_some, and_self, ↓reduceIte]

/-! ### The allotment (R32) -/

/-- The share of zone `z` of the slot-deciwatts `left`. -/
def zoneShare (p : Image) (request : Vector Nat 3) (z : Fin 3) (left : Nat) : Nat :=
  if Profile.zoneRating p z = 0 then 0 else min request[z] (left / Profile.zoneRating p z)

theorem zoneFitted_iff (p : Image) (z : Fin 3) : Profile.zoneFitted p z = true ↔ Profile.zoneRating p z ≠ 0 := by
  simp [Profile.zoneFitted]

theorem allot_cons {p : Image} {request grants : Vector Nat 3} {z : Fin 3} (zs : List (Fin 3)) (left : Nat)
    (h : grants[z] = 0) :
    allot p request (z :: zs) left grants =
      allot p request zs (left - Profile.zoneRating p z * zoneShare p request z left)
        (grants.set z (zoneShare p request z left)) := by
  rw [allot, zoneShare]
  by_cases hz : Profile.zoneRating p z = 0
  · have hset : grants.set z 0 = grants := by
      ext i hi
      rw [Vector.getElem_set]
      split
      · next heq => subst heq; exact h.symm
      · rfl
    rw [if_neg (by simp [zoneFitted_iff, hz]), if_pos hz, Nat.mul_zero, Nat.sub_zero, hset]
  · rw [if_pos ((zoneFitted_iff p z).mpr hz), if_neg hz]

theorem allot_of_notMem {p : Image} {request : Vector Nat 3} {z : Fin 3} (zs : List (Fin 3)) (hz : z ∉ zs) (left : Nat)
    (grants : Vector Nat 3) : (allot p request zs left grants)[z] = grants[z] := by
  induction zs generalizing left grants with
  | nil => rfl
  | cons y zs ih =>
    obtain ⟨hne, hmem⟩ := List.ne_and_not_mem_of_not_mem_cons hz
    rw [allot]
    split
    · rw [ih hmem]
      exact Vector.getElem_set_ne _ _ (fun h => hne (Fin.ext h.symm))
    · exact ih hmem _ _

/-- The grants of three zones in their priority order. -/
theorem grantsFor_shares {p : Image} {a b c : Fin 3} (ha : u8 p 0x080 = a.val) (hb : u8 p 0x081 = b.val)
    (hc : u8 p 0x082 = c.val) (hab : a ≠ b) (hac : a ≠ c) (hbc : b ≠ c) (request : Vector Nat 3) (available : Nat) :
    let left₁ := 64 * available
    let left₂ := left₁ - Profile.zoneRating p a * zoneShare p request a left₁
    let left₃ := left₂ - Profile.zoneRating p b * zoneShare p request b left₂
    let g := grantsFor p request available
    g[a] = zoneShare p request a left₁ ∧ g[b] = zoneShare p request b left₂ ∧ g[c] = zoneShare p request c left₃ := by
  have horder : Profile.priorityOrder p = [a, b, c] := by
    simp [Profile.priorityOrder, List.range_succ, ha, hb, hc]
  have hset (v : Vector Nat 3) (x y : Fin 3) (n : Nat) (h : x ≠ y) : (v.set x n)[y] = v[y] :=
    Vector.getElem_set_ne _ _ fun heq => h (Fin.ext heq)
  have hself (v : Vector Nat 3) (x : Fin 3) (n : Nat) : (v.set x n)[x] = n := Vector.getElem_set_self _
  have hzero (x : Fin 3) : (Vector.replicate 3 0)[x] = 0 := Vector.getElem_replicate _
  dsimp only
  rw [grantsFor, horder, Nat.mul_comm available 64, allot_cons _ _ (hzero a), allot_cons _ _ (by rw [hset _ _ _ _ hab, hzero]),
    allot_cons _ _ (by rw [hset _ _ _ _ hbc, hset _ _ _ _ hac, hzero]), allot, hself, hset _ _ _ _ hac.symm,
    hset _ _ _ _ hab.symm, hself, hset _ _ _ _ hbc.symm, hself]
  exact ⟨rfl, rfl, rfl⟩

/-- An unfitted zone is granted nothing. -/
theorem allot_unfitted {p : Image} {request : Vector Nat 3} {z : Fin 3} (hz : Profile.zoneFitted p z = false)
    (zs : List (Fin 3)) (left : Nat) (grants : Vector Nat 3) (h : grants[z] = 0) :
    (allot p request zs left grants)[z] = 0 := by
  induction zs generalizing left grants with
  | nil => exact h
  | cons y zs ih =>
    rw [allot]
    split
    · next hy =>
      refine ih _ _ ?_
      have hne : y ≠ z := fun heq => by simp [heq, hz] at hy
      rw [← h]
      exact Vector.getElem_set_ne _ _ fun heq => hne (Fin.ext heq)
    · exact ih _ _ h

/-! ### The climate controller after a boundary -/

section boundary
variable (now : SlotCount) (p : Image) (s : State)

/-- Zone `z` after zone control, with the grant and the held-high flag of the window before. -/
def State.zoneDemand (z : Fin 3) : ZoneRec :=
  let r := s.climate.zones[z]
  r.control p z
    (effectiveSetpoint p z s.keypad.fog (s.temp 0) (selectedSetpoint p s.rail.state z r.override))
    (s.temp (Profile.zoneSensor p z))

/-- A start is asked for. -/
def State.startAsked : Bool := s.rail.state = .warming ∧ s.rail.startRequest

/-- The host allowance that a boundary forms. -/
def State.boundaryAllowance : Nat :=
  hostAllowanceFor p s.rail.state (s.startAsked && reservationTest p (fanPower p s.air)) s.sense.railAverage

/-- The available heater power that a boundary forms. -/
def State.boundaryAvailable : Nat := availableFor p (s.boundaryAllowance p) (fanPower p s.air)

/-- The grants of the coming window. -/
def State.boundaryGrants : Vector Nat 3 :=
  grantsFor p (tab 3 fun z => (s.zoneDemand p z).request) (s.boundaryAvailable p)

/-- The climate controller's work before its figures are shown. -/
def State.allotmentMade : State :=
  s.mapClimate fun c =>
    { zones := tab 3 fun z =>
        { s.zoneDemand p z with
          grant := (s.boundaryGrants p)[z]
          heldHigh := heldHighFor p z (s.zoneDemand p z).request (s.boundaryGrants p)[z] }
      hostAllowance := s.boundaryAllowance p
      available := s.boundaryAvailable p
      heaters := tab 3 fun z => 0 < (s.boundaryGrants p)[z]
      answer := if s.startAsked then some (s.startAsked && reservationTest p (fanPower p s.air), now) else c.answer }

theorem State.climateBoundary_fst : (s.climateBoundary now p).1 = (s.allotmentMade now p).publishClimate := rfl

theorem State.climateBoundary_snd :
    (s.climateBoundary now p).2 = edgeSlots (tab 3 fun z => s.climate.zones[z].grant) (s.boundaryGrants p) := rfl

theorem State.climateBoundary_climate : (s.climateBoundary now p).1.climate = (s.allotmentMade now p).climate := by
  rw [State.climateBoundary_fst]
  exact (State.publishClimate_frame _).2.2.1

theorem State.allotmentMade_zone (z : Fin 3) :
    (s.allotmentMade now p).climate.zones[z] =
      { s.zoneDemand p z with
        grant := (s.boundaryGrants p)[z]
        heldHigh := heldHighFor p z (s.zoneDemand p z).request (s.boundaryGrants p)[z] } :=
  tab_get _ z

end boundary

/-! ### The figures on the live page (R38) -/

/-- A zone's entry on the live page. -/
def ZoneRec.pageBytes (r : ZoneRec) : List Byte := sle16 r.effective ++ [BitVec.ofNat 8 r.request, BitVec.ofNat 8 r.grant]

theorem ZoneRec.pageBytes_length (r : ZoneRec) : r.pageBytes.length = 4 := rfl

/-- Each zone's entry is shown once the zones are published. -/
theorem State.publishZones_shows {u : State} (hwf : u.xmem.wf = true) (z : Fin 3) :
    ((List.finRange 3).foldl State.publishZone u).xmem.shows (0x070 + 8 * z.val) u.climate.zones[z].pageBytes := by
  refine shows_foldl (op := State.publishZone) (addr := fun z => 0x070 + 8 * z.val)
    (bytes := fun z : Fin 3 => u.climate.zones[z].pageBytes) (P := fun v => v.climate = u.climate)
    (fun v y hv => ⟨by simpa using hv, ?_⟩) (fun y => ?_) _ ?_ rfl hwf (List.mem_finRange z)
  · rw [← hv]
    rfl
  · have := y.isLt
    simp only [ZoneRec.pageBytes_length, memorySize]
    omega
  · refine (List.nodup_finRange 3).imp fun {x y} hne => ?_
    have : x.val ≠ y.val := fun h => hne (Fin.ext h)
    simp only [runsApart, ZoneRec.pageBytes_length]
    omega

theorem State.publishZones_wf {u : State} (hwf : u.xmem.wf = true) :
    ((List.finRange 3).foldl State.publishZone u).xmem.wf = true :=
  foldl_induction (P := fun v : State => v.xmem.wf = true) (fun v z hv => (State.publishZone_writes v z hv).wf) _ _ hwf

/-- Every figure is shown once the climate controller has published. -/
theorem State.publishClimate_shows {u : State} (hwf : u.xmem.wf = true) :
    (∀ z : Fin 3, u.publishClimate.xmem.shows (0x070 + 8 * z.val) u.climate.zones[z].pageBytes) ∧
      u.publishClimate.xmem.shows 0x088 (le16 u.climate.available ++ le16 u.climate.hostAllowance) := by
  have hzones := State.publishZones_shows hwf
  have hvwf := State.publishZones_wf hwf
  have hclimate : ((List.finRange 3).foldl State.publishZone u).climate = u.climate :=
    foldl_induction (P := fun v : State => v.climate = u.climate) (fun v z hv => by simpa using hv) _ _ rfl
  unfold State.publishClimate
  generalize (List.finRange 3).foldl State.publishZone u = v at *
  dsimp only [State.mapX_climate, State.mapX_xmem]
  rw [hclimate]
  have hpair : v.xmem.writes [(0x088, 2), (0x08A, 2)]
      ((v.xmem.partWrite 0x088 (le16 u.climate.available)).partWrite 0x08A (le16 u.climate.hostAllowance)) :=
    (Exchange.writes_partWrite (by simp [rangeWithin]) _).trans (Exchange.writes_partWrite (by simp [rangeWithin]) _)
  refine ⟨fun z => (hzones z).of_writes hvwf hpair ?_ fun i hi => ?_, ?_⟩
  · simp only [ZoneRec.pageBytes_length, memorySize]
    omega
  · rw [ZoneRec.pageBytes_length] at hi
    simp only [outside_cons, outside_nil, and_true]
    omega
  · have hwf' := Exchange.wf_partWrite hvwf 0x088 (le16 u.climate.available)
    refine Exchange.shows_append.mpr ⟨?_, Exchange.shows_partWrite hwf' _ _ (by simp [le16, memorySize])⟩
    refine (Exchange.shows_partWrite hvwf 0x088 (le16 u.climate.available) (by simp [le16, memorySize])).of_writes hwf'
      (rs := [(0x08A, 2)]) (Exchange.writes_partWrite (by simp [rangeWithin]) _) (by simp [le16, memorySize]) fun i hi => ?_
    have hi2 : i < 2 := hi
    simp only [outside_cons, outside_nil, and_true]
    omega

/-! ### The boundary as a whole -/

/-- Zone control reads the zones, the sensors, the rail state and the fog state. -/
theorem State.zoneDemand_congr {u v : State} (hsense : v.sense = u.sense) (hclimate : v.climate = u.climate)
    (hrail : v.rail = u.rail) (hkeypad : v.keypad = u.keypad) (p : Image) (z : Fin 3) :
    v.zoneDemand p z = u.zoneDemand p z := by
  have htemp (k : Fin 6) : v.temp k = u.temp k := by rw [State.temp, State.temp, hsense]
  unfold State.zoneDemand
  rw [hclimate, hrail, hkeypad, htemp, htemp]

/-- What the blocks' work at a boundary leaves of each block. -/
structure State.boundaryBlocks (now : SlotCount) (p : Image) (s t : State) : Prop where
  time : t.time = s.time
  sense : t.sense = s.sense
  climate : t.climate = ((s.airBoundary now p).allotmentMade now p).climate
  air : t.air = (s.airBoundary now p).air
  rail : t.rail = s.rail
  mon : t.mon = s.mon
  xmem : t.xmem = ((s.airBoundary now p).allotmentMade now p).publishClimate.xmem
  engine : t.engine = (s.airBoundary now p).engine
  store : t.store = (s.airBoundary now p).store
  supplyLow : t.supplyLow = s.supplyLow
  fresh : t.fresh = s.fresh
  pending : t.pending = s.pending

theorem State.boundaryWorked_blocks (now : SlotCount) (p : Image) (s : State) :
    s.boundaryBlocks now p (s.boundaryWorked now p) := by
  unfold State.boundaryWorked
  have hclimate := State.climateBoundary_frame now p (s.airBoundary now p)
  have hfigures := State.climateBoundary_climate now p (s.airBoundary now p)
  have hmem : ((s.airBoundary now p).climateBoundary now p).1.xmem =
      ((s.airBoundary now p).allotmentMade now p).publishClimate.xmem := rfl
  generalize (s.airBoundary now p).climateBoundary now p = r at *
  constructor <;> simp [hclimate, hfigures, hmem]

/-- The boundary of this slot 0 is taken. -/
def State.boundaryMarked (s : State) : State := s.mapTime fun t => { t with boundaryTaken := true }

/-- A boundary with no commit armed is the blocks' work and then the engine's. -/
theorem exec_windowBoundary {s : State} {p : Image} {now : SlotCount} (hp : s.store.active = some p)
    (hdue : s.boundaryDue = some now) (hcommit : s.store.commit ≠ .armed) :
    exec .windowBoundary s = .next ((s.boundaryMarked.boundaryWorked now p).arbitrate now p) := by
  have hmarked : s.boundaryMarked.store.commit ≠ .armed := hcommit
  refine congrArg Host.Outcome.next ?_
  rw [hp, hdue]
  dsimp only
  rw [State.boundaryWork_eq, State.profileAfter, if_neg hcommit, ← State.boundaryMarked, State.activateDue, if_neg hmarked]

/-! ### The boundary's work with the host allowance in the words of the statements (R28, R30, R35 to R37) -/

/-- The host allowance of R28. -/
theorem State.boundaryAllowance_eq (p : Image) (s : State) :
    s.boundaryAllowance p =
      if s.rail.state = .starting ∨ (s.startAsked && reservationTest p (fanPower p s.air)) = true then Profile.startReserve p
      else if s.rail.state = .running ∨ s.rail.state = .stopping ∨ s.rail.state = .resetting then
        s.sense.railAverage + Profile.headroom p
      else 0 := by
  unfold State.boundaryAllowance State.startAsked
  cases s.rail.state <;> simp [hostAllowanceFor]

end Sys2Proof.Machine
end

