-- ==== Sys2Proof/Proofs/BoundaryZones.lean ====
section
/-!
O8. Zone control at a boundary (R18 to R26), with the zones' entries of the live page (R38).
-/

namespace Sys2Proof.Machine

/-- A zone at the end of a boundary, but for its override, which a slip may have moved. -/
theorem State.boundary_zone {now : SlotCount} {p : Image} {u w t : State} (hw : u.boundaryBlocks now p w)
    (ht : w.slipKeeps now t) (z : Fin 3) :
    let v := u.airBoundary now p
    t.climate.zones[z] =
      { u.zoneDemand p z with
        grant := (v.boundaryGrants p)[z]
        heldHigh := heldHighFor p z (u.zoneDemand p z).request (v.boundaryGrants p)[z]
        override := t.climate.zones[z].override } := by
  have hair := State.airBoundary_frame now p u
  have hdemand := State.zoneDemand_congr hair.2.1 hair.2.2.1 hair.2.2.2.1 hair.2.2.2.2.2.1 p z
  have hzone := ht.zones z
  rw [hw.climate, State.allotmentMade_zone, hdemand] at hzone
  exact hzone

/-- A zone's entry of the live page at the end of a boundary. -/
theorem State.boundary_zoneShown {now : SlotCount} {p : Image} {u w t : State} (hwf : u.xmem.wf = true)
    (hw : u.boundaryBlocks now p w) (ht : w.slipKeeps now t) (z : Fin 3) :
    t.xmem.shows (0x070 + 8 * z.val) t.climate.zones[z].pageBytes := by
  have hwf' : ((u.airBoundary now p).allotmentMade now p).xmem.wf = true := (State.airBoundary_writes now p u hwf).wf
  have hshown := (State.publishClimate_shows hwf').1 z
  rw [← hw.climate, ← hw.xmem] at hshown
  have hworked : w.xmem.wf = true := by
    rw [hw.xmem]
    exact (State.publishClimate_writes _ hwf').wf
  have hbytes : t.climate.zones[z].pageBytes = w.climate.zones[z].pageBytes := by rw [ht.zones z]; rfl
  rw [hbytes]
  refine hshown.of_writes hworked ht.above ?_ fun i hi => ?_
  · rw [ZoneRec.pageBytes_length, memorySize]
    omega
  · rw [ZoneRec.pageBytes_length] at hi
    simp only [aboveCount, outside_cons, outside_nil, and_true]
    omega

end Sys2Proof.Machine

namespace Sys2Proof.Proofs
open Sys2Proof.Machine

/-- Settles O8: zone control is the model's `ZoneRec.control`, in the words of R18 to R26. -/
theorem boundaryZoneControl : Obligations.BoundaryZoneControl := by
  intro s p now z hp hdue hcommit
  have hw := State.boundaryWorked_blocks now p s.boundaryMarked
  have ht := State.arbitrate_slipKeeps (u := s.boundaryMarked.boundaryWorked now p) now p
  refine ⟨_, exec_windowBoundary hp hdue hcommit, ?_⟩
  have hzone := State.boundary_zone hw ht z
  have hshown (hwf : s.xmem.wf = true) := State.boundary_zoneShown (u := s.boundaryMarked) hwf hw ht z
  have hdemand : s.boundaryMarked.zoneDemand p z = _ := ZoneRec.control_eq p z _ (s.temp (Profile.zoneSensor p z)) _
  rw [hdemand, effectiveSetpoint_eq, selectedSetpoint_eq] at hzone
  generalize (s.boundaryMarked.boundaryWorked now p).arbitrate now p = t at *
  have heffective := congrArg ZoneRec.effective hzone
  have hintegrator := congrArg ZoneRec.integrator hzone
  have hrequest := congrArg ZoneRec.request hzone
  refine ⟨⟨heffective, hintegrator, hrequest, fun hwf => ?_⟩, fun hfitted => ⟨?_, ?_⟩⟩
  · have h := hshown hwf
    rw [ZoneRec.pageBytes, heffective, hrequest] at h
    exact h
  · rw [hzone]
    exact allot_unfitted hfitted _ _ _ (Vector.getElem_replicate _)
  · rw [hzone]
    exact Bool.and_eq_false_iff.mpr (Or.inl hfitted)

end Sys2Proof.Proofs
end

