-- ==== Sys2Proof/Proofs/NonePosted.lean ====
section
/-!
SUPPORT. No slot becomes POSTED but by the host and by a completion with OK that names a CHAINED slot (R164, R171), whatever
the form of the exchange memory.
-/

namespace Sys2Proof.Machine

/-! ### Part writes without the canonical form -/

/-- A byte other than the one an unlisted address reads as is read back, and every other address stands. -/
theorem Memory.read_put_settled {m : List Host.Cell} {a x : Nat} {b : Byte} (h : x = a → b ≠ resetByte a) :
    Memory.read (Memory.put m a b) x = if x = a then b else Memory.read m x := by
  induction m with
  | nil =>
    by_cases hx : x = a
    · simp [Memory.put, Memory.read, hx, h hx]
    · unfold Memory.put
      split <;> simp [Memory.read, hx]
  | cons c r ih =>
    obtain ⟨k, v⟩ := c
    by_cases hx : x = a
    · have hb := h hx
      subst hx
      unfold Memory.put
      rcases Nat.lt_trichotomy x k with hlt | heq | hgt
      · simp [hlt, hb, Memory.read]
      · simp [heq, heq ▸ hb, Memory.read]
      · simp [Nat.not_lt.mpr hgt.le, hgt.ne', Memory.read, ih]
    · unfold Memory.put
      rcases Nat.lt_trichotomy a k with hlt | heq | hgt
      · rw [if_pos hlt]
        split <;> simp [Memory.read, hx]
      · rw [if_neg (by omega), if_pos heq]
        split <;> simp [Memory.read, hx, ← heq]
      · rw [if_neg (by omega), if_neg (by omega)]
        simp [Memory.read, hx, ih]

theorem Memory.read_writeAll_settled {m cs : List Host.Cell} {x : Nat} (hx : x < memorySize)
    (h : ∀ c ∈ cs, c.1 = x → c.2 ≠ resetByte x) :
    Memory.read (Memory.writeAll m cs) x = (Held.get cs x).getD (Memory.read m x) := by
  induction cs with
  | nil => rfl
  | cons c cs ih =>
    have htail := ih fun d hd => h d (List.mem_cons_of_mem _ hd)
    show Memory.read (Memory.write (Memory.writeAll m cs) c.1 c.2) x = _
    unfold Memory.write
    by_cases hc : x = c.1
    · have hb := h c List.mem_cons_self hc.symm
      rw [if_pos (hc ▸ hx), Memory.read_put_settled fun _ => hc ▸ hb, if_pos hc, Held.get, if_pos hc, Option.getD_some]
    · rw [Held.get, if_neg hc]
      split
      · rw [Memory.read_put_settled fun e => absurd e hc, if_neg hc, htail]
      · exact htail

/-- What the blocks see after a part write whose bytes there are none that an unlisted address reads as. -/
theorem Exchange.peek_partWriteCells_settled {cs : List Host.Cell} {a : Nat} (x : Exchange) (ha : a < memorySize)
    (h : ∀ c ∈ cs, c.1 = a → c.2 ≠ resetByte a) :
    (x.partWriteCells cs).peek a = (Held.get cs a).getD (x.peek a) := by
  unfold Exchange.partWriteCells Exchange.peek
  split
  · simp only [Held.get_foldr_put]
    cases Held.get cs a <;> rfl
  · simp only [Held.get_foldr_drop, Memory.read_writeAll_settled ha h]
    cases Held.get cs a <;> simp

theorem Held.exists_of_get {cs : List Host.Cell} {a : Nat} {b : Byte} (h : Held.get cs a = some b) :
    ∃ c ∈ cs, c.1 = a ∧ c.2 = b := by
  induction cs with
  | nil => cases h
  | cons c cs ih =>
    rw [Held.get] at h
    split at h
    · next hc => exact ⟨c, List.mem_cons_self, hc.symm, Option.some.inj h⟩
    · obtain ⟨d, hd, heq⟩ := ih h
      exact ⟨d, List.mem_cons_of_mem _ hd, heq⟩

theorem Held.get_of_notMem {cs : List Host.Cell} {a : Nat} (h : ∀ c ∈ cs, c.1 ≠ a) : Held.get cs a = none := by
  cases hget : Held.get cs a with
  | none => rfl
  | some b =>
    obtain ⟨c, hc, heq, _⟩ := Held.exists_of_get hget
    exact absurd heq (h c hc)

/-- A byte that a part write does not write stands. -/
theorem Exchange.peek_partWriteCells_stands {cs : List Host.Cell} {a : Nat} (x : Exchange) (ha : a < memorySize)
    (h : ∀ c ∈ cs, c.1 ≠ a) : (x.partWriteCells cs).peek a = x.peek a := by
  rw [Exchange.peek_partWriteCells_settled x ha fun c hc heq => absurd heq (h c hc), Held.get_of_notMem h, Option.getD_none]

theorem cellsAt_within {bs : List Byte} {a : Nat} {c : Host.Cell} (h : c ∈ cellsAt a bs) :
    a ≤ c.1 ∧ c.1 < a + bs.length := by
  induction bs generalizing a with
  | nil => cases h
  | cons b bs ih =>
    rw [cellsAt, List.mem_cons] at h
    rw [List.length_cons]
    obtain rfl | h := h
    · exact ⟨le_rfl, by dsimp only; omega⟩
    · have := ih h
      omega

theorem Exchange.peek_partWrite_stands (x : Exchange) {a b : Nat} {bs : List Byte} (ha : a < memorySize)
    (h : a < b ∨ b + bs.length ≤ a) : (x.partWrite b bs).peek a = x.peek a :=
  Exchange.peek_partWriteCells_stands x ha fun c hc heq => by
    have := cellsAt_within hc
    omega

/-! ### No slot is POSTED -/

/-- No owner byte is POSTED. -/
def Exchange.nonePosted (x : Exchange) : Prop := ∀ m : Fin 16, x.ownerIs m.val .posted = false

theorem State.nonePosted_iff (s : State) : s.nonePosted ↔ s.xmem.nonePosted := Iff.rfl

theorem slotAddr_inside (m : Fin 16) (i : Nat) (hi : i < 64) : slotAddr m.val + i < memorySize := by
  have := m.isLt
  rw [slotAddr, memorySize]
  omega

theorem resetByte_slotAddr (m : Fin 16) : resetByte (slotAddr m.val) = Owner.free.code := by
  revert m
  decide

/-- A part write that makes no slot POSTED and frees none. -/
theorem Exchange.nonePosted_partWriteCells {x : Exchange} {cs : List Host.Cell} (hx : x.nonePosted)
    (h : ∀ c ∈ cs, ∀ m : Fin 16, c.1 = slotAddr m.val → c.2 ≠ Owner.free.code ∧ c.2 ≠ Owner.posted.code) :
    (x.partWriteCells cs).nonePosted := by
  intro m
  have hsettled := Exchange.peek_partWriteCells_settled (cs := cs) x (slotAddr_lt m.isLt) fun c hc heq => by
    rw [resetByte_slotAddr]
    exact (h c hc m heq).1
  rw [Exchange.ownerIs, hsettled]
  cases hget : Held.get cs (slotAddr m.val) with
  | none => exact hx m
  | some b =>
    obtain ⟨c, hc, heq, rfl⟩ := Held.exists_of_get hget
    exact beq_eq_false_iff_ne.mpr (h c hc m heq).2

/-- A part write below the slip table. -/
theorem Exchange.nonePosted_partWrite {x : Exchange} {a : Nat} {bs : List Byte} (hx : x.nonePosted)
    (ha : a + bs.length ≤ 0x100) : (x.partWrite a bs).nonePosted :=
  Exchange.nonePosted_partWriteCells hx fun c hc m heq => by
    have hwithin := cellsAt_within hc
    rw [heq, slotAddr] at hwithin
    omega

theorem Exchange.nonePosted_raise {x : Exchange} (hx : x.nonePosted) (c : Cause) : (x.raise c).nonePosted :=
  Exchange.nonePosted_partWrite hx (by rw [le16_length]; decide)

section completion
variable {x : Exchange} {n : Fin 16}

/-- The cells of a completion: the owner byte, and others that are none. -/
theorem Exchange.resultCell {code detail : Byte} {payload : List Byte} {c : Host.Cell} {o : Owner}
    (hc : c ∈ (slotAddr n.val, o.code) :: (cellsAt (slotAddr n.val + 6) [code, detail] ++
      cellsAt (slotAddr n.val + 0x20) (payloadBytes payload))) :
    c = (slotAddr n.val, o.code) ∨ (slotAddr n.val + 6 ≤ c.1 ∧ c.1 < slotAddr n.val + 64) := by
  rw [List.mem_cons, List.mem_append] at hc
  obtain hc | hc | hc := hc
  · exact Or.inl hc
  · have := cellsAt_within hc
    simp only [List.length_cons, List.length_nil] at this
    omega
  · have := cellsAt_within hc
    have hlen : (payloadBytes payload).length ≤ 32 := List.length_take_le _ _
    omega

theorem Exchange.nonePosted_writeResult (hx : x.nonePosted) (code detail : Byte) (payload : List Byte) :
    (x.writeResult n.val .done code detail payload).nonePosted := by
  refine Exchange.nonePosted_partWriteCells hx fun c hc m heq => ?_
  obtain rfl | hinside := Exchange.resultCell hc
  · exact (by decide : Owner.done.code ≠ Owner.free.code ∧ Owner.done.code ≠ Owner.posted.code)
  · rw [heq, slotAddr, slotAddr] at hinside
    omega

/-- A completion leaves the other slots' owner bytes, and makes its own DONE. -/
theorem Exchange.ownerIs_writeResult (m : Fin 16) (o : Owner) (code detail : Byte) (payload : List Byte) :
    (x.writeResult n.val .done code detail payload).ownerIs m.val o =
      if m = n then Owner.done.code == o.code else x.ownerIs m.val o := by
  unfold Exchange.ownerIs Exchange.writeResult
  by_cases hm : m = n
  · subst hm
    have hsettled := Exchange.peek_partWriteCells_settled
      (cs := (slotAddr m.val, Owner.done.code) :: (cellsAt (slotAddr m.val + 6) [code, detail] ++
        cellsAt (slotAddr m.val + 0x20) (payloadBytes payload))) x (slotAddr_lt m.isLt) fun c hc heq => by
      obtain rfl | hinside := Exchange.resultCell hc
      · rw [resetByte_slotAddr]
        exact (by decide : Owner.done.code ≠ Owner.free.code)
      · omega
    rw [if_pos rfl]
    rw [Held.get, if_pos rfl, Option.getD_some] at hsettled
    rw [hsettled]
  · rw [if_neg hm, Exchange.peek_partWriteCells_stands x (slotAddr_lt m.isLt) fun c hc heq => ?_]
    have hne : m.val ≠ n.val := fun h => hm (Fin.ext h)
    obtain rfl | hinside := Exchange.resultCell hc
    · simp only [slotAddr] at heq
      omega
    · rw [heq, slotAddr, slotAddr] at hinside
      omega

theorem Exchange.nextSlot_writeResult (code detail : Byte) (payload : List Byte) :
    (x.writeResult n.val .done code detail payload).nextSlot n.val = x.nextSlot n.val := by
  unfold Exchange.nextSlot Exchange.writeResult
  rw [Exchange.peek_partWriteCells_stands x (slotAddr_inside n 3 (by decide)) fun c hc heq => ?_]
  obtain rfl | hinside := Exchange.resultCell hc
  · dsimp only at heq
    omega
  · omega

/-- The break of a chain makes slots DONE alone. -/
theorem Exchange.nonePosted_breakChain (first fuel k : Nat) (hx : x.nonePosted) :
    (Exchange.breakChain first fuel k x).nonePosted := by
  induction fuel generalizing k x with
  | zero => exact hx
  | succ fuel ih =>
    unfold Exchange.breakChain
    split
    · exact hx
    · next m hm =>
      split
      · have hlt : m < 16 := by
          unfold Exchange.nextSlot at hm
          dsimp only at hm
          split at hm
          · next h => exact Option.some.inj hm ▸ h
          · cases hm
        exact ih _ (Exchange.nonePosted_raise (Exchange.nonePosted_writeResult (n := ⟨m, hlt⟩) hx _ _ _) _)
      · exact hx

/-- A completion promotes no slot, but for one with OK that names a CHAINED slot (R171). -/
theorem Exchange.nonePosted_complete (hx : x.nonePosted) (r : SlipResult)
    (hchain : r.code = .ok → ∀ m : Fin 16, m ≠ n → (x.peek (slotAddr n.val + 3)).toNat = m.val →
      x.ownerIs m.val .chained = false) : (x.complete n.val r).nonePosted := by
  refine Exchange.nonePosted_raise ?_ _
  have hresult := Exchange.nonePosted_writeResult (n := n) hx r.code.code r.detail r.payload
  split
  · next hok =>
    unfold Exchange.followLink
    rw [Exchange.nextSlot_writeResult]
    split
    · exact hresult
    · next k hk =>
      unfold Exchange.nextSlot at hk
      dsimp only at hk
      split at hk
      · next hlt =>
        obtain rfl := Option.some.inj hk
        have hfalse := Exchange.ownerIs_writeResult (x := x) (n := n) ⟨_, hlt⟩ .chained r.code.code r.detail r.payload
        have hnot : (if (⟨_, hlt⟩ : Fin 16) = n then Owner.done.code == Owner.chained.code
            else x.ownerIs (x.peek (slotAddr n.val + 3)).toNat .chained) = false := by
          split
          · decide
          · next hne => exact hchain hok ⟨_, hlt⟩ hne rfl
        rw [hnot] at hfalse
        rw [hfalse, if_neg Bool.false_ne_true]
        refine Exchange.nonePosted_partWriteCells hresult fun c hc m heq => ?_
        have hwithin := cellsAt_within hc
        rw [heq, slotAddr, slotAddr] at hwithin
        simp only [List.length_cons, List.length_nil] at hwithin
        omega
      · cases hk
  · exact Exchange.nonePosted_breakChain _ _ _ hresult

end completion

/-- A block's report promotes no slot, but for one with OK whose slot names a CHAINED slot. -/
theorem State.nonePosted_report {s : State} (hs : s.nonePosted) (b : LastingBlock) (r : SlipResult)
    (hchain : r.code = .ok → s.unchained (s.engine.binding b)) : (s.report b r).nonePosted := by
  cases hb : s.engine.binding b with
  | none => rwa [State.report_of_none hb]
  | some n =>
    rw [State.report_of_some hb]
    exact Exchange.nonePosted_complete hs r fun hok m hm hnext => hchain hok n hb m hm hnext

end Sys2Proof.Machine
end

