-- ==== Sys2Proof/Proofs/FanStages.lean ====
section
/-!
SUPPORT. Stages 2, 5 and 6 of the air controller's boundary (R45): the judgement of the fans (R49, R50, R65), and the duties,
kicks and outputs (R44, R46, R47).
-/

namespace Sys2Proof.Machine

/-! ### Causes and slips of a piece of work -/

/-- The ranges in which a piece of work that raises `causes` may write the summary and, where a slip completes, the slip
table. -/
def noticeBytes (causes : BitVec 12) (reported : Bool) : List (Nat × Nat) :=
  [(0x0C, if causes = 0 then 0 else 2)] ++ slipBytes reported

/-- A piece of work raises `causes`, and completes a slip where `reported` says so. -/
structure Exchange.noticed (causes : BitVec 12) (reported : Bool) (x y : Exchange) : Prop where
  writes : x.writes (noticeBytes causes reported) y
  raised : x.raised (causes ||| if reported then Cause.slipDone.bit else 0) y

section noticed
variable {x y z : Exchange} {c d : BitVec 12} {b e : Bool}

theorem noticeBytes_eq (c : BitVec 12) (b : Bool) :
    noticeBytes c b = [(0x0C, if c != 0 then 2 else 0)] ++ slipBytes b := by
  unfold noticeBytes
  by_cases hc : c = 0 <;> simp [hc]

theorem noticeBytes_covers (c d : BitVec 12) (b e : Bool) :
    rangesCover (noticeBytes (c ||| d) (b || e)) (noticeBytes c b) = true ∧
      rangesCover (noticeBytes (c ||| d) (b || e)) (noticeBytes d e) = true := by
  have hor : ((c ||| d) != 0) = (c != 0 || d != 0) := by
    rw [Bool.eq_iff_iff]
    simp only [bne_iff_ne, ne_eq, Bool.or_eq_true]
    exact (not_congr BitVec.or_eq_zero_iff).trans not_and_or
  simp only [noticeBytes_eq, hor]
  generalize (c != 0) = i
  generalize (d != 0) = j
  revert i j b e
  decide

theorem Exchange.noticed.refl (x : Exchange) : x.noticed 0 false x where
  writes := Exchange.writes_refl _ _
  raised := ⟨by simp, rfl⟩

theorem Exchange.noticed.trans (h : x.noticed c b y) (h' : y.noticed d e z) : x.noticed (c ||| d) (b || e) z where
  writes := (h.writes.mono (noticeBytes_covers c d b e).1).trans (h'.writes.mono (noticeBytes_covers c d b e).2)
  raised := by
    have hall := h.raised.trans h'.raised
    have hcauses : (c ||| if b then Cause.slipDone.bit else 0) ||| (d ||| if e then Cause.slipDone.bit else 0) =
        (c ||| d) ||| if b || e then Cause.slipDone.bit else 0 := by
      have hdone : ∀ b e : Bool, ((if b then Cause.slipDone.bit else 0) ||| if e then Cause.slipDone.bit else 0) =
          if b || e then Cause.slipDone.bit else 0 := by decide
      rw [← hdone]
      ac_rfl
    rwa [hcauses] at hall

theorem Exchange.noticed.of_raise (x : Exchange) (c : Cause) : x.noticed c.bit false (x.raise c) where
  writes := by
    refine (Exchange.raise_writes c x).mono ?_
    cases c <;> decide
  raised := ⟨by simp, by simp⟩

theorem Exchange.noticed.of_complete (x : Exchange) (n : Fin 16) (r : SlipResult) : x.noticed 0 true (x.complete n.val r) where
  writes := (Exchange.complete_writes n.isLt r x).mono (by decide)
  raised := by
    have h := Exchange.complete_raised n.val r x
    rw [if_pos rfl]
    exact (BitVec.zero_or : (0 : BitVec 12) ||| Cause.slipDone.bit = _) ▸ h

end noticed

/-! ### The judgement of the fans -/

/-- A fan after the judgement of the window now ending. -/
def FanRec.judged (p : Image) (f : Fin 2) (r : FanRec) : FanRec :=
  if Profile.fanFitted p f then r.judge (fanVerdict p f r) else r.unfit

/-- A judgement moves the fault and the counts alone. -/
theorem FanRec.judged_rest (p : Image) (f : Fin 2) (r : FanRec) :
    r.judged p f =
      { r with
        fault := (r.judged p f).fault, stallCount := (r.judged p f).stallCount, goodCount := (r.judged p f).goodCount } := by
  have hjudge (v : FanVerdict) : ∃ b m n, r.judge v = { r with fault := b, stallCount := m, goodCount := n } := by
    unfold FanRec.judge
    split
    · split <;> exact ⟨_, _, _, rfl⟩
    · exact ⟨_, _, _, rfl⟩
    · exact ⟨_, _, _, rfl⟩
    · split <;> exact ⟨_, _, _, rfl⟩
    · exact ⟨_, _, _, rfl⟩
  unfold FanRec.judged
  split
  · obtain ⟨_, _, _, h⟩ := hjudge (fanVerdict p f r)
    rw [h]
  · rfl

/-- The verdict is a judgement exactly of a fitted fan that runs out of its grace. -/
theorem fanVerdict_eq (p : Image) (f : Fin 2) (r : FanRec) :
    fanVerdict p f r =
      if (Profile.fanFitted p f = true ∧ 20 ≤ r.duty ∧ (r.kickAge.any fun a => Profile.kickTime p f + 3 ≤ a) = true) then
        if r.rpm < Profile.stallFloor p f then .stalled else .good
      else .notJudged := by
  unfold fanVerdict
  cases r.kickAge <;> simp [and_assoc]

/-- The fault and the counts after a judgement (R49, R50, R65). -/
theorem FanRec.judged_eq (p : Image) (f : Fin 2) (r : FanRec) :
    let judged : Bool := Profile.fanFitted p f ∧ 20 ≤ r.duty ∧ r.kickAge.any fun a => Profile.kickTime p f + 3 ≤ a
    let stalled : Bool := r.rpm < Profile.stallFloor p f
    ((r.judged p f).fault, (r.judged p f).stallCount, (r.judged p f).goodCount) =
      (if Profile.fanFitted p f = false then (false, 0, 0)
       else if judged = false then (r.fault, r.stallCount, r.goodCount)
       else if stalled then
         if r.fault then (true, r.stallCount, 0)
         else if r.stallCount + 1 = 3 then (true, 0, 0) else (false, r.stallCount + 1, r.goodCount)
       else if r.fault then
         if r.goodCount + 1 = 3 then (false, 0, 0) else (true, r.stallCount, r.goodCount + 1)
       else (false, 0, r.goodCount)) := by
  dsimp only
  rw [FanRec.judged]
  by_cases hfitted : Profile.fanFitted p f = true
  · rw [if_pos hfitted, if_neg (by simp [hfitted]), fanVerdict_eq]
    by_cases hjudged : Profile.fanFitted p f = true ∧ 20 ≤ r.duty ∧
        (r.kickAge.any fun a => Profile.kickTime p f + 3 ≤ a) = true
    · rw [if_pos hjudged, decide_eq_true hjudged, if_neg (by decide : ¬ (true = false))]
      by_cases hstalled : r.rpm < Profile.stallFloor p f
      · rw [if_pos hstalled, if_pos (decide_eq_true hstalled)]
        cases hfault : r.fault
        · by_cases hthree : r.stallCount + 1 = 3 <;> simp [FanRec.judge, hfault, hthree]
        · simp [FanRec.judge, hfault]
      · rw [if_neg hstalled, if_neg (by simpa using hstalled)]
        cases hfault : r.fault
        · simp [FanRec.judge, hfault]
        · by_cases hthree : r.goodCount + 1 = 3 <;> simp [FanRec.judge, hfault, hthree]
    · rw [if_neg hjudged, decide_eq_false hjudged, if_pos rfl]
      simp [FanRec.judge]
  · rw [if_neg hfitted, if_pos (by simpa using hfitted)]
    rfl

/-- Both fans judged. -/
def State.fansJudged (p : Image) (s : State) : State := (List.finRange 2).foldl (State.judgeFan p) s

section judged
variable (p : Image) (s : State)

theorem State.judgeFan_air (f : Fin 2) :
    (s.judgeFan p f).air = { s.air with fans := s.air.fans.set f (s.air.fans[f].judged p f) } := by
  unfold State.judgeFan
  dsimp only
  rw [← FanRec.judged]
  split <;> rfl

theorem State.judgeFan_xmem (f : Fin 2) :
    (s.judgeFan p f).xmem =
      if !s.air.fans[f].fault && (s.air.fans[f].judged p f).fault then s.xmem.raise .fanFault else s.xmem := by
  unfold State.judgeFan
  dsimp only
  rw [← FanRec.judged]
  split <;> rfl

theorem State.judgeFan_noticed (f : Fin 2) :
    s.xmem.noticed (if !s.air.fans[f].fault && (s.air.fans[f].judged p f).fault then Cause.fanFault.bit else 0) false
      (s.judgeFan p f).xmem := by
  rw [State.judgeFan_xmem]
  split
  · exact .of_raise _ _
  · exact .refl _

theorem State.fansJudged_eq : s.fansJudged p = (s.judgeFan p 0).judgeFan p 1 := rfl

theorem State.fansJudged_frame :
    (s.fansJudged p).time = s.time ∧ (s.fansJudged p).sense = s.sense ∧ (s.fansJudged p).climate = s.climate ∧
      (s.fansJudged p).rail = s.rail ∧ (s.fansJudged p).mon = s.mon ∧ (s.fansJudged p).keypad = s.keypad ∧
      (s.fansJudged p).engine = s.engine ∧ (s.fansJudged p).store = s.store ∧
      (s.fansJudged p).supplyLow = s.supplyLow ∧ (s.fansJudged p).fresh = s.fresh ∧
      (s.fansJudged p).pending = s.pending := State.judgeFan_foldl_frame p _ s

theorem State.fansJudged_air :
    (s.fansJudged p).air = { s.air with fans := tab 2 fun f => s.air.fans[f].judged p f } := by
  rw [State.fansJudged_eq, State.judgeFan_air, State.judgeFan_air]
  refine congrArg (fun fans => { s.air with fans := fans }) ?_
  ext i hi
  have hi2 : i = 0 ∨ i = 1 := by omega
  obtain rfl | rfl := hi2 <;> simp [tab]

/-- FAN_FAULT is raised where a fan's fault becomes set (R50). -/
theorem State.fansJudged_noticed :
    s.xmem.noticed
      (if (List.finRange 2).any fun f => (s.air.fans[f].judged p f).fault && !s.air.fans[f].fault then Cause.fanFault.bit
       else 0) false (s.fansJudged p).xmem := by
  have hother : (s.judgeFan p 0).air.fans[(1 : Fin 2)] = s.air.fans[(1 : Fin 2)] := by
    rw [State.judgeFan_air]
    exact Vector.getElem_set_ne (by decide) (by decide) (by decide)
  have hboth := (State.judgeFan_noticed p s 0).trans (State.judgeFan_noticed p (s.judgeFan p 0) 1)
  rw [hother, ← State.fansJudged_eq, Bool.or_self] at hboth
  have hany : ((List.finRange 2).any fun f => (s.air.fans[f].judged p f).fault && !s.air.fans[f].fault) =
      ((!s.air.fans[(0 : Fin 2)].fault && (s.air.fans[(0 : Fin 2)].judged p 0).fault) ||
        (!s.air.fans[(1 : Fin 2)].fault && (s.air.fans[(1 : Fin 2)].judged p 1).fault)) := by
    rw [show List.finRange 2 = [0, 1] from rfl, List.any_cons, List.any_cons, List.any_nil, Bool.or_false, Bool.and_comm,
      Bool.and_comm (FanRec.fault _)]
  rw [hany]
  convert hboth using 1
  generalize (!s.air.fans[(0 : Fin 2)].fault && (s.air.fans[(0 : Fin 2)].judged p 0).fault) = a
  generalize (!s.air.fans[(1 : Fin 2)].fault && (s.air.fans[(1 : Fin 2)].judged p 1).fault) = b
  revert a b
  decide

end judged

/-! ### Duties, kicks and outputs -/

/-- The kick age and the output of a driven fan (R46, R47); its tachometer stands. -/
theorem FanRec.drive_eq (p : Image) (f : Fin 2) (duty : Nat) (r : FanRec) :
    let u := r.drive p f duty
    u.duty = duty ∧
      u.kickAge = (if duty = 0 then none else if r.duty = 0 then some 0 else some (min 255 (r.kickAge.getD 0 + 1))) ∧
      u.output = (if u.kickAge.any (fun a => decide (a < Profile.kickTime p f)) then 100 else duty) ∧
      u = { r with duty := u.duty, kickAge := u.kickAge, output := u.output } := by
  refine ⟨rfl, rfl, ?_, rfl⟩
  unfold FanRec.drive fanOutput
  dsimp only
  cases nextKickAge r.duty duty r.kickAge <;> simp

/-- The air controller before stages 5 and 6 (R45). -/
def State.airProbed (now : SlotCount) (p : Image) (s : State) : Air :=
  Air.schedule (s.probed now p).2 (s.probed now p).1.air

/-- The effective duty of the coming window. -/
def State.boundaryDuty (now : SlotCount) (p : Image) (s : State) (f : Fin 2) : Nat :=
  effectiveDuty p (s.airProbed now p) (s.controlTemp.map (curveValue p)) (s.airProbed now p).probe.holds f

theorem State.airBoundary_air (now : SlotCount) (p : Image) (s : State) :
    (s.airBoundary now p).air =
      { s.airProbed now p with
        fans := tab 2 fun f => (s.airProbed now p).fans[f].drive p f (s.boundaryDuty now p f) } := by
  rw [State.airBoundary_eq]
  generalize hdriven : ((s.probed now p).1.mapAir (Air.schedule (s.probed now p).2)).driveFans p
    (s.controlTemp.map (curveValue p)) = u
  have hair : u.air = { s.airProbed now p with
      fans := tab 2 fun f => (s.airProbed now p).fans[f].drive p f (s.boundaryDuty now p f) } := by
    rw [← hdriven]
    rfl
  rw [← hair]
  simp

theorem State.airBoundary_engine_store (now : SlotCount) (p : Image) (s : State) :
    (s.airBoundary now p).engine = (s.probed now p).1.engine ∧ (s.airBoundary now p).store = (s.probed now p).1.store := by
  rw [State.airBoundary_eq]
  simp [State.driveFans]

/-! ### The figures on the live page (R45, stage 7) -/

/-- A fan's entry on the live page. -/
def FanRec.pageBytes (r : FanRec) : List Byte := [BitVec.ofNat 8 r.duty, flagByte r.fault]

theorem FanRec.pageBytes_length (r : FanRec) : r.pageBytes.length = 2 := rfl

/-- The probe's entry on the live page. -/
def Air.pageBytes (a : Air) : List Byte := le16 a.clogIndex ++ [a.probe.phase.code, a.probe.lastAbort.code]

theorem Air.pageBytes_length (a : Air) : a.pageBytes.length = 4 := rfl

/-- The air controller's entries are shown once it has published. -/
theorem State.publishAir_shows {u : State} (hwf : u.xmem.wf = true) :
    let t := ((List.finRange 2).foldl State.publishFan u).publishProbe
    (∀ f : Fin 2, t.xmem.shows (0x098 + 8 * f.val) u.air.fans[f].pageBytes) ∧ t.xmem.shows 0x0A8 u.air.pageBytes := by
  have hfans (f : Fin 2) : ((List.finRange 2).foldl State.publishFan u).xmem.shows (0x098 + 8 * f.val)
      u.air.fans[f].pageBytes := by
    refine shows_foldl (op := State.publishFan) (addr := fun f => 0x098 + 8 * f.val)
      (bytes := fun f : Fin 2 => u.air.fans[f].pageBytes) (P := fun v => v.air = u.air)
      (fun v y hv => ⟨by simpa using hv, ?_⟩) (fun y => ?_) _ ?_ rfl hwf (List.mem_finRange f)
    · rw [← hv]
      rfl
    · have := y.isLt
      simp only [FanRec.pageBytes_length, memorySize]
      omega
    · refine (List.nodup_finRange 2).imp fun {x y} hne => ?_
      have : x.val ≠ y.val := fun h => hne (Fin.ext h)
      simp only [runsApart, FanRec.pageBytes_length]
      omega
  have hvwf : ((List.finRange 2).foldl State.publishFan u).xmem.wf = true :=
    foldl_induction (P := fun v : State => v.xmem.wf = true) (fun v f hv => (State.publishFan_writes v f hv).wf) _ _ hwf
  have hair : ((List.finRange 2).foldl State.publishFan u).air = u.air := (State.publishFan_foldl_frame _ u).2.2.2.1
  generalize (List.finRange 2).foldl State.publishFan u = v at *
  dsimp only
  refine ⟨fun f => (hfans f).of_writes hvwf (State.publishProbe_writes v) ?_ fun i hi => ?_, ?_⟩
  · have := f.isLt
    simp only [FanRec.pageBytes_length, memorySize]
    omega
  · rw [FanRec.pageBytes_length] at hi
    simp only [outside_cons, outside_nil, and_true]
    omega
  · rw [← hair]
    exact Exchange.shows_partWrite hvwf 0x0A8 v.air.pageBytes (by rw [Air.pageBytes_length]; decide)

/-- The air controller's entries on the live page after a boundary. -/
theorem State.airBoundary_shows {s : State} (hwf : s.xmem.wf = true) (now : SlotCount) (p : Image) :
    let t := s.airBoundary now p
    (∀ f : Fin 2, t.xmem.shows (0x098 + 8 * f.val) t.air.fans[f].pageBytes) ∧ t.xmem.shows 0x0A8 t.air.pageBytes := by
  have hair := State.airBoundary_air now p s
  have hjudged : s.xmem.writes [(0x0C, 2)] (s.fansJudged p).xmem := Exchange.writes_foldl (State.judgeFan_writes p) _ s
  have hprobed : (s.probed now p).1.xmem.wf = true :=
    (State.probeStage_writes now p (s.controlTemp.map (curveValue p)) _ (hjudged hwf).wf).wf
  dsimp only
  rw [hair]
  rw [State.airBoundary_eq]
  exact State.publishAir_shows (u := ((s.probed now p).1.mapAir (Air.schedule (s.probed now p).2)).driveFans p
    (s.controlTemp.map (curveValue p))) hprobed

end Sys2Proof.Machine
end

