-- ==== Sys2Proof/Proofs/ProbeStage.lean ====
section
/-!
SUPPORT. Stage 3 of the air controller's boundary (R53 to R59): what it can do, the causes it raises and the slip it reports to.
-/

namespace Sys2Proof.Machine

/-! ### The outcomes of the stage -/

/-- The state with the probe record `pr`. -/
def State.withProbe (pr : Probe) (s : State) : State := s.mapAir fun a => { a with probe := pr }

section stage
variable {now : SlotCount} {p : Image} {curve : Option Nat} {s : State} {held : HeldParams}

theorem State.probeStage_writing (h : s.air.probe.phase = .writing) : s.probeStage now p curve = (s, .nothing) := by
  unfold State.probeStage
  rw [h]

theorem State.probeStage_idle (h : s.air.probe.phase = .idle) :
    s.probeStage now p curve =
      (if s.air.due p && s.probeMayStart p curve then s.startProbe p else s, .nothing) := by
  unfold State.probeStage
  rw [h]
  dsimp only
  split <;> rfl

theorem State.probeStage_waiting (h : s.air.probe.phase = .waiting) :
    s.probeStage now p curve =
      if s.air.probe.stopPending then s.endProbe .stopped
      else if s.rail.state ≠ .running then s.endProbe .rail
      else (if s.probeMayStart p curve then s.startProbe p else s, .nothing) := by
  unfold State.probeStage
  rw [h]
  dsimp only
  split
  · rfl
  · split
    · rfl
    · split <;> rfl

theorem State.probeStage_settle (h : s.air.probe.phase = .settle) (hheld : s.air.probe.heldParams = some held) :
    s.probeStage now p curve =
      match s.probeAbort curve held with
      | some reason => s.endProbe reason
      | none => (s.withProbe (s.air.probe.settleStep s.sense.railAverage held), .nothing) := by
  unfold State.probeStage
  rw [h, hheld]
  rfl

/-- The sums of the probe after a boundary in MEASURE. -/
def State.probeSums (s : State) : Probe :=
  s.air.probe.measureStep ((s.temp 1).getD 0 - (s.temp 0).getD 0) s.sense.railAverage

/-- What a measurement that has its sums comes to (R55, R56). -/
def State.measured (now : SlotCount) (p : Image) (held : HeldParams) (s : State) : State × ProbeEvent :=
  if s.air.probe.windowsLeft = 0 then
    if s.air.probe.powerSum < 100 * held.measureTime then s.endProbe .lowLoad
    else if s.air.probe.riseSum ≤ 0 then s.endProbe .noRise
    else s.completeProbe now p held.measureTime
  else (s, .nothing)

theorem State.probeStage_measure (h : s.air.probe.phase = .measure) (hheld : s.air.probe.heldParams = some held) :
    s.probeStage now p curve =
      match s.probeAbort curve held with
      | some reason => s.endProbe reason
      | none => (s.withProbe s.probeSums).measured now p held := by
  unfold State.probeStage
  rw [h, hheld]
  rfl

theorem State.probeStage_unheld (h : s.air.probe.phase = .settle ∨ s.air.probe.phase = .measure)
    (hheld : s.air.probe.heldParams = none) : s.probeStage now p curve = (s, .nothing) := by
  unfold State.probeStage
  rw [hheld]
  obtain h | h := h
  · rw [h]
  · rw [h]

/-- The stage moves the probe record alone, ends the probe, or, at the end of a measurement, completes it. -/
inductive State.probeMoves (now : SlotCount) (p : Image) (s : State) : State × ProbeEvent → Prop where
  | step (pr : Probe) : State.probeMoves now p s (s.withProbe pr, .nothing)
  | ended (pr : Probe) (r : AbortReason) (h : pr.origin = s.air.probe.origin) :
      State.probeMoves now p s ((s.withProbe pr).endProbe r)
  | completed (pr : Probe) (m : Nat) (h : pr.origin = s.air.probe.origin) (hphase : s.air.probe.phase = .measure)
      (hleft : s.air.probe.windowsLeft ≤ 1) : State.probeMoves now p s ((s.withProbe pr).completeProbe now p m)

theorem State.probeStage_moves (now : SlotCount) (p : Image) (curve : Option Nat) (s : State) :
    s.probeMoves now p (s.probeStage now p curve) := by
  have hstands : s.probeMoves now p (s, .nothing) := .step s.air.probe
  have hends (r : AbortReason) : s.probeMoves now p (s.endProbe r) := .ended s.air.probe r rfl
  have hstarts (b : Bool) : s.probeMoves now p (if b then s.startProbe p else s, .nothing) := by
    cases b
    · exact hstands
    · exact .step _
  cases hphase : s.air.probe.phase with
  | writing =>
    rw [State.probeStage_writing hphase]
    exact hstands
  | idle =>
    rw [State.probeStage_idle hphase]
    exact hstarts _
  | waiting =>
    rw [State.probeStage_waiting hphase]
    split
    · exact hends _
    · split
      · exact hends _
      · exact hstarts _
  | settle =>
    cases hheld : s.air.probe.heldParams with
    | none =>
      rw [State.probeStage_unheld (Or.inl hphase) hheld]
      exact hstands
    | some held =>
      rw [State.probeStage_settle hphase hheld]
      split
      · exact hends _
      · exact .step _
  | measure =>
    cases hheld : s.air.probe.heldParams with
    | none =>
      rw [State.probeStage_unheld (Or.inr hphase) hheld]
      exact hstands
    | some held =>
      rw [State.probeStage_measure hphase hheld]
      split
      · exact hends _
      · unfold State.measured
        split
        · next hzero =>
          have hleft : s.air.probe.windowsLeft - 1 = 0 := hzero
          split
          · exact .ended s.probeSums _ rfl
          · split
            · exact .ended s.probeSums _ rfl
            · exact .completed s.probeSums _ rfl hphase (by omega)
        · exact .step _

end stage

/-! ### A slip's report -/

section report
variable (r : SlipResult) (s : State)

theorem State.report_air_engine : (s.report .air r).engine = { s.engine with airSlot := none } := by
  cases h : s.engine.airSlot with
  | none =>
    rw [State.report_of_none (show s.engine.binding .air = none from h), ← h]
  | some n =>
    rw [State.report_of_some (show s.engine.binding .air = some n from h)]
    rfl

theorem State.report_air_noticed : s.xmem.noticed 0 s.engine.airSlot.isSome (s.report .air r).xmem := by
  cases h : s.engine.airSlot with
  | none =>
    rw [State.report_of_none (show s.engine.binding .air = none from h)]
    exact .refl _
  | some n =>
    rw [State.report_of_some (show s.engine.binding .air = some n from h)]
    exact .of_complete _ n r

end report

/-! ### The end of a probe -/

section ends
variable (reason : AbortReason) (s : State)

/-- The probe record of an end without completion. -/
def State.probeDropped : State :=
  s.withProbe
    { s.air.probe with
      phase := .idle, lastAbort := reason, riseSum := 0, powerSum := 0, referenceDraw := none, windowsLeft := 0,
      stopPending := false }

theorem State.endProbe_eq :
    s.endProbe reason =
      (if s.air.probe.bySlip then (s.probeDropped reason).report .air (abortResult reason) else s.probeDropped reason,
        .ended (!s.air.probe.bySlip) s.air.probe.replacedDue) := by
  unfold State.endProbe Probe.bySlip
  dsimp only
  split <;> simp_all [State.probeDropped, State.withProbe]

end ends

/-! ### The completion of a probe -/

/-- The clog causes of the index `c` (R59). -/
def clogCauses (p : Image) (c : Nat) : BitVec 12 :=
  (if Profile.clogWarn p ≤ c then Cause.clogWarn.bit else 0) |||
    if Profile.clogWarn p ≤ c ∧ Profile.clogLimit p ≤ c then Cause.clogLimit.bit else 0

section completes
variable (now : SlotCount) (p : Image) (s : State)

theorem State.clogAlarms_noticed (c : Nat) : s.xmem.noticed (clogCauses p c) false (s.clogAlarms p c).xmem := by
  unfold State.clogAlarms clogCauses
  by_cases hwarn : c < Profile.clogWarn p
  · rw [if_pos hwarn, if_neg (by omega), if_neg (by omega), BitVec.or_self]
    exact .refl _
  · rw [if_neg hwarn, if_pos (by omega)]
    by_cases hlimit : c < Profile.clogLimit p
    · rw [if_pos hlimit, if_neg (by omega)]
      exact (BitVec.or_zero : Cause.clogWarn.bit ||| 0 = _).symm ▸ .of_raise _ _
    · rw [if_neg hlimit, if_pos (by omega)]
      exact (Exchange.noticed.of_raise _ .clogWarn).trans (Exchange.noticed.of_raise _ .clogLimit)

theorem State.clogAlarms_air (c : Nat) :
    (s.clogAlarms p c).air =
      { s.air with clogLimit := decide (Profile.clogWarn p ≤ c ∧ Profile.clogLimit p ≤ c) } := by
  unfold State.clogAlarms
  by_cases hwarn : c < Profile.clogWarn p
  · rw [if_pos hwarn, decide_eq_false (by omega)]
    rfl
  · rw [if_neg hwarn]
    by_cases hlimit : c < Profile.clogLimit p
    · rw [if_pos hlimit, decide_eq_false (by omega)]
      rfl
    · rw [if_neg hlimit, decide_eq_true (by omega)]
      rfl

theorem State.clogFormed_air (measure : Nat) :
    (s.clogFormed p measure).air =
      { s.air.completed measure with
        clogLimit :=
          if s.air.filterReference = 0 then s.air.clogLimit
          else decide (Profile.clogWarn p ≤ s.air.measuredClog measure ∧ Profile.clogLimit p ≤ s.air.measuredClog measure) } := by
  unfold State.clogFormed
  split
  · rfl
  · rw [State.clogAlarms_air]
    rfl

theorem State.clogFormed_noticed (measure : Nat) :
    s.xmem.noticed (if s.air.filterReference = 0 then 0 else clogCauses p (s.air.measuredClog measure)) false
      (s.clogFormed p measure).xmem := by
  unfold State.clogFormed
  split
  · exact .refl _
  · exact State.clogAlarms_noticed p (s.mapAir _) _

theorem State.clogFormed_frame (measure : Nat) :
    (s.clogFormed p measure).engine = s.engine ∧ (s.clogFormed p measure).store = s.store := by
  unfold State.clogFormed
  split <;> simp

end completes

/-! ### What the stage leaves of the air controller, the engine and the exchange memory -/

/-- The clog causes that the stage raises (R59): those of a completion that is no reset, against a reference. -/
def State.stageCauses (p : Image) (s : State) (a : State × ProbeEvent) : BitVec 12 :=
  if a.2 = .completed ∧ s.air.probe.origin ≠ some .resetFilterReference ∧ s.air.filterReference ≠ 0 then
    clogCauses p a.1.air.clogIndex
  else 0

/-- The slip that the stage reports to is completed, and its binding gone. -/
def State.stageReports (s : State) (a : State × ProbeEvent) : Bool := s.engine.airSlot.isSome && a.1.engine.airSlot.isNone

structure State.probeEffect (p : Image) (s : State) (a : State × ProbeEvent) : Prop where
  air : a.1.air =
    { s.air with probe := a.1.air.probe, clogIndex := a.1.air.clogIndex, clogLimit := a.1.air.clogLimit }
  engine : a.1.engine = { s.engine with airSlot := a.1.engine.airSlot }
  notice : s.xmem.noticed (s.stageCauses p a) (s.stageReports a) a.1.xmem
  measured : a.2 = .completed → s.air.probe.phase = .measure
  nonePosted : s.nonePosted → s.probePromotesNone → a.1.nonePosted

section effect
variable (now : SlotCount) (p : Image) {s : State}

theorem State.stageReports_of_engine (s : State) {a : State × ProbeEvent} (h : a.1.engine = s.engine) :
    s.stageReports a = false := by
  unfold State.stageReports
  rw [h]
  cases s.engine.airSlot <;> rfl

theorem State.stageReports_of_none {a : State × ProbeEvent} (h : a.1.engine.airSlot = none) :
    s.stageReports a = s.engine.airSlot.isSome := by
  unfold State.stageReports
  rw [h, Option.isNone_none, Bool.and_true]

theorem State.stageCauses_of_ne {a : State × ProbeEvent} (h : a.2 ≠ .completed) : s.stageCauses p a = 0 :=
  if_neg fun hall => h hall.1

theorem State.withProbe_effect (pr : Probe) : s.probeEffect p (s.withProbe pr, .nothing) where
  air := rfl
  engine := rfl
  notice := by
    rw [State.stageCauses_of_ne p (by simp), State.stageReports_of_engine s rfl]
    exact .refl _
  measured := by simp
  nonePosted := fun h _ => h

theorem abortResult_code (r : AbortReason) : (abortResult r).code ≠ .ok := by
  cases r <;> decide

theorem State.endProbe_effect {pr : Probe} (r : AbortReason) :
    s.probeEffect p ((s.withProbe pr).endProbe r) := by
  have hnot : ((s.withProbe pr).endProbe r).2 ≠ .completed := by
    rw [State.endProbe_eq]
    simp
  have hair : ((s.withProbe pr).endProbe r).1.air = ((s.withProbe pr).probeDropped r).air := by
    rw [State.endProbe_eq]
    dsimp only
    split <;> simp
  have hnotice : ((s.withProbe pr).endProbe r).1.engine =
      { s.engine with airSlot := ((s.withProbe pr).endProbe r).1.engine.airSlot } ∧
      s.xmem.noticed 0 (s.stageReports ((s.withProbe pr).endProbe r)) ((s.withProbe pr).endProbe r).1.xmem := by
    rw [State.endProbe_eq]
    split
    · have hengine := State.report_air_engine (abortResult r) ((s.withProbe pr).probeDropped r)
      rw [State.stageReports_of_none (by dsimp only; rw [hengine])]
      exact ⟨by dsimp only; rw [hengine]; rfl, State.report_air_noticed (abortResult r) ((s.withProbe pr).probeDropped r)⟩
    · rw [State.stageReports_of_engine s rfl]
      exact ⟨rfl, .refl _⟩
  refine ⟨?_, hnotice.1, ?_, fun h => absurd h hnot, fun hnone _ => ?_⟩
  · rw [hair]
    rfl
  · rw [State.stageCauses_of_ne p hnot]
    exact hnotice.2
  · rw [State.endProbe_eq]
    split
    · exact State.nonePosted_report (s := (s.withProbe pr).probeDropped r) hnone .air _ fun h => absurd h (abortResult_code r)
    · exact hnone

/-- A cause writes the summary alone. -/
theorem Exchange.peek_raise_above (x : Exchange) (c : Cause) {a : Nat} (h : 0x100 ≤ a) (ha : a < memorySize) :
    (x.raise c).peek a = x.peek a :=
  Exchange.peek_partWrite_stands { x with summary := x.summary ||| c.bit } ha (Or.inr (by rw [le16_length]; omega))

theorem State.clogFormed_peek (u : State) (m : Nat) {a : Nat} (h : 0x100 ≤ a) (ha : a < memorySize) :
    (u.clogFormed p m).xmem.peek a = u.xmem.peek a := by
  have hraise (x : Exchange) (c : Cause) : (x.raise c).peek a = x.peek a := Exchange.peek_raise_above x c h ha
  unfold State.clogFormed
  split
  · rfl
  · unfold State.clogAlarms
    split
    · rfl
    · split
      · exact hraise _ _
      · exact (hraise _ _).trans (hraise _ _)

/-- The links of the slip table read alike where its bytes do. -/
theorem State.unchained_congr {u v : State} (h : ∀ a, 0x100 ≤ a → a < memorySize → v.xmem.peek a = u.xmem.peek a)
    {b : Option (Fin 16)} (hu : u.unchained b) : v.unchained b := by
  have hslot (n : Fin 16) (i : Nat) (hi : i < 64) : v.xmem.peek (slotAddr n.val + i) = u.xmem.peek (slotAddr n.val + i) :=
    h _ (by rw [slotAddr]; omega) (slotAddr_inside n i hi)
  intro n hn m hm hnext
  rw [hslot n 3 (by decide)] at hnext
  rw [Exchange.ownerIs, show slotAddr m.val = slotAddr m.val + 0 from rfl, hslot m 0 (by decide)]
  exact hu n hn m hm hnext

theorem State.clogFormed_nonePosted {u : State} (h : u.nonePosted) (m : Nat) : (u.clogFormed p m).nonePosted := by
  have hraise (v : State) (c : Cause) (hv : v.nonePosted) : (v.raise c).nonePosted := Exchange.nonePosted_raise hv c
  unfold State.clogFormed
  split
  · exact h
  · unfold State.clogAlarms
    split
    · exact h
    · split
      · exact hraise _ _ h
      · exact hraise _ _ (hraise _ _ h)

/-- A completion that is a reset raises no cause and reports to no slip (R62). -/
theorem State.completeProbe_reset_effect {pr : Probe} (m : Nat) (hpr : pr.origin = some .resetFilterReference)
    (hs : s.air.probe.origin = some .resetFilterReference) (hphase : s.air.probe.phase = .measure) :
    s.probeEffect p ((s.withProbe pr).completeProbe now p m) := by
  have hcauses {a : State × ProbeEvent} : s.stageCauses p a = 0 := if_neg fun h => h.2.1 hs
  rw [State.completeProbe_eq, if_pos (show (s.withProbe pr).air.probe.origin = _ from hpr)]
  refine ⟨rfl, rfl, ?_, fun _ => hphase, fun h _ => h⟩
  rw [hcauses, State.stageReports_of_engine s rfl]
  exact .refl _

theorem State.completeProbe_effect {pr : Probe} (m : Nat) (hpr : pr.origin = s.air.probe.origin)
    (hphase : s.air.probe.phase = .measure) (hleft : s.air.probe.windowsLeft ≤ 1) :
    s.probeEffect p ((s.withProbe pr).completeProbe now p m) := by
  have horigin : (s.withProbe pr).air.probe.origin = s.air.probe.origin := hpr
  by_cases hreset : s.air.probe.origin = some .resetFilterReference
  · exact State.completeProbe_reset_effect now p m (hpr.trans hreset) hreset hphase
  have hair := State.clogFormed_air p (s.withProbe pr) m
  have hformed := State.clogFormed_noticed p (s.withProbe pr) m
  have hnone (h : s.nonePosted) : ((s.withProbe pr).clogFormed p m).nonePosted :=
    State.clogFormed_nonePosted p (u := s.withProbe pr) h m
  have hengine : ((s.withProbe pr).clogFormed p m).engine = s.engine := (State.clogFormed_frame p (s.withProbe pr) m).1
  have hclog : ((s.withProbe pr).clogFormed p m).air.clogIndex = (s.withProbe pr).air.measuredClog m := by rw [hair]; rfl
  have hcauses {a : State × ProbeEvent} (hev : a.2 = .completed) (ha : a.1.air = ((s.withProbe pr).clogFormed p m).air) :
      s.stageCauses p a =
        if (s.withProbe pr).air.filterReference = 0 then 0 else clogCauses p ((s.withProbe pr).air.measuredClog m) := by
    unfold State.stageCauses
    rw [ha, hclog]
    by_cases hzero : s.air.filterReference = 0
    · rw [if_neg fun h => h.2.2 hzero]
      exact (if_pos hzero).symm
    · rw [if_pos ⟨hev, hreset, hzero⟩]
      exact (if_neg hzero).symm
  have hrest : ((s.withProbe pr).clogFormed p m).air =
      { s.air with
        probe := ((s.withProbe pr).clogFormed p m).air.probe
        clogIndex := ((s.withProbe pr).clogFormed p m).air.clogIndex
        clogLimit := ((s.withProbe pr).clogFormed p m).air.clogLimit } := by
    rw [hair]
    rfl
  have hpeek : ∀ a, 0x100 ≤ a → a < memorySize → ((s.withProbe pr).clogFormed p m).xmem.peek a = s.xmem.peek a :=
    fun a h ha => State.clogFormed_peek p (s.withProbe pr) m h ha
  rw [State.completeProbe_eq, horigin, if_neg hreset]
  generalize (s.withProbe pr).clogFormed p m = v at *
  by_cases hairflow : s.air.probe.origin = some .probeAirflow
  · rw [if_pos hairflow]
    generalize ({ SlipResult.ok with payload := _ } : SlipResult) = r
    have hslot := State.report_air_engine r v
    refine ⟨by simpa using hrest, by dsimp only; rw [hslot, hengine], ?_, fun _ => hphase, fun h hpromotes => ?_⟩
    · rw [hcauses rfl (by simp), State.stageReports_of_none (by dsimp only; rw [hslot]), ← hengine]
      have hboth := hformed.trans (State.report_air_noticed r v)
      rw [show ∀ c : BitVec 12, c ||| 0 = c from fun _ => BitVec.or_zero, Bool.false_or] at hboth
      exact hboth
    · refine State.nonePosted_report (hnone h) .air r fun _ => ?_
      have hchain : s.unchained s.engine.airSlot := by
        obtain hnot | hlong | hchain := hpromotes
        · exact absurd hphase hnot
        · omega
        · exact hchain
      have hbinding : v.engine.binding .air = s.engine.airSlot := by rw [hengine]; rfl
      rw [hbinding]
      exact State.unchained_congr hpeek hchain
  · rw [if_neg hairflow]
    refine ⟨hrest, by rw [hengine], ?_, fun _ => hphase, fun h _ => hnone h⟩
    rw [hcauses rfl rfl, State.stageReports_of_engine s hengine]
    exact hformed

/-- What stage 3 leaves. -/
theorem State.probeStage_effect (curve : Option Nat) (s : State) : s.probeEffect p (s.probeStage now p curve) := by
  have hmoves := State.probeStage_moves now p curve s
  generalize s.probeStage now p curve = a at *
  cases hmoves with
  | step pr => exact State.withProbe_effect p pr
  | ended pr r _ => exact State.endProbe_effect p r
  | completed pr m hpr hphase hleft => exact State.completeProbe_effect now p m hpr hphase hleft

end effect

end Sys2Proof.Machine
end

