-- ==== Sys2Proof/Proofs/BoundaryWork.lean ====
section
/-!
SUPPORT. What the blocks' work at a boundary leaves of the fans, the exchange memory and the slip table (R16, R31, R45).
-/

namespace Sys2Proof.Machine

section work
variable (now : SlotCount) (p : Image) (s : State)

theorem State.probed_eq :
    s.probed now p = (s.fansJudged p).probeStage now p (s.controlTemp.map (curveValue p)) := rfl

/-- The stage of the probe starts from the judged fans. -/
theorem State.probed_effect : (s.fansJudged p).probeEffect p (s.probed now p) :=
  State.probeStage_effect now p _ (s.fansJudged p)

/-! ### The air controller -/

theorem Air.schedule_rest (ev : ProbeEvent) (a : Air) :
    Air.schedule ev a =
      { a with
        elapsed := (Air.schedule ev a).elapsed, retry := (Air.schedule ev a).retry
        probe := { a.probe with replacedDue := (Air.schedule ev a).probe.replacedDue } } := by
  cases ev <;> rfl

/-- What stages 3 and 4 keep of the judged air controller. -/
theorem State.airProbed_rest :
    s.airProbed now p =
      { s.air with
        fans := tab 2 fun f => s.air.fans[f].judged p f
        probe := (s.airProbed now p).probe, clogIndex := (s.airProbed now p).clogIndex
        clogLimit := (s.airProbed now p).clogLimit, elapsed := (s.airProbed now p).elapsed
        retry := (s.airProbed now p).retry } := by
  have heffect := (State.probed_effect now p s).air
  rw [State.fansJudged_air] at heffect
  have hschedule := Air.schedule_rest (s.probed now p).2 (s.probed now p).1.air
  unfold State.airProbed
  rw [hschedule, heffect]

/-- A fan at the end of the air controller's work. -/
theorem State.airBoundary_fan (f : Fin 2) :
    (s.airBoundary now p).air.fans[f] = (s.air.fans[f].judged p f).drive p f (s.boundaryDuty now p f) := by
  rw [State.airBoundary_air]
  refine (tab_get _ f).trans ?_
  rw [State.airProbed_rest]
  exact congrArg (FanRec.drive p f (s.boundaryDuty now p f)) (tab_get _ f)

/-! ### The slip table -/

theorem State.fansJudged_peek {a : Nat} (h : 0x100 ≤ a) (ha : a < memorySize) :
    (s.fansJudged p).xmem.peek a = s.xmem.peek a := by
  have hjudge (u : State) (f : Fin 2) : (u.judgeFan p f).xmem.peek a = u.xmem.peek a := by
    rw [State.judgeFan_xmem]
    split
    · exact Exchange.peek_raise_above u.xmem .fanFault h ha
    · rfl
  rw [State.fansJudged_eq]
  exact (hjudge _ _).trans (hjudge _ _)

/-- The work promotes no slot where the probe promotes none. -/
theorem State.airBoundary_nonePosted (hnone : s.nonePosted) (hpromotes : s.probePromotesNone) :
    (s.airBoundary now p).nonePosted := by
  have hjudge (u : State) (f : Fin 2) (hu : u.nonePosted) : (u.judgeFan p f).nonePosted := by
    rw [State.nonePosted_iff, State.judgeFan_xmem]
    split
    · exact Exchange.nonePosted_raise (x := u.xmem) hu .fanFault
    · exact hu
  have hjudged : (s.fansJudged p).nonePosted := by
    rw [State.fansJudged_eq]
    exact hjudge _ _ (hjudge _ _ hnone)
  have hpromotes' : (s.fansJudged p).probePromotesNone := by
    unfold State.probePromotesNone
    rw [State.fansJudged_air, (State.fansJudged_frame p s).2.2.2.2.2.2.1]
    exact hpromotes.imp_right (Or.imp_right (State.unchained_congr fun a => State.fansJudged_peek p s))
  have hprobed := (State.probed_effect now p s).nonePosted hjudged hpromotes'
  rw [State.airBoundary_eq]
  refine Exchange.nonePosted_partWrite ?_ (by
    rw [List.length_append, le16_length]
    simp only [List.length_cons, List.length_nil]
    omega)
  refine foldl_induction (P := State.nonePosted) (fun u f hu => ?_) _ _ hprobed
  exact Exchange.nonePosted_partWrite (x := u.xmem) hu (by
    have := f.isLt
    simp only [List.length_cons, List.length_nil]
    omega)

theorem State.publishClimate_nonePosted (h : s.nonePosted) : s.publishClimate.nonePosted := by
  refine Exchange.nonePosted_partWrite (Exchange.nonePosted_partWrite ?_ (by rw [le16_length]; decide))
    (by rw [le16_length]; decide)
  refine foldl_induction (P := State.nonePosted) (fun u z hu => ?_) _ _ h
  refine Exchange.nonePosted_partWrite (x := u.xmem) hu ?_
  have := z.isLt
  have hlen : (u.climate.zones[z].pageBytes).length = 4 := rfl
  rw [ZoneRec.pageBytes] at hlen
  omega

theorem State.boundaryWorked_nonePosted (hnone : s.nonePosted) (hpromotes : s.probePromotesNone) :
    (s.boundaryWorked now p).nonePosted := by
  have hmem := (State.boundaryWorked_blocks now p s).xmem
  rw [State.nonePosted_iff, hmem]
  exact State.publishClimate_nonePosted ((s.airBoundary now p).allotmentMade now p)
    (State.airBoundary_nonePosted now p s hnone hpromotes)

/-- The work moves one binding of the engine at most. -/
theorem State.airBoundary_engine :
    (s.airBoundary now p).engine = { s.engine with airSlot := (s.airBoundary now p).engine.airSlot } := by
  rw [(State.airBoundary_engine_store now p s).1]
  have hengine := (State.probed_effect now p s).engine
  rwa [(State.fansJudged_frame p s).2.2.2.2.2.2.1] at hengine

/-- The engine takes no slip at a boundary that promotes none. -/
theorem State.boundaryWorked_still (h : s.engine.served = true ∨ (s.nonePosted ∧ s.probePromotesNone)) :
    (s.boundaryWorked now p).arbitrate now p = s.boundaryWorked now p := by
  obtain hserved | ⟨hnone, hpromotes⟩ := h
  · refine State.arbitrate_of_served ?_
    rw [(State.boundaryWorked_blocks now p s).engine, State.airBoundary_engine]
    exact hserved
  · exact State.arbitrate_of_nonePosted now p (State.boundaryWorked_nonePosted now p s hnone hpromotes)

/-! ### Causes and bytes -/

/-- The air controller at the end of the work, but for the fans. -/
theorem State.boundaryWorked_air :
    (s.boundaryWorked now p).air = { s.airProbed now p with fans := (s.boundaryWorked now p).air.fans } := by
  rw [(State.boundaryWorked_blocks now p s).air, State.airBoundary_air]

theorem State.boundaryWorked_fan (f : Fin 2) :
    (s.boundaryWorked now p).air.fans[f] = (s.air.fans[f].judged p f).drive p f (s.boundaryDuty now p f) := by
  rw [(State.boundaryWorked_blocks now p s).air, State.airBoundary_fan]

/-- A completion alone restarts the schedule (R60). -/
theorem Air.schedule_elapsed (ev : ProbeEvent) (a : Air) :
    (Air.schedule ev a).elapsed = if ev = .completed then 0 else min 2592000 (a.elapsed + 1) := by
  cases ev <;> simp [Air.schedule]

theorem State.airProbed_elapsed :
    ((s.airProbed now p).elapsed == 0) = decide ((s.probed now p).2 = .completed) := by
  unfold State.airProbed
  rw [Air.schedule_elapsed, Bool.eq_iff_iff, beq_iff_eq, decide_eq_true_eq]
  split
  · next h => simp [h]
  · next h =>
    have : min 2592000 ((s.probed now p).1.air.elapsed + 1) ≠ 0 := by omega
    exact iff_of_false this h

/-- The causes of the statements are those of the fans and of the probe. -/
theorem State.boundaryCauses_eq :
    s.boundaryCauses p (s.boundaryWorked now p) =
      (if (List.finRange 2).any fun f => (s.air.fans[f].judged p f).fault && !s.air.fans[f].fault then Cause.fanFault.bit
       else 0) ||| (s.fansJudged p).stageCauses p (s.probed now p) := by
  have hfault (f : Fin 2) : (s.boundaryWorked now p).air.fans[f].fault = (s.air.fans[f].judged p f).fault := by
    rw [State.boundaryWorked_fan]
    rfl
  have helapsed : (s.boundaryWorked now p).air.elapsed = (s.airProbed now p).elapsed := by
    rw [State.boundaryWorked_air]
  have hclog : (s.boundaryWorked now p).air.clogIndex = (s.probed now p).1.air.clogIndex := by
    rw [State.boundaryWorked_air, State.airProbed, Air.schedule_rest]
  have hmeasured := (State.probed_effect now p s).measured
  unfold State.boundaryCauses State.stageCauses clogCauses
  dsimp only
  simp only [hfault]
  rw [helapsed, hclog, State.airProbed_elapsed]
  rw [State.fansJudged_air] at hmeasured ⊢
  dsimp only at hmeasured ⊢
  rw [BitVec.or_assoc]
  refine congrArg _ ?_
  by_cases hall : (s.probed now p).2 = .completed ∧ s.air.probe.origin ≠ some .resetFilterReference ∧
      s.air.filterReference ≠ 0
  · obtain ⟨hcompleted, horigin, hreference⟩ := hall
    refine .trans ?_ (if_pos ⟨hcompleted, horigin, hreference⟩).symm
    simp [hcompleted, hmeasured hcompleted, horigin, hreference]
  · refine .trans ?_ (if_neg hall).symm
    have hfalse : (s.air.probe.phase == .measure && decide ((s.probed now p).2 = .completed) &&
        s.air.probe.origin != some .resetFilterReference && s.air.filterReference != 0) = false := by
      rw [Bool.eq_false_iff]
      intro h
      simp only [Bool.and_eq_true, bne_iff_ne, decide_eq_true_eq] at h
      obtain ⟨⟨⟨_, hcompleted⟩, horigin⟩, hreference⟩ := h
      exact hall ⟨hcompleted, horigin, hreference⟩
    rw [hfalse]
    simp

/-- The stages before the publications raise the causes and complete the slip. -/
theorem State.probed_notice :
    s.xmem.noticed (s.boundaryCauses p (s.boundaryWorked now p))
      (s.engine.airSlot.isSome && (s.boundaryWorked now p).engine.airSlot.isNone) (s.probed now p).1.xmem := by
  have hstage := (State.probed_effect now p s).notice
  have hengine : (s.boundaryWorked now p).engine = (s.probed now p).1.engine :=
    (State.boundaryWorked_blocks now p s).engine.trans (State.airBoundary_engine_store now p s).1
  have hboth := (State.fansJudged_noticed p s).trans hstage
  unfold State.stageReports at hboth
  rw [(State.fansJudged_frame p s).2.2.2.2.2.2.1, Bool.false_or] at hboth
  rw [State.boundaryCauses_eq, hengine]
  exact hboth

/-- Publications that raise no cause. -/
theorem raised_foldl {α : Type} {op : State → α → State} (h : ∀ (u : State) (x : α), u.xmem.raised 0 (op u x).xmem)
    (l : List α) (u : State) :
    u.xmem.raised 0 (l.foldl op u).xmem :=
  foldl_induction (P := fun v => u.xmem.raised 0 v.xmem) (fun v x hv => hv.trans (h v x)) l u ⟨by simp, rfl⟩

theorem raised_partWrite (x : Exchange) (a : Nat) (bs : List Byte) : x.raised 0 (x.partWrite a bs) := ⟨by simp, by simp⟩

theorem State.publishClimate_raised (u : State) : u.xmem.raised 0 u.publishClimate.xmem := by
  have hzones : u.xmem.raised 0 ((List.finRange 3).foldl State.publishZone u).xmem :=
    raised_foldl (fun v z => raised_partWrite v.xmem _ _) _ u
  unfold State.publishClimate
  generalize (List.finRange 3).foldl State.publishZone u = v at *
  exact (hzones.trans (raised_partWrite v.xmem _ _)).trans (raised_partWrite _ _ _)

/-- The air controller's publications. -/
theorem State.airBoundary_published :
    (s.probed now p).1.xmem.writes boundaryBytes (s.airBoundary now p).xmem ∧
      (s.probed now p).1.xmem.raised 0 (s.airBoundary now p).xmem := by
  have hfans (u : State) : u.xmem.writes airBytes ((List.finRange 2).foldl State.publishFan u).xmem :=
    Exchange.writes_foldl
      (fun v f => (State.publishFan_writes v f).mono ((by decide : ∀ f : Fin 2, rangesCover airBytes
        [(0x098 + 8 * f.val, 2)] = true) f)) _ u
  have hraised (u : State) : u.xmem.raised 0 ((List.finRange 2).foldl State.publishFan u).xmem :=
    raised_foldl (fun v f => raised_partWrite v.xmem _ _) _ u
  rw [State.airBoundary_eq]
  generalize hdriven : ((s.probed now p).1.mapAir (Air.schedule (s.probed now p).2)).driveFans p
    (s.controlTemp.map (curveValue p)) = u
  have hu : (s.probed now p).1.xmem = u.xmem := by rw [← hdriven]; rfl
  rw [hu]
  exact ⟨((hfans u).mono (by decide)).trans ((State.publishProbe_writes _).mono (by decide)),
    (hraised u).trans (raised_partWrite _ _ _)⟩

/-- The publications of stage 7 write their bytes, and no cause. -/
theorem State.boundaryWorked_published :
    (s.probed now p).1.xmem.writes boundaryBytes (s.boundaryWorked now p).xmem ∧
      (s.probed now p).1.xmem.raised 0 (s.boundaryWorked now p).xmem := by
  obtain ⟨hwrites, hraised⟩ := State.airBoundary_published now p s
  rw [(State.boundaryWorked_blocks now p s).xmem]
  have hcalm : ((s.airBoundary now p).allotmentMade now p).xmem = (s.airBoundary now p).xmem := rfl
  rw [← hcalm] at hwrites hraised
  exact ⟨hwrites.trans ((State.publishClimate_writes _).mono (by decide)), hraised.trans (State.publishClimate_raised _)⟩

/-- The causes that the work raises (R160). -/
theorem State.boundaryWorked_raised :
    let t := s.boundaryWorked now p
    s.xmem.raised
      (s.boundaryCauses p t ||| if s.engine.airSlot.isSome && t.engine.airSlot.isNone then Cause.slipDone.bit else 0)
      t.xmem := by
  have hall := (State.probed_notice now p s).raised.trans (State.boundaryWorked_published now p s).2
  rwa [show ∀ c : BitVec 12, c ||| 0 = c from fun _ => BitVec.or_zero] at hall

/-- What the work writes and raises, in the words of the statements. -/
theorem State.boundaryWorked_wrote (hwf : s.xmem.wf = true) :
    let t := s.boundaryWorked now p
    let reported := s.engine.airSlot.isSome && t.engine.airSlot.isNone
    let causes := s.boundaryCauses p t
    s.xmem.partWrote (boundaryBytes ++ [(0x0C, if causes = 0 then 0 else 2)] ++ slipBytes reported)
      (causes ||| (if reported then Cause.slipDone.bit else 0)) t.xmem := by
  have hnotice := State.probed_notice now p s
  have hwrites := (State.boundaryWorked_published now p s).1
  have hall := State.boundaryWorked_raised now p s
  dsimp only at hall
  generalize hcauses : s.boundaryCauses p (s.boundaryWorked now p) = causes at *
  generalize hreported : (s.engine.airSlot.isSome && (s.boundaryWorked now p).engine.airSlot.isNone) = reported at *
  dsimp only
  rw [hcauses, hreported]
  refine Exchange.writes.partWrote ((hnotice.writes.mono ?_).trans (hwrites.mono ?_)) hwf hall
  · exact rangesCover_of_subset (by simp [noticeBytes])
  · exact rangesCover_of_subset (by simp)

end work

end Sys2Proof.Machine
end

