-- ==== Sys2Proof/Proofs/FanCurve.lean ====
section
/-!
SUPPORT. The fan curve (R43) in the words of the statements.
-/

namespace Sys2Proof.Machine

section curve
variable {p : Image}

theorem curveTemp_mono (h : curveRises p) {i j : Nat} (hij : i ≤ j) (hj : j ≤ 7) :
    Profile.curveTemp p i ≤ Profile.curveTemp p j := by
  induction hij with
  | refl => exact le_rfl
  | step hle ih => exact (ih (by omega)).trans (h _ (by omega)).le

theorem curveDuty_nonneg (j : Nat) : 0 ≤ Profile.curveDuty p j := Int.natCast_nonneg _

/-- An interpolated duty lies on the segment, so it is no negative one. -/
theorem curveSegment_nonneg {T : Int} {j : Nat} (hlow : Profile.curveTemp p j ≤ T) (hhigh : T ≤ Profile.curveTemp p (j + 1))
    (hlt : Profile.curveTemp p j < Profile.curveTemp p (j + 1)) : 0 ≤ curveSegment p T j := by
  have hd := curveDuty_nonneg (p := p) j
  have hd' := curveDuty_nonneg (p := p) (j + 1)
  unfold curveSegment
  generalize Profile.curveDuty p j = d at *
  generalize Profile.curveDuty p (j + 1) = d' at *
  generalize Profile.curveTemp p j = t at *
  generalize Profile.curveTemp p (j + 1) = t' at *
  by_cases hrise : d ≤ d'
  · have := Int.tdiv_nonneg (a := (d' - d) * (T - t)) (b := t' - t) (mul_nonneg (by omega) (by omega)) (by omega)
    omega
  · have hneg : (d' - d) * (T - t) = -((d - d') * (T - t)) := by ring
    have hle : ((d - d') * (T - t)).tdiv (t' - t) ≤ d - d' := by
      rw [Int.tdiv_eq_ediv_of_nonneg (mul_nonneg (by omega) (by omega))]
      refine Int.ediv_le_of_le_mul (by omega) ?_
      exact mul_le_mul_of_nonneg_left (by omega) (by omega)
    rw [hneg, Int.neg_tdiv]
    omega

/-- The segment that the curve value of `T` is read on. -/
theorem curveValue_segment (h : curveRises p) {T : Int} {j : Nat} (hj : j < 7) (hlow : j = 0 ∨ Profile.curveTemp p j < T)
    (hfirst : Profile.curveTemp p 0 ≤ T) (hhigh : T ≤ Profile.curveTemp p (j + 1)) :
    (curveValue p T : Int) = curveSegment p T j := by
  have hfind : (List.range 7).find? (fun i => decide (T ≤ Profile.curveTemp p (i + 1))) = some j := by
    rw [List.find?_range_eq_some]
    refine ⟨decide_eq_true hhigh, List.mem_range.mpr hj, fun i hi => ?_⟩
    obtain rfl | hlow := hlow
    · omega
    · have := curveTemp_mono h (i := i + 1) (j := j) (by omega) (by omega)
      simp only [Bool.not_eq_true', decide_eq_false_iff_not]
      omega
  have hstart : Profile.curveTemp p j ≤ T := by
    obtain rfl | hlow := hlow
    · exact hfirst
    · exact hlow.le
  unfold curveValue
  rw [if_neg (by omega), hfind]
  exact Int.toNat_of_nonneg (curveSegment_nonneg hstart hhigh (h j hj))

/-- At the second point of a segment the curve has that point's duty. -/
theorem curveSegment_end {j : Nat} (h : Profile.curveTemp p j < Profile.curveTemp p (j + 1)) :
    curveSegment p (Profile.curveTemp p (j + 1)) j = Profile.curveDuty p (j + 1) := by
  unfold curveSegment
  rw [Int.mul_tdiv_cancel _ (by omega)]
  omega

theorem curveSegment_start (j : Nat) : curveSegment p (Profile.curveTemp p j) j = Profile.curveDuty p j := by
  simp [curveSegment]

/-- The curve value is that of R43's table. -/
theorem curveValue_reads (h : curveRises p) (T : Int) : curveReads p T (curveValue p T) := by
  refine ⟨fun hbelow => ?_, fun habove => ?_, fun j hj heq => ?_, fun j hj hlow hhigh => ?_⟩
  · unfold curveValue
    rw [if_pos hbelow]
    exact Int.toNat_of_nonneg (curveDuty_nonneg 0)
  · have hfind : (List.range 7).find? (fun i => decide (T ≤ Profile.curveTemp p (i + 1))) = none := by
      rw [List.find?_eq_none]
      intro i hi
      have := curveTemp_mono h (i := i + 1) (j := 7) (by have := List.mem_range.mp hi; omega) le_rfl
      simp only [decide_eq_true_eq]
      omega
    have hfirst := curveTemp_mono h (i := 0) (j := 7) (by omega) le_rfl
    unfold curveValue
    rw [if_neg (by omega), hfind]
    exact Int.toNat_of_nonneg (curveDuty_nonneg 7)
  · subst heq
    cases j with
    | zero =>
      rw [curveValue_segment h (j := 0) (by omega) (Or.inl rfl) le_rfl (h 0 (by omega)).le, curveSegment_start]
    | succ i =>
      have hrise := h i (by omega)
      rw [curveValue_segment h (j := i) (by omega) (Or.inr hrise) (curveTemp_mono h (by omega) (by omega)) le_rfl,
        curveSegment_end hrise]
  · exact curveValue_segment h hj (Or.inr hlow) ((curveTemp_mono h (by omega) (by omega)).trans hlow.le) hhigh.le

/-- The curve value of a boundary is read at the control temperature. -/
theorem State.curveNow_of_rises (h : curveRises p) (s : State) : s.curveNow p (s.controlTemp.map (curveValue p)) := by
  unfold State.curveNow State.controlTemp
  cases s.temp 1 <;> cases s.temp 2
  case none.none => rfl
  all_goals exact ⟨_, rfl, curveValue_reads h _⟩

end curve

end Sys2Proof.Machine
end

