-- ==== Sys2Proof/Proofs/BoundaryFans.lean ====
section
/-!
O9. The fans at a boundary (R43 to R50, R65).
-/

namespace Sys2Proof.Machine

theorem Probe.holds_eq (pr : Probe) :
    pr.holds = if pr.phase = .settle ∨ pr.phase = .measure then pr.heldParams.map HeldParams.probeDuty else none := by
  unfold Probe.holds
  cases pr.phase <;> simp

/-- The held probe duty takes the place of the duty asked. -/
theorem Probe.holds_getD (pr : Probe) (asked : Nat) :
    pr.holds.getD asked =
      if decide (pr.phase = .settle ∨ pr.phase = .measure) then (pr.heldParams.map HeldParams.probeDuty).getD asked
      else asked := by
  rw [Probe.holds_eq]
  by_cases h : pr.phase = .settle ∨ pr.phase = .measure
  · rw [if_pos h, if_pos (decide_eq_true h)]
  · rw [if_neg h, if_neg (by simpa using h)]
    rfl

/-- A slip leaves a probe that holds the fans as it is (R51, R61, R64). -/
theorem Air.slipKept.holds {a b : Air} (h : a.slipKept b) : b.probe.holds = a.probe.holds := by
  by_cases hidle : a.probe.phase = .idle
  · have hb : b.probe.holds = none := by
      unfold Probe.holds
      obtain hb | hb := h.idle hidle <;> rw [hb]
    rw [hb, Probe.holds, hidle]
  · rw [Probe.holds_eq, Probe.holds_eq, h.inFlight hidle]

/-- The effective duty of R44. -/
theorem effectiveDuty_eq (p : Image) (a : Air) (curve probe : Option Nat) (f : Fin 2) :
    let forced : Bool :=
      a.clogLimit ∨ (Profile.fanFitted p (otherFan f) ∧ a.fans[otherFan f].fault) ∨ curve = none
    let duty := probe.getD (if forced then 100 else max (curve.getD 0) (a.fans[f].floor.getD 0))
    effectiveDuty p a curve probe f =
      (if Profile.fanFitted p f then (if 1 ≤ duty ∧ duty ≤ 19 then 20 else duty) else 0) := by
  have hforced : (a.clogLimit || (Profile.fanFitted p (otherFan f) && a.fans[otherFan f].fault) || curve.isNone) =
      decide (a.clogLimit = true ∨ (Profile.fanFitted p (otherFan f) = true ∧ a.fans[otherFan f].fault = true) ∨
        curve = none) := by
    rw [Bool.eq_iff_iff]
    simp [or_assoc]
  dsimp only
  rw [← hforced]
  rfl

section fans
variable {now : SlotCount} {p : Image} {s t : State}

/-- A fan at the end of a boundary, but for its floor, which a slip may have moved. -/
theorem State.boundary_fan (ht : (s.boundaryWorked now p).slipKeeps now t) (f : Fin 2) :
    t.air.fans[f] =
      { (s.air.fans[f].judged p f).drive p f (s.boundaryDuty now p f) with floor := t.air.fans[f].floor } := by
  rw [← State.boundaryWorked_fan]
  exact ht.air.fans f

theorem State.boundary_fanJudged (ht : (s.boundaryWorked now p).slipKeeps now t) (f : Fin 2) :
    t.air.fans[f].fault = (s.air.fans[f].judged p f).fault ∧
      t.air.fans[f].stallCount = (s.air.fans[f].judged p f).stallCount ∧
      t.air.fans[f].goodCount = (s.air.fans[f].judged p f).goodCount := by
  rw [State.boundary_fan ht f]
  exact ⟨rfl, rfl, rfl⟩

/-- The duty of a fan at the end of a boundary (R44). -/
theorem State.boundary_duty (ht : (s.boundaryWorked now p).slipKeeps now t) (f : Fin 2) :
    let curve := s.controlTemp.map (curveValue p)
    let forced : Bool :=
      t.air.clogLimit ∨ (Profile.fanFitted p (otherFan f) ∧ t.air.fans[otherFan f].fault) ∨ s.controlTemp = none
    let asked := if forced then 100 else max (curve.getD 0) (s.air.fans[f].floor.getD 0)
    let held : Bool := t.air.probe.phase = .settle ∨ t.air.probe.phase = .measure
    let duty := if held then (t.air.probe.heldParams.map HeldParams.probeDuty).getD asked else asked
    s.boundaryDuty now p f = (if Profile.fanFitted p f then (if 1 ≤ duty ∧ duty ≤ 19 then 20 else duty) else 0) := by
  have hair : t.air.clogLimit = (s.airProbed now p).clogLimit ∧ t.air.probe.holds = (s.airProbed now p).probe.holds := by
    have hkept := ht.air
    rw [State.boundaryWorked_air] at hkept
    exact ⟨by rw [hkept.rest], hkept.holds⟩
  have hfloor : (s.airProbed now p).fans[f].floor = s.air.fans[f].floor := by
    rw [State.airProbed_rest]
    refine (congrArg FanRec.floor (tab_get _ f)).trans ?_
    rw [FanRec.judged_rest]
  have hfault : (s.airProbed now p).fans[otherFan f].fault = t.air.fans[otherFan f].fault := by
    rw [State.airProbed_rest, (State.boundary_fanJudged ht (otherFan f)).1]
    exact congrArg FanRec.fault (tab_get _ (otherFan f))
  have hcurve : (s.controlTemp.map (curveValue p) = none) = (s.controlTemp = none) := by
    rw [Option.map_eq_none_iff]
  dsimp only
  unfold State.boundaryDuty
  rw [effectiveDuty_eq, hair.1, hfloor, hfault, ← hair.2, Probe.holds_getD]
  simp only [hcurve]

/-- The duty, the kick and the output of a fan at the end of a boundary (R44, R46, R47). -/
theorem State.boundary_drive (ht : (s.boundaryWorked now p).slipKeeps now t) (f : Fin 2) :
    let old := s.air.fans[f]
    let u := t.air.fans[f]
    u.duty = s.boundaryDuty now p f ∧
      u.kickAge = (if u.duty = 0 then none else if old.duty = 0 then some 0 else some (min 255 (old.kickAge.getD 0 + 1))) ∧
      u.output = (if u.kickAge.any (fun a => decide (a < Profile.kickTime p f)) then 100 else u.duty) ∧
      u.period = old.period ∧ u.timing = old.timing ∧ u.rpm = old.rpm := by
  have hrest := FanRec.judged_rest p f s.air.fans[f]
  obtain ⟨hduty, hkick, houtput, hdriven⟩ := FanRec.drive_eq p f (s.boundaryDuty now p f) (s.air.fans[f].judged p f)
  have hfan := State.boundary_fan ht f
  generalize s.air.fans[f].judged p f = j at *
  generalize hd : j.drive p f (s.boundaryDuty now p f) = d at *
  dsimp only at hduty hkick houtput hdriven ⊢
  rw [hfan]
  dsimp only
  rw [hduty]
  refine ⟨rfl, ?_, houtput, ?_, ?_, ?_⟩
  · rw [hkick, hrest]
  · rw [hdriven, hrest]
  · rw [hdriven, hrest]
  · rw [hdriven, hrest]

/-- A fan's entry of the live page at the end of a boundary. -/
theorem State.boundary_fanShown (hwf : s.xmem.wf = true) (ht : (s.boundaryWorked now p).slipKeeps now t) (f : Fin 2) :
    t.xmem.shows (0x098 + 8 * f.val) t.air.fans[f].pageBytes := by
  have hblocks := State.boundaryWorked_blocks now p s
  have hair : (s.airBoundary now p).xmem.wf = true := (State.airBoundary_writes now p s hwf).wf
  have hshown := (State.airBoundary_shows hwf now p).1 f
  have hwrites : (s.airBoundary now p).xmem.writes climateBytes (s.boundaryWorked now p).xmem := by
    rw [hblocks.xmem]
    exact State.publishClimate_writes ((s.airBoundary now p).allotmentMade now p)
  have hworked : (s.boundaryWorked now p).xmem.wf = true := (hwrites hair).wf
  have hbytes : t.air.fans[f].pageBytes = (s.airBoundary now p).air.fans[f].pageBytes := by
    rw [← hblocks.air, ht.air.fans f]
    rfl
  have hf := f.isLt
  rw [hbytes]
  refine (hshown.of_writes hair hwrites ?_ fun i hi => ?_).of_writes hworked ht.above ?_ fun i hi => ?_
  · rw [FanRec.pageBytes_length, memorySize]
    omega
  · rw [FanRec.pageBytes_length] at hi
    simp only [climateBytes, outside_cons, outside_nil, and_true]
    omega
  · rw [FanRec.pageBytes_length, memorySize]
    omega
  · rw [FanRec.pageBytes_length] at hi
    simp only [aboveCount, outside_cons, outside_nil, and_true]
    omega

end fans

/-- FAN_FAULT alone among the causes of a boundary. -/
theorem fanFault_of_causes (faulted warn limit reported : Bool) (x : BitVec 12) :
    (x ||| ((if faulted then Cause.fanFault.bit else 0) ||| (if warn then Cause.clogWarn.bit else 0) |||
        (if limit then Cause.clogLimit.bit else 0) ||| if reported then Cause.slipDone.bit else 0)) &&&
        Cause.fanFault.bit =
      if faulted then Cause.fanFault.bit else x &&& Cause.fanFault.bit := by
  have hmask : ∀ f w l r : Bool, ((if f then Cause.fanFault.bit else 0) ||| (if w then Cause.clogWarn.bit else 0) |||
      (if l then Cause.clogLimit.bit else 0) ||| if r then Cause.slipDone.bit else 0) &&& Cause.fanFault.bit =
        if f then Cause.fanFault.bit else 0 := by decide
  rw [causes_masked, hmask]
  cases faulted
  · exact BitVec.or_zero
  · rw [if_pos rfl, if_pos rfl]
    ext i hi
    simp only [BitVec.getElem_or, BitVec.getElem_and]
    cases x[i] <;> simp

end Sys2Proof.Machine

namespace Sys2Proof.Proofs
open Sys2Proof.Machine

/-- Settles O9: each fan is judged, then driven with the effective duty. -/
theorem boundaryFans : Obligations.BoundaryFans := by
  intro s p now f hp hdue hcommit
  have ht := State.arbitrate_slipKeeps (u := s.boundaryMarked.boundaryWorked now p) now p
  refine ⟨_, exec_windowBoundary hp hdue hcommit, ?_⟩
  obtain ⟨hfault, hstall, hgood⟩ := State.boundary_fanJudged ht f
  obtain ⟨hduty, hkick, houtput, hperiod, htiming, hrpm⟩ := State.boundary_drive ht f
  have hshown (hwf : s.xmem.wf = true) := State.boundary_fanShown (s := s.boundaryMarked) hwf ht f
  refine ⟨?_, hduty.trans (State.boundary_duty ht f), ⟨hkick, houtput, hperiod, htiming, hrpm, hshown⟩, fun htakes => ?_,
    fun hrises => State.curveNow_of_rises hrises s⟩
  · dsimp only
    rw [hfault, hstall, hgood]
    exact FanRec.judged_eq p f s.air.fans[f]
  · rw [State.boundaryWorked_still now p s.boundaryMarked htakes]
    rw [(State.boundaryWorked_raised now p s.boundaryMarked).1]
    exact fanFault_of_causes _ _ _ _ _

end Sys2Proof.Proofs
end

