-- ==== Sys2Proof/Proofs/BoundaryAllotment.lean ====
section
/-!
O7. The allotment at a boundary (R27 to R36), its edge slots and the decision about a scan (R127), and the frame of the boundary.
-/

namespace Sys2Proof.Machine

section work
variable (now : SlotCount) (p : Image) (s : State)

/-! ### The keypad controller -/

/-- The state whose keypad controller decides about the scan of slot 0. -/
def State.edgesTaken : State :=
  ((s.airBoundary now p).climateBoundary now p).1.takeEdges ((s.airBoundary now p).climateBoundary now p).2

theorem State.boundaryWorked_eq : s.boundaryWorked now p = (s.edgesTaken now p).decideScan now p 0 := rfl

/-- The edge slots of the coming window (R34). -/
def State.boundaryEdges : List Nat :=
  edgeSlots (tab 3 fun z => s.climate.zones[z].grant) ((s.airBoundary now p).boundaryGrants p)

theorem State.edgesTaken_keypad : (s.edgesTaken now p).keypad = { s.keypad with edgeSet := some (s.boundaryEdges now p) } := by
  have hair := State.airBoundary_frame now p s
  unfold State.edgesTaken State.takeEdges
  rw [State.mapKeypad_keypad, (State.climateBoundary_frame now p _).2.2.2.2.2.1, hair.2.2.2.2.2.1, State.climateBoundary_snd,
    hair.2.2.1]
  rfl

theorem State.boundaryWorked_keypad :
    (s.boundaryWorked now p).keypad =
      { s.keypad with
        edgeSet := some (s.boundaryEdges now p), deferred := (s.boundaryWorked now p).keypad.deferred
        scan := (s.boundaryWorked now p).keypad.scan } := by
  rw [State.boundaryWorked_eq, State.decideScan_keypad, State.edgesTaken_keypad]

theorem State.scanDecided_congr {u v w t : State} {edges : Option (List Nat)} (h : u.scanDecided p now edges w)
    (hu : v.keypad.deferred = u.keypad.deferred ∧ v.keypad.scan = u.keypad.scan)
    (hw : t.keypad.deferred = w.keypad.deferred ∧ t.keypad.scan = w.keypad.scan) : v.scanDecided p now edges t := by
  unfold State.scanDecided at h ⊢
  rw [hu.1, hu.2, hw.1, hw.2]
  exact h

/-- The scan of slot 0 is decided with the edge slots of the coming window. -/
theorem State.boundaryWorked_scan (hslot : now.toNat % 64 = 0) :
    s.scanDecided p now (s.boundaryWorked now p).keypad.edgeSet (s.boundaryWorked now p) := by
  have hkeypad := State.edgesTaken_keypad now p s
  have hdecided := State.decideScan_decided (w := s.edgesTaken now p) (u := s.edgesTaken now p) (n := now) (p := p) rfl
  rw [hslot, ← State.boundaryWorked_eq] at hdecided
  have hedges : (s.boundaryWorked now p).keypad.edgeSet = (s.edgesTaken now p).keypad.edgeSet := by
    rw [State.boundaryWorked_eq, State.decideScan_keypad]
  rw [hedges]
  exact State.scanDecided_congr now p hdecided (by rw [hkeypad]; exact ⟨rfl, rfl⟩) ⟨rfl, rfl⟩

end work

/-! ### The allotment at the end of the boundary -/

section allotment
variable {now : SlotCount} {p : Image} {s t : State}

/-- The figures of the climate controller at the end of a boundary. -/
theorem State.boundary_figures (ht : (s.boundaryWorked now p).slipKeeps now t) :
    let v := s.airBoundary now p
    t.climate.hostAllowance = v.boundaryAllowance p ∧ t.climate.available = v.boundaryAvailable p ∧
      t.climate.heaters = (tab 3 fun z => decide (0 < (v.boundaryGrants p)[z])) ∧
      t.climate.answer =
        (if v.startAsked then some (v.startAsked && reservationTest p (fanPower p v.air), now) else s.climate.answer) := by
  have hfigures := ht.climate.figures
  have hclimate := (State.airBoundary_frame now p s).2.2.1
  rw [(State.boundaryWorked_blocks now p s).climate] at hfigures
  dsimp only
  rw [hfigures, ← hclimate]
  exact ⟨rfl, rfl, rfl, rfl⟩

/-- The requests and the grants at the end of a boundary. -/
theorem State.boundary_grants (ht : (s.boundaryWorked now p).slipKeeps now t) (z : Fin 3) :
    let v := s.airBoundary now p
    t.climate.zones[z].request = (v.zoneDemand p z).request ∧ t.climate.zones[z].grant = (v.boundaryGrants p)[z] ∧
      t.climate.zones[z].heldHigh = heldHighFor p z (v.zoneDemand p z).request (v.boundaryGrants p)[z] := by
  have hzone := ht.zones z
  rw [(State.boundaryWorked_blocks now p s).climate, State.allotmentMade_zone] at hzone
  dsimp only
  rw [hzone]
  exact ⟨rfl, rfl, rfl⟩

/-- The fan power of the duties handed over is that of the duties at the end of the boundary (R29). -/
theorem State.boundary_fanPower (ht : (s.boundaryWorked now p).slipKeeps now t) :
    fanPower p (s.airBoundary now p).air =
      Profile.fanRating p 0 * t.air.fans[(0 : Fin 2)].duty / 100 + Profile.fanRating p 1 * t.air.fans[(1 : Fin 2)].duty / 100 := by
  have hduty (f : Fin 2) : t.air.fans[f].duty = (s.airBoundary now p).air.fans[f].duty := by
    rw [ht.air.fans f, (State.boundaryWorked_blocks now p s).air]
  rw [fanPower, hduty, hduty]

/-- The grants are the allotment of R32 over the requests and the available power that the boundary leaves. -/
theorem State.boundary_allotment (ht : (s.boundaryWorked now p).slipKeeps now t) :
    (tab 3 fun z => t.climate.zones[z].grant) =
      grantsFor p (tab 3 fun z => t.climate.zones[z].request) t.climate.available := by
  have hgrants := State.boundary_grants ht
  simp only [hgrants, (State.boundary_figures ht).2.1]
  exact (tab_self _).trans rfl

theorem State.allotted_of_grants
    (h : (tab 3 fun z => t.climate.zones[z].grant) =
      grantsFor p (tab 3 fun z => t.climate.zones[z].request) t.climate.available) : t.allotted p := by
  intro a b c ha hb hc hab hac hbc
  have hshares := grantsFor_shares ha hb hc hab hac hbc (tab 3 fun z => t.climate.zones[z].request) t.climate.available
  have hgrant (z : Fin 3) : (tab 3 fun z => t.climate.zones[z].grant)[z] = t.climate.zones[z].grant := tab_get _ z
  have hrequest (z : Fin 3) (left : Nat) : zoneShare p (tab 3 fun z => t.climate.zones[z].request) z left =
      if Profile.zoneRating p z = 0 then 0 else min t.climate.zones[z].request (left / Profile.zoneRating p z) := by
    rw [zoneShare]
    refine if_congr Iff.rfl rfl ?_
    exact congrArg (fun n => min n _) (tab_get _ z)
  rw [← h] at hshares
  simp only [hgrant, hrequest] at hshares
  exact hshares

end allotment

/-! ### What the boundary's work keeps -/

section kept
variable (now : SlotCount) (p : Image) (s : State)

theorem ZoneRec.control_override (z : Fin 3) (effective : Int) (temp : Option Int) (r : ZoneRec) :
    (r.control p z effective temp).override = r.override := by
  rw [ZoneRec.control_eq]

theorem State.boundaryWorked_override (z : Fin 3) :
    (s.boundaryWorked now p).climate.zones[z].override = s.climate.zones[z].override := by
  rw [(State.boundaryWorked_blocks now p s).climate, State.allotmentMade_zone]
  dsimp only
  rw [State.zoneDemand, ZoneRec.control_override, (State.airBoundary_frame now p s).2.2.1]

theorem State.boundaryWorked_floor (f : Fin 2) : (s.boundaryWorked now p).air.fans[f].floor = s.air.fans[f].floor := by
  rw [State.boundaryWorked_fan, (FanRec.drive_eq p f (s.boundaryDuty now p f) _).2.2.2, FanRec.judged_rest]

theorem State.boundaryWorked_reference : (s.boundaryWorked now p).air.filterReference = s.air.filterReference := by
  rw [State.boundaryWorked_air, State.airProbed_rest]

/-- The figures of the live page after the work, and those of the probe. -/
theorem State.boundaryWorked_shows (hwf : s.xmem.wf = true) :
    let t := s.boundaryWorked now p
    t.xmem.shows 0x088 (le16 t.climate.available ++ le16 t.climate.hostAllowance) ∧ t.xmem.shows 0x0A8 t.air.pageBytes := by
  have hblocks := State.boundaryWorked_blocks now p s
  have hair : (s.airBoundary now p).xmem.wf = true := (State.airBoundary_writes now p s hwf).wf
  dsimp only
  rw [hblocks.xmem, hblocks.climate, hblocks.air]
  refine ⟨(State.publishClimate_shows (u := (s.airBoundary now p).allotmentMade now p) hair).2, ?_⟩
  refine (State.airBoundary_shows hwf now p).2.of_writes hair
    (State.publishClimate_writes ((s.airBoundary now p).allotmentMade now p)) ?_ fun i hi => ?_
  · rw [Air.pageBytes_length]
    decide
  · rw [Air.pageBytes_length] at hi
    simp only [climateBytes, outside_cons, outside_nil, and_true]
    omega

theorem State.boundaryWorked_wf (hwf : s.xmem.wf = true) : (s.boundaryWorked now p).xmem.wf = true :=
  (State.boundaryWorked_writes now p s hwf).wf

/-- The store after the work: a reference handed over at most. -/
theorem State.boundaryWorked_store : s.store.handsOver (s.boundaryWorked now p).store := by
  rw [(State.boundaryWorked_blocks now p s).store]
  exact State.airBoundary_store now p s

theorem State.boundaryWorked_engine :
    (s.boundaryWorked now p).engine = { s.engine with airSlot := (s.boundaryWorked now p).engine.airSlot } := by
  rw [(State.boundaryWorked_blocks now p s).engine]
  exact State.airBoundary_engine now p s

end kept

/-- A slip leaves the figures that a boundary shows. -/
theorem State.slipKeeps.shows {now : SlotCount} {w t : State} (ht : w.slipKeeps now t) (hwf : w.xmem.wf = true) {a : Nat}
    {bs : List Byte} (h : w.xmem.shows a bs) (ha : 0x40 ≤ a) (hlast : a + bs.length ≤ 0xAC) : t.xmem.shows a bs := by
  refine h.of_writes hwf ht.above (by rw [memorySize]; omega) fun i hi => ?_
  simp only [aboveCount, outside_cons, outside_nil, and_true]
  omega

end Sys2Proof.Machine

namespace Sys2Proof.Proofs
open Sys2Proof.Machine

/-- A boundary at which the engine takes no slip changes nothing but its work. -/
theorem boundary_framed {s : State} {p : Image} {now : SlotCount} (hwf : s.xmem.wf = true) :
    s.boundaryFramed p (s.boundaryMarked.boundaryWorked now p) := by
  have hblocks := State.boundaryWorked_blocks now p s.boundaryMarked
  have hkeypad := State.boundaryWorked_keypad now p s.boundaryMarked
  have hengine := State.boundaryWorked_engine now p s.boundaryMarked
  obtain ⟨service, rf, began, hstore⟩ := State.boundaryWorked_store now p s.boundaryMarked
  refine ⟨?_, State.boundaryWorked_override now p s.boundaryMarked, State.boundaryWorked_floor now p s.boundaryMarked,
    State.boundaryWorked_reference now p s.boundaryMarked, (State.boundaryWorked_shows now p s.boundaryMarked hwf).2,
    State.boundaryWorked_wrote now p s.boundaryMarked hwf⟩
  generalize s.boundaryMarked.boundaryWorked now p = w at *
  refine State.ext_blocks hblocks.time hblocks.sense rfl rfl hblocks.rail hblocks.mon ?_ rfl hengine ?_ hblocks.supplyLow
    hblocks.fresh hblocks.pending
  · rw [hkeypad]
    rfl
  · rw [hstore]
    rfl

/-- A start is granted where it is asked for and passes the reservation test (R35, R36). -/
theorem startGranted_eq (p : Image) (asked : Bool) (fans : Nat) :
    (asked && reservationTest p fans) =
      decide (asked = true ∧ Profile.startReserve p + fans + Profile.heaterReserve p ≤ Profile.feedLimit p) := by
  cases asked <;> simp [reservationTest]

/-- Settles O7: the allotment of R32 from the requests, the host allowance and the fan power of this boundary. -/
theorem boundaryAllotment : Obligations.BoundaryAllotment := by
  intro s p now hp hdue hcommit
  have ht := State.arbitrate_slipKeeps (u := s.boundaryMarked.boundaryWorked now p) now p
  refine ⟨_, exec_windowBoundary hp hdue hcommit, ?_⟩
  have hframe := State.arbitrate_frame now p (s.boundaryMarked.boundaryWorked now p)
  have hblocks := State.boundaryWorked_blocks now p s.boundaryMarked
  obtain ⟨hhost, havailable, hheaters, hanswer⟩ := State.boundary_figures ht
  have hgrants := State.boundary_grants ht
  have hfans := State.boundary_fanPower ht
  have hallotment := State.boundary_allotment ht
  have hstill (htakes : s.boundaryTakesNone) := State.boundaryWorked_still now p s.boundaryMarked htakes
  have hair := State.airBoundary_frame now p s.boundaryMarked
  have hasked : (s.boundaryMarked.airBoundary now p).startAsked = decide (s.rail.state = .warming ∧ s.rail.startRequest) := by
    rw [State.startAsked, hair.2.2.2.1]
    rfl
  have hallowance := State.boundaryAllowance_eq p (s.boundaryMarked.airBoundary now p)
  rw [hair.2.2.2.1, hair.2.1, hasked, startGranted_eq, hfans] at hallowance
  rw [hasked, startGranted_eq, hfans] at hanswer
  rw [State.boundaryAvailable, hfans, ← hhost] at havailable
  have hedges : s.boundaryMarked.boundaryEdges now p =
      (List.range 64).filter fun n => (List.finRange 3).any fun z =>
        if n = 0 then decide (0 < ((s.boundaryMarked.airBoundary now p).boundaryGrants p)[z]) !=
          (s.climate.zones[z].grant == 64)
        else ((s.boundaryMarked.airBoundary now p).boundaryGrants p)[z] == n := by
    have hgrant (z : Fin 3) : (tab 3 fun z => s.boundaryMarked.climate.zones[z].grant)[z] = s.climate.zones[z].grant :=
      tab_get _ z
    unfold State.boundaryEdges edgeSlots isEdge
    simp only [hgrant]
  refine ⟨⟨hhost.trans hallowance, havailable, hanswer⟩, hallotment, fun z => ⟨?_, ?_⟩, ?_, ?_, ?_, ?_, fun hslot => ?_,
    State.allotted_of_grants hallotment, fun hwf => ?_, fun hwf htakes => ?_⟩
  · rw [(hgrants z).2.2, (hgrants z).1, (hgrants z).2.1]
    rfl
  · rw [hheaters, (hgrants z).2.1]
    exact tab_get _ z
  · exact hframe.1.trans hblocks.time
  · exact hframe.2.1.trans hblocks.sense
  · exact hframe.2.2.1.trans hblocks.supplyLow
  · rw [ht.keypad.edgeSet, State.boundaryWorked_keypad, hedges]
    simp only [fun z => (hgrants z).2.1]
  · rw [ht.keypad.edgeSet]
    exact State.scanDecided_congr now p (State.boundaryWorked_scan now p s.boundaryMarked hslot) ⟨rfl, rfl⟩
      ⟨ht.deferred, ht.scan⟩
  · have hworked := State.boundaryWorked_wf now p s.boundaryMarked hwf
    have hshown := (State.boundaryWorked_shows now p s.boundaryMarked hwf).1
    have hfigures := ht.climate.figures
    rw [hfigures]
    exact ht.shows hworked hshown (by decide)
      (by rw [List.length_append, le16_length, le16_length]; decide)
  · rw [hstill htakes]
    exact boundary_framed hwf

end Sys2Proof.Proofs
end

