-- ==== Sys2Proof/Proofs/ProbeWork.lean ====
section
/-!
SUPPORT. What a boundary leaves of the probe, in the words of the statements (R53 to R60).
-/

namespace Sys2Proof.Machine

/-! ### The result of a completed slip -/

section result
variable {x : Exchange} {n : Fin 16}

/-- A completed slot shows the result (R170), and the detail where no link is set. -/
theorem Exchange.complete_showsResult (hx : x.wf = true) (r : SlipResult) :
    (x.complete n.val r).showsResult n r.code r.payload ∧
      (r.code ≠ .ok → (x.complete n.val r).peek (slotAddr n.val + 7) = r.detail) := by
  have hcompleted := Exchange.complete_slotBody (n := n) hx r
  rw [Exchange.slotCompleted_iff] at hcompleted
  obtain ⟨hshows, hpayload, _⟩ := hcompleted
  have hlen := x.slotBody_length n
  have hbody : ((x.slotBody n).drop 1).take 5 = [x.peek (slotAddr n.val + 1), x.peek (slotAddr n.val + 2),
      x.peek (slotAddr n.val + 3), x.peek (slotAddr n.val + 4), x.peek (slotAddr n.val + 5)] := rfl
  rw [hbody] at hshows
  have hat (i : Nat) (hi : i < 8) := hshows i (by simp [hlen]; omega)
  refine ⟨⟨hat 0 (by omega), hat 6 (by omega), hpayload⟩, fun hcode => (hat 7 (by omega)).trans ?_⟩
  have hlink : linksIdle (x.chainedBeside n) (x.slotBody n) r = false := by simp [linksIdle, hcode]
  rw [hlink]
  exact BitVec.or_zero

end result

/-- Bytes of the slip table stand where only the figures of a boundary are written. -/
theorem Exchange.showsResult_of_writes {x y : Exchange} {n : Fin 16} {code : ResultCode} {payload : List Byte}
    (hx : x.wf = true) (hw : x.writes boundaryBytes y) (h : x.showsResult n code payload) : y.showsResult n code payload := by
  have hout (i : Nat) : outside boundaryBytes (slotAddr n.val + i) = true := by
    simp only [boundaryBytes, outside_cons, outside_nil, and_true, slotAddr]
    omega
  obtain ⟨howner, hcode, hpayload⟩ := h
  have hkept (i : Nat) (hi : i < 64) := (hw hx).kept _ (slotAddr_inside n i hi) (hout i)
  refine ⟨(hkept 0 (by omega)).trans howner, (hkept 6 (by omega)).trans hcode, ?_⟩
  refine hpayload.of_writes hx hw ?_ fun i _ => ?_
  · have hlen : (payloadBytes payload).length ≤ 32 := List.length_take_le _ _
    have := slotAddr_inside n 63 (by omega)
    omega
  · rw [Nat.add_assoc]
    exact hout _

section work
variable {now : SlotCount} {p : Image} {s v : State} {ev : ProbeEvent}

/-! ### The tests of the stage -/

theorem State.fansJudged_fault (f : Fin 2) : (s.fansJudged p).air.fans[f].fault = (s.boundaryWorked now p).air.fans[f].fault := by
  rw [State.fansJudged_air, State.boundaryWorked_fan]
  exact (congrArg FanRec.fault (tab_get (fun f => s.air.fans[f].judged p f) f)).trans rfl

theorem State.fansJudged_temp (k : Fin 6) : (s.fansJudged p).temp k = s.temp k := by
  rw [State.temp, State.temp, (State.fansJudged_frame p s).2.1]

theorem State.heated_eq : s.heated = (List.finRange 3).any fun z => decide (0 < s.climate.zones[z].grant) := rfl

/-- The reason of R56 that the stage finds is that of the statements. -/
theorem State.probeAbort_eq (held : HeldParams) :
    (s.fansJudged p).probeAbort (s.controlTemp.map (curveValue p)) held =
      s.endReason p held.probeDuty (s.boundaryWorked now p) := by
  obtain ⟨_, hsense, hclimate, hrail, _⟩ := State.fansJudged_frame p s
  have hload : loadFails s.sense.railAverage s.air.probe.referenceDraw =
      s.air.probe.referenceDraw.any fun r => 4 * s.sense.railAverage < 3 * r || 5 * r < 4 * s.sense.railAverage := by
    cases s.air.probe.referenceDraw <;> rfl
  have hfault : (s.fansJudged p).fanFaulted = true ↔
      (s.boundaryWorked now p).air.fans[(0 : Fin 2)].fault = true ∨
        (s.boundaryWorked now p).air.fans[(1 : Fin 2)].fault = true := by
    rw [State.fanFaulted, State.fansJudged_fault (now := now), State.fansJudged_fault (now := now), Bool.or_eq_true]
  have hprobe : (s.fansJudged p).air.probe = s.air.probe := by rw [State.fansJudged_air]
  unfold State.probeAbort State.endReason
  dsimp only
  rw [hprobe, hrail, hsense, hload, State.fansJudged_temp, State.fansJudged_temp, State.heated_eq, hclimate]
  simp only [hfault]

/-- The start conditions of R53 are those of the statements. -/
theorem State.probeMayStart_eq :
    (s.fansJudged p).probeMayStart p (s.controlTemp.map (curveValue p)) = s.startAllowed p (s.boundaryWorked now p) := by
  obtain ⟨_, _, hclimate, hrail, _⟩ := State.fansJudged_frame p s
  have hheated : (!(s.fansJudged p).heated) = (List.finRange 3).all fun z => s.climate.zones[z].grant == 0 := by
    rw [State.heated_eq, hclimate, List.not_any_eq_all_not]
    refine congrArg (List.all _) (funext fun z => ?_)
    rw [Bool.eq_iff_iff]
    simp
  unfold State.probeMayStart State.startAllowed
  rw [hheated, hrail, State.fansJudged_temp, State.fansJudged_temp, State.fanFaulted,
    State.fansJudged_fault (now := now), State.fansJudged_fault (now := now), Bool.not_or, Bool.beq_eq_decide_eq]
  simp only [Bool.and_assoc]

theorem State.fansJudged_due : (s.fansJudged p).air.due p = s.air.due p := by
  rw [State.fansJudged_air]
  rfl

theorem State.fansJudged_probe : (s.fansJudged p).air.probe = s.air.probe := by rw [State.fansJudged_air]

/-- The stage leaves the schedule. -/
theorem State.probed_schedule (now : SlotCount) (p : Image) (s : State) :
    (s.probed now p).1.air.elapsed = s.air.elapsed ∧ (s.probed now p).1.air.retry = s.air.retry := by
  have heffect := (State.probed_effect now p s).air
  rw [State.fansJudged_air] at heffect
  constructor <;> rw [heffect]

/-! ### A stage that ends nothing -/

/-- The schedule counts up (R60). -/
def State.scheduleCounted (s t : State) : Prop :=
  t.air.elapsed = min 2592000 (s.air.elapsed + 1) ∧ t.air.retry = s.air.retry - 1

theorem State.boundaryWorked_of_nothing (h : s.probed now p = (v, .nothing)) :
    (s.boundaryWorked now p).air.probe = v.air.probe ∧ s.scheduleCounted (s.boundaryWorked now p) := by
  obtain ⟨helapsed, hretry⟩ := State.probed_schedule now p s
  have hair := State.boundaryWorked_air now p s
  unfold State.scheduleCounted
  rw [State.airProbed, h] at hair
  rw [h] at helapsed hretry
  rw [hair, ← helapsed, ← hretry]
  exact ⟨rfl, rfl, rfl⟩

/-! ### The end of a probe -/

/-- The probe record `pr` has the sums of a boundary, and the rest of `pr'`. -/
def Probe.sameButSums (pr' pr : Probe) : Prop :=
  ∃ rise power left, pr = { pr' with riseSum := rise, powerSum := power, windowsLeft := left }

theorem abortResult_eq (reason : AbortReason) :
    (abortResult reason).code = (if reason = .stopped then .stopped else .aborted) ∧ (abortResult reason).payload = [] ∧
      (abortResult reason).detail = if reason = .stopped then 0 else reason.code := by
  cases reason <;> exact ⟨rfl, rfl, rfl⟩

theorem State.fansJudged_wf (hwf : s.xmem.wf = true) : (s.fansJudged p).xmem.wf = true :=
  ((State.fansJudged_noticed p s).writes hwf).wf

section ends
variable {pr : Probe} {reason : AbortReason}

/-- The air controller where the stage ends the probe. -/
theorem State.boundaryWorked_ended_air (hpr : s.air.probe.sameButSums pr)
    (h : s.probed now p = ((s.fansJudged p).withProbe pr).endProbe reason) :
    (s.boundaryWorked now p).air =
      { s.air with
        fans := (s.boundaryWorked now p).air.fans
        elapsed := min 2592000 (s.air.elapsed + 1)
        retry := if s.air.probe.bySlip && !s.air.probe.replacedDue then s.air.retry - 1 else 3600
        probe :=
          { s.air.probe with
            phase := .idle, lastAbort := reason, riseSum := 0, powerSum := 0, referenceDraw := none, windowsLeft := 0,
            stopPending := false, replacedDue := false } } := by
  obtain ⟨rise, power, left, rfl⟩ := hpr
  have hworked := State.boundaryWorked_air now p s
  have hair : (s.probed now p).1.air =
      (((s.fansJudged p).withProbe { s.air.probe with riseSum := rise, powerSum := power, windowsLeft := left }).probeDropped
        reason).air := by
    rw [h, State.endProbe_eq]
    dsimp only
    split <;> simp
  have hevent : (s.probed now p).2 = .ended (!s.air.probe.bySlip) s.air.probe.replacedDue := by
    rw [h, State.endProbe_eq]
    rfl
  have hretry : (if (!s.air.probe.bySlip || s.air.probe.replacedDue) = true then 3600 else s.air.retry - 1) =
      if (s.air.probe.bySlip && !s.air.probe.replacedDue) = true then s.air.retry - 1 else 3600 := by
    cases s.air.probe.bySlip <;> cases s.air.probe.replacedDue <;> rfl
  rw [State.airProbed, hair, hevent] at hworked
  rw [hworked, State.probeDropped, State.withProbe, State.withProbe, State.mapAir_air, State.mapAir_air, State.fansJudged_air,
    Air.schedule, ← hretry]

/-- The slip of a probe that ends without completing (R58, R170). -/
theorem State.probed_ended_slip (hwf : s.xmem.wf = true) (hpr : s.air.probe.sameButSums pr)
    (h : s.probed now p = ((s.fansJudged p).withProbe pr).endProbe reason) {n : Fin 16} (hslot : s.engine.airSlot = some n)
    (hslip : s.air.probe.bySlip = true) :
    (s.probed now p).1.engine.airSlot = none ∧
      (s.probed now p).1.xmem.showsResult n (if reason = .stopped then .stopped else .aborted) [] ∧
      (s.probed now p).1.xmem.peek (slotAddr n.val + 7) = (if reason = .stopped then 0 else reason.code) := by
  have hby : ((s.fansJudged p).withProbe pr).air.probe.bySlip = true := by
    obtain ⟨rise, power, left, rfl⟩ := hpr
    exact hslip
  have hjwf := State.fansJudged_wf (p := p) hwf
  have hjslot : (s.fansJudged p).engine.airSlot = some n := by
    rw [(State.fansJudged_frame p s).2.2.2.2.2.2.1, hslot]
  have hbinding : (((s.fansJudged p).withProbe pr).probeDropped reason).engine.binding .air = some n := hjslot
  obtain ⟨hcode, hpayload, hdetail⟩ := abortResult_eq reason
  obtain ⟨hshows, hpeek⟩ := Exchange.complete_showsResult (n := n) hjwf (abortResult reason)
  rw [hcode, hpayload] at hshows
  rw [h, State.endProbe_eq]
  dsimp only
  rw [if_pos hby, State.report_air_engine, State.report_of_some hbinding]
  exact ⟨rfl, hshows, (hpeek (abortResult_code reason)).trans hdetail⟩

/-- A probe that a boundary ends without completing (R58, R60). -/
theorem State.boundaryWorked_ended (hwf : s.xmem.wf = true) (hpr : s.air.probe.sameButSums pr)
    (h : s.probed now p = ((s.fansJudged p).withProbe pr).endProbe reason) : s.probeEnded reason (s.boundaryWorked now p) := by
  have hair := State.boundaryWorked_ended_air hpr h
  have hshown := (State.boundaryWorked_shows now p s hwf).2
  have hwrites := (State.boundaryWorked_published now p s).1
  have hprobed : (s.probed now p).1.xmem.wf = true := ((State.probed_notice now p s).writes hwf).wf
  have hengine : (s.boundaryWorked now p).engine = (s.probed now p).1.engine :=
    (State.boundaryWorked_blocks now p s).engine.trans (State.airBoundary_engine_store now p s).1
  rw [Air.pageBytes, Exchange.shows_append] at hshown
  unfold State.probeEnded
  dsimp only
  refine ⟨by rw [hair], by rw [hair], by rw [hair], by rw [hair], by rw [hair], ?_, fun n hslot hslip => ?_⟩
  · have hcodes := hshown.2
    rw [hair] at hcodes
    exact hcodes
  · obtain ⟨hgone, hshows, hdetail⟩ := State.probed_ended_slip hwf hpr h hslot hslip
    refine ⟨by rw [hengine, hgone], Exchange.showsResult_of_writes hprobed hwrites hshows, ?_⟩
    rw [← hdetail]
    refine (hwrites hprobed).kept _ (slotAddr_inside n 7 (by omega)) ?_
    simp only [boundaryBytes, outside_cons, outside_nil, and_true, slotAddr]
    omega

end ends

end work

end Sys2Proof.Machine
end

