-- ==== Sys2Proof/Proofs/ProbeCompletes.lean ====
section
/-!
SUPPORT. What a boundary that completes a probe leaves, in the words of the statements (R57, R59, R60, R62).
-/

namespace Sys2Proof.Machine

section operation
variable (now : SlotCount) (p : Image) (measure : Nat) (u : State)

/-- The air controller after a completion. -/
theorem State.completeProbe_air :
    (u.completeProbe now p measure).1.air =
      { u.air with
        probe :=
          { u.air.probe with
            phase := if u.air.probe.origin = some .resetFilterReference then .writing else .idle
            figures := u.air.probe.measured measure }
        clogIndex :=
          if u.air.probe.origin = some .resetFilterReference then u.air.clogIndex else u.air.measuredClog measure
        clogLimit :=
          if u.air.probe.origin = some .resetFilterReference ∨ u.air.filterReference = 0 then u.air.clogLimit
          else decide (Profile.clogWarn p ≤ u.air.measuredClog measure ∧ Profile.clogLimit p ≤ u.air.measuredClog measure) } := by
  rw [State.completeProbe_eq]
  by_cases hreset : u.air.probe.origin = some .resetFilterReference
  · rw [if_pos hreset, if_pos hreset, if_pos hreset, if_pos (Or.inl hreset)]
    simp
  · have hair := State.clogFormed_air p u measure
    have hlimit : (if u.air.filterReference = 0 then u.air.clogLimit
        else decide (Profile.clogWarn p ≤ u.air.measuredClog measure ∧ Profile.clogLimit p ≤ u.air.measuredClog measure)) =
        if u.air.probe.origin = some .resetFilterReference ∨ u.air.filterReference = 0 then u.air.clogLimit
        else decide (Profile.clogWarn p ≤ u.air.measuredClog measure ∧ Profile.clogLimit p ≤ u.air.measuredClog measure) :=
      if_congr (by simp [hreset]) rfl rfl
    rw [hlimit] at hair
    rw [if_neg hreset, if_neg hreset, if_neg hreset]
    split
    · simp only [State.report_frame]
      exact hair
    · exact hair

theorem State.completeProbe_snd : (u.completeProbe now p measure).2 = .completed := by rw [State.completeProbe_eq]

theorem State.handReference_fields (rf : Nat) :
    (u.handReference now rf).store =
      { u.store with
        service := if u.store.commit = .idle then .writing else .waiting
        serviceRf := rf
        writeBegan := if u.store.commit = .idle then some now else u.store.writeBegan } := by
  unfold State.handReference
  rw [State.mapStore_store]
  by_cases hidle : u.store.commit = .idle
  · rw [if_pos hidle, if_pos hidle, if_pos hidle]
  · rw [if_neg hidle, if_neg hidle, if_neg hidle]

/-- The store after a completion: a reset hands over its figure (R62). -/
theorem State.completeProbe_handsOver :
    (u.completeProbe now p measure).1.store =
      if u.air.probe.origin = some .resetFilterReference then
        { u.store with
          service := if u.store.commit = .idle then .writing else .waiting
          serviceRf := (u.air.probe.measured measure).rf
          writeBegan := if u.store.commit = .idle then some now else u.store.writeBegan }
      else u.store := by
  rw [State.completeProbe_eq]
  by_cases hreset : u.air.probe.origin = some .resetFilterReference
  · rw [if_pos hreset, if_pos hreset]
    exact State.handReference_fields now (u.mapAir _) _
  · rw [if_neg hreset, if_neg hreset]
    split
    · simp [(State.clogFormed_frame p u measure).2]
    · exact (State.clogFormed_frame p u measure).2

/-- The slip of PROBE AIRFLOW after a completion (R57, R170). -/
theorem State.completeProbe_slip (hwf : u.xmem.wf = true) {n : Fin 16} (hslot : u.engine.airSlot = some n)
    (horigin : u.air.probe.origin = some .probeAirflow) :
    (u.completeProbe now p measure).1.engine.airSlot = none ∧
      (u.completeProbe now p measure).1.xmem.showsResult n .ok
        (figuresPayload (u.air.probe.measured measure) (u.air.measuredClog measure)) := by
  have hbinding : (u.clogFormed p measure).engine.binding .air = some n := by
    rw [(State.clogFormed_frame p u measure).1]
    exact hslot
  have hformed : (u.clogFormed p measure).xmem.wf = true := ((State.clogFormed_noticed p u measure).writes hwf).wf
  have hshows := (Exchange.complete_showsResult (n := n) hformed
    { SlipResult.ok with payload := figuresPayload (u.air.probe.measured measure) (u.air.measuredClog measure) }).1
  rw [State.completeProbe_eq, if_neg (by simp [horigin]), if_pos horigin]
  dsimp only
  rw [State.report_air_engine, State.report_of_some hbinding]
  exact ⟨rfl, hshows⟩

end operation

/-- The clog causes alone among the causes of a boundary. -/
theorem clog_of_causes (faulted warn limit reported : Bool) (x : BitVec 12) :
    let y := x ||| ((if faulted then Cause.fanFault.bit else 0) ||| (if warn then Cause.clogWarn.bit else 0) |||
      (if limit then Cause.clogLimit.bit else 0) ||| if reported then Cause.slipDone.bit else 0)
    y &&& Cause.clogWarn.bit = (if warn then Cause.clogWarn.bit else x &&& Cause.clogWarn.bit) ∧
      y &&& Cause.clogLimit.bit = if limit then Cause.clogLimit.bit else x &&& Cause.clogLimit.bit := by
  have hmask : ∀ f w l r : Bool,
      ((if f then Cause.fanFault.bit else 0) ||| (if w then Cause.clogWarn.bit else 0) |||
          (if l then Cause.clogLimit.bit else 0) ||| if r then Cause.slipDone.bit else 0) &&& Cause.clogWarn.bit =
        (if w then Cause.clogWarn.bit else 0) ∧
      ((if f then Cause.fanFault.bit else 0) ||| (if w then Cause.clogWarn.bit else 0) |||
          (if l then Cause.clogLimit.bit else 0) ||| if r then Cause.slipDone.bit else 0) &&& Cause.clogLimit.bit =
        if l then Cause.clogLimit.bit else 0 := by decide
  have hraised (b : Bool) (c : BitVec 12) : ((x &&& c) ||| if b then c else 0) = if b then c else x &&& c := by
    cases b
    · exact BitVec.or_zero
    · rw [if_pos rfl, if_pos rfl]
      ext i hi
      simp only [BitVec.getElem_or, BitVec.getElem_and]
      cases x[i] <;> simp
  dsimp only
  refine ⟨?_, ?_⟩
  · rw [causes_masked, (hmask _ _ _ _).1, hraised]
  · rw [causes_masked, (hmask _ _ _ _).2, hraised]

/-! ### At a boundary -/

section work
variable {now : SlotCount} {p : Image} {s : State} {pr : Probe} {windows : Nat}

/-- The clog index that a completion leaves. -/
def State.completedIndex (windows : Nat) (pr : Probe) (s : State) : Nat :=
  if s.air.probe.origin = some .resetFilterReference then s.air.clogIndex
  else clogOf (pr.measured windows).rf s.air.filterReference

/-- The air controller where the stage completes the probe. -/
theorem State.boundaryWorked_completed_air (hpr : s.air.probe.sameButSums pr)
    (h : s.probed now p = ((s.fansJudged p).withProbe pr).completeProbe now p windows) :
    (s.boundaryWorked now p).air =
      { s.air with
        fans := (s.boundaryWorked now p).air.fans
        elapsed := 0, retry := 0
        clogIndex := s.completedIndex windows pr
        clogLimit :=
          if s.air.probe.origin = some .resetFilterReference ∨ s.air.filterReference = 0 then s.air.clogLimit
          else decide (Profile.clogWarn p ≤ clogOf (pr.measured windows).rf s.air.filterReference ∧
            Profile.clogLimit p ≤ clogOf (pr.measured windows).rf s.air.filterReference)
        probe :=
          { pr with
            phase := if s.air.probe.origin = some .resetFilterReference then .writing else .idle
            figures := pr.measured windows, replacedDue := false } } := by
  have horigin : pr.origin = s.air.probe.origin := by
    obtain ⟨_, _, _, rfl⟩ := hpr
    rfl
  have hworked := State.boundaryWorked_air now p s
  have hair := State.completeProbe_air now p windows ((s.fansJudged p).withProbe pr)
  have hevent := State.completeProbe_snd now p windows ((s.fansJudged p).withProbe pr)
  rw [← h] at hair hevent
  have hbase : ((s.fansJudged p).withProbe pr).air =
      { s.air with fans := tab 2 fun f => s.air.fans[f].judged p f, probe := pr } := by
    rw [State.withProbe, State.mapAir_air, State.fansJudged_air]
  rw [hbase] at hair
  dsimp only [Air.measuredClog] at hair
  rw [horigin] at hair
  rw [State.airProbed, hevent, hair] at hworked
  refine hworked.trans ?_
  rw [Air.schedule, State.completedIndex, ← horigin]
  rfl

/-- The figures of a completed probe in the air controller `a`. -/
def State.completedFields (windows : Nat) (pr : Probe) (s : State) (a : Air) : Prop :=
  a.probe.phase = (if s.air.probe.origin == some .resetFilterReference then .writing else .idle) ∧
    a.probe.figures = pr.measured windows ∧ a.probe.lastAbort = s.air.probe.lastAbort ∧ a.probe.replacedDue = false ∧
    a.elapsed = 0 ∧ a.retry = 0 ∧ a.clogIndex = s.completedIndex windows pr

/-- A probe that a boundary completes (R57, R59, R60, R62). -/
theorem State.boundaryWorked_completed (hwf : s.xmem.wf = true) (hphase : s.air.probe.phase = .measure)
    (hpr : s.air.probe.sameButSums pr)
    (h : s.probed now p = ((s.fansJudged p).withProbe pr).completeProbe now p windows) :
    s.probeCompleted p now windows pr.riseSum pr.powerSum (s.boundaryWorked now p) := by
  have horigin : pr.origin = s.air.probe.origin ∧ pr.lastAbort = s.air.probe.lastAbort := by
    obtain ⟨_, _, _, rfl⟩ := hpr
    exact ⟨rfl, rfl⟩
  have hair := State.boundaryWorked_completed_air hpr h
  have hshown := (State.boundaryWorked_shows now p s hwf).2
  have hraised := (State.boundaryWorked_raised now p s).1
  have hwrites := (State.boundaryWorked_published now p s).1
  have hprobed : (s.probed now p).1.xmem.wf = true := ((State.probed_notice now p s).writes hwf).wf
  have hengine : (s.boundaryWorked now p).engine = (s.probed now p).1.engine :=
    (State.boundaryWorked_blocks now p s).engine.trans (State.airBoundary_engine_store now p s).1
  have hstore : (s.boundaryWorked now p).store = (s.probed now p).1.store :=
    (State.boundaryWorked_blocks now p s).store.trans (State.airBoundary_engine_store now p s).2
  have hindex : s.completedIndex windows pr =
      if (s.air.probe.origin == some .resetFilterReference) = true then s.air.clogIndex
      else if s.air.filterReference = 0 then 0xFFFF
      else min 999 ((pr.riseSum * 1000 / pr.powerSum).toNat * 100 / s.air.filterReference) :=
    if_congr beq_iff_eq.symm rfl rfl
  have hfigures : s.completedFields windows pr (s.boundaryWorked now p).air := by
    rw [State.completedFields, hair]
    exact ⟨if_congr beq_iff_eq.symm rfl rfl, rfl, horigin.2, rfl, rfl, rfl, rfl⟩
  obtain ⟨hdone, hfig, habort, hreplaced, helapsed, hretry, hclog⟩ := hfigures
  unfold State.boundaryCauses at hraised
  dsimp only at hraised
  rw [helapsed, hclog, hphase, beq_self_eq_true, beq_self_eq_true, Bool.true_and, Bool.true_and] at hraised
  unfold State.probeCompleted
  dsimp only
  rw [← hindex, hraised]
  obtain ⟨hwarn, hlimit⟩ := clog_of_causes _ _ _ _ _
  refine ⟨hdone, hfig, habort, hreplaced, helapsed, hretry, hclog, ?_, ?_, hwarn, hlimit, ?_, fun n hslot hairflow => ?_⟩
  · rw [hair]
    by_cases hcalm : s.air.probe.origin = some .resetFilterReference ∨ s.air.filterReference = 0
    · have hnot : ¬ (!(s.air.probe.origin == some .resetFilterReference) && s.air.filterReference != 0) = true := by
        obtain hcalm | hcalm := hcalm <;> simp [hcalm]
      rw [if_pos hcalm, if_neg hnot]
    · obtain ⟨hreset, hzero⟩ := not_or.mp hcalm
      have hyes : (!(s.air.probe.origin == some .resetFilterReference) && s.air.filterReference != 0) = true := by
        simp [hreset, hzero]
      have hclogged : s.completedIndex windows pr = clogOf (pr.measured windows).rf s.air.filterReference := if_neg hreset
      rw [if_neg hcalm, if_pos hyes, hyes, Bool.true_and, hclogged, Bool.decide_and]
  · rw [Air.pageBytes, hclog, habort] at hshown
    exact hshown
  · have hbase : ((s.fansJudged p).withProbe pr).store = s.store := (State.fansJudged_frame p s).2.2.2.2.2.2.2.1
    have hprobe : ((s.fansJudged p).withProbe pr).air.probe = pr := rfl
    rw [hstore, h, State.completeProbe_handsOver, hbase, hprobe, horigin.1]
    exact if_congr beq_iff_eq.symm rfl rfl
  · have hbinding : ((s.fansJudged p).withProbe pr).engine.airSlot = some n := by
      rw [← hslot]
      exact congrArg Engine.airSlot (State.fansJudged_frame p s).2.2.2.2.2.2.1
    obtain ⟨hgone, hshows⟩ := State.completeProbe_slip now p windows ((s.fansJudged p).withProbe pr)
      (State.fansJudged_wf hwf) hbinding (horigin.1.trans hairflow)
    have hmeasured : ((s.fansJudged p).withProbe pr).air.measuredClog windows = s.completedIndex windows pr := by
      rw [State.completedIndex, if_neg (by simp [hairflow]), Air.measuredClog]
      refine congrArg (clogOf _) ?_
      rw [State.withProbe, State.mapAir_air, State.fansJudged_air]
    rw [hmeasured] at hshows
    rw [← h] at hgone hshows
    exact ⟨by rw [hengine, hgone], Exchange.showsResult_of_writes hprobed hwrites hshows⟩

end work

end Sys2Proof.Machine
end

