-- ==== Sys2Proof/Proofs/ProbeMoves.lean ====
section
/-!
O10. The start, the settling, the measurement, the end and the completion of a probe at a boundary (R53 to R62).
-/

namespace Sys2Proof.Machine

section work
variable {now : SlotCount} {p : Image} {s : State}

/-! ### The stage at a boundary, by the phase -/

theorem Probe.sameButSums_self (pr : Probe) : pr.sameButSums pr := ⟨_, _, _, rfl⟩

theorem State.probeSums_sameButSums (u : State) : u.air.probe.sameButSums u.probeSums := ⟨_, _, _, rfl⟩

theorem State.withProbe_self (u : State) : u.withProbe u.air.probe = u := rfl

/-- The end of the judged probe, in the shape of `State.boundaryWorked_ended`. -/
theorem State.endProbe_self (reason : AbortReason) :
    (s.fansJudged p).endProbe reason = ((s.fansJudged p).withProbe s.air.probe).endProbe reason := by
  rw [← State.fansJudged_probe (p := p), State.withProbe_self]

theorem State.probed_idle (h : s.air.probe.phase = .idle) :
    s.probed now p =
      (if s.air.due p && s.startAllowed p (s.boundaryWorked now p) then (s.fansJudged p).startProbe p else s.fansJudged p,
        .nothing) := by
  rw [State.probed_eq, State.probeStage_idle (by rw [State.fansJudged_probe, h]), State.fansJudged_due,
    State.probeMayStart_eq (now := now)]

theorem State.probed_waiting (h : s.air.probe.phase = .waiting) :
    s.probed now p =
      if s.air.probe.stopPending then ((s.fansJudged p).withProbe s.air.probe).endProbe .stopped
      else if s.rail.state ≠ .running then ((s.fansJudged p).withProbe s.air.probe).endProbe .rail
      else (if s.startAllowed p (s.boundaryWorked now p) then (s.fansJudged p).startProbe p else s.fansJudged p, .nothing) := by
  rw [State.probed_eq, State.probeStage_waiting (by rw [State.fansJudged_probe, h]), State.probeMayStart_eq (now := now),
    State.fansJudged_probe, (State.fansJudged_frame p s).2.2.2.1, State.endProbe_self, State.endProbe_self]

theorem State.probed_writing (h : s.air.probe.phase = .writing) : s.probed now p = (s.fansJudged p, .nothing) := by
  rw [State.probed_eq, State.probeStage_writing (by rw [State.fansJudged_probe, h])]

theorem State.probed_unheld (h : s.air.probe.phase = .settle ∨ s.air.probe.phase = .measure)
    (hheld : s.air.probe.heldParams = none) : s.probed now p = (s.fansJudged p, .nothing) := by
  rw [State.probed_eq, State.probeStage_unheld (by rwa [State.fansJudged_probe]) (by rwa [State.fansJudged_probe])]

theorem State.probed_settle {held : HeldParams} (h : s.air.probe.phase = .settle) (hheld : s.air.probe.heldParams = some held) :
    s.probed now p =
      match s.endReason p held.probeDuty (s.boundaryWorked now p) with
      | some reason => ((s.fansJudged p).withProbe s.air.probe).endProbe reason
      | none => ((s.fansJudged p).withProbe (s.air.probe.settleStep s.sense.railAverage held), .nothing) := by
  rw [State.probed_eq, State.probeStage_settle (held := held) (by rw [State.fansJudged_probe, h])
    (by rw [State.fansJudged_probe, hheld]), State.probeAbort_eq (now := now), State.fansJudged_probe,
    (State.fansJudged_frame p s).2.1]
  cases s.endReason p held.probeDuty (s.boundaryWorked now p) with
  | none => rfl
  | some reason => exact State.endProbe_self reason

theorem State.fansJudged_probeSums : (s.fansJudged p).probeSums = s.probeSums := by
  unfold State.probeSums
  rw [State.fansJudged_probe, State.fansJudged_temp, State.fansJudged_temp, (State.fansJudged_frame p s).2.1]

theorem State.probed_measure {held : HeldParams} (h : s.air.probe.phase = .measure)
    (hheld : s.air.probe.heldParams = some held) :
    s.probed now p =
      match s.endReason p held.probeDuty (s.boundaryWorked now p) with
      | some reason => ((s.fansJudged p).withProbe s.air.probe).endProbe reason
      | none => ((s.fansJudged p).withProbe s.probeSums).measured now p held := by
  rw [State.probed_eq, State.probeStage_measure (held := held) (by rw [State.fansJudged_probe, h])
    (by rw [State.fansJudged_probe, hheld]), State.probeAbort_eq (now := now), State.fansJudged_probeSums]
  cases s.endReason p held.probeDuty (s.boundaryWorked now p) with
  | none => rfl
  | some reason => exact State.endProbe_self reason

/-- A measurement that has its sums ends for two reasons, completes, or goes on (R55, R56). -/
theorem State.measured_eq {held : HeldParams} {u : State} {pr : Probe} :
    (u.withProbe pr).measured now p held =
      if pr.windowsLeft = 0 then
        if pr.powerSum < 100 * held.measureTime then (u.withProbe pr).endProbe .lowLoad
        else if pr.riseSum ≤ 0 then (u.withProbe pr).endProbe .noRise
        else (u.withProbe pr).completeProbe now p held.measureTime
      else (u.withProbe pr, .nothing) := rfl

theorem Probe.settleStep_eq {pr : Probe} (h : pr.phase = .settle) (average : Nat) (held : HeldParams) :
    pr.settleStep average held =
      { pr with
        referenceDraw := some (pr.referenceDraw.getD average)
        phase := if pr.windowsLeft - 1 = 0 then .measure else .settle
        windowsLeft := if pr.windowsLeft - 1 = 0 then held.measureTime else pr.windowsLeft - 1 } := by
  unfold Probe.settleStep
  dsimp only
  by_cases hleft : pr.windowsLeft - 1 = 0
  · rw [if_pos hleft, if_pos hleft, if_pos hleft]
  · rw [if_neg hleft, if_neg hleft, if_neg hleft, h]

/-! ### The moves of the probe -/

/-- Every boundary moves the probe as R53 to R60 state. -/
theorem State.boundaryWorked_probeMoved (hwf : s.xmem.wf = true) : s.probeMoved p now (s.boundaryWorked now p) := by
  have hself := Probe.sameButSums_self s.air.probe
  have hjudged : (s.fansJudged p).air.probe = s.air.probe := State.fansJudged_probe
  unfold State.probeMoved
  dsimp only
  refine ⟨fun hidle => ?_, fun hwaiting hstop => ?_, fun hwaiting hgo hrail => ?_, fun hwaiting hgo hrail => ?_,
    fun hwriting => ?_, fun held hheld => ⟨fun reason hreason hphase => ?_, fun hreason hsettle => ?_,
      fun hreason hmeasure => ⟨fun hleft => ?_, fun hleft hlow => ?_, fun hleft hload hrise => ?_, fun hleft hload hrise => ?_⟩⟩⟩
  · obtain ⟨hprobe, hcounted⟩ := State.boundaryWorked_of_nothing (State.probed_idle (now := now) (p := p) hidle)
    refine ⟨?_, hcounted⟩
    rw [hprobe]
    split
    · rfl
    · rw [hjudged, hidle]
  · have h := State.probed_waiting (now := now) (p := p) hwaiting
    rw [if_pos hstop] at h
    exact State.boundaryWorked_ended hwf hself h
  · have h := State.probed_waiting (now := now) (p := p) hwaiting
    rw [if_neg (by rw [hgo]; exact Bool.false_ne_true), if_pos hrail] at h
    exact State.boundaryWorked_ended hwf hself h
  · have h := State.probed_waiting (now := now) (p := p) hwaiting
    rw [if_neg (by rw [hgo]; exact Bool.false_ne_true), if_neg (not_not.mpr hrail)] at h
    obtain ⟨hprobe, hcounted⟩ := State.boundaryWorked_of_nothing h
    refine ⟨?_, hcounted⟩
    rw [hprobe]
    split
    · rfl
    · rw [hjudged, hwaiting]
  · obtain ⟨hprobe, hcounted⟩ := State.boundaryWorked_of_nothing (State.probed_writing (now := now) (p := p) hwriting)
    exact ⟨hprobe.trans hjudged, hcounted⟩
  · obtain hsettle | hmeasure := hphase
    · have h := State.probed_settle (now := now) (p := p) hsettle hheld
      rw [hreason] at h
      exact State.boundaryWorked_ended hwf hself h
    · have h := State.probed_measure (now := now) (p := p) hmeasure hheld
      rw [hreason] at h
      exact State.boundaryWorked_ended hwf hself h
  · have h := State.probed_settle (now := now) (p := p) hsettle hheld
    rw [hreason] at h
    obtain ⟨hprobe, hcounted⟩ := State.boundaryWorked_of_nothing h
    exact ⟨hprobe.trans (Probe.settleStep_eq hsettle _ held), hcounted⟩
  all_goals
    have h := State.probed_measure (now := now) (p := p) hmeasure hheld
    rw [hreason] at h
    dsimp only at h
    rw [State.measured_eq] at h
  · rw [if_neg (show ¬ s.probeSums.windowsLeft = 0 from hleft)] at h
    exact State.boundaryWorked_of_nothing h
  all_goals rw [if_pos (show s.probeSums.windowsLeft = 0 from hleft)] at h
  · rw [if_pos (show s.probeSums.powerSum < _ from hlow)] at h
    exact State.boundaryWorked_ended hwf (State.probeSums_sameButSums s) h
  all_goals rw [if_neg (show ¬ s.probeSums.powerSum < _ from not_lt.mpr hload)] at h
  · rw [if_pos (show s.probeSums.riseSum ≤ 0 from hrise)] at h
    exact State.boundaryWorked_ended hwf (State.probeSums_sameButSums s) h
  · rw [if_neg (show ¬ s.probeSums.riseSum ≤ 0 from not_le.mpr hrise)] at h
    exact State.boundaryWorked_completed hwf hmeasure (State.probeSums_sameButSums s) h

/-- A probe in SETTLE after a slip was in SETTLE before it. -/
theorem Air.slipKept.settled {a b : Air} (h : a.slipKept b) (hsettle : b.probe.phase = .settle) :
    a.probe.phase = .settle ∧ b.probe = { a.probe with stopPending := b.probe.stopPending } := by
  have hnot : a.probe.phase ≠ .idle := fun hidle => by
    obtain hb | hb := h.idle hidle <;> rw [hb] at hsettle <;> cases hsettle
  have hkept := h.inFlight hnot
  refine ⟨?_, hkept⟩
  rw [hkept] at hsettle
  exact hsettle

/-! ### The start of a probe -/

/-- The record of a probe that starts (R53). -/
def State.startedProbe (p : Image) (s : State) : Probe :=
  { s.air.probe with
    phase := .settle
    origin := if s.air.probe.phase = .waiting then s.air.probe.origin else some .schedule
    heldParams := some
      { probeDuty := Profile.probeDuty p, settleTime := Profile.settleTime p, measureTime := Profile.measureTime p }
    windowsLeft := Profile.settleTime p, riseSum := 0, powerSum := 0, referenceDraw := none
    stopPending := false, replacedDue := decide (s.air.probe.phase = .waiting) && s.air.due p }

theorem State.startProbe_probe : ((s.fansJudged p).startProbe p).air.probe = s.startedProbe p := by
  unfold State.startProbe State.startedProbe
  rw [State.mapAir_air, State.fansJudged_due, State.fansJudged_probe]

/-- A boundary that takes the probe into SETTLE starts it: the probe was wanted, and every start condition holds. -/
theorem State.boundaryWorked_starts (hsettle : (s.boundaryWorked now p).air.probe.phase = .settle)
    (hnot : s.air.probe.phase ≠ .settle) :
    (s.air.probe.phase = .waiting ∨ (s.air.probe.phase = .idle ∧ s.air.due p = true)) ∧
      s.startAllowed p (s.boundaryWorked now p) = true ∧ (s.boundaryWorked now p).air.probe = s.startedProbe p := by
  have hjudged : (s.fansJudged p).air.probe = s.air.probe := State.fansJudged_probe
  have hstands (h : s.probed now p = (s.fansJudged p, .nothing)) : False := by
    rw [(State.boundaryWorked_of_nothing h).1, hjudged] at hsettle
    exact hnot hsettle
  have hended {pr : Probe} {reason : AbortReason} (hpr : s.air.probe.sameButSums pr)
      (h : s.probed now p = ((s.fansJudged p).withProbe pr).endProbe reason) : False := by
    rw [State.boundaryWorked_ended_air hpr h] at hsettle
    cases hsettle
  have hself := Probe.sameButSums_self s.air.probe
  have hsums := State.probeSums_sameButSums s
  cases hphase : s.air.probe.phase with
  | settle => exact absurd hphase hnot
  | writing => exact (hstands (State.probed_writing hphase)).elim
  | idle =>
    have h := State.probed_idle (now := now) (p := p) hphase
    by_cases hstart : (s.air.due p && s.startAllowed p (s.boundaryWorked now p)) = true
    · rw [if_pos hstart] at h
      obtain ⟨hdue, hallowed⟩ := Bool.and_eq_true_iff.mp hstart
      exact ⟨Or.inr ⟨rfl, hdue⟩, hallowed, (State.boundaryWorked_of_nothing h).1.trans State.startProbe_probe⟩
    · rw [if_neg hstart] at h
      exact (hstands h).elim
  | waiting =>
    have h := State.probed_waiting (now := now) (p := p) hphase
    split at h
    · exact (hended hself h).elim
    · split at h
      · exact (hended hself h).elim
      · by_cases hallowed : s.startAllowed p (s.boundaryWorked now p) = true
        · rw [if_pos hallowed] at h
          exact ⟨Or.inl rfl, hallowed, (State.boundaryWorked_of_nothing h).1.trans State.startProbe_probe⟩
        · rw [if_neg hallowed] at h
          exact (hstands h).elim
  | measure =>
    cases hheld : s.air.probe.heldParams with
    | none => exact (hstands (State.probed_unheld (Or.inr hphase) hheld)).elim
    | some held =>
      have h := State.probed_measure (now := now) (p := p) hphase hheld
      split at h
      · exact (hended hself h).elim
      · rw [State.measured_eq] at h
        split at h
        · split at h
          · exact (hended hsums h).elim
          · split at h
            · exact (hended hsums h).elim
            · rw [State.boundaryWorked_completed_air hsums h] at hsettle
              dsimp only at hsettle
              split at hsettle <;> cases hsettle
        · rw [(State.boundaryWorked_of_nothing h).1] at hsettle
          exact absurd (hphase.symm.trans hsettle) (by decide)

end work

end Sys2Proof.Machine

namespace Sys2Proof.Proofs
open Sys2Proof.Machine

/-- Settles O10: the start, and then the moves of the probe at a boundary that takes no slip. -/
theorem probeStartsOnlyWhenAllowed : Obligations.ProbeStartsOnlyWhenAllowed := by
  intro s p now hp hdue hcommit
  have ht := State.arbitrate_slipKeeps (u := s.boundaryMarked.boundaryWorked now p) now p
  refine ⟨_, exec_windowBoundary hp hdue hcommit, fun hsettle hnot => ?_, fun hwf htakes => ?_⟩
  · obtain ⟨hworked, hprobe⟩ := ht.air.settled hsettle
    obtain ⟨hwanted, hallowed, hstarted⟩ := State.boundaryWorked_starts (s := s.boundaryMarked) hworked hnot
    have hwanted' : s.air.probe.phase = .waiting ∨ (s.air.probe.phase = .idle ∧ s.air.due p = true) := hwanted
    have hduty (f : Fin 2) := (State.boundary_drive ht f).1.trans (State.boundary_duty ht f)
    have hfault (f : Fin 2) := congrArg FanRec.fault (ht.air.fans f)
    rw [hstarted] at hprobe
    generalize (s.boundaryMarked.boundaryWorked now p).arbitrate now p = t at *
    simp only [State.startAllowed, Bool.and_eq_true, beq_iff_eq, List.all_eq_true, List.mem_finRange, true_implies,
      Bool.not_eq_true', decide_eq_true_eq] at hallowed
    obtain ⟨⟨⟨⟨⟨⟨hrail, hgrants⟩, hfirst⟩, hsecond⟩, hinlet⟩, houtlet⟩, hcurve⟩ := hallowed
    refine ⟨hwanted', hrail, hgrants, fun f => (hfault f).trans ?_, hinlet, houtlet, hcurve, ?_, ?_, ?_, ?_, ?_, ?_, ?_,
      fun f hfitted => ?_⟩
    · revert f
      exact Fin.forall_fin_two.mpr ⟨hfirst, hsecond⟩
    · rw [hprobe]
      obtain hwaiting | ⟨hidle, _⟩ := hwanted'
      · exact (if_pos hwaiting).trans (if_neg (show ¬ s.air.probe.phase = .idle by rw [hwaiting]; decide)).symm
      · exact (if_neg (show ¬ s.air.probe.phase = .waiting by rw [hidle]; decide)).trans (if_pos hidle).symm
    · rw [hprobe]
      rfl
    · rw [hprobe]
      rfl
    · rw [hprobe]
      rfl
    · rw [hprobe]
      rfl
    · rw [hprobe]
      rfl
    · rw [hprobe]
      rfl
    · have h := hduty f
      rw [hsettle, decide_eq_true (Or.inl rfl), if_pos rfl, if_pos hfitted] at h
      rw [h, hprobe]
      rfl
  · rw [State.boundaryWorked_still now p s.boundaryMarked htakes]
    exact State.boundaryWorked_probeMoved (s := s.boundaryMarked) hwf

end Sys2Proof.Proofs
end

