-- ==== Sys2Proof/Proofs/KeypadAdopts.lean ====
section
/-!
SUPPORT. The keypad controller takes up a new profile (R149): the keys, the chords, the rebaseline set and the notice, key after
key, in the words of the statements.
-/

namespace Sys2Proof.Machine

section adopt
variable (old new : Image)

/-- A key that the new profile disables. -/
def keyLost (k : Fin 24) : Bool := Profile.keyEnabled old k && !Profile.keyEnabled new k

/-- A key that the new profile enables. -/
def keyJoins (k : Fin 24) : Bool := !Profile.keyEnabled old k && Profile.keyEnabled new k

/-- A key record after the new profile. -/
def KeyRec.adopted (k : Fin 24) (r : KeyRec) : KeyRec :=
  { r with
    state := if keyLost old new k then .idle else if keyJoins old new k then .calibrating else r.state
    calSum := if keyLost old new k || keyJoins old new k then 0 else r.calSum
    calCount := if keyLost old new k || keyJoins old new k then 0 else r.calCount
    touchTime := if keyLost old new k && r.state.isTouched then none else r.touchTime
    nextHold :=
      if (keyLost old new k && r.state.isTouched) || !Profile.repeating new k then none else r.nextHold }

/-- A touch of the power key that ends with the new profile. -/
def KeyRec.adoptNotice (k : Fin 24) (r : KeyRec) : Bool :=
  r.state.isTouched &&
    ((keyLost old new k && (Profile.powerKey new == some k || Profile.powerKey old == some k)) ||
      (!keyLost old new k && !keyJoins old new k && Profile.powerKey old == some k && Profile.powerKey new != some k))

/-- A rebaseline set without the key `k` where it is lost. -/
def keyLeaves (m : BitVec 24) (k : Fin 24) : BitVec 24 := if keyLost old new k then m &&& ~~~(1#24 <<< k.val) else m

/-- A chord after the new profile has taken the key `k`. -/
def ChordRec.afterKey (ends : Bool) (r : ChordRec) : ChordRec := if ends then { fired := false, holdEnd := none } else r

theorem Keypad.adoptKey_eq (kp : Keypad) (k : Fin 24) :
    kp.adoptKey old new k =
      ({ kp with
          keys := kp.keys.set k (kp.keys[k].adopted old new k)
          chords := tab 4 fun c => kp.chords[c].afterKey
            (keyLost old new k && kp.keys[k].state.isTouched && (Profile.chordMembers new c).contains k)
          rebaseline := kp.rebaseline.map fun m => keyLeaves old new m k },
        kp.keys[k].adoptNotice old new k) := by
  have hstands : (tab 4 fun c => kp.chords[c].afterKey false) = kp.chords := tab_self _
  have hset : kp.rebaseline.map (fun m => m) = kp.rebaseline := by simp
  have hrepeat (r : KeyRec) : (if Profile.repeating new k = true then r else { r with nextHold := none }) =
      { r with nextHold := if (!Profile.repeating new k) = true then none else r.nextHold } := by
    cases Profile.repeating new k <;> rfl
  unfold Keypad.adoptKey keyLeaves KeyRec.adopted KeyRec.adoptNotice
  dsimp only
  rw [hrepeat, ← keyLost, ← keyJoins]
  generalize kp.keys[k] = r
  cases hlost : keyLost old new k
  · simp only [Bool.false_and, hstands, hset, Bool.false_or, Bool.false_eq_true, if_false, Bool.not_false, Bool.true_and]
    cases hjoins : keyJoins old new k
    · simp [Keypad.setKey, Bool.and_assoc, Bool.beq_eq_decide_eq]
    · simp [Keypad.setKey]
  · cases htouched : r.state.isTouched
    · simp only [Bool.and_false, Bool.false_and, hstands]
      simp [Keypad.setKey]
    · simp [Keypad.setKey, Keypad.rearm, KeyRec.endTouch, ChordRec.afterKey, Bool.beq_eq_decide_eq]

/-! ### Key after key -/

theorem any_congr_of_mem {α : Type} {l : List α} {f g : α → Bool} (h : ∀ x ∈ l, f x = g x) : l.any f = l.any g := by
  rw [Bool.eq_iff_iff, List.any_eq_true, List.any_eq_true]
  exact exists_congr fun x => and_congr_right fun hx => by rw [h x hx]

/-- What the keys of the list `l` make of a keypad controller `a`, with the notices so far. -/
structure Keypad.adoptedKeys (l : List (Fin 24)) (a r : Keypad × Bool) : Prop where
  keys : ∀ j : Fin 24, r.1.keys[j] = if j ∈ l then a.1.keys[j].adopted old new j else a.1.keys[j]
  chords : ∀ c : Fin 4, r.1.chords[c] = a.1.chords[c].afterKey
    (l.any fun k => keyLost old new k && a.1.keys[k].state.isTouched && (Profile.chordMembers new c).contains k)
  rebaseline : r.1.rebaseline = a.1.rebaseline.map fun m => l.foldl (keyLeaves old new) m
  notice : r.2 = (a.2 || l.any fun k => a.1.keys[k].adoptNotice old new k)
  rest : r.1 = { a.1 with keys := r.1.keys, chords := r.1.chords, rebaseline := r.1.rebaseline }

theorem ChordRec.afterKey_or (a b : Bool) (r : ChordRec) : (r.afterKey a).afterKey b = r.afterKey (a || b) := by
  cases a <;> cases b <;> rfl

theorem Keypad.foldl_adoptNext (l : List (Fin 24)) (hl : l.Nodup) (a : Keypad × Bool) :
    Keypad.adoptedKeys old new l a (l.foldl (Keypad.adoptNext old new) a) := by
  induction l generalizing a with
  | nil =>
    refine ⟨fun j => (if_neg List.not_mem_nil).symm, fun c => rfl, ?_, (Bool.or_false _).symm, rfl⟩
    rw [List.foldl_nil]
    simp
  | cons k l ih =>
    obtain ⟨hk, hl⟩ := List.nodup_cons.mp hl
    have htail := ih hl (Keypad.adoptNext old new a k)
    have hstep := Keypad.adoptKey_eq old new a.1 k
    have hkey (j : Fin 24) : (Keypad.adoptNext old new a k).1.keys[j] =
        if j = k then a.1.keys[j].adopted old new j else a.1.keys[j] := by
      have hset := Keypad.setKey_key (kp := a.1) k j (a.1.keys[k].adopted old new k)
      rw [Keypad.adoptNext, hstep]
      refine hset.trans ?_
      split
      · next h => rw [h]
      · rfl
    have hchord (c : Fin 4) : (Keypad.adoptNext old new a k).1.chords[c] = a.1.chords[c].afterKey
        (keyLost old new k && a.1.keys[k].state.isTouched && (Profile.chordMembers new c).contains k) := by
      rw [Keypad.adoptNext, hstep]
      exact tab_get _ c
    have hother {j : Fin 24} (hj : j ∈ l) : (Keypad.adoptNext old new a k).1.keys[j] = a.1.keys[j] := by
      rw [hkey, if_neg]
      rintro rfl
      exact hk hj
    rw [List.foldl_cons]
    refine ⟨fun j => ?_, fun c => ?_, ?_, ?_, ?_⟩
    · rw [htail.keys j, hkey]
      by_cases hj : j = k
      · rw [hj, if_neg hk, if_pos rfl, if_pos List.mem_cons_self]
      · rw [if_neg hj]
        exact if_congr (by rw [List.mem_cons, or_iff_right hj]) rfl rfl
    · rw [htail.chords c, hchord, ChordRec.afterKey_or, List.any_cons]
      refine congrArg (fun b => a.1.chords[c].afterKey (_ || b)) (any_congr_of_mem fun j hj => ?_)
      rw [hother hj]
    · rw [htail.rebaseline]
      refine (congrArg (Option.map _) (congrArg Keypad.rebaseline (congrArg Prod.fst hstep) :)).trans ?_
      rw [Option.map_map]
      rfl
    · rw [htail.notice, List.any_cons, ← Bool.or_assoc]
      have hfirst : (Keypad.adoptNext old new a k).2 = (a.2 || a.1.keys[k].adoptNotice old new k) := by
        rw [Keypad.adoptNext, hstep]
      rw [hfirst]
      refine congrArg _ (any_congr_of_mem fun j hj => ?_)
      rw [hother hj]
    · have hfirst : (Keypad.adoptNext old new a k).1 =
          { a.1 with
            keys := (Keypad.adoptNext old new a k).1.keys, chords := (Keypad.adoptNext old new a k).1.chords
            rebaseline := (Keypad.adoptNext old new a k).1.rebaseline } := by
        rw [Keypad.adoptNext, hstep]
      rw [htail.rest, hfirst]

/-! ### All keys -/

theorem getLsbD_keyLeaves (m : BitVec 24) (k j : Fin 24) :
    (keyLeaves old new m k).getLsbD j.val = (m.getLsbD j.val && !(decide (j = k) && keyLost old new k)) := by
  have hbit : (1#24 <<< k.val).getLsbD j.val = decide (j = k) := by
    revert j k
    decide
  unfold keyLeaves
  cases keyLost old new k
  · simp
  · rw [if_pos rfl, BitVec.getLsbD_and, BitVec.getLsbD_not, hbit, Bool.and_true, decide_eq_true j.isLt, Bool.true_and]

theorem getLsbD_foldl_keyLeaves (l : List (Fin 24)) (m : BitVec 24) (j : Fin 24) :
    (l.foldl (keyLeaves old new) m).getLsbD j.val = (m.getLsbD j.val && !(decide (j ∈ l) && keyLost old new j)) := by
  induction l generalizing m with
  | nil => simp
  | cons k l ih =>
    rw [List.foldl_cons, ih, getLsbD_keyLeaves]
    by_cases hj : j = k
    · subst hj
      cases keyLost old new j <;> simp
    · simp [hj]

/-- The keypad controller after the new profile, before its page and its notice. -/
structure Keypad.profileTaken (a b : Keypad) : Prop where
  keys : ∀ j : Fin 24, b.keys[j] = a.keys[j].adopted old new j
  chords : ∀ c : Fin 4, b.chords[c] =
    if chordsChanged old new || (Profile.chordMembers new c).any fun k => keyLost old new k && a.keys[k].state.isTouched then
      { fired := false, holdEnd := none }
    else a.chords[c]
  rebaseline : ∀ set left, a.rebaseline = some set →
    (∀ k : Fin 24, left.getLsbD k.val = (set.getLsbD k.val && !keyLost old new k)) → b.rebaseline = some left
  noRebaseline : a.rebaseline = none → b.rebaseline = none
  rest : b = { a with keys := b.keys, chords := b.chords, rebaseline := b.rebaseline }

theorem Keypad.adopted_profileTaken (a : Keypad) :
    Keypad.profileTaken old new a (a.adopted old new).1 ∧
      (a.adopted old new).2 = (List.finRange 24).any fun k => a.keys[k].adoptNotice old new k := by
  have hall := Keypad.foldl_adoptNext old new (List.finRange 24) (List.nodup_finRange 24) (a, false)
  unfold Keypad.adopted
  dsimp only
  generalize (List.finRange 24).foldl (Keypad.adoptNext old new) (a, false) = r at *
  have hmember (c : Fin 4) :
      ((List.finRange 24).any fun k =>
        keyLost old new k && a.keys[k].state.isTouched && (Profile.chordMembers new c).contains k) =
      (Profile.chordMembers new c).any fun k => keyLost old new k && a.keys[k].state.isTouched := by
    rw [Bool.eq_iff_iff]
    simp [and_comm]
  have hset {set left : BitVec 24}
      (h : ∀ k : Fin 24, left.getLsbD k.val = (set.getLsbD k.val && !keyLost old new k)) :
      (List.finRange 24).foldl (keyLeaves old new) set = left :=
    keyMask_ext fun k => by rw [getLsbD_foldl_keyLeaves, h, decide_eq_true (List.mem_finRange k), Bool.true_and]
  have hkeys (j : Fin 24) : r.1.keys[j] = a.keys[j].adopted old new j :=
    (hall.keys j).trans (if_pos (List.mem_finRange j))
  have hsome (set left : BitVec 24) (hs : a.rebaseline = some set)
      (h : ∀ k : Fin 24, left.getLsbD k.val = (set.getLsbD k.val && !keyLost old new k)) : r.1.rebaseline = some left := by
    rw [hall.rebaseline, hs, Option.map_some, hset h]
  have hnone (hs : a.rebaseline = none) : r.1.rebaseline = none := by rw [hall.rebaseline, hs, Option.map_none]
  refine ⟨?_, hall.notice.trans (Bool.false_or _)⟩
  cases hchanged : chordsChanged old new
  · rw [if_neg Bool.false_ne_true]
    refine ⟨hkeys, fun c => ?_, hsome, hnone, hall.rest⟩
    rw [hall.chords c, hmember, hchanged, Bool.false_or]
    rfl
  · rw [if_pos rfl]
    refine ⟨hkeys, fun c => ?_, hsome, hnone, ?_⟩
    · rw [hchanged, Bool.true_or, if_pos rfl]
      exact Vector.getElem_replicate _
    · rw [hall.rest]

end adopt

end Sys2Proof.Machine
end

