-- ==== Sys2Proof/Proofs/SlotLinks.lean ====
section
/-!
SUPPORT. The links of the slip table under completions one after another (R170 to R172): no slot becomes CHAINED, the named next
slots stand, and a slot that is not CHAINED stands under the completion of another.
-/

namespace Sys2Proof.Machine

/-- No slot becomes CHAINED from `x` to `y`, and every slot names the same next slot. -/
structure Exchange.linksKept (x y : Exchange) : Prop where
  next : ∀ n : Fin 16, y.peek (slotAddr n.val + 3) = x.peek (slotAddr n.val + 3)
  chained : ∀ n : Fin 16, x.ownerIs n.val .chained = false → y.ownerIs n.val .chained = false

section links
variable {x y z : Exchange} {n k : Fin 16}

theorem Exchange.linksKept.refl (x : Exchange) : x.linksKept x := ⟨fun _ => rfl, fun _ h => h⟩

theorem Exchange.linksKept.trans (h : x.linksKept y) (h' : y.linksKept z) : x.linksKept z :=
  ⟨fun n => (h'.next n).trans (h.next n), fun n hn => h'.chained n (h.chained n hn)⟩

/-- Bytes of the slip table that stand. -/
theorem Exchange.linksKept.of_peek (h : ∀ a, 0x100 ≤ a → a < 0x500 → y.peek a = x.peek a) : x.linksKept y := by
  have hslot (n : Fin 16) (i : Nat) (hi : i < 64) : y.peek (slotAddr n.val + i) = x.peek (slotAddr n.val + i) := by
    have := n.isLt
    exact h _ (by rw [slotAddr]; omega) (by rw [slotAddr]; omega)
  refine ⟨fun n => hslot n 3 (by omega), fun n hn => ?_⟩
  have howner : y.peek (slotAddr n.val) = x.peek (slotAddr n.val) := hslot n 0 (by omega)
  rwa [Exchange.ownerIs, howner]

theorem Exchange.linksKept.unchained {s t : State} (h : s.xmem.linksKept t.xmem) {b : Option (Fin 16)} (hs : s.unchained b) :
    t.unchained b := by
  intro n hn m hm hnext
  rw [h.next n] at hnext
  exact h.chained m (hs n hn m hm hnext)

/-- A slot that is not CHAINED stands under the completion of another (R171, R172). -/
theorem Exchange.complete_stands (hx : x.wf = true) (r : SlipResult) (hk : k ≠ n) (hchained : x.ownerIs k.val .chained = false)
    {i : Nat} (hi : i < 64) : (x.complete n.val r).peek (slotAddr k.val + i) = x.peek (slotAddr k.val + i) := by
  have hcompleted := Exchange.complete_slotBody (n := n) hx r
  rw [Exchange.slotCompleted_iff] at hcompleted
  obtain ⟨_, _, hothers⟩ := hcompleted
  have hnot : x.chainedBeside n k.val = false := by
    unfold Exchange.chainedBeside
    rw [hchained, Bool.and_false]
  have hbroken : k.val ∉ x.brokenBy n (x.slotBody n) r := by
    unfold Exchange.brokenBy
    split
    · exact List.not_mem_nil
    · intro hmem
      rw [Exchange.chainFrom_chained _ _ _ _ hmem] at hnot
      cases hnot
  obtain ⟨howner, hrest⟩ := (hothers k hk).2 hbroken
  by_cases hzero : i = 0
  · subst hzero
    refine howner.trans (if_neg ?_)
    rw [hnot]
    rintro ⟨_, _, h⟩
    cases h
  · exact hrest i hi (by omega)

/-- A completion keeps the links. -/
theorem Exchange.complete_linksKept (hx : x.wf = true) (r : SlipResult) : x.linksKept (x.complete n.val r) := by
  have hcompleted := Exchange.complete_slotBody (n := n) hx r
  rw [Exchange.slotCompleted_iff] at hcompleted
  obtain ⟨hshows, _, hothers⟩ := hcompleted
  have hlen := x.slotBody_length n
  have hbody : ((x.slotBody n).drop 1).take 5 = [x.peek (slotAddr n.val + 1), x.peek (slotAddr n.val + 2),
      x.peek (slotAddr n.val + 3), x.peek (slotAddr n.val + 4), x.peek (slotAddr n.val + 5)] := rfl
  rw [hbody] at hshows
  have hat (i : Nat) (hi : i < 8) := hshows i (by simp [hlen]; omega)
  refine ⟨fun m => ?_, fun m hm => ?_⟩
  · by_cases heq : m = n
    · rw [heq]
      exact hat 3 (by omega)
    · obtain ⟨hbroken, hstands⟩ := hothers m heq
      by_cases hmem : m.val ∈ x.brokenBy n (x.slotBody n) r
      · exact (hbroken hmem).2.2.2 3 (by omega) (by omega) (by omega) (by omega)
      · exact (hstands hmem).2 3 (by omega) (by omega)
  · by_cases heq : m = n
    · rw [heq, Exchange.ownerIs]
      have hdone := hat 0 (by omega)
      rw [Nat.add_zero] at hdone
      rw [hdone]
      rfl
    · rw [Exchange.ownerIs]
      have howner := Exchange.complete_stands hx r heq hm (i := 0) (by omega)
      rw [Nat.add_zero] at howner
      rw [howner]
      exact hm

/-- A result stays shown where the slot's bytes stand. -/
theorem Exchange.showsResult_of_stands {code : ResultCode} {payload : List Byte}
    (hstands : ∀ i < 64, y.peek (slotAddr k.val + i) = x.peek (slotAddr k.val + i)) (h : x.showsResult k code payload) :
    y.showsResult k code payload := by
  obtain ⟨howner, hcode, hpayload⟩ := h
  have hlen : (payloadBytes payload).length ≤ 32 := List.length_take_le _ _
  refine ⟨(hstands 0 (by omega)).trans howner, (hstands 6 (by omega)).trans hcode, fun i hi => ?_⟩
  rw [Nat.add_assoc, hstands _ (by omega), ← Nat.add_assoc]
  exact hpayload i hi

theorem Exchange.showsResult_done {code : ResultCode} {payload : List Byte} (h : x.showsResult k code payload) :
    x.ownerIs k.val .chained = false := by
  rw [Exchange.ownerIs, h.1]
  rfl

/-- A result that is shown stays shown under the completion of another slot. -/
theorem Exchange.showsResult_complete (hx : x.wf = true) (r : SlipResult) (hk : k ≠ n) {code : ResultCode} {payload : List Byte}
    (h : x.showsResult k code payload) : (x.complete n.val r).showsResult k code payload := by
  exact Exchange.showsResult_of_stands (fun i hi => Exchange.complete_stands hx r hk (Exchange.showsResult_done h) hi) h

end links

/-! ### A block's report -/

section report
variable {s : State} {b : LastingBlock} {r : SlipResult}

theorem State.report_linksKept (hwf : s.xmem.wf = true) : s.xmem.linksKept (s.report b r).xmem := by
  cases hb : s.engine.binding b with
  | none =>
    rw [State.report_of_none hb]
    exact .refl _
  | some n =>
    rw [State.report_of_some hb]
    exact Exchange.complete_linksKept hwf r

theorem State.report_noticed : s.xmem.noticed 0 (s.engine.binding b).isSome (s.report b r).xmem := by
  cases hb : s.engine.binding b with
  | none =>
    rw [State.report_of_none hb]
    exact .refl _
  | some n =>
    rw [State.report_of_some hb]
    exact .of_complete _ n r

/-- The slot of another block stands under a report where it is not CHAINED. -/
theorem State.report_stands (hwf : s.xmem.wf = true) {k : Fin 16} (hb : s.engine.binding b ≠ some k)
    (hchained : s.xmem.ownerIs k.val .chained = false) {i : Nat} (hi : i < 64) :
    (s.report b r).xmem.peek (slotAddr k.val + i) = s.xmem.peek (slotAddr k.val + i) := by
  cases hn : s.engine.binding b with
  | none => rw [State.report_of_none hn]
  | some n =>
    rw [State.report_of_some hn]
    refine Exchange.complete_stands hwf r ?_ hchained hi
    rintro rfl
    exact hb hn

theorem State.report_showsResult (hwf : s.xmem.wf = true) {n : Fin 16} (hb : s.engine.binding b = some n) :
    (s.report b r).xmem.showsResult n r.code r.payload := by
  rw [State.report_of_some hb]
  exact (Exchange.complete_showsResult hwf r).1

/-- A result that is shown stays shown under the report of a block that names another slot. -/
theorem State.report_keepsResult (hwf : s.xmem.wf = true) {k : Fin 16} (hb : s.engine.binding b ≠ some k) {code : ResultCode}
    {payload : List Byte} (h : s.xmem.showsResult k code payload) : (s.report b r).xmem.showsResult k code payload := by
  cases hn : s.engine.binding b with
  | none => rwa [State.report_of_none hn]
  | some n =>
    rw [State.report_of_some hn]
    refine Exchange.showsResult_complete hwf r ?_ h
    rintro rfl
    exact hb hn

end report

/-! ### The boundary's work -/

section work
variable {now : SlotCount} {p : Image} {s : State}

/-- What the probe's stage does to the slip table is a report, or nothing. -/
theorem State.probeStage_report (curve : Option Nat) (s : State) :
    ∃ (u : State) (r : SlipResult), u.engine = s.engine ∧ (∀ a, 0x100 ≤ a → a < memorySize → u.xmem.peek a = s.xmem.peek a) ∧
      (s.xmem.wf = true → u.xmem.wf = true) ∧
      ((s.probeStage now p curve).1.xmem = u.xmem ∨ (s.probeStage now p curve).1.xmem = (u.report .air r).xmem) := by
  have hmoves := State.probeStage_moves now p curve s
  generalize s.probeStage now p curve = a at *
  cases hmoves with
  | step pr => exact ⟨s, SlipResult.ok, rfl, fun _ _ _ => rfl, fun h => h, Or.inl rfl⟩
  | ended pr reason _ =>
    refine ⟨(s.withProbe pr).probeDropped reason, abortResult reason, rfl, fun _ _ _ => rfl, fun h => h, ?_⟩
    rw [State.endProbe_eq]
    dsimp only
    split
    · exact Or.inr rfl
    · exact Or.inl rfl
  | completed pr m _ _ _ =>
    rw [State.completeProbe_eq]
    by_cases hreset : (s.withProbe pr).air.probe.origin = some .resetFilterReference
    · rw [if_pos hreset]
      exact ⟨s, SlipResult.ok, rfl, fun _ _ _ => rfl, fun h => h, Or.inl rfl⟩
    · rw [if_neg hreset]
      have hformed := State.clogFormed_noticed p (s.withProbe pr) m
      refine ⟨(s.withProbe pr).clogFormed p m,
        { SlipResult.ok with
          payload := figuresPayload ((s.withProbe pr).air.probe.measured m) ((s.withProbe pr).air.measuredClog m) },
        (State.clogFormed_frame p (s.withProbe pr) m).1,
        fun a h ha => State.clogFormed_peek p (s.withProbe pr) m h ha, fun h => (hformed.writes h).wf, ?_⟩
      split
      · exact Or.inr rfl
      · exact Or.inl rfl

/-- A slot that is not CHAINED and not the probe's stands under the boundary's work. -/
theorem State.boundaryWorked_stands (hwf : s.xmem.wf = true) {k : Fin 16} (hslot : s.engine.airSlot ≠ some k)
    (hchained : s.xmem.ownerIs k.val .chained = false) {i : Nat} (hi : i < 64) :
    (s.boundaryWorked now p).xmem.peek (slotAddr k.val + i) = s.xmem.peek (slotAddr k.val + i) := by
  have hprobed : (s.probed now p).1.xmem.wf = true := ((State.probed_notice now p s).writes hwf).wf
  have hpublished := ((State.boundaryWorked_published now p s).1 hprobed).kept (slotAddr k.val + i) (slotAddr_inside k i hi) (by
    simp only [boundaryBytes, outside_cons, outside_nil, and_true, slotAddr]
    omega)
  have hjudged {j : Nat} (hj : j < 64) := State.fansJudged_peek p s (a := slotAddr k.val + j)
    (by rw [slotAddr]; omega) (slotAddr_inside k j hj)
  refine hpublished.trans (.trans ?_ (hjudged hi))
  obtain ⟨u, r, hengine, hpeek, hu, hmem⟩ := State.probeStage_report (now := now) (p := p) (s.controlTemp.map (curveValue p))
    (s.fansJudged p)
  have hkept {j : Nat} (hj : j < 64) := hpeek (slotAddr k.val + j) (by rw [slotAddr]; omega) (slotAddr_inside k j hj)
  rw [← State.probed_eq] at hmem
  obtain hmem | hmem := hmem
  · rw [hmem]
    exact hkept hi
  · rw [hmem]
    refine (State.report_stands (hu (State.fansJudged_wf hwf)) ?_ ?_ hi).trans (hkept hi)
    · rw [hengine, (State.fansJudged_frame p s).2.2.2.2.2.2.1]
      exact hslot
    · have howner := (hkept (j := 0) (by omega)).trans (hjudged (j := 0) (by omega))
      rw [Nat.add_zero] at howner
      rwa [Exchange.ownerIs, howner]

end work

end Sys2Proof.Machine
end

