-- ==== Sys2Proof/Proofs/Activation.lean ====
section
/-!
SUPPORT. What an activation leaves of each block (R180, R99, R123, R149), stage after stage: the image in force, the keys, the
rebaseline that loses its keys, and the commit's slip.
-/

namespace Sys2Proof.Machine

/-! ### The image in force -/

section forced
variable (s : State)

theorem State.forced_blocks :
    s.forced.time = s.time ∧ s.forced.sense = s.sense ∧ s.forced.climate = s.climate ∧ s.forced.air = s.air ∧
      s.forced.rail = s.rail ∧ s.forced.keypad = s.keypad ∧ s.forced.engine = s.engine ∧ s.forced.supplyLow = s.supplyLow ∧
      s.forced.fresh = s.fresh ∧ s.forced.pending = s.pending := by
  simp [State.forced, State.bringIntoForce]

/-- The ladder index is held at the new ladder length (R123). -/
theorem State.forced_mon :
    s.forced.mon = { s.mon with ladderIndex := min s.mon.ladderIndex (Profile.ladderLength s.store.storedImage) } := by
  have hmon : s.bringIntoForce.mon = s.mon := rfl
  unfold State.forced State.adoptMonitor State.setLadderIndex
  rw [(State.publishInputs_frame _ _).2.2.2.2.2.1, hmon]
  split
  · next h => rw [Nat.min_eq_right h.le, State.mapX_mon, State.mapMon_mon, hmon]
  · next h => rw [hmon, Nat.min_eq_left (Nat.not_lt.mp h)]

theorem State.forced_raised : s.xmem.raised 0 s.forced.xmem := by
  have hflags : s.xmem.raised 0 s.bringIntoForce.xmem := raised_partWrite _ _ _
  have hmonitor (u : State) (p : Image) : u.xmem.raised 0 (u.adoptMonitor p).xmem := by
    unfold State.adoptMonitor State.setLadderIndex
    split
    · exact raised_partWrite _ _ _
    · exact ⟨by simp, rfl⟩
  exact (hflags.trans (hmonitor _ _)).trans (raised_partWrite _ _ _)

/-- The header flags, the ladder index and the inputs of the new profile are shown (R99, R123, R176). -/
theorem State.forced_shows (hwf : s.xmem.wf = true) :
    s.forced.xmem.peek 0x04 = 1 ∧ s.forced.xmem.peek 0x0AE = s.inputsByte s.store.storedImage ∧
      (s.forced.mon.ladderIndex ≠ s.mon.ladderIndex →
        s.forced.xmem.peek 0x0AF = BitVec.ofNat 8 s.forced.mon.ladderIndex) := by
  have hflagged : s.bringIntoForce.xmem.wf = true := Exchange.wf_partWrite hwf 0x04 _
  have hadopted := State.adoptMonitor_writes s.store.storedImage s.bringIntoForce
  have hinputs : (s.bringIntoForce.adoptMonitor s.store.storedImage).inputsByte s.store.storedImage =
      s.inputsByte s.store.storedImage := by
    have hrail : (s.bringIntoForce.adoptMonitor s.store.storedImage).rail = s.rail := (State.adoptMonitor_frame _ _).2.2.2.2.1
    unfold State.inputsByte State.inputActive
    rw [hrail]
  have hpublished {a : Nat} (ha : a < memorySize) : s.forced.xmem.peek a =
      if a = 0x0AE then s.inputsByte s.store.storedImage
      else (s.bringIntoForce.adoptMonitor s.store.storedImage).xmem.peek a := by
    rw [← hinputs]
    exact Exchange.peek_partWrite_single (hadopted hflagged).wf 0x0AE _ ha
  refine ⟨?_, ?_, fun hmoved => ?_⟩
  · rw [hpublished (by decide), if_neg (by decide), (hadopted hflagged).kept 0x04 (by decide) (by decide)]
    exact Exchange.peek_partWrite_single hwf 0x04 _ (by decide)
  · rw [hpublished (by decide), if_pos rfl]
  · rw [State.forced_mon] at hmoved ⊢
    have hlower : Profile.ladderLength s.store.storedImage < s.bringIntoForce.mon.ladderIndex := by
      refine Nat.lt_of_not_le fun h => hmoved ?_
      exact Nat.min_eq_left h
    rw [hpublished (by decide), if_neg (by decide), State.adoptMonitor, if_pos hlower]
    refine (Exchange.peek_partWrite_single (x := s.bringIntoForce.xmem) hflagged 0x0AF _ (by decide)).trans ?_
    exact (if_pos rfl).trans (congrArg _ (Nat.min_eq_right (le_of_lt hlower)).symm)

end forced

/-! ### The keys -/

section keys
variable (old new : Image) (u : State)

/-- The keypad controller has taken up the new profile, the detail page and the rail know of it, and a rebaseline that loses its
keys has not ended yet (R149, R147). -/
def State.keysAdopted : State :=
  let t := (List.finRange 24).foldl (State.publishDisabled old new) (u.mapKeypad fun _ => (u.keypad.adopted old new).1)
  if (u.keypad.adopted old new).2 then t.powerKeyRelease else t

theorem State.adoptKeypad_stages : u.adoptKeypad old new = (u.keysAdopted old new).finishRebaseline :=
    State.adoptKeypad_eq old new u

theorem State.keysAdopted_frame :
    (u.keysAdopted old new).time = u.time ∧ (u.keysAdopted old new).sense = u.sense ∧
      (u.keysAdopted old new).climate = u.climate ∧ (u.keysAdopted old new).air = u.air ∧
      (u.keysAdopted old new).mon = u.mon ∧ (u.keysAdopted old new).engine = u.engine ∧
      (u.keysAdopted old new).store = u.store ∧ (u.keysAdopted old new).supplyLow = u.supplyLow ∧
      (u.keysAdopted old new).fresh = u.fresh ∧ (u.keysAdopted old new).pending = u.pending := by
  unfold State.keysAdopted
  dsimp only
  split <;> simp

theorem State.keysAdopted_keypad : (u.keysAdopted old new).keypad = (u.keypad.adopted old new).1 := by
  unfold State.keysAdopted
  dsimp only
  split <;> simp

theorem State.keysAdopted_rail :
    (u.keysAdopted old new).rail =
      { u.rail with override := if (u.keypad.adopted old new).2 then none else u.rail.override } := by
  unfold State.keysAdopted
  dsimp only
  split
  · simp [State.powerKeyRelease]
  · simp

theorem State.keysAdopted_xmem :
    (u.keysAdopted old new).xmem =
      ((List.finRange 24).foldl (State.publishDisabled old new) (u.mapKeypad fun _ => (u.keypad.adopted old new).1)).xmem := by
  unfold State.keysAdopted
  dsimp only
  split <;> simp

/-- The state bytes of the keys that the new profile disables. -/
def lostBytes : List (Nat × Nat) := ((List.finRange 24).filter (keyLost old new)).map fun k => (0x706 + 8 * k.val, 1)

theorem State.publishDisabled_lost (k : Fin 24) :
    u.xmem.writes (lostBytes old new) (u.publishDisabled old new k).xmem := by
  unfold State.publishDisabled
  refine Exchange.writes_ite (fun hlost => ?_) fun _ => Exchange.writes_refl _ _
  refine Exchange.writes_partWrite (rangeWithin_of_mem (List.mem_map.mpr ⟨k, ?_, rfl⟩)) u.xmem
  exact List.mem_filter.mpr ⟨List.mem_finRange k, hlost⟩

theorem State.publishDisabled_peek (hwf : u.xmem.wf = true) (k j : Fin 24) :
    (u.publishDisabled old new k).xmem.peek (0x706 + 8 * j.val) =
      if j = k ∧ keyLost old new j = true then KeyState.idle.code else u.xmem.peek (0x706 + 8 * j.val) := by
  have hj := j.isLt
  have hin : 0x706 + 8 * j.val < memorySize := by
    rw [memorySize]
    omega
  unfold State.publishDisabled
  rw [← keyLost]
  by_cases hlost : keyLost old new k = true
  · rw [if_pos hlost, State.mapX_xmem, Exchange.peek_partWrite_single hwf _ _ hin]
    refine if_congr ⟨fun h => ?_, fun h => by rw [h.1]⟩ rfl rfl
    have heq : j = k := Fin.ext (by omega)
    exact ⟨heq, heq ▸ hlost⟩
  · rw [if_neg hlost, if_neg fun h : j = k ∧ keyLost old new j = true => hlost (h.1 ▸ h.2)]

theorem State.publishDisabled_foldl_peek (l : List (Fin 24)) (hwf : u.xmem.wf = true) (j : Fin 24) :
    (l.foldl (State.publishDisabled old new) u).xmem.peek (0x706 + 8 * j.val) =
      if j ∈ l ∧ keyLost old new j = true then KeyState.idle.code else u.xmem.peek (0x706 + 8 * j.val) := by
  induction l generalizing u with
  | nil => simp
  | cons k l ih =>
    rw [List.foldl_cons, ih _ ((State.publishDisabled_lost old new u k) hwf).wf, State.publishDisabled_peek old new u hwf]
    by_cases hlost : keyLost old new j = true
    · by_cases hmem : j ∈ l
      · simp [hlost, hmem]
      · simp [hlost, hmem]
    · simp [hlost]

theorem State.keysAdopted_memory :
    u.xmem.writes (lostBytes old new) (u.keysAdopted old new).xmem ∧ u.xmem.raised 0 (u.keysAdopted old new).xmem := by
  rw [State.keysAdopted_xmem]
  have hmark (v : State) (k : Fin 24) : v.xmem.raised 0 (v.publishDisabled old new k).xmem := by
    unfold State.publishDisabled
    split
    · exact raised_partWrite v.xmem _ _
    · exact ⟨by simp, rfl⟩
  exact ⟨Exchange.writes_foldl (State.publishDisabled_lost old new) _ (u.mapKeypad fun _ => (u.keypad.adopted old new).1),
    raised_foldl hmark _ (u.mapKeypad fun _ => (u.keypad.adopted old new).1)⟩

/-- A key that the new profile disables is shown IDLE (R147). -/
theorem State.keysAdopted_shows (hwf : u.xmem.wf = true) {k : Fin 24} (hlost : keyLost old new k = true) :
    (u.keysAdopted old new).xmem.peek (0x706 + 8 * k.val) = KeyState.idle.code := by
  rw [State.keysAdopted_xmem]
  refine (State.publishDisabled_foldl_peek old new (u.mapKeypad fun _ => (u.keypad.adopted old new).1) _ hwf k).trans ?_
  exact if_pos ⟨List.mem_finRange k, hlost⟩

theorem lostBytes_outside {a : Nat} (h : a < 0x700) : outside (lostBytes old new) a = true := by
  refine List.all_eq_true.mpr fun r hr => ?_
  obtain ⟨k, _, rfl⟩ := List.mem_map.mp hr
  simp only [Bool.or_eq_true, decide_eq_true_eq]
  omega

end keys

/-! ### The rebaseline -/

/-- Without a rebaseline, and in one that goes on, nothing happens; else it ends with OK (R145). -/
theorem State.finishRebaseline_cases (v : State) :
    (v.keypad.rebaseline = none ∧ v.finishRebaseline = v) ∨
      ∃ set, v.keypad.rebaseline = some set ∧
        (((∃ k, v.keypad.stillCalibrates set k = true) ∧ v.finishRebaseline = v) ∨
          ((∀ k, v.keypad.stillCalibrates set k = false) ∧ v.finishRebaseline = v.endRebaseline .ok set)) := by
  unfold State.finishRebaseline
  cases hset : v.keypad.rebaseline with
  | none => exact Or.inl ⟨rfl, rfl⟩
  | some set =>
    refine Or.inr ⟨set, rfl, ?_⟩
    dsimp only
    by_cases hall : ∀ k, v.keypad.stillCalibrates set k = false
    · exact Or.inr ⟨hall, if_pos (Keypad.calibrating_eq_zero.mpr hall)⟩
    · refine Or.inl ⟨?_, if_neg fun h => hall (Keypad.calibrating_eq_zero.mp h)⟩
      obtain ⟨k, hk⟩ := not_forall.mp hall
      exact ⟨k, by simpa using hk⟩

/-- The end of a rebaseline is a report of the keypad controller, but for its own record. -/
theorem State.endRebaseline_eq (code : ResultCode) (mask : BitVec 24) (v : State) :
    v.endRebaseline code mask =
      (v.mapKeypad fun k => { k with rebaseline := none, stopPending := false }).report .keypad
        { code := code, detail := 0, payload := maskPayload mask } := rfl

section finish
variable {v : State}

theorem State.finishRebaseline_keypad :
    v.finishRebaseline.keypad =
      { v.keypad with
        rebaseline := v.finishRebaseline.keypad.rebaseline, stopPending := v.finishRebaseline.keypad.stopPending } := by
  obtain ⟨_, h⟩ | ⟨set, _, ⟨_, h⟩ | ⟨_, h⟩⟩ := v.finishRebaseline_cases
  · rw [h]
  · rw [h]
  · rw [h, State.endRebaseline_keypad]

theorem State.finishRebaseline_engine :
    v.finishRebaseline.engine = { v.engine with keypadSlot := v.finishRebaseline.engine.keypadSlot } := by
  obtain ⟨_, h⟩ | ⟨set, _, ⟨_, h⟩ | ⟨_, h⟩⟩ := v.finishRebaseline_cases
  · rw [h]
  · rw [h]
  · rw [h, (State.endRebaseline_report _ _ _).1]

/-- What the end of a rebaseline does to the exchange memory is a report, or nothing. -/
theorem State.finishRebaseline_reports :
    ∃ u : State, ∃ r, u.engine = v.engine ∧ u.xmem = v.xmem ∧
      (v.finishRebaseline.xmem = v.xmem ∨ v.finishRebaseline = u.report .keypad r) := by
  obtain ⟨_, h⟩ | ⟨set, _, ⟨_, h⟩ | ⟨_, h⟩⟩ := v.finishRebaseline_cases
  · exact ⟨v, SlipResult.ok, rfl, rfl, Or.inl (by rw [h])⟩
  · exact ⟨v, SlipResult.ok, rfl, rfl, Or.inl (by rw [h])⟩
  · exact ⟨v.mapKeypad fun k => { k with rebaseline := none, stopPending := false }, _, rfl, rfl,
      Or.inr (h.trans (State.endRebaseline_eq _ _ _))⟩

theorem State.finishRebaseline_linksKept (hwf : v.xmem.wf = true) : v.xmem.linksKept v.finishRebaseline.xmem := by
  obtain ⟨u, r, _, hx, h | h⟩ := State.finishRebaseline_reports (v := v)
  · rw [h]
    exact .refl _
  · rw [h, ← hx]
    exact State.report_linksKept (hx ▸ hwf)

theorem State.finishRebaseline_raised : ∃ c, v.xmem.raised c v.finishRebaseline.xmem := by
  obtain ⟨u, r, _, hx, h | h⟩ := State.finishRebaseline_reports (v := v)
  · rw [h]
    exact ⟨0, by simp, rfl⟩
  · rw [h, ← hx]
    exact ⟨_, State.report_noticed.raised⟩

/-- No slot is POSTED after it where the rebaseline promotes none (R171). -/
theorem State.finishRebaseline_nonePosted (hnone : v.nonePosted)
    (hchain : ∀ set, v.keypad.rebaseline = some set → (∀ k, v.keypad.stillCalibrates set k = false) →
      v.unchained v.engine.keypadSlot) : v.finishRebaseline.nonePosted := by
  obtain ⟨_, h⟩ | ⟨set, hset, ⟨_, h⟩ | ⟨hall, h⟩⟩ := v.finishRebaseline_cases
  · rw [h]
    exact hnone
  · rw [h]
    exact hnone
  · rw [h, State.endRebaseline_eq]
    exact State.nonePosted_report (s := v.mapKeypad fun k => { k with rebaseline := none, stopPending := false }) hnone .keypad _
      fun _ => hchain set hset hall

end finish

end Sys2Proof.Machine
end

