-- ==== Sys2Proof/Proofs/ActivationLeaves.lean ====
section
/-!
SUPPORT. What an activation leaves of the blocks, the exchange memory and the slip table, all stages together (R180).
-/

namespace Sys2Proof.Machine

section activation
variable (now : SlotCount) (old : Image) (s : State)

/-- The programmed image is in force and the keypad controller has its keys; a rebaseline and the commit have not ended yet. -/
def State.keysTaken : State := s.forced.keysAdopted old s.store.storedImage

/-- The same when a rebaseline that lost its keys has ended (R145). -/
def State.keypadDone : State := (s.keysTaken old).finishRebaseline

/-- The result of the commit (R180). -/
def State.commitResult : SlipResult := { SlipResult.ok with payload := le16 (u16 s.store.storedImage 1022) }

theorem State.activate_stages :
    s.activate now old = ((s.keypadDone old).report .store s.commitResult).mapStore fun t =>
      if t.service = .waiting then { t with service := .writing, writeBegan := some now } else t := by
  rw [State.activate_eq, State.keypadDone, State.keysTaken, ← State.adoptKeypad_stages]
  rfl

/-! ### The blocks -/

theorem State.keypadDone_engine :
    (s.keypadDone old).engine = { s.engine with keypadSlot := (s.keypadDone old).engine.keypadSlot } := by
  have hbefore : (s.keysTaken old).engine = s.engine :=
    (State.keysAdopted_frame _ _ _).2.2.2.2.2.1.trans s.forced_blocks.2.2.2.2.2.2.1
  have hdone := State.finishRebaseline_engine (v := s.keysTaken old)
  rwa [hbefore] at hdone

theorem State.activate_engine :
    (s.activate now old).engine =
      { s.engine with storeSlot := none, keypadSlot := (s.activate now old).engine.keypadSlot } := by
  have hdone := State.keypadDone_engine old s
  rw [State.activate_stages, State.mapStore_engine]
  generalize s.keypadDone old = v at *
  cases hslot : v.engine.storeSlot with
  | none =>
    rw [State.report_of_none (show v.engine.binding .store = none from hslot)]
    rw [hdone] at hslot ⊢
    rw [← (show s.engine.storeSlot = none from hslot)]
  | some n =>
    rw [State.report_of_some (show v.engine.binding .store = some n from hslot), State.mapX_engine, State.mapEngine_engine, hdone]
    rfl

theorem State.activate_keypadSlot :
    (s.activate now old).engine.keypadSlot = (s.keypadDone old).engine.keypadSlot := by
  rw [State.activate_stages, State.mapStore_engine]
  generalize s.keypadDone old = v at *
  cases hslot : v.engine.storeSlot with
  | none => rw [State.report_of_none (show v.engine.binding .store = none from hslot)]
  | some n =>
    rw [State.report_of_some (show v.engine.binding .store = some n from hslot)]
    rfl

theorem State.activate_keypad : (s.activate now old).keypad = (s.keypadDone old).keypad := by
  rw [State.activate_stages, State.mapStore_keypad, (State.report_frame _ _ _).2.2.2.2.2.2.1]

theorem State.activate_mon :
    (s.activate now old).mon =
      { s.mon with ladderIndex := min s.mon.ladderIndex (Profile.ladderLength s.store.storedImage) } := by
  rw [State.activate_stages, State.mapStore_mon, (State.report_frame _ _ _).2.2.2.2.2.1, State.keypadDone,
    (State.finishRebaseline_frame _).2.2.2.2.2.1, State.keysTaken, (State.keysAdopted_frame _ _ _).2.2.2.2.1, State.forced_mon]

theorem State.activate_rail :
    (s.activate now old).rail =
      { s.rail with override := if (s.keypad.adopted old s.store.storedImage).2 then none else s.rail.override } := by
  rw [State.activate_stages, State.mapStore_rail, (State.report_frame _ _ _).2.2.2.2.1, State.keypadDone,
    (State.finishRebaseline_frame _).2.2.2.2.1, State.keysTaken, State.keysAdopted_rail, s.forced_blocks.2.2.2.2.1,
    s.forced_blocks.2.2.2.2.2.1]

/-- The store: the image in force, the commit over, and a service write that waited begun (R180, R181). -/
theorem State.activate_store :
    (s.activate now old).store =
      { s.store with
        active := some s.store.storedImage, factoryActive := false, commit := .idle, stagingHeld := false
        service := if s.store.service = .waiting then .writing else s.store.service
        writeBegan := if s.store.service = .waiting then some now else s.store.writeBegan } := by
  rw [State.activate_stages, State.mapStore_store, (State.report_frame _ _ _).2.2.2.2.2.2.2.1, State.keypadDone,
    (State.finishRebaseline_frame _).2.2.2.2.2.2.1, State.keysTaken, (State.keysAdopted_frame _ _ _).2.2.2.2.2.2.1,
    State.forced_store]
  by_cases hwaiting : s.store.service = .waiting
  · rw [if_pos hwaiting, if_pos hwaiting, if_pos hwaiting]
  · rw [if_neg hwaiting, if_neg hwaiting, if_neg hwaiting]

/-! ### The exchange memory -/

theorem State.activate_xmem : (s.activate now old).xmem = ((s.keypadDone old).report .store s.commitResult).xmem := by
  rw [State.activate_stages, State.mapStore_xmem]

theorem State.keysTaken_writes :
    s.xmem.writes ([(0x04, 1), (0x0AE, 2)] ++ lostBytes old s.store.storedImage) (s.keysTaken old).xmem :=
  (s.forced_writes.mono (rangesCover_of_subset (by simp))).trans
    ((State.keysAdopted_memory old s.store.storedImage s.forced).1.mono (rangesCover_of_subset (by simp)))

theorem State.activate_afterKeys : (s.keysTaken old).xmem.writes slipTableBytes (s.activate now old).xmem := by
  rw [State.activate_xmem]
  exact (State.finishRebaseline_writes _).trans (State.report_writes _ _ _)

/-- What an activation writes (R99, R123, R147, R170, R176). -/
theorem State.activate_wrote :
    s.xmem.writes (slipBytes true ++ [(0x04, 1), (0x0AE, 2)] ++ lostBytes old s.store.storedImage)
      (s.activate now old).xmem :=
  ((State.keysTaken_writes old s).mono (rangesCover_of_subset (by simp))).trans
    ((State.activate_afterKeys now old s).mono
      (rangesCover_trans (qs := slipBytes true) (rangesCover_of_subset (by simp)) (by decide)))

theorem State.activate_raised : ∃ c, s.xmem.raised c (s.activate now old).xmem := by
  have hkeys := s.forced_raised.trans (State.keysAdopted_memory old s.store.storedImage s.forced).2
  obtain ⟨c, hdone⟩ := State.finishRebaseline_raised (v := s.keysTaken old)
  have hreport := (State.report_noticed (s := s.keypadDone old) (b := .store) (r := s.commitResult)).raised
  rw [State.activate_xmem]
  exact ⟨_, (hkeys.trans hdone).trans hreport⟩

/-- The header flags, the inputs, the ladder index and the keys that leave are shown (R99, R123, R147, R176). -/
theorem State.activate_shows (hwf : s.xmem.wf = true) :
    let t := s.activate now old
    t.xmem.peek 0x04 = 1 ∧ t.xmem.peek 0x0AE = s.inputsByte s.store.storedImage ∧
      (t.mon.ladderIndex ≠ s.mon.ladderIndex → t.xmem.peek 0x0AF = BitVec.ofNat 8 t.mon.ladderIndex) ∧
      ∀ k, keyLost old s.store.storedImage k = true → t.xmem.peek (0x706 + 8 * k.val) = KeyState.idle.code := by
  have hforced := s.forced_writes hwf
  have hkeys := (State.keysAdopted_memory old s.store.storedImage s.forced).1 hforced.wf
  have hafter := State.activate_afterKeys now old s hkeys.wf
  obtain ⟨hflags, hinputs, hladder⟩ := s.forced_shows hwf
  have hkept {a : Nat} (hlow : a < 0x100) (hout : outside slipTableBytes a = true) :
      (s.activate now old).xmem.peek a = s.forced.xmem.peek a :=
    (hafter.kept a (by rw [memorySize]; omega) hout).trans
      (hkeys.kept a (by rw [memorySize]; omega) (lostBytes_outside _ _ (by omega)))
  have hmon : (s.activate now old).mon = s.forced.mon := by rw [State.activate_mon, State.forced_mon]
  dsimp only
  refine ⟨(hkept (by decide) (by decide)).trans hflags, (hkept (by decide) (by decide)).trans hinputs, ?_, fun k hk => ?_⟩
  · rw [hmon, hkept (by decide) (by decide)]
    exact hladder
  · have hlt := k.isLt
    refine (hafter.kept _ (by rw [memorySize]; omega) ?_).trans
      (State.keysAdopted_shows old s.store.storedImage s.forced hforced.wf hk)
    simp only [slipTableBytes, outside_cons, outside_nil, and_true]
    omega

/-! ### The slip table -/

theorem State.keysTaken_peek (hwf : s.xmem.wf = true) {a : Nat} (h : 0x100 ≤ a) (ha : a < 0x500) :
    (s.keysTaken old).xmem.peek a = s.xmem.peek a := by
  refine (State.keysTaken_writes old s hwf).kept a (by rw [memorySize]; omega) ?_
  have hlost := lostBytes_outside old s.store.storedImage (a := a) (by omega)
  simp only [List.cons_append, List.nil_append, outside_cons]
  exact ⟨by omega, by omega, hlost⟩

theorem State.keysTaken_slot (hwf : s.xmem.wf = true) (n : Fin 16) {i : Nat} (hi : i < 64) :
    (s.keysTaken old).xmem.peek (slotAddr n.val + i) = s.xmem.peek (slotAddr n.val + i) := by
  have hn := n.isLt
  exact State.keysTaken_peek old s hwf (by rw [slotAddr]; omega) (by rw [slotAddr]; omega)

theorem State.keysTaken_ownerIs (hwf : s.xmem.wf = true) (n : Fin 16) (o : Owner) :
    (s.keysTaken old).xmem.ownerIs n.val o = s.xmem.ownerIs n.val o := by
  have howner := State.keysTaken_slot old s hwf n (i := 0) (by omega)
  rw [Nat.add_zero] at howner
  rw [Exchange.ownerIs, howner, Exchange.ownerIs]

theorem State.keysTaken_wf (hwf : s.xmem.wf = true) : (s.keysTaken old).xmem.wf = true := (State.keysTaken_writes old s hwf).wf

theorem State.keypadDone_wf (hwf : s.xmem.wf = true) : (s.keypadDone old).xmem.wf = true :=
  (State.finishRebaseline_writes _ (State.keysTaken_wf old s hwf)).wf

theorem State.keypadDone_linksKept (hwf : s.xmem.wf = true) : s.xmem.linksKept (s.keypadDone old).xmem :=
  (Exchange.linksKept.of_peek fun _ h ha => State.keysTaken_peek old s hwf h ha).trans
    (State.finishRebaseline_linksKept (State.keysTaken_wf old s hwf))

theorem State.activate_linksKept (hwf : s.xmem.wf = true) : s.xmem.linksKept (s.activate now old).xmem := by
  rw [State.activate_xmem]
  exact (State.keypadDone_linksKept old s hwf).trans (State.report_linksKept (State.keypadDone_wf old s hwf))

/-- The rebaseline set and the keys as the end of the rebaseline finds them. -/
theorem State.keysTaken_profile :
    Keypad.profileTaken old s.store.storedImage s.keypad (s.keysTaken old).keypad := by
  rw [State.keysTaken, State.keysAdopted_keypad, s.forced_blocks.2.2.2.2.2.1]
  exact (Keypad.adopted_profileTaken old s.store.storedImage s.keypad).1

theorem State.keysTaken_engine : (s.keysTaken old).engine = s.engine :=
  (State.keysAdopted_frame _ _ _).2.2.2.2.2.1.trans s.forced_blocks.2.2.2.2.2.2.1

/-- The set that is left of a rebaseline in flight. -/
def leftSet (old new : Image) (set : BitVec 24) : BitVec 24 := (List.finRange 24).foldl (keyLeaves old new) set

theorem getLsbD_leftSet (new : Image) (set : BitVec 24) (k : Fin 24) :
    (leftSet old new set).getLsbD k.val = (set.getLsbD k.val && !keyLost old new k) := by
  rw [leftSet, getLsbD_foldl_keyLeaves, decide_eq_true (List.mem_finRange k), Bool.true_and]

/-- A rebaseline that has no key left after the new profile, and promotes none, names no CHAINED slot. -/
theorem State.keysTaken_unchained (hwf : s.xmem.wf = true)
    (hpromotes : s.rebaselinePromotesNone fun k => keyLost old s.store.storedImage k) {set : BitVec 24}
    (hset : (s.keysTaken old).keypad.rebaseline = some set)
    (hall : ∀ k, (s.keysTaken old).keypad.stillCalibrates set k = false) :
    (s.keysTaken old).unchained (s.keysTaken old).engine.keypadSlot := by
  have htaken := State.keysTaken_profile old s
  obtain hnone | hstays | hchain := hpromotes
  · rw [htaken.noRebaseline hnone] at hset
    cases hset
  · cases hbefore : s.keypad.rebaseline with
    | none =>
      rw [hbefore] at hstays
      cases hstays
    | some before =>
      rw [hbefore] at hstays
      obtain ⟨k, _, hk⟩ := List.any_eq_true.mp (show _ = true from hstays)
      simp only [Bool.and_eq_true, Bool.not_eq_true', beq_iff_eq] at hk
      obtain ⟨⟨hmember, hcalibrating⟩, hlost⟩ := hk
      rw [htaken.rebaseline before _ hbefore (getLsbD_leftSet old _ before)] at hset
      obtain rfl := Option.some.inj hset
      have hgone := hall k
      rw [Keypad.stillCalibrates, getLsbD_leftSet, htaken.keys k, KeyRec.adopted, hmember, hlost, hcalibrating] at hgone
      simp at hgone
  · rw [State.keysTaken_engine]
    exact (Exchange.linksKept.of_peek fun _ h ha => State.keysTaken_peek old s hwf h ha).unchained hchain

/-- No slot is POSTED after an activation where it promotes none (R171). -/
theorem State.activate_nonePosted (hwf : s.xmem.wf = true) (hnone : s.nonePosted) (hstore : s.unchained s.engine.storeSlot)
    (hpromotes : s.rebaselinePromotesNone fun k => keyLost old s.store.storedImage k) : (s.activate now old).nonePosted := by
  have hkeys : (s.keysTaken old).nonePosted := fun n => (State.keysTaken_ownerIs old s hwf n .posted).trans (hnone n)
  have hdone : (s.keypadDone old).nonePosted := State.finishRebaseline_nonePosted hkeys fun set hset hall =>
    State.keysTaken_unchained old s hwf hpromotes hset hall
  have hbinding : (s.keypadDone old).engine.binding .store = s.engine.storeSlot := by
    rw [State.keypadDone_engine]
    rfl
  rw [State.nonePosted_iff, State.activate_xmem]
  refine State.nonePosted_report hdone .store s.commitResult fun _ => ?_
  rw [hbinding]
  exact (State.keypadDone_linksKept old s hwf).unchained hstore

/-- The commit's slip is DONE with the image's CRC (R180). -/
theorem State.activate_commitSlip (hwf : s.xmem.wf = true) {n : Fin 16} (hslot : s.engine.storeSlot = some n) :
    (s.activate now old).xmem.showsResult n .ok (le16 (u16 s.store.storedImage 1022)) ∧
      (s.activate now old).xmem.summary &&& Cause.slipDone.bit = Cause.slipDone.bit := by
  have hbinding : (s.keypadDone old).engine.binding .store = some n := by
    rw [State.keypadDone_engine]
    exact hslot
  have hnotice := State.report_noticed (s := s.keypadDone old) (b := .store) (r := s.commitResult)
  rw [State.activate_xmem]
  refine ⟨State.report_showsResult (State.keypadDone_wf old s hwf) hbinding, ?_⟩
  rw [hnotice.raised.1, hbinding, show ∀ c : BitVec 12, 0 ||| c = c from fun _ => BitVec.zero_or]
  exact causes_held _ _

end activation

end Sys2Proof.Machine
end

