-- ==== Sys2Proof/Proofs/ActivationBoundary.lean ====
section
/-!
SUPPORT. A boundary that brings an image into force, up to its end: the activation and then the blocks' work (R16, R180).
-/

namespace Sys2Proof.Machine

/-- A cause that is raised stays raised. -/
theorem causes_absorbed {b : BitVec 12} (c : BitVec 12) : b ||| (c &&& b) = b := by
  ext i
  simp only [BitVec.getElem_or, BitVec.getElem_and]
  cases b[i] <;> simp

/-! ### The rebaseline at an activation -/

section rebaseline
variable {now : SlotCount} {old : Image} {s : State} {set left : BitVec 24}

/-- The set that is left of a rebaseline in flight (R149). -/
theorem State.keysTaken_rebaseline (hset : s.keypad.rebaseline = some set)
    (hleft : ∀ k : Fin 24, left.getLsbD k.val = (set.getLsbD k.val && !keyLost old s.store.storedImage k)) :
    (s.keysTaken old).keypad.rebaseline = some left := (State.keysTaken_profile old s).rebaseline set left hset hleft

theorem State.activate_keys :
    (s.activate now old).keypad.keys = (s.keysTaken old).keypad.keys := by
  rw [State.activate_keypad, State.keypadDone, State.finishRebaseline_keypad]

/-- A key of the set still calibrates after the new profile. -/
def State.rebaselineGoesOn (left : BitVec 24) (t : State) : Bool :=
  (List.finRange 24).any fun k => left.getLsbD k.val && t.keypad.keys[k].state == .calibrating

theorem State.rebaselineGoesOn_congr {u t : State} (h : t.keypad.keys = u.keypad.keys) :
    t.rebaselineGoesOn left = u.rebaselineGoesOn left := by
  unfold State.rebaselineGoesOn
  rw [h]

/-- With a key left that calibrates, the rebaseline goes on. -/
theorem State.keypadDone_goesOn (hset : (s.keysTaken old).keypad.rebaseline = some left)
    (hgoes : (s.keysTaken old).rebaselineGoesOn left = true) : s.keypadDone old = s.keysTaken old := by
  obtain ⟨hnone, _⟩ | ⟨set, hset', ⟨_, h⟩ | ⟨hall, _⟩⟩ := (s.keysTaken old).finishRebaseline_cases
  · rw [hnone] at hset
    cases hset
  · exact h
  · obtain rfl := Option.some.inj (hset'.symm.trans hset)
    obtain ⟨k, _, hk⟩ := List.any_eq_true.mp hgoes
    exact absurd (hall k) (by rw [Keypad.stillCalibrates, hk]; decide)

/-- With none, it ends with OK and what is left of its set. -/
theorem State.keypadDone_ends (hset : (s.keysTaken old).keypad.rebaseline = some left)
    (hgone : (s.keysTaken old).rebaselineGoesOn left = false) :
    s.keypadDone old = (s.keysTaken old).endRebaseline .ok left := by
  obtain ⟨hnone, _⟩ | ⟨set, hset', ⟨⟨k, hk⟩, _⟩ | ⟨_, h⟩⟩ := (s.keysTaken old).finishRebaseline_cases
  · rw [hnone] at hset
    cases hset
  · obtain rfl := Option.some.inj (hset'.symm.trans hset)
    exact absurd hk (List.any_eq_false.mp hgone k (List.mem_finRange k))
  · obtain rfl := Option.some.inj (hset'.symm.trans hset)
    exact h

theorem State.keysTaken_kept :
    (s.keysTaken old).keypad =
      { s.keypad with
        keys := (s.keysTaken old).keypad.keys, chords := (s.keysTaken old).keypad.chords
        rebaseline := (s.keysTaken old).keypad.rebaseline } := (State.keysTaken_profile old s).rest

/-- The slips of a rebaseline that ends, with the commit's after it (R145, R170, R171). -/
theorem State.activate_rebaselineSlip (hwf : s.xmem.wf = true)
    (hended : s.keypadDone old = (s.keysTaken old).endRebaseline .ok left) {n : Fin 16} (hslot : s.engine.keypadSlot = some n) :
    (s.activate now old).xmem.summary &&& Cause.slipDone.bit = Cause.slipDone.bit ∧
      (s.engine.storeSlot ≠ some n → (s.activate now old).xmem.showsResult n .ok (maskPayload left)) ∧
      ∀ m : Fin 16, m ≠ n → (s.xmem.peek (slotAddr n.val + 3)).toNat = m.val → s.xmem.ownerIs m.val .chained = true →
        s.engine.storeSlot ≠ some m → (s.activate now old).xmem.ownerIs m.val .posted = true := by
  have hkeys := State.keysTaken_wf old s hwf
  have hwfDone := State.keypadDone_wf old s hwf
  have hx : (s.keypadDone old).xmem =
      (s.keysTaken old).xmem.complete n.val { code := .ok, detail := 0, payload := maskPayload left } := by
    rw [hended, (State.endRebaseline_report .ok left (s.keysTaken old)).2, State.keysTaken_engine, hslot]
  have hstore : (s.keypadDone old).engine.binding .store = s.engine.storeSlot := by
    rw [State.keypadDone_engine]
    rfl
  have hnotice := (State.report_noticed (s := s.keypadDone old) (b := .store) (r := s.commitResult)).raised.1
  have hshown := (Exchange.complete_showsResult (n := n) hkeys
    { code := .ok, detail := 0, payload := maskPayload left }).1
  rw [State.activate_xmem]
  refine ⟨?_, fun hother => ?_, fun m hm hnext hchained hother => ?_⟩
  · have hsummary := (Exchange.complete_raised n.val { code := .ok, detail := 0, payload := maskPayload left }
      (s.keysTaken old).xmem).1
    rw [hnotice, causes_masked, hx, hsummary, causes_held]
    generalize (0 ||| _ : BitVec 12) = c
    exact causes_absorbed c
  · refine State.report_keepsResult hwfDone (by rw [hstore]; exact hother) ?_
    rw [hx]
    exact hshown
  · have hposted := (Exchange.complete_others (n := n) (r := { code := .ok, detail := 0, payload := maskPayload left })
      hkeys rfl hm).1
    rw [← hx, State.keysTaken_slot old s hwf n (by omega), State.keysTaken_ownerIs old s hwf,
      if_pos ⟨hnext.symm, hchained⟩] at hposted
    have hnot : (s.keypadDone old).xmem.ownerIs m.val .chained = false := by
      rw [Exchange.ownerIs, hposted]
      rfl
    have hstands := State.report_stands (r := s.commitResult) hwfDone (by rw [hstore]; exact hother) hnot (i := 0) (by omega)
    rw [Nat.add_zero] at hstands
    rw [Exchange.ownerIs, hstands, hposted]
    rfl

end rebaseline

/-! ### The store at the boundary's work -/

section work
variable {now : SlotCount} {p : Image} {s : State}

/-- With no commit in flight, the work begins a service write or leaves it. -/
theorem State.boundaryWorked_service (hidle : s.store.commit = .idle) :
    (s.boundaryWorked now p).store = s.store ∨
      (s.boundaryWorked now p).store.service = .writing ∧ (s.boundaryWorked now p).store.writeBegan = some now := by
  have hstore : (s.boundaryWorked now p).store = (s.probed now p).1.store :=
    (State.boundaryWorked_blocks now p s).store.trans (State.airBoundary_engine_store now p s).2
  have hjudged : (s.fansJudged p).store = s.store := (State.fansJudged_frame p s).2.2.2.2.2.2.2.1
  have hmoves := State.probeStage_moves now p (s.controlTemp.map (curveValue p)) (s.fansJudged p)
  rw [← State.probed_eq] at hmoves
  rw [hstore, ← hjudged]
  generalize s.probed now p = r at *
  cases hmoves with
  | step pr => exact Or.inl rfl
  | ended pr reason _ => exact Or.inl (by simp [State.withProbe])
  | completed pr m _ _ _ =>
    have hcommit : ((s.fansJudged p).withProbe pr).store.commit = .idle := by
      rw [← hidle, ← hjudged]
      rfl
    rw [State.completeProbe_handsOver, if_pos hcommit, if_pos hcommit]
    split
    · exact Or.inr ⟨rfl, rfl⟩
    · exact Or.inl rfl

end work

/-! ### The image in force, whatever slips are taken -/

/-- The image `q` is in force, and a commit that has begun since holds the staging area. -/
structure Store.inForce (q : Image) (a : Store) : Prop where
  active : a.active = some q
  factory : a.factoryActive = false
  armed : a.commit ≠ .armed
  image : a.storedImage = q
  held : a.stagingHeld = decide (a.commit = .programming)

section inForce
variable {q : Image} {a b : Store}

theorem Store.inForce.slip (h : a.inForce q) (hb : a.slipKept b) : b.inForce q := by
  have hrest := hb.rest
  obtain ⟨hcommit, hheld⟩ | ⟨_, hcommit, hheld⟩ := hb.commit
  · refine ⟨?_, ?_, by rw [hcommit]; exact h.armed, ?_, by rw [hcommit, hheld]; exact h.held⟩
    · rw [hrest]; exact h.active
    · rw [hrest]; exact h.factory
    · rw [hrest]; exact h.image
  · refine ⟨?_, ?_, by rw [hcommit]; decide, ?_, by rw [hcommit, hheld]; rfl⟩
    · rw [hrest]; exact h.active
    · rw [hrest]; exact h.factory
    · rw [hrest]; exact h.image

theorem Store.inForce.work (h : a.inForce q) (hb : a.handsOver b) : b.inForce q := by
  obtain ⟨_, _, _, rfl⟩ := hb
  exact ⟨h.active, h.factory, h.armed, h.image, h.held⟩

theorem State.activate_inForce (now : SlotCount) (old : Image) (s : State) :
    (s.activate now old).store.inForce s.store.storedImage := by
  rw [State.activate_store]
  exact ⟨rfl, rfl, by simp, rfl, rfl⟩

end inForce

/-- A boundary with a commit armed is the activation and the blocks' work, with what the engine takes after each. -/
theorem exec_windowBoundary_armed {s : State} {p : Image} {now : SlotCount} (hp : s.store.active = some p)
    (hdue : s.boundaryDue = some now) (harmed : s.store.commit = .armed) :
    exec .windowBoundary s =
      .next ((((s.boundaryMarked.activate now p).arbitrate now s.store.storedImage).boundaryWorked now
        s.store.storedImage).arbitrate now s.store.storedImage) := by
  have hmarked : s.boundaryMarked.store.commit = .armed := harmed
  refine congrArg Host.Outcome.next ?_
  rw [hp, hdue]
  dsimp only
  rw [State.boundaryWork_eq, State.profileAfter, if_pos harmed, ← State.boundaryMarked, State.activateDue, if_pos hmarked]
  rfl

/-! ### A boundary that takes no slip -/

section still
variable {now : SlotCount} {old : Image} {s : State}

/-- The engine takes no slip in a boundary that brings an image into force and promotes none. -/
theorem State.activated_still (hwf : s.xmem.wf = true) (htakes : s.activationTakesNone old s.store.storedImage) :
    let a := s.activate now old
    a.arbitrate now s.store.storedImage = a ∧
      (a.boundaryWorked now s.store.storedImage).arbitrate now s.store.storedImage =
        a.boundaryWorked now s.store.storedImage := by
  have hengine := State.activate_engine now old s
  dsimp only
  obtain hserved | ⟨hnone, hprobe, hstore, hrebaseline⟩ := htakes
  · have hserved' : (s.activate now old).engine.served = true := by
      rw [hengine]
      exact hserved
    exact ⟨State.arbitrate_of_served hserved', State.boundaryWorked_still now _ _ (Or.inl hserved')⟩
  · have hnone' := State.activate_nonePosted now old s hwf hnone hstore hrebaseline
    refine ⟨State.arbitrate_of_nonePosted now _ hnone', State.boundaryWorked_still now _ _ (Or.inr ⟨hnone', ?_⟩)⟩
    unfold State.probePromotesNone at hprobe ⊢
    rw [(State.activate_frame now old s).2.2.2.1, hengine]
    exact hprobe.imp_right (Or.imp_right (State.activate_linksKept now old s hwf).unchained)

/-- A slot that is DONE or POSTED after the activation stands at the work where it is not the probe's. -/
theorem State.activated_stands (hwf : s.xmem.wf = true) {k : Fin 16} (hair : s.engine.airSlot ≠ some k)
    (hchained : (s.activate now old).xmem.ownerIs k.val .chained = false) {i : Nat} (hi : i < 64) :
    ((s.activate now old).boundaryWorked now s.store.storedImage).xmem.peek (slotAddr k.val + i) =
      (s.activate now old).xmem.peek (slotAddr k.val + i) := by
  refine State.boundaryWorked_stands (State.activate_wrote now old s hwf).wf ?_ hchained hi
  rw [State.activate_engine]
  exact hair

/-- The work keeps a cause that is raised. -/
theorem State.boundaryWorked_keepsCause {p : Image} {u : State} {b : BitVec 12} (h : u.xmem.summary &&& b = b) :
    (u.boundaryWorked now p).xmem.summary &&& b = b := by
  rw [(State.boundaryWorked_raised now p u).1, causes_masked, h]
  exact causes_absorbed _

end still

end Sys2Proof.Machine
end

