-- ==== Sys2Proof/Proofs/ArmedCommit.lean ====
section
/-!
O11. An ARMED image comes into force at a boundary (R180), in the words of the statement.
-/

namespace Sys2Proof.Proofs
open Sys2Proof.Machine

section pictures
variable {now : SlotCount} {old : Image} {s : State}

/-- The blocks' work leaves the keys, the chords, the queue and the rebaseline that the activation has left. -/
theorem activated_keypad (p : Image) :
    let a := s.activate now old
    let t := a.boundaryWorked now p
    t.keypad.keys = (s.keysTaken old).keypad.keys ∧ t.keypad.chords = (s.keysTaken old).keypad.chords ∧
      t.keypad.fog = s.keypad.fog ∧ t.keypad.writeCounter = s.keypad.writeCounter ∧
      t.keypad.readCounter = s.keypad.readCounter ∧ t.keypad.gap = s.keypad.gap ∧
      t.keypad.rebaseline = (s.keypadDone old).keypad.rebaseline ∧
      t.keypad.stopPending = (s.keypadDone old).keypad.stopPending := by
  have hworked := State.boundaryWorked_keypad now p (s.activate now old)
  have hdone : (s.keypadDone old).keypad =
      { (s.keysTaken old).keypad with
        rebaseline := (s.keypadDone old).keypad.rebaseline, stopPending := (s.keypadDone old).keypad.stopPending } :=
    State.finishRebaseline_keypad
  have hkept := State.keysTaken_kept (old := old) (s := s)
  rw [State.activate_keypad] at hworked
  dsimp only
  refine ⟨?_, ?_, ?_, ?_, ?_, ?_, ?_, ?_⟩
  · rw [hworked, hdone]
  · rw [hworked, hdone]
  · rw [hworked, hdone, hkept]
  · rw [hworked, hdone, hkept]
  · rw [hworked, hdone, hkept]
  · rw [hworked, hdone, hkept]
  · rw [hworked]
  · rw [hworked]

/-- A byte that the blocks' work does not write, below or above the figures of the live page. -/
theorem activated_peek (p : Image) (hwf : s.xmem.wf = true) {a : Nat} (ha : a < memorySize)
    (h : a < 0x0C ∨ (0x0AC ≤ a ∧ a < 0x100) ∨ 0x500 ≤ a) :
    ((s.activate now old).boundaryWorked now p).xmem.peek a = (s.activate now old).xmem.peek a := by
  refine (State.boundaryWorked_writes now p _ (State.activate_wrote now old s hwf).wf).kept a ha ?_
  simp only [slipTableBytes, airBytes, climateBytes, List.cons_append, List.nil_append, outside_cons, outside_nil, and_true]
  omega

/-- The keypad controller takes the profile up (R149). -/
theorem keypadAdopted_of_activate (hwf : s.xmem.wf = true) :
    s.keypadAdopted old s.store.storedImage ((s.activate now old).boundaryWorked now s.store.storedImage) := by
  obtain ⟨hkeys, hchords, hfog, hwrite, hread, hgap, _, _⟩ :=
    activated_keypad (now := now) (old := old) (s := s) s.store.storedImage
  have htaken := State.keysTaken_profile old s
  have hnotice := (Keypad.adopted_profileTaken old s.store.storedImage s.keypad).2
  have hrail : ((s.activate now old).boundaryWorked now s.store.storedImage).rail =
      { s.rail with override := if (s.keypad.adopted old s.store.storedImage).2 then none else s.rail.override } :=
    (State.boundaryWorked_blocks now _ _).rail.trans (State.activate_rail now old s)
  obtain ⟨_, _, _, hshown⟩ := State.activate_shows now old s hwf
  refine ⟨fun k => ?_, fun c => ?_, ?_, fun k hlost => ?_, hfog, hwrite, hread, hgap⟩
  · rw [hkeys]
    exact htaken.keys k
  · rw [hchords]
    exact htaken.chords c
  · rw [hrail, hnotice]
    rfl
  · have hk := k.isLt
    rw [activated_peek _ hwf (by rw [memorySize]; omega) (by omega)]
    exact hshown k hlost

/-- A rebaseline in flight loses the keys that the profile disables, and ends where none is left that calibrates (R145, R149). -/
theorem rebaselineAdopted_of_activate (hwf : s.xmem.wf = true) :
    s.rebaselineAdopted old s.store.storedImage ((s.activate now old).boundaryWorked now s.store.storedImage) := by
  obtain ⟨hkeys, _, _, _, _, _, hset, hstop⟩ := activated_keypad (now := now) (old := old) (s := s) s.store.storedImage
  have hslot : ((s.activate now old).boundaryWorked now s.store.storedImage).engine.keypadSlot =
      (s.keypadDone old).engine.keypadSlot := by
    rw [State.boundaryWorked_engine, State.activate_keypadSlot]
  have hpending : (s.keysTaken old).keypad.stopPending = s.keypad.stopPending := by rw [State.keysTaken_kept]
  have hbound : (s.keysTaken old).engine.keypadSlot = s.engine.keypadSlot := by rw [State.keysTaken_engine]
  refine ⟨fun hnone => ?_, fun set left hbefore hleft => ?_⟩
  · have hnone' := (State.keysTaken_profile old s).noRebaseline hnone
    have hsame : s.keypadDone old = s.keysTaken old := by
      rw [State.keypadDone, State.finishRebaseline, hnone']
    rw [hset, hstop, hslot, hsame]
    exact ⟨hnone', hpending, hbound⟩
  · have hleft' := State.keysTaken_rebaseline hbefore hleft
    have hgoes : ((List.finRange 24).any fun k => left.getLsbD k.val &&
        ((s.activate now old).boundaryWorked now s.store.storedImage).keypad.keys[k].state == .calibrating) =
        (s.keysTaken old).rebaselineGoesOn left := State.rebaselineGoesOn_congr hkeys
    dsimp only
    rw [hgoes]
    refine ⟨fun hyes => ?_, fun hno => ?_⟩
    · rw [hset, hstop, hslot, State.keypadDone_goesOn hleft' hyes]
      exact ⟨hleft', hpending, hbound⟩
    · have hended := State.keypadDone_ends hleft' hno
      rw [hset, hstop, hslot]
      refine ⟨?_, ?_, ?_, fun n hn hstore hair => ?_⟩
      · rw [hended, State.endRebaseline_keypad]
      · rw [hended, State.endRebaseline_keypad]
      · rw [hended, (State.endRebaseline_report _ _ _).1]
      · obtain ⟨hcause, hshows, hothers⟩ := State.activate_rebaselineSlip (now := now) hwf hended hn
        have hresult := hshows hstore
        refine ⟨?_, State.boundaryWorked_keepsCause hcause, fun m hm hnext hchained hmstore hmair => ?_⟩
        · exact Exchange.showsResult_of_stands
            (fun i hi => State.activated_stands hwf hair (Exchange.showsResult_done hresult) hi) hresult
        · have hposted := hothers m hm hnext hchained hmstore
          have hnot : (s.activate now old).xmem.ownerIs m.val .chained = false := by
            rw [Exchange.ownerIs, beq_iff_eq.mp hposted]
            rfl
          have hstands := State.activated_stands (now := now) hwf hmair hnot (i := 0) (by omega)
          rw [Nat.add_zero] at hstands
          rw [Exchange.ownerIs, hstands]
          exact hposted

/-- The commit's slip at the end of the boundary (R180). -/
theorem commitSlip_of_activate (hwf : s.xmem.wf = true) {n : Fin 16} (hslot : s.engine.storeSlot = some n)
    (hair : s.engine.airSlot ≠ some n) :
    let t := (s.activate now old).boundaryWorked now s.store.storedImage
    t.engine.storeSlot = none ∧ t.xmem.showsResult n .ok (le16 (u16 s.store.storedImage 1022)) ∧
      t.xmem.summary &&& Cause.slipDone.bit = Cause.slipDone.bit := by
  obtain ⟨hresult, hcause⟩ := State.activate_commitSlip now old s hwf hslot
  refine ⟨?_, ?_, State.boundaryWorked_keepsCause hcause⟩
  · rw [State.boundaryWorked_engine, State.activate_engine]
  · exact Exchange.showsResult_of_stands
      (fun i hi => State.activated_stands hwf hair (Exchange.showsResult_done hresult) hi) hresult

/-- The bytes of a boundary that brings an image into force hold those of the work. -/
theorem noticeBytes_within (c : BitVec 12) (b : Bool) : rangesCover (slipBytes true) (noticeBytes c b) = true := by
  rw [noticeBytes_eq]
  generalize (c != 0) = i
  revert i b
  decide

theorem causes_again (x c : BitVec 12) : x ||| c = x ||| (x ||| c) := by rw [← BitVec.or_assoc, BitVec.or_self]

/-- A boundary that brings an image into force changes nothing else. -/
theorem activationFramed_of_activate (hwf : s.xmem.wf = true) :
    s.activationFramed old s.store.storedImage
      ((s.boundaryMarked.activate now old).boundaryWorked now s.store.storedImage) := by
  have hmarked : s.boundaryMarked.xmem.wf = true := hwf
  obtain ⟨htime, hsense, hclimate, hair, hlow, hfresh, hqueue⟩ := State.activate_frame now old s.boundaryMarked
  have hrail := State.activate_rail now old s.boundaryMarked
  have hmon := State.activate_mon now old s.boundaryMarked
  have hwrote : s.xmem.writes (slipBytes true ++ [(0x04, 1), (0x0AE, 2)] ++ lostBytes old s.store.storedImage)
      (s.boundaryMarked.activate now old).xmem := State.activate_wrote now old s.boundaryMarked
  obtain ⟨c, hraised⟩ := State.activate_raised now old s.boundaryMarked
  obtain ⟨_, hinputs, hladder, _⟩ := State.activate_shows now old s.boundaryMarked hmarked
  have hpeek {a : Nat} := activated_peek (now := now) (old := old) (a := a) s.store.storedImage hmarked
  generalize s.boundaryMarked.activate now old = a at *
  have hblocks := State.boundaryWorked_blocks now s.store.storedImage a
  have hnotice := State.probed_notice now s.store.storedImage a
  have hpublished := (State.boundaryWorked_published now s.store.storedImage a).1
  have hworkRaised := State.boundaryWorked_raised now s.store.storedImage a
  have hoverride := State.boundaryWorked_override now s.store.storedImage a
  have hfloor := State.boundaryWorked_floor now s.store.storedImage a
  have hreference := State.boundaryWorked_reference now s.store.storedImage a
  have hshown := (State.boundaryWorked_shows now s.store.storedImage a (hwrote hmarked).wf).2
  dsimp only at hworkRaised
  generalize hworked : a.boundaryWorked now s.store.storedImage = t at *
  have hrailKept : t.rail = { s.rail with override := t.rail.override } := by
    rw [hblocks.rail, hrail]
    rfl
  have hmonKept : t.mon = { s.mon with ladderIndex := t.mon.ladderIndex } := by
    rw [hblocks.mon, hmon]
    rfl
  have hinputsByte : t.inputsByte s.store.storedImage = s.inputsByte s.store.storedImage := by
    unfold State.inputsByte State.inputActive
    rw [hrailKept]
  refine ⟨?_, fun z => ?_, fun f => ?_, ?_, fun hmoved => ?_, ?_, hshown, ?_⟩
  · exact State.ext_blocks (hblocks.time.trans htime) (hblocks.sense.trans hsense) rfl rfl hrailKept hmonKept rfl rfl rfl rfl
      (hblocks.supplyLow.trans hlow) (hblocks.fresh.trans hfresh) (hblocks.pending.trans hqueue)
  · rw [hoverride z, hclimate]
    rfl
  · rw [hfloor f, hair]
    rfl
  · rw [hreference, hair]
    rfl
  · rw [hpeek (by decide) (by decide), hblocks.mon]
    rw [hblocks.mon] at hmoved
    exact hladder hmoved
  · rw [hpeek (by decide) (by decide), hinputsByte]
    exact hinputs
  · have hfirst : s.xmem.writes (boundaryBytes ++ slipBytes true ++ [(0x04, 1), (0x0AE, 2)] ++
        lostBytes old s.store.storedImage) a.xmem := hwrote.mono (rangesCover_of_subset (by simp))
    have hprobe := hnotice.writes.mono (rs := boundaryBytes ++ slipBytes true ++ [(0x04, 1), (0x0AE, 2)] ++
      lostBytes old s.store.storedImage)
      (rangesCover_trans (qs := slipBytes true) (rangesCover_of_subset (by simp)) (noticeBytes_within _ _))
    have hall := hfirst.trans (hprobe.trans (hpublished.mono (rangesCover_of_subset (by simp))))
    refine hall.partWrote hwf ⟨?_, (hraised.trans hworkRaised).2⟩
    have hsummary : t.xmem.summary = s.xmem.summary ||| _ := (hraised.trans hworkRaised).1
    refine hsummary.trans ?_
    rw [hsummary]
    exact causes_again _ _

end pictures

/-- Settles O11: the activation, then the blocks' work, with what the engine takes after each. -/
theorem armedCommitTakesEffectAtTheBoundary : Obligations.ArmedCommitTakesEffectAtTheBoundary := by
  rintro s p q now hp hwf hdue harmed rfl
  refine ⟨_, exec_windowBoundary_armed hp hdue harmed, ?_⟩
  have hmarked : s.boundaryMarked.xmem.wf = true := hwf
  have hq : s.boundaryMarked.store.storedImage = s.store.storedImage := rfl
  have hwrote := (State.activate_wrote now p s.boundaryMarked hmarked).wf
  have hflags := (State.activate_shows now p s.boundaryMarked hmarked).1
  have hladder := congrArg Monitor.ladderIndex (State.activate_mon now p s.boundaryMarked)
  have hforce := State.activate_inForce now p s.boundaryMarked
  have hsense := (State.activate_frame now p s.boundaryMarked).2.1
  have hstore := State.activate_store now p s.boundaryMarked
  have hstill (htakes : s.activationTakesNone p s.store.storedImage) :
      (((s.boundaryMarked.activate now p).arbitrate now s.store.storedImage).boundaryWorked now
        s.store.storedImage).arbitrate now s.store.storedImage =
      (s.boundaryMarked.activate now p).boundaryWorked now s.store.storedImage := by
    obtain ⟨hfirst, hsecond⟩ := State.activated_still (s := s.boundaryMarked) (now := now) hmarked htakes
    rw [hq] at hfirst hsecond
    rw [hfirst, hsecond]
  have hkeypad := keypadAdopted_of_activate (now := now) (old := p) hmarked
  have hrebaseline := rebaselineAdopted_of_activate (now := now) (old := p) hmarked
  have hslip {n : Fin 16} := commitSlip_of_activate (now := now) (old := p) (n := n) hmarked
  have hframe := activationFramed_of_activate (now := now) (old := p) hwf
  rw [hq] at hforce hkeypad hrebaseline
  generalize s.boundaryMarked.activate now p = a at *
  have hb := State.arbitrate_slipKeeps (u := a) now s.store.storedImage
  have hbsense := (State.arbitrate_frame now s.store.storedImage a).2.1
  have hbwf : (a.arbitrate now s.store.storedImage).xmem.wf = true := (hb.above hwrote).wf
  have hwork := State.boundaryWorked_blocks now s.store.storedImage (a.arbitrate now s.store.storedImage)
  have hworkMem := State.boundaryWorked_writes now s.store.storedImage _ hbwf
  have hworkStore := State.boundaryWorked_store now s.store.storedImage (a.arbitrate now s.store.storedImage)
  have hfigures := (State.boundaryWorked_shows now s.store.storedImage _ hbwf).1
  have ht := State.arbitrate_slipKeeps
    (u := (a.arbitrate now s.store.storedImage).boundaryWorked now s.store.storedImage) now s.store.storedImage
  have htsense := (State.arbitrate_frame now s.store.storedImage
    ((a.arbitrate now s.store.storedImage).boundaryWorked now s.store.storedImage)).2.1
  have hgrants := State.boundary_allotment ht
  have hinForce := ((hforce.slip hb.store).work hworkStore).slip ht.store
  refine ⟨hinForce.active, hinForce.factory, hinForce.armed, hinForce.image, hinForce.held, ?_, ?_, hgrants, ?_,
    fun htakes => ?_, fun htakes hwaiting => ?_, fun htakes n hn hair => ?_, State.allotted_of_grants hgrants,
    fun htakes => ?_, ⟨fun z => ?_, ?_, fun f => ?_⟩, fun htakes => ?_⟩
  · rw [(ht.above hworkMem.wf).kept 0x04 (by decide) (by decide), hworkMem.kept 0x04 (by decide) (by decide),
      (hb.above hwrote).kept 0x04 (by decide) (by decide)]
    exact hflags
  · rw [ht.ladder, hwork.mon, hb.ladder]
    exact hladder
  · exact htsense.trans (hwork.sense.trans (hbsense.trans hsense))
  · rw [hstill htakes]
    exact hkeypad
  · have hidle : a.store.commit = .idle := by rw [hstore]
    rw [hstill htakes]
    obtain hsame | hbegun := State.boundaryWorked_service (now := now) (p := s.store.storedImage) hidle
    · rw [hsame, hstore]
      exact ⟨if_pos hwaiting, if_pos hwaiting⟩
    · exact hbegun
  · rw [hstill htakes]
    exact hslip hn hair
  · rw [hstill htakes]
    exact hrebaseline
  · exact State.boundary_zoneShown hbwf hwork ht z
  · rw [ht.climate.figures]
    exact ht.shows hworkMem.wf hfigures (by decide) (by rw [List.length_append, le16_length, le16_length]; decide)
  · exact State.boundary_fanShown hbwf ht f
  · rw [hstill htakes]
    exact hframe

end Sys2Proof.Proofs
end
